-- ==== Sys2Proof/Word.lean ====
section
/-! DEFINITION. The word types of the Z40 and their plainest helpers (00_scope R3, R4). -/
namespace Sys2Proof

/-- A byte of memory (00_scope R4). -/
abbrev Byte := BitVec 8
/-- A register word (01_execution R34). -/
abbrev Word := BitVec 32
/-- A 64-bit address operand or trap address (02_encoding R61, 11_faults R251). -/
abbrev DWord := BitVec 64
/-- A program counter: a 57-bit virtual address (01_execution R54). -/
abbrev PcAddr := BitVec 57
/-- A 7-bit register field (02_encoding R60). -/
abbrev Reg := BitVec 7
/-- A 4-bit predicate field (02_encoding R62). -/
abbrev PReg := BitVec 4

/-- One or zero as a natural number. -/
def bit01 (b : Bool) : Nat := if b then 1 else 0

end Sys2Proof
end

