-- ==== Sys2Proof/Syntax.lean ====
section
/-! DEFINITION. The syntax of the Orseod 1.0 instruction words and of the machine's own steps: one constructor of Instr per row of spec/opcode_table.json. -/
namespace Sys2Proof

/-- Format tags (01_execution R43); code 14 is reserved and no instruction produces it. -/
inductive Tag where
  | si32 | ui32 | f32 | bf16x2 | f16x2 | e4m3x4 | e5m2x4 | si8x4 | ui8x4 | e2m1x8 | si4x8 | e2m3p | e3m2p | e8m0x4 | raw
deriving DecidableEq, Repr

/-- The 4-bit code of a format tag (R43). -/
def Tag.code : Tag → Nat
  | .si32 => 0 | .ui32 => 1 | .f32 => 2 | .bf16x2 => 3 | .f16x2 => 4 | .e4m3x4 => 5 | .e5m2x4 => 6 | .si8x4 => 7
  | .ui8x4 => 8 | .e2m1x8 => 9 | .si4x8 => 10 | .e2m3p => 11 | .e3m2p => 12 | .e8m0x4 => 13 | .raw => 15

/-- The format tag with a given code; code 14 names none (R43). -/
def Tag.ofCode : Nat → Option Tag
  | 0 => some .si32 | 1 => some .ui32 | 2 => some .f32 | 3 => some .bf16x2 | 4 => some .f16x2 | 5 => some .e4m3x4
  | 6 => some .e5m2x4 | 7 => some .si8x4 | 8 => some .ui8x4 | 9 => some .e2m1x8 | 10 => some .si4x8 | 11 => some .e2m3p
  | 12 => some .e3m2p | 13 => some .e8m0x4 | 15 => some .raw | _ => none

/-- Compare conditions (02_encoding R65). -/
inductive Cond where
  | eq | ne | lt | le | gt | ge | ltu | leu | gtu | geu | ord | uno
deriving DecidableEq, Repr

/-- The 4-bit code of a condition (R65). -/
def Cond.code : Cond → Nat
  | .eq => 0 | .ne => 1 | .lt => 2 | .le => 3 | .gt => 4 | .ge => 5 | .ltu => 6 | .leu => 7 | .gtu => 8 | .geu => 9
  | .ord => 10 | .uno => 11

/-- The condition with a given code; 12 to 15 are illegal (R65). -/
def Cond.ofCode : Nat → Option Cond
  | 0 => some .eq | 1 => some .ne | 2 => some .lt | 3 => some .le | 4 => some .gt | 5 => some .ge | 6 => some .ltu
  | 7 => some .leu | 8 => some .gtu | 9 => some .geu | 10 => some .ord | 11 => some .uno | _ => none

/-- How a compare writes its predicate (R65, R329). -/
inductive CmpMode where
  | set | andInto | orInto
deriving DecidableEq, Repr

def CmpMode.code : CmpMode → Nat
  | .set => 0 | .andInto => 1 | .orInto => 2

def CmpMode.ofCode : Nat → Option CmpMode
  | 0 => some .set | 1 => some .andInto | 2 => some .orInto | _ => none

/-- Address spaces of LD and ST (R68, 05_memory R133). -/
inductive Space where
  | global | scratch | team
deriving DecidableEq, Repr

def Space.code : Space → Nat
  | .global => 0 | .scratch => 1 | .team => 2

def Space.ofCode : Nat → Option Space
  | 0 => some .global | 1 => some .scratch | 2 => some .team | _ => none

/-- Semantics of an atomic (R69). -/
inductive Sem where
  | relaxed | acquire | release | acqRel
deriving DecidableEq, Repr

def Sem.code : Sem → Nat
  | .relaxed => 0 | .acquire => 1 | .release => 2 | .acqRel => 3

def Sem.ofCode : Nat → Option Sem
  | 0 => some .relaxed | 1 => some .acquire | 2 => some .release | 3 => some .acqRel | _ => none

/-- Rounding modes (01_execution R49, 03_arithmetic R102). -/
inductive RMode where
  | rne | rtz | rup | rdn
deriving DecidableEq, Repr

def RMode.code : RMode → Nat
  | .rne => 0 | .rtz => 1 | .rup => 2 | .rdn => 3

def RMode.ofCode : Nat → Option RMode
  | 0 => some .rne | 1 => some .rtz | 2 => some .rup | 3 => some .rdn | _ => none

/-- FENCE kinds (R74 template FN, 06_consistency R163). -/
inductive FenceKind where
  | acq | rel | acqRel | sc
deriving DecidableEq, Repr

def FenceKind.code : FenceKind → Nat
  | .acq => 0 | .rel => 1 | .acqRel => 2 | .sc => 3

def FenceKind.ofCode : Nat → Option FenceKind
  | 0 => some .acq | 1 => some .rel | 2 => some .acqRel | 3 => some .sc | _ => none

/-- Element formats of TFILL and TDRAIN (R71). -/
inductive TileFmt where
  | word | bf16 | f16
deriving DecidableEq, Repr

def TileFmt.code : TileFmt → Nat
  | .word => 0 | .bf16 => 1 | .f16 => 2

def TileFmt.ofCode : Nat → Option TileFmt
  | 0 => some .word | 1 => some .bf16 | 2 => some .f16 | _ => none

/-- Operations of ATOM (R69, 15_ref R318). -/
inductive AtomOp where
  | add | min | max | and | or | xor | xchg | incw | decw
deriving DecidableEq, Repr

/-- Kinds of exact-reduction contribution (R69, 16_ref R368). -/
inductive RedKind where
  | add | min | max
deriving DecidableEq, Repr

/-- What a request arriving from another package asks (13_fabric R289). -/
inductive RemoteKind where
  | load (n : Nat)
  | store (bytes : List Byte)
  | atom (op : AtomOp) (tag : Tag) (x : Word)
  | cas (expected new : Word)
  | red (kind : RedKind) (tag : Tag) (x : Word)
  /-- A work record of a channel of that package, with its 128 bytes (R295 to R298). -/
  | record (chan : Nat) (bytes : List Byte)
deriving DecidableEq, Repr

/-- A request arriving from another package (13_fabric R289): its package and context, its local address here, what it asks. -/
structure RemoteReq where
  peer : Nat
  ctx  : Nat
  pa   : Nat
  kind : RemoteKind
deriving DecidableEq, Repr

/-- What another member of a Millefeuille group gives to a job (13_fabric R299 to R301). -/
structure JobMember where
  rank : Nat
  op : Nat
  algo : Nat
  sqz : Nat
  root : Nat
  count : Nat
  order : List Nat
  data : List Byte
deriving DecidableEq, Repr

/-- What boot finds of one image (14_system R312). -/
structure BootImage where
  image : Nat
  rsaOk : Bool
  slhOk : Bool
  version : Nat
  rollback : Nat
  measurement : Nat
deriving DecidableEq, Repr

/-- What the Jalley kernel creates a context with (11_faults R259, R266, 14_system R306). -/
structure ContextInit where
  asid : Nat
  pasid : Nat
  ptroot : Nat
  trapvec : PcAddr
  privileged : Bool
  status : Nat
  part : Nat
  backed : List (Nat × Nat)
deriving DecidableEq, Repr

/-- What the Jalley kernel creates a user or task queue with (10_scheduling R231, 09_crumbs R222): its number, the frame and the engine address of its descriptor, its ring, size and priority. -/
structure QueueInit where
  num : Nat
  desc : Nat
  va : Nat
  ring : Nat
  size : Nat
  prio : Nat
deriving DecidableEq, Repr

/-- What the Jalley kernel creates a work channel with (13_fabric R295). -/
structure ChannelInit where
  chan : Nat
  desc : Nat
  ring : Nat
  size : Nat
  peer : Nat
  ethernet : Bool
deriving DecidableEq, Repr

/-- What the Jalley kernel creates a Millefeuille group with (13_fabric R299): its members in rank order, each with its package and whether its transport is Ultra Ethernet. -/
structure GroupInit where
  num : Nat
  nranks : Nat
  rank : Nat
  members : List (Nat × Bool)
deriving DecidableEq, Repr

/-- Squeeze types of an extent (05_memory R140). -/
inductive SqzType where
  | f32 | bf16 | f16
deriving DecidableEq, Repr

/-- What the Jalley kernel gives a partition beside its cores (14_system R309): whole slices, ranges of crumb counters as slice, first index and count, a memory quota in bytes, ranges of ASIDs as first and count, numbers of user and task queues, the overflow pool, the timeout of 13_fabric R290, the log quota of 07_transactions R189, the protected and persist settings. -/
structure PartInit where
  slices : List Nat
  counters : List (Nat × Nat × Nat)
  memory : Nat
  asids : List (Nat × Nat)
  userQueues : Nat
  taskQueues : Nat
  pool : Nat
  timeout : Nat
  logQuota : Nat
  prot : Bool
  persist : Bool
deriving DecidableEq, Repr

/-- A page the kernel exports to a context of another package (13_fabric R289), with the form its own entry gives it (05_memory R142). -/
structure ExportInit where
  peer : Nat
  ctx : Nat
  pa : Nat
  size : Nat
  writable : Bool
  sqz : Nat
  chk : Bool
deriving DecidableEq, Repr

/-- The receiving side of a work channel (13_fabric R295, R296): the sender's package and channel number, the receiving context, the frame address of slot 0, the size of the ring, and the address of the consumed word. -/
structure RecvInit where
  peer : Nat
  chan : Nat
  ctx : Nat
  ring : Nat
  size : Nat
  word : Nat
deriving DecidableEq, Repr

/-- An encoding session (14_system R310): its number, partition, encoder, the address of its doorbell word, and slots per frame. -/
structure SessionInit where
  num : Nat
  part : Nat
  encoder : Nat
  doorbell : Nat
  slots : Nat
deriving DecidableEq, Repr

/-- What the Jalley kernel sets without a step that the opcode table names. -/
inductive KernelAct where
  /-- The squeeze type of an extent that no entry maps (05_memory R140). -/
  | squeezeType (extent : Nat) (ty : SqzType)
  /-- A write of the kernel: a page-table entry, the scrub of a sector (R153). -/
  | write (pa : Nat) (bytes : List Byte)
  /-- What a partition holds (14_system R309). -/
  | partition (part : Nat) (init : PartInit)
  /-- The ranges a context's memory map declares backed (11_faults R259). -/
  | backing (ctx : Nat) (ranges : List (Nat × Nat))
  /-- An export to another package, and its end (13_fabric R289). -/
  | exportPage (init : ExportInit)
  | unexport (peer ctx pa : Nat)
  /-- The refusal of an address that a context of another package has missed at (R289). -/
  | refuseExport (peer ctx pa : Nat)
  /-- The receiving side of a work channel (R295, R296). -/
  | receiver (init : RecvInit)
  /-- ENABLED of a task queue (09_crumbs R222) or a work channel (13_fabric R295). -/
  | taskQueueEnable (num : Nat) (on : Bool)
  | channelEnable (chan : Nat) (on : Bool)
  /-- An encoding session, and the reservations of an encoder's slots (14_system R310). -/
  | session (init : SessionInit)
  | encoderSlots (enc : Nat) (slots : List (Option Nat))
deriving DecidableEq, Repr

/-- What the host does that no event of the opcode table takes: reads and writes of its own memory (06_consistency R155, R176), of the management mailbox and of BAR0 (14_system R303), and the clearing of bits in a context status block (R306). -/
inductive HostAct where
  | write (pa : Nat) (bytes : List Byte)
  | read (pa : Nat) (n : Nat)
  | mailboxWrite (offset : Nat) (bytes : List Byte)
  | mailboxRead (offset : Nat) (n : Nat)
  | windowRead (offset : Nat) (n : Nat)
  | clearStatus (ctx : Nat) (bits : BitVec 6)
deriving DecidableEq, Repr

/-- Where pre-emption writes one crew (01_execution R52, 11_faults R261). -/
structure SaveArea where
  crew : Nat
  area : Nat
  image : Nat
deriving DecidableEq, Repr

/-- What reaches the package from outside its hardware, in the order it came: the host, the Jalley kernel, other packages. An event of its kind takes it; an act of the kernel or of the host without one lands between two steps. -/
inductive Input where
  /-- A notify write of the host (10_scheduling R232). -/
  | notify (qid : Nat) (tail : Word) (width : Nat)
  /-- Creations by the Jalley kernel (11_faults R266, 10_scheduling R231, 09_crumbs R222, R226, 13_fabric R295, R299). -/
  | context (init : ContextInit)
  | userQueue (ctx : Nat) (init : QueueInit)
  | taskQueue (ctx : Nat) (init : QueueInit)
  | pipe (ctx : Nat) (pipe : Nat) (die : Nat) (slice : Nat) (gen : BitVec 16)
  | workChannel (ctx : Nat) (init : ChannelInit)
  | group (ctx : Nat) (init : GroupInit)
  /-- A request for an attestation report (14_system R312): through BAR2, or through the management endpoint on Ultra Ethernet, whose peer SPDM has authenticated or not. -/
  | attestation (ethernet authentic : Bool) (nonce : Nat)
  /-- The images boot finds (R312). -/
  | images (images : List BootImage)
  /-- The extents the kernel names as homed at boot, each with its slice (05_memory R138, R140). -/
  | homing (extents : List (Nat × Nat))
  | kernel (act : KernelAct)
  | host (act : HostAct)
  /-- A request of another package (13_fabric R289). -/
  | request (req : RemoteReq)
  /-- A count of records consumed, from a receiver (13_fabric R296). -/
  | consumed (chan : Nat) (count : Word)
  /-- What the other members of a group give to a job (13_fabric R299). -/
  | members (group : Nat) (members : List JobMember)
  /-- A partition's new cores (10_scheduling R249). -/
  | resize (part : Nat) (cores : List Nat)
  /-- Pre-emption of a team, with the areas chosen for its crews (11_faults R261). -/
  | preempt (team : Nat) (areas : List SaveArea)
deriving DecidableEq, Repr

/-- The SRAM arrays and the HBM (05_memory R153, R154). -/
inductive SramArray where
  | registerFile | scratchpad | l1 | tileStore | l2 | crumbs | reductionBuffer | hbm
deriving DecidableEq, Repr

/-- A datum that an uncorrectable error can mark (05_memory R153): of memory, a scratchpad, a register file or a tile store; of a sector that the L1 of a core or the remote-read cache of a die holds; of a crumb counter, a contribution in a core's reduction buffer, an exact accumulator. -/
inductive Datum where
  | memory (pa : Nat)
  | scratch (crew : Nat) (offset : Nat)
  | register (crew : Nat) (rank : Nat) (r : Reg)
  | tileWord (crew : Nat) (t : Nat) (word : Nat)
  | l1Sector (core : Nat) (pa : Nat)
  | remoteSector (die : Nat) (pa : Nat)
  | counter (slice : Nat) (index : Nat)
  | contribution (core : Nat) (n : Nat)
  | accumulator (pa : Nat)
deriving DecidableEq, Repr

/-- The units the lanes of a core share (10_scheduling R248). -/
inductive CoreUnit where
  | matrix | sfu | loadStore | tileStore | enginePorts
deriving DecidableEq, Repr

/-- The instruction words and the machine's steps, those without an argument last; an event that takes an `Input` finds it in the state. The first argument `e` of a word is its B bit where the word leaves it free (02_encoding R57). -/
inductive Instr where
  /-- ADD_A3 (R315). -/
  | addA3 (e : Bool) (d : Reg) (a : Reg) (b : Reg)
  /-- ADD_AI (R315). -/
  | addAi (e : Bool) (d : Reg) (a : Reg) (imm : BitVec 7)
  /-- SUB_A3 (R376). -/
  | subA3 (e : Bool) (d : Reg) (a : Reg) (b : Reg)
  /-- SUB_AI (R376). -/
  | subAi (e : Bool) (d : Reg) (a : Reg) (imm : BitVec 7)
  /-- MUL_A3 (R354). -/
  | mulA3 (e : Bool) (d : Reg) (a : Reg) (b : Reg)
  /-- MUL_AI (R354). -/
  | mulAi (e : Bool) (d : Reg) (a : Reg) (imm : BitVec 7)
  /-- MULHI (R354). -/
  | mulhi (e : Bool) (d : Reg) (a : Reg) (b : Reg)
  /-- MA (R354). -/
  | ma (e : Bool) (d : Reg) (a : Reg) (b : Reg)
  /-- MIN_A3 (R354). -/
  | minA3 (e : Bool) (d : Reg) (a : Reg) (b : Reg)
  /-- MIN_AI (R354). -/
  | minAi (e : Bool) (d : Reg) (a : Reg) (imm : BitVec 7)
  /-- MAX_A3 (R354). -/
  | maxA3 (e : Bool) (d : Reg) (a : Reg) (b : Reg)
  /-- MAX_AI (R354). -/
  | maxAi (e : Bool) (d : Reg) (a : Reg) (imm : BitVec 7)
  /-- AND_A3 (R315). -/
  | andA3 (e : Bool) (d : Reg) (a : Reg) (b : Reg)
  /-- AND_AI (R315). -/
  | andAi (e : Bool) (d : Reg) (a : Reg) (imm : BitVec 7)
  /-- OR_A3 (R354). -/
  | orA3 (e : Bool) (d : Reg) (a : Reg) (b : Reg)
  /-- OR_AI (R354). -/
  | orAi (e : Bool) (d : Reg) (a : Reg) (imm : BitVec 7)
  /-- XOR_A3 (R406). -/
  | xorA3 (e : Bool) (d : Reg) (a : Reg) (b : Reg)
  /-- XOR_AI (R406). -/
  | xorAi (e : Bool) (d : Reg) (a : Reg) (imm : BitVec 7)
  /-- SHL_A3 (R376). -/
  | shlA3 (e : Bool) (d : Reg) (a : Reg) (b : Reg)
  /-- SHL_AI (R376). -/
  | shlAi (e : Bool) (d : Reg) (a : Reg) (imm : BitVec 7)
  /-- SHR_A3 (R376). -/
  | shrA3 (e : Bool) (d : Reg) (a : Reg) (b : Reg)
  /-- SHR_AI (R376). -/
  | shrAi (e : Bool) (d : Reg) (a : Reg) (imm : BitVec 7)
  /-- SAR_A3 (R376). -/
  | sarA3 (e : Bool) (d : Reg) (a : Reg) (b : Reg)
  /-- SAR_AI (R376). -/
  | sarAi (e : Bool) (d : Reg) (a : Reg) (imm : BitVec 7)
  /-- ROT_A3 (R354). -/
  | rotA3 (e : Bool) (d : Reg) (a : Reg) (b : Reg)
  /-- ROT_AI (R354). -/
  | rotAi (e : Bool) (d : Reg) (a : Reg) (imm : BitVec 7)
  /-- BFE (R316). -/
  | bfe (e : Bool) (d : Reg) (a : Reg) (b : Reg)
  /-- BFI (R316). -/
  | bfi (e : Bool) (d : Reg) (a : Reg) (b : Reg)
  /-- LEA_A3 (R353). -/
  | leaA3 (e : Bool) (d : Reg) (a : Reg) (b : Reg)
  /-- LEA_AI (R353). -/
  | leaAi (e : Bool) (d : Reg) (a : Reg) (imm : BitVec 7)
  /-- MOV (R354). -/
  | mov (e : Bool) (d : Reg) (a : Reg)
  /-- NEG (R354). -/
  | neg (e : Bool) (d : Reg) (a : Reg)
  /-- ABS (R315). -/
  | abs (e : Bool) (d : Reg) (a : Reg)
  /-- NOT (R354). -/
  | notR (e : Bool) (d : Reg) (a : Reg)
  /-- POPC (R354). -/
  | popc (e : Bool) (d : Reg) (a : Reg)
  /-- CLZ (R315). -/
  | clz (e : Bool) (d : Reg) (a : Reg)
  /-- BREV (R315). -/
  | brev (e : Bool) (d : Reg) (a : Reg)
  /-- DOT4 (R131). -/
  | dot4 (e : Bool) (d : Reg) (a : Reg) (b : Reg)
  /-- DOTT (R130). -/
  | dott (e : Bool) (d : Reg) (a : Reg) (b : Reg)
  /-- LDI (R352). -/
  | ldi (e : Bool) (d : Reg) (imm : BitVec 14)
  /-- CMP (R329). -/
  | cmp (e : Bool) (cond : Cond) (pd : PReg) (mode : CmpMode) (a : Reg) (b : Reg)
  /-- CMPI (R329). -/
  | cmpi (e : Bool) (cond : Cond) (pd : PReg) (mode : CmpMode) (a : Reg) (imm : BitVec 7)
  /-- PAND (R363). -/
  | pand (e : Bool) (pd : PReg) (pa : PReg) (pb : PReg)
  /-- POR (R363). -/
  | por (e : Bool) (pd : PReg) (pa : PReg) (pb : PReg)
  /-- PXOR (R363). -/
  | pxor (e : Bool) (pd : PReg) (pa : PReg) (pb : PReg)
  /-- PNOT (R363). -/
  | pnot (e : Bool) (pd : PReg) (pa : PReg)
  /-- PMOV_TO_REGISTER (R364). -/
  | pmovToRegister (e : Bool) (v : Reg) (mask : BitVec 16)
  /-- PMOV_TO_PREDICATES (R364). -/
  | pmovToPredicates (e : Bool) (v : Reg) (mask : BitVec 16)
  /-- SEL (R380). -/
  | sel (e : Bool) (ps : PReg) (inv : Bool) (d : Reg) (a : Reg) (b : Reg)
  /-- BRA (R323). -/
  | bra (p : PReg) (pol : Bool) (off : BitVec 22)
  /-- LD (R350). -/
  | ld (e : Bool) (fmt : Tag) (space : Space) (seq : BitVec 4) (d : Reg) (a : Reg) (cnt : BitVec 2) (acq : Bool)
  /-- ST (R388). -/
  | st (e : Bool) (fmt : Tag) (space : Space) (seq : BitVec 4) (v : Reg) (a : Reg) (cnt : BitVec 2) (rel : Bool)
  /-- ATOM_ADD (R318). -/
  | atomAdd (e : Bool) (scope : BitVec 3) (sem : Sem) (seq : BitVec 4) (d : Reg) (a : Reg)
  /-- ATOM_MIN (R318). -/
  | atomMin (e : Bool) (scope : BitVec 3) (sem : Sem) (seq : BitVec 4) (d : Reg) (a : Reg)
  /-- ATOM_MAX (R318). -/
  | atomMax (e : Bool) (scope : BitVec 3) (sem : Sem) (seq : BitVec 4) (d : Reg) (a : Reg)
  /-- ATOM_AND (R318). -/
  | atomAnd (e : Bool) (scope : BitVec 3) (sem : Sem) (seq : BitVec 4) (d : Reg) (a : Reg)
  /-- ATOM_OR (R318). -/
  | atomOr (e : Bool) (scope : BitVec 3) (sem : Sem) (seq : BitVec 4) (d : Reg) (a : Reg)
  /-- ATOM_XOR (R318). -/
  | atomXor (e : Bool) (scope : BitVec 3) (sem : Sem) (seq : BitVec 4) (d : Reg) (a : Reg)
  /-- ATOM_XCHG (R318). -/
  | atomXchg (e : Bool) (scope : BitVec 3) (sem : Sem) (seq : BitVec 4) (d : Reg) (a : Reg)
  /-- ATOM_INCW (R318). -/
  | atomIncw (e : Bool) (scope : BitVec 3) (sem : Sem) (seq : BitVec 4) (d : Reg) (a : Reg)
  /-- ATOM_DECW (R318). -/
  | atomDecw (e : Bool) (scope : BitVec 3) (sem : Sem) (seq : BitVec 4) (d : Reg) (a : Reg)
  /-- CAS (R326). -/
  | cas (e : Bool) (scope : BitVec 3) (sem : Sem) (seq : BitVec 4) (d : Reg) (a : Reg)
  /-- RED_ADD (R368). -/
  | redAdd (e : Bool) (scope : BitVec 3) (rel : Bool) (seq : BitVec 4) (d : Reg) (a : Reg)
  /-- RED_MIN (R368). -/
  | redMin (e : Bool) (scope : BitVec 3) (rel : Bool) (seq : BitVec 4) (d : Reg) (a : Reg)
  /-- RED_MAX (R368). -/
  | redMax (e : Bool) (scope : BitVec 3) (rel : Bool) (seq : BitVec 4) (d : Reg) (a : Reg)
  /-- RSETTLE (R369). -/
  | rsettle (e : Bool) (scope : BitVec 3) (seq : BitVec 4) (a : Reg)
  /-- MMA_BF16 (R120). -/
  | mmaBf16 (e : Bool) (t : BitVec 8) (a : Reg) (b : Reg) (negate : Bool)
  /-- MMA_F16 (R120). -/
  | mmaF16 (e : Bool) (t : BitVec 8) (a : Reg) (b : Reg) (negate : Bool)
  /-- MMA_E4M3 (R120). -/
  | mmaE4m3 (e : Bool) (t : BitVec 8) (a : Reg) (b : Reg) (negate : Bool)
  /-- MMA_E5M2 (R120). -/
  | mmaE5m2 (e : Bool) (t : BitVec 8) (a : Reg) (b : Reg) (negate : Bool)
  /-- MMA_SI8 (R120). -/
  | mmaSi8 (e : Bool) (t : BitVec 8) (a : Reg) (b : Reg) (negate : Bool)
  /-- MMA_UI8 (R120). -/
  | mmaUi8 (e : Bool) (t : BitVec 8) (a : Reg) (b : Reg) (negate : Bool)
  /-- MMAS_E2M1 (R120). -/
  | mmasE2m1 (e : Bool) (t : BitVec 8) (a : Reg) (b : Reg) (negate : Bool)
  /-- MMAS_E2M3 (R120). -/
  | mmasE2m3 (e : Bool) (t : BitVec 8) (a : Reg) (b : Reg) (negate : Bool)
  /-- MMAS_E3M2 (R120). -/
  | mmasE3m2 (e : Bool) (t : BitVec 8) (a : Reg) (b : Reg) (negate : Bool)
  /-- MMAS_E4M3 (R120). -/
  | mmasE4m3 (e : Bool) (t : BitVec 8) (a : Reg) (b : Reg) (negate : Bool)
  /-- MMAS_E5M2 (R120). -/
  | mmasE5m2 (e : Bool) (t : BitVec 8) (a : Reg) (b : Reg) (negate : Bool)
  /-- MMAS_SI8 (R120). -/
  | mmasSi8 (e : Bool) (t : BitVec 8) (a : Reg) (b : Reg) (negate : Bool)
  /-- TZERO (R126). -/
  | tzero (e : Bool) (t : BitVec 8)
  /-- TFILL (R126). -/
  | tfill (e : Bool) (t : BitVec 8) (seq : BitVec 4) (reg : Reg) (fmt : TileFmt) (scr : Bool)
  /-- TDRAIN (R126). -/
  | tdrain (e : Bool) (t : BitVec 8) (seq : BitVec 4) (reg : Reg) (keep : Bool) (fmt : TileFmt) (scr : Bool)
  /-- TGET (R126). -/
  | tget (e : Bool) (t : BitVec 8) (reg : Reg)
  /-- TROW (R126). -/
  | trow (e : Bool) (t : BitVec 8) (reg : Reg)
  /-- TSTAT (R126). -/
  | tstat (e : Bool) (t : BitVec 8) (reg : Reg)
  /-- SHFL_IDX (R378). -/
  | shflIdx (e : Bool) (d : Reg) (a : Reg) (m : Reg)
  /-- SHFL_UP (R378). -/
  | shflUp (e : Bool) (d : Reg) (a : Reg) (m : Reg)
  /-- SHFL_DOWN (R378). -/
  | shflDown (e : Bool) (d : Reg) (a : Reg) (m : Reg)
  /-- SHFL_XOR (R378). -/
  | shflXor (e : Bool) (d : Reg) (a : Reg) (m : Reg)
  /-- VOTE_ANY (R403). -/
  | voteAny (e : Bool) (d : Reg) (a : Reg) (m : Reg)
  /-- VOTE_ALL (R403). -/
  | voteAll (e : Bool) (d : Reg) (a : Reg) (m : Reg)
  /-- VOTE_BALLOT (R403). -/
  | voteBallot (e : Bool) (d : Reg) (a : Reg) (m : Reg)
  /-- FOLD_ADD (R344). -/
  | foldAdd (e : Bool) (d : Reg) (a : Reg) (m : Reg)
  /-- FOLD_MIN (R344). -/
  | foldMin (e : Bool) (d : Reg) (a : Reg) (m : Reg)
  /-- FOLD_MAX (R344). -/
  | foldMax (e : Bool) (d : Reg) (a : Reg) (m : Reg)
  /-- FOLD_AND (R344). -/
  | foldAnd (e : Bool) (d : Reg) (a : Reg) (m : Reg)
  /-- FOLD_OR (R344). -/
  | foldOr (e : Bool) (d : Reg) (a : Reg) (m : Reg)
  /-- FOLD_XOR (R344). -/
  | foldXor (e : Bool) (d : Reg) (a : Reg) (m : Reg)
  /-- SCAN_ADD (R379). -/
  | scanAdd (e : Bool) (d : Reg) (a : Reg) (m : Reg)
  /-- SCAN_MIN (R379). -/
  | scanMin (e : Bool) (d : Reg) (a : Reg) (m : Reg)
  /-- SCAN_MAX (R379). -/
  | scanMax (e : Bool) (d : Reg) (a : Reg) (m : Reg)
  /-- SCAN_AND (R379). -/
  | scanAnd (e : Bool) (d : Reg) (a : Reg) (m : Reg)
  /-- SCAN_OR (R379). -/
  | scanOr (e : Bool) (d : Reg) (a : Reg) (m : Reg)
  /-- SCAN_XOR (R379). -/
  | scanXor (e : Bool) (d : Reg) (a : Reg) (m : Reg)
  /-- MATCH_ANY (R345). -/
  | matchAny (e : Bool) (d : Reg) (a : Reg) (m : Reg)
  /-- MATCH_ALL (R345). -/
  | matchAll (e : Bool) (d : Reg) (a : Reg) (m : Reg)
  /-- RCP (R338). -/
  | rcp (e : Bool) (d : Reg) (a : Reg)
  /-- RSQ (R338). -/
  | rsq (e : Bool) (d : Reg) (a : Reg)
  /-- SQRT (R382). -/
  | sqrt (e : Bool) (d : Reg) (a : Reg)
  /-- EXP2 (R338). -/
  | exp2 (e : Bool) (d : Reg) (a : Reg)
  /-- LOG2 (R338). -/
  | log2 (e : Bool) (d : Reg) (a : Reg)
  /-- SIN (R382). -/
  | sin (e : Bool) (d : Reg) (a : Reg)
  /-- COS (R331). -/
  | cos (e : Bool) (d : Reg) (a : Reg)
  /-- TANH (R393). -/
  | tanh (e : Bool) (d : Reg) (a : Reg)
  /-- CVT (R333). -/
  | cvt (e : Bool) (d : Reg) (a : Reg) (tgt : Tag) (sat : Bool) (mode : RMode)
  /-- MXPACK (R358). -/
  | mxpack (e : Bool) (d : Reg) (a : Reg) (tgt : Tag)
  /-- MXUNPK (R359). -/
  | mxunpk (e : Bool) (d : Reg) (a : Reg) (tgt : Tag)
  /-- DTERN (R129). -/
  | dtern (e : Bool) (d : Reg) (a : Reg) (half : BitVec 2)
  /-- RETAG (R373). -/
  | retag (e : Bool) (d : Reg) (a : Reg) (tgt : Tag)
  /-- TAG (R392). -/
  | tag (e : Bool) (d : Reg) (a : Reg)
  /-- SHAPE (R381). -/
  | shape (e : Bool) (d : Reg) (a : Reg)
  /-- FPFLAG (R347). -/
  | fpflag (e : Bool) (d : Reg) (mask : BitVec 7)
  /-- NOP (R361). -/
  | nop (e : Bool)
  /-- BRX (R324). -/
  | brx (a : Reg)
  /-- CALL (R325). -/
  | call (off : BitVec 21)
  /-- REGION (R371). -/
  | region (e : Bool)
  /-- SPAWN (R383). -/
  | spawn (e : Bool) (d : Reg) (a : Reg) (b : Reg)
  /-- YIELD (R408). -/
  | yield (e : Bool)
  /-- WAIT (R404). -/
  | wait (e : Bool) (loads : BitVec 4) (stores : BitVec 4) (copies : BitVec 4) (tiles : BitVec 4)
  /-- FENCE (R163). -/
  | fence (e : Bool) (scope : BitVec 3) (kind : FenceKind) (mask : BitVec 16)
  /-- TRAP (R257). -/
  | trap (e : Bool) (code : BitVec 16)
  /-- SYSCALL (R390). -/
  | syscall (d : Reg) (a : Reg) (n : BitVec 7)
  /-- UIMASK (R207). -/
  | uimask (e : Bool) (m : Bool)
  /-- SREAD (R385). -/
  | sread (e : Bool) (d : Reg) (n : BitVec 9)
  /-- SWRITE (R386). -/
  | swrite (e : Bool) (a : Reg) (n : BitVec 9)
  /-- TLBINV (R265). -/
  | tlbinv (e : Bool) (a : Reg) (b : Reg)
  /-- CPOST (R194). -/
  | cpost (e : Bool) (a : Reg) (ch : BitVec 2)
  /-- CSTAT (R196). -/
  | cstat (e : Bool) (d : Reg) (ch : BitVec 2)
  /-- TBINIT (R204). -/
  | tbinit (e : Bool) (a : Reg) (b : Reg)
  /-- TBEXP (R204). -/
  | tbexp (e : Bool) (a : Reg) (b : Reg)
  /-- TBARV (R204). -/
  | tbarv (e : Bool) (a : Reg)
  /-- TBWAIT (R203). -/
  | tbwait (e : Bool) (d : Reg) (a : Reg) (b : Reg)
  /-- BAR (R321). -/
  | bar (e : Bool) (team : Bool)
  /-- BARA (R321). -/
  | bara (e : Bool) (team : Bool)
  /-- BARW (R321). -/
  | barw (e : Bool) (team : Bool)
  /-- TKRES (R224). -/
  | tkres (e : Bool) (d : Reg) (a : Reg) (pd : PReg)
  /-- TKCOM (R223). -/
  | tkcom (e : Bool) (a : Reg)
  /-- TKDROP (R223). -/
  | tkdrop (e : Bool) (a : Reg)
  /-- CCARM (R215). -/
  | ccarm (e : Bool) (d : Reg) (a : Reg)
  /-- CCREAD (R215). -/
  | ccread (e : Bool) (d : Reg) (a : Reg)
  /-- CCDIS (R215). -/
  | ccdis (e : Bool) (a : Reg)
  /-- PSEND (R227). -/
  | psend (e : Bool) (a : Reg) (b : Reg)
  /-- PRECV (R227). -/
  | precv (e : Bool) (d : Reg) (a : Reg)
  /-- PPROBE (R227). -/
  | pprobe (e : Bool) (d : Reg) (a : Reg)
  /-- TXBEGIN (R178). -/
  | txbegin (e : Bool) (d : Reg) (pd : PReg)
  /-- TXEND (R178). -/
  | txend (pd : PReg)
  /-- TXABORT (R178). -/
  | txabort (e : Bool)
  /-- TXSTAT (R178). -/
  | txstat (e : Bool) (d : Reg) (a : Reg)
  /-- FEED (R209). -/
  | feed (e : Bool) (q : BitVec 3) (a : Reg)
  /-- FSTOP (R209). -/
  | fstop (e : Bool) (q : BitVec 3)
  /-- TRACE (R272). -/
  | trace (a : Reg) (b : Reg)
  /-- TEXC (R272). -/
  | texc (a : Reg) (b : Reg)
  /-- HITREP_ACCEPT (R281). -/
  | hitrepAccept (e : Bool)
  /-- HITREP_IGNORE (R281). -/
  | hitrepIgnore (e : Bool)
  /-- HITREP_TERMINATE (R281). -/
  | hitrepTerminate (e : Bool)
  /-- RWRES (R297). -/
  | rwres (e : Bool) (d : Reg) (a : Reg) (pd : PReg)
  /-- RWPOST (R297). -/
  | rwpost (e : Bool) (a : Reg) (b : Reg)
  /-- NETJOB (R300). -/
  | netjob (e : Bool) (a : Reg)
  /-- NSTAT (R291). -/
  | nstat (e : Bool) (d : Reg) (a : Reg)
  /-- PREF (R366). -/
  | pref (e : Bool) (a : Reg)
  /-- FLUSH (R304). -/
  | flush (e : Bool) (a : Reg) (b : Reg)
  /-- INVAL (R304). -/
  | inval (e : Bool) (a : Reg) (b : Reg)
  /-- XW_IMM (R79). -/
  | xwImm (payload : BitVec 24)
  /-- XW_GUARD (R78). -/
  | xwGuard (pol : Bool) (p : PReg)
  /-- XW_ORDER (R78). -/
  | xwOrder (policy : BitVec 2) (hasSeq : Bool) (seq : BitVec 4) (hasScope : Bool) (scope : BitVec 3)
  /-- XW_MASK (R78). -/
  | xwMask (mask : BitVec 8)
  /-- XW_ROUND (R78). -/
  | xwRound (dyn : Bool) (sat : Bool) (mode : RMode)
  /-- XW_OPERAND (R78). -/
  | xwOperand (r : Reg)
  /-- XW_OFFSET (R78). -/
  | xwOffset (off : BitVec 24)
  /-- QUEUE_MAP (R233). -/
  | queueMap (qid : Nat)
  /-- QUEUE_IDLE_UNMAP (R233). -/
  | queueIdleUnmap (qid : Nat)
  /-- QUEUE_EVICTION (R234). -/
  | queueEviction (qid : Nat)
  /-- QUEUE_SUSPEND (R233). -/
  | queueSuspend (qid : Nat)
  /-- LAUNCH_RECORD_READ (R238). -/
  | launchRecordRead (qid : Nat)
  /-- LAUNCH_DEPENDENCES_SATISFIED (R239). -/
  | launchDependencesSatisfied (launch : Nat)
  /-- LAUNCH_CANCELLED (R239). -/
  | launchCancelled (launch : Nat)
  /-- DISTRIBUTOR_ROUND (R241). -/
  | distributorRound (part : Nat)
  /-- PASSED_OVER_TIMEOUT (R241). -/
  | passedOverTimeout (launch : Nat)
  /-- PRIORITY_CHANGE (R240). -/
  | priorityChange (task : Bool) (q : Nat) (prio : BitVec 4)
  /-- LANE_ARBITRATION (R247). -/
  | laneArbitration (core : Nat) (lane : Nat)
  /-- UNIT_ARBITRATION (R248). -/
  | unitArbitration (core : Nat) (unit : CoreUnit)
  /-- RESULT_LANDING (R42). -/
  | resultLanding (op : Nat)
  /-- CREW_COMPLETION (R15). -/
  | crewCompletion (crew : Nat)
  /-- STORE_PERFORM (R167). -/
  | storePerform (op : Nat)
  /-- CRUMB_FIRING (R219). -/
  | crumbFiring (firing : Nat)
  /-- TASK_DISPATCH (R225). -/
  | taskDispatch (qnum : Nat)
  /-- PIPE_APPEND (R227). -/
  | pipeAppend (op : Nat)
  /-- PIPE_OVERFLOW_SEGMENT (R228). -/
  | pipeOverflowSegment (pipe : Nat)
  /-- PIPE_CYCLE_INSPECTION (R229). -/
  | pipeCycleInspection (ctx : Nat)
  /-- PIPE_DESTROY (R230). -/
  | pipeDestroy (pipe : Nat)
  /-- COPY_HEAD_TAKEN (R194). -/
  | copyHeadTaken (core : Nat) (ch : BitVec 2)
  /-- TRANSFER_RECORD_FETCH (R199). -/
  | transferRecordFetch (core : Nat) (ch : BitVec 2)
  /-- SECTOR_LANDING (R198). -/
  | sectorLanding (record : Nat) (n : Nat)
  /-- RECORD_COMPLETION (R200). -/
  | recordCompletion (record : Nat)
  /-- RECORD_POISON (R201). -/
  | recordPoison (record : Nat)
  /-- USER_INTERRUPT_ENTRY (R206). -/
  | userInterruptEntry (crew : Nat) (rank : Nat)
  /-- FEED_ELEMENT_FETCH (R211). -/
  | feedElementFetch (crew : Nat) (rank : Nat) (q : BitVec 3)
  /-- PAGE_WALK (R264). -/
  | pageWalk (core : Nat) (ctx : Nat) (va : PcAddr)
  /-- MISS_RESOLUTION (R259). -/
  | missResolution (miss : Nat) (writes : List (Nat × DWord))
  /-- ATS_COMPLETION (R259). -/
  | atsCompletion (miss : Nat) (present : Bool)
  /-- PRI_RESPONSE (R259). -/
  | priResponse (miss : Nat) (success : Bool)
  /-- STEPPING_MODE_RESTART (R254). -/
  | steppingModeRestart (crew : Nat)
  /-- DEFERRED_POISON_TRAP (R255). -/
  | deferredPoisonTrap (crew : Nat) (rank : Nat)
  /-- TEARDOWN (R260). -/
  | teardown (ctx : Nat)
  /-- CORE_LEAVES_PARTITION (R249). -/
  | coreLeavesPartition (core : Nat)
  /-- INTERIM_VALIDATION (R183). -/
  | interimValidation (crew : Nat) (rank : Nat)
  /-- REDUCTION_BUFFER_PASS (R172). -/
  | reductionBufferPass (core : Nat)
  /-- MIGRATION_START (R267). -/
  | migrationStart (ctx : Nat) (va : PcAddr) (die : Nat) (frame : Nat)
  /-- MIGRATION_COPY_PASS_END (R267). -/
  | migrationCopyPassEnd (mig : Nat)
  /-- MIGRATION_INVALIDATION_COMPLETE (R267). -/
  | migrationInvalidationComplete (mig : Nat)
  /-- OLD_FRAME_FREED (R267). -/
  | oldFrameFreed (mig : Nat)
  /-- REMOTE_REQUEST_TIMEOUT (R290). -/
  | remoteRequestTimeout (op : Nat) (performed : Bool)
  /-- SEQUENCE_FREEZE (R292). -/
  | sequenceFreeze (op : Nat)
  /-- SEQUENCE_RESUME (R292). -/
  | sequenceResume (crew : Nat) (rank : Nat) (seq : BitVec 4) (resumed : Bool)
  /-- PLANE_REMAP (R288). -/
  | planeRemap (plane : Nat)
  /-- HOST_ATOMIC_COMPLETION (R293). -/
  | hostAtomicCompletion (op : Nat) (ok : Bool)
  /-- L2_WRITEBACK (R141). -/
  | l2Writeback (sector : Nat)
  /-- ATS_INVALIDATION_REQUEST (R265). -/
  | atsInvalidationRequest (pasid : BitVec 20) (va : PcAddr) (size : Nat)
  /-- RAY_REQUEST_COMPLETION (R274). -/
  | rayRequestCompletion (ray : Nat)
  /-- RELAUNCH_CREW_FORMATION (R274). -/
  | relaunchCrewFormation (launch : Nat)
  /-- ANY_HIT_CREW_FORMATION (R280). -/
  | anyHitCrewFormation (ray : Nat)
  /-- ANY_HIT_REPORTS_APPLIED (R280). -/
  | anyHitReportsApplied (ray : Nat)
  /-- REMOTE_WORK_RECORD_LANDING (R297). -/
  | remoteWorkRecordLanding (op : Nat)
  /-- MILLEFEUILLE_JOB_COMPLETION (R302). -/
  | millefeuilleJobCompletion (job : Nat)
  /-- MILLEFEUILLE_MEMBER_TIMEOUT (R302). -/
  | millefeuilleMemberTimeout (job : Nat)
  /-- ENCODER_SLOT (R310). -/
  | encoderSlot (enc : Nat)
  /-- FRAME_READY (R310). -/
  | frameReady (session : Nat) (frame : Word)
  /-- ECC_CORRECTED_ERROR (R153). -/
  | eccCorrectedError (arr : SramArray) (unit : Nat) (row : Nat)
  /-- UNCORRECTABLE_ERROR (R153). -/
  | uncorrectableError (datum : Datum)
  /-- ROW_REMAP (R154). -/
  | rowRemap (arr : SramArray) (unit : Nat) (row : Nat)
  /-- JALLEY_INSTANCE_STOP (R305). -/
  | jalleyInstanceStop (slice : Nat)
  /-- SYSCALL_REPLY (R391). -/
  | syscallReply (crew : Nat) (rank : Nat) (reply : List Word)
  /-- THERMAL_THROTTLE (R313). -/
  | thermalThrottle (lowered : Bool)
  /-- TILE_FILL_COMPLETION (R124). -/
  | tileFillCompletion (op : Nat)
  /-- TILE_DRAIN_COMPLETION (R124). -/
  | tileDrainCompletion (op : Nat)
  /-- RET (R372). -/
  | ret
  /-- RETIRE (R374). -/
  | retire
  /-- ERET (R257). -/
  | eret
  /-- UIRET (R207). -/
  | uiret
  /-- NOTIFY_WRITE (R232). -/
  | notifyWrite
  /-- PREEMPTION (R261). -/
  | preemption
  /-- PARTITION_RESIZE (R249). -/
  | partitionResize
  /-- SERIAL_TOKEN_GRANT (R189). -/
  | serialTokenGrant
  /-- TARGET_EXPORT_CHECK (R289). -/
  | targetExportCheck
  /-- HOST_LOSS (R307). -/
  | hostLoss
  /-- HOST_WARM_RESTART (R308). -/
  | hostWarmRestart
  /-- CONSUMED_WORD_WRITE (R296). -/
  | consumedWordWrite
  /-- MILLEFEUILLE_JOB_START (R299). -/
  | millefeuilleJobStart
  /-- BOOT (R312). -/
  | boot
  /-- THERMAL_SHUTDOWN (R313). -/
  | thermalShutdown
  /-- CONTEXT_CREATION (R266). -/
  | contextCreation
  /-- USER_QUEUE_CREATION (R231). -/
  | userQueueCreation
  /-- TASK_QUEUE_CREATION (R222). -/
  | taskQueueCreation
  /-- PIPE_CREATION (R226). -/
  | pipeCreation
  /-- WORK_CHANNEL_CREATION (R295). -/
  | workChannelCreation
  /-- GROUP_CREATION (R299). -/
  | groupCreation
  /-- ATTESTATION_REQUEST (R312). -/
  | attestationRequest
deriving DecidableEq, Repr

end Sys2Proof
end

