-- ==== Sys2Proof/WellFormed.lean ====
section
/-! DEFINITION. What makes an instruction word's fields legal beyond its opcode point: the block, pair, tag, mask and special-register limits of 02_encoding R60 to R77. -/
namespace Sys2Proof

/-- A field that names the first of `n` registers (R60): the block must end at v119 or below. -/
def blockOk (r : Reg) (n : Nat) : Bool := r.toNat + n ≤ 120

/-- A field that names a register pair (R60, R74): at most 118. -/
def pairOk (r : Reg) : Bool := r.toNat ≤ 118

/-- A field that must name v0 to v119, such as a scratchpad address register (R60). -/
def vReg (r : Reg) : Bool := r.toNat ≤ 119

/-- Registers moved by LD and ST for a count field (R68). -/
def cntRegs (c : BitVec 2) : Nat := 2 ^ c.toNat

/-- Target tags of CVT (R73): 11, 12, 14 and 15 are illegal. -/
def cvtTarget : Tag → Bool
  | .e2m3p => false
  | .e3m2p => false
  | .raw => false
  | _ => true

/-- Destination tags of MXPACK (16_ref R357). -/
def packTag : Tag → Bool
  | .e4m3x4 | .e5m2x4 | .si8x4 | .e2m1x8 | .e2m3p | .e3m2p => true
  | _ => false

/-- Destination tags of MXUNPK (16_ref R357). -/
def unpackTag : Tag → Bool
  | .f32 | .bf16x2 | .f16x2 => true
  | _ => false

/-- Special-register numbers below 0x100 that the table of 01_execution R45 lists. -/
def sregListed (n : Nat) : Bool :=
  n ≤ 0x0C || (0x10 ≤ n && n ≤ 0x13) || (0x20 ≤ n && n ≤ 0x27) || n == 0x30

/-- Special registers marked pair, of R45 and of 11_faults R266. -/
def sregPair (n : Nat) : Bool :=
  n == 0x0C || n == 0x24 || n == 0x25 || n == 0x26 || n == 0x30 || n == 0x101 || n == 0x102

/-- Special registers that some mode may write (R45): FPSTAT, UIVEC and the trap registers. -/
def sregWritable (n : Nat) : Bool :=
  n == 0x20 || n == 0x23 || n == 0x24 || n == 0x25 || n == 0x26

/-- The word checks of SREAD (R46): numbers 0x100 to 0x1FF are checked at execution instead. -/
def sreadOk (d : Reg) (n : BitVec 9) : Bool :=
  0x100 ≤ n.toNat || (sregListed n.toNat && (!sregPair n.toNat || pairOk d))

/-- The word checks of SWRITE (R46). -/
def swriteOk (a : Reg) (n : BitVec 9) : Bool :=
  0x100 ≤ n.toNat || (sregListed n.toNat && sregWritable n.toNat && (!sregPair n.toNat || pairOk a))

/-- An instruction word whose fields all hold legal values (R58, R60 to R77). The QueueRegister and ScopeIllegal cases are not illegal encodings: they trap at execution (R80). -/
def Instr.wf : Instr → Bool
  | .leaA3 _ d a _ => pairOk d && pairOk a
  | .leaAi _ d a _ => pairOk d && pairOk a
  | .ld _ fmt space _ d a cnt _ => fmt != .raw && (cnt == 0 || blockOk d (cntRegs cnt)) && (match space with | .global => pairOk a | _ => vReg a)
  | .st _ fmt space _ v a cnt _ => fmt != .raw && (cnt == 0 || blockOk v (cntRegs cnt)) && (match space with | .global => pairOk a | _ => vReg a)
  | .atomAdd _ _ _ _ _ a => pairOk a
  | .atomMin _ _ _ _ _ a => pairOk a
  | .atomMax _ _ _ _ _ a => pairOk a
  | .atomAnd _ _ _ _ _ a => pairOk a
  | .atomOr _ _ _ _ _ a => pairOk a
  | .atomXor _ _ _ _ _ a => pairOk a
  | .atomXchg _ _ _ _ _ a => pairOk a
  | .atomIncw _ _ _ _ _ a => pairOk a
  | .atomDecw _ _ _ _ _ a => pairOk a
  | .cas _ _ _ _ d a => pairOk d && pairOk a
  | .redAdd _ _ _ _ _ a => pairOk a
  | .redMin _ _ _ _ _ a => pairOk a
  | .redMax _ _ _ _ _ a => pairOk a
  | .rsettle _ _ _ a => pairOk a
  | .mmaBf16 _ _ a b _ => decide (a.toNat ≤ 104) && decide (b.toNat ≤ 104)
  | .mmaF16 _ _ a b _ => decide (a.toNat ≤ 104) && decide (b.toNat ≤ 104)
  | .mmaE4m3 _ _ a b _ => decide (a.toNat ≤ 104) && decide (b.toNat ≤ 104)
  | .mmaE5m2 _ _ a b _ => decide (a.toNat ≤ 104) && decide (b.toNat ≤ 104)
  | .mmaSi8 _ _ a b _ => decide (a.toNat ≤ 104) && decide (b.toNat ≤ 104)
  | .mmaUi8 _ _ a b _ => decide (a.toNat ≤ 104) && decide (b.toNat ≤ 104)
  | .mmasE2m1 _ _ a b _ => decide (a.toNat ≤ 103) && decide (b.toNat ≤ 103)
  | .mmasE2m3 _ _ a b _ => decide (a.toNat ≤ 95) && decide (b.toNat ≤ 95)
  | .mmasE3m2 _ _ a b _ => decide (a.toNat ≤ 95) && decide (b.toNat ≤ 95)
  | .mmasE4m3 _ _ a b _ => decide (a.toNat ≤ 103) && decide (b.toNat ≤ 103)
  | .mmasE5m2 _ _ a b _ => decide (a.toNat ≤ 103) && decide (b.toNat ≤ 103)
  | .mmasSi8 _ _ a b _ => decide (a.toNat ≤ 103) && decide (b.toNat ≤ 103)
  | .tfill _ _ _ reg _ scr => if scr then vReg reg else pairOk reg
  | .tdrain _ _ _ reg _ _ scr => if scr then vReg reg else pairOk reg
  | .tget _ _ reg => blockOk reg 16
  | .trow _ _ reg => blockOk reg 16
  | .cvt _ _ _ tgt _ _ => cvtTarget tgt
  | .mxpack _ d _ tgt => packTag tgt && (match tgt with | .e2m3p | .e3m2p => blockOk d 6 | _ => true)
  | .mxunpk _ _ _ tgt => unpackTag tgt
  | .dtern _ d _ _ => pairOk d
  | .tag _ _ a => a.toNat < 120
  | .shape _ _ a => a.toNat < 120
  | .fence _ _ _ mask => mask != 0
  | .syscall d a _ => blockOk d 8 && blockOk a 8
  | .sread _ d n => sreadOk d n
  | .swrite _ a n => swriteOk a n
  | .tlbinv _ a _ => pairOk a
  | .cpost _ a _ => pairOk a
  | .tbinit _ a _ => pairOk a
  | .tbexp _ a _ => pairOk a
  | .tbarv _ a => pairOk a
  | .tbwait _ _ a _ => pairOk a
  | .tkres _ d a _ => pairOk d && pairOk a
  | .ccarm _ _ a => pairOk a
  | .ccread _ d _ => pairOk d
  | .feed _ _ a => pairOk a
  | .trace a b => blockOk a 8 && pairOk b
  | .texc a b => blockOk a 8 && pairOk b
  | .rwpost _ a _ => pairOk a
  | .netjob _ a => pairOk a
  | .pref _ a => pairOk a
  | .flush _ a _ => pairOk a
  | .inval _ a _ => pairOk a
  | .xwMask mask => mask != 0
  | .xwRound dyn _ mode => !dyn || mode == .rne
  | _ => true

end Sys2Proof
end

