-- ==== Sys2Proof/Decode.lean ====
section
/-! DEFINITION. The decoder of one 32-bit word (02_encoding R57 to R83), total, rejecting by name, and the encoder written from the same tables. -/
namespace Sys2Proof

/-- Why a word is rejected. Every rejection but `closerWithoutB` is an encoding error that raises IllegalOp at its group (R80); `closerWithoutB`, of a closer with no other fault in its word, is a structural case of 01_execution R26. -/
inductive Reject where
  | reservedMajor
  | unassigned
  | illegalField
  | closerWithoutB (i : Instr)
  | extensionWithB
deriving DecidableEq, Repr

/-- Bits lo to lo+n-1 of a word, as a number (00_scope R4). -/
def fld (w lo n : Nat) : Nat := w / 2 ^ lo % 2 ^ n

/-- One bit of a word. -/
def flag (w i : Nat) : Bool := fld w i 1 == 1

/-- Bits of a word, as a bit vector. -/
def bits (w lo n : Nat) : BitVec n := BitVec.ofNat n (fld w lo n)

/-- A field whose value must be a listed one (R58). -/
def need {α : Type} (o : Option α) (k : α → Except Reject Instr) : Except Reject Instr :=
  match o with
  | some a => k a
  | none => .error .illegalField

/-- A field that must hold one value, such as a zero field (00_scope R6, R58). -/
def guardF (c : Bool) (x : Except Reject Instr) : Except Reject Instr :=
  if c then x else .error .illegalField

/-- A closer must carry B (01_execution R25, R26); an encoding error of its word comes first (R80). -/
def guardB (c : Bool) (x : Except Reject Instr) : Except Reject Instr :=
  if c then x else match x with
    | .ok i => .error (if i.wf then .closerWithoutB i else .illegalField)
    | .error r => .error r

/-- Major 0x0 A3 of the opcode map (02_encoding R81). -/
def decA3 (w : Nat) : Except Reject Instr :=
  match fld w 21 6 with
  | 0 => .ok (.addA3 (flag w 31) (bits w 14 7) (bits w 7 7) (bits w 0 7))
  | 1 => .ok (.subA3 (flag w 31) (bits w 14 7) (bits w 7 7) (bits w 0 7))
  | 2 => .ok (.mulA3 (flag w 31) (bits w 14 7) (bits w 7 7) (bits w 0 7))
  | 3 => .ok (.mulhi (flag w 31) (bits w 14 7) (bits w 7 7) (bits w 0 7))
  | 4 => .ok (.ma (flag w 31) (bits w 14 7) (bits w 7 7) (bits w 0 7))
  | 5 => .ok (.minA3 (flag w 31) (bits w 14 7) (bits w 7 7) (bits w 0 7))
  | 6 => .ok (.maxA3 (flag w 31) (bits w 14 7) (bits w 7 7) (bits w 0 7))
  | 7 => .ok (.andA3 (flag w 31) (bits w 14 7) (bits w 7 7) (bits w 0 7))
  | 8 => .ok (.orA3 (flag w 31) (bits w 14 7) (bits w 7 7) (bits w 0 7))
  | 9 => .ok (.xorA3 (flag w 31) (bits w 14 7) (bits w 7 7) (bits w 0 7))
  | 10 => .ok (.shlA3 (flag w 31) (bits w 14 7) (bits w 7 7) (bits w 0 7))
  | 11 => .ok (.shrA3 (flag w 31) (bits w 14 7) (bits w 7 7) (bits w 0 7))
  | 12 => .ok (.sarA3 (flag w 31) (bits w 14 7) (bits w 7 7) (bits w 0 7))
  | 13 => .ok (.rotA3 (flag w 31) (bits w 14 7) (bits w 7 7) (bits w 0 7))
  | 14 => .ok (.bfe (flag w 31) (bits w 14 7) (bits w 7 7) (bits w 0 7))
  | 15 => .ok (.bfi (flag w 31) (bits w 14 7) (bits w 7 7) (bits w 0 7))
  | 16 => .ok (.leaA3 (flag w 31) (bits w 14 7) (bits w 7 7) (bits w 0 7))
  | 17 => guardF (fld w 0 7 = 0) <| .ok (.mov (flag w 31) (bits w 14 7) (bits w 7 7))
  | 18 => guardF (fld w 0 7 = 0) <| .ok (.neg (flag w 31) (bits w 14 7) (bits w 7 7))
  | 19 => guardF (fld w 0 7 = 0) <| .ok (.abs (flag w 31) (bits w 14 7) (bits w 7 7))
  | 20 => guardF (fld w 0 7 = 0) <| .ok (.notR (flag w 31) (bits w 14 7) (bits w 7 7))
  | 21 => guardF (fld w 0 7 = 0) <| .ok (.popc (flag w 31) (bits w 14 7) (bits w 7 7))
  | 22 => guardF (fld w 0 7 = 0) <| .ok (.clz (flag w 31) (bits w 14 7) (bits w 7 7))
  | 23 => guardF (fld w 0 7 = 0) <| .ok (.brev (flag w 31) (bits w 14 7) (bits w 7 7))
  | 24 => .ok (.dot4 (flag w 31) (bits w 14 7) (bits w 7 7) (bits w 0 7))
  | 25 => .ok (.dott (flag w 31) (bits w 14 7) (bits w 7 7) (bits w 0 7))
  | _ => .error .unassigned

/-- Major 0x1 AI of the opcode map (02_encoding R81). -/
def decAI (w : Nat) : Except Reject Instr :=
  match fld w 21 6 with
  | 0 => .ok (.addAi (flag w 31) (bits w 14 7) (bits w 7 7) (bits w 0 7))
  | 1 => .ok (.subAi (flag w 31) (bits w 14 7) (bits w 7 7) (bits w 0 7))
  | 2 => .ok (.mulAi (flag w 31) (bits w 14 7) (bits w 7 7) (bits w 0 7))
  | 5 => .ok (.minAi (flag w 31) (bits w 14 7) (bits w 7 7) (bits w 0 7))
  | 6 => .ok (.maxAi (flag w 31) (bits w 14 7) (bits w 7 7) (bits w 0 7))
  | 7 => .ok (.andAi (flag w 31) (bits w 14 7) (bits w 7 7) (bits w 0 7))
  | 8 => .ok (.orAi (flag w 31) (bits w 14 7) (bits w 7 7) (bits w 0 7))
  | 9 => .ok (.xorAi (flag w 31) (bits w 14 7) (bits w 7 7) (bits w 0 7))
  | 10 => .ok (.shlAi (flag w 31) (bits w 14 7) (bits w 7 7) (bits w 0 7))
  | 11 => .ok (.shrAi (flag w 31) (bits w 14 7) (bits w 7 7) (bits w 0 7))
  | 12 => .ok (.sarAi (flag w 31) (bits w 14 7) (bits w 7 7) (bits w 0 7))
  | 13 => .ok (.rotAi (flag w 31) (bits w 14 7) (bits w 7 7) (bits w 0 7))
  | 16 => .ok (.leaAi (flag w 31) (bits w 14 7) (bits w 7 7) (bits w 0 7))
  | 63 => .ok (.ldi (flag w 31) (bits w 14 7) (bits w 0 14))
  | _ => .error .unassigned

/-- Major 0x2 PC of the opcode map (02_encoding R81). -/
def decPC (w : Nat) : Except Reject Instr :=
  match fld w 24 3 with
  | 0 => need (Cond.ofCode (fld w 20 4)) fun cond => need (CmpMode.ofCode (fld w 14 2)) fun mode => .ok (.cmp (flag w 31) cond (bits w 16 4) mode (bits w 7 7) (bits w 0 7))
  | 1 => need (Cond.ofCode (fld w 20 4)) fun cond => need (CmpMode.ofCode (fld w 14 2)) fun mode => .ok (.cmpi (flag w 31) cond (bits w 16 4) mode (bits w 7 7) (bits w 0 7))
  | 2 =>
    match fld w 10 2 with
    | 0 => guardF (fld w 0 10 = 0) <| .ok (.pand (flag w 31) (bits w 20 4) (bits w 16 4) (bits w 12 4))
    | 1 => guardF (fld w 0 10 = 0) <| .ok (.por (flag w 31) (bits w 20 4) (bits w 16 4) (bits w 12 4))
    | 2 => guardF (fld w 0 10 = 0) <| .ok (.pxor (flag w 31) (bits w 20 4) (bits w 16 4) (bits w 12 4))
    | _ => guardF (fld w 0 10 = 0) <| guardF (fld w 12 4 = 0) <| .ok (.pnot (flag w 31) (bits w 20 4) (bits w 16 4))
  | 3 =>
    match fld w 23 1 with
    | 0 => .ok (.pmovToRegister (flag w 31) (bits w 16 7) (bits w 0 16))
    | _ => .ok (.pmovToPredicates (flag w 31) (bits w 16 7) (bits w 0 16))
  | _ => .error .unassigned

/-- Major 0x3 SEL of the opcode map (02_encoding R81). -/
def decSEL (w : Nat) : Except Reject Instr :=
  guardF (fld w 22 1 = 0) <| .ok (.sel (flag w 31) (bits w 23 4) (flag w 21) (bits w 14 7) (bits w 7 7) (bits w 0 7))

/-- Major 0x4 BR of the opcode map (02_encoding R81). -/
def decBR (w : Nat) : Except Reject Instr :=
  guardB (flag w 31) <| .ok (.bra (bits w 23 4) (flag w 22) (bits w 0 22))

/-- Major 0x5 LD of the opcode map (02_encoding R81). -/
def decLD (w : Nat) : Except Reject Instr :=
  need (Tag.ofCode (fld w 23 4)) fun fmt => need (Space.ofCode (fld w 21 2)) fun space => .ok (.ld (flag w 31) fmt space (bits w 17 4) (bits w 10 7) (bits w 3 7) (bits w 1 2) (flag w 0))

/-- Major 0x6 ST of the opcode map (02_encoding R81). -/
def decST (w : Nat) : Except Reject Instr :=
  need (Tag.ofCode (fld w 23 4)) fun fmt => need (Space.ofCode (fld w 21 2)) fun space => .ok (.st (flag w 31) fmt space (bits w 17 4) (bits w 10 7) (bits w 3 7) (bits w 1 2) (flag w 0))

/-- Major 0x7 AT of the opcode map (02_encoding R81). -/
def decAT (w : Nat) : Except Reject Instr :=
  match fld w 23 4 with
  | 0 => need (Sem.ofCode (fld w 18 2)) fun sem => .ok (.atomAdd (flag w 31) (bits w 20 3) sem (bits w 14 4) (bits w 7 7) (bits w 0 7))
  | 1 => need (Sem.ofCode (fld w 18 2)) fun sem => .ok (.atomMin (flag w 31) (bits w 20 3) sem (bits w 14 4) (bits w 7 7) (bits w 0 7))
  | 2 => need (Sem.ofCode (fld w 18 2)) fun sem => .ok (.atomMax (flag w 31) (bits w 20 3) sem (bits w 14 4) (bits w 7 7) (bits w 0 7))
  | 3 => need (Sem.ofCode (fld w 18 2)) fun sem => .ok (.atomAnd (flag w 31) (bits w 20 3) sem (bits w 14 4) (bits w 7 7) (bits w 0 7))
  | 4 => need (Sem.ofCode (fld w 18 2)) fun sem => .ok (.atomOr (flag w 31) (bits w 20 3) sem (bits w 14 4) (bits w 7 7) (bits w 0 7))
  | 5 => need (Sem.ofCode (fld w 18 2)) fun sem => .ok (.atomXor (flag w 31) (bits w 20 3) sem (bits w 14 4) (bits w 7 7) (bits w 0 7))
  | 6 => need (Sem.ofCode (fld w 18 2)) fun sem => .ok (.atomXchg (flag w 31) (bits w 20 3) sem (bits w 14 4) (bits w 7 7) (bits w 0 7))
  | 7 => need (Sem.ofCode (fld w 18 2)) fun sem => .ok (.atomIncw (flag w 31) (bits w 20 3) sem (bits w 14 4) (bits w 7 7) (bits w 0 7))
  | 8 => need (Sem.ofCode (fld w 18 2)) fun sem => .ok (.atomDecw (flag w 31) (bits w 20 3) sem (bits w 14 4) (bits w 7 7) (bits w 0 7))
  | 9 => need (Sem.ofCode (fld w 18 2)) fun sem => .ok (.cas (flag w 31) (bits w 20 3) sem (bits w 14 4) (bits w 7 7) (bits w 0 7))
  | 12 => guardF (fld w 18 1 = 0) <| .ok (.redAdd (flag w 31) (bits w 20 3) (flag w 19) (bits w 14 4) (bits w 7 7) (bits w 0 7))
  | 13 => guardF (fld w 18 1 = 0) <| .ok (.redMin (flag w 31) (bits w 20 3) (flag w 19) (bits w 14 4) (bits w 7 7) (bits w 0 7))
  | 14 => guardF (fld w 18 1 = 0) <| .ok (.redMax (flag w 31) (bits w 20 3) (flag w 19) (bits w 14 4) (bits w 7 7) (bits w 0 7))
  | 15 => guardF (fld w 7 7 = 0) <| guardF (fld w 18 2 = 2) <| .ok (.rsettle (flag w 31) (bits w 20 3) (bits w 14 4) (bits w 0 7))
  | _ => .error .unassigned

/-- Major 0x8 MX of the opcode map (02_encoding R81). -/
def decMX (w : Nat) : Except Reject Instr :=
  match fld w 23 4 with
  | 0 => .ok (.mmaBf16 (flag w 31) (bits w 15 8) (bits w 8 7) (bits w 1 7) (flag w 0))
  | 1 => .ok (.mmaF16 (flag w 31) (bits w 15 8) (bits w 8 7) (bits w 1 7) (flag w 0))
  | 2 => .ok (.mmaE4m3 (flag w 31) (bits w 15 8) (bits w 8 7) (bits w 1 7) (flag w 0))
  | 3 => .ok (.mmaE5m2 (flag w 31) (bits w 15 8) (bits w 8 7) (bits w 1 7) (flag w 0))
  | 4 => .ok (.mmaSi8 (flag w 31) (bits w 15 8) (bits w 8 7) (bits w 1 7) (flag w 0))
  | 5 => .ok (.mmaUi8 (flag w 31) (bits w 15 8) (bits w 8 7) (bits w 1 7) (flag w 0))
  | 8 => .ok (.mmasE2m1 (flag w 31) (bits w 15 8) (bits w 8 7) (bits w 1 7) (flag w 0))
  | 9 => .ok (.mmasE2m3 (flag w 31) (bits w 15 8) (bits w 8 7) (bits w 1 7) (flag w 0))
  | 10 => .ok (.mmasE3m2 (flag w 31) (bits w 15 8) (bits w 8 7) (bits w 1 7) (flag w 0))
  | 11 => .ok (.mmasE4m3 (flag w 31) (bits w 15 8) (bits w 8 7) (bits w 1 7) (flag w 0))
  | 12 => .ok (.mmasE5m2 (flag w 31) (bits w 15 8) (bits w 8 7) (bits w 1 7) (flag w 0))
  | 13 => .ok (.mmasSi8 (flag w 31) (bits w 15 8) (bits w 8 7) (bits w 1 7) (flag w 0))
  | _ => .error .unassigned

/-- Major 0x9 TL of the opcode map (02_encoding R81). -/
def decTL (w : Nat) : Except Reject Instr :=
  match fld w 24 3 with
  | 0 => guardF (fld w 0 16 = 0) <| .ok (.tzero (flag w 31) (bits w 16 8))
  | 1 => guardF (fld w 3 2 = 0) <| need (TileFmt.ofCode (fld w 1 2)) fun fmt => .ok (.tfill (flag w 31) (bits w 16 8) (bits w 12 4) (bits w 5 7) fmt (flag w 0))
  | 2 => guardF (fld w 4 1 = 0) <| need (TileFmt.ofCode (fld w 1 2)) fun fmt => .ok (.tdrain (flag w 31) (bits w 16 8) (bits w 12 4) (bits w 5 7) (flag w 3) fmt (flag w 0))
  | 3 => guardF (fld w 0 5 = 0) <| guardF (fld w 12 4 = 0) <| .ok (.tget (flag w 31) (bits w 16 8) (bits w 5 7))
  | 4 => guardF (fld w 0 5 = 0) <| guardF (fld w 12 4 = 0) <| .ok (.trow (flag w 31) (bits w 16 8) (bits w 5 7))
  | 5 => guardF (fld w 0 5 = 0) <| guardF (fld w 12 4 = 0) <| .ok (.tstat (flag w 31) (bits w 16 8) (bits w 5 7))
  | _ => .error .unassigned

/-- Major 0xA XF of the opcode map (02_encoding R81). -/
def decXF (w : Nat) : Except Reject Instr :=
  match fld w 21 6 with
  | 0 => .ok (.shflIdx (flag w 31) (bits w 14 7) (bits w 7 7) (bits w 0 7))
  | 1 => .ok (.shflUp (flag w 31) (bits w 14 7) (bits w 7 7) (bits w 0 7))
  | 2 => .ok (.shflDown (flag w 31) (bits w 14 7) (bits w 7 7) (bits w 0 7))
  | 3 => .ok (.shflXor (flag w 31) (bits w 14 7) (bits w 7 7) (bits w 0 7))
  | 8 => .ok (.voteAny (flag w 31) (bits w 14 7) (bits w 7 7) (bits w 0 7))
  | 9 => .ok (.voteAll (flag w 31) (bits w 14 7) (bits w 7 7) (bits w 0 7))
  | 10 => .ok (.voteBallot (flag w 31) (bits w 14 7) (bits w 7 7) (bits w 0 7))
  | 16 => .ok (.foldAdd (flag w 31) (bits w 14 7) (bits w 7 7) (bits w 0 7))
  | 17 => .ok (.foldMin (flag w 31) (bits w 14 7) (bits w 7 7) (bits w 0 7))
  | 18 => .ok (.foldMax (flag w 31) (bits w 14 7) (bits w 7 7) (bits w 0 7))
  | 19 => .ok (.foldAnd (flag w 31) (bits w 14 7) (bits w 7 7) (bits w 0 7))
  | 20 => .ok (.foldOr (flag w 31) (bits w 14 7) (bits w 7 7) (bits w 0 7))
  | 21 => .ok (.foldXor (flag w 31) (bits w 14 7) (bits w 7 7) (bits w 0 7))
  | 24 => .ok (.scanAdd (flag w 31) (bits w 14 7) (bits w 7 7) (bits w 0 7))
  | 25 => .ok (.scanMin (flag w 31) (bits w 14 7) (bits w 7 7) (bits w 0 7))
  | 26 => .ok (.scanMax (flag w 31) (bits w 14 7) (bits w 7 7) (bits w 0 7))
  | 27 => .ok (.scanAnd (flag w 31) (bits w 14 7) (bits w 7 7) (bits w 0 7))
  | 28 => .ok (.scanOr (flag w 31) (bits w 14 7) (bits w 7 7) (bits w 0 7))
  | 29 => .ok (.scanXor (flag w 31) (bits w 14 7) (bits w 7 7) (bits w 0 7))
  | 32 => .ok (.matchAny (flag w 31) (bits w 14 7) (bits w 7 7) (bits w 0 7))
  | 33 => .ok (.matchAll (flag w 31) (bits w 14 7) (bits w 7 7) (bits w 0 7))
  | _ => .error .unassigned

/-- Major 0xB SF of the opcode map (02_encoding R81). -/
def decSF (w : Nat) : Except Reject Instr :=
  match fld w 21 6 with
  | 0 => guardF (fld w 0 7 = 0) <| .ok (.rcp (flag w 31) (bits w 14 7) (bits w 7 7))
  | 1 => guardF (fld w 0 7 = 0) <| .ok (.rsq (flag w 31) (bits w 14 7) (bits w 7 7))
  | 2 => guardF (fld w 0 7 = 0) <| .ok (.sqrt (flag w 31) (bits w 14 7) (bits w 7 7))
  | 3 => guardF (fld w 0 7 = 0) <| .ok (.exp2 (flag w 31) (bits w 14 7) (bits w 7 7))
  | 4 => guardF (fld w 0 7 = 0) <| .ok (.log2 (flag w 31) (bits w 14 7) (bits w 7 7))
  | 5 => guardF (fld w 0 7 = 0) <| .ok (.sin (flag w 31) (bits w 14 7) (bits w 7 7))
  | 6 => guardF (fld w 0 7 = 0) <| .ok (.cos (flag w 31) (bits w 14 7) (bits w 7 7))
  | 7 => guardF (fld w 0 7 = 0) <| .ok (.tanh (flag w 31) (bits w 14 7) (bits w 7 7))
  | 16 => need (Tag.ofCode (fld w 3 4)) fun tgt => need (RMode.ofCode (fld w 0 2)) fun mode => .ok (.cvt (flag w 31) (bits w 14 7) (bits w 7 7) tgt (flag w 2) mode)
  | 17 => guardF (fld w 0 3 = 0) <| need (Tag.ofCode (fld w 3 4)) fun tgt => .ok (.mxpack (flag w 31) (bits w 14 7) (bits w 7 7) tgt)
  | 18 => guardF (fld w 0 3 = 0) <| need (Tag.ofCode (fld w 3 4)) fun tgt => .ok (.mxunpk (flag w 31) (bits w 14 7) (bits w 7 7) tgt)
  | 19 => guardF (fld w 2 5 = 0) <| .ok (.dtern (flag w 31) (bits w 14 7) (bits w 7 7) (bits w 0 2))
  | 24 => guardF (fld w 4 3 = 0) <| need (Tag.ofCode (fld w 0 4)) fun tgt => .ok (.retag (flag w 31) (bits w 14 7) (bits w 7 7) tgt)
  | 25 => guardF (fld w 0 7 = 0) <| .ok (.tag (flag w 31) (bits w 14 7) (bits w 7 7))
  | 26 => guardF (fld w 0 7 = 0) <| .ok (.shape (flag w 31) (bits w 14 7) (bits w 7 7))
  | 27 => guardF (fld w 7 7 = 0) <| .ok (.fpflag (flag w 31) (bits w 14 7) (bits w 0 7))
  | _ => .error .unassigned

/-- Major 0xC CT of the opcode map (02_encoding R81). -/
def decCT (w : Nat) : Except Reject Instr :=
  match fld w 21 6 with
  | 0 => guardF (fld w 0 21 = 0) <| .ok (.nop (flag w 31))
  | 1 => guardF (fld w 0 7 = 0) <| guardF (fld w 14 7 = 0) <| guardB (flag w 31) <| .ok (.brx (bits w 7 7))
  | 2 => guardB (flag w 31) <| .ok (.call (bits w 0 21))
  | 3 => guardF (fld w 0 21 = 0) <| guardB (flag w 31) <| .ok (.ret)
  | 4 => guardF (fld w 0 21 = 0) <| .ok (.region (flag w 31))
  | 5 => .ok (.spawn (flag w 31) (bits w 14 7) (bits w 7 7) (bits w 0 7))
  | 6 => guardF (fld w 0 21 = 0) <| guardB (flag w 31) <| .ok (.retire)
  | 7 => guardF (fld w 0 21 = 0) <| .ok (.yield (flag w 31))
  | 8 => guardF (fld w 16 5 = 0) <| .ok (.wait (flag w 31) (bits w 12 4) (bits w 8 4) (bits w 4 4) (bits w 0 4))
  | 9 => need (FenceKind.ofCode (fld w 16 2)) fun kind => .ok (.fence (flag w 31) (bits w 18 3) kind (bits w 0 16))
  | 10 => guardF (fld w 16 5 = 0) <| .ok (.trap (flag w 31) (bits w 0 16))
  | 11 => guardF (fld w 0 21 = 0) <| guardB (flag w 31) <| .ok (.eret)
  | 12 => guardB (flag w 31) <| .ok (.syscall (bits w 14 7) (bits w 7 7) (bits w 0 7))
  | 13 => guardF (fld w 0 21 = 0) <| guardB (flag w 31) <| .ok (.uiret)
  | 14 => guardF (fld w 1 20 = 0) <| .ok (.uimask (flag w 31) (flag w 0))
  | 16 => guardF (fld w 0 5 = 0) <| .ok (.sread (flag w 31) (bits w 14 7) (bits w 5 9))
  | 17 => guardF (fld w 0 5 = 0) <| .ok (.swrite (flag w 31) (bits w 14 7) (bits w 5 9))
  | 18 => guardF (fld w 14 7 = 0) <| .ok (.tlbinv (flag w 31) (bits w 7 7) (bits w 0 7))
  | _ => .error .unassigned

/-- Major 0xD AS of the opcode map (02_encoding R81). -/
def decAS (w : Nat) : Except Reject Instr :=
  match fld w 21 6 with
  | 0 => guardF (fld w 2 5 = 0) <| guardF (fld w 14 7 = 0) <| .ok (.cpost (flag w 31) (bits w 7 7) (bits w 0 2))
  | 1 => guardF (fld w 2 12 = 0) <| .ok (.cstat (flag w 31) (bits w 14 7) (bits w 0 2))
  | 2 => guardF (fld w 14 7 = 0) <| .ok (.tbinit (flag w 31) (bits w 7 7) (bits w 0 7))
  | 3 => guardF (fld w 14 7 = 0) <| .ok (.tbexp (flag w 31) (bits w 7 7) (bits w 0 7))
  | 4 => guardF (fld w 0 7 = 0) <| guardF (fld w 14 7 = 0) <| .ok (.tbarv (flag w 31) (bits w 7 7))
  | 5 => .ok (.tbwait (flag w 31) (bits w 14 7) (bits w 7 7) (bits w 0 7))
  | 6 => guardF (fld w 1 20 = 0) <| .ok (.bar (flag w 31) (flag w 0))
  | 7 => guardF (fld w 1 20 = 0) <| .ok (.bara (flag w 31) (flag w 0))
  | 8 => guardF (fld w 1 20 = 0) <| .ok (.barw (flag w 31) (flag w 0))
  | 9 => guardF (fld w 4 3 = 0) <| .ok (.tkres (flag w 31) (bits w 14 7) (bits w 7 7) (bits w 0 4))
  | 10 => guardF (fld w 0 7 = 0) <| guardF (fld w 14 7 = 0) <| .ok (.tkcom (flag w 31) (bits w 7 7))
  | 11 => guardF (fld w 0 7 = 0) <| guardF (fld w 14 7 = 0) <| .ok (.tkdrop (flag w 31) (bits w 7 7))
  | 12 => guardF (fld w 0 7 = 0) <| .ok (.ccarm (flag w 31) (bits w 14 7) (bits w 7 7))
  | 13 => guardF (fld w 0 7 = 0) <| .ok (.ccread (flag w 31) (bits w 14 7) (bits w 7 7))
  | 14 => guardF (fld w 0 7 = 0) <| guardF (fld w 14 7 = 0) <| .ok (.ccdis (flag w 31) (bits w 7 7))
  | 15 => guardF (fld w 14 7 = 0) <| .ok (.psend (flag w 31) (bits w 7 7) (bits w 0 7))
  | 16 => guardF (fld w 0 7 = 0) <| .ok (.precv (flag w 31) (bits w 14 7) (bits w 7 7))
  | 17 => guardF (fld w 0 7 = 0) <| .ok (.pprobe (flag w 31) (bits w 14 7) (bits w 7 7))
  | 18 => guardF (fld w 4 10 = 0) <| .ok (.txbegin (flag w 31) (bits w 14 7) (bits w 0 4))
  | 19 => guardF (fld w 4 17 = 0) <| guardB (flag w 31) <| .ok (.txend (bits w 0 4))
  | 20 => guardF (fld w 0 21 = 0) <| .ok (.txabort (flag w 31))
  | 21 => guardF (fld w 0 7 = 0) <| .ok (.txstat (flag w 31) (bits w 14 7) (bits w 7 7))
  | 22 => guardF (fld w 0 7 = 0) <| guardF (fld w 17 4 = 15) <| .ok (.feed (flag w 31) (bits w 14 3) (bits w 7 7))
  | 23 => guardF (fld w 0 14 = 0) <| guardF (fld w 17 4 = 15) <| .ok (.fstop (flag w 31) (bits w 14 3))
  | 24 => guardF (fld w 14 7 = 0) <| guardB (flag w 31) <| .ok (.trace (bits w 7 7) (bits w 0 7))
  | 25 => guardF (fld w 14 7 = 0) <| guardB (flag w 31) <| .ok (.texc (bits w 7 7) (bits w 0 7))
  | 26 =>
    match fld w 0 2 with
    | 0 => guardF (fld w 2 19 = 0) <| .ok (.hitrepAccept (flag w 31))
    | 1 => guardF (fld w 2 19 = 0) <| .ok (.hitrepIgnore (flag w 31))
    | 2 => guardF (fld w 2 19 = 0) <| .ok (.hitrepTerminate (flag w 31))
    | _ => .error .illegalField
  | 27 => guardF (fld w 4 3 = 0) <| .ok (.rwres (flag w 31) (bits w 14 7) (bits w 7 7) (bits w 0 4))
  | 28 => guardF (fld w 14 7 = 0) <| .ok (.rwpost (flag w 31) (bits w 7 7) (bits w 0 7))
  | 29 => guardF (fld w 0 7 = 0) <| guardF (fld w 14 7 = 0) <| .ok (.netjob (flag w 31) (bits w 7 7))
  | 30 => guardF (fld w 0 7 = 0) <| .ok (.nstat (flag w 31) (bits w 14 7) (bits w 7 7))
  | 31 => guardF (fld w 0 7 = 0) <| guardF (fld w 14 7 = 0) <| .ok (.pref (flag w 31) (bits w 7 7))
  | 32 => guardF (fld w 14 7 = 0) <| .ok (.flush (flag w 31) (bits w 7 7) (bits w 0 7))
  | 33 => guardF (fld w 14 7 = 0) <| .ok (.inval (flag w 31) (bits w 7 7) (bits w 0 7))
  | _ => .error .unassigned

/-- Major 0xF XW of the opcode map (02_encoding R81). -/
def decXW (w : Nat) : Except Reject Instr :=
  match fld w 24 3 with
  | 0 => guardF (fld w 31 1 = 0) <| .ok (.xwImm (bits w 0 24))
  | 1 => guardF (fld w 5 19 = 0) <| guardF (fld w 31 1 = 0) <| .ok (.xwGuard (flag w 4) (bits w 0 4))
  | 2 => guardF (fld w 11 13 = 0) <| guardF (fld w 31 1 = 0) <| .ok (.xwOrder (bits w 9 2) (flag w 8) (bits w 4 4) (flag w 3) (bits w 0 3))
  | 3 => guardF (fld w 8 16 = 0) <| guardF (fld w 31 1 = 0) <| .ok (.xwMask (bits w 0 8))
  | 4 => guardF (fld w 4 20 = 0) <| guardF (fld w 31 1 = 0) <| need (RMode.ofCode (fld w 0 2)) fun mode => .ok (.xwRound (flag w 3) (flag w 2) mode)
  | 5 => guardF (fld w 7 17 = 0) <| guardF (fld w 31 1 = 0) <| .ok (.xwOperand (bits w 0 7))
  | 6 => guardF (fld w 31 1 = 0) <| .ok (.xwOffset (bits w 0 24))
  | _ => .error .unassigned

/-- The layout of a word by its major (R57). -/
def decodeMajor (w : Nat) : Except Reject Instr :=
  match fld w 27 4 with
  | 0 => decA3 w | 1 => decAI w | 2 => decPC w | 3 => decSEL w | 4 => decBR w | 5 => decLD w | 6 => decST w | 7 => decAT w
  | 8 => decMX w | 9 => decTL w | 10 => decXF w | 11 => decSF w | 12 => decCT w | 13 => decAS w
  | 14 => .error .reservedMajor
  | _ => if flag w 31 then .error .extensionWithB else decXW w

/-- Decode one 32-bit word (R57, R58): its opcode point, then the limits of its fields. -/
def decodeWord (w : Nat) : Except Reject Instr :=
  match decodeMajor w with
  | .error r => .error r
  | .ok i => if i.wf then .ok i else .error .illegalField

/-- A word with fields at bits 0 (R57 to R78). -/
def put0 (base x0 : Nat) : Nat :=
  base + x0

/-- A word with fields at bits 14, 7, 0 (R57 to R78). -/
def put14_7_0 (base x0 x1 x2 : Nat) : Nat :=
  base + x0 * 2 ^ 14 + x1 * 2 ^ 7 + x2

/-- A word with fields at bits 23, 22, 0 (R57 to R78). -/
def put23_22_0 (base x0 x1 x2 : Nat) : Nat :=
  base + x0 * 2 ^ 23 + x1 * 2 ^ 22 + x2

/-- A word with fields at bits 31 (R57 to R78). -/
def put31 (base x0 : Nat) : Nat :=
  base + x0 * 2 ^ 31

/-- A word with fields at bits 31, 0 (R57 to R78). -/
def put31_0 (base x0 x1 : Nat) : Nat :=
  base + x0 * 2 ^ 31 + x1

/-- A word with fields at bits 31, 12, 8, 4, 0 (R57 to R78). -/
def put31_12_8_4_0 (base x0 x1 x2 x3 x4 : Nat) : Nat :=
  base + x0 * 2 ^ 31 + x1 * 2 ^ 12 + x2 * 2 ^ 8 + x3 * 2 ^ 4 + x4

/-- A word with fields at bits 31, 14 (R57 to R78). -/
def put31_14 (base x0 x1 : Nat) : Nat :=
  base + x0 * 2 ^ 31 + x1 * 2 ^ 14

/-- A word with fields at bits 31, 14, 0 (R57 to R78). -/
def put31_14_0 (base x0 x1 x2 : Nat) : Nat :=
  base + x0 * 2 ^ 31 + x1 * 2 ^ 14 + x2

/-- A word with fields at bits 31, 14, 5 (R57 to R78). -/
def put31_14_5 (base x0 x1 x2 : Nat) : Nat :=
  base + x0 * 2 ^ 31 + x1 * 2 ^ 14 + x2 * 2 ^ 5

/-- A word with fields at bits 31, 14, 7 (R57 to R78). -/
def put31_14_7 (base x0 x1 x2 : Nat) : Nat :=
  base + x0 * 2 ^ 31 + x1 * 2 ^ 14 + x2 * 2 ^ 7

/-- A word with fields at bits 31, 14, 7, 0 (R57 to R78). -/
def put31_14_7_0 (base x0 x1 x2 x3 : Nat) : Nat :=
  base + x0 * 2 ^ 31 + x1 * 2 ^ 14 + x2 * 2 ^ 7 + x3

/-- A word with fields at bits 31, 14, 7, 3 (R57 to R78). -/
def put31_14_7_3 (base x0 x1 x2 x3 : Nat) : Nat :=
  base + x0 * 2 ^ 31 + x1 * 2 ^ 14 + x2 * 2 ^ 7 + x3 * 2 ^ 3

/-- A word with fields at bits 31, 14, 7, 3, 2, 0 (R57 to R78). -/
def put31_14_7_3_2_0 (base x0 x1 x2 x3 x4 x5 : Nat) : Nat :=
  base + x0 * 2 ^ 31 + x1 * 2 ^ 14 + x2 * 2 ^ 7 + x3 * 2 ^ 3 + x4 * 2 ^ 2 + x5

/-- A word with fields at bits 31, 15, 8, 1, 0 (R57 to R78). -/
def put31_15_8_1_0 (base x0 x1 x2 x3 x4 : Nat) : Nat :=
  base + x0 * 2 ^ 31 + x1 * 2 ^ 15 + x2 * 2 ^ 8 + x3 * 2 ^ 1 + x4

/-- A word with fields at bits 31, 16 (R57 to R78). -/
def put31_16 (base x0 x1 : Nat) : Nat :=
  base + x0 * 2 ^ 31 + x1 * 2 ^ 16

/-- A word with fields at bits 31, 16, 0 (R57 to R78). -/
def put31_16_0 (base x0 x1 x2 : Nat) : Nat :=
  base + x0 * 2 ^ 31 + x1 * 2 ^ 16 + x2

/-- A word with fields at bits 31, 16, 12, 5, 1, 0 (R57 to R78). -/
def put31_16_12_5_1_0 (base x0 x1 x2 x3 x4 x5 : Nat) : Nat :=
  base + x0 * 2 ^ 31 + x1 * 2 ^ 16 + x2 * 2 ^ 12 + x3 * 2 ^ 5 + x4 * 2 ^ 1 + x5

/-- A word with fields at bits 31, 16, 12, 5, 3, 1, 0 (R57 to R78). -/
def put31_16_12_5_3_1_0 (base x0 x1 x2 x3 x4 x5 x6 : Nat) : Nat :=
  base + x0 * 2 ^ 31 + x1 * 2 ^ 16 + x2 * 2 ^ 12 + x3 * 2 ^ 5 + x4 * 2 ^ 3 + x5 * 2 ^ 1 + x6

/-- A word with fields at bits 31, 16, 5 (R57 to R78). -/
def put31_16_5 (base x0 x1 x2 : Nat) : Nat :=
  base + x0 * 2 ^ 31 + x1 * 2 ^ 16 + x2 * 2 ^ 5

/-- A word with fields at bits 31, 18, 16, 0 (R57 to R78). -/
def put31_18_16_0 (base x0 x1 x2 x3 : Nat) : Nat :=
  base + x0 * 2 ^ 31 + x1 * 2 ^ 18 + x2 * 2 ^ 16 + x3

/-- A word with fields at bits 31, 20, 14, 0 (R57 to R78). -/
def put31_20_14_0 (base x0 x1 x2 x3 : Nat) : Nat :=
  base + x0 * 2 ^ 31 + x1 * 2 ^ 20 + x2 * 2 ^ 14 + x3

/-- A word with fields at bits 31, 20, 16 (R57 to R78). -/
def put31_20_16 (base x0 x1 x2 : Nat) : Nat :=
  base + x0 * 2 ^ 31 + x1 * 2 ^ 20 + x2 * 2 ^ 16

/-- A word with fields at bits 31, 20, 16, 12 (R57 to R78). -/
def put31_20_16_12 (base x0 x1 x2 x3 : Nat) : Nat :=
  base + x0 * 2 ^ 31 + x1 * 2 ^ 20 + x2 * 2 ^ 16 + x3 * 2 ^ 12

/-- A word with fields at bits 31, 20, 16, 14, 7, 0 (R57 to R78). -/
def put31_20_16_14_7_0 (base x0 x1 x2 x3 x4 x5 : Nat) : Nat :=
  base + x0 * 2 ^ 31 + x1 * 2 ^ 20 + x2 * 2 ^ 16 + x3 * 2 ^ 14 + x4 * 2 ^ 7 + x5

/-- A word with fields at bits 31, 20, 18, 14, 7, 0 (R57 to R78). -/
def put31_20_18_14_7_0 (base x0 x1 x2 x3 x4 x5 : Nat) : Nat :=
  base + x0 * 2 ^ 31 + x1 * 2 ^ 20 + x2 * 2 ^ 18 + x3 * 2 ^ 14 + x4 * 2 ^ 7 + x5

/-- A word with fields at bits 31, 20, 19, 14, 7, 0 (R57 to R78). -/
def put31_20_19_14_7_0 (base x0 x1 x2 x3 x4 x5 : Nat) : Nat :=
  base + x0 * 2 ^ 31 + x1 * 2 ^ 20 + x2 * 2 ^ 19 + x3 * 2 ^ 14 + x4 * 2 ^ 7 + x5

/-- A word with fields at bits 31, 23, 21, 14, 7, 0 (R57 to R78). -/
def put31_23_21_14_7_0 (base x0 x1 x2 x3 x4 x5 : Nat) : Nat :=
  base + x0 * 2 ^ 31 + x1 * 2 ^ 23 + x2 * 2 ^ 21 + x3 * 2 ^ 14 + x4 * 2 ^ 7 + x5

/-- A word with fields at bits 31, 23, 21, 17, 10, 3, 1, 0 (R57 to R78). -/
def put31_23_21_17_10_3_1_0 (base x0 x1 x2 x3 x4 x5 x6 x7 : Nat) : Nat :=
  base + x0 * 2 ^ 31 + x1 * 2 ^ 23 + x2 * 2 ^ 21 + x3 * 2 ^ 17 + x4 * 2 ^ 10 + x5 * 2 ^ 3 + x6 * 2 ^ 1 + x7

/-- A word with fields at bits 31, 7 (R57 to R78). -/
def put31_7 (base x0 x1 : Nat) : Nat :=
  base + x0 * 2 ^ 31 + x1 * 2 ^ 7

/-- A word with fields at bits 31, 7, 0 (R57 to R78). -/
def put31_7_0 (base x0 x1 x2 : Nat) : Nat :=
  base + x0 * 2 ^ 31 + x1 * 2 ^ 7 + x2

/-- A word with fields at bits 3, 2, 0 (R57 to R78). -/
def put3_2_0 (base x0 x1 x2 : Nat) : Nat :=
  base + x0 * 2 ^ 3 + x1 * 2 ^ 2 + x2

/-- A word with fields at bits 4, 0 (R57 to R78). -/
def put4_0 (base x0 x1 : Nat) : Nat :=
  base + x0 * 2 ^ 4 + x1

/-- A word with fields at bits 7 (R57 to R78). -/
def put7 (base x0 : Nat) : Nat :=
  base + x0 * 2 ^ 7

/-- A word with fields at bits 7, 0 (R57 to R78). -/
def put7_0 (base x0 x1 : Nat) : Nat :=
  base + x0 * 2 ^ 7 + x1

/-- A word with fields at bits 9, 8, 4, 3, 0 (R57 to R78). -/
def put9_8_4_3_0 (base x0 x1 x2 x3 x4 : Nat) : Nat :=
  base + x0 * 2 ^ 9 + x1 * 2 ^ 8 + x2 * 2 ^ 4 + x3 * 2 ^ 3 + x4

/-- The word of an instruction, from the encoding tables of 02_encoding; a step of the machine that is no word has none. -/
def encode (i : Instr) : Option Nat :=
  match i with
  | .addA3 e d a b => some (put31_14_7_0 0x00000000 (bit01 e) d.toNat a.toNat b.toNat)
  | .addAi e d a imm => some (put31_14_7_0 0x08000000 (bit01 e) d.toNat a.toNat imm.toNat)
  | .subA3 e d a b => some (put31_14_7_0 0x00200000 (bit01 e) d.toNat a.toNat b.toNat)
  | .subAi e d a imm => some (put31_14_7_0 0x08200000 (bit01 e) d.toNat a.toNat imm.toNat)
  | .mulA3 e d a b => some (put31_14_7_0 0x00400000 (bit01 e) d.toNat a.toNat b.toNat)
  | .mulAi e d a imm => some (put31_14_7_0 0x08400000 (bit01 e) d.toNat a.toNat imm.toNat)
  | .mulhi e d a b => some (put31_14_7_0 0x00600000 (bit01 e) d.toNat a.toNat b.toNat)
  | .ma e d a b => some (put31_14_7_0 0x00800000 (bit01 e) d.toNat a.toNat b.toNat)
  | .minA3 e d a b => some (put31_14_7_0 0x00A00000 (bit01 e) d.toNat a.toNat b.toNat)
  | .minAi e d a imm => some (put31_14_7_0 0x08A00000 (bit01 e) d.toNat a.toNat imm.toNat)
  | .maxA3 e d a b => some (put31_14_7_0 0x00C00000 (bit01 e) d.toNat a.toNat b.toNat)
  | .maxAi e d a imm => some (put31_14_7_0 0x08C00000 (bit01 e) d.toNat a.toNat imm.toNat)
  | .andA3 e d a b => some (put31_14_7_0 0x00E00000 (bit01 e) d.toNat a.toNat b.toNat)
  | .andAi e d a imm => some (put31_14_7_0 0x08E00000 (bit01 e) d.toNat a.toNat imm.toNat)
  | .orA3 e d a b => some (put31_14_7_0 0x01000000 (bit01 e) d.toNat a.toNat b.toNat)
  | .orAi e d a imm => some (put31_14_7_0 0x09000000 (bit01 e) d.toNat a.toNat imm.toNat)
  | .xorA3 e d a b => some (put31_14_7_0 0x01200000 (bit01 e) d.toNat a.toNat b.toNat)
  | .xorAi e d a imm => some (put31_14_7_0 0x09200000 (bit01 e) d.toNat a.toNat imm.toNat)
  | .shlA3 e d a b => some (put31_14_7_0 0x01400000 (bit01 e) d.toNat a.toNat b.toNat)
  | .shlAi e d a imm => some (put31_14_7_0 0x09400000 (bit01 e) d.toNat a.toNat imm.toNat)
  | .shrA3 e d a b => some (put31_14_7_0 0x01600000 (bit01 e) d.toNat a.toNat b.toNat)
  | .shrAi e d a imm => some (put31_14_7_0 0x09600000 (bit01 e) d.toNat a.toNat imm.toNat)
  | .sarA3 e d a b => some (put31_14_7_0 0x01800000 (bit01 e) d.toNat a.toNat b.toNat)
  | .sarAi e d a imm => some (put31_14_7_0 0x09800000 (bit01 e) d.toNat a.toNat imm.toNat)
  | .rotA3 e d a b => some (put31_14_7_0 0x01A00000 (bit01 e) d.toNat a.toNat b.toNat)
  | .rotAi e d a imm => some (put31_14_7_0 0x09A00000 (bit01 e) d.toNat a.toNat imm.toNat)
  | .bfe e d a b => some (put31_14_7_0 0x01C00000 (bit01 e) d.toNat a.toNat b.toNat)
  | .bfi e d a b => some (put31_14_7_0 0x01E00000 (bit01 e) d.toNat a.toNat b.toNat)
  | .leaA3 e d a b => some (put31_14_7_0 0x02000000 (bit01 e) d.toNat a.toNat b.toNat)
  | .leaAi e d a imm => some (put31_14_7_0 0x0A000000 (bit01 e) d.toNat a.toNat imm.toNat)
  | .mov e d a => some (put31_14_7 0x02200000 (bit01 e) d.toNat a.toNat)
  | .neg e d a => some (put31_14_7 0x02400000 (bit01 e) d.toNat a.toNat)
  | .abs e d a => some (put31_14_7 0x02600000 (bit01 e) d.toNat a.toNat)
  | .notR e d a => some (put31_14_7 0x02800000 (bit01 e) d.toNat a.toNat)
  | .popc e d a => some (put31_14_7 0x02A00000 (bit01 e) d.toNat a.toNat)
  | .clz e d a => some (put31_14_7 0x02C00000 (bit01 e) d.toNat a.toNat)
  | .brev e d a => some (put31_14_7 0x02E00000 (bit01 e) d.toNat a.toNat)
  | .dot4 e d a b => some (put31_14_7_0 0x03000000 (bit01 e) d.toNat a.toNat b.toNat)
  | .dott e d a b => some (put31_14_7_0 0x03200000 (bit01 e) d.toNat a.toNat b.toNat)
  | .ldi e d imm => some (put31_14_0 0x0FE00000 (bit01 e) d.toNat imm.toNat)
  | .cmp e cond pd mode a b => some (put31_20_16_14_7_0 0x10000000 (bit01 e) cond.code pd.toNat mode.code a.toNat b.toNat)
  | .cmpi e cond pd mode a imm => some (put31_20_16_14_7_0 0x11000000 (bit01 e) cond.code pd.toNat mode.code a.toNat imm.toNat)
  | .pand e pd pa pb => some (put31_20_16_12 0x12000000 (bit01 e) pd.toNat pa.toNat pb.toNat)
  | .por e pd pa pb => some (put31_20_16_12 0x12000400 (bit01 e) pd.toNat pa.toNat pb.toNat)
  | .pxor e pd pa pb => some (put31_20_16_12 0x12000800 (bit01 e) pd.toNat pa.toNat pb.toNat)
  | .pnot e pd pa => some (put31_20_16 0x12000C00 (bit01 e) pd.toNat pa.toNat)
  | .pmovToRegister e v mask => some (put31_16_0 0x13000000 (bit01 e) v.toNat mask.toNat)
  | .pmovToPredicates e v mask => some (put31_16_0 0x13800000 (bit01 e) v.toNat mask.toNat)
  | .sel e ps inv d a b => some (put31_23_21_14_7_0 0x18000000 (bit01 e) ps.toNat (bit01 inv) d.toNat a.toNat b.toNat)
  | .bra p pol off => some (put23_22_0 0xA0000000 p.toNat (bit01 pol) off.toNat)
  | .ld e fmt space seq d a cnt acq => some (put31_23_21_17_10_3_1_0 0x28000000 (bit01 e) fmt.code space.code seq.toNat d.toNat a.toNat cnt.toNat (bit01 acq))
  | .st e fmt space seq v a cnt rel => some (put31_23_21_17_10_3_1_0 0x30000000 (bit01 e) fmt.code space.code seq.toNat v.toNat a.toNat cnt.toNat (bit01 rel))
  | .atomAdd e scope sem seq d a => some (put31_20_18_14_7_0 0x38000000 (bit01 e) scope.toNat sem.code seq.toNat d.toNat a.toNat)
  | .atomMin e scope sem seq d a => some (put31_20_18_14_7_0 0x38800000 (bit01 e) scope.toNat sem.code seq.toNat d.toNat a.toNat)
  | .atomMax e scope sem seq d a => some (put31_20_18_14_7_0 0x39000000 (bit01 e) scope.toNat sem.code seq.toNat d.toNat a.toNat)
  | .atomAnd e scope sem seq d a => some (put31_20_18_14_7_0 0x39800000 (bit01 e) scope.toNat sem.code seq.toNat d.toNat a.toNat)
  | .atomOr e scope sem seq d a => some (put31_20_18_14_7_0 0x3A000000 (bit01 e) scope.toNat sem.code seq.toNat d.toNat a.toNat)
  | .atomXor e scope sem seq d a => some (put31_20_18_14_7_0 0x3A800000 (bit01 e) scope.toNat sem.code seq.toNat d.toNat a.toNat)
  | .atomXchg e scope sem seq d a => some (put31_20_18_14_7_0 0x3B000000 (bit01 e) scope.toNat sem.code seq.toNat d.toNat a.toNat)
  | .atomIncw e scope sem seq d a => some (put31_20_18_14_7_0 0x3B800000 (bit01 e) scope.toNat sem.code seq.toNat d.toNat a.toNat)
  | .atomDecw e scope sem seq d a => some (put31_20_18_14_7_0 0x3C000000 (bit01 e) scope.toNat sem.code seq.toNat d.toNat a.toNat)
  | .cas e scope sem seq d a => some (put31_20_18_14_7_0 0x3C800000 (bit01 e) scope.toNat sem.code seq.toNat d.toNat a.toNat)
  | .redAdd e scope rel seq d a => some (put31_20_19_14_7_0 0x3E000000 (bit01 e) scope.toNat (bit01 rel) seq.toNat d.toNat a.toNat)
  | .redMin e scope rel seq d a => some (put31_20_19_14_7_0 0x3E800000 (bit01 e) scope.toNat (bit01 rel) seq.toNat d.toNat a.toNat)
  | .redMax e scope rel seq d a => some (put31_20_19_14_7_0 0x3F000000 (bit01 e) scope.toNat (bit01 rel) seq.toNat d.toNat a.toNat)
  | .rsettle e scope seq a => some (put31_20_14_0 0x3F880000 (bit01 e) scope.toNat seq.toNat a.toNat)
  | .mmaBf16 e t a b negate => some (put31_15_8_1_0 0x40000000 (bit01 e) t.toNat a.toNat b.toNat (bit01 negate))
  | .mmaF16 e t a b negate => some (put31_15_8_1_0 0x40800000 (bit01 e) t.toNat a.toNat b.toNat (bit01 negate))
  | .mmaE4m3 e t a b negate => some (put31_15_8_1_0 0x41000000 (bit01 e) t.toNat a.toNat b.toNat (bit01 negate))
  | .mmaE5m2 e t a b negate => some (put31_15_8_1_0 0x41800000 (bit01 e) t.toNat a.toNat b.toNat (bit01 negate))
  | .mmaSi8 e t a b negate => some (put31_15_8_1_0 0x42000000 (bit01 e) t.toNat a.toNat b.toNat (bit01 negate))
  | .mmaUi8 e t a b negate => some (put31_15_8_1_0 0x42800000 (bit01 e) t.toNat a.toNat b.toNat (bit01 negate))
  | .mmasE2m1 e t a b negate => some (put31_15_8_1_0 0x44000000 (bit01 e) t.toNat a.toNat b.toNat (bit01 negate))
  | .mmasE2m3 e t a b negate => some (put31_15_8_1_0 0x44800000 (bit01 e) t.toNat a.toNat b.toNat (bit01 negate))
  | .mmasE3m2 e t a b negate => some (put31_15_8_1_0 0x45000000 (bit01 e) t.toNat a.toNat b.toNat (bit01 negate))
  | .mmasE4m3 e t a b negate => some (put31_15_8_1_0 0x45800000 (bit01 e) t.toNat a.toNat b.toNat (bit01 negate))
  | .mmasE5m2 e t a b negate => some (put31_15_8_1_0 0x46000000 (bit01 e) t.toNat a.toNat b.toNat (bit01 negate))
  | .mmasSi8 e t a b negate => some (put31_15_8_1_0 0x46800000 (bit01 e) t.toNat a.toNat b.toNat (bit01 negate))
  | .tzero e t => some (put31_16 0x48000000 (bit01 e) t.toNat)
  | .tfill e t seq reg fmt scr => some (put31_16_12_5_1_0 0x49000000 (bit01 e) t.toNat seq.toNat reg.toNat fmt.code (bit01 scr))
  | .tdrain e t seq reg keep fmt scr => some (put31_16_12_5_3_1_0 0x4A000000 (bit01 e) t.toNat seq.toNat reg.toNat (bit01 keep) fmt.code (bit01 scr))
  | .tget e t reg => some (put31_16_5 0x4B000000 (bit01 e) t.toNat reg.toNat)
  | .trow e t reg => some (put31_16_5 0x4C000000 (bit01 e) t.toNat reg.toNat)
  | .tstat e t reg => some (put31_16_5 0x4D000000 (bit01 e) t.toNat reg.toNat)
  | .shflIdx e d a m => some (put31_14_7_0 0x50000000 (bit01 e) d.toNat a.toNat m.toNat)
  | .shflUp e d a m => some (put31_14_7_0 0x50200000 (bit01 e) d.toNat a.toNat m.toNat)
  | .shflDown e d a m => some (put31_14_7_0 0x50400000 (bit01 e) d.toNat a.toNat m.toNat)
  | .shflXor e d a m => some (put31_14_7_0 0x50600000 (bit01 e) d.toNat a.toNat m.toNat)
  | .voteAny e d a m => some (put31_14_7_0 0x51000000 (bit01 e) d.toNat a.toNat m.toNat)
  | .voteAll e d a m => some (put31_14_7_0 0x51200000 (bit01 e) d.toNat a.toNat m.toNat)
  | .voteBallot e d a m => some (put31_14_7_0 0x51400000 (bit01 e) d.toNat a.toNat m.toNat)
  | .foldAdd e d a m => some (put31_14_7_0 0x52000000 (bit01 e) d.toNat a.toNat m.toNat)
  | .foldMin e d a m => some (put31_14_7_0 0x52200000 (bit01 e) d.toNat a.toNat m.toNat)
  | .foldMax e d a m => some (put31_14_7_0 0x52400000 (bit01 e) d.toNat a.toNat m.toNat)
  | .foldAnd e d a m => some (put31_14_7_0 0x52600000 (bit01 e) d.toNat a.toNat m.toNat)
  | .foldOr e d a m => some (put31_14_7_0 0x52800000 (bit01 e) d.toNat a.toNat m.toNat)
  | .foldXor e d a m => some (put31_14_7_0 0x52A00000 (bit01 e) d.toNat a.toNat m.toNat)
  | .scanAdd e d a m => some (put31_14_7_0 0x53000000 (bit01 e) d.toNat a.toNat m.toNat)
  | .scanMin e d a m => some (put31_14_7_0 0x53200000 (bit01 e) d.toNat a.toNat m.toNat)
  | .scanMax e d a m => some (put31_14_7_0 0x53400000 (bit01 e) d.toNat a.toNat m.toNat)
  | .scanAnd e d a m => some (put31_14_7_0 0x53600000 (bit01 e) d.toNat a.toNat m.toNat)
  | .scanOr e d a m => some (put31_14_7_0 0x53800000 (bit01 e) d.toNat a.toNat m.toNat)
  | .scanXor e d a m => some (put31_14_7_0 0x53A00000 (bit01 e) d.toNat a.toNat m.toNat)
  | .matchAny e d a m => some (put31_14_7_0 0x54000000 (bit01 e) d.toNat a.toNat m.toNat)
  | .matchAll e d a m => some (put31_14_7_0 0x54200000 (bit01 e) d.toNat a.toNat m.toNat)
  | .rcp e d a => some (put31_14_7 0x58000000 (bit01 e) d.toNat a.toNat)
  | .rsq e d a => some (put31_14_7 0x58200000 (bit01 e) d.toNat a.toNat)
  | .sqrt e d a => some (put31_14_7 0x58400000 (bit01 e) d.toNat a.toNat)
  | .exp2 e d a => some (put31_14_7 0x58600000 (bit01 e) d.toNat a.toNat)
  | .log2 e d a => some (put31_14_7 0x58800000 (bit01 e) d.toNat a.toNat)
  | .sin e d a => some (put31_14_7 0x58A00000 (bit01 e) d.toNat a.toNat)
  | .cos e d a => some (put31_14_7 0x58C00000 (bit01 e) d.toNat a.toNat)
  | .tanh e d a => some (put31_14_7 0x58E00000 (bit01 e) d.toNat a.toNat)
  | .cvt e d a tgt sat mode => some (put31_14_7_3_2_0 0x5A000000 (bit01 e) d.toNat a.toNat tgt.code (bit01 sat) mode.code)
  | .mxpack e d a tgt => some (put31_14_7_3 0x5A200000 (bit01 e) d.toNat a.toNat tgt.code)
  | .mxunpk e d a tgt => some (put31_14_7_3 0x5A400000 (bit01 e) d.toNat a.toNat tgt.code)
  | .dtern e d a half => some (put31_14_7_0 0x5A600000 (bit01 e) d.toNat a.toNat half.toNat)
  | .retag e d a tgt => some (put31_14_7_0 0x5B000000 (bit01 e) d.toNat a.toNat tgt.code)
  | .tag e d a => some (put31_14_7 0x5B200000 (bit01 e) d.toNat a.toNat)
  | .shape e d a => some (put31_14_7 0x5B400000 (bit01 e) d.toNat a.toNat)
  | .fpflag e d mask => some (put31_14_0 0x5B600000 (bit01 e) d.toNat mask.toNat)
  | .nop e => some (put31 0x60000000 (bit01 e))
  | .brx a => some (put7 0xE0200000 a.toNat)
  | .call off => some (put0 0xE0400000 off.toNat)
  | .ret => some 0xE0600000
  | .region e => some (put31 0x60800000 (bit01 e))
  | .spawn e d a b => some (put31_14_7_0 0x60A00000 (bit01 e) d.toNat a.toNat b.toNat)
  | .retire => some 0xE0C00000
  | .yield e => some (put31 0x60E00000 (bit01 e))
  | .wait e loads stores copies tiles => some (put31_12_8_4_0 0x61000000 (bit01 e) loads.toNat stores.toNat copies.toNat tiles.toNat)
  | .fence e scope kind mask => some (put31_18_16_0 0x61200000 (bit01 e) scope.toNat kind.code mask.toNat)
  | .trap e code => some (put31_0 0x61400000 (bit01 e) code.toNat)
  | .eret => some 0xE1600000
  | .syscall d a n => some (put14_7_0 0xE1800000 d.toNat a.toNat n.toNat)
  | .uiret => some 0xE1A00000
  | .uimask e m => some (put31_0 0x61C00000 (bit01 e) (bit01 m))
  | .sread e d n => some (put31_14_5 0x62000000 (bit01 e) d.toNat n.toNat)
  | .swrite e a n => some (put31_14_5 0x62200000 (bit01 e) a.toNat n.toNat)
  | .tlbinv e a b => some (put31_7_0 0x62400000 (bit01 e) a.toNat b.toNat)
  | .cpost e a ch => some (put31_7_0 0x68000000 (bit01 e) a.toNat ch.toNat)
  | .cstat e d ch => some (put31_14_0 0x68200000 (bit01 e) d.toNat ch.toNat)
  | .tbinit e a b => some (put31_7_0 0x68400000 (bit01 e) a.toNat b.toNat)
  | .tbexp e a b => some (put31_7_0 0x68600000 (bit01 e) a.toNat b.toNat)
  | .tbarv e a => some (put31_7 0x68800000 (bit01 e) a.toNat)
  | .tbwait e d a b => some (put31_14_7_0 0x68A00000 (bit01 e) d.toNat a.toNat b.toNat)
  | .bar e team => some (put31_0 0x68C00000 (bit01 e) (bit01 team))
  | .bara e team => some (put31_0 0x68E00000 (bit01 e) (bit01 team))
  | .barw e team => some (put31_0 0x69000000 (bit01 e) (bit01 team))
  | .tkres e d a pd => some (put31_14_7_0 0x69200000 (bit01 e) d.toNat a.toNat pd.toNat)
  | .tkcom e a => some (put31_7 0x69400000 (bit01 e) a.toNat)
  | .tkdrop e a => some (put31_7 0x69600000 (bit01 e) a.toNat)
  | .ccarm e d a => some (put31_14_7 0x69800000 (bit01 e) d.toNat a.toNat)
  | .ccread e d a => some (put31_14_7 0x69A00000 (bit01 e) d.toNat a.toNat)
  | .ccdis e a => some (put31_7 0x69C00000 (bit01 e) a.toNat)
  | .psend e a b => some (put31_7_0 0x69E00000 (bit01 e) a.toNat b.toNat)
  | .precv e d a => some (put31_14_7 0x6A000000 (bit01 e) d.toNat a.toNat)
  | .pprobe e d a => some (put31_14_7 0x6A200000 (bit01 e) d.toNat a.toNat)
  | .txbegin e d pd => some (put31_14_0 0x6A400000 (bit01 e) d.toNat pd.toNat)
  | .txend pd => some (put0 0xEA600000 pd.toNat)
  | .txabort e => some (put31 0x6A800000 (bit01 e))
  | .txstat e d a => some (put31_14_7 0x6AA00000 (bit01 e) d.toNat a.toNat)
  | .feed e q a => some (put31_14_7 0x6ADE0000 (bit01 e) q.toNat a.toNat)
  | .fstop e q => some (put31_14 0x6AFE0000 (bit01 e) q.toNat)
  | .trace a b => some (put7_0 0xEB000000 a.toNat b.toNat)
  | .texc a b => some (put7_0 0xEB200000 a.toNat b.toNat)
  | .hitrepAccept e => some (put31 0x6B400000 (bit01 e))
  | .hitrepIgnore e => some (put31 0x6B400001 (bit01 e))
  | .hitrepTerminate e => some (put31 0x6B400002 (bit01 e))
  | .rwres e d a pd => some (put31_14_7_0 0x6B600000 (bit01 e) d.toNat a.toNat pd.toNat)
  | .rwpost e a b => some (put31_7_0 0x6B800000 (bit01 e) a.toNat b.toNat)
  | .netjob e a => some (put31_7 0x6BA00000 (bit01 e) a.toNat)
  | .nstat e d a => some (put31_14_7 0x6BC00000 (bit01 e) d.toNat a.toNat)
  | .pref e a => some (put31_7 0x6BE00000 (bit01 e) a.toNat)
  | .flush e a b => some (put31_7_0 0x6C000000 (bit01 e) a.toNat b.toNat)
  | .inval e a b => some (put31_7_0 0x6C200000 (bit01 e) a.toNat b.toNat)
  | .xwImm payload => some (put0 0x78000000 payload.toNat)
  | .xwGuard pol p => some (put4_0 0x79000000 (bit01 pol) p.toNat)
  | .xwOrder policy hasSeq seq hasScope scope => some (put9_8_4_3_0 0x7A000000 policy.toNat (bit01 hasSeq) seq.toNat (bit01 hasScope) scope.toNat)
  | .xwMask mask => some (put0 0x7B000000 mask.toNat)
  | .xwRound dyn sat mode => some (put3_2_0 0x7C000000 (bit01 dyn) (bit01 sat) mode.code)
  | .xwOperand r => some (put0 0x7D000000 r.toNat)
  | .xwOffset off => some (put0 0x7E000000 off.toNat)
  | .notifyWrite .. => none
  | .queueMap .. => none
  | .queueIdleUnmap .. => none
  | .queueEviction .. => none
  | .queueSuspend .. => none
  | .launchRecordRead .. => none
  | .launchDependencesSatisfied .. => none
  | .launchCancelled .. => none
  | .distributorRound .. => none
  | .passedOverTimeout .. => none
  | .priorityChange .. => none
  | .laneArbitration .. => none
  | .unitArbitration .. => none
  | .resultLanding .. => none
  | .crewCompletion .. => none
  | .storePerform .. => none
  | .crumbFiring .. => none
  | .taskDispatch .. => none
  | .pipeAppend .. => none
  | .pipeOverflowSegment .. => none
  | .pipeCycleInspection .. => none
  | .pipeDestroy .. => none
  | .copyHeadTaken .. => none
  | .transferRecordFetch .. => none
  | .sectorLanding .. => none
  | .recordCompletion .. => none
  | .recordPoison .. => none
  | .userInterruptEntry .. => none
  | .feedElementFetch .. => none
  | .pageWalk .. => none
  | .missResolution .. => none
  | .atsCompletion .. => none
  | .priResponse .. => none
  | .steppingModeRestart .. => none
  | .deferredPoisonTrap .. => none
  | .teardown .. => none
  | .preemption .. => none
  | .partitionResize .. => none
  | .coreLeavesPartition .. => none
  | .interimValidation .. => none
  | .serialTokenGrant => none
  | .reductionBufferPass .. => none
  | .migrationStart .. => none
  | .migrationCopyPassEnd .. => none
  | .migrationInvalidationComplete .. => none
  | .oldFrameFreed .. => none
  | .remoteRequestTimeout .. => none
  | .targetExportCheck .. => none
  | .sequenceFreeze .. => none
  | .sequenceResume .. => none
  | .planeRemap .. => none
  | .hostAtomicCompletion .. => none
  | .l2Writeback .. => none
  | .hostLoss => none
  | .hostWarmRestart => none
  | .atsInvalidationRequest .. => none
  | .rayRequestCompletion .. => none
  | .relaunchCrewFormation .. => none
  | .anyHitCrewFormation .. => none
  | .anyHitReportsApplied .. => none
  | .remoteWorkRecordLanding .. => none
  | .consumedWordWrite .. => none
  | .millefeuilleJobStart .. => none
  | .millefeuilleJobCompletion .. => none
  | .millefeuilleMemberTimeout .. => none
  | .encoderSlot .. => none
  | .frameReady .. => none
  | .eccCorrectedError .. => none
  | .uncorrectableError .. => none
  | .rowRemap .. => none
  | .jalleyInstanceStop .. => none
  | .syscallReply .. => none
  | .boot .. => none
  | .thermalThrottle .. => none
  | .thermalShutdown => none
  | .tileFillCompletion .. => none
  | .tileDrainCompletion .. => none
  | .contextCreation .. => none
  | .userQueueCreation .. => none
  | .taskQueueCreation .. => none
  | .pipeCreation .. => none
  | .workChannelCreation .. => none
  | .groupCreation .. => none
  | .attestationRequest .. => none

/-- The four bytes of a word as memory holds them, lowest address first (00_scope R4, R57). -/
def wordBytes (w : Nat) : List Byte := [bits w 0 8, bits w 8 8, bits w 16 8, bits w 24 8]

/-- The number that little-endian bytes hold (00_scope R4). -/
def bytesNat : List Byte → Nat
  | [] => 0
  | b :: bs => b.toNat + 256 * bytesNat bs

/-- What the decoder reads from four bytes of memory. -/
def decodeBytes (bs : List Byte) : Except Reject Instr :=
  if bs.length = 4 then decodeWord (bytesNat bs) else .error .unassigned

/-- The instruction the decoder reads from a word numbered as spec/opcode_table.json numbers it: every row of the table is one 32-bit word. -/
def decodeTableWord (_nbits w : Nat) : Option Instr :=
  match decodeBytes (wordBytes w) with
  | .ok i => some i
  | .error _ => none

end Sys2Proof
end

