-- ==== Sys2Proof/Machine/Num.lean ====
section
/-! DEFINITION. Element formats, exact values, the single rounding procedure and conversions (03_arithmetic R93 to R107, R113 to R115). -/
namespace Sys2Proof.Machine

/-- A floating-point element format (R95). -/
structure Fmt where
  sign : Bool
  eb : Nat
  m : Nat
  bias : Nat
  hasInf : Bool
  hasNan : Bool
deriving DecidableEq, Repr

def fF32 : Fmt := ⟨true, 8, 23, 127, true, true⟩
def fBF16 : Fmt := ⟨true, 8, 7, 127, true, true⟩
def fF16 : Fmt := ⟨true, 5, 10, 15, true, true⟩
def fE4M3 : Fmt := ⟨true, 4, 3, 7, false, true⟩
def fE5M2 : Fmt := ⟨true, 5, 2, 15, true, true⟩
def fE2M3 : Fmt := ⟨true, 2, 3, 1, false, false⟩
def fE3M2 : Fmt := ⟨true, 3, 2, 3, false, false⟩
def fE2M1 : Fmt := ⟨true, 2, 1, 1, false, false⟩

/-- Bits of an element of a format. -/
def Fmt.width (f : Fmt) : Nat := bit01 f.sign + f.eb + f.m

/-- Flags of FPSTAT[6:0] as numbers (01_execution R49). -/
abbrev flIV : Nat := 1
abbrev flDZ : Nat := 2
abbrev flOF : Nat := 4
abbrev flUF : Nat := 8
abbrev flIX : Nat := 16
abbrev flSAT : Nat := 32
abbrev flTC : Nat := 64

/-- An exact value (R96): a NaN, an infinity, or a signed fraction whose zero keeps its sign. -/
inductive Ex where
  | nan
  | inf (neg : Bool)
  | fin (neg : Bool) (num den : Nat)
deriving DecidableEq, Repr

/-- num × 2^e. -/
def Ex.scaled (neg : Bool) (num : Nat) (e : Int) : Ex :=
  match e with
  | .ofNat k => .fin neg (num * 2 ^ k) 1
  | .negSucc k => .fin neg num (2 ^ (k + 1))

/-- An integer. -/
def Ex.ofInt (i : Int) : Ex := .fin (i < 0) i.natAbs 1

/-- Value of R96. -/
def Fmt.value (f : Fmt) (bits : Nat) : Ex :=
  let s := f.sign && (bits / 2 ^ (f.eb + f.m)) % 2 == 1
  let e := bits / 2 ^ f.m % 2 ^ f.eb
  let m := bits % 2 ^ f.m
  if f.hasNan && !f.hasInf && e == 2 ^ f.eb - 1 && m == 2 ^ f.m - 1 then .nan
  else if f.hasInf && e == 2 ^ f.eb - 1 then (if m == 0 then .inf s else .nan)
  else if e == 0 then .scaled s m (1 - (f.bias : Int) - f.m)
  else .scaled s (2 ^ f.m + m) ((e : Int) - f.bias - f.m)

/-- The value of an E8M0 scale (R96). -/
def e8m0Value (x : Nat) : Ex := if x % 256 == 255 then .nan else .scaled false 1 ((x % 256 : Int) - 127)

/-- MaxFinite without its sign (R97). -/
def Fmt.maxFinite (f : Fmt) : Nat :=
  if f.hasInf then (2 ^ f.eb - 2) * 2 ^ f.m + (2 ^ f.m - 1)
  else if f.hasNan then 2 ^ (f.eb + f.m) - 2 else 2 ^ (f.eb + f.m) - 1

/-- +Infinity (R97). -/
def Fmt.inf (f : Fmt) : Nat := (2 ^ f.eb - 1) * 2 ^ f.m

/-- CanonNaN (R97). -/
def Fmt.canonNan (f : Fmt) : Nat := if f.hasInf then f.inf + 2 ^ (f.m - 1) else 2 ^ (f.eb + f.m) - 1

/-- A magnitude with a sign bit. -/
def Fmt.signed (f : Fmt) (neg : Bool) (bits : Nat) : Nat := if neg then bits + 2 ^ (f.eb + f.m) else bits

/-- floor(log2(num/den)) of a positive fraction. -/
def log2Frac (num den : Nat) : Int :=
  let k : Int := (Nat.log2 num : Int) - Nat.log2 den
  let ge : Bool := match k with
    | .ofNat j => den * 2 ^ j ≤ num
    | .negSucc j => den ≤ num * 2 ^ (j + 1)
  if ge then k else k - 1

/-- Round num/den to an integer under a mode; the flag says that it is inexact (R102). -/
def roundFrac (neg : Bool) (num den : Nat) (mode : RMode) : Nat × Bool :=
  let q := num / den
  let r := num % den
  if r == 0 then (q, false) else
  let up := match mode with
    | .rne => den < 2 * r || (2 * r == den && q % 2 == 1)
    | .rtz => false
    | .rup => !neg
    | .rdn => neg
  (if up then q + 1 else q, true)

/-- Round num/den to a multiple of 2^step: the multiple, and whether it is inexact. -/
def roundStep (neg : Bool) (num den : Nat) (step : Int) (mode : RMode) : Nat × Bool :=
  match step with
  | .ofNat k => roundFrac neg num (den * 2 ^ k) mode
  | .negSucc k => roundFrac neg (num * 2 ^ (k + 1)) den mode

/-- The encoding of n × 2^step, a value on the grid of the format at or below the overflow grid; none when it passes MaxFinite. -/
def Fmt.encodeGrid (f : Fmt) (n : Nat) (step : Int) : Option Nat :=
  let bits : Nat :=
    if n == 0 then 0 else
    let k := (Nat.log2 n : Int) + step
    let emin : Int := 1 - f.bias
    if k < emin then n * 2 ^ (step - (emin - f.m)).toNat
    else
      let m := match step - (k - f.m) with
        | .ofNat j => n * 2 ^ j
        | .negSucc j => n / 2 ^ (j + 1)
      ((k - emin + 1).toNat) * 2 ^ f.m + (m - 2 ^ f.m)
  if bits ≤ f.maxFinite then some bits else none

/-- Round of R103: the encoding and the flags. -/
def Fmt.round (f : Fmt) (v : Ex) (mode : RMode) (sat : Bool) : Nat × Nat :=
  match v with
  | .nan => if f.hasNan then (f.canonNan, 0) else (f.maxFinite, flIV)
  | .inf neg => if f.hasInf then (f.signed neg f.inf, 0) else (f.signed neg f.maxFinite, flSAT)
  | .fin neg num den =>
    if num == 0 then (f.signed neg 0, 0) else
    let k := log2Frac num den
    let emin : Int := 1 - f.bias
    let step := (if k < emin then emin else k) - f.m
    let (q, qx) := roundStep neg num den step mode
    let (u, _) := roundStep neg num den (k - f.m) mode
    -- the unbounded-exponent rounding stays below the smallest normal
    let tiny : Bool := k < emin && !(u == 2 ^ (f.m + 1) && k + 1 == emin)
    let fl := (if qx then flIX else 0) + (if qx && tiny then flUF else 0)
    match f.encodeGrid q step with
    | some b => (f.signed neg b, fl)
    | none =>
      if !f.hasInf || sat then (f.signed neg f.maxFinite, fl + flSAT)
      else
        let toInf := match mode with
          | .rne => true
          | .rtz => false
          | .rup => !neg
          | .rdn => neg
        (f.signed neg (if toInf then f.inf else f.maxFinite), fl + flOF)

/-- Exact sum of values whose denominators are powers of two; a zero sum of opposite signs is −0 only under RDN (R104). The flag says an invalid sum of opposite infinities. -/
def Ex.add (a b : Ex) (mode : RMode) : Ex × Nat :=
  match a, b with
  | .nan, _ => (.nan, 0)
  | _, .nan => (.nan, 0)
  | .inf s, .inf t => if s == t then (.inf s, 0) else (.nan, flIV)
  | .inf s, _ => (.inf s, 0)
  | _, .inf t => (.inf t, 0)
  | .fin s n d, .fin t m e =>
    let g := max d e
    let x : Int := (if s then -1 else 1) * (n * (g / d) : Nat) + (if t then -1 else 1) * (m * (g / e) : Nat)
    if x == 0 then (.fin (if n == 0 && m == 0 && s == t then s else mode == .rdn) 0 1, 0)
    else (.fin (x < 0) x.natAbs g, 0)

/-- The value with its sign flipped. -/
def Ex.neg : Ex → Ex
  | .nan => .nan
  | .inf s => .inf (!s)
  | .fin s n d => .fin (!s) n d

/-- Exact product; 0 × ∞ is invalid (R104). -/
def Ex.mul (a b : Ex) : Ex × Nat :=
  match a, b with
  | .nan, _ => (.nan, 0)
  | _, .nan => (.nan, 0)
  | .inf s, .inf t => (.inf (s != t), 0)
  | .inf s, .fin t m _ => if m == 0 then (.nan, flIV) else (.inf (s != t), 0)
  | .fin s n _, .inf t => if n == 0 then (.nan, flIV) else (.inf (s != t), 0)
  | .fin s n d, .fin t m e => (.fin (s != t) (n * m) (d * e), 0)

/-- The reciprocal of a non-zero fraction, and the quotient of finite values. -/
def Ex.div (a b : Ex) : Ex :=
  match a, b with
  | .fin s n d, .fin t m e => if m == 0 then .nan else .fin (s != t) (n * e) (d * m)
  | .inf s, .fin t _ _ => .inf (s != t)
  | .fin s _ _, .inf t => .fin (s != t) 0 1
  | _, _ => .nan

/-- The sign and size order of two exact values, NaN apart, with −0 below +0 (R104). -/
def Ex.lt (a b : Ex) : Bool :=
  match a, b with
  | .nan, _ => false
  | _, .nan => false
  | .inf s, .inf t => s && !t
  | .inf s, _ => s
  | _, .inf t => !t
  | .fin s n d, .fin t m e =>
    match s, t with
    | true, false => true
    | false, true => false
    | false, false => n * e < m * d
    | true, true => m * d < n * e

/-- Equal values, −0 equal to +0, a NaN equal to nothing (15_ref R330). -/
def Ex.eqv (a b : Ex) : Bool :=
  match a, b with
  | .inf s, .inf t => s == t
  | .fin s n d, .fin t m e => n * e == m * d && (n == 0 || s == t)
  | _, _ => false

def Ex.isNan : Ex → Bool
  | .nan => true
  | _ => false

/-- Whether a value is infinite or NaN. -/
def Ex.isFinite : Ex → Bool
  | .fin _ _ _ => true
  | _ => false

/-- floor(√n) by bits, from bit `k` down. -/
def isqrtAux (n : Nat) : Nat → Nat → Nat
  | 0, r => r
  | k + 1, r => let r' := r + 2 ^ k; isqrtAux n k (if r' * r' ≤ n then r' else r)

def isqrt (n : Nat) : Nat := isqrtAux n (Nat.log2 n / 2 + 1) 0

/-- √(num/den) as a fraction on the same side of every F32 grid point and midpoint: exact when the root is a fraction, else with a sticky half step below 2^-60 of it. -/
def sqrtFrac (num den : Nat) : Nat × Nat :=
  -- √(num/den) = √(num × den) / den, scaled by 2^200
  let x := num * den * 2 ^ 400
  let r := isqrt x
  if r * r == x then (r, den * 2 ^ 200) else (2 * r + 1, den * 2 ^ 201)

/-- An element format of a tag: elements per word, and how an element reads (R43, R93, R95). -/
inductive Elem where
  | flt (f : Fmt)
  | e8m0
  | int (signed : Bool) (w : Nat)
deriving DecidableEq, Repr

/-- Elements per word of a tag (R43); the packed 6-bit streams and RAW count one word. -/
def tagCount : Tag → Nat
  | .si32 | .ui32 | .f32 | .e2m3p | .e3m2p | .raw => 1
  | .bf16x2 | .f16x2 => 2
  | .e4m3x4 | .e5m2x4 | .si8x4 | .ui8x4 | .e8m0x4 => 4
  | .e2m1x8 | .si4x8 => 8

/-- The element format of a tag (R43). -/
def tagElem : Tag → Elem
  | .si32 => .int true 32
  | .ui32 => .int false 32
  | .f32 => .flt fF32
  | .bf16x2 => .flt fBF16
  | .f16x2 => .flt fF16
  | .e4m3x4 => .flt fE4M3
  | .e5m2x4 => .flt fE5M2
  | .si8x4 => .int true 8
  | .ui8x4 => .int false 8
  | .e2m1x8 => .flt fE2M1
  | .si4x8 => .int true 4
  | .e2m3p => .flt fE2M3
  | .e3m2p => .flt fE3M2
  | .e8m0x4 => .e8m0
  | .raw => .int false 32

def Elem.width : Elem → Nat
  | .flt f => f.width
  | .e8m0 => 8
  | .int _ w => w

/-- Bits as a signed integer of a width (R93). -/
def signedOf (w n : Nat) : Int := if n % 2 ^ w < 2 ^ (w - 1) then (n % 2 ^ w : Nat) else (n % 2 ^ w : Nat) - (2 ^ w : Nat)

/-- An integer as it reads under a format (R93). -/
def intOf (signed : Bool) (w n : Nat) : Int := if signed then signedOf w n else (n % 2 ^ w : Nat)

/-- Wrap of R94. -/
def wrapInt (w : Nat) (i : Int) : Nat := (i % (2 ^ w : Nat)).toNat

/-- Sat of R103. -/
def satInt (signed : Bool) (w : Nat) (i : Int) : Nat × Nat :=
  let lo : Int := if signed then -((2 ^ (w - 1) : Nat) : Int) else 0
  let hi : Int := if signed then (2 ^ (w - 1) : Nat) - 1 else (2 ^ w : Nat) - 1
  if i < lo then (wrapInt w lo, flSAT) else if hi < i then (wrapInt w hi, flSAT) else (wrapInt w i, 0)

/-- The value of an element's bits (R93, R96). -/
def Elem.value (e : Elem) (bits : Nat) : Ex :=
  match e with
  | .flt f => f.value (bits % 2 ^ f.width)
  | .e8m0 => e8m0Value bits
  | .int s w => .ofInt (intOf s w bits)

/-- Element i of a word (R43, R93). -/
def elemAt (tag : Tag) (w : Nat) (i : Nat) : Nat := w / 2 ^ ((tagElem tag).width * i) % 2 ^ (tagElem tag).width

/-- Put elements together into one word, element 0 lowest. -/
def packElems (width : Nat) : List Nat → Nat
  | [] => 0
  | x :: xs => x % 2 ^ width + 2 ^ width * packElems width xs

/-- Rounding to a target that is an integer: the value nearest under the mode (R106 RoundInt). -/
def roundInt (neg : Bool) (num den : Nat) (mode : RMode) : Int × Bool :=
  let (q, x) := roundFrac neg num den mode
  ((if neg then -(q : Int) else q), x)

/-- Convert of R106; `scale` is the E8M0 scale of R107, or none; `mxSrc`, `mxDst` say which side is the MX element format. -/
def convertElem (src dst : Tag) (mode : RMode) (sat : Bool) (scale : Option Nat) (mxSrc mxDst : Bool) (x : Nat) : Nat × Nat :=
  if scale == some 255 then
    -- a NaN scale makes the element NaN and sets IV (R99, R107)
    match tagElem dst with
    | .flt f => ((f.round .nan mode sat).1, flIV)
    | .e8m0 => (255, flIV)
    | .int s w => (if s then 2 ^ (w - 1) - 1 else 2 ^ w - 1, flIV)
  else
  let sc : Ex := match scale with | some k => e8m0Value k | none => .fin false 1 1
  let v0 := (tagElem src).value x
  let mxInt : Bool := scale.isSome && mxSrc && src == .si8x4
  let v1 := if mxInt then (v0.mul (.fin false 1 64)).1 else v0
  let v := if mxSrc then (v1.mul sc).1 else v1
  match tagElem dst with
  | .flt f => f.round (if mxDst then v.div sc else v) mode sat
  | .e8m0 =>
    match v with
    | .nan => (255, 0)
    | .inf _ => (254, flSAT)
    | .fin _ num den =>
      if num == 0 || num * 2 ^ 127 < den then (0, flUF + flIX) else
      let k := log2Frac num den
      if k > 127 then (254, flSAT)
      else
        let exact : Bool := match k with
          | .ofNat j => num == den * 2 ^ j
          | .negSucc j => num * 2 ^ (j + 1) == den
        ((k + 127).toNat, if exact then 0 else flIX)
  | .int s w =>
    let mxI : Bool := scale.isSome && mxDst && dst == .si8x4
    let srcInt : Bool := match tagElem src with | .int _ _ => !mxInt | _ => false
    if srcInt then
      match v0 with
      | .fin neg num _ =>
        let i : Int := if neg then -(num : Int) else num
        if sat then satInt s w i else (wrapInt w i, 0)
      | _ => (0, 0)
    else
      match (if mxI then (v.mul (.fin false 64 1)).1.div sc else v) with
      | .nan => (if s then 2 ^ (w - 1) - 1 else 2 ^ w - 1, flIV)
      | .inf neg => (if neg then (if s then 2 ^ (w - 1) else 0) else (if s then 2 ^ (w - 1) - 1 else 2 ^ w - 1), flSAT)
      | .fin neg num den =>
        let (i, ix) := roundInt neg num den mode
        let (b, fl) := satInt s w i
        (b, fl + if ix then flIX else 0)

/-- FoldTree of R114 over exact steps; `fuel` bounds the rounds. -/
def foldRound {α : Type} (op : α → α → α) : List α → List α
  | x :: y :: r => op x y :: foldRound op r
  | r => r

def foldTree {α : Type} (op : α → α → α) : Nat → List α → List α
  | 0, xs => xs
  | k + 1, xs => match xs with
    | [] => []
    | [x] => [x]
    | _ => foldTree op k (foldRound op xs)

/-- MIN or MAX of one floating-point element (R104). -/
def fminmax (f : Fmt) (isMax : Bool) (a b : Nat) : Nat :=
  let x := f.value a; let y := f.value b
  if x.isNan then (if y.isNan then f.canonNan else b)
  else if y.isNan then a
  else if isMax then (if x.lt y then b else a) else (if y.lt x then b else a)

end Sys2Proof.Machine
end

