-- ==== Sys2Proof/Config.lean ====
section
/-! DEFINITION. What the part fixes (00_scope R2) and the free values the manual leaves open: opaque constants without a body, applied to the counter `free` of the state or to the operands (log 1). -/
namespace Sys2Proof

/-- Cores of the package, 64 per die (00_scope R2). -/
def Config.cores : Nat := 256
/-- Lanes per core (R2). -/
def Config.lanes : Nat := 128
/-- Largest number of words of a run (01_execution R22). -/
def Config.runWords : Nat := 24
/-- Hardware queue slots (R2). -/
def Config.queueSlots : Nat := 1024
/-- Sectors the L1 of a core holds: 128 KiB of 32 bytes (R2, 05_memory R135). -/
def Config.l1Sectors : Nat := 4096
/-- Entries of an L1 TLB and of an L2 TLB (11_faults R264). -/
def Config.l1Tlb : Nat := 64
def Config.l2Tlb : Nat := 2048
/-- Open accumulators of a slice and of a core's reduction buffer (R2). -/
def Config.sliceAccs : Nat := 4096
def Config.coreAccs : Nat := 256
/-- Parked host-window requests the endpoint holds (14_system R307). -/
def Config.parkSlots : Nat := 65536

/-- Free values (log 1). Nothing is known of what these are. -/
opaque Config.freeNat : Nat → Nat
opaque Config.freeBit : Nat → Bool
opaque Config.freeWord : Nat → BitVec 32
/-- Core cycles and time-base ticks that pass in one step of the model, less one (log 5). -/
opaque Config.cyclesOf : Nat → Nat
opaque Config.ticksOf : Nat → Nat
/-- The value the Z40 returns for an inexact EXP2, LOG2, SIN, COS or TANH: fixed for each operation and operand, and left to the implementation within the bounds of 03_arithmetic R110 (log 1). -/
opaque Config.sfu : Nat → BitVec 32 → BitVec 32
/-- The compression of a measurement into an attestation report (14_system R312; log 1). -/
opaque Config.digest : List Nat → Nat

end Sys2Proof
end

