-- ==== Sys2Proof/Machine/State.lean ====
section
/-! DEFINITION. The state of one KZ40-M package: every piece of state the manual names, as plain data, and the state after reset. -/
namespace Sys2Proof.Machine

/-- Why the machine stops with a fault. -/
inductive Fault where
  /-- Raised by an instruction word when no issue holds a lane: a state no arbitration leads to (01_execution R22). Safe. -/
  | noIssue
deriving DecidableEq, Repr

/-- Why the model gives no meaning. -/
inductive Refusal where
  /-- Raised by exec for an instruction that has no meaning yet. Safe. -/
  | notModelled (mnemonic : String)
  /-- Raised by an access the manual gives no behaviour: to one of this package's device registers beyond the window of the notify registers (05_memory R140, 10_scheduling R232, 14_system R303; log 58). Safe. -/
  | deviceRegister
deriving DecidableEq, Repr

/-- Shape tags (01_execution R37). -/
inductive Shape where
  | u | a | g
deriving DecidableEq, Repr

/-- The descriptor of one crew register (R37). For G, `base` holds the number of its general row. -/
structure Desc where
  shape : Shape
  tag : Tag
  base : Word
  stride : Word
deriving DecidableEq, Repr

/-- Trap causes (11_faults R251). -/
inductive Cause where
  | illegalOp | formatMismatch | shapeOverflow | misaligned | tileOwnership | maskInvalid | scopeIllegal | privOp
  | queueRegister | trapInstr | feedFault | translation | permission | poison | hostLost | pipeCycle | serialAbort
deriving DecidableEq, Repr

/-- Causes of a transaction abort (07_transactions R187). -/
inductive TxCause where
  | explicit | conflict | sibling | readcap | writecap | remote | illegal | fault | preempt | token | depth
deriving DecidableEq, Repr

/-- A trap to raise: its cause and the value of TRAPADDR (R251). -/
structure Trap where
  cause : Cause
  addr : DWord
deriving DecidableEq, Repr

/-- States of a fibre (01_execution R16). -/
inductive FState where
  | ready | blocked | issuing | held | awaitReply | awaitToken | committing | retired
deriving DecidableEq, Repr

/-- Classes of outstanding operations (18_ref R405). -/
inductive OpClass where
  | loads | stores | copies | tiles
deriving DecidableEq, Repr

/-- One counted operation of a fibre, in issue order (R405). -/
structure Count where
  cls : OpClass
  op : Nat
  done : Bool
deriving DecidableEq, Repr

/-- A sector of a read or write log, named by its virtual address; in a write log `mask` says which bytes were written (07_transactions R181). -/
structure LogSector where
  va : Nat
  bytes : List Byte
  mask : List Bool
deriving DecidableEq, Repr

/-- An attempt (07_transactions R178 to R181); `snap` and `snapPreds` are the registers and predicates at its outermost TXBEGIN, `past` and `pastPreds` those written since, which an abort may bring back (R186). -/
structure Attempt where
  depth : Nat
  target : PcAddr
  d : Reg
  pd : PReg
  reads : List LogSector
  writes : List LogSector
  serial : Bool
  start : Nat
  checked : Nat
  failed : Bool
  snap : List (Tag × Word)
  snapPreds : BitVec 16
  past : List (Nat × Tag × Word)
  pastPreds : List (BitVec 16)
deriving DecidableEq, Repr

/-- An entry the feed engine has fetched: the element, or the trap its read raises (08_copies R211). -/
structure FeedEntry where
  value : Word
  tag : Tag
  trap : Option Trap
deriving DecidableEq, Repr

/-- One feed of a fibre: its bound record (0 when none), the position of its next pop, the position at its region's start, and the entries fetched (01_execution R55, 08_copies R209, R211). -/
structure Feed where
  record : Nat
  pos : Nat
  regionPos : Nat
  stopped : Bool
  entries : List FeedEntry
deriving DecidableEq, Repr

/-- What a cross-fibre meeting captured for one waiting fibre (16_ref R343): where, the mask, and each member's rank, a value and d value; with no values it is one that met a poisoned operand. -/
structure Meeting where
  pc : PcAddr
  mask : Word
  tag : Tag
  vals : List (Nat × Word × Word)
deriving DecidableEq, Repr

/-- What a fibre has seen at the gate it waits at: BAR or BARW has arrived (`team` says at which barrier), a TBWAIT's captured word (01_execution R24, 08_copies R203). -/
structure GateMark where
  pc : PcAddr
  arrived : Bool
  team : Bool
  word : Option Word
deriving DecidableEq, Repr

/-- A registration of a fibre at a pipe, for the PRECV at an address, with the entry assigned to it (09_crumbs R227). -/
structure Recv where
  pc : PcAddr
  pipe : Nat
  entry : Option (Word × Tag)
deriving DecidableEq, Repr

/-- The report of an any-hit fibre (12_render R281). -/
inductive HitReport where
  | accept | ignore | terminate
deriving DecidableEq, Repr

/-- A fibre (01_execution R13, R16). `mark` and `anew` are the model's: operations named below `mark` were issued before the current region, and `anew` says that stepping mode (11_faults R254) stands at the first word of its region; `awaits` lists what its last pre-scan found pending (registers, predicates from 128, queues from 256, tiles from 512, the WAIT gate 1024) and `woke` the cycle at which one of those last arrived (10_scheduling R247); `begins` holds d and pd of the TXBEGIN at which it awaits the serial token (07_transactions R178). -/
structure Fibre where
  live : Bool
  st : FState
  pc : PcAddr
  regPc : PcAddr
  mark : Nat
  preds : BitVec 16
  fpstat : Word
  trapCause : Byte
  trapPc : PcAddr
  trapAddr : DWord
  trapMode : Bool
  txCause : BitVec 4
  abortCount : Nat
  tx : Option Attempt
  uiRpc : PcAddr
  uiCause : BitVec 3
  uiAct : Bool
  uiPend : List (Option Bool)
  clockHi : Word
  timeHi : Word
  counts : List Count
  arrivedCrew : Bool
  arrivedTeam : Bool
  gate : Option GateMark
  recvs : List Recv
  meeting : Option Meeting
  feeds : List Feed
  stepping : Bool
  anew : Bool
  restart : Bool
  deferred : Option Trap
  stamp : Nat
  lost : Nat
  awaits : List Nat
  woke : Nat
  begins : Option (Reg × PReg)
  report : Option HitReport
deriving DecidableEq, Repr

/-- States of a tile (04_matrix R124). -/
inductive TileState where
  | empty | filling | ready | draining
deriving DecidableEq, Repr

/-- A tile: its state and its 256 words, word (i, j) at 16i + j (R124). -/
structure Tile where
  st : TileState
  words : List Word
deriving DecidableEq, Repr

/-- Whether a crew is resident, saved or completed (01_execution R15, R16). -/
inductive Life where
  | resident | saved | completed
deriving DecidableEq, Repr

/-- What a crew was created for (12_render R274, R280). -/
inductive CrewKind where
  | ordinary
  | relaunch
  | anyHit (ray : Nat)
deriving DecidableEq, Repr

/-- What a crew sees of one copy channel (08_copies R196): CAUSE and ERR. -/
structure ChanView where
  cause : Nat
  err : Bool
deriving DecidableEq, Repr

/-- A crew (01_execution R11, R12, R34 to R38, R45). `id`, `launch` and `team` are the model's names. -/
structure Crew where
  id : Nat
  ctx : Nat
  launch : Nat
  team : Nat
  kind : CrewKind
  life : Life
  core : Nat
  lane : Nat
  index : Word
  teamIndex : Word
  teamPos : Nat
  teamSize : Nat
  gridSize : Word
  args : DWord
  size : Nat
  grows : Nat
  feeds : Nat
  prio : Nat
  converged : Bool
  regs : List Desc
  rows : List (List Word)
  fibres : List Fibre
  scratchSize : Nat
  scratch : List Host.Cell
  tiles : List Tile
  nstatus : BitVec 3
  uiVec : PcAddr
  uiMasked : Bool
  barPhase : Bool
  chans : List ChanView
  area : Nat
  image : Nat
deriving DecidableEq, Repr

/-- A team and its barrier's phase (15_ref R321); `saved` keeps its place in the distributor (11_faults R261). -/
structure Team where
  id : Nat
  launch : Nat
  phase : Bool
  saved : Bool
deriving DecidableEq, Repr

/-- The extension words collected for the current group (02_encoding R75, R77). -/
structure Ext where
  count : Nat
  imm : List (BitVec 24)
  guard : Option (Bool × PReg)
  order : Option (BitVec 2 × Option (BitVec 4) × Option (BitVec 3))
  mask : Option (BitVec 8)
  round : Option (Bool × Bool × RMode)
  operand : Option Reg
  offset : Option (BitVec 24)
deriving DecidableEq, Repr

/-- What the fetch of one word gives (02_encoding R59): its bytes, a recoverable miss, a trap, a device register the manual does not give (05_memory R140), or nothing yet (11_faults R267, 13_fabric R287). -/
inductive Fetched where
  | word (w : List Byte)
  | miss (host : Bool)
  | bad (t : Trap)
  | device
  | held
deriving DecidableEq, Repr

/-- The run being issued (01_execution R17 to R22): the crew, the ranks of the batch or converged issue, the first word of the current group, the word at hand, the words issued so far, the words its pre-scan fetched and has yet to issue (02_encoding R59), the rounds it has lost at a unit (10_scheduling R248), and whether it stands only for fibres whose commit waits to be decided, which hold no lane (07_transactions R179). -/
structure Issue where
  crew : Nat
  ranks : List Nat
  conv : Bool
  group : PcAddr
  pc : PcAddr
  ext : Ext
  run : Nat
  words : Nat
  code : List Fetched
  lost : Nat
  commit : Bool
deriving DecidableEq, Repr

/-- Where an access goes: the scratchpad of a crew, or pod physical memory under its logical address, with the squeeze code and check bit of its page (05_memory R133, R140, R148). -/
inductive Place where
  | scratch (crew : Nat) (off : Nat)
  | mem (pa : Nat) (frame : Nat) (sqz : Nat) (chk : Bool)
deriving DecidableEq, Repr

/-- An outstanding operation's work, done when it lands or performs. -/
inductive Work where
  /-- A computed result: registers with the value of each rank, predicates, flags (01_execution R27, R42). -/
  | value (d : Reg) (tag : Tag) (shape : Shape) (vals : List (Nat × Word)) (preds : List (Nat × PReg × Bool)) (flags : List (Nat × Word))
  | load (p : Place) (d : Reg) (n : Nat) (tag : Tag) (shape : Shape) (policy : Nat)
  | atom (p : Place) (op : AtomOp) (d : Reg) (tag : Tag) (x : Word)
  | cas (p : Place) (d : Reg) (old : Word) (new : Word)
  /-- A value already read, for registers from d up: of a transaction's logs (07_transactions R181) or of an atomic of a combined issue (06_consistency R166). -/
  | logged (d : Reg) (tag : Tag) (shape : Shape) (words : List Word)
  | settle (p : Place)
  | store (p : Place) (bytes : List Byte) (poisoned : Bool)
  | red (p : Place) (kind : RedKind) (tag : Tag) (x : Word)
  | fill (p : List Place) (t : Nat) (fmt : TileFmt)
  | drain (p : List Place) (t : Nat) (fmt : TileFmt) (keep : Bool)
  /-- A drain whose words have been read out of the tile, its bytes still to be performed at their homes (04_matrix R124, R126). -/
  | drained (p : List Place) (bytes : List Byte)
  | append (pipe : Nat) (gen : BitVec 16) (value : Word) (tag : Tag)
  | fence (kind : FenceKind) (mask : BitVec 16)
  /-- FLUSH or INVAL of a range, until every line is done (14_system R304). -/
  | lines (flush : Bool) (va len : Nat)
  /-- TLBINV of an address under its word b, until every matching entry is dropped (11_faults R265). -/
  | tlbinv (va b : Nat)
  | workRecord (chan : Nat) (handle : Word) (bytes : List Byte)
  | hostAtom (p : Place) (op : Option AtomOp) (d : Reg) (parts : List (Nat × Word × Word)) (tag : Tag)
  | chain (chan : Nat)
  | job (job : Nat)
deriving DecidableEq, Repr

/-- An outstanding operation (01_execution R27, 06_consistency R156, R167, 18_ref R405): the run and fibres that issued it, its sequence and scope, whether it acquires and releases, the virtual address it names, the package it crosses Filsis to, whether a freeze holds it, and the registers (predicates from 128 up) of its ranks that a later instruction of its run has written (01_execution R28). -/
structure Op where
  id : Nat
  run : Nat
  ctx : Nat
  crew : Nat
  rank : Nat
  ranks : List Nat
  seqs : BitVec 16
  scope : Nat
  acq : Bool
  rel : Bool
  va : Nat
  n : Nat
  core : Nat
  peer : Option Nat
  host : Bool
  frozen : Bool
  sentAt : Nat
  dropped : List (Nat × Nat)
  work : Work
deriving DecidableEq, Repr

/-- An access of a fibre that took effect before older ones of its sequence (06_consistency R159): while one of `older` is outstanding, the other fibres of its core keep from its bytes, so that they see the fibre's program order (R158); `scope` widens that to the instance of the acquire or release it went ahead of, or with (R157). -/
structure Overtaken where
  core : Nat
  crew : Nat
  ranks : List Nat
  spans : List (Place × Nat)
  writes : Bool
  older : List Nat
  scope : Nat
deriving DecidableEq, Repr

/-- A fibre whose stores have written a host-window sector, with their sequences (05_memory R141), or a transfer record that has, under its own name and every sequence (08_copies R200). -/
structure HostWriter where
  crew : Nat
  rank : Nat
  seqs : BitVec 16
deriving DecidableEq, Repr

/-- A sector in an L1, in a die's remote-read cache, or of the host window at its home slice (05_memory R136, R139, R141). `unit` is the core, die or slice; `dirty` marks the bytes not yet written back, `writers` the fibres that wrote it or have read it so, `bad` a datum lost to an uncorrectable error (R153), and `passedOn` says that a release of one of them has let other fibres build on it (06_consistency R161). -/
structure CacheSector where
  unit : Nat
  sector : Nat
  bytes : List Byte
  keep : Bool
  dirty : List Bool
  writers : List HostWriter
  bad : Bool
  passedOn : Bool
deriving DecidableEq, Repr

/-- A cached translation (11_faults R264). -/
structure TlbEntry where
  l2 : Bool
  unit : Nat
  asid : Nat
  page : Nat
  bits : Nat
  pte : Nat
deriving DecidableEq, Repr

/-- How far the resolution of a miss has come (11_faults R259). -/
inductive MissState where
  | kernel | atsSent | priSent
deriving DecidableEq, Repr

/-- A recoverable miss being resolved, with the fibres held by it (11_faults R258, R259). -/
structure Miss where
  id : Nat
  ctx : Nat
  va : Nat
  host : Bool
  st : MissState
  crew : Nat
  ranks : List Nat
deriving DecidableEq, Repr

/-- An address the resolver has refused to a crew: its access raises Translation (R259). -/
structure Refused where
  ctx : Nat
  va : Nat
deriving DecidableEq, Repr

/-- A context (11_faults R263, R266, 14_system R306). -/
structure Context where
  id : Nat
  asid : Nat
  pasid : Nat
  ptroot : Nat
  trapvec : PcAddr
  privileged : Bool
  status : Nat
  part : Nat
  backed : List (Nat × Nat)
  down : Bool
  tdCause : Word
  seq : Word
  bits : BitVec 6
deriving DecidableEq, Repr

/-- A partition (10_scheduling R241, R244, R249, 14_system R309). `counters` gives its crumb counters as slice, first index, count; `memory` is its quota in bytes, and `userQueues` and `taskQueues` how many of each its contexts may hold. -/
structure Partition where
  id : Nat
  cores : List Nat
  leaving : List Nat
  slices : List Nat
  memory : Nat
  asids : List (Nat × Nat)
  userQueues : Nat
  taskQueues : Nat
  prot : Bool
  persist : Bool
  counters : List (Nat × Nat × Nat)
  diePtr : Nat
  corePtr : List Nat
  pool : Nat
  timeout : Nat
  logQuota : Nat
deriving DecidableEq, Repr

/-- A user queue (10_scheduling R231 to R234). Its descriptor's fields live in memory at `desc`; `tail` is the slot's; `notified` and `heard` are the tick and the cycle of its last notify, `runnableAt` the cycle at which it became runnable. -/
structure UserQueue where
  qid : Nat
  ctx : Nat
  desc : Nat
  tail : Word
  notified : Nat
  heard : Nat
  runnableAt : Nat
  read : Nat
deriving DecidableEq, Repr

/-- States of a task slot (09_crumbs R223). -/
inductive SlotState where
  | free | reserved | committed
deriving DecidableEq, Repr

/-- A task queue (09_crumbs R222, R223): slot states with their GEN, and the committed slots in commit order. -/
structure TaskQueue where
  num : Nat
  ctx : Nat
  desc : Nat
  slots : List (SlotState × Nat)
  order : List Nat
deriving DecidableEq, Repr

/-- States of a launch (10_scheduling R238). -/
inductive LaunchState where
  | waiting | distributing | resident | complete | rejected | cancelled | tornDown
deriving DecidableEq, Repr

/-- A launch or task (10_scheduling R235, R238). `record` is the 64-byte record as a number; `slots` the continuation pool's allocated slots; `queue` its QID, or its task queue. -/
structure Launch where
  id : Nat
  ctx : Nat
  record : Nat
  task : Bool
  queue : Nat
  index : Word
  st : LaunchState
  entered : Nat
  placed : Nat
  anchored : Bool
  die : Nat
  sbtMiss : Nat
  slots : List (Nat × Nat)
deriving DecidableEq, Repr

/-- A head posted (08_copies R194); `taken` marks a chain taken before its crew was saved, which resumes at `addr` and holds no post slot (R212). -/
structure Head where
  op : Nat
  ctx : Nat
  crew : Nat
  rank : Nat
  addr : Nat
  taken : Bool
deriving DecidableEq, Repr

/-- A copy channel of a core: heads posted and not yet taken, in the order they were placed, and the chain being walked with the address of its next record, none once its end has been reached (08_copies R194, R195). -/
structure Channel where
  core : Nat
  ch : BitVec 2
  heads : List Head
  chain : Option Head
  next : Option Nat
  ordered : Bool
deriving DecidableEq, Repr

/-- A transfer record begun (08_copies R197 to R201): the record as a number, its virtual address, the sectors still to land, each a destination crew of a multicast, row and sector index, what a multicast has read of its source for the destinations still to land it (row and sector index, bytes, whether poisoned), and the cause of a fault met. -/
structure Transfer where
  id : Nat
  core : Nat
  ch : BitVec 2
  head : Head
  at_ : Nat
  record : Nat
  left : List (Option Nat × Nat × Nat)
  read : List ((Nat × Nat) × List Byte × Bool)
  fault : Option Nat
deriving DecidableEq, Repr

/-- A crumb counter (09_crumbs R213 to R218). `region` lists the physical ranges it watches; `bad` says that an uncorrectable error has met it (05_memory R153). -/
structure Crumb where
  slice : Nat
  index : Nat
  gen : BitVec 16
  owner : Option Nat
  region : List (Nat × Nat)
  total : Nat
  count : Nat
  action : Nat
  k : Nat
  operand : DWord
  reload : Bool
  armed : Bool
  taint : Bool
  fired : Bool
  bad : Bool
deriving DecidableEq, Repr

/-- A firing whose action is still to act (09_crumbs R219). -/
structure Firing where
  id : Nat
  ctx : Nat
  slice : Nat
  index : Nat
  action : Nat
  operand : DWord
  k : Nat
  taint : Bool
deriving DecidableEq, Repr

/-- State of an exact accumulator (03_arithmetic R115). -/
inductive AccState where
  | finite | pinf | ninf | nan | ovf
deriving DecidableEq, Repr

/-- An exact reduction accumulator at a slice (03_arithmetic R115, 06_consistency R172): its element location and width, kind and tag, V as a multiple of 2^-149 (the running integer or extreme for the other kinds); `bad` says that an uncorrectable error has met it or a contribution it took (05_memory R153). -/
structure Acc where
  place : Place
  bytes : Nat
  kind : RedKind
  tag : Tag
  st : AccState
  v : Int
  invalid : Bool
  neg : Bool
  spilled : Bool
  ctx : Nat
  crews : List Nat
  bad : Bool
deriving DecidableEq, Repr

/-- A contribution in a core's reduction buffer (06_consistency R172). -/
structure Contribution where
  core : Nat
  ctx : Nat
  crew : Nat
  rank : Nat
  seqs : BitVec 16
  place : Place
  kind : RedKind
  tag : Tag
  x : Word
  bad : Bool
deriving DecidableEq, Repr

/-- A pipe (09_crumbs R226 to R229): its home slice, on-chip entries and overflow entries oldest first, the overflow segments with how many entries have left the oldest (`gone`), registrations with their time, appends waiting at the home, since when it is full, and when each crew last appended. -/
structure Pipe where
  num : Nat
  die : Nat
  slice : Nat
  gen : BitVec 16
  ctx : Nat
  entries : List (Word × Tag)
  overflow : List (Word × Tag)
  segments : Nat
  gone : Nat
  regs : List (Nat × Nat × PcAddr × Nat)
  waiting : List Nat
  fullSince : Option Nat
  appends : List (Nat × Nat)
deriving DecidableEq, Repr

/-- Steps of a page's migration (11_faults R267). -/
inductive MigState where
  | copying | switching | settling
deriving DecidableEq, Repr

/-- A page being migrated (11_faults R267): old and new frame, size, dirty granules, passes, and the operations held. -/
structure Migration where
  id : Nat
  ctx : Nat
  va : Nat
  pteAt : Nat
  old : Nat
  new : Nat
  size : Nat
  st : MigState
  dirty : List Nat
  passes : Nat
  held : List Nat
deriving DecidableEq, Repr

/-- A candidate or hit of a ray: exact t as a fraction, barycentrics, GEOM, PRIM, FRONT, the any-hit PC (12_render R277, R280). -/
structure Cand where
  tNum : Int
  tDen : Nat
  b1 : Word
  b2 : Word
  geom : Word
  prim : Word
  front : Bool
  anyPc : PcAddr
  isNull : Bool
deriving DecidableEq, Repr

/-- A request at a ray and texture unit (12_render R272 to R282). -/
structure Ray where
  id : Nat
  ctx : Nat
  launch : Nat
  quad : Nat
  texc : Bool
  slot : Nat
  live : Nat
  resume : PcAddr
  flags : BitVec 8
  sbtOff : Nat
  sbtStride : Nat
  req : List Word
  regs : List (Word × Tag)
  stack : List Nat
  visits : Nat
  begun : Bool
  buffer : List Cand
  hit : Option Cand
  tmax : Option (Int × Nat)
  term : Bool
  status : Word
  anyHit : Bool
deriving DecidableEq, Repr

/-- A completed record queued for relaunch (12_render R274): key, hit block, values. -/
structure Requeue where
  ray : Nat
  ctx : Nat
  launch : Nat
  quad : Nat
  slot : Nat
  pc : PcAddr
  regs : List (Word × Tag)
  hit : List (Word × Tag)
  since : Nat
deriving DecidableEq, Repr

/-- A slot of a pool held for a fibre of a run that ends in TRACE or TEXC, from its eligibility on (12_render R272): the run, its context, the rank, the address and size. -/
structure RayHold where
  run : Nat
  ctx : Nat
  rank : Nat
  addr : Nat
  size : Nat
deriving DecidableEq, Repr

/-- A relaunch or any-hit crew formed and not yet placed (12_render R274, R280). -/
structure Formed where
  launch : Nat
  quad : Nat
  ray : Option Nat
  slots : List Nat
  fibres : List (PcAddr × List (Word × Tag))
deriving DecidableEq, Repr

/-- What a distributor round considers (10_scheduling R241): a saved team, a formed crew, the next crew or team of a launch. -/
inductive Item where
  | saved (team launch : Nat)
  | formed (f : Formed)
  | fresh (launch : Nat)
deriving DecidableEq, Repr

/-- The launch of a candidate. -/
def Item.launch : Item → Nat
  | .saved _ l => l
  | .formed f => f.launch
  | .fresh l => l

/-- A crew or team passed over since a tick; `barred` when 100 µs have gone (10_scheduling R241). -/
structure Passed where
  item : Item
  since : Nat
  barred : Bool
deriving DecidableEq, Repr

/-- A write of the hardware to a context's memory that waits for the page of its address (10_scheduling R237, 13_fabric R302, 11_faults R258, R267). -/
structure LateWrite where
  ctx : Nat
  va : Nat
  bytes : List Byte
deriving DecidableEq, Repr

/-- A frozen (fibre, sequence) pair, with its faulting request and the tick of the fault response (13_fabric R292). -/
structure Frozen where
  crew : Nat
  rank : Nat
  seq : BitVec 4
  op : Nat
  since : Nat
deriving DecidableEq, Repr

/-- A page exported to a context of another package, with the squeeze code and check bit of its entry (13_fabric R289, 05_memory R142). -/
structure Export where
  peer : Nat
  ctx : Nat
  pa : Nat
  size : Nat
  writable : Bool
  sqz : Nat
  chk : Bool
deriving DecidableEq, Repr

/-- What this package sends to another (13_fabric R289, R292, R296, R297): the answer to a request, a miss or fatal fault instead, a resume, a work record, or credits for a channel. -/
inductive Answer where
  | done | miss | fatal | resume | record | credits
deriving DecidableEq, Repr

structure Response where
  peer : Nat
  pa : Nat
  kind : Answer
  bytes : List Byte
  poisoned : Bool
deriving DecidableEq, Repr

/-- An address of this package at which a context of another has missed and which the kernel has yet to resolve or refuse (13_fabric R289). -/
structure ExportMiss where
  peer : Nat
  ctx : Nat
  pa : Nat
deriving DecidableEq, Repr

/-- The receiving side of a work channel (13_fabric R295, R296), with the count its consumed word last held. -/
structure RecvChan where
  peer : Nat
  chan : Nat
  ctx : Nat
  ring : Nat
  size : Nat
  word : Nat
  last : Word
deriving DecidableEq, Repr

/-- A send channel (13_fabric R295): its descriptor's fields live in memory at `desc`; reservations not yet posted, with the crew that made them. -/
structure WorkChan where
  chan : Nat
  ctx : Nat
  desc : Nat
  reserved : List (Word × Nat)
  consumed : Word
deriving DecidableEq, Repr

/-- A Millefeuille group (13_fabric R299): its members in rank order, each with its package and whether its transport is Ultra Ethernet; `jobSeq` counts the jobs it has run, and modulo 2^16 it is the next JOBSEQ. -/
structure Group where
  num : Nat
  ctx : Nat
  nranks : Nat
  rank : Nat
  members : List (Nat × Bool)
  jobSeq : Nat
deriving DecidableEq, Repr

/-- A job posted at this package (13_fabric R299 to R302): its record and, once it has started, its source bytes as read then, what the other members give, and ALPHA's order. -/
structure Job where
  id : Nat
  op : Nat
  ctx : Nat
  crew : Nat
  rank : Nat
  at_ : Nat
  record : Nat
  started : Bool
  own : List Byte
  members : List JobMember
  order : List Nat
deriving DecidableEq, Repr

/-- One fibre's part of a SYSCALL message: its rank, its arguments with their tags, and the reply that came while the crew was saved (01_execution R33). -/
structure SyscallPart where
  rank : Nat
  args : List (Word × Tag)
  reply : Option (List Word)
deriving DecidableEq, Repr

/-- A SYSCALL message of one lane (01_execution R33, 17_ref R390): the crew, the lane, the slots of its executing fibres, the service, the first reply register, and the parts of the fibres that still await their replies. -/
structure Syscall where
  crew : Nat
  lane : Nat
  slotMask : BitVec 16
  service : BitVec 7
  d : Reg
  parts : List SyscallPart
deriving DecidableEq, Repr

/-- An access parked at the endpoint (14_system R307): an operation of a fibre, what an engine asked for an address of a context, or a write of the hardware. -/
inductive Parked where
  | op (id : Nat)
  | engine (ctx va : Nat)
  | write (pa : Nat)
deriving DecidableEq, Repr

/-- An AV1 encoder (14_system R310): slot number, its 16 reservations, frames waiting (partition, session, frame, slots still needed) in the order they became ready, frames streamed (session, frame) with the bytes of their OBUs. -/
structure Encoder where
  id : Nat
  slot : Nat
  reserved : List (Option Nat)
  waiting : List (Nat × Nat × Nat × Nat)
  streamed : List (Nat × Nat × List Byte)
deriving DecidableEq, Repr

/-- An encoding session: its partition, encoder, doorbell word and slots per frame, and the frame indexes that releases at PKG have stored to the doorbell and no frame-ready step has taken (14_system R310). -/
structure Session where
  id : Nat
  part : Nat
  encoder : Nat
  doorbell : Nat
  slots : Nat
  rung : List Nat
deriving DecidableEq, Repr

/-- An attestation report: what asked for it, the measurements of the images, and the signature (14_system R312). -/
structure Report where
  nonce : Nat
  measurements : List Nat
  signature : Nat
deriving DecidableEq, Repr

/-- What a read of the host has given it: of its memory, the mailbox or the window (14_system R303), from where, and the bytes. -/
structure HostRead where
  bar : Option Nat
  at_ : Nat
  bytes : List Byte
deriving DecidableEq, Repr

/-- Boot (14_system R312). -/
inductive BootState where
  | off
  | running (measurements : List Nat)
  | stopped (image : Nat)
deriving DecidableEq, Repr

/-- The serial token (07_transactions R189): its holder and the queue of requests, each with its abort count. -/
structure Token where
  holder : Option (Nat × Nat)
  queue : List (Nat × Nat × Nat)
deriving DecidableEq, Repr

/-- The attributes of a 2 MiB extent (R138, R140): the slice that homes it, none when striped, and its squeeze type. -/
structure Extent where
  num : Nat
  home : Option Nat
  ty : SqzType
deriving DecidableEq, Repr

/-- The current capacities of one core (05_memory R154). -/
structure CoreCaps where
  rows : Nat
  scratch : Nat
  tiles : Nat
deriving DecidableEq, Repr

/-- What pre-emption keeps with the context for a saved crew: copy chains and heads (08_copies R212) and the fields a save area does not hold. -/
structure SavedCopies where
  crew : Nat
  core : Nat
  ch : BitVec 2
  heads : List Head
deriving DecidableEq, Repr

/-- The package. `inputs` holds what has come from outside and no event has taken; `free`, `nextId` and `schedule` are the model's (log 1, 4). -/
structure State where
  pkg : Nat
  cycles : Nat
  ticks : Nat
  boot : BootState
  clockLow : Bool
  powered : Bool
  mem : List Host.Cell
  poison : List Datum
  eccLog : List (SramArray × Nat × Nat)
  extents : List Extent
  capsAt : Nat
  coreCaps : List (Nat × CoreCaps)
  l2Lost : List (Nat × Nat)
  remapped : List (SramArray × Nat × Nat)
  token : Token
  planes : List Nat
  livePlanes : List Bool
  encoders : List Encoder
  sessions : List Session
  hostLost : Bool
  parked : List Parked
  hostMapped : List (Nat × Nat)
  hostStale : List (Nat × Nat)
  lostAt : List (Nat × Nat)
  mailbox : List Host.Cell
  hostSeen : List HostRead
  lateWrites : List LateWrite
  attest : List Report
  stoppedJalley : List Nat
  contexts : List Context
  partitions : List Partition
  userQueues : List UserQueue
  taskQueues : List TaskQueue
  launches : List Launch
  passed : List Passed
  teams : List Team
  crews : List Crew
  cur : Option Issue
  waiting : List Issue
  ops : List Op
  overtaken : List Overtaken
  synced : List Nat
  l1 : List CacheSector
  remoteCache : List CacheSector
  remoteWays : Nat
  hostL2 : List CacheSector
  tlb : List TlbEntry
  misses : List Miss
  refused : List Refused
  chans : List Channel
  transfers : List Transfer
  savedCopies : List SavedCopies
  crumbs : List Crumb
  firings : List Firing
  redBuf : List Contribution
  accs : List Acc
  pipes : List Pipe
  migrations : List Migration
  accessCounts : List (Nat × Nat × Nat)
  migThreshold : Nat
  rays : List Ray
  rayHolds : List RayHold
  requeues : List Requeue
  formed : List Formed
  frozen : List Frozen
  exports : List Export
  exportMisses : List ExportMiss
  recvChans : List RecvChan
  responses : List Response
  workChans : List WorkChan
  groups : List Group
  jobs : List Job
  syscalls : List Syscall
  unitOwner : List (Nat × CoreUnit × Nat)
  resizesRefused : Nat
  free : Nat
  nextId : Nat
  inputs : List Input
  schedule : List Instr
deriving DecidableEq, Repr

/-- No extension word collected (02_encoding R77). -/
def Ext.zero : Ext := ⟨0, [], none, none, none, none, none, none⟩

/-- An AV1 encoder after reset (14_system R310; log 3). -/
def Encoder.fresh (i : Nat) : Encoder := ⟨i, 0, List.replicate 16 none, [], []⟩

/-- The package right after reset (log 3 names every value the manual does not state). -/
def State.reset : State where
  pkg := 0
  cycles := 0
  ticks := 0
  boot := .off
  clockLow := false
  powered := true
  mem := []
  poison := []
  eccLog := []
  extents := []
  capsAt := 0
  coreCaps := []
  l2Lost := []
  remapped := []
  token := ⟨none, []⟩
  planes := [0, 1, 2, 3, 4, 5, 6, 7]
  livePlanes := [true, true, true, true, true, true, true, true]
  encoders := [Encoder.fresh 0, Encoder.fresh 1, Encoder.fresh 2, Encoder.fresh 3, Encoder.fresh 4, Encoder.fresh 5, Encoder.fresh 6, Encoder.fresh 7]
  sessions := []
  hostLost := false
  parked := []
  hostMapped := []
  hostStale := []
  lostAt := []
  mailbox := []
  hostSeen := []
  lateWrites := []
  attest := []
  stoppedJalley := []
  contexts := []
  partitions := []
  userQueues := []
  taskQueues := []
  launches := []
  passed := []
  teams := []
  crews := []
  cur := none
  waiting := []
  ops := []
  overtaken := []
  synced := []
  l1 := []
  remoteCache := []
  remoteWays := 0
  hostL2 := []
  tlb := []
  misses := []
  refused := []
  chans := []
  transfers := []
  savedCopies := []
  crumbs := []
  firings := []
  redBuf := []
  accs := []
  pipes := []
  migrations := []
  accessCounts := []
  migThreshold := 0
  rays := []
  rayHolds := []
  requeues := []
  formed := []
  frozen := []
  exports := []
  exportMisses := []
  recvChans := []
  responses := []
  workChans := []
  groups := []
  jobs := []
  syscalls := []
  unitOwner := []
  resizesRefused := 0
  free := 0
  nextId := 0
  inputs := []
  schedule := []

end Sys2Proof.Machine
end

