-- ==== Sys2Proof/Machine/Memory.lean ====
section
/-! DEFINITION. Bytes: memory and scratchpads in canonical form, squeezed blocks, homes, poison marks (05_memory R135, R138, R140, R148 to R153). An unlisted byte reads 0 (log 2). -/
namespace Sys2Proof.Machine

/-- The byte at an address. -/
def cellGet : List Host.Cell → Nat → Byte
  | [], _ => 0
  | (a, b) :: r, x => if x < a then 0 else if x = a then b else cellGet r x

/-- Write one byte, keeping addresses rising and no entry 0. -/
def cellSet : List Host.Cell → Nat → Byte → List Host.Cell
  | [], x, v => if v = 0 then [] else [(x, v)]
  | (a, b) :: r, x, v =>
    if x < a then (if v = 0 then (a, b) :: r else (x, v) :: (a, b) :: r)
    else if x = a then (if v = 0 then r else (x, v) :: r)
    else (a, b) :: cellSet r x v

/-- The canonical form: addresses strictly rising, no entry 0. -/
def cellWf : List Host.Cell → Bool
  | [] => true
  | (a, b) :: r => decide (b ≠ 0) && (match r with | [] => true | (c, _) :: _ => decide (a < c)) && cellWf r

/-- `n` bytes from an address. -/
def cellRead (m : List Host.Cell) (a : Nat) : Nat → List Byte
  | 0 => []
  | n + 1 => cellGet m a :: cellRead m (a + 1) n

/-- Write bytes from an address upward. -/
def cellWrite (m : List Host.Cell) (a : Nat) : List Byte → List Host.Cell
  | [] => m
  | b :: bs => cellWrite (cellSet m a b) (a + 1) bs

/-- The `n` low bytes of a number, lowest first (00_scope R4). -/
def natBytes : Nat → Nat → List Byte
  | 0, _ => []
  | n + 1, x => BitVec.ofNat 8 x :: natBytes n (x / 256)

/-- A little-endian number of `n` bytes in memory. -/
def cellNat (m : List Host.Cell) (a n : Nat) : Nat := bytesNat (cellRead m a n)

/-- Cut a list into pieces of `n`. -/
def chunks {α : Type} (n : Nat) : Nat → List α → List (List α)
  | 0, _ => []
  | k + 1, xs => match xs with
    | [] => []
    | _ => xs.take n :: chunks n k (xs.drop n)

/-- The words of a list of bytes. -/
def bytesWords (bs : List Byte) : List Word := (chunks 4 bs.length bs).map fun c => BitVec.ofNat 32 (bytesNat c)

/-- The bytes of a list of words. -/
def wordsBytes (ws : List Word) : List Byte := ws.flatMap fun w => natBytes 4 w.toNat

/-- Bits [lo+n-1 : lo] of a record held as a number (00_scope R4). -/
def recF (r lo n : Nat) : Nat := r / 2 ^ lo % 2 ^ n

/-- A record with a field replaced. -/
def recSet (r lo n v : Nat) : Nat := r - recF r lo n * 2 ^ lo + (v % 2 ^ n) * 2 ^ lo

/-- Replace the elements that satisfy a test. -/
def updWhere {α : Type} (p : α → Bool) (f : α → α) (l : List α) : List α := l.map fun x => if p x then f x else x

/-- Replace the element at a position. -/
def updAt {α : Type} (l : List α) (i : Nat) (f : α → α) : List α :=
  match l[i]? with
  | some x => l.set i (f x)
  | none => l

/-! ### Squeezed blocks -/

/-- Element format, bytes of an element and Emin of a squeeze type (05_memory R148, R149). -/
def SqzTypeFmt : SqzType → Fmt
  | .f32 => fF32
  | .bf16 => fBF16
  | .f16 => fF16

def sqzBytes : SqzType → Nat
  | .f32 => 4
  | _ => 2

def sqzEmin : SqzType → Int
  | .f16 => -14
  | _ => -126

/-- Magnitude bits m for a squeeze code, 1 three-quarter and 2 half (R148). -/
def sqzMag (ty : SqzType) (code : Nat) : Nat :=
  match ty, code with
  | .f32, 1 => 22
  | .f32, _ => 14
  | _, 1 => 10
  | _, _ => 6

/-- Compressed bytes C of a block (R148). -/
def sqzSize (ty : SqzType) (code : Nat) : Nat :=
  match ty, code with
  | .f32, 1 => 96
  | .f32, _ => 64
  | _, 1 => 48
  | _, _ => 32

/-- Squeeze of R149: shared exponent byte and each element's sign and magnitude code. -/
def squeeze (ty : SqzType) (m : Nat) (xs : List Nat) : Nat × List (Bool × Nat) :=
  let f := SqzTypeFmt ty
  let sgn (x : Nat) : Bool := x / 2 ^ (f.eb + f.m) % 2 == 1
  let vs := xs.map fun x => (sgn x, f.value x)
  if vs.any fun p => !p.2.isFinite then
    (255, vs.map fun p => (p.1, match p.2 with | .inf _ => 2 ^ m - 1 | .nan => 2 ^ m - 2 | _ => 0))
  else
    let mag (e : Ex) : Nat := match e with | .fin _ n d => n * (2 ^ 149 / d) | _ => 0
    let top := vs.foldl (fun a p => max a (mag p.2)) 0
    if top == 0 then (0, vs.map fun p => (p.1, 0))
    else
      let e0 : Int := (Nat.log2 top : Int) - 149
      let e := if e0 < sqzEmin ty then sqzEmin ty else e0
      ((e + 127).toNat, vs.map fun p => (p.1, min (roundStep false (mag p.2) (2 ^ 149) (e - m + 1) .rne).1 (2 ^ m - 1)))

/-- Unsqueeze of R149. -/
def unsqueeze (ty : SqzType) (m e : Nat) (xs : List (Bool × Nat)) : List Nat :=
  let f := SqzTypeFmt ty
  xs.map fun (s, n) =>
    if e == 255 && n == 2 ^ m - 1 then f.signed s f.inf
    else if e == 255 && n == 2 ^ m - 2 then f.canonNan
    else if e == 255 || e == 0 then f.signed s 0
    else (f.round (.scaled s n ((e : Int) - 127 - m + 1)) .rne false).1

/-- CRC-24 of RFC 4880 over bytes (R151). -/
def crc24Bits : Nat → Nat → Nat
  | 0, c => c
  | k + 1, c => crc24Bits k (let d := c * 2; if d / 2 ^ 24 % 2 == 1 then (d % 2 ^ 24) ^^^ (0x864CFB % 2 ^ 24) else d % 2 ^ 24)

def crc24 (bs : List Byte) : Nat := bs.foldl (fun c b => crc24Bits 8 (c ^^^ (b.toNat * 2 ^ 16))) 0xB704CE

/-- The bytes of a compressed block: E, the element fields, and the spare bits (R148, R151). -/
def packBlock (ty : SqzType) (code : Nat) (chk : Bool) (e : Nat) (xs : List (Bool × Nat)) : List Byte :=
  let m := sqzMag ty code
  let v := e + 256 * packElems (m + 1) (xs.map fun (s, n) => n + bit01 s * 2 ^ m)
  let body := natBytes (sqzSize ty code - 3) v
  body ++ natBytes 3 (if chk then crc24 body else 0)

/-- The logical bytes of a compressed block (R149). -/
def unpackBlock (ty : SqzType) (code : Nat) (bs : List Byte) : List Byte :=
  let m := sqzMag ty code
  let v := bytesNat bs
  let fs := (List.range 32).map fun i => let x := v / 2 ^ (8 + (m + 1) * i) % 2 ^ (m + 1); (x / 2 ^ m == 1, x % 2 ^ m)
  (unsqueeze ty m (v % 256) fs).flatMap fun x => natBytes (sqzBytes ty) x

/-- Compress the logical bytes of a block (R149). -/
def squeezeBlock (ty : SqzType) (code : Nat) (chk : Bool) (bs : List Byte) : List Byte :=
  let xs := (chunks (sqzBytes ty) 32 bs).map bytesNat
  let (e, fs) := squeeze ty (sqzMag ty code) xs
  packBlock ty code chk e fs

/-! ### Homes and extents -/

/-- Where the device registers begin, and the bytes of the notify registers at their start (R140, 10_scheduling R232, 14_system R303). -/
def devBase : Nat := 0x30000000000
def devWindow : Nat := 2 ^ 22

/-- The package of a pod physical address and its local address (R140). -/
def paPeer (pa : Nat) : Nat := pa / 2 ^ 42
def paLocal (pa : Nat) : Nat := pa % 2 ^ 42
/-- The address ranges of R140. -/
def inHbm (l : Nat) : Bool := l < 0x8000000000
def inHost (l : Nat) : Bool := 0x20000000000 ≤ l && l < 0x30000000000
def inDev (l : Nat) : Bool := devBase ≤ l
def devOffset (pa : Nat) : Nat := paLocal pa - devBase
def inReserved (l : Nat) : Bool := !inHbm l && l < 0x20000000000

/-- The attributes of the extent of an address: striped F32 unless the state lists it (log 3). -/
def State.extent (s : State) (pa : Nat) : Extent :=
  (s.extents.find? fun e => e.num == pa / 2 ^ 21).getD ⟨pa / 2 ^ 21, none, .f32⟩

/-- The home slice of a line, 16 × die + slice (R138, R141). -/
def State.home (s : State) (pa : Nat) : Nat :=
  let l := paLocal pa
  let die := recF l 37 2
  let stripe := recF l 7 4 ^^^ recF l 11 4 ^^^ recF l 15 4 ^^^ recF l 19 2
  if inHost l then 16 * die + stripe
  else match (s.extent pa).home with
    | some h => h
    | none => 16 * die + stripe

/-! ### Places -/

/-- The scratchpad bytes of a crew. -/
def State.scratchOf (s : State) (c : Nat) : List Host.Cell :=
  match s.crews.find? fun x => x.id == c with
  | some x => x.scratch
  | none => []

/-- Logical bytes of the squeezed blocks that cover an access, from the start of the first (R148, R150); every block of a page has the squeeze type of the page's first extent (log 10). -/
def State.blockRead (s : State) (pa frame code n : Nat) : List Byte :=
  let ty := (s.extent frame).ty
  let lb := 32 * sqzBytes ty
  let off := pa - frame
  let b0 := off / lb
  let cnt := (off % lb + n + lb - 1) / lb
  ((List.range cnt).flatMap fun i => unpackBlock ty code (cellRead s.mem (frame + (b0 + i) * sqzSize ty code) (sqzSize ty code)))

/-- The bytes at a place, as memory holds them (R150). -/
def State.readPlace (s : State) (p : Place) (n : Nat) : List Byte :=
  match p with
  | .scratch c off => cellRead (s.scratchOf c) off n
  | .mem pa frame sqz _ =>
    if sqz == 0 then cellRead s.mem pa n
    else ((s.blockRead pa frame sqz n).drop ((pa - frame) % (32 * sqzBytes (s.extent frame).ty))).take n

/-- Write back logical blocks. -/
def writeBlocks (ty : SqzType) (code : Nat) (chk : Bool) (frame : Nat) : Nat → List (List Byte) → List Host.Cell → List Host.Cell
  | _, [], m => m
  | b, blk :: r, m => writeBlocks ty code chk frame (b + 1) r (cellWrite m (frame + b * sqzSize ty code) (squeezeBlock ty code chk blk))

/-- Write bytes at a place; a squeezed page expands, merges and compresses each block (R150). -/
def State.writePlace (s : State) (p : Place) (bs : List Byte) : State :=
  match p with
  | .scratch c off => { s with crews := updWhere (fun x => x.id == c) (fun x => { x with scratch := cellWrite x.scratch off bs }) s.crews }
  | .mem pa frame sqz chk =>
    if sqz == 0 then { s with mem := cellWrite s.mem pa bs }
    else
      let ty := (s.extent frame).ty
      let lb := 32 * sqzBytes ty
      let old := s.blockRead pa frame sqz bs.length
      let k := (pa - frame) % lb
      let new := old.take k ++ bs ++ old.drop (k + bs.length)
      { s with mem := writeBlocks ty sqz chk frame ((pa - frame) / lb) (chunks lb new.length new) s.mem }

/-- The place some bytes further on. -/
def Place.plus (p : Place) (k : Nat) : Place :=
  match p with
  | .scratch c off => .scratch c (off + k)
  | .mem pa frame sqz chk => .mem (pa + k) frame sqz chk

/-- Whether two byte ranges at places share a byte. -/
def placesMeet (p : Place) (n : Nat) (q : Place) (k : Nat) : Bool :=
  match p, q with
  | .scratch c a, .scratch d b => c == d && a < b + k && b < a + n
  | .mem a _ _ _, .mem b _ _ _ => a < b + k && b < a + n
  | _, _ => false

/-- A poison mark on a 32-byte sector (R153). -/
def sectorMark (p : Place) : Datum :=
  match p with
  | .scratch c off => .scratch c (off / 32 * 32)
  | .mem pa _ _ _ => .memory (pa / 32 * 32)

/-- The sectors of `n` bytes at a place. -/
def sectorsOf (p : Place) (n : Nat) : List Place :=
  let base := match p with | .scratch c off => Place.scratch c (off / 32 * 32) | .mem pa f q k => .mem (pa / 32 * 32) f q k
  let off := match p with | .scratch _ o => o % 32 | .mem pa _ _ _ => pa % 32
  (List.range ((off + n + 31) / 32)).map fun i => base.plus (32 * i)

/-- A squeezed block whose check bits differ from its CRC (R151). -/
def State.badBlock (s : State) (frame sqz b : Nat) : Bool :=
  let c := sqzSize (s.extent frame).ty sqz
  let a := frame + b * c
  bytesNat (cellRead s.mem (a + c - 3) 3) != crc24 (cellRead s.mem a (c - 3))

/-- Whether a read of these bytes meets a poisoned sector, or a squeezed block whose CRC differs (R151, R153). -/
def State.poisonedAt (s : State) (p : Place) (n : Nat) : Bool :=
  (sectorsOf p n).any (fun q => s.poison.contains (sectorMark q)) ||
  (match p with
   | .mem pa frame sqz true =>
     sqz != 0 &&
      (let lb := 32 * sqzBytes (s.extent frame).ty
       (List.range (((pa - frame) % lb + n + lb - 1) / lb)).any fun i => s.badBlock frame sqz ((pa - frame) / lb + i))
   | _ => false)

/-- Poison marks after a write: a whole sector (a whole block on a squeezed page) of clean data clears its mark, poisoned data sets it (R153). -/
def State.markWrite (s : State) (p : Place) (n : Nat) (poisoned : Bool) : State :=
  if poisoned then { s with poison := ((sectorsOf p n).map sectorMark).foldl (fun l d => if l.contains d then l else d :: l) s.poison }
  else
    let g : Nat := match p with | .mem _ frame sqz _ => (if sqz == 0 then 32 else 32 * sqzBytes (s.extent frame).ty) | .scratch _ _ => 32
    let lo : Nat := match p with | .mem pa _ _ _ => pa | .scratch _ o => o
    let full (q : Place) : Bool :=
      let a := match q with | .mem pa _ _ _ => pa | .scratch _ o => o
      lo ≤ a / g * g && a / g * g + g ≤ lo + n
    { s with poison := s.poison.filter fun d => !((sectorsOf p n).any fun q => full q && d == sectorMark q) }

/-- Squeezed blocks whose CRC differs stay poisoned, whole, under a write of part of them (R151, R153). -/
def State.keepBad (s : State) (p : Place) (n : Nat) : State :=
  match p with
  | .mem pa frame sqz chk =>
    if sqz == 0 || !chk then s
    else
      let lb := 32 * sqzBytes (s.extent frame).ty
      let b0 := (pa - frame) / lb
      let bad := ((List.range (((pa - frame) % lb + n + lb - 1) / lb)).map fun i => b0 + i).filter fun b => s.badBlock frame sqz b
      { s with poison := (bad.flatMap fun b => (sectorsOf (.mem (frame + b * lb) frame sqz chk) lb).map sectorMark).foldl (fun l d => if l.contains d then l else d :: l) s.poison }
  | .scratch _ _ => s

/-- Whether the first of the sectors of `n` bytes is poisoned that lies `i` sectors on (R151, R153). -/
def State.firstBad (s : State) (p : Place) (n : Nat) : Option Nat :=
  let l := sectorsOf p n
  (List.range l.length).find? fun i => match l[i]? with | some q => s.poisonedAt q 1 | none => false

/-- The place of a queue descriptor, a page-table entry or another kernel object. -/
def kernelAt (pa : Nat) : Place := .mem pa pa 0 false

end Sys2Proof.Machine
end

