-- ==== Sys2Proof/Machine/Objects.lean ====
section
/-! DEFINITION. Steps at the home slices: exact accumulators (03_arithmetic R115, 06_consistency R172, R173), crumb counting (09_crumbs R217, R218), transaction barriers (08_copies R202 to R205), and the one write every store, engine and port performs (05_memory R138). -/
namespace Sys2Proof.Machine

/-- A fresh name, and the state that will not give it again. -/
def State.bumpId (s : State) : State := { s with nextId := s.nextId + 1 }
/-- The counter of free values moves on (log 1). -/
def State.bumpFree (s : State) : State := { s with free := s.free + 1 }

/-! ### Exact accumulators -/

/-- Where an accumulator's elements lie: place, bytes, tag of one element, bits (16_ref R368). -/
def redElems (p : Place) (tag : Tag) (x : Word) : List (Place × Nat × Tag × Nat) :=
  match tag with
  | .bf16x2 => [(p, 2, tag, x.toNat % 65536), (p.plus 2, 2, tag, x.toNat / 65536)]
  | .f16x2 => [(p, 2, tag, x.toNat % 65536), (p.plus 2, 2, tag, x.toNat / 65536)]
  | _ => [(p, 4, tag, x.toNat)]

/-- The format of an accumulator's element, none for an integer. -/
def accFmt : Tag → Option Fmt
  | .f32 => some fF32
  | .bf16x2 => some fBF16
  | .f16x2 => some fF16
  | _ => none

/-- V as a multiple of 2^-149. -/
def fix149 : Ex → Int
  | .fin s n d => (if s then -1 else 1) * ((n * (2 ^ 149 / d) : Nat) : Int)
  | _ => 0

/-- Contribute one element of R115 and R368 to an open accumulator. -/
def Acc.contribute (a : Acc) (bits : Nat) : Acc :=
  match a.kind, accFmt a.tag with
  | .add, none => { a with v := wrapInt 32 (a.v + bits) }
  | .add, some f =>
    if a.st == .nan || a.st == .ovf then a else
    match f.value bits with
    | .nan => { a with st := .nan }
    | .inf neg =>
      if (neg && a.st == .pinf) || (!neg && a.st == .ninf) then { a with st := .nan, invalid := true }
      else { a with st := if neg then .ninf else .pinf }
    | .fin s n d =>
      if a.st == .finite then
        let v := a.v + fix149 (.fin s n d)
        if v < -((2 ^ 319 : Nat) : Int) || ((2 ^ 319 : Nat) : Int) ≤ v then { a with v := v, st := .ovf, neg := v < 0 } else { a with v := v }
      else a
  | k, some f => { a with v := fminmax f (k == .max) a.v.toNat bits }
  | k, none =>
    let le : Bool := intOf (a.tag == .si32) 32 bits < intOf (a.tag == .si32) 32 a.v.toNat
    { a with v := if le == (k == .min) then bits else a.v }

/-- An accumulator opened from the settled value of its location (R115, R368). -/
def Acc.openAt (p : Place) (n : Nat) (kind : RedKind) (tag : Tag) (bits ctx : Nat) : Acc :=
  let a : Acc := ⟨p, n, kind, tag, .finite, bits, false, false, false, ctx, [], false⟩
  match kind, accFmt tag with
  | .add, some f =>
    match f.value bits with
    | .nan => { a with st := .nan, v := 0 }
    | .inf neg => { a with st := if neg then .ninf else .pinf, v := 0 }
    | x => { a with v := fix149 x }
  | _, _ => a

/-- Settle of R115: the bits written and the flags. -/
def Acc.settled (a : Acc) : Nat × Nat :=
  match a.kind, accFmt a.tag with
  | .add, some f =>
    match a.st with
    | .nan => (f.canonNan, if a.invalid then flIV else 0)
    | .pinf => (f.signed false f.inf, 0)
    | .ninf => (f.signed true f.inf, 0)
    | .ovf => (f.signed a.neg f.inf, flOF + flIX)
    | .finite => if a.v == 0 then (0, 0) else f.round (.fin (a.v < 0) a.v.natAbs (2 ^ 149)) .rne false
  | _, _ => (a.v.toNat, 0)

/-- The granules of a migrating page that a write dirties (11_faults R267). -/
def State.dirtyMig (s : State) (p : Place) (n : Nat) : State :=
  match p with
  | .mem pa _ _ _ =>
    { s with migrations := s.migrations.map fun m =>
        if m.st == .copying && m.old ≤ pa && pa < m.old + m.size then
          { m with dirty := ((List.range ((pa % 256 + n + 255) / 256)).map fun i => (pa - m.old) / 256 + i).foldl (fun l g => if l.contains g then l else g :: l) m.dirty }
        else m }
  | .scratch _ _ => s

/-- The consumed words that a write has reached: the port returns to each sender the credits by which its word has advanced (13_fabric R296). -/
def State.returnCredits (s : State) (pa n : Nat) : State :=
  let now (c : RecvChan) : Word := BitVec.ofNat 32 (cellNat s.mem c.word 4)
  let moved (c : RecvChan) : Bool := pa < c.word + 4 && c.word < pa + n && now c != c.last
  { s with
    responses := s.responses ++ (s.recvChans.filter moved).map fun c => Response.mk c.peer c.chan .credits (natBytes 4 (now c - c.last).toNat) false
    recvChans := updWhere moved (fun c => { c with last := now c }) s.recvChans }

/-- The write of one settled accumulator; one that has met an uncorrectable error leaves its sector poisoned (05_memory R153). A page being copied has a granule dirtied (11_faults R267), and a consumed word so advanced returns its credits (13_fabric R296). -/
def State.settleOne (s : State) (a : Acc) : State :=
  let s1 := State.writePlace ((s.dirtyMig a.place a.bytes).keepBad a.place a.bytes) a.place (natBytes a.bytes a.settled.1)
  let s2 := if a.bad then s1.markWrite a.place a.bytes true else s1
  match a.place with
  | .mem pa _ _ _ => s2.returnCredits pa a.bytes
  | .scratch _ _ => s2

/-- Settle the open accumulators that meet a range, in order, giving the flags of each (R172). -/
def State.settleRange (s : State) (p : Place) (n : Nat) : State × Nat :=
  let hit := s.accs.filter fun a => placesMeet a.place a.bytes p n
  hit.foldl (fun (acc : State × Nat) a => (acc.1.settleOne a, acc.2 ||| a.settled.2))
    ({ s with accs := s.accs.filter fun a => !placesMeet a.place a.bytes p n }, 0)

/-- An accumulator that a settle of these bytes would read has met an uncorrectable error (05_memory R153). -/
def State.accBad (s : State) (p : Place) (n : Nat) : Bool := s.accs.any fun a => a.bad && placesMeet a.place a.bytes p n

/-- Slice of an accumulator. -/
def State.placeHome (s : State) (p : Place) : Nat :=
  match p with
  | .mem pa _ _ _ => s.home pa
  | .scratch _ _ => 0

/-- A slice with more than 4,096 open accumulators spills the least recently used (R172). -/
def State.spillAccs (s : State) (slice : Nat) : State :=
  let mine (a : Acc) : Bool := !a.spilled && s.placeHome a.place == slice
  if (s.accs.filter mine).length ≤ Config.sliceAccs then s
  else
    match (s.accs.filter mine).getLast? with
    | some a => { s with accs := s.accs.map fun x => if x == a then { x with spilled := true } else x }
    | none => s

/-- One element of a contribution reaches its slice (R172, R368); the used accumulator moves to the front. -/
def State.contributeElem (s : State) (ctx crew : Nat) (kind : RedKind) (bad : Bool) (e : Place × Nat × Tag × Nat) : State :=
  let (p, n, tag, bits) := e
  let same (a : Acc) : Bool := a.place == p && a.bytes == n && a.kind == kind && a.tag == tag
  let add (a : Acc) : Acc := { a.contribute bits with spilled := false, bad := a.bad || bad, crews := if a.crews.contains crew then a.crews else crew :: a.crews }
  match s.accs.find? same with
  | some a => State.spillAccs { s with accs := add a :: s.accs.filter fun x => !same x } (s.placeHome p)
  | none =>
    let s1 := (s.settleRange p n).1
    let a := Acc.openAt p n kind tag (bytesNat (s1.readPlace p n)) ctx
    State.spillAccs { s1 with accs := add a :: s1.accs } (s.placeHome p)

/-! ### Crumb counters -/

/-- Bytes of a physical range inside the ranges of a region. -/
def overlapBytes (region : List (Nat × Nat)) (a n : Nat) : Nat :=
  region.foldl (fun t r => t + (min (a + n) (r.1 + r.2) - max a r.1)) 0

/-- Fire while the count reaches the total (R218): the counter, and the taint of each firing. -/
def crumbFire : Nat → Crumb → Crumb × List Bool
  | 0, c => (c, [])
  | k + 1, c =>
    if c.armed && c.total ≤ c.count then
      let c1 := { c with fired := true, taint := false }
      let c2 := if c.reload then { c1 with count := c1.count - c1.total } else { c1 with count := c1.total, armed := false }
      let (c3, l) := crumbFire k c2
      (c3, c.taint :: l)
    else (c, [])

/-- Count of R218 for one counter; one that has met an uncorrectable error counts as tainted (05_memory R153; log 62). -/
def Crumb.counted (c : Crumb) (n : Nat) (tainted : Bool) : Crumb × List Bool :=
  if c.armed then
    let c1 := { c with count := c.count + n, taint := c.taint || tainted || c.bad }
    crumbFire (c1.count / max c1.total 1 + 1) c1
  else (c, [])

/-- The firings of a counter join those still to act (R219). -/
def State.pushFirings (s : State) (c : Crumb) : List Bool → State
  | [] => s
  | t :: r => State.pushFirings (State.bumpId { s with firings := s.firings ++ [Firing.mk s.nextId (c.owner.getD 0) c.slice c.index c.action c.operand c.k t] }) c r

/-- Count at one counter, replacing it in the state. -/
def State.countAt (s : State) (c : Crumb) (n : Nat) (tainted : Bool) : State :=
  let (c1, l) := c.counted n tainted
  State.pushFirings { s with crumbs := s.crumbs.map fun (x : Crumb) => if x.slice == c.slice && x.index == c.index then c1 else x } c1 l

/-- A counted write of `n` bytes at a physical address (R217). -/
def State.countWrite (s : State) (pa n : Nat) (tainted : Bool) : State :=
  (s.crumbs.filter fun c => c.armed && overlapBytes c.region pa n != 0).foldl (fun s c => s.countAt c (overlapBytes c.region pa n) tainted) s

/-- As countWrite, with the bytes that count given: 4 for a word contributed or exchanged (R217); it taints where it has met an uncorrectable error. -/
def State.countWord (s : State) (pa : Nat) (tainted : Bool) : State := s.countWrite pa 4 tainted

/-! ### Host window, caches and the write step -/

/-- A host-window sector at its home slice, taken from host memory when absent (R141). -/
def State.hostSector (s : State) (pa : Nat) : CacheSector :=
  (s.hostL2.find? fun c => c.sector == pa / 32).getD
    ⟨s.home pa, pa / 32, cellRead s.mem (pa / 32 * 32) 32, false, List.replicate 32 false, [], false, false⟩

/-- Put a sector among those the home slices hold. -/
def State.putHost (s : State) (c : CacheSector) : State := { s with hostL2 := c :: s.hostL2.filter fun x => x.sector != c.sector }

/-- Write a sector's dirty bytes back to host memory (R141). -/
def State.writeBack (s : State) (c : CacheSector) : State :=
  { s with mem := ((List.range 32).zip c.bytes).foldl (fun m p => if c.dirty.getD p.1 false then cellSet m (c.sector * 32 + p.1) p.2 else m) s.mem }

/-- Splice bytes into a list of bytes. -/
def spliceBytes (l : List Byte) (off : Nat) (bs : List Byte) : List Byte :=
  (List.range l.length).map fun i => if off ≤ i && i < off + bs.length then bs.getD (i - off) 0 else l.getD i 0

/-- A copy of a sector under a write of bytes at an address; a write of all of it clears the mark of an uncorrectable error (05_memory R153). -/
def CacheSector.under (c : CacheSector) (pa : Nat) (bs : List Byte) : CacheSector :=
  { c with bad := c.bad && !(pa ≤ 32 * c.sector && 32 * c.sector + 32 ≤ pa + bs.length), bytes := (List.range c.bytes.length).map fun i => if pa ≤ 32 * c.sector + i && 32 * c.sector + i < pa + bs.length then bs.getD (32 * c.sector + i - pa) 0 else c.bytes.getD i 0 }

/-- Bytes of the host window as their home slices hold them. -/
def State.hostRead (s : State) (pa n : Nat) : List Byte := (List.range n).map fun i => (s.hostSector (pa + i)).bytes.getD ((pa + i) % 32) 0

/-- Bytes written to the host window are dirty at their home slices (R141). -/
def State.hostWrite (s : State) (pa : Nat) (bs : List Byte) : State :=
  (List.range ((pa % 32 + bs.length + 31) / 32)).foldl (fun (st : State) j =>
    let c := st.hostSector (pa / 32 * 32 + 32 * j)
    st.putHost { c.under pa bs with dirty := (List.range 32).map fun i => c.dirty.getD i false || (pa ≤ 32 * c.sector + i && 32 * c.sector + i < pa + bs.length) }) s

/-- Bytes of the device registers: of a queue's notify register the manual states no value on a read, and every other byte of the notify window reads as zero (14_system R303; log 58). -/
def State.devRead (s : State) (pa n : Nat) : List Byte :=
  ((List.range n).zip (natBytes n (Config.freeNat s.free))).map fun x =>
    let o := devOffset pa + x.1
    if devWindow ≤ o || paPeer pa != s.pkg || (o % 64 < 4 && s.userQueues.any fun q => q.qid == o / 64) then x.2 else 0

/-- The kernel and the queue scheduler write the words of a 64-byte descriptor that a step changes, and these count (09_crumbs R217; log 63). -/
def State.putDesc (s : State) (desc r : Nat) : State :=
  (List.range 16).foldl (fun (st : State) i =>
    let w := natBytes 4 (recF r (32 * i) 32)
    if cellRead st.mem (desc + 4 * i) 4 == w then st else State.countWrite { st.dirtyMig (.mem (desc + 4 * i) (desc + 4 * i) 0 false) 4 with mem := cellWrite st.mem (desc + 4 * i) w } (desc + 4 * i) 4 false) s

/-- The tail of a user queue, and its notify step (10_scheduling R232, R233). -/
def State.notifyStep (s : State) (qid : Nat) (tail : Word) (width : Nat) : State :=
  match s.userQueues.find? fun q => q.qid == qid with
  | none => s
  | some q =>
    let d := cellNat s.mem q.desc 64
    if width != 4 || recF d 64 1 == 0 then s
    else
      let mapped := recF d 65 1 == 1
      let h : Word := BitVec.ofNat 32 (recF d 256 32)
      let t : Word := if mapped then q.tail else BitVec.ofNat 32 (recF d 288 32)
      let size := 2 ^ (recF d 72 4 + 6)
      let setD (r : Nat) : State := s.putDesc q.desc r
      let upd (st : State) (f : UserQueue → UserQueue) : State := { st with userQueues := updWhere (fun x => x.qid == qid) f st.userQueues }
      if size < (tail - h).toNat then setD (recSet d 224 32 (recF d 224 32 + 1))
      else if (tail - h).toNat < (t - h).toNat then s
      else if mapped then upd (setD (recSet d 66 1 (if tail != h then 1 else 0))) fun x => { x with tail := tail, notified := s.ticks, heard := s.cycles }
      else upd (setD (recSet (recSet d 288 32 tail.toNat) 66 1 (if tail != h then 1 else 0))) fun x =>
        { x with notified := s.ticks, heard := s.cycles, runnableAt := if recF d 66 1 == 0 then s.cycles else x.runnableAt }

/-- A write at the device registers: a notify at the start of a slot, and nothing elsewhere in the notify window (10_scheduling R232, 14_system R303). -/
def State.deviceWrite (s : State) (pa : Nat) (bs : List Byte) : State :=
  if devOffset pa % 64 == 0 then s.notifyStep (devOffset pa / 64) (BitVec.ofNat 32 (bytesNat bs)) bs.length else s

/-- Bytes of a plain access as its home holds them: the host window through its L2 copy, everything else from memory or scratchpad. -/
def State.homeRead (s : State) (p : Place) (n : Nat) : List Byte :=
  match p with
  | .mem pa _ _ _ => if paPeer pa == s.pkg && inHost (paLocal pa) then s.hostRead pa n else if inDev (paLocal pa) then s.devRead pa n else s.readPlace p n
  | .scratch _ _ => s.readPlace p n

/-- A store updates the sectors its own core's L1 holds, and drops the remote-read copies of that core's die (R136, R139). -/
def State.cacheStore (s : State) (core : Option Nat) (pa : Nat) (bs : List Byte) : State :=
  { s with
    l1 := s.l1.map fun c => if some c.unit == core && 32 * c.sector < pa + bs.length && pa < 32 * c.sector + 32 then c.under pa bs else c
    remoteCache := s.remoteCache.filter fun c => !(core.any fun k => c.unit == k / 64) || c.sector < pa / 32 || (pa + bs.length - 1) / 32 < c.sector }

/-- What a write at a place leaves to be read, from an address: the bytes written, or, on a squeezed page, the blocks they lie in as they read back (R150). -/
def State.readBack (s : State) (p : Place) (bs : List Byte) : Nat × List Byte :=
  match p with
  | .mem pa frame sqz chk =>
    if sqz == 0 then (pa, bs)
    else
      let lb := 32 * sqzBytes (s.extent frame).ty
      let lo := frame + (pa - frame) / lb * lb
      (lo, s.readPlace (.mem lo frame sqz chk) ((pa - lo + bs.length + lb - 1) / lb * lb))
  | .scratch _ off => (off, bs)

/-- A release has been made, or a write of an agent that is no fibre, which may carry one (06_consistency R160): the copies a core holds may be older than what it releases. -/
def State.released (s : State) : State := { s with synced := [] }

/-- One write performed at its home (R138): open accumulators settle first without flags (06_consistency R172), then the bytes, the poison marks, the caches, the dirty map and the crumb counters. -/
def State.performWrite (s : State) (core : Option Nat) (p : Place) (bs : List Byte) (poisoned : Bool) : State :=
  if bs.isEmpty then s else
  let s0 := if core.isSome then s else s.released
  let s1 := (((s0.settleRange p bs.length).1).dirtyMig p bs.length).keepBad p bs.length
  match p with
  | .scratch _ _ => (s1.writePlace p bs).markWrite p bs.length poisoned
  | .mem pa _ _ _ =>
    if paPeer pa == s.pkg && inHost (paLocal pa) then ((s1.hostWrite pa bs).markWrite p bs.length poisoned).cacheStore core pa bs
    else if inDev (paLocal pa) then (if paPeer pa == s.pkg then s1.deviceWrite pa bs else s1)
    else
      let s2 := (s1.writePlace p bs).markWrite p bs.length poisoned
      let r := s2.readBack p bs
      ((s2.cacheStore core r.1 r.2).countWrite pa bs.length poisoned).returnCredits pa bs.length

/-! ### Transaction barriers -/

/-- Steps of a barrier (08_copies R204). -/
inductive BarStep where
  | init (n : Nat)
  | exp (n : Int)
  | land
  | arrive
  | poison (c : Nat)
deriving DecidableEq, Repr

/-- Poison of R204. -/
def barPoison (b c : Nat) : Nat := if recF b 4 1 == 1 then b else recSet (recSet b 4 1 1) 96 16 c

/-- Step of R204, on the 128 bits of the barrier (R202). -/
def barStep (b : Nat) (k : BarStep) : Nat :=
  match k with
  | .init n => recSet (recSet 0 28 20 n) 8 20 n
  | .poison c => barPoison b c
  | _ =>
    if recF b 4 1 == 1 then b else
    let sec := signedOf 32 (recF b 64 32)
    let s2 : Int := match k with | .exp n => sec + n | .land => sec - 1 | _ => sec
    if s2 < -((2 ^ 31 : Nat) : Int) || ((2 ^ 31 : Nat) : Int) ≤ s2 then barPoison b 7 else
    let b1 := recSet b 64 32 (wrapInt 32 s2)
    let arr := recF b1 8 20
    if k == .arrive && arr == 0 then barPoison b1 6 else
    let arr1 := if k == .arrive then arr - 1 else arr
    let b2 := recSet b1 8 20 arr1
    if arr1 == 0 && s2 == 0 then recSet (recSet b2 0 4 (recF b2 0 4 + 1)) 8 20 (recF b2 28 20) else b2

/-- A step at a barrier's home; its bytes are no counted write (09_crumbs R217). -/
def State.barAt (s : State) (p : Place) (k : BarStep) : State :=
  let b := bytesNat (s.readPlace p 16)
  let bs := natBytes 16 (barStep b k)
  let s1 := State.writePlace ((s.settleRange p 16).1.dirtyMig p 16) p bs
  match p with
  | .mem pa _ _ _ => s1.cacheStore none pa bs
  | .scratch _ _ => s1

/-! ### Reduction buffers -/

/-- A contribution reaches its slice: counted as 4 bytes, then accumulated (R172, R217). -/
def State.reachSlice (s : State) (c : Contribution) : State :=
  let s1 := (redElems c.place c.tag c.x).foldl (fun s e => s.contributeElem c.ctx c.crew c.kind c.bad e) s
  match c.place with
  | .mem pa _ _ _ => s1.countWord pa c.bad
  | .scratch _ _ => s1

/-- Pass on the contributions of a core's buffer that satisfy a test, in order (R172). -/
def State.passContribs (s : State) (p : Contribution → Bool) : State :=
  (s.redBuf.filter p).foldl State.reachSlice { s with redBuf := s.redBuf.filter fun c => !p c }

end Sys2Proof.Machine
end

