-- ==== Sys2Proof/Machine/Ops.lean ====
section
/-! DEFINITION. The named operations over the state: crews, fibres and registers (01_execution R37 to R42), page walks and translation (05_memory R142 to R145, 11_faults R258 to R264), aborts (07_transactions R186), taking a trap and returning from it (11_faults R256, R257), and teardown (R260). -/
namespace Sys2Proof.Machine

/-! ### Lookups and updates -/

def State.getCrew (s : State) (id : Nat) : Option Crew := s.crews.find? fun c => c.id == id
def State.modCrew (s : State) (id : Nat) (f : Crew → Crew) : State := { s with crews := updWhere (fun c => c.id == id) f s.crews }
def Crew.fib (c : Crew) (k : Nat) : Option Fibre := c.fibres[k]?
def Crew.modFib (c : Crew) (k : Nat) (f : Fibre → Fibre) : Crew := { c with fibres := updAt c.fibres k f }
def State.modFib (s : State) (id k : Nat) (f : Fibre → Fibre) : State := s.modCrew id fun c => c.modFib k f
def State.getCtx (s : State) (id : Nat) : Option Context := s.contexts.find? fun c => c.id == id
def State.modCtx (s : State) (id : Nat) (f : Context → Context) : State := { s with contexts := updWhere (fun c => c.id == id) f s.contexts }
def State.getPart (s : State) (id : Nat) : Option Partition := s.partitions.find? fun p => p.id == id
def State.getLaunch (s : State) (id : Nat) : Option Launch := s.launches.find? fun l => l.id == id
def State.modLaunch (s : State) (id : Nat) (f : Launch → Launch) : State := { s with launches := updWhere (fun l => l.id == id) f s.launches }
def State.getOp (s : State) (id : Nat) : Option Op := s.ops.find? fun o => o.id == id

/-- A fibre as R13 creates it. -/
def Fibre.fresh (pc : PcAddr) (feeds : Nat) (stamp mark : Nat) : Fibre where
  live := true
  st := .ready
  pc := pc
  regPc := pc
  mark := mark
  preds := 0
  fpstat := 0
  trapCause := 0
  trapPc := 0
  trapAddr := 0
  trapMode := false
  txCause := 0
  abortCount := 0
  tx := none
  uiRpc := 0
  uiCause := 0
  uiAct := false
  uiPend := [none, none, none, none]
  clockHi := 0
  timeHi := 0
  counts := []
  arrivedCrew := false
  arrivedTeam := false
  gate := none
  recvs := []
  meeting := none
  feeds := List.replicate feeds ⟨0, 0, 0, false, []⟩
  stepping := false
  anew := false
  restart := false
  deferred := none
  stamp := stamp
  lost := 0
  awaits := []
  woke := 0
  begins := none
  report := none

/-- Ranks from 0 whose fibre satisfies a test. -/
def ranksOf (p : Fibre → Bool) : Nat → List Fibre → List Nat
  | _, [] => []
  | k, f :: r => if p f then k :: ranksOf p (k + 1) r else ranksOf p (k + 1) r

/-- The live set (R14). -/
def Crew.liveSet (c : Crew) : List Nat := ranksOf (fun f => f.live) 0 c.fibres

/-- Whether a crew's context is privileged (11_faults R266). -/
def State.privileged (s : State) (ctx : Nat) : Bool := match s.getCtx ctx with | some c => c.privileged | none => false

/-! ### Registers -/

def Desc.zero : Desc := ⟨.u, .si32, 0, 0⟩
def Crew.desc (c : Crew) (d : Nat) : Desc := c.regs.getD d Desc.zero

/-- The element of a register at a rank (R37). -/
def Crew.elem (c : Crew) (d k : Nat) : Word :=
  let x := c.desc d
  match x.shape with
  | .u => x.base
  | .a => x.base + x.stride * BitVec.ofNat 32 k
  | .g => (c.rows.getD x.base.toNat []).getD k 0

/-- Rows the descriptors name. -/
def Crew.usedRows (c : Crew) : List Nat := (c.regs.filter fun d => d.shape == .g).map fun d => d.base.toNat

/-- A free row of the pool (R38, R40). -/
def Crew.freeRow (c : Crew) : Option Nat := (List.range c.grows).find? fun r => !c.usedRows.contains r

/-- The shape step of R40: a register that must be G takes a row and holds its old value expanded to every rank; none when the pool is empty. -/
def Crew.shapeStep (c : Crew) (d : Nat) (sh : Shape) : Option Crew :=
  if sh != .g || (c.desc d).shape == .g then some c
  else match c.freeRow with
    | none => none
    | some r =>
      let row := (List.range c.size).map fun k => c.elem d k
      some { c with rows := c.rows.set r row, regs := c.regs.set d { c.desc d with shape := .g, base := BitVec.ofNat 32 r, stride := 0 } }

/-- The shape steps of several registers, in order. -/
def Crew.shapeSteps (c : Crew) : List (Nat × Shape) → Option Crew
  | [] => some c
  | (d, sh) :: r => match c.shapeStep d sh with
    | some c1 => c1.shapeSteps r
    | none => none

/-- The values of R40 after its shape step: G elements of the executing ranks, or a U or A descriptor, which returns a row. -/
def Crew.putValue (c : Crew) (d : Nat) (sh : Shape) (tag : Tag) (base stride : Word) (vals : List (Nat × Word)) : Crew :=
  match sh with
  | .g =>
    let r := (c.desc d).base.toNat
    { c with rows := updAt c.rows r (fun row => vals.foldl (fun l p => l.set p.1 p.2) row), regs := c.regs.set d { c.desc d with tag := tag } }
  | _ => { c with regs := c.regs.set d ⟨sh, tag, base, if sh == .a then stride else 0⟩ }

/-- Whether register d is held G for an attempt of the crew, or for a TXBEGIN that awaits the token (07_transactions R178). -/
def Crew.txHeld (c : Crew) (d : Nat) : Bool :=
  c.fibres.any fun f => (match f.tx with | some t => t.d.toNat == d | none => false) || (match f.begins with | some b => b.1.toNat == d | none => false)

/-- The shape of a write by the ranks X (R40, R178). -/
def Crew.writeShape (c : Crew) (d : Nat) (sh : Shape) (x : List Nat) : Shape :=
  if x != c.liveSet || c.txHeld d then .g else sh

/-- A predicate (R36, R62). -/
def Fibre.pred (f : Fibre) (p : PReg) : Bool := p == 15 || f.preds.getLsbD p.toNat
def setBit16 (w : BitVec 16) (i : Nat) (b : Bool) : BitVec 16 := if b then w ||| (1#16 <<< i) else w &&& ~~~(1#16 <<< i)
def Fibre.setPred (f : Fibre) (p : PReg) (b : Bool) : Fibre := if p == 15 then f else { f with preds := setBit16 f.preds p.toNat b }
/-- Sticky flags (03_arithmetic R111). -/
def Fibre.flag (f : Fibre) (fl : Nat) : Fibre := { f with fpstat := f.fpstat ||| BitVec.ofNat 32 fl }
/-- A region begins at a pc (R29); feeds would restart from here, and operations from `mark` on would be issued again (R31). -/
def Fibre.region (f : Fibre) (pc : PcAddr) (mark : Nat) : Fibre :=
  { f with regPc := pc, mark := mark, stepping := false, anew := false, feeds := f.feeds.map fun q => { q with regionPos := q.pos } }

/-- REGION (R371): a region begins. As the first word of a region issued again in stepping mode it begins that region, and the mode goes on (11_faults R254). -/
def Fibre.regionHere (f : Fibre) (pc : PcAddr) (mark : Nat) : Fibre := { f.region pc mark with stepping := f.anew && f.regPc == pc }

/-- The last clearing case of R18: the live fibres do not all stand at one pc with one trap-mode value. -/
def Crew.together (c : Crew) : Bool :=
  match c.fibres.filter fun f => f.live with
  | [] => true
  | f :: r => r.all fun g => g.pc == f.pc && g.trapMode == f.trapMode
def Crew.fixConv (c : Crew) : Crew := if c.together then c else { c with converged := false }

/-! ### Inputs -/

/-- The first input of a kind, and the others. -/
def takeInput {α : Type} (f : Input → Option α) : List Input → Option (α × List Input)
  | [] => none
  | x :: r => match f x with
    | some v => some (v, r)
    | none => (takeInput f r).map fun p => (p.1, x :: p.2)

def State.took (s : State) (r : List Input) : State := { s with inputs := r }

/-! ### Page tables -/

inductive Walk where
  | leaf (at_ pte bits : Nat)
  | missing (at_ : Nat)
  | malformed
deriving DecidableEq, Repr

/-- Index bits of a level (11_faults R263): lowest VA bit and width. -/
def levelLo : Nat → Nat
  | 1 => 48 | 2 => 39 | 3 => 30 | 4 => 21 | _ => 16

/-- The walk of R263 and R264 from a table at a level; `fuel` counts the levels left. -/
def State.walkFrom (s : State) (va : Nat) : Nat → Nat → Nat → Walk
  | 0, _, _ => .malformed
  | fuel + 1, level, table =>
    let idx := va / 2 ^ levelLo level % (if level == 5 then 32 else 512)
    let at_ := s.pkg * 2 ^ 42 + table + 8 * idx
    let e := cellNat s.mem at_ 8
    if e % 2 == 0 then .missing at_
    else if e / 2 % 2 == 1 then (if level < 3 then .malformed else .leaf at_ e (levelLo level))
    else if level == 5 then .malformed
    else
      let next := e / 2 ^ 8 % 2 ^ 34 * 2 ^ 8
      if e / 2 ^ 42 != 0 || e / 4 % 64 != 0 || !inHbm next || (level < 4 && next % 4096 != 0) then .malformed
      else s.walkFrom va fuel (level + 1) next

def State.walk (s : State) (ctx va : Nat) : Walk :=
  match s.getCtx ctx with
  | some c => s.walkFrom va 5 1 c.ptroot
  | none => .malformed

/-- Fields of a leaf entry (R142). -/
def pteFrame (pte : Nat) : Nat := recF pte 42 10 * 2 ^ 42 + recF pte 16 26 * 2 ^ 16
def pteSqz (pte : Nat) : Nat := recF pte 8 2
def pteMode (pte : Nat) : Nat := recF pte 6 2

/-- Malformed leaf entries (R143). HOMED of a 1 GiB page is compared with the first of its extents (log 10). -/
def State.leafBad (s : State) (pte bits : Nat) : Bool :=
  let f := pteFrame pte
  let l := paLocal f
  let remote := paPeer f != s.pkg
  recF pte 52 12 != 0 || f % 2 ^ bits != 0 || inReserved l ||
  (recF pte 10 1 == 1) != (s.extent f).home.isSome || pteSqz pte == 3 ||
  (pteSqz pte != 0 && (!inHbm l || recF pte 3 1 == 1)) ||
  (recF pte 11 1 == 1 && recF pte 2 1 == 1) ||
  (!remote && (pteMode pte == 1 || pteMode pte == 2)) || (remote && pteMode pte == 0)

/-- The squeeze code in effect: off without CHK in a protected partition (R151). -/
def State.effSqz (s : State) (ctx pte : Nat) : Nat :=
  let prot : Bool := match s.getCtx ctx with
    | some c => (match s.getPart c.part with | some p => p.prot | none => false)
    | none => false
  if recF pte 15 1 == 0 && prot then 0 else pteSqz pte

/-- The place a leaf gives for an address. -/
def State.leafPlace (s : State) (ctx pte bits va : Nat) : Place :=
  .mem (pteFrame pte + va % 2 ^ bits) (pteFrame pte) (s.effSqz ctx pte) (recF pte 15 1 == 1)

/-- The place of an address for the kernel and the engines that serve a context: no permission is asked. -/
def State.kernelPlace (s : State) (ctx va : Nat) : Option (Place × Nat) :=
  match s.walk ctx va with
  | .leaf _ pte bits => if s.leafBad pte bits then none else some (s.leafPlace ctx pte bits va, pte)
  | _ => none

/-- What a translation gives. -/
inductive Xl where
  | ok (p : Place) (pte : Nat)
  | miss (host : Bool)
  | bad (c : Cause)
deriving DecidableEq, Repr

/-- Quad and die of a core (00_scope R2). -/
def quadOf (core : Nat) : Nat := core / 4
def dieOf (core : Nat) : Nat := core / 64

/-- A cached translation that covers an address (R264). -/
def State.tlbFind (s : State) (core asid va : Nat) : Option TlbEntry :=
  s.tlb.find? fun e => (if e.l2 then e.unit == quadOf core else e.unit == core) && (e.asid == asid || recF e.pte 5 1 == 1) && e.page == va / 2 ^ e.bits

/-- Keep the newest `n` entries of one TLB. -/
def keepFirst {α : Type} (p : α → Bool) : Nat → List α → List α
  | _, [] => []
  | n, x :: r => if p x then (match n with | 0 => keepFirst p 0 r | k + 1 => x :: keepFirst p k r) else x :: keepFirst p n r

/-- A leaf enters the L1 TLB of a core and the L2 TLB of its quad (R264). -/
def State.tlbFill (s : State) (core asid va pte bits : Nat) : State :=
  let a : TlbEntry := ⟨false, core, asid, va / 2 ^ bits, bits, pte⟩
  let b : TlbEntry := ⟨true, quadOf core, asid, va / 2 ^ bits, bits, pte⟩
  let old := s.tlb.filter fun e => !((e.l2 == false && e.unit == core || e.l2 && e.unit == quadOf core) && e.asid == asid && e.page == va / 2 ^ bits && e.bits == bits)
  { s with tlb := keepFirst (fun e => e.l2 && e.unit == quadOf core) Config.l2Tlb (keepFirst (fun e => !e.l2 && e.unit == core) Config.l1Tlb (a :: b :: old)) }

/-- The resolver has refused a page to a context, and no access has raised Translation for it yet (R259). -/
def State.isRefused (s : State) (ctx va : Nat) : Bool := s.refused.contains ⟨ctx, va / 65536⟩
/-- An access raises Translation for a page refused; a later miss there is asked for anew (R259). -/
def State.tookRefusal (s : State) (ctx va : Nat) : State := { s with refused := s.refused.filter fun r => r != ⟨ctx, va / 65536⟩ }

/-- The checks of R143 and R144 on a leaf, the PRIV page that the device registers require (R140; log 64), and the checks of the host window (R259, 14_system R308). -/
def State.leafCheck (s : State) (ctx va pte bits : Nat) (write fetch priv : Bool) : Xl :=
  if s.leafBad pte bits then .bad .translation
  else if recF pte 4 1 == 1 && !priv || recF pte 4 1 == 0 && inDev (paLocal (pteFrame pte)) then .bad .permission
  else if write && recF pte 2 1 == 0 then .bad .permission
  else if fetch && recF pte 3 1 == 0 then .bad .permission
  else
    let p := s.leafPlace ctx pte bits va
    if inHost (paLocal (pteFrame pte)) then
      if s.hostStale.contains (ctx, va / 65536) then .bad .hostLost
      else if s.hostMapped.contains (ctx, va / 65536) then .ok p pte else .miss true
    else .ok p pte

/-- The home slice counts an access to a page in MODE 0b11 and not pinned, per 64 KiB of its frame, for the die that asks (05_memory R146). -/
def State.noteAccess (s : State) (core ctx va : Nat) (p : Place) : State :=
  match p, s.walk ctx va with
  | .mem pa _ _ _, .leaf _ pte _ =>
    if pteMode pte == 3 && recF pte 12 1 == 0 then
      let mine (x : Nat × Nat × Nat) : Bool := x.1 == pa / 65536 && x.2.1 == dieOf core
      if s.accessCounts.any mine then { s with accessCounts := updWhere mine (fun x => (x.1, x.2.1, x.2.2 + 1)) s.accessCounts }
      else { s with accessCounts := (pa / 65536, dieOf core, 1) :: s.accessCounts }
    else s
  | _, _ => s

/-- The kernel, or a walker, writes memory of its own (R142, 11_faults R259): no release. -/
def State.kernelStore (s : State) (pa : Nat) (bs : List Byte) : State := { s.performWrite none (kernelAt pa) bs false with synced := s.synced }

/-- Translate an address for an access of a context on a core (R142 to R145, R258 to R264). -/
def State.xlate (s : State) (core ctx va : Nat) (write fetch priv : Bool) : State × Xl :=
  let asid := match s.getCtx ctx with | some c => c.asid | none => 0
  let doWalk : State × Xl :=
    match s.walk ctx va with
    | .malformed => (s, .bad .translation)
    | .missing _ => (s, if s.isRefused ctx va then .bad .translation else .miss false)
    | .leaf at_ pte bits =>
      match s.leafCheck ctx va pte bits write fetch priv with
      | .ok p _ =>
        let pte1 := recSet (recSet pte 13 1 1) 14 1 (if write then 1 else recF pte 14 1)
        let s1 := if pte1 == pte then s else s.kernelStore at_ (natBytes 8 pte1)
        (s1.tlbFill core asid va pte1 bits, .ok p pte1)
      | .miss h => if h && s.isRefused ctx va then (s, .bad .translation) else (s, .miss h)
      | x => (s, x)
  match s.tlbFind core asid va with
  | some e => if write && recF e.pte 14 1 == 0 then doWalk else (s, s.leafCheck ctx va e.pte e.bits write fetch priv)
  | none => doWalk

/-- What an engine, a unit or a fetch finds while the host link is down (14_system R307): its access to a page of the host window is parked at the endpoint, as far as the storage goes, and has no answer. -/
def State.hostWait (s : State) (ctx va : Nat) (r : State × Xl) : State × Xl :=
  match r.2 with
  | .ok (.mem pa _ _ _) _ =>
    if s.hostLost && inHost (paLocal pa) then
      (if s.parked.contains (.engine ctx va) || Config.parkSlots ≤ s.parked.length then s else { s with parked := s.parked ++ [.engine ctx va] }, .miss true)
    else r
  | _ => r

/-! ### Status blocks -/

/-- A place on a page at the switch of its migration, or, afterwards, where accesses held at the switch have still to go first (11_faults R267). -/
def State.placeHeld (s : State) (p : Place) : Bool :=
  match p with
  | .mem pa _ _ _ => s.migrations.any fun m =>
      (m.st == .switching && m.old ≤ pa && pa < m.old + m.size) ||
      (m.st == .settling && m.new ≤ pa && pa < m.new + m.size && s.ops.any fun x => m.held.contains x.id)
  | .scratch .. => false

/-- A recoverable miss that holds no fibre: of an engine, or of a commit (07_transactions R185, 08_copies R199). -/
def State.askMiss (s : State) (ctx va : Nat) (host : Bool) : State :=
  if s.misses.any fun m => m.ctx == ctx && m.va / 65536 == va / 65536 then s
  else { s with nextId := s.nextId + 1, misses := s.misses ++ [⟨s.nextId, ctx, va, host, if host then .atsSent else .kernel, 0, []⟩] }

/-- A write of the hardware that the host is to see: a sector of the host window goes on to host memory (05_memory R141). While the link is down it is parked, as far as the storage goes, or waits at its source; either way it never performs, since only the return of the host ends the loss, and that drops it (14_system R307, R308). -/
def State.writeOut (s : State) (p : Place) (bs : List Byte) : State :=
  match p with
  | .mem pa _ _ _ =>
    if inHost (paLocal pa) then
      (if s.hostLost then (if s.parked.length < Config.parkSlots then { s with parked := s.parked ++ [.write pa] } else s)
       else
        let s1 := s.performWrite none p bs false
        let c := s1.hostSector pa
        (s1.writeBack c).putHost { c with dirty := List.replicate 32 false })
    else s.performWrite none p bs false
  | .scratch .. => s.performWrite none p bs false

/-- A context's status block as its fields give it (14_system R306), by one 32-byte write. -/
def State.writeBlock (s : State) (c : Context) : State := s.writeOut (kernelAt c.status) (natBytes 32 (c.bits.toNat + c.seq.toNat * 2 ^ 64 + c.tdCause.toNat * 2 ^ 96))

/-- The kernel writes a context's status block after a change of its fields. -/
def State.ctxStatus (s : State) (ctx : Nat) (f : Context → Context) : State :=
  match s.getCtx ctx with
  | none => s
  | some c0 =>
    let c := { f c0 with seq := c0.seq + 1 }
    (s.modCtx ctx fun _ => c).writeBlock c

/-- What the hardware writes of its own to an address of a context: while its page has no valid entry, or stands at the switch of a migration, the write waits (11_faults R258, R267); a page refused, a page of the host window that system software has not mapped again since a warm restart (14_system R308), or malformed entries, take none. -/
def State.hwWrite (s : State) (ctx va : Nat) (bs : List Byte) : State :=
  match s.walk ctx va with
  | .leaf _ pte bits =>
    if s.leafBad pte bits || (inHost (paLocal (pteFrame pte)) && s.hostStale.contains (ctx, va / 65536)) then s
    else
      let p := s.leafPlace ctx pte bits va
      if s.placeHeld p then { s with lateWrites := s.lateWrites ++ [⟨ctx, va, bs⟩] } else s.writeOut p bs
  | .missing _ => if s.isRefused ctx va then s.tookRefusal ctx va else State.askMiss { s with lateWrites := s.lateWrites ++ [⟨ctx, va, bs⟩] } ctx va false
  | .malformed => s

/-- The writes that wait are tried again. -/
def State.flushLate (s : State) : State :=
  if s.lateWrites.isEmpty then s
  else s.lateWrites.foldl (fun (st : State) w => st.hwWrite w.ctx w.va w.bytes) { s with lateWrites := [] }

/-- Fields of a launch record (10_scheduling R235). -/
def Launch.status (l : Launch) : Nat := recF l.record 384 64

/-- The single write of a launch's status block (R237). -/
def State.launchStatus (s : State) (l : Launch) (st : Nat) : State :=
  if l.status == 0 then s else s.hwWrite l.ctx l.status (natBytes 16 (st + l.sbtMiss * 2 ^ 32))

/-! ### Aborts -/

/-- Codes of R187. -/
def TxCause.code : TxCause → Nat
  | .explicit => 1 | .conflict => 2 | .sibling => 3 | .readcap => 4 | .writecap => 5 | .remote => 6 | .illegal => 7 | .fault => 8
  | .preempt => 9 | .token => 10 | .depth => 11

/-- Registers a result will write when it lands, predicates from 128 up (R23). -/
def Work.regs : Work → List Nat
  | .value d _ _ _ preds _ => d.toNat :: preds.map fun p => 128 + p.2.1.toNat
  | .load _ d n _ _ _ => (List.range n).map fun i => d.toNat + i
  | .logged d _ _ ws => (List.range ws.length).map fun i => d.toNat + i
  | .atom _ _ d _ _ => [d.toNat]
  | .cas _ d _ _ => [d.toNat]
  | .hostAtom _ _ d _ _ => [d.toNat]
  | _ => []

/-- An operation that ends in registers. -/
def isResult (w : Work) : Bool :=
  match w with
  | .value .. | .load .. | .atom .. | .cas .. | .hostAtom .. | .logged .. => true
  | _ => false

/-- An operation of a fibre has finished: its count retires, and older ones with it (R405). -/
def Fibre.opDone (f : Fibre) (op : Nat) : Fibre :=
  let l := f.counts.map fun c => if c.op == op then { c with done := true } else c
  let step (acc : List Count × List OpClass) (c : Count) : List Count × List OpClass :=
    if c.done && !acc.2.contains c.cls then acc else (acc.1 ++ [c], c.cls :: acc.2)
  { f with counts := (l.foldl step ([], [])).1 }

/-- What a fibre's pre-scan found pending has arrived (10_scheduling R247). -/
def Fibre.woken (f : Fibre) (codes : List Nat) (now : Nat) : Fibre :=
  if f.st == .blocked && codes.any (fun x => f.awaits.contains x) then { f with woke := now } else f

/-- Codes of what a fibre may await beside registers and predicates: a queue's next element, a tile, the WAIT gate and the barrier gates, any other gate or condition, and such a one that has come to hold. -/
def awaitQueue (q : Nat) : Nat := 256 + q
def awaitTile (t : Nat) : Nat := 512 + t
def awaitCount : Nat := 1024
def awaitGate : Nat := 1025
def awaitHeld : Nat := 1026

/-- The same of every fibre of a crew. -/
def Crew.wakeAll (c : Crew) (codes : List Nat) (now : Nat) : Crew := { c with fibres := c.fibres.map fun f => f.woken codes now }
def State.wakeAll (s : State) (crew : Nat) (codes : List Nat) : State := s.modCrew crew fun c => c.wakeAll codes s.cycles

/-- An operation still to perform that also changes memory. -/
def Work.isAtomic : Work → Bool
  | .atom .. | .cas .. | .hostAtom .. => true
  | _ => false

/-- Drop a fibre's results that have not landed (R15, R31, R186): loads and computed results no longer reach it, and an atomic changes memory only; its counts retire at the discard (18_ref R405). -/
def State.discardResults (s : State) (crew rank : Nat) (p : Op → Bool) : State :=
  let hit (o : Op) : Bool := o.crew == crew && o.ranks.contains rank && isResult o.work && p o
  let ids := (s.ops.filter hit).map fun o => o.id
  let drop (o : Op) : Op :=
    if o.work.isAtomic then { o with dropped := o.dropped ++ o.work.regs.map fun r => (rank, r) } else { o with ranks := o.ranks.filter fun k => k != rank }
  let ops := (s.ops.map fun o => if hit o then drop o else o).filter fun o => !(isResult o.work && o.ranks.isEmpty)
  (State.modFib { s with ops := ops } crew rank fun f => ids.foldl (fun f i => f.opDone i) f)

/-- One of a list of values, by a free value. -/
def pick {α : Type} (l : List α) (z : α) (free : Nat) : α := l.getD (Config.freeNat free % l.length) z

/-- The values a register of an attempt may hold after its abort (R186): at TXBEGIN, or written since. -/
def Attempt.values (a : Attempt) (d : Nat) (v : Tag × Word) : List (Tag × Word) := v :: (a.past.filter fun p => p.1 == d).map fun p => p.2

/-- Registers after an abort: each holds its value at TXBEGIN or one written since, by a free value, its tag with it (R186). A descriptor serves the whole crew: while other live fibres read it, it keeps its tag, and where it is not G it takes a row for the value, or keeps the last where none is free (log 44). -/
def restoreRegs (a : Attempt) (c : Crew) (rank free : Nat) (keep : Nat) : Nat → List (Tag × Word) → Crew
  | _, [] => c
  | d, v :: r =>
    let x := c.desc d
    let alone : Bool := c.liveSet == [rank]
    let p := pick ((x.tag, c.elem d rank) :: a.values d v) v (free + d)
    let c1 :=
      if d == keep || p == (x.tag, c.elem d rank) || !(alone || x.tag == p.1) then c
      else if alone && x.shape != .g then c.putValue d .u p.1 p.2 0 []
      else match c.shapeStep d .g with
        | some c2 => c2.putValue d .g p.1 0 0 [(rank, p.2)]
        | none => c
    restoreRegs a c1 rank free keep (d + 1) r

/-- Predicates after an abort, each by a free value (R186). -/
def restorePreds (a : Attempt) (now : BitVec 16) (free : Nat) : BitVec 16 :=
  (List.range 15).foldl (fun w i => setBit16 w i (pick (now :: a.snapPreds :: a.pastPreds) now (free + i) |>.getLsbD i)) now

/-- A fibre sent elsewhere leaves the issue that waits with it. -/
def State.leaveIssue (s : State) (crew rank : Nat) : State :=
  { s with waiting := (s.waiting.map fun i => if i.crew == crew then { i with ranks := i.ranks.filter fun k => k != rank } else i).filter fun i => !i.ranks.isEmpty }

/-- A poison mark that writes of a crew's registers leave standing. -/
def Datum.stands (crew : Nat) (x regs : List Nat) (m : Datum) : Bool :=
  match m with
  | .register c k r => !(c == crew && x.contains k && regs.contains r.toNat)
  | _ => true

/-- A register written is no longer poisoned (05_memory R153). -/
def State.unmark (s : State) (crew : Nat) (x regs : List Nat) : State :=
  if s.poison.isEmpty then s
  else { s with poison := s.poison.filter (Datum.stands crew x regs) }

/-- Abort of R186; the converged flag follows R18 when every abort of the event has been made. -/
def State.abortTx (s : State) (crew rank : Nat) (cause : TxCause) : State :=
  match s.getCrew crew with
  | none => s
  | some c =>
    match c.fib rank with
    | none => s
    | some f =>
      match f.tx with
      | none => s
      | some t =>
        let s1 := (s.leaveIssue crew rank).discardResults crew rank fun _ => true
        let count := match cause with
          | .explicit | .fault | .preempt => f.abortCount
          | _ => min (f.abortCount + 1) 4
        let holds := s.token.holder == some (crew, rank)
        let tok : Token := if holds then ⟨none, if cause == .preempt then (crew, rank, f.abortCount) :: s.token.queue else s.token.queue⟩ else s.token
        let s2 := s1.modCrew crew fun c1 =>
          let c2 := restoreRegs t c1 rank s.free t.d.toNat 0 t.snap
          let c3 := c2.putValue t.d.toNat .g .ui32 0 0 [(rank, BitVec.ofNat 32 cause.code)]
          (c3.modFib rank fun g =>
            (({ g with preds := restorePreds t g.preds (s.free + 120), tx := none, txCause := BitVec.ofNat 4 cause.code, abortCount := count,
                       st := .ready, pc := t.target, gate := none, meeting := none, restart := false, stamp := s.cycles }).setPred t.pd false).region t.target s.nextId)
        { s2.unmark crew [rank] [t.d.toNat] with token := tok, free := s.free + 1 + 140 }

/-! ### Teardown -/

/-- The new value of an ATOM (R318). -/
def atomNew (op : AtomOp) (tag : Tag) (old x : Word) : Word :=
  match op with
  | .add => if tag == .f32 then BitVec.ofNat 32 (fF32.round ((fF32.value old.toNat).add (fF32.value x.toNat) .rne).1 .rne false).1 else old + x
  | .min => (match tag with
    | .f32 => BitVec.ofNat 32 (fminmax fF32 false old.toNat x.toNat)
    | .si32 => if x.slt old then x else old
    | _ => if x.ult old then x else old)
  | .max => (match tag with
    | .f32 => BitVec.ofNat 32 (fminmax fF32 true old.toNat x.toNat)
    | .si32 => if old.slt x then x else old
    | _ => if old.ult x then x else old)
  | .and => old &&& x
  | .or => old ||| x
  | .xor => old ^^^ x
  | .xchg => x
  | .incw => if x.toNat ≤ old.toNat then 0 else old + 1
  | .decw => if old == 0 || x.toNat < old.toNat then x else old - 1

/-- Bytes a tile word is written as (R126). -/
def drainBytes (fmt : TileFmt) (w : Word) : List Byte :=
  match fmt with
  | .word => natBytes 4 w.toNat
  | .bf16 => natBytes 2 (fBF16.round (fF32.value w.toNat) .rne false).1
  | .f16 => natBytes 2 (fF16.round (fF32.value w.toNat) .rne false).1

/-- The value each fibre of a merged host atomic receives, and what memory holds after it (13_fabric R293). -/
def hostParts (op : Option AtomOp) (old : Word) (parts : List (Nat × Word × Word)) : List (Nat × Word) × Option Word :=
  match op with
  | some .add =>
    let r := parts.foldl (fun (acc : List (Nat × Word) × Word) p => (acc.1 ++ [(p.1, acc.2)], acc.2 + p.2.1)) ([], old)
    (r.1, some r.2)
  | some _ =>
    let r := parts.foldl (fun (acc : List (Nat × Word) × Word) p => (acc.1 ++ [(p.1, acc.2)], p.2.1)) ([], old)
    (r.1, some r.2)
  | none => (parts.map fun p => (p.1, old), (parts.head?.bind fun p => if old == p.2.1 then some p.2.2 else none))

/-- Whether an operation writes memory when it performs (R260). -/
def isStore (w : Work) : Bool :=
  match w with
  | .store .. | .drain .. | .drained .. | .atom .. | .cas .. | .hostAtom .. => true
  | _ => false

/-- The word an atomic reads and the one it writes back, at a teardown. -/
def State.updateNow (s : State) (core : Nat) (p : Place) (f : Word → Option Word) : State :=
  let s1 := (s.settleRange p 4).1
  match f (BitVec.ofNat 32 (bytesNat (s1.homeRead p 4))) with
  | some w => s1.performWrite (some core) p (natBytes 4 w.toNat) false
  | none => s1

/-- The source has frozen one of some sequences of a fibre, at a request older than an operation (13_fabric R292). -/
def State.freezes (s : State) (crew rank : Nat) (seqs : BitVec 16) (below : Nat) : Bool :=
  s.frozen.any fun f => f.crew == crew && f.rank == rank && seqs.getLsbD f.seq.toNat && f.op < below

/-- A frozen sequence holds an operation (13_fabric R292): remote requests wait behind the faulting one. -/
def State.frozenHeld (s : State) (o : Op) : Bool := o.peer.isSome && o.ranks.any fun k => s.freezes o.crew k o.seqs o.id

/-- A store waits at its port: a freeze holds it there, or its crew has been saved and it was handed over (R260, R261, 13_fabric R292). -/
def State.atPort (s : State) (o : Op) : Bool :=
  o.peer.isSome && (o.frozen || s.frozenHeld o || !(match s.getCrew o.crew with | some c => c.life == .resident | none => false))

/-- A store of a context torn down performs when it has reached its port; any other performs or is dropped, by a free bit for each: a drain's 64 bytes at a time (R260). -/
def State.storeOrDrop (s : State) (o : Op) : State :=
  let may (st : State) (f : State → State) : State := if s.atPort o then f st else if Config.freeBit st.free then f st.bumpFree else st.bumpFree
  match o.work with
  | .store p bs poisoned => may s fun st => st.performWrite (some o.core) p bs poisoned
  | .drain ps t fmt _ =>
    (match (s.getCrew o.crew).bind fun c => c.tiles[t]? with
     | some tl => ((chunks 64 ps.length (tl.words.flatMap (drainBytes fmt))).zip ps).foldl (fun st q => may st fun u => u.performWrite (some o.core) q.2 q.1 false) s
     | none => s)
  | .drained ps bs => ((chunks 64 ps.length bs).zip ps).foldl (fun st q => may st fun u => u.performWrite (some o.core) q.2 q.1 false) s
  | .atom p aop _ tag x => may s fun st => st.updateNow o.core p fun old => some (atomNew aop tag old x)
  | .cas p _ e w => may s fun st => st.updateNow o.core p fun old => if old == e then some w else none
  | .hostAtom p aop _ parts _ => may s fun st => st.updateNow o.core p fun old => (hostParts aop old parts).2
  | _ => s

/-- Descriptor of a task queue back to every slot free (09_crumbs R222, R223, R260). -/
def State.freeQueue (s : State) (q : TaskQueue) : State :=
  s.putDesc q.desc (recSet (recSet (cellNat s.mem q.desc 64) 128 32 q.slots.length) 160 64 0)

/-- A SKIP record for each slot a crew reserved and did not post (13_fabric R298), handed to the port for the receiving package. -/
def State.skipRecords (s : State) (p : WorkChan → Word × Nat → Bool) : State :=
  let out := s.workChans.flatMap fun w => (w.reserved.filter (p w)).map fun r =>
    let d := cellNat s.mem w.desc 64
    Response.mk (recF d 96 10) (recF d 0 64 + 128 * (r.1.toNat % 2 ^ 20 % 2 ^ (recF d 128 4 + 4))) .record (natBytes 128 (r.1.toNat + 2 ^ 32)) false
  { s with responses := s.responses ++ out, workChans := s.workChans.map fun w => { w with reserved := w.reserved.filter fun r => !p w r } }

/-- The overflow segments of a context's pipes go back to the pool of its partition (09_crumbs R230). -/
def State.segmentsBack (s : State) (cx : Context) : List Partition :=
  updWhere (fun p => p.id == cx.part) (fun p => { p with pool := p.pool + ((s.pipes.filter fun q => q.ctx == cx.id).map fun q => q.segments).foldl (fun a b => a + b) 0 }) s.partitions

/-- Teardown of R260: the fibres retire, everything of the context is discarded, each store not yet performed is performed or dropped by a free bit, and the statuses are written last. -/
def State.teardown (s : State) (ctx : Nat) (cause : Word) : State :=
  match s.getCtx ctx with
  | none => s
  | some cx =>
    if cx.down then s else
    let crewIds := (s.crews.filter fun c => c.ctx == ctx).map fun c => c.id
    let mine (c : Nat) : Bool := crewIds.contains c
    let s1 := (s.ops.filter fun o => o.ctx == ctx && isStore o.work).foldl State.storeOrDrop s
    let s2 := (s1.taskQueues.filter fun q => q.ctx == ctx).foldl State.freeQueue s1
    let s3 := s2.skipRecords fun w _ => w.ctx == ctx
    let s4 := (s3.jobs.filter fun j => j.ctx == ctx).foldl (fun (st : State) j => st.hwWrite ctx (j.at_ + 41) (natBytes 2 (2 + 4 * 256))) s3
    let s5 : State := { s4 with
      synced := []
      cur := s4.cur.filter fun i => !mine i.crew
      waiting := s4.waiting.filter fun i => !mine i.crew
      ops := s4.ops.filter fun o => o.ctx != ctx
      crews := s4.crews.filter fun c => c.ctx != ctx
      teams := s4.teams.filter fun t => !(s4.launches.any fun l => l.id == t.launch && l.ctx == ctx)
      chans := s4.chans.map fun ch => { ch with heads := ch.heads.filter (fun h => h.ctx != ctx), chain := (match ch.chain with | some h => if h.ctx == ctx then none else some h | none => none) }
      transfers := s4.transfers.filter fun t => t.head.ctx != ctx
      savedCopies := s4.savedCopies.filter fun x => !mine x.crew
      taskQueues := s4.taskQueues.map fun q => if q.ctx == ctx then { q with slots := q.slots.map (fun x => (SlotState.free, x.2)), order := [] } else q
      crumbs := s4.crumbs.map fun c => if c.owner == some ctx then { c with armed := false, owner := none } else c
      firings := s4.firings.filter fun f => f.ctx != ctx
      redBuf := s4.redBuf.filter fun r => r.ctx != ctx
      accs := s4.accs.filter fun a => a.ctx != ctx
      pipes := s4.pipes.filter fun p => p.ctx != ctx
      partitions := s4.segmentsBack cx
      rays := s4.rays.filter fun r => r.ctx != ctx
      requeues := s4.requeues.filter fun r => r.ctx != ctx
      formed := s4.formed.filter fun f => !(s4.launches.any fun l => l.id == f.launch && l.ctx == ctx)
      frozen := s4.frozen.filter fun f => !mine f.crew
      misses := s4.misses.filter fun m => m.ctx != ctx
      refused := s4.refused.filter fun r => r.ctx != ctx
      jobs := s4.jobs.filter fun j => j.ctx != ctx
      syscalls := s4.syscalls.filter fun y => !mine y.crew
      parked := s4.parked.filter fun p => match p with | .op i => !(s4.ops.any fun o => o.id == i && o.ctx == ctx) | .engine c _ => c != ctx | .write _ => true
      lostAt := s4.lostAt.filter fun p => p.1 != ctx
      passed := s4.passed.filter fun p => !(s4.launches.any fun l => l.id == p.item.launch && l.ctx == ctx)
      token := ⟨(match s4.token.holder with | some (c, k) => if mine c then none else some (c, k) | none => none), s4.token.queue.filter fun q => !mine q.1⟩
      tlb := s4.tlb.filter fun e => e.asid != cx.asid }
    let live := s5.launches.filter fun l => l.ctx == ctx && (l.st == .waiting || l.st == .distributing || l.st == .resident)
    let s6 := live.foldl (fun (st : State) l => (st.launchStatus l 4).modLaunch l.id fun x => { x with st := .tornDown }) s5
    s6.ctxStatus ctx fun c => { c with down := true, tdCause := cause, bits := c.bits ||| 1 }

/-! ### Traps -/

/-- Codes of R251. -/
def Cause.code : Cause → Nat
  | .illegalOp => 0x01 | .formatMismatch => 0x02 | .shapeOverflow => 0x03 | .misaligned => 0x04 | .tileOwnership => 0x05 | .maskInvalid => 0x06
  | .scopeIllegal => 0x07 | .privOp => 0x08 | .queueRegister => 0x09 | .trapInstr => 0x0A | .feedFault => 0x0B | .translation => 0x10
  | .permission => 0x11 | .poison => 0x12 | .hostLost => 0x13 | .pipeCycle => 0x14 | .serialAbort => 0x15

/-- The trap registers of R256. -/
def Fibre.recordTrap (f : Fibre) (t : Trap) (pc : PcAddr) : Fibre :=
  { f with trapCause := BitVec.ofNat 8 t.cause.code, trapPc := pc, trapAddr := t.addr }

/-- The handler's entry (R256): trap mode, PC and region PC at TRAPVEC, the converged flag cleared (R18). -/
def Fibre.enterHandler (f : Fibre) (vec : PcAddr) (stamp mark : Nat) : Fibre :=
  ({ f with trapMode := true, st := .ready, pc := vec, gate := none, meeting := none, restart := false, stamp := stamp }).region vec mark

/-- TrapEntry of R256; a Translation takes the refusal that raised it (R259). -/
def State.trapEntry (s0 : State) (crew rank : Nat) (t : Trap) (pc : PcAddr) : State :=
  match s0.getCrew crew with
  | none => s0
  | some c =>
    match c.fib rank with
    | none => s0
    | some f =>
      let s := if t.cause == .translation then s0.tookRefusal c.ctx t.addr.toNat else s0
      let vec := match s.getCtx c.ctx with | some x => x.trapvec | none => 0
      if f.trapMode || vec == 0 then s.teardown c.ctx (BitVec.ofNat 32 t.cause.code)
      else if f.tx.isSome && t.cause != .serialAbort then
        (s.modFib crew rank fun g => g.recordTrap t pc).abortTx crew rank .fault
      else (s.leaveIssue crew rank).modCrew crew fun c1 => { c1.modFib rank (fun g => (g.recordTrap t pc).enterHandler vec s.cycles s.nextId) with converged := false }

/-- ERET of R257: PC and region PC from TRAPPC, trap mode cleared. -/
def Fibre.eret (f : Fibre) (mark : Nat) : Fibre := ({ f with trapMode := false, pc := f.trapPc }).region f.trapPc mark

/-- The trap of several fibres of one issue, each its own. -/
def State.trapAll (s : State) (crew : Nat) (pc : PcAddr) : List (Nat × Trap) → State
  | [] => s
  | (k, t) :: r => (s.trapEntry crew k t pc).trapAll crew pc r

end Sys2Proof.Machine
end

