-- ==== Sys2Proof/Machine/Form.lean ====
section
/-! DEFINITION. What the word alone says of an instruction: its extension words, operand set, destinations, gate, closer and region roles, latency and tile (01_execution R23 to R29, 02_encoding R76, 07_transactions R182). -/
namespace Sys2Proof.Machine

/-- The extension kinds an instruction accepts (R76). -/
structure Accept where
  guard : Bool := true
  imm : Bool := false
  scope : Bool := false
  seq : Bool := false
  policy : Bool := false
  mask : Bool := false
  round : Bool := false
  operand : Bool := false
  offset : Bool := false
deriving DecidableEq, Repr

/-- The states in which an instruction issues on the tile it names (04_matrix R124). -/
inductive TileUse where
  | none
  | always
  | settled
  | ready
  | starts
  | drains
deriving DecidableEq, Repr

/-- What the word says. `reads` lists the operand set's registers in pop order; `lat` the registers a variable-latency instruction writes. -/
structure Form where
  b : Bool
  acc : Accept := {}
  dests : List Reg := []
  reads : List Reg := []
  lat : List Reg := []
  preds : List PReg := []
  scope : Option (BitVec 3) := none
  bad : Bool := false
  gate : Bool := false
  closer : Bool := false
  region : Bool := false
  barred : Bool := false
  waits : Bool := false
  use : TileUse := .none
  tile : Nat := 0
  unit : Option CoreUnit := none
deriving DecidableEq, Repr

/-- A register and the next. -/
def pairOf (r : Reg) : List Reg := [r, r + 1]
/-- `n` registers from one. -/
def blockOf (r : Reg) (n : Nat) : List Reg := (List.range n).map fun i => r + BitVec.ofNat 7 i
/-- Address registers of a space (R61, R133). -/
def addrRegs (sp : Space) (a : Reg) : List Reg := match sp with | .global => pairOf a | _ => [a]
/-- Predicates a PMOV mask names. -/
def maskPreds (m : BitVec 16) : List PReg := ((List.range 16).filter fun i => m.getLsbD i).map fun i => BitVec.ofNat 4 i

/-- Elements and registers of a CVT (03_arithmetic R105): source and destination register counts. -/
def cvtCounts (src tgt : Tag) : Nat × Nat :=
  let e := max (tagCount src) (tagCount tgt)
  (e / tagCount src, e / tagCount tgt)

/-- Packed registers and unpacked registers of an MX conversion (16_ref R357), given the packed tag and the wide tag. -/
def mxCounts (packed wide : Tag) : Nat × Nat :=
  match packed with
  | .e2m3p | .e3m2p => (6, 32 / tagCount wide)
  | t => (1, tagCount t / tagCount wide)

/-- A block of registers lies within v0 to v119; a single source may be a queue (02_encoding R60). -/
def blockFits (r : Reg) (n : Nat) : Bool := n == 1 || blockOk r n

/-- Registers on either side of an MXPACK (16_ref R357); a source tag it does not take is judged by the fewest registers that one it takes can need. -/
def mxpackCounts (src tgt : Tag) : Nat × Nat := mxCounts tgt (if src == .f32 then .f32 else .bf16x2)
/-- Registers on either side of an MXUNPK (R357), for a source tag it does not take, or not yet known, by the fewest as well. -/
def mxunpkCounts (src : Option Tag) (tgt : Tag) : Nat × Nat := mxCounts (match src with | some t => if packTag t then t else .e4m3x4 | none => .e4m3x4) tgt

/-- Source tags CVT takes (03_arithmetic R106), and the unpacked tags of the MX conversions (16_ref R358). -/
def convertible (t : Tag) : Bool := t != .e2m3p && t != .e3m2p && t != .raw
def wideTag (t : Tag) : Bool := t == .f32 || t == .bf16x2 || t == .f16x2

/-- Tag of a register of a crew. -/
def Crew.tagOf (c : Crew) (r : Reg) : Tag := (c.desc r.toNat).tag

/-- The form of an instruction for a crew under the extension words collected. -/
def formOf (c : Crew) (x : Ext) : Instr → Form
  | .addA3 e d a b | .subA3 e d a b | .mulA3 e d a b =>
    { b := e, acc := { mask := true, round := true }, dests := [d], reads := [a, b] ++ (if x.mask.isSome then [d] else []) }
  | .minA3 e d a b | .maxA3 e d a b =>
    { b := e, acc := { mask := true }, dests := [d], reads := [a, b] ++ (if x.mask.isSome then [d] else []) }
  | .addAi e d a _ | .subAi e d a _ | .mulAi e d a _ =>
    { b := e, acc := { mask := true, round := true, imm := true }, dests := [d], reads := [a] ++ (if x.mask.isSome then [d] else []) }
  | .minAi e d a _ | .maxAi e d a _ =>
    { b := e, acc := { mask := true, imm := true }, dests := [d], reads := [a] ++ (if x.mask.isSome then [d] else []) }
  | .ma e d a b =>
    { b := e, acc := { mask := true, round := true, operand := true }, dests := [d],
      reads := [a, b] ++ (match x.operand with | some r => [r] | none => []) ++ (if x.mask.isSome || x.operand.isNone then [d] else []) }
  | .dot4 e d a b | .dott e d a b =>
    { b := e, acc := { operand := true }, dests := [d], reads := [a, b, x.operand.getD d] }
  | .mulhi e d a b | .andA3 e d a b | .orA3 e d a b | .xorA3 e d a b | .shlA3 e d a b | .shrA3 e d a b | .sarA3 e d a b | .rotA3 e d a b | .bfe e d a b =>
    { b := e, dests := [d], reads := [a, b] }
  | .bfi e d a b => { b := e, dests := [d], reads := [a, b, d] }
  | .andAi e d a _ | .orAi e d a _ | .xorAi e d a _ | .shlAi e d a _ | .shrAi e d a _ | .sarAi e d a _ | .rotAi e d a _ =>
    { b := e, acc := { imm := true }, dests := [d], reads := [a] }
  | .leaA3 e _ a b => { b := e, reads := pairOf a ++ [b] }
  | .leaAi e _ a _ => { b := e, acc := { imm := true }, reads := pairOf a }
  | .mov e d a | .notR e d a | .popc e d a | .clz e d a | .brev e d a => { b := e, dests := [d], reads := [a] }
  | .neg e d a | .abs e d a => { b := e, acc := { mask := true }, dests := [d], reads := [a] ++ (if x.mask.isSome then [d] else []) }
  | .ldi e d _ =>
    if x.imm.length = 2 then { b := e, acc := { imm := true }, bad := decide (118 < d.toNat) } else { b := e, acc := { imm := true }, dests := [d] }
  | .cmp e _ pd mode a b => { b := e, reads := [a, b], preds := if mode == .set then [] else [pd] }
  | .cmpi e _ pd mode a _ => { b := e, acc := { imm := true }, reads := [a], preds := if mode == .set then [] else [pd] }
  | .pand e pd pa pb | .por e pd pa pb | .pxor e pd pa pb => { b := e, preds := [pd, pa, pb] }
  | .pnot e pd pa => { b := e, preds := [pd, pa] }
  | .pmovToRegister e v m => { b := e, dests := [v], preds := maskPreds m }
  | .pmovToPredicates e v m => { b := e, reads := [v], preds := maskPreds m }
  | .sel e ps _ d a b => { b := e, dests := [d], reads := [a, b], preds := [ps] }
  | .bra p _ _ => { b := true, acc := { guard := false }, preds := [p], closer := true }
  | .ld e _ sp _ d a cnt _ =>
    { b := e, acc := { scope := true, seq := true, policy := true, offset := true }, dests := if cnt == 0 then [d] else [],
      reads := addrRegs sp a, lat := blockOf d (2 ^ cnt.toNat), scope := (match x.order with | some (_, _, sc) => sc | none => none), unit := some .loadStore }
  | .st e _ sp _ v a cnt _ =>
    { b := e, acc := { scope := true, seq := true, policy := true, offset := true }, reads := blockOf v (2 ^ cnt.toNat) ++ addrRegs sp a,
      scope := (match x.order with | some (_, _, sc) => sc | none => none), unit := some .loadStore }
  | .atomAdd e sc _ _ d a | .atomMin e sc _ _ d a | .atomMax e sc _ _ d a | .atomAnd e sc _ _ d a | .atomOr e sc _ _ d a | .atomXor e sc _ _ d a
  | .atomXchg e sc _ _ d a | .atomIncw e sc _ _ d a | .atomDecw e sc _ _ d a =>
    { b := e, acc := { policy := true, offset := true }, dests := [d], reads := d :: pairOf a, lat := [d], scope := some sc, region := true, barred := true, unit := some .loadStore }
  | .cas e sc _ _ d a =>
    { b := e, acc := { policy := true, offset := true }, reads := pairOf d ++ pairOf a, lat := [d], scope := some sc, region := true, barred := true, unit := some .loadStore }
  | .redAdd e sc _ _ d a | .redMin e sc _ _ d a | .redMax e sc _ _ d a =>
    { b := e, acc := { policy := true, offset := true }, reads := d :: pairOf a, scope := some sc, region := true, barred := true, unit := some .loadStore }
  | .rsettle e sc _ a =>
    { b := e, acc := { policy := true, offset := true }, reads := pairOf a, scope := some sc, region := true, barred := true, unit := some .loadStore }
  | .mmaBf16 e t a b _ | .mmaF16 e t a b _ | .mmaE4m3 e t a b _ | .mmaE5m2 e t a b _ | .mmaSi8 e t a b _ | .mmaUi8 e t a b _ =>
    { b := e, reads := blockOf a 16 ++ blockOf b 16, region := true, barred := true, use := .ready, tile := t.toNat, unit := some .matrix }
  | .mmasE2m1 e t a b _ | .mmasE4m3 e t a b _ | .mmasE5m2 e t a b _ | .mmasSi8 e t a b _ =>
    { b := e, reads := blockOf a 17 ++ blockOf b 17, region := true, barred := true, use := .ready, tile := t.toNat, unit := some .matrix }
  | .mmasE2m3 e t a b _ | .mmasE3m2 e t a b _ =>
    { b := e, reads := blockOf a 25 ++ blockOf b 25, region := true, barred := true, use := .ready, tile := t.toNat, unit := some .matrix }
  | .tzero e t => { b := e, region := true, barred := true, use := .settled, tile := t.toNat, unit := some .tileStore }
  | .tfill e t _ r _ scr =>
    { b := e, acc := { offset := true }, reads := if scr then [r] else pairOf r, region := true, barred := true, use := .starts, tile := t.toNat, unit := some .tileStore }
  | .tdrain e t _ r _ _ scr =>
    { b := e, acc := { offset := true }, reads := if scr then [r] else pairOf r, region := true, barred := true, use := .drains, tile := t.toNat, unit := some .tileStore }
  | .tget e t r => { b := e, lat := blockOf r 16, gate := true, use := .ready, tile := t.toNat, unit := some .tileStore }
  | .trow e t r => { b := e, reads := blockOf r 16, region := true, barred := true, use := .ready, tile := t.toNat, unit := some .tileStore }
  | .tstat e t r => { b := e, dests := [r], lat := [r], use := .always, tile := t.toNat, unit := some .tileStore }
  | .shflIdx e d a m | .shflUp e d a m | .shflDown e d a m | .shflXor e d a m =>
    { b := e, acc := { guard := false }, dests := [d], reads := [a, m, d], gate := true }
  | .voteAny e d a m | .voteAll e d a m | .voteBallot e d a m | .foldAdd e d a m | .foldMin e d a m | .foldMax e d a m | .foldAnd e d a m | .foldOr e d a m
  | .foldXor e d a m | .scanAdd e d a m | .scanMin e d a m | .scanMax e d a m | .scanAnd e d a m | .scanOr e d a m | .scanXor e d a m | .matchAny e d a m | .matchAll e d a m =>
    { b := e, acc := { guard := false }, dests := [d], reads := [a, m], gate := true }
  | .rcp e d a | .rsq e d a | .sqrt e d a => { b := e, acc := { round := true }, dests := [d], reads := [a], lat := [d], unit := some .sfu }
  | .exp2 e d a | .log2 e d a | .sin e d a | .cos e d a | .tanh e d a => { b := e, dests := [d], reads := [a], lat := [d], unit := some .sfu }
  | .cvt e d a tgt _ _ =>
    let n := if a.toNat < 120 then cvtCounts (c.tagOf a) tgt else (1, 1)
    { b := e, acc := { operand := true }, dests := if n.2 == 1 && a.toNat < 120 then [d] else [],
      bad := convertible (c.tagOf a) && !(blockFits a n.1 && (n.2 == 1 || blockFits d n.2)),
      reads := blockOf a n.1 ++ (match x.operand with | some r => [r] | none => []) }
  | .mxpack e d a tgt =>
    let n := mxpackCounts (c.tagOf a) tgt
    { b := e, acc := { operand := true }, dests := if n.1 == 1 then [d] else [],
      bad := !(blockFits a n.2 && (n.1 == 1 || blockFits d n.1)),
      reads := blockOf a n.2 ++ (match x.operand with | some r => [r] | none => []) }
  | .mxunpk e d a tgt =>
    let n := mxunpkCounts (if a.toNat < 120 then some (c.tagOf a) else none) tgt
    { b := e, acc := { operand := true }, bad := !(blockFits a n.1 && blockFits d n.2),
      reads := blockOf a n.1 ++ (match x.operand with | some r => [r] | none => []) }
  | .dtern e _ a _ => { b := e, reads := [a] }
  | .retag e d a _ | .tag e d a | .shape e d a => { b := e, dests := [d], reads := [a] }
  | .fpflag e d _ => { b := e, dests := [d] }
  | .nop e | .yield e | .trap e _ => { b := e }
  | .brx a => { b := true, reads := [a], closer := true }
  | .call _ => { b := true, closer := true }
  | .ret => { b := true, reads := [118, 119], closer := true }
  | .region e => { b := e, acc := { guard := false }, waits := true }
  | .spawn e d a b => { b := e, dests := [d], reads := [a, b], region := true, barred := true }
  | .retire => { b := true, closer := true, barred := true }
  | .wait e _ _ _ _ => { b := e, gate := true }
  | .fence e sc _ _ => { b := e, scope := some sc }
  | .eret => { b := true, closer := true }
  | .syscall _ a _ => { b := true, reads := blockOf a 8, closer := true, region := true, barred := true }
  | .uiret => { b := true, closer := true }
  | .uimask e _ => { b := e, barred := true }
  | .sread e d n => { b := e, dests := if sregPair n.toNat then [] else [d] }
  | .swrite e a n => { b := e, reads := if sregPair n.toNat then pairOf a else [a] }
  | .tlbinv e a b => { b := e, reads := pairOf a ++ [b] }
  | .cpost e a _ => { b := e, acc := { seq := true }, reads := pairOf a, region := true, barred := true, unit := some .enginePorts }
  | .cstat e d _ => { b := e, dests := [d], lat := [d], unit := some .enginePorts }
  | .tbinit e a b | .tbexp e a b => { b := e, reads := pairOf a ++ [b], barred := true }
  | .tbarv e a => { b := e, reads := pairOf a, barred := true }
  | .tbwait e d a b => { b := e, dests := [d], reads := pairOf a ++ [b], lat := [d], gate := true, barred := true }
  | .bar e _ | .barw e _ => { b := e, acc := { guard := false }, gate := true, barred := true }
  | .bara e _ => { b := e, acc := { guard := false }, barred := true }
  | .tkres e d a _ => { b := e, reads := pairOf a, lat := pairOf d, region := true, barred := true }
  | .tkcom e a => { b := e, acc := { seq := true }, reads := [a], region := true, barred := true }
  | .tkdrop e a => { b := e, reads := [a], barred := true }
  | .ccarm e d a => { b := e, dests := [d], reads := pairOf a, lat := [d], region := true, barred := true }
  | .ccread e d a => { b := e, reads := [a], lat := pairOf d }
  | .ccdis e a => { b := e, reads := [a], barred := true }
  | .psend e a b => { b := e, acc := { seq := true }, reads := [a, b], region := true, barred := true }
  | .precv e d a => { b := e, dests := [d], reads := [a], lat := [d], gate := true, region := true, barred := true }
  | .pprobe e d a => { b := e, dests := [d], reads := [a], lat := [d] }
  | .txbegin e d _ => { b := e, dests := [d], region := true }
  | .txend _ => { b := true, closer := true }
  | .txabort e => { b := e }
  | .txstat e d a => { b := e, dests := [d], reads := [a], lat := [d] }
  | .feed e _ a => { b := e, reads := pairOf a, unit := some .enginePorts }
  | .fstop e _ => { b := e, unit := some .enginePorts }
  | .trace a b | .texc a b => { b := true, reads := blockOf a 8 ++ pairOf b, closer := true, barred := true }
  | .hitrepAccept e | .hitrepIgnore e | .hitrepTerminate e => { b := e }
  | .rwres e d a _ => { b := e, dests := [d], reads := [a], lat := [d] }
  | .rwpost e a b => { b := e, acc := { seq := true }, reads := pairOf a ++ [b], region := true, barred := true }
  | .netjob e a => { b := e, acc := { seq := true }, reads := pairOf a, region := true, barred := true }
  | .nstat e d a => { b := e, dests := [d], reads := [a], lat := [d] }
  | .pref e a => { b := e, acc := { policy := true, offset := true }, reads := pairOf a, unit := some .loadStore }
  | .flush e a b | .inval e a b =>
    { b := e, acc := { scope := true, seq := true, policy := true }, reads := pairOf a ++ [b], barred := true,
      scope := (match x.order with | some (_, _, sc) => sc | none => none), unit := some .loadStore }
  | _ => { b := false }

/-- An encoding error that the extension words make, then QueueRegister, then ScopeIllegal (R21, R60, R76, R80, 11_faults R252). -/
def Form.check (f : Form) (x : Ext) : Option Cause :=
  let order := match x.order with
    | some (pol, sq, sc) => (pol == 0 || f.acc.policy) && (sq.isNone || f.acc.seq) && (sc.isNone || f.acc.scope) && (f.acc.policy || f.acc.seq || f.acc.scope)
    | none => true
  if (x.imm.isEmpty || f.acc.imm) && (x.guard.isNone || f.acc.guard) && order && (x.mask.isNone || f.acc.mask) &&
     (x.round.isNone || f.acc.round) && (x.operand.isNone || f.acc.operand) && (x.offset.isNone || f.acc.offset) && !f.bad then
    if f.dests.any fun d => decide (120 ≤ d.toNat) then some .queueRegister
    else match f.scope with
      | some sc => if 6 ≤ sc.toNat then some .scopeIllegal else none
      | none => none
  else some .illegalOp

end Sys2Proof.Machine
end

