-- ==== Sys2Proof/Machine/Operands.lean ====
section
/-! DEFINITION. Reading operands: immediates (02_encoding R79), registers and queue heads (01_execution R35, R37, 08_copies R210, R211), addresses (02_encoding R61, 05_memory R133, R134). -/
namespace Sys2Proof.Machine

/-- A check of one fibre: its value, its trap, or a wait of the issue. -/
abbrev Chk (α : Type) := Except (Option Trap) α

def trapWith {α : Type} (c : Cause) (addr : Nat) : Chk α := .error (some ⟨c, BitVec.ofNat 64 addr⟩)
def require (b : Bool) (c : Cause) (addr : Nat) : Chk Unit := if b then .ok () else trapWith c addr

/-- Immediate of R79. -/
def Ext.immediate (x : Ext) (field w0 : Nat) : Int :=
  let r := x.imm.foldl (fun (a : Nat × Nat) p => (a.1 + p.toNat * 2 ^ a.2, a.2 + 24)) (field, w0)
  signedOf r.2 r.1

/-- The byte offset of an OFFSET word (R78). -/
def Ext.byteOffset (x : Ext) : Int := match x.offset with | some o => o.toInt | none => 0

/-- An integer as a word. -/
def wordOf (i : Int) : Word := BitVec.ofInt 32 i

/-- The feed record at an address, as the engine reads it (08_copies R208). -/
def State.feedRecord (s : State) (ctx va : Nat) : Option Nat :=
  (s.kernelPlace ctx va).map fun p => bytesNat (s.homeRead p.1 32)

/-- Whether queue q of a fibre supplies the indices of another feed of it (R210). -/
def State.isIndexQueue (s : State) (ctx : Nat) (f : Fibre) (q : Nat) : Bool :=
  ((List.range f.feeds.length).zip f.feeds).any fun p => p.1 != q && p.2.record != 0 && (match s.feedRecord ctx p.2.record with | some r => recF r 68 1 == 1 && recF r 69 3 == q | none => false)

/-- The trap an entry holds for a datum that met an uncorrectable error: its reader raises it after the checks on the operands (R211, 11_faults R252). -/
def FeedEntry.poison (e : FeedEntry) : Option Trap := e.trap.filter fun t => t.cause == .poison

/-- A queue head: the n-th element not yet popped (R35, R211). -/
def State.readQueue (s : State) (c : Crew) (k q n : Nat) : Chk (Word × Tag) :=
  match c.fib k with
  | none => trapWith .feedFault 0
  | some f =>
    match f.feeds[q]? with
    | none => trapWith .feedFault 0
    | some fd =>
      if fd.record == 0 || fd.stopped || s.isIndexQueue c.ctx f q then trapWith .feedFault 0
      else match fd.entries[n]? with
        | none => .error none
        | some e => match e.trap, e.poison with
          | some t, none => .error (some t)
          | _, _ => .ok (e.value, e.tag)

/-- One source operand of a fibre; `prev` lists the positions read before it. -/
def State.readSrc (s : State) (c : Crew) (k : Nat) (prev : List Reg) (r : Reg) : Chk (Word × Tag) :=
  if r.toNat < 120 then .ok (c.elem r.toNat k, c.tagOf r)
  else s.readQueue c k (r.toNat - 120) (prev.filter fun p => p == r).length

/-- Source operands in order. -/
def State.readSrcs (s : State) (c : Crew) (k : Nat) : List Reg → List Reg → Chk (List (Word × Tag))
  | _, [] => .ok []
  | prev, r :: rest =>
    match s.readSrc c k prev r with
    | .error e => .error e
    | .ok v => match s.readSrcs c k (prev ++ [r]) rest with
      | .error e => .error e
      | .ok l => .ok (v :: l)

/-- The pops of a fibre that has completed its reads (R35). -/
def Fibre.popAll (f : Fibre) (rs : List Reg) : Fibre :=
  rs.foldl (fun (g : Fibre) r => if r.toNat < 120 then g else { g with feeds := updAt g.feeds (r.toNat - 120) fun q => { q with pos := q.pos + 1, entries := q.entries.drop 1 } }) f

/-- The trap of the first poisoned element that a fibre reads from the queues among its operands. -/
def Fibre.queuePoison (f : Fibre) (rs : List Reg) : Option Trap :=
  (rs.filter fun r => 120 ≤ r.toNat).findSome? fun r => (f.feeds[r.toNat - 120]?).bind fun q => (q.entries.take (rs.filter fun x => x == r).length).findSome? FeedEntry.poison

/-- The same of a rank of a crew. -/
def State.queuePoison (s : State) (crew k : Nat) (rs : List Reg) : Option Trap := ((s.getCrew crew).bind fun c => c.fib k).bind fun f => f.queuePoison rs

/-- Whether a register or a queue element a fibre reads is poisoned (05_memory R153, 08_copies R211). -/
def State.regPoisoned (s : State) (crew k : Nat) (rs : List Reg) : Bool :=
  (rs.any fun r => s.poison.contains (.register crew k r)) || (s.queuePoison crew k rs).isSome

/-- The Poison a fibre then raises: of a register, with no address, or of the element (R153, R211). -/
def State.poisonTrap (s : State) (crew k : Nat) (rs : List Reg) : Trap :=
  if rs.any fun r => s.poison.contains (.register crew k r) then ⟨.poison, 0⟩ else (s.queuePoison crew k rs).getD ⟨.poison, 0⟩

/-- Shape of an operand: a queue reads as G (R35). -/
def Crew.shapeOf (c : Crew) (r : Reg) : Shape := if r.toNat < 120 then (c.desc r.toNat).shape else .g

/-- The 64-bit value of a pair. -/
def Crew.pairVal (c : Crew) (k : Nat) (r : Reg) : Nat := (c.elem r.toNat k).toNat + (c.elem (r.toNat + 1) k).toNat * 2 ^ 32

/-- A global address with its offset (R61, R78). -/
def globalAddr (v : Nat) (off : Int) : Chk Nat :=
  let a := wrapInt 64 ((v : Int) + off)
  if a < 2 ^ 57 then .ok a else trapWith .permission a

/-- Alignment of R134. -/
def aligned (a n : Nat) : Chk Unit := require (a % n == 0) .misaligned a

/-- A scratchpad address (R133): the offset, checked against the declared size. -/
def Crew.scratchAddr (c : Crew) (v : Word) (off : Int) (n : Nat) : Chk Nat :=
  let a := wrapInt 32 ((v.toNat : Int) + off)
  if a < 2 ^ 19 && a + n ≤ c.scratchSize then .ok a else trapWith .permission a

/-- The crew of a team position that has not completed (R133). -/
def State.teamCrew (s : State) (c : Crew) (pos : Nat) : Option Crew :=
  s.crews.find? fun x => x.team == c.team && x.teamPos == pos && x.life != .completed

/-- A team-window address (R133): the crew it names and the offset. -/
def State.teamAddr (s : State) (c : Crew) (v : Word) (off : Int) (n : Nat) : Chk (Nat × Nat) :=
  let a := wrapInt 32 ((v.toNat : Int) + off)
  let pos := a / 2 ^ 19
  if a < 2 ^ 25 && pos < c.teamSize then
    match s.teamCrew c pos with
    | some t => if a % 2 ^ 19 + n ≤ t.scratchSize then .ok (t.id, a % 2 ^ 19) else trapWith .permission a
    | none => trapWith .permission a
  else trapWith .permission a

/-- A check of one fibre on the operands it reads. -/
def State.readThen {α : Type} (s : State) (c : Crew) (k : Nat) (srcs : List Reg) (f : List (Word × Tag) → Chk α) : Chk α :=
  match s.readSrcs c k [] srcs with
  | .error e => .error e
  | .ok l => f l

/-- Checks of several fibres: none when one waits, else the values and the traps. -/
def gather {α : Type} (f : Nat → Chk α) : List Nat → Option (List (Nat × α) × List (Nat × Trap))
  | [] => some ([], [])
  | k :: r =>
    match f k, gather f r with
    | .ok v, some (vs, ts) => some ((k, v) :: vs, ts)
    | .error (some t), some (vs, ts) => some (vs, (k, t) :: ts)
    | _, _ => none

/-- The operands of several fibres read and checked. -/
def State.checkAll {α : Type} (s : State) (c : Crew) (x : List Nat) (srcs : List Reg) (f : Nat → List (Word × Tag) → Chk α) : Option (List (Nat × α) × List (Nat × Trap)) :=
  gather (fun k => s.readThen c k srcs (f k)) x

/-- The fibres none of whose operands is poisoned, and the traps of the others (05_memory R153, 11_faults R252). -/
def State.splitPoison {α : Type} (s : State) (c : Crew) (srcs : List Reg) (vals : List (Nat × α)) : List (Nat × α) × List (Nat × Trap) :=
  (vals.filter fun p => !s.regPoisoned c.id p.1 srcs, (vals.filter fun p => s.regPoisoned c.id p.1 srcs).map fun p => (p.1, s.poisonTrap c.id p.1 srcs))

end Sys2Proof.Machine
end

