-- ==== Sys2Proof/Machine/Flags.lean ====
section
/-! DEFINITION. Rounding environment and sticky flags (01_execution R49, 02_encoding R78, 03_arithmetic R102, R111) and the conditions of a compare (15_ref R330). -/
namespace Sys2Proof.Machine

/-- Where a rounding instruction takes its mode and saturate bit from (R102). -/
structure FEnv where
  mode : RMode
  sat : Bool
deriving DecidableEq, Repr

/-- FPSTAT.RMODE (R49). -/
def Fibre.rmode (f : Fibre) : RMode := (RMode.ofCode (recF f.fpstat.toNat 8 2)).getD .rne

/-- The mode is FPSTAT's: no ROUND word, or one with DYN = 1 (R78). -/
def Ext.dynamicMode (x : Ext) : Bool := match x.round with | some (dyn, _, _) => dyn | none => true

/-- The environment of R102 for a fibre. -/
def Ext.env (x : Ext) (f : Fibre) : FEnv :=
  match x.round with
  | some (dyn, sat, m) => ⟨if dyn then f.rmode else m, sat⟩
  | none => ⟨f.rmode, false⟩

/-- Flags of a list of elements under a mask (R111). -/
def flagsOf (mask : Option (BitVec 8)) (es : List (Nat × Nat)) : Nat :=
  ((List.range es.length).zip es).foldl (fun a p => if (match mask with | some m => m.getLsbD p.1 | none => true) then a ||| p.2.2 else a) 0

/-- A result word from its elements; an element the mask leaves out keeps the old bits (R78). -/
def mergeElems (mask : Option (BitVec 8)) (old : Word) (es : List (Nat × Nat)) : Word :=
  let w := 32 / es.length
  BitVec.ofNat 32 (packElems w (((List.range es.length).zip es).map fun p =>
    if (match mask with | some m => m.getLsbD p.1 | none => true) then p.2.1 else old.toNat / 2 ^ (w * p.1)))

/-- Conditions of R330; none where the tag does not take the condition. -/
def condHolds (c : Cond) (tag : Tag) (a b : Word) : Option Bool :=
  let x := fF32.value a.toNat
  let y := fF32.value b.toNat
  let unord : Bool := x.isNan || y.isNan
  match c with
  | .eq => some (match tag with | .f32 => x.eqv y | _ => a == b)
  | .ne => some (match tag with | .f32 => !x.eqv y | _ => a != b)
  | .ltu => some (decide (a.toNat < b.toNat))
  | .leu => some (decide (a.toNat ≤ b.toNat))
  | .gtu => some (decide (b.toNat < a.toNat))
  | .geu => some (decide (b.toNat ≤ a.toNat))
  | .ord => (match tag with | .f32 => some (!unord) | .si32 | .ui32 => some true | _ => none)
  | .uno => (match tag with | .f32 => some unord | .si32 | .ui32 => some false | _ => none)
  | .lt => (match tag with | .f32 => some (!unord && x.lt y && !x.eqv y) | .si32 => some (a.slt b) | .ui32 => some (a.ult b) | _ => none)
  | .le => (match tag with | .f32 => some (!unord && (x.lt y || x.eqv y)) | .si32 => some (a.sle b) | .ui32 => some (a.ule b) | _ => none)
  | .gt => (match tag with | .f32 => some (!unord && y.lt x && !x.eqv y) | .si32 => some (b.slt a) | .ui32 => some (b.ult a) | _ => none)
  | .ge => (match tag with | .f32 => some (!unord && (y.lt x || x.eqv y)) | .si32 => some (b.sle a) | .ui32 => some (b.ule a) | _ => none)

end Sys2Proof.Machine
end

