-- ==== Sys2Proof/Machine/Issue.lean ====
section
/-! DEFINITION. The shared course of an issued instruction: word checks, executing set, barred instructions, waits, operand checks, shape steps, effect, traps and the end of the run (01_execution R20 to R42, 02_encoding R80, 07_transactions R182, 11_faults R252 to R256). -/
namespace Sys2Proof.Machine

abbrev Out := Host.Outcome State Fault Refusal

/-- An instruction at its turn: the issue, the word's form, the executing set, and the ranks that have left the run. -/
structure Turn where
  i : Issue
  f : Form
  x : List Nat
  gone : List Nat
deriving DecidableEq, Repr

/-- Run end (R22): fibres that stay are Ready at the next run, and the converged flag follows R18. -/
def State.endRun (s : State) (i : Issue) (stay : List Nat) : State :=
  let ready (f : Fibre) : Fibre := if f.st == .issuing then { f with st := .ready, stamp := s.cycles } else f
  State.modCrew { s with cur := none } i.crew fun c => (stay.foldl (fun c k => c.modFib k ready) c).fixConv

/-- An issue at its next word, which begins a group, the words of its run that are left behind it (R22, 02_encoding R59, R77). -/
def Issue.onward (i : Issue) : Issue := { i with pc := i.pc + 4, group := i.pc + 4, ext := Ext.zero, words := i.words + 1, code := i.code.drop 1, lost := 0 }

/-- The instruction is done: the pc moves on, a region begins behind a region closer in the fibres that executed it (R29), and the run ends at a B bit or when a fibre has left it (R22, R253). -/
def State.finish (s : State) (t : Turn) (done : List Nat) : Out :=
  match s.cur with
  | none => .next s
  | some i =>
    let next := t.i.pc + 4
    let stay := t.i.ranks.filter fun k => !t.gone.contains k
    let move (c : Crew) : Crew := stay.foldl (fun c k => c.modFib k fun f =>
      let g := { f with pc := next }
      if t.f.region && done.contains k then g.region next s.nextId else g) c
    let s1 := s.modCrew t.i.crew move
    if t.f.b || !t.gone.isEmpty then .next (s1.endRun t.i stay)
    else .next { s1 with cur := some i.onward }

/-- The instruction waits at issue, its lanes held, and is tried again when they next arbitrate (11_faults R255, 01_execution R22, R23). -/
def State.stall (s : State) (t : Turn) : Out :=
  .next { s with cur := none, waiting := s.waiting ++ [{ t.i with ranks := t.i.ranks.filter fun k => !t.gone.contains k }] }

/-- The first trap listed for each fibre: one that meets several conditions raises only the first (11_faults R252). -/
def firstTraps (l : List (Nat × Trap)) : List (Nat × Trap) :=
  l.foldl (fun a p => if a.any (fun q => q.1 == p.1) then a else a ++ [p]) []

/-- Fibres of the issue trap at the first word of the group (R253, R256). -/
def State.trapTurn (s : State) (t : Turn) (traps : List (Nat × Trap)) : State × Turn :=
  (s.trapAll t.i.crew t.i.group (firstTraps traps), { t with gone := t.gone ++ (firstTraps traps).map fun p => p.1 })

/-- A trap in every fibre of the issue, whatever its guard (R80). -/
def State.trapIssue (s : State) (i : Issue) (cause : Cause) : Out :=
  .next ((s.trapAll i.crew i.group (i.ranks.map fun k => (k, ⟨cause, 0⟩))).endRun i [])

/-- The guard of a fibre (R20, R78). -/
def Ext.guardHolds (x : Ext) (f : Fibre) : Bool :=
  match x.guard with
  | some (pol, p) => f.pred p != pol
  | _ => true

/-- An access of a fibre whose landing a region closer waits for (R255): one whose value has come and waits for the end of its run (R28) has landed. -/
def Op.isRead (o : Op) : Bool :=
  match o.work with
  | .load .. | .atom .. | .cas .. | .hostAtom .. => true
  | _ => false

/-- A remote settle that has not been performed: the next instruction waits for it (16_ref R369). -/
def Op.isSettle (o : Op) : Bool :=
  match o.work with
  | .settle _ => true
  | _ => false

/-- A tile's state lets the instruction issue (04_matrix R124); a tile beyond the declared count is left to the instruction's own check. -/
def Crew.tileOk (c : Crew) (u : TileUse) (t : Nat) : Bool :=
  match c.tiles[t]? with
  | none => true
  | some x =>
    match u with
    | .none | .always => true
    | .settled | .starts => x.st == .empty || x.st == .ready
    | .ready | .drains => x.st == .ready

/-- Whether there is a fibre of a rank and it satisfies a test. -/
def Crew.fibTest (c : Crew) (p : Fibre → Bool) (k : Nat) : Bool :=
  match c.fib k with
  | some f => p f
  | none => false

/-- Whether a fibre is in an attempt. -/
def Crew.inTx (c : Crew) (k : Nat) : Bool := c.fibTest (fun f => f.tx.isSome) k

/-- The fibres of an issue that execute its instruction (R20). -/
def Crew.executing (c : Crew) (i : Issue) : List Nat := i.ranks.filter (c.fibTest fun f => i.ext.guardHolds f)

/-- What an instruction waits for at issue whatever its unit: a remote settle of its fibres (16_ref R369), their loads at a region closer or REGION (11_faults R255), its tile (04_matrix R124). -/
def State.ownWaits (s : State) (i : Issue) (c : Crew) (f : Form) (x : List Nat) : Bool :=
  (s.ops.any fun o => o.crew == i.crew && o.isSettle && o.ranks.any fun r => i.ranks.contains r) ||
  ((f.region || f.waits) && s.ops.any fun o => o.crew == i.crew && o.isRead && o.ranks.any fun r => x.contains r) ||
  (!x.isEmpty && !c.tileOk f.use f.tile)

/-! ### Units -/

/-- The key of R247 of a set of ranks: trap mode, promotion, stamp, rank; the smaller wins. `lost` counts the consecutive rounds lost where the set now asks: of its lane, or of a unit. -/
def Crew.keyOf (c : Crew) (ranks : List Nat) (lost : Nat) : Nat × Nat × Nat × Nat :=
  let fs := ranks.filterMap fun k => c.fib k
  let stamp := match fs with | f :: r => r.foldl (fun m g => min m g.stamp) f.stamp | [] => 0
  (bit01 (!(fs.any fun f => f.trapMode)), bit01 (!decide (256 ≤ lost)), stamp, ranks.headD 0)

/-- Lexicographic order of keys. -/
def keyLt (a b : Nat × Nat × Nat × Nat) : Bool :=
  a.1 < b.1 || (a.1 == b.1 && (a.2.1 < b.2.1 || (a.2.1 == b.2.1 && (a.2.2.1 < b.2.2.1 || (a.2.2.1 == b.2.2.1 && a.2.2.2 < b.2.2.2)))))

/-- The key of R247 across crews, for two requests of a unit: trap mode, priority, promotion, stamp, rank (10_scheduling R248). -/
def State.unitLt (s : State) (i j : Issue) : Bool :=
  match s.getCrew i.crew, s.getCrew j.crew with
  | some c, some d =>
    let a := c.keyOf i.ranks i.lost
    let b := d.keyOf j.ranks j.lost
    a.1 < b.1 || (a.1 == b.1 && (d.prio < c.prio || (d.prio == c.prio && keyLt a b)))
  | _, _ => false

/-- The word an issue stands at, as its pre-scan fetched it. -/
def Issue.atHand (i : Issue) : Option Instr :=
  match i.code with
  | .word bs :: _ => (match decodeBytes bs with | .ok ins => some ins | .error _ => none)
  | _ => none

/-- A waiting issue requests a unit of a core: its word at hand uses the unit, and it waits for nothing else (R248). -/
def State.requests (s : State) (core : Nat) (unit : CoreUnit) (i : Issue) : Bool :=
  match s.getCrew i.crew, i.atHand with
  | some c, some ins => c.core == core && (formOf c i.ext ins).unit == some unit && !s.ownWaits i c (formOf c i.ext ins) (c.executing i)
  | _, _ => false

/-- A request of another lane of the core goes first at the unit the instruction uses (R248). -/
def State.unitWaits (s : State) (i : Issue) (c : Crew) (f : Form) : Bool :=
  match f.unit with
  | some u => s.waiting.any fun j => s.requests c.core u j && s.unitLt j i
  | none => false

/-- What an instruction waits for at issue. -/
def State.turnWaits (s : State) (i : Issue) (c : Crew) (f : Form) (x : List Nat) : Bool := s.ownWaits i c f x || s.unitWaits i c f

/-- A word that goes to a unit beats the requests that wait for it: each has lost a round (10_scheduling R248). -/
def State.beats (s : State) (i : Issue) (c : Crew) (ins : Instr) : State :=
  let f := formOf c i.ext ins
  match f.unit with
  | none => s
  | some u =>
    if (f.check i.ext).isSome || s.turnWaits i c f ((c.executing i).filter fun k => !(f.barred && c.inTx k)) then s
    else { s with waiting := s.waiting.map fun j => if s.requests c.core u j then { j with lost := j.lost + 1 } else j }

/-- The common course of every instruction word but the extension words. -/
def State.perform (s : State) (ins : Instr) (k : State → Crew → Turn → Out) : Out :=
  match s.cur with
  | none => .fault .noIssue
  | some i =>
    match s.getCrew i.crew with
    | none => .fault .noIssue
    | some c =>
      let f := formOf c i.ext ins
      match f.check i.ext with
      | some cause => s.trapIssue i cause
      | none =>
        let ex := c.executing i
        let bar := if f.barred then ex.filter c.inTx else []
        let x := ex.filter fun r => !bar.contains r
        if s.turnWaits i c f x then s.stall ⟨i, f, x, []⟩
        else
          let s1 := bar.foldl (fun st r => State.abortTx st i.crew r .illegal) s
          match s1.getCrew i.crew with
          | none => .next { s1 with cur := none }
          | some c1 => k s1 c1 ⟨i, f, x, bar⟩

/-! ### Results -/

/-- The value a list of fibres gives a rank. -/
def valOf {α : Type} (l : List (Nat × α)) (k : Nat) : Option α := (l.find? fun p => p.1 == k).map fun p => p.2

/-- Several fibres trap at the turn and the others complete. -/
def State.finishTraps (s : State) (t : Turn) (traps : List (Nat × Trap)) (done : List Nat) : Out :=
  (s.trapTurn t traps).1.finish (s.trapTurn t traps).2 done


/-- What the executing fibres write into one register. -/
structure Dest where
  d : Nat
  tag : Tag
  shape : Shape
  base : Word
  stride : Word
  vals : List (Nat × Word)
deriving DecidableEq, Repr

/-- A G result. -/
def destG (d : Nat) (tag : Tag) (vals : List (Nat × Word)) : Dest := ⟨d, tag, .g, 0, 0, vals⟩

/-- A later instruction of a run writes registers that its earlier variable-latency instructions have yet to write (R28). -/
def State.overwrite (s : State) (i : Issue) (x : List Nat) (regs : List Nat) : State :=
  { s with ops := s.ops.map fun o => if o.crew == i.crew && o.run == i.run then
      { o with dropped := o.dropped ++ (o.ranks.filter fun k => x.contains k).flatMap fun k => regs.map fun r => (k, r) } else o }

/-- Registers written at a turn: earlier operations of the run no longer write them (R28), and they are no longer poisoned (05_memory R153). -/
def State.marked (s : State) (i : Issue) (x : List Nat) (regs : List Nat) : State := (s.overwrite i x regs).unmark i.crew x regs

/-- The shape steps of all destinations (R40), in order; none when the pool is empty. -/
def Crew.prepare (c : Crew) (ds : List Dest) (x : List Nat) : Option Crew :=
  c.shapeSteps (ds.map fun d => (d.d, c.writeShape d.d d.shape x))

/-- The values of all destinations, after their shape steps (R40). -/
def Crew.putAll (c : Crew) (ds : List Dest) (x : List Nat) : Crew :=
  ds.foldl (fun c1 d => c1.putValue d.d (c.writeShape d.d d.shape x) d.tag d.base d.stride d.vals) c

/-- Write fixed-latency results of the ranks x; none is ShapeOverflow. -/
def State.writeDests (s : State) (t : Turn) (x : List Nat) (ds : List Dest) : Option State :=
  if x.isEmpty then some s else
  match s.getCrew t.i.crew with
  | none => some s
  | some c => (c.prepare ds x).map fun c1 => (s.marked t.i x (ds.map fun d => d.d)).modCrew t.i.crew fun _ => c1.putAll ds x

/-- ShapeOverflow in every fibre of a set (R40). -/
def overflowAll (x : List Nat) : List (Nat × Trap) := x.map fun k => (k, ⟨.shapeOverflow, 0⟩)

/-- Effects on the fibres of a set. -/
def State.modRanks (s : State) (crew : Nat) (x : List Nat) (f : Nat → Fibre → Fibre) : State :=
  s.modCrew crew fun c => x.foldl (fun c k => c.modFib k (f k)) c

/-- An operation that is done as it issues has been counted in its class: it stays counted behind the older ones of its class still outstanding (18_ref R405). -/
def Fibre.passed (f : Fibre) (cls : OpClass) (id : Nat) : Fibre := Fibre.opDone { f with counts := f.counts ++ [⟨cls, id, false⟩] } id

/-- A new outstanding operation; `count` is the class it counts in (18_ref R405). -/
def State.addOp (s : State) (o : Op) (cls : Option OpClass) : State :=
  let s1 : State := { s with ops := s.ops ++ [{ o with id := s.nextId }], nextId := s.nextId + 1 }
  match cls with
  | none => s1
  | some k => s1.modRanks o.crew o.ranks fun _ f => { f with counts := f.counts ++ [⟨k, s.nextId, false⟩] }

/-- An operation of an issue with nothing but its work set. -/
def Turn.op (t : Turn) (c : Crew) (rank : Nat) (ranks : List Nat) (w : Work) : Op :=
  ⟨0, t.i.run, c.ctx, c.id, rank, ranks, 0, 0, false, false, 0, 0, c.core, none, false, false, 0, [], w⟩

/-- Variable-latency results of the ranks x: the shape steps now, the values when they land (R42); none is ShapeOverflow. -/
def State.landLater (s : State) (t : Turn) (x : List Nat) (ds : List Dest) (preds : List (Nat × PReg × Bool)) (flags : List (Nat × Word)) : Option State :=
  if x.isEmpty then some s else
  match s.getCrew t.i.crew with
  | none => some s
  | some c =>
    match c.prepare ds x with
    | none => none
    | some c1 =>
      let s1 := (s.overwrite t.i x ((ds.map fun d => d.d) ++ preds.map fun p => 128 + p.2.1.toNat)).modCrew t.i.crew fun _ => c1
      some (((ds.zip (List.range ds.length)).foldl (fun (st : State) p =>
        let d := p.1
        let sh := c.writeShape d.d d.shape x
        let vals := match sh with | .g => d.vals | _ => x.map fun k => (k, d.base)
        st.addOp (t.op c (x.headD 0) x (.value (BitVec.ofNat 7 d.d) d.tag sh vals (if p.2 == 0 then preds else []) (if p.2 == 0 then flags else []))) none) s1))

/-! ### ALU instructions -/

/-- How the shape of a result follows from its operands' (R39). -/
inductive ShapeRule where
  | uni | add | mul | shl | keep | gen
deriving DecidableEq, Repr

/-- An SI32 or UI32 tag. -/
def isInt32 (t : Tag) : Bool := t == .si32 || t == .ui32

/-- Shape of a result from operand shapes and tags (R39). -/
def ShapeRule.shape (r : ShapeRule) (ops : List (Shape × Tag)) (outTag : Tag) : Shape :=
  let sh := ops.map fun p => p.1
  let ints := ops.all (fun p => isInt32 p.2) && isInt32 outTag
  if r == .gen then .g
  else if sh.all fun x => x == .u then .u
  else if sh.any fun x => x == .g then .g
  else match r with
    | .add => if ints then .a else .g
    | .mul => if ints && (sh.filter fun x => x == .a).length == 1 then .a else .g
    | .shl => if ints && sh.head? == some .a && (sh.drop 1).all (fun x => x == .u) then .a else .g
    | .keep => if ints then .a else .g
    | _ => .g

/-- An ALU instruction: sources in pop order, destinations with their tags, tag check, the elements of each destination, shape rule, whether results round by FPSTAT.RMODE, latency. -/
structure Alu where
  srcs : List Reg
  tagOk : List Tag → Bool
  dests : List Tag → List (Nat × Tag)
  run : FEnv → List (Word × Tag) → List (List (Nat × Nat))
  rule : ShapeRule := .uni
  rounds : List Tag → Bool := fun _ => false
  late : Bool := false
  bad : List Tag → Option Cause := fun _ => none

/-- The rounding environment of a rank (03_arithmetic R102). -/
def Crew.envAt (c : Crew) (x : Ext) (k : Nat) : FEnv :=
  match c.fib k with
  | some f => x.env f
  | none => ⟨.rne, false⟩

/-- The word an ALU instruction gives register d, its destination number j, at rank k, from the operands l it read in an environment; masked elements keep the old bits (02_encoding R78). -/
def Alu.word (a : Alu) (c : Crew) (x : Ext) (j d k : Nat) (env : FEnv) (l : List (Word × Tag)) : Word :=
  mergeElems x.mask (c.elem d k) ((a.run env l).getD j [])

/-- The flags it sets (03_arithmetic R111). -/
def Alu.flags (a : Alu) (x : Ext) (env : FEnv) (l : List (Word × Tag)) : Word :=
  BitVec.ofNat 32 ((a.run env l).foldl (fun acc es => acc ||| flagsOf x.mask es) 0)

/-- The operands a rank would read from the registers. -/
def Alu.held (a : Alu) (c : Crew) (k : Nat) : List (Word × Tag) := a.srcs.map fun r => (c.elem r.toNat k, c.tagOf r)

/-- The fibres round in different modes. -/
def Alu.splits (a : Alu) (c : Crew) (x : Ext) (done : List Nat) (tags : List Tag) : Bool :=
  a.rounds tags && x.dynamicMode && done.any fun k => (c.envAt x k).mode != (c.envAt x (done.headD 0)).mode

/-- The shape R39 gives a result from its operands, the destination's old value among them under a mask. -/
def Alu.ruleShape (a : Alu) (c : Crew) (x : Ext) (tags : List Tag) (d : Nat) (tag : Tag) : Shape :=
  a.rule.shape (((a.srcs.zip tags).map fun q => (c.shapeOf q.1, q.2)) ++ if x.mask.isSome then [((c.desc d).shape, tag)] else []) tag

/-- The shape of a result (01_execution R39): G too where the fibres round in different modes, or a masked result would be A. -/
def Alu.shape (a : Alu) (c : Crew) (x : Ext) (done : List Nat) (tags : List Tag) (d : Nat) (tag : Tag) : Shape :=
  if a.splits c x done tags || (x.mask.isSome && a.ruleShape c x tags d tag == .a) then .g else a.ruleShape c x tags d tag

/-- One destination of an ALU instruction. -/
def Alu.dest (a : Alu) (c : Crew) (x : Ext) (done : List Nat) (tags : List Tag) (vals : List (Nat × List (Word × Tag))) (p : (Nat × Tag) × Nat) : Dest :=
  let e0 := c.envAt x (done.headD 0)
  let b0 := a.word c x p.2 p.1.1 0 e0 (a.held c 0)
  ⟨p.1.1, p.1.2, a.shape c x done tags p.1.1 p.1.2, b0, a.word c x p.2 p.1.1 1 e0 (a.held c 1) - b0,
    vals.map fun o => (o.1, a.word c x p.2 p.1.1 o.1 (c.envAt x o.1) o.2)⟩

/-- The results of an ALU instruction for the fibres that complete it. -/
def aluDests (c : Crew) (x : Ext) (a : Alu) (done : List Nat) (vals : List (Nat × List (Word × Tag))) : List Dest × List (Nat × Word) :=
  let tags := match vals with | (_, v) :: _ => v.map fun p => p.2 | [] => a.srcs.map fun r => c.tagOf r
  let ds := a.dests tags
  ((ds.zip (List.range ds.length)).map (a.dest c x done tags vals), vals.map fun o => (o.1, a.flags x (c.envAt x o.1) o.2))

/-- The checks of an ALU instruction on the operands of a fibre: their tags, the MASK word's elements (02_encoding R78). -/
def Alu.check (a : Alu) (x : Ext) (l : List (Word × Tag)) : Chk (List (Word × Tag)) :=
  let tags := l.map fun p => p.2
  let maskOk : Bool := match x.mask with
    | some m => (a.dests tags).all fun d => decide (m.toNat < 2 ^ tagCount d.2)
    | none => true
  if a.tagOk tags && maskOk then
    match a.bad tags with
    | some cause => trapWith cause 0
    | none => .ok l
  else trapWith .formatMismatch 0

/-- The flags each fibre's rounding sets. -/
def flagOf (flags : List (Nat × Word)) (k : Nat) (f : Fibre) : Fibre := f.flag ((valOf flags k).getD 0).toNat

/-- The results of an ALU instruction written, or its operation outstanding. -/
def State.aluWrite (s : State) (t : Turn) (c : Crew) (a : Alu) (done : List Nat) (ds : List Dest) (flags : List (Nat × Word)) : Option State :=
  let s1 := s.modRanks c.id done fun _ f => f.popAll a.srcs
  if a.late then s1.landLater t done ds [] flags
  else (s1.writeDests t done ds).map fun s2 => s2.modRanks c.id done (flagOf flags)

/-- Every fibre that has passed its checks has a poisoned operand, and the shape step fails for them: ShapeOverflow comes first (11_faults R252). -/
def Alu.overflows (a : Alu) (t : Turn) (c : Crew) (done vals : List (Nat × List (Word × Tag))) : Bool :=
  done.isEmpty && !vals.isEmpty && (c.prepare (aluDests c t.i.ext a (vals.map fun p => p.1) vals).1 (vals.map fun p => p.1)).isNone

/-- The course of an ALU instruction. -/
def State.alu (s : State) (ins : Instr) (mk : Crew → Turn → Alu) : Out :=
  s.perform ins fun s c t =>
    let a := mk c t
    match s.checkAll c t.x a.srcs fun _ => a.check t.i.ext with
    | none => s.stall t
    | some (vals, traps) =>
      let sp := s.splitPoison c (a.srcs ++ if t.i.ext.mask.isSome then t.f.dests else []) vals
      let done := sp.1.map fun p => p.1
      let r := aluDests c t.i.ext a done sp.1
      match s.aluWrite t c a done r.1 r.2 with
      | some s2 => s2.finishTraps t (traps ++ if a.overflows t c sp.1 vals then overflowAll (vals.map fun p => p.1) else sp.2) done
      | none => s.finishTraps t (traps ++ overflowAll (vals.map fun p => p.1)) []

/-! ### Instructions of fixed latency that act on each fibre -/

/-- What an instruction reads, checks and does in each fibre: destinations, effect on the fibre, predicates written. -/
structure Plan (α : Type) where
  srcs : List Reg
  check : Nat → List (Word × Tag) → Chk α
  dests : List (Nat × α) → List Dest := fun _ => []
  fibre : Nat → α → Fibre → Fibre := fun _ _ f => f
  preds : List PReg := []

/-- The effect of such an instruction on a fibre. -/
def Plan.effect {α : Type} (a : Plan α) (good : List (Nat × α)) (k : Nat) (f : Fibre) : Fibre :=
  match valOf good k with
  | some v => a.fibre k v f
  | none => f

/-- Every fibre that has passed its checks has a poisoned operand, and the shape step fails for them: ShapeOverflow comes first (11_faults R252). -/
def Plan.overflows {α : Type} (a : Plan α) (c : Crew) (done vals : List (Nat × α)) : Bool :=
  done.isEmpty && !vals.isEmpty && (c.prepare (a.dests vals) (vals.map fun p => p.1)).isNone

/-- The course of such an instruction. -/
def State.plan {α : Type} (s : State) (ins : Instr) (mk : State → Crew → Turn → Plan α) : Out :=
  s.perform ins fun s c t =>
    let a := mk s c t
    match s.checkAll c t.x a.srcs a.check with
    | none => s.stall t
    | some (vals, traps) =>
      let sp := s.splitPoison c a.srcs vals
      let done := sp.1.map fun p => p.1
      match ((s.modRanks c.id done fun _ f => f.popAll a.srcs).overwrite t.i done (a.preds.map fun p => 128 + p.toNat)).writeDests t done (a.dests sp.1) with
      | some s2 => (s2.modRanks c.id done (a.effect sp.1)).finishTraps t (traps ++ if a.overflows c sp.1 vals then overflowAll (vals.map fun p => p.1) else sp.2) done
      | none => s.finishTraps t (traps ++ overflowAll (vals.map fun p => p.1)) []

end Sys2Proof.Machine
end

