-- ==== Sys2Proof/Machine/Alu.lean ====
section
/-! DEFINITION. The A3 and AI instructions: arithmetic, bitwise, shifts, bit fields, moves, addresses and dot products (03_arithmetic R94, R98, R104, 04_matrix R130 to R132, 15_ref R315, R316, 16_ref R352 to R355, 17_ref R376, 18_ref R406). -/
namespace Sys2Proof.Machine

/-- Tags that arithmetic accepts (R315, R354). -/
def arithTag (t : Tag) : Bool := t == .f32 || t == .bf16x2 || t == .f16x2 || t == .si32 || t == .ui32 || t == .si8x4 || t == .ui8x4

/-- Floating-point tags of arithmetic. -/
def floatTag (t : Tag) : Bool := t == .f32 || t == .bf16x2 || t == .f16x2

/-- Two operands of one arithmetic tag. -/
def sameArith : List Tag → Bool
  | t :: r => arithTag t && r.all fun x => x == t
  | [] => false

/-- One source of an arithmetic tag. -/
def headArith : List Tag → Bool
  | t :: _ => arithTag t
  | [] => false

/-- The immediate forms of ADD, SUB, MUL, MIN, MAX and LEA take SI32 and UI32 alone (R64). -/
def allInt32 (l : List Tag) : Bool := l.all isInt32

def anyTags (_ : List Tag) : Bool := true

/-- First operand's tag. -/
def headTag (l : List Tag) : Tag := l.headD .si32

/-- One destination with the first operand's tag. -/
def destHead (d : Reg) (l : List Tag) : List (Nat × Tag) := [(d.toNat, headTag l)]
/-- One destination of a fixed tag. -/
def destTag (d : Reg) (t : Tag) (_ : List Tag) : List (Nat × Tag) := [(d.toNat, t)]

/-- The word and tag of operand n. -/
def opnd (l : List (Word × Tag)) (n : Nat) : Word := (l.getD n (0, .si32)).1
def opTag (l : List (Word × Tag)) (n : Nat) : Tag := (l.getD n (0, .si32)).2

/-- Apply an operation to each element of words of one tag. -/
def eachElem (tag : Tag) (f : Elem → List Nat → Nat × Nat) (ws : List Word) : List (Nat × Nat) :=
  (List.range (tagCount tag)).map fun i => f (tagElem tag) (ws.map fun w => elemAt tag w.toNat i)

/-- Round an exact value with the flags of the operation that formed it (R104). -/
def roundOp (f : Fmt) (v : Ex × Nat) (env : FEnv) : Nat × Nat :=
  let r := f.round v.1 env.mode env.sat
  (r.1, r.2 ||| v.2)

/-- One element of ADD (R104), and of SUB with the second operand negated. -/
def addElem (env : FEnv) (sub : Bool) (e : Elem) (xs : List Nat) : Nat × Nat :=
  let a := xs.getD 0 0
  let b := xs.getD 1 0
  match e with
  | .flt f => roundOp f ((f.value a).add (if sub then (f.value b).neg else f.value b) env.mode) env
  | .int _ w => (wrapInt w (if sub then (a : Int) - b else (a : Int) + b), 0)
  | .e8m0 => (0, 0)

/-- One element of MUL (R104). -/
def mulElem (env : FEnv) (e : Elem) (xs : List Nat) : Nat × Nat :=
  let a := xs.getD 0 0
  let b := xs.getD 1 0
  match e with
  | .flt f => roundOp f ((f.value a).mul (f.value b)) env
  | .int _ w => (wrapInt w (a * b : Nat), 0)
  | .e8m0 => (0, 0)

/-- One element of MA: exact product and sum, one rounding (R104). -/
def maElem (env : FEnv) (e : Elem) (xs : List Nat) : Nat × Nat :=
  let a := xs.getD 0 0
  let b := xs.getD 1 0
  let c := xs.getD 2 0
  match e with
  | .flt f =>
    let p := (f.value a).mul (f.value b)
    let q := p.1.add (f.value c) env.mode
    roundOp f (q.1, p.2 ||| q.2) env
  | .int _ w => (wrapInt w (a * b + c : Nat), 0)
  | .e8m0 => (0, 0)

/-- One element of MIN or MAX (R104). -/
def minmaxElem (isMax : Bool) (e : Elem) (xs : List Nat) : Nat × Nat :=
  let a := xs.getD 0 0
  let b := xs.getD 1 0
  match e with
  | .flt f => (fminmax f isMax a b, 0)
  | .int s w => (if (intOf s w a < intOf s w b) == isMax then b else a, 0)
  | .e8m0 => (0, 0)

/-- One element of NEG (R98). -/
def negElem (e : Elem) (xs : List Nat) : Nat × Nat :=
  let a := xs.getD 0 0
  match e with
  | .flt f => (a ^^^ 2 ^ (f.eb + f.m), 0)
  | .int _ w => (wrapInt w (-(a : Int)), 0)
  | .e8m0 => (0, 0)

/-- One element of ABS (R98, R315). -/
def absElem (e : Elem) (xs : List Nat) : Nat × Nat :=
  let a := xs.getD 0 0
  match e with
  | .flt f => (a % 2 ^ (f.eb + f.m), 0)
  | .int true w => (wrapInt w (if signedOf w a < 0 then -(a : Int) else a), 0)
  | .int false _ => (a, 0)
  | .e8m0 => (0, 0)

/-- The immediate of an AI form as a word (R64, R79). -/
def immWord (x : Ext) (imm : BitVec 7) : Word := wordOf (x.immediate imm.toNat 7)

/-- A result of one 32-bit word. -/
def wordElem (w : Word) : List (List (Nat × Nat)) := [[(w.toNat, 0)]]

/-- The shift count of R376. -/
def shiftOf (b : Word) : Nat := b.toNat % 32
def shl32 (a b : Word) : Word := a <<< shiftOf b
def shr32 (a b : Word) : Word := a >>> shiftOf b
def sar32 (a b : Word) : Word := a.sshiftRight (shiftOf b)
def rot32 (a b : Word) : Word := a.rotateLeft (shiftOf b)

/-- Element-wise arithmetic of two registers. -/
def aluPair (d a b : Reg) (rule : ShapeRule) (rounds : Bool) (f : FEnv → Elem → List Nat → Nat × Nat) : Alu :=
  { srcs := [a, b], tagOk := sameArith, dests := destHead d, rule := rule, rounds := fun l => rounds && floatTag (headTag l),
    run := fun env l => [eachElem (opTag l 0) (f env) [opnd l 0, opnd l 1]] }

/-- Element-wise arithmetic of a register and an immediate. -/
def aluImm (d a : Reg) (imm : Word) (rule : ShapeRule) (f : FEnv → Elem → List Nat → Nat × Nat) : Alu :=
  { srcs := [a], tagOk := allInt32, dests := destHead d, rule := rule,
    run := fun env l => [eachElem (opTag l 0) (f env) [opnd l 0, imm]] }

/-- A bitwise or shift operation of two registers: any tags, the first operand's tag (R44). -/
def aluBits (d a b : Reg) (rule : ShapeRule) (f : Word → Word → Word) : Alu :=
  { srcs := [a, b], tagOk := anyTags, dests := destHead d, rule := rule, run := fun _ l => wordElem (f (opnd l 0) (opnd l 1)) }

/-- A bitwise or shift operation of a register and an immediate. -/
def aluBitsImm (d a : Reg) (imm : Word) (rule : ShapeRule) (f : Word → Word → Word) : Alu :=
  { srcs := [a], tagOk := anyTags, dests := destHead d, rule := rule, run := fun _ l => wordElem (f (opnd l 0) imm) }

/-- ADD of registers (15_ref R315). -/
def execAddA3 (e : Bool) (d a b : Reg) (s : State) : Out := s.alu (.addA3 e d a b) fun _ _ => aluPair d a b .add true fun env => addElem env false
/-- ADD of an immediate (R315). -/
def execAddAi (e : Bool) (d a : Reg) (imm : BitVec 7) (s : State) : Out := s.alu (.addAi e d a imm) fun _ t => aluImm d a (immWord t.i.ext imm) .add fun env => addElem env false
/-- SUB of registers (17_ref R376). -/
def execSubA3 (e : Bool) (d a b : Reg) (s : State) : Out := s.alu (.subA3 e d a b) fun _ _ => aluPair d a b .add true fun env => addElem env true
/-- SUB of an immediate (R376). -/
def execSubAi (e : Bool) (d a : Reg) (imm : BitVec 7) (s : State) : Out := s.alu (.subAi e d a imm) fun _ t => aluImm d a (immWord t.i.ext imm) .add fun env => addElem env true
/-- MUL of registers (16_ref R354). -/
def execMulA3 (e : Bool) (d a b : Reg) (s : State) : Out := s.alu (.mulA3 e d a b) fun _ _ => aluPair d a b .mul true mulElem
/-- MUL by an immediate (R354). -/
def execMulAi (e : Bool) (d a : Reg) (imm : BitVec 7) (s : State) : Out := s.alu (.mulAi e d a imm) fun _ t => aluImm d a (immWord t.i.ext imm) .mul mulElem
/-- MULHI (R354). -/
def execMulhi (e : Bool) (d a b : Reg) (s : State) : Out :=
  s.alu (.mulhi e d a b) fun _ _ =>
    { srcs := [a, b], tagOk := fun l => allInt32 l && sameArith l, dests := destHead d,
      run := fun _ l =>
        let sg := opTag l 0 == .si32
        wordElem (BitVec.ofNat 32 (wrapInt 64 (intOf sg 32 (opnd l 0).toNat * intOf sg 32 (opnd l 1).toNat) / 2 ^ 32)) }
/-- MA (R354): the addend is the OPERAND register, or d. -/
def execMa (e : Bool) (d a b : Reg) (s : State) : Out :=
  s.alu (.ma e d a b) fun _ t =>
    { srcs := [a, b, t.i.ext.operand.getD d], tagOk := sameArith, dests := destHead d, rounds := fun l => floatTag (headTag l),
      run := fun env l => [eachElem (opTag l 0) (maElem env) [opnd l 0, opnd l 1, opnd l 2]] }
/-- MIN of registers (R354). -/
def execMinA3 (e : Bool) (d a b : Reg) (s : State) : Out := s.alu (.minA3 e d a b) fun _ _ => aluPair d a b .uni false fun _ => minmaxElem false
/-- MIN with an immediate (R354). -/
def execMinAi (e : Bool) (d a : Reg) (imm : BitVec 7) (s : State) : Out := s.alu (.minAi e d a imm) fun _ t => aluImm d a (immWord t.i.ext imm) .uni fun _ => minmaxElem false
/-- MAX of registers (R354). -/
def execMaxA3 (e : Bool) (d a b : Reg) (s : State) : Out := s.alu (.maxA3 e d a b) fun _ _ => aluPair d a b .uni false fun _ => minmaxElem true
/-- MAX with an immediate (R354). -/
def execMaxAi (e : Bool) (d a : Reg) (imm : BitVec 7) (s : State) : Out := s.alu (.maxAi e d a imm) fun _ t => aluImm d a (immWord t.i.ext imm) .uni fun _ => minmaxElem true
/-- AND of registers (R315). -/
def execAndA3 (e : Bool) (d a b : Reg) (s : State) : Out := s.alu (.andA3 e d a b) fun _ _ => aluBits d a b .uni fun x y => x &&& y
/-- AND with an immediate (R315). -/
def execAndAi (e : Bool) (d a : Reg) (imm : BitVec 7) (s : State) : Out := s.alu (.andAi e d a imm) fun _ t => aluBitsImm d a (immWord t.i.ext imm) .uni fun x y => x &&& y
/-- OR of registers (R354). -/
def execOrA3 (e : Bool) (d a b : Reg) (s : State) : Out := s.alu (.orA3 e d a b) fun _ _ => aluBits d a b .uni fun x y => x ||| y
/-- OR with an immediate (R354). -/
def execOrAi (e : Bool) (d a : Reg) (imm : BitVec 7) (s : State) : Out := s.alu (.orAi e d a imm) fun _ t => aluBitsImm d a (immWord t.i.ext imm) .uni fun x y => x ||| y
/-- XOR of registers (18_ref R406). -/
def execXorA3 (e : Bool) (d a b : Reg) (s : State) : Out := s.alu (.xorA3 e d a b) fun _ _ => aluBits d a b .uni fun x y => x ^^^ y
/-- XOR with an immediate (R406). -/
def execXorAi (e : Bool) (d a : Reg) (imm : BitVec 7) (s : State) : Out := s.alu (.xorAi e d a imm) fun _ t => aluBitsImm d a (immWord t.i.ext imm) .uni fun x y => x ^^^ y
/-- SHL by a register (R376). -/
def execShlA3 (e : Bool) (d a b : Reg) (s : State) : Out := s.alu (.shlA3 e d a b) fun _ _ => aluBits d a b .shl shl32
/-- SHL by an immediate (R376). -/
def execShlAi (e : Bool) (d a : Reg) (imm : BitVec 7) (s : State) : Out := s.alu (.shlAi e d a imm) fun _ t => aluBitsImm d a (immWord t.i.ext imm) .shl shl32
/-- SHR by a register (R376). -/
def execShrA3 (e : Bool) (d a b : Reg) (s : State) : Out := s.alu (.shrA3 e d a b) fun _ _ => aluBits d a b .uni shr32
/-- SHR by an immediate (R376). -/
def execShrAi (e : Bool) (d a : Reg) (imm : BitVec 7) (s : State) : Out := s.alu (.shrAi e d a imm) fun _ t => aluBitsImm d a (immWord t.i.ext imm) .uni shr32
/-- SAR by a register (R376). -/
def execSarA3 (e : Bool) (d a b : Reg) (s : State) : Out := s.alu (.sarA3 e d a b) fun _ _ => aluBits d a b .uni sar32
/-- SAR by an immediate (R376). -/
def execSarAi (e : Bool) (d a : Reg) (imm : BitVec 7) (s : State) : Out := s.alu (.sarAi e d a imm) fun _ t => aluBitsImm d a (immWord t.i.ext imm) .uni sar32
/-- ROT by a register (R354). -/
def execRotA3 (e : Bool) (d a b : Reg) (s : State) : Out := s.alu (.rotA3 e d a b) fun _ _ => aluBits d a b .uni rot32
/-- ROT by an immediate (R354). -/
def execRotAi (e : Bool) (d a : Reg) (imm : BitVec 7) (s : State) : Out := s.alu (.rotAi e d a imm) fun _ t => aluBitsImm d a (immWord t.i.ext imm) .uni rot32

/-- Position and cut length of R316. -/
def fieldSpan (b : Word) : Nat × Nat := (recF b.toNat 0 5, min (recF b.toNat 8 5) (32 - recF b.toNat 0 5))
/-- BFE of R316. -/
def bfeWord (sg : Bool) (a b : Word) : Word :=
  let p := fieldSpan b
  wordOf (intOf (sg && p.2 != 0) p.2 (recF a.toNat p.1 p.2))
/-- BFI of R316. -/
def bfiWord (a b d : Word) : Word :=
  let p := fieldSpan b
  let m : Word := BitVec.ofNat 32 ((2 ^ p.2 - 1) * 2 ^ p.1)
  (d &&& ~~~m) ||| ((a <<< p.1) &&& m)

/-- BFE (15_ref R315, R316). -/
def execBfe (e : Bool) (d a b : Reg) (s : State) : Out :=
  s.alu (.bfe e d a b) fun _ _ =>
    { srcs := [a, b], tagOk := fun l => isInt32 (l.getD 1 .raw), dests := destHead d, run := fun _ l => wordElem (bfeWord (opTag l 0 == .si32) (opnd l 0) (opnd l 1)) }
/-- BFI (R315, R316). -/
def execBfi (e : Bool) (d a b : Reg) (s : State) : Out :=
  s.alu (.bfi e d a b) fun _ _ =>
    { srcs := [a, b, d], tagOk := fun l => isInt32 (l.getD 1 .raw), dests := fun l => [(d.toNat, l.getD 2 .si32)],
      run := fun _ l => wordElem (bfiWord (opnd l 0) (opnd l 1) (opnd l 2)) }

/-- The pair sum of LEA (16_ref R353). -/
def leaPair (lo hi : Word) (add : Int) : List (List (Nat × Nat)) :=
  let v := wrapInt 64 ((lo.toNat + hi.toNat * 2 ^ 32 : Nat) + add)
  [[(v % 2 ^ 32, 0)], [(v / 2 ^ 32, 0)]]
/-- Both registers of a UI32 pair. -/
def destPair (d : Reg) (_ : List Tag) : List (Nat × Tag) := [(d.toNat, .ui32), (d.toNat + 1, .ui32)]

/-- LEA of registers (R353). -/
def execLeaA3 (e : Bool) (d a b : Reg) (s : State) : Out :=
  s.alu (.leaA3 e d a b) fun _ _ =>
    { srcs := [a, a + 1, b], tagOk := allInt32, dests := destPair d, run := fun _ l => leaPair (opnd l 0) (opnd l 1) (opnd l 2).toInt }
/-- LEA of an immediate (R353). -/
def execLeaAi (e : Bool) (d a : Reg) (imm : BitVec 7) (s : State) : Out :=
  s.alu (.leaAi e d a imm) fun _ t =>
    { srcs := [a, a + 1], tagOk := allInt32, dests := destPair d, run := fun _ l => leaPair (opnd l 0) (opnd l 1) (t.i.ext.immediate imm.toNat 7) }

/-- MOV (R354). -/
def execMov (e : Bool) (d a : Reg) (s : State) : Out :=
  s.alu (.mov e d a) fun _ _ => { srcs := [a], tagOk := anyTags, dests := destHead d, rule := .keep, run := fun _ l => wordElem (opnd l 0) }
/-- NEG (R354). -/
def execNeg (e : Bool) (d a : Reg) (s : State) : Out :=
  s.alu (.neg e d a) fun _ _ => { srcs := [a], tagOk := headArith, dests := destHead d, run := fun _ l => [eachElem (opTag l 0) negElem [opnd l 0]] }
/-- ABS (R315). -/
def execAbs (e : Bool) (d a : Reg) (s : State) : Out :=
  s.alu (.abs e d a) fun _ _ => { srcs := [a], tagOk := headArith, dests := destHead d, run := fun _ l => [eachElem (opTag l 0) absElem [opnd l 0]] }
/-- NOT (R354). -/
def execNotR (e : Bool) (d a : Reg) (s : State) : Out :=
  s.alu (.notR e d a) fun _ _ => { srcs := [a], tagOk := anyTags, dests := destHead d, run := fun _ l => wordElem (~~~(opnd l 0)) }

/-- Set bits among the low n. -/
def popCount (w : Word) : Nat → Nat
  | 0 => 0
  | n + 1 => bit01 (w.getLsbD n) + popCount w n
/-- Leading zeros of the low n bits. -/
def leadZeros (w : Word) : Nat → Nat
  | 0 => 0
  | n + 1 => if w.getLsbD n then 0 else 1 + leadZeros w n
/-- The bits in reverse. -/
def revBits (w : Word) : Nat → Nat
  | 0 => 0
  | n + 1 => revBits w n + bit01 (w.getLsbD n) * 2 ^ (31 - n)

/-- POPC (R354). -/
def execPopc (e : Bool) (d a : Reg) (s : State) : Out :=
  s.alu (.popc e d a) fun _ _ => { srcs := [a], tagOk := anyTags, dests := destTag d .ui32, run := fun _ l => [[(popCount (opnd l 0) 32, 0)]] }
/-- CLZ (R315). -/
def execClz (e : Bool) (d a : Reg) (s : State) : Out :=
  s.alu (.clz e d a) fun _ _ => { srcs := [a], tagOk := anyTags, dests := destTag d .ui32, run := fun _ l => [[(leadZeros (opnd l 0) 32, 0)]] }
/-- BREV (R315). -/
def execBrev (e : Bool) (d a : Reg) (s : State) : Out :=
  s.alu (.brev e d a) fun _ _ => { srcs := [a], tagOk := anyTags, dests := destHead d, run := fun _ l => [[(revBits (opnd l 0) 32, 0)]] }

/-- Signed or unsigned bytes of a word. -/
def bytesInt (sg : Bool) (w : Word) : List Int := (List.range 4).map fun i => intOf sg 8 (recF w.toNat (8 * i) 8)

/-- DOT4 (04_matrix R131). -/
def execDot4 (e : Bool) (d a b : Reg) (s : State) : Out :=
  s.alu (.dot4 e d a b) fun _ t =>
    { srcs := [a, b, t.i.ext.operand.getD d],
      tagOk := fun l => ((l.getD 0 .raw == .si8x4 && l.getD 1 .raw == .si8x4) || (l.getD 0 .raw == .ui8x4 && l.getD 1 .raw == .ui8x4)) && isInt32 (l.getD 2 .raw),
      dests := fun l => [(d.toNat, l.getD 2 .si32)],
      run := fun _ l =>
        let sg := opTag l 0 == .si8x4
        wordElem (wordOf (((bytesInt sg (opnd l 0)).zip (bytesInt sg (opnd l 1))).foldl (fun acc p => acc + p.1 * p.2) ((opnd l 2).toNat : Int))) }

/-- One step of DOTT (04_matrix R130). -/
def dottAdd (acc x w : Int) : Int := if 0 < w then acc + x else if w < 0 then acc - x else acc

/-- DOTT (R130). -/
def execDott (e : Bool) (d a b : Reg) (s : State) : Out :=
  s.alu (.dott e d a b) fun _ t =>
    { srcs := [a, b, t.i.ext.operand.getD d],
      tagOk := fun l => l.getD 0 .raw == .si8x4 && l.getD 1 .raw == .si8x4 && isInt32 (l.getD 2 .raw),
      dests := fun l => [(d.toNat, l.getD 2 .si32)],
      run := fun _ l =>
        let ps := (bytesInt true (opnd l 0)).zip (bytesInt true (opnd l 1))
        [[((wordOf (ps.foldl (fun acc p => dottAdd acc p.1 p.2) ((opnd l 2).toNat : Int))).toNat, if ps.any fun p => decide (p.2 < -1 ∨ 1 < p.2) then flTC else 0)]] }

/-- LDI (16_ref R352): one register, or a pair under two IMM words. -/
def execLdi (e : Bool) (d : Reg) (imm : BitVec 14) (s : State) : Out :=
  s.alu (.ldi e d imm) fun _ t =>
    let v := wrapInt 64 (t.i.ext.immediate imm.toNat 14)
    { srcs := [], tagOk := anyTags,
      dests := fun _ => if t.i.ext.imm.length == 2 then [(d.toNat, .si32), (d.toNat + 1, .si32)] else [(d.toNat, .si32)],
      run := fun _ _ => [[(v % 2 ^ 32, 0)], [(v / 2 ^ 32, 0)]] }

end Sys2Proof.Machine
end

