-- ==== Sys2Proof/Machine/Order.lean ====
section
/-! DEFINITION. Order of outstanding operations and what acquires and releases do to the caches and buffers of a core (05_memory R136, R139, R141, 06_consistency R156 to R165, R172). -/
namespace Sys2Proof.Machine

/-- The bytes a piece of work touches. -/
def Work.spans : Work → List (Place × Nat)
  | .load p _ n _ _ _ => [(p, 4 * n)]
  | .atom p _ _ _ _ => [(p, 4)]
  | .cas p _ _ _ => [(p, 4)]
  | .store p bs _ => [(p, bs.length)]
  | .settle p => [(p, 4)]
  | .red p _ _ _ => [(p, 4)]
  | .hostAtom p _ _ _ _ => [(p, 4)]
  | .fill ps _ _ => ps.map fun p => (p, 64)
  | .drain ps _ _ _ => ps.map fun p => (p, 64)
  | .drained ps _ => ps.map fun p => (p, 64)
  | _ => []

/-- Loads and the read side of atomics; INVAL is an acquire and stands with them. -/
def Work.reads : Work → Bool
  | .load .. | .atom .. | .cas .. | .hostAtom .. | .fill .. | .lines false .. => true
  | _ => false

/-- Stores and everything with a write side; FLUSH is a release and stands with them. -/
def Work.writes : Work → Bool
  | .store .. | .drain .. | .drained .. | .atom .. | .cas .. | .hostAtom .. | .red .. | .settle .. | .append .. | .workRecord .. | .lines true .. => true
  | _ => false

def Work.isFence : Work → Bool
  | .fence .. => true
  | _ => false

/-- Two operations of one fibre. -/
def Op.sharesFibre (a b : Op) : Bool := a.crew == b.crew && a.ranks.any fun k => b.ranks.contains k
/-- A sequence in common. -/
def Op.sharesSeq (a b : Op) : Bool := a.seqs &&& b.seqs != 0
/-- A byte in common. -/
def Op.meets (a b : Op) : Bool := a.work.spans.any fun p => b.work.spans.any fun q => placesMeet p.1 p.2 q.1 q.2

/-- Program order of a sequence among the fibres of a core (R158): every two accesses, but for a load after a store. -/
def Op.inOrder (old new : Op) : Bool :=
  old.sharesFibre new && old.sharesSeq new && (old.work.reads || (old.work.writes && new.work.writes)) && (new.work.reads || new.work.writes)

/-- Loads, stores, atomics, contributions and the accesses of tiles: beyond their core nothing but happens-before, dependences and their locations orders them (R159). -/
def Work.plain : Work → Bool
  | .load .. | .store .. | .atom .. | .cas .. | .red .. | .fill .. | .drain .. | .drained .. => true
  | _ => false

/-- Two plain accesses that only a narrow acquire or release stands between: a load behind an acquire, a release over an older store, at a scope below PKG. To agents beyond the instance of that scope they are relaxed (R157), and no edge of R164 ties them, so such agents may see the newer one first. -/
def Op.relaxedPair (old new : Op) : Bool :=
  old.work.plain && new.work.plain && (!old.acq || (old.scope < 3 && !new.work.writes)) && (!new.rel || (new.scope < 3 && !old.work.reads))

/-- An older operation of the fibre keeps a newer one from taking effect anywhere: behind an acquire, before a release (R161), but for those narrower than PKG, and around the operations on ranges and objects, in program order; issue order at one location (R165), and ascending rank among the fibres of one issue (R166, 17_ref R388). Dependences hold since an operand has landed before its reader issues (R164). -/
def Op.before (old new : Op) : Bool :=
  (old.inOrder new && !old.relaxedPair new) || (old.sharesFibre new && old.meets new) ||
  (old.crew == new.crew && old.run == new.run && (old.work.writes || new.work.writes) && old.meets new)

/-- The run that issued an operation still issues: its results reach their registers when it has ended, so that its later instructions read the old values and tags (01_execution R28). -/
def State.runOn (s : State) (o : Op) : Bool := (s.cur.toList ++ s.waiting).any fun i => i.crew == o.crew && i.run == o.run && !i.commit

/-- What a fence orders (R163): whether it keeps `new` behind an older event `old`. -/
def fenceOrders (k : FenceKind) (old new : Work) : Bool :=
  match k with
  | .acq => old.reads
  | .rel => new.writes
  | .acqRel => old.reads || new.writes
  | .sc => true

/-- A fibre's stores, in some sequences, have written a host-window sector (05_memory R141), or its loads have read it so (06_consistency R161). -/
def CacheSector.wroteBy (c : CacheSector) (crew rank : Nat) (seqs : BitVec 16) : Bool :=
  c.writers.any fun w => w.crew == crew && w.rank == rank && w.seqs &&& seqs != 0

/-- A host-window sector that a release of a fibre at SYS first writes back: the fibre has written it or read it so, or a release has passed it on, and the fibre may build on that (05_memory R141, 06_consistency R161; log 36). -/
def CacheSector.owedBy (c : CacheSector) (crew rank : Nat) (seqs : BitVec 16) : Bool :=
  (c.passedOn || c.wroteBy crew rank seqs) && c.dirty.any fun b => b

/-- Host-window sectors a fibre left dirty in some sequences cannot reach the host while its link is down (14_system R307): a release at SYS waits (05_memory R141). -/
def State.hostStuck (s : State) (crew rank : Nat) (seqs : BitVec 16) : Bool :=
  s.hostLost && s.hostL2.any fun c => c.owedBy crew rank seqs

/-- An outstanding operation older than a fence of its fibre keeps `new` back; a fence that covers a frozen sequence keeps back all it covers (13_fabric R292). -/
def State.fenced (s : State) (new : Op) : Bool :=
  s.ops.any fun f =>
    match f.work with
    | .fence kind mask =>
      f.id < new.id && f.sharesFibre new && mask &&& new.seqs != 0 &&
      (f.ranks.any (fun k => s.freezes f.crew k mask f.id) || (kind != .acq && 5 ≤ f.scope && new.work.writes && s.hostStuck f.crew f.rank mask) || s.ops.any fun old => old.id < f.id && old.sharesFibre f && mask &&& old.seqs != 0 && (old.work.reads || old.work.writes) && fenceOrders kind old.work new.work)
    | _ => false

/-- The page of an access is held so, and it is not one of those held at the switch that now go first (R267). -/
def State.migHeld (s : State) (o : Op) : Bool :=
  o.work.spans.any fun p => s.placeHeld p.1 && !(s.migrations.any fun m => m.st == .settling && m.held.contains o.id)

/-- An older remote request waits at the source port and a plain local access of its sequence goes on (R292). -/
def State.passes (s : State) (old new : Op) : Bool := (old.frozen || s.frozenHeld old) && new.peer.isNone && !new.acq && !new.rel && !old.meets new

/-- An overtaking access that still has an older one before it. -/
def State.overtakenNow (s : State) (z : Overtaken) : Bool := z.older.any fun i => s.ops.any fun x => x.id == i && x.seqs != 0

/-- Cores in one instance of a scope below PKG (R157). -/
def inInstance (scope a b : Nat) : Bool :=
  match scope with
  | 0 => a == b
  | 1 => quadOf a == quadOf b
  | _ => dieOf a == dieOf b

/-- Bytes of an access of other fibres of a core, or of the instance of a scope, that an overtaking one has touched: they wait for what it overtook (R157, R158). -/
def State.shadowed (s : State) (core crew : Nat) (ranks : List Nat) (writes : Bool) (spans : List (Place × Nat)) : Bool :=
  s.overtaken.any fun z => inInstance z.scope z.core core && !(z.crew == crew && z.ranks.any fun k => ranks.contains k) && (z.writes || writes) && s.overtakenNow z &&
    z.spans.any fun p => spans.any fun q => placesMeet p.1 p.2 q.1 q.2

/-- The older operations of its sequence that an operation would overtake now; one that a freeze holds is none (13_fabric R292). -/
def State.overtakes (s : State) (o : Op) : List Nat := (s.ops.filter fun x => x.id < o.id && x.inOrder o && !s.passes x o).map fun x => x.id

/-- Nothing but its own fibre keeps an older operation back. -/
def State.ownCourse (s : State) (o x : Op) : Bool :=
  x.ranks == o.ranks && !(s.ops.any fun p => p.id < x.id && p.before x && p.ranks != o.ranks) &&
  !(x.work.isAtomic && (s.runOn x || s.ops.any fun y => y.id != x.id && y.crew == x.crew && y.run == x.run && y.meets x))

/-- What an overtaking access of another fibre waits for touches the bytes of an operation. -/
def State.wantedBy (s : State) (o : Op) (z : Overtaken) : Bool :=
  !(z.crew == o.crew && z.ranks == o.ranks) && s.overtakenNow z &&
    s.ops.any fun x => x.crew == z.crew && (x.ranks.any fun k => z.ranks.contains k) && z.older.any (fun i => x.id ≤ i) && x.meets o

/-- An operation may overtake where no circle of waiting could arise: what it overtakes waits for no other fibre, neither by order nor for what another has overtaken, and nothing another has overtaken will wait for it. -/
def State.mayOvertake (s : State) (o : Op) : Bool :=
  !(s.overtaken.any (s.wantedBy o)) &&
  (s.ops.filter fun x => x.id < o.id && x.sharesFibre o).all fun x => s.ownCourse o x && !s.shadowed x.core x.crew x.ranks x.work.writes x.work.spans

/-- The widest scope of the acquires and releases that an operation goes ahead of, or carries, as it overtakes (R157). -/
def State.overtakenScope (s : State) (o : Op) : Nat :=
  (s.ops.filter fun x => (s.overtakes o).contains x.id && x.acq).foldl (fun m x => max m x.scope) (if o.rel then o.scope else 0)

/-- An operation has taken effect: those it overtook are remembered. -/
def State.overtake (s : State) (o : Op) : State :=
  let l := s.overtakes o
  let z : List Overtaken := if l.isEmpty || o.work.spans.isEmpty then [] else [⟨o.core, o.crew, o.ranks, o.work.spans, o.work.writes, l, s.overtakenScope o⟩]
  { s with overtaken := s.overtaken ++ z }

/-- A request travels on a plane of Filsis: every remote one, but for the records of a work channel over Ultra Ethernet (13_fabric R287, R294, R295). -/
def State.onFilsis (s : State) (o : Op) : Bool :=
  o.peer.isSome && (match o.work with
    | .workRecord chan _ _ => !(s.workChans.any fun w => w.chan == chan && recF (cellNat s.mem w.desc 64) 112 1 == 1)
    | _ => true)

/-- No plane of Filsis lives (13_fabric R288). -/
def State.noPlane (s : State) : Bool := s.livePlanes.all fun b => !b

/-- An operation has left its core: nothing freezes, parks or holds it, a plane carries it (13_fabric R288), no older operation or fence is in its way, and the fibres of its core see the order they must (R158). -/
def State.opSent (s : State) (o : Op) : Bool :=
  !o.frozen && !(o.host && s.hostLost) && !(o.rel && 5 ≤ o.scope && s.hostStuck o.crew o.rank o.seqs) && !(s.onFilsis o && s.noPlane) && !s.migHeld o && !s.frozenHeld o &&
  !((o.acq || o.rel) && o.ranks.any fun k => s.freezes o.crew k o.seqs o.id) &&
  !(s.ops.any fun old => old.id < o.id && old.before o && !s.passes old o) && !s.fenced o &&
  !s.shadowed o.core o.crew o.ranks o.work.writes o.work.spans && ((s.overtakes o).isEmpty || s.mayOvertake o)

/-- The lines of another package that a request names: of a work record, the lines of its slot in the ring (13_fabric R287, R296). -/
def State.remoteLines (s : State) (o : Op) : List Nat :=
  match o.work with
  | .workRecord chan handle _ =>
    (s.workChans.filter fun w => w.chan == chan).map fun w =>
      let d := cellNat s.mem w.desc 64
      (recF d 0 64 + 128 * (handle.toNat % 2 ^ 20 % 2 ^ (recF d 128 4 + 4))) / 128
  | _ => o.work.spans.filterMap fun p => match p.1 with | .mem x _ _ _ => some (x / 128) | .scratch .. => none

/-- Two requests of this package for one line of another. -/
def State.sameLine (s : State) (a b : Op) : Bool :=
  a.peer.isSome && a.peer == b.peer && (s.remoteLines a).any fun x => (s.remoteLines b).contains x

/-- A request sent and not yet answered is on its way to a line of another package (13_fabric R287): an access of an engine, a unit or a fetch waits behind it. -/
def State.lineBusy (s : State) (pa : Nat) : Bool :=
  paPeer pa != s.pkg && s.ops.any fun o => o.peer == some (paPeer pa) && s.opSent o && (s.remoteLines o).contains (pa / 128)

/-- An operation may take effect now: it has left its core, and of the requests for one line of another package none that left before it is still to be answered (13_fabric R287). -/
def State.opReady (s : State) (o : Op) : Bool := s.opSent o && !(s.ops.any fun old => old.id < o.id && s.sameLine old o && s.opSent old)

/-- An acquire at a scope wider than CORE drops the L1 sectors of the core; at POD or SYS the remote-read copies of the die (R136, R139), and at PKG too, where a write of another die may happen before it (06_consistency R162; log 41). -/
def State.acquire (s : State) (core scope : Nat) : State :=
  { s with
    l1 := if 1 ≤ scope then s.l1.filter fun c => c.unit != core else s.l1
    remoteCache := if 3 ≤ scope then s.remoteCache.filter fun c => c.unit != dieOf core else s.remoteCache
    synced := if 3 ≤ scope && !s.synced.contains core then core :: s.synced else s.synced }

/-- The acquire part of a load or an atomic at a home of this package (R160): with no release made since its core last dropped its copies there is none it could read, so nothing happens before it that a copy could miss, and by a free bit it drops nothing and orders as a relaxed access does (R159, R161, R162; log 36). -/
def State.acquireRead (s : State) (o : Op) (p : Place) : State :=
  let none_ : Bool := s.synced.contains o.core && !(s.overtaken.any fun z => z.scope != 0) && o.peer.isNone && (match p with | .mem pa _ _ _ => paPeer pa == s.pkg && inHbm (paLocal pa) | .scratch .. => false)
  if !o.acq then s
  else if !none_ then s.acquire o.core o.scope
  else if Config.freeBit s.free then s.bumpFree
  else s.bumpFree.acquire o.core o.scope

/-- Sectors written back are clean; none reaches the host while its link is down (14_system R307). -/
def State.cleanSectors (s : State) (p : CacheSector → Bool) : State :=
  if s.hostLost then s else
  let s1 := (s.hostL2.filter p).foldl State.writeBack s
  { s1 with hostL2 := s1.hostL2.map fun c => if p c then { c with dirty := List.replicate 32 false, passedOn := false } else c }

/-- A release of a fibre on some sequences: its contributions reach the slices (R172), and at SYS the dirty host sectors behind it are written back (R141); a narrower one passes them on. -/
def State.release (s : State) (crew rank scope : Nat) (seqs : BitVec 16) : State :=
  let s1 := s.released.passContribs fun c => c.crew == crew && c.rank == rank
  if scope < 5 then { s1 with hostL2 := updWhere (fun c => c.wroteBy crew rank seqs && c.dirty.any fun b => b) (fun c => { c with passedOn := true }) s1.hostL2 }
  else s1.cleanSectors fun c => c.owedBy crew rank seqs

/-- A fence is done: no older access of its sequences is left, none of them is frozen (13_fabric R292), and what it releases can reach the host. -/
def State.fenceDue (s : State) (f : Op) : Bool :=
  match f.work with
  | .fence kind mask =>
    !(s.ops.any fun o => o.id < f.id && o.sharesFibre f && mask &&& o.seqs != 0 && (o.work.reads || o.work.writes)) &&
    !(f.ranks.any fun k => s.freezes f.crew k mask f.id) && !(kind != .acq && 5 ≤ f.scope && s.hostStuck f.crew f.rank mask)
  | _ => false

/-- Fences that are done go; each releases and acquires then (R161, R163). -/
def State.gcFences (s : State) : State :=
  let due := s.fenceDue
  let s1 := (s.ops.filter due).foldl (fun (st : State) f => match f.work with
    | .fence kind mask =>
      let st1 := if kind == .acq then st else st.release f.crew f.rank f.scope mask
      if kind == .rel then st1 else st1.acquire f.core f.scope
    | _ => st) s
  { s1 with ops := s1.ops.filter fun f => !due f }

/-- The mask of one sequence. -/
def seqBit (n : BitVec 4) : BitVec 16 := 1#16 <<< n.toNat

/-- Acquire part of the fences of a fibre whose earlier loads have all landed (R163). -/
def State.fenceAcquires (s : State) (crew rank core : Nat) : State :=
  let due := s.ops.filter fun f => match f.work with
    | .fence kind mask => f.crew == crew && f.ranks.contains rank && kind != .rel &&
        !(s.ops.any fun o => o.id < f.id && o.sharesFibre f && o.work.reads && mask &&& o.seqs != 0)
    | _ => false
  due.foldl (fun (st : State) f => st.acquire core f.scope) s

/-- An operation has finished: it is removed, an overtaking with nothing older left is forgotten (what a narrow release went ahead of has now been performed, too), fences it was the last to hold act, and the counts of its fibres retire (18_ref R405). -/
def State.retireOp (s : State) (o : Op) : State :=
  let s0 : State := { s.overtake o with ops := s.ops.filter fun x => x.id != o.id }
  let s1 : State := { s0 with
    overtaken := s0.overtaken.filter s0.overtakenNow
    synced := if s0.overtaken.any fun z => z.scope != 0 && !s0.overtakenNow z then [] else s0.synced }
  ((o.ranks.foldl (fun (st : State) k => st.fenceAcquires o.crew k o.core) s1).gcFences).modRanks o.crew o.ranks fun _ f => (f.opDone o.id).woken (awaitCount :: o.work.regs) s.cycles

/-- Outstanding operations of a fibre. -/
def State.opsOf (s : State) (crew rank : Nat) : List Op := s.ops.filter fun o => o.crew == crew && o.ranks.contains rank

/-- Accesses of a fibre on some sequences are still outstanding, or one of the sequences is frozen: a release of those sequences that acts at issue waits (R161, 13_fabric R292). -/
def State.seqBusy (s : State) (crew rank : Nat) (mask : BitVec 16) : Bool :=
  s.freezes crew rank mask s.nextId ||
  s.ops.any fun o => o.crew == crew && o.ranks.contains rank && mask &&& o.seqs != 0 && (o.work.reads || o.work.writes)

/-- A step that counts as a store in some sequences waits for the fences before it that cover one: those that release for every older access, those that acquire for the loads (R163, 08_copies R204). -/
def State.fenceHolds (s : State) (crew rank : Nat) (seqs : BitVec 16) : Bool :=
  s.ops.any fun f => match f.work with
    | .fence kind mask => f.crew == crew && f.ranks.contains rank && mask &&& seqs != 0 &&
        s.ops.any fun o => o.id < f.id && o.sharesFibre f && mask &&& o.seqs != 0 && (o.work.reads || (kind != .acq && o.work.writes))
    | _ => false

/-- The contributions a fibre has in its core's buffer for some bytes go on to their slice, before a later write of the fibre there (R165). -/
def State.passOwn (s : State) (crew rank : Nat) (p : Place) (n : Nat) : State :=
  s.passContribs fun y => y.crew == crew && y.rank == rank && placesMeet y.place 4 p n

/-- The copies of the sectors of an access leave the L1 of a core, and the remote-read cache of its die (05_memory R137, R139). -/
def State.dropCopies (s : State) (core : Nat) (p : Place) (n : Nat) : State :=
  match p with
  | .mem pa _ _ _ =>
    let hit (x : CacheSector) : Bool := pa / 32 ≤ x.sector && x.sector ≤ (pa + n - 1) / 32
    { s with l1 := s.l1.filter fun x => !(x.unit == core && hit x), remoteCache := s.remoteCache.filter fun x => !(x.unit == dieOf core && hit x) }
  | .scratch .. => s

end Sys2Proof.Machine
end

