-- ==== Sys2Proof/Machine/Fibres.lean ====
section
/-! DEFINITION. Steps of fibres that several instructions and events share: barriers, retirement, creation, redirection and waiting at a gate (01_execution R13 to R18, 15_ref R321). -/
namespace Sys2Proof.Machine

/-- CheckPhase of the crew barrier (R321), and the converged flag of R18. -/
def Crew.checkPhase (c : Crew) : Crew :=
  let live := c.fibres.filter fun f => f.live
  if live.isEmpty || !live.all (fun f => f.arrivedCrew) then c
  else
    let waits : Bool := live.all fun f => match f.gate with | some g => g.arrived && !g.team && g.pc == f.pc | none => false
    { c with barPhase := !c.barPhase, fibres := c.fibres.map (fun f => { f with arrivedCrew := false }), converged := c.converged || (waits && c.together) }

/-- CheckPhase of a team barrier (R321). -/
def State.checkTeam (s : State) (team : Nat) : State :=
  let crews := s.crews.filter fun c => c.team == team && c.life != .completed
  let live := crews.flatMap fun c => c.fibres.filter fun f => f.live
  if live.isEmpty || !live.all (fun f => f.arrivedTeam) then s
  else
    { s with
      teams := updWhere (fun t => t.id == team) (fun t => { t with phase := !t.phase }) s.teams
      crews := updWhere (fun c => c.team == team) (fun c => Crew.wakeAll { c with fibres := c.fibres.map fun f => { f with arrivedTeam := false } } [awaitCount] s.cycles) s.crews }

/-- CheckPhase of the crew barrier, with the cycle at which it completed (10_scheduling R247). -/
def Crew.checkPhaseAt (c : Crew) (now : Nat) : Crew := if c.checkPhase.barPhase != c.barPhase then c.checkPhase.wakeAll [awaitCount] now else c.checkPhase

/-- Both barriers of a crew are checked. -/
def State.checkBars (s : State) (crew : Nat) : State :=
  let s1 := s.modCrew crew fun c => c.checkPhaseAt s.cycles
  match s1.getCrew crew with
  | some c => s1.checkTeam c.team
  | none => s1

/-- Arrive of R321. -/
def State.arriveBar (s : State) (crew rank : Nat) (team : Bool) : State :=
  (s.modFib crew rank fun f => if team then { f with arrivedTeam := true } else { f with arrivedCrew := true }).checkBars crew

/-- A fibre that is no more neither holds the serial token nor stands in its queue (07_transactions R189; log 61). -/
def State.dropRequest (s : State) (crew rank : Nat) : State :=
  { s with token := ⟨if s.token.holder == some (crew, rank) then none else s.token.holder, s.token.queue.filter fun q => !(q.1 == crew && q.2.1 == rank)⟩ }

/-- Retirement of R15, R374: results not landed are discarded, pending interrupts too (08_copies R206), and the barriers stop counting the fibre; its registrations at pipes stand (09_crumbs R230). -/
def State.retireFibre (s : State) (crew rank : Nat) : State :=
  let s1 := s.discardResults crew rank fun _ => true
  let s2 := s1.modFib crew rank fun f =>
    { f with live := false, st := .retired, gate := none, meeting := none, tx := none, begins := none, uiPend := [none, none, none, none], arrivedCrew := false, arrivedTeam := false, restart := false, deferred := none, trapMode := false, uiAct := false }
  (State.checkBars { s2.dropRequest crew rank with misses := s2.misses.map fun m => if m.crew == crew then { m with ranks := m.ranks.filter fun k => k != rank } else m } crew).modCrew crew Crew.fixConv

/-- Fibres of the issue go on elsewhere, Ready there (R22). -/
def State.redirect (s : State) (t : Turn) (l : List (Nat × PcAddr)) : State × Turn :=
  (l.foldl (fun (st : State) p => st.modFib t.i.crew p.1 fun f => { f with pc := p.2, st := .ready, stamp := st.cycles }) s,
   { t with gone := t.gone ++ l.map fun p => p.1 })

/-- Fibres of the issue leave it in a state of waiting, at the next word. -/
def State.suspend (s : State) (t : Turn) (st : FState) (l : List Nat) : State × Turn :=
  (s.modRanks t.i.crew l fun _ f => { f with pc := t.i.pc + 4, st := st }, { t with gone := t.gone ++ l })

/-- The issue goes back to wait at its gate. -/
def State.unissue (s : State) (t : Turn) : Out :=
  .next (State.modRanks { s with cur := none } t.i.crew t.i.ranks fun _ f => if f.st == .issuing then { f with st := .blocked, awaits := [awaitGate], pc := t.i.group } else f)

/-- The gate is behind the fibres. -/
def State.passGate (s : State) (t : Turn) : State :=
  s.modRanks t.i.crew t.i.ranks fun _ f => { f with gate := none, meeting := none }

/-- Gangs of an executing set, ascending. -/
def gangsOf (x : List Nat) : List Nat := x.foldl (fun l k => if l.contains (k / 16) then l else l ++ [k / 16]) []

/-- A step that touches no memory, in each executing fibre, in ascending rank. -/
def State.eachRank (s : State) (x : List Nat) (f : State → Nat → State) : State := x.foldl f s

/-- The converged flag is cleared (R18). -/
def State.diverge (s : State) (crew : Nat) : State := s.modCrew crew fun c => { c with converged := false }

/-- An address reached by a signed number of words (02_encoding R67). -/
def wordTarget (pc : PcAddr) (off : Int) : PcAddr := pc + BitVec.ofInt 57 (4 * off)

/-- BAR or BARW at its gate (01_execution R24, 15_ref R321): BAR arrives when it first reaches the gate, as a release of everything before it (06_consistency R160); the gate holds once no arrival is pending. -/
def State.barGate (s : State) (crew rank : Nat) (arrives team : Bool) (pc : PcAddr) : State :=
  match s.getCrew crew with
  | none => s
  | some c =>
    match c.fib rank with
    | none => s
    | some f =>
      if (match f.gate with | some g => g.pc == pc && g.arrived | none => false) || (arrives && s.seqBusy crew rank 0xFFFF) then s
      else
        let s1 := s.modFib crew rank fun f => { f with gate := some ⟨pc, true, team, none⟩ }
        if arrives then (s1.release crew rank (if team then 2 else 0) 0xFFFF).arriveBar crew rank team else s1

/-- Whether the barrier gate holds for a fibre. -/
def Fibre.barHolds (f : Fibre) (team : Bool) : Bool := f.gate.isSome && !(if team then f.arrivedTeam else f.arrivedCrew)

/-- Whether a fibre may pass the barrier gate it waits at: as an acquire of every sequence it waits for a freeze to end (13_fabric R292). -/
def State.barPasses (s : State) (crew k : Nat) (team : Bool) : Bool :=
  match (s.getCrew crew).bind fun c => c.fib k with
  | some f => f.barHolds team && !s.freezes crew k 0xFFFF s.nextId
  | none => false

/-- WAIT's gate (18_ref R404). -/
def Fibre.waitHolds (f : Fibre) (loads stores copies tiles : BitVec 4) : Bool :=
  let ok (cls : OpClass) (n : BitVec 4) : Bool := n == 15 || decide ((f.counts.filter fun c => c.cls == cls).length ≤ n.toNat)
  ok .loads loads && ok .stores stores && ok .copies copies && ok .tiles tiles

/-- WAIT's gate for a fibre: while a sequence of it is frozen at a request of a class that has a limit, it does not hold (18_ref R404, 13_fabric R292). -/
def State.waitHolds (s : State) (crew k : Nat) (f : Fibre) (loads stores copies tiles : BitVec 4) : Bool :=
  let limit (cls : OpClass) : BitVec 4 := match cls with | .loads => loads | .stores => stores | .copies => copies | .tiles => tiles
  f.waitHolds loads stores copies tiles && !(s.frozen.any fun z => z.crew == crew && z.rank == k && f.counts.any fun x => x.op == z.op && limit x.cls != 15)

/-- An instruction whose result an engine or object returns (01_execution R27): each executing fibre, in ascending rank, takes one step on it, and the registers and predicate land later, always G (R39). -/
structure EnginePlan (α : Type) where
  srcs : List Reg
  dests : List (Nat × Tag)
  pd : Option PReg := none
  busy : State → Crew → Nat → Bool := fun _ _ _ => false
  check : State → Crew → Nat → List (Word × Tag) → Chk α
  step : State → Crew → Nat → α → State × List Word × Bool

/-- The steps of several fibres, in order. -/
def EnginePlan.run {α : Type} (p : EnginePlan α) (c : Crew) (s : State) : List (Nat × α) → State × List (Nat × List Word × Bool)
  | [] => (s, [])
  | (k, v) :: r =>
    let (s1, ws, b) := p.step s c k v
    let (s2, l) := p.run c s1 r
    (s2, (k, ws, b) :: l)

/-- The registers and the predicate that the steps of an instruction give. -/
def EnginePlan.results {α : Type} (p : EnginePlan α) (res : List (Nat × List Word × Bool)) : List Dest :=
  (p.dests.zip (List.range p.dests.length)).map fun d => destG d.1.1 d.1.2 (res.map fun r => (r.1, r.2.1.getD d.2 0))
def EnginePlan.predResults {α : Type} (p : EnginePlan α) (res : List (Nat × List Word × Bool)) : List (Nat × PReg × Bool) :=
  match p.pd with
  | some q => res.map fun r => (r.1, q, r.2.2)
  | none => []

/-- Every fibre that has passed its checks has a poisoned operand, and the shape step fails for them: ShapeOverflow comes first (11_faults R252). -/
def EnginePlan.overflows {α : Type} (p : EnginePlan α) (c : Crew) (done vals : List Nat) : Bool :=
  done.isEmpty && !vals.isEmpty && (c.prepare (p.dests.map fun d => destG d.1 d.2 []) vals).isNone

/-- The course of such an instruction. -/
def State.engine {α : Type} (s : State) (ins : Instr) (p : EnginePlan α) : Out :=
  s.perform ins fun s c t =>
    if t.x.any fun k => p.busy s c k then s.stall t else
    match s.checkAll c t.x p.srcs (p.check s c) with
    | none => s.stall t
    | some (vals, traps) =>
      let sp := s.splitPoison c p.srcs vals
      let done := sp.1.map fun v => v.1
      match (if done.isEmpty then some c else c.prepare (p.dests.map fun d => destG d.1 d.2 []) done) with
      | none => s.finishTraps t (traps ++ overflowAll (vals.map fun v => v.1)) []
      | some _ =>
        let r := p.run c s sp.1
        match (r.1.modRanks c.id done fun _ f => f.popAll p.srcs).landLater t done (p.results r.2) (p.predResults r.2) [] with
        | none => .next r.1
        | some s2 => s2.finishTraps t (traps ++ if p.overflows c done (vals.map fun v => v.1) then overflowAll (vals.map fun v => v.1) else sp.2) done

end Sys2Proof.Machine
end

