-- ==== Sys2Proof/Machine/Control.lean ====
section
/-! DEFINITION. Control transfer, fibre life, barriers, waits and fences (02_encoding R67, 06_consistency R163, 11_faults R257, 15_ref R320 to R325, 16_ref R336, R361, R371, R372, R374, 17_ref R383, R384, R390, 18_ref R399, R401, R404, R408). -/
namespace Sys2Proof.Machine

/-- NOP (R361). -/
def execNop (e : Bool) (s : State) : Out := s.perform (.nop e) fun s _ t => s.finish t t.x

/-- YIELD (R408). -/
def execYield (e : Bool) (s : State) : Out :=
  s.perform (.yield e) fun s c t => (s.modRanks c.id t.x fun _ f => { f with lost := 0, stamp := s.cycles }).finish t t.x

/-- BRA (R67, R323). -/
def execBra (p : PReg) (pol : Bool) (off : BitVec 22) (s : State) : Out :=
  s.perform (.bra p pol off) fun s c t =>
    let taken := t.x.filter (c.fibTest fun f => f.pred p != pol)
    let r := s.redirect t (taken.map fun k => (k, wordTarget t.i.pc off.toInt))
    r.1.finish r.2 t.x

/-- A target named by a register: outside [0, 2^57) is Permission (R324, R383). -/
def regTarget (pc : PcAddr) (w : Word) : Chk PcAddr :=
  let v : Int := (pc.toNat : Int) + 4 * w.toInt
  if 0 ≤ v ∧ v < 2 ^ 57 then .ok (BitVec.ofInt 57 v) else trapWith .permission (wrapInt 64 v)

/-- Per-fibre targets, then the transfer. -/
def State.transfer (s : State) (c : Crew) (t : Turn) (srcs : List Reg) (f : Nat → List (Word × Tag) → Chk PcAddr) : Out :=
  match s.checkAll c t.x srcs f with
  | none => s.stall t
  | some (vals, traps) =>
    let sp := s.splitPoison c srcs vals
    let r := (s.modRanks c.id (sp.1.map fun p => p.1) fun _ f => f.popAll srcs).redirect t sp.1
    r.1.finishTraps r.2 (traps ++ sp.2) t.x

/-- BRX (R324). -/
def execBrx (a : Reg) (s : State) : Out :=
  s.perform (.brx a) fun s c t => s.transfer c t [a] fun _ l =>
    if isInt32 (opTag l 0) then regTarget t.i.pc (opnd l 0) else trapWith .formatMismatch 0

/-- CALL (R325). -/
def execCall (off : BitVec 21) (s : State) : Out :=
  s.perform (.call off) fun s _ t =>
    let r := (t.i.pc + 4).toNat
    let lo : Word := BitVec.ofNat 32 r
    let hi : Word := BitVec.ofNat 32 (r / 2 ^ 32)
    match s.writeDests t t.x [⟨118, .ui32, .u, lo, 0, t.x.map fun k => (k, lo)⟩, ⟨119, .ui32, .u, hi, 0, t.x.map fun k => (k, hi)⟩] with
    | some s1 =>
      let r := s1.redirect t (t.x.map fun k => (k, wordTarget t.i.pc off.toInt))
      r.1.finish r.2 t.x
    | none => s.finishTraps t (overflowAll t.x) []

/-- RET (R372). -/
def execRet (s : State) : Out :=
  s.perform .ret fun s c t => s.transfer c t [118, 119] fun _ l =>
    if l.all fun p => isInt32 p.2 then
      let v := (opnd l 0).toNat + (opnd l 1).toNat * 2 ^ 32
      if 2 ^ 57 ≤ v then trapWith .permission v
      else if v % 4 != 0 then trapWith .misaligned v
      else .ok (BitVec.ofNat 57 v)
    else trapWith .formatMismatch 0

/-- REGION (R371). -/
def execRegion (e : Bool) (s : State) : Out :=
  s.perform (.region e) fun s c t => (s.modRanks c.id t.x fun _ f => f.regionHere t.i.group s.nextId).finish t t.x

/-- One SPAWN of R383. -/
def State.spawnOne (s : State) (t : Turn) (d : Reg) (k : Nat) (target : PcAddr) (b : Word × Tag) : Option State :=
  match s.getCrew t.i.crew with
  | none => some s
  | some c =>
    match (List.range c.size).find? fun r => match c.fib r with | some f => !f.live | none => false with
    | none => (s.writeDests t [k] [destG d.toNat .ui32 [(k, 0xFFFFFFFF)]]).map fun s1 => (s1.release c.id k 0 0xFFFF).diverge c.id
    | some r =>
      match s.writeDests t [r] [destG 0 b.2 [(r, b.1)]] with
      | none => none
      | some s1 =>
        match s1.writeDests t [k] [destG d.toNat .ui32 [(k, BitVec.ofNat 32 r)]] with
        | none => none
        | some s2 => let first (g : Fibre) : Option HitReport := match c.kind with | .anyHit _ => some (g.report.getD .accept) | _ => none
          some (((s2.release c.id k 0 0xFFFF).modFib c.id r fun g => { Fibre.fresh target c.feeds s.cycles s.nextId with report := first g }).diverge c.id)

/-- SPAWN (R383, R384); a fibre with a poisoned operand traps where its shape steps would not (11_faults R252). -/
def execSpawn (e : Bool) (d a b : Reg) (s : State) : Out :=
  s.perform (.spawn e d a b) fun s c t =>
    let check (_ : Nat) (l : List (Word × Tag)) : Chk (PcAddr × (Word × Tag)) :=
      if isInt32 (opTag l 0) then (regTarget t.i.pc (opnd l 0)).map fun v => (v, l.getD 1 (0, .si32)) else trapWith .formatMismatch 0
    if t.x.any fun k => s.seqBusy c.id k 0xFFFF then s.stall t else
    match s.checkAll c t.x [a, b] check with
    | none => s.stall t
    | some (vals, traps) =>
      let sp := s.splitPoison c [a, b] vals
      let one (acc : State × List Nat × List (Nat × Trap)) (p : Nat × (PcAddr × (Word × Tag))) : State × List Nat × List (Nat × Trap) :=
        match (acc.1.modFib c.id p.1 fun f => f.popAll [a, b]).spawnOne t d p.1 p.2.1 p.2.2, valOf sp.2 p.1 with
        | none, _ => (acc.1, acc.2.1, acc.2.2 ++ [(p.1, ⟨.shapeOverflow, 0⟩)])
        | some _, some tr => (acc.1, acc.2.1, acc.2.2 ++ [(p.1, tr)])
        | some s1, none => (s1, acc.2.1 ++ [p.1], acc.2.2)
      let r := vals.foldl one (s, [], [])
      r.1.finishTraps t (traps ++ r.2.2) r.2.1

/-- RETIRE (R374). -/
def execRetire (s : State) : Out :=
  s.perform .retire fun s c t => (s.eachRank t.x fun st k => st.retireFibre c.id k).finish { t with gone := t.gone ++ t.x } t.x

/-- WAIT (R404). -/
def execWait (e : Bool) (loads stores copies tiles : BitVec 4) (s : State) : Out :=
  s.perform (.wait e loads stores copies tiles) fun s c t =>
    if t.x.all (fun k => c.fibTest (fun f => s.waitHolds c.id k f loads stores copies tiles) k) then (s.passGate t).finish t t.x else s.unissue t

/-- FENCE (R163): it holds later operations of its sequences behind the earlier ones still outstanding. -/
def execFence (e : Bool) (scope : BitVec 3) (kind : FenceKind) (mask : BitVec 16) (s : State) : Out :=
  s.perform (.fence e scope kind mask) fun s c t =>
    let one (st : State) (k : Nat) : State :=
      let s1 := if kind == .acq then st else st.release c.id k scope.toNat mask
      let o := { t.op c k [k] (.fence kind mask) with seqs := mask, scope := scope.toNat }
      ((s1.addOp o none).fenceAcquires c.id k c.core).gcFences
    (s.eachRank t.x one).finish t t.x

/-- TRAP (11_faults R257). -/
def execTrap (e : Bool) (code : BitVec 16) (s : State) : Out :=
  s.perform (.trap e code) fun s _ t =>
    s.finishTraps t (t.x.map fun k => (k, ⟨.trapInstr, code.setWidth 64⟩)) []

/-- ERET (R257): IllegalOp outside trap mode. -/
def execEret (s : State) : Out :=
  s.perform .eret fun s c t =>
    let inTrap := t.x.filter (c.fibTest fun f => f.trapMode)
    let out := t.x.filter fun k => !c.fibTest (fun f => f.trapMode) k
    (s.modRanks c.id inTrap fun _ f => { f.eret s.nextId with st := .ready, stamp := s.cycles }).finishTraps { t with gone := t.gone ++ inTrap } (out.map fun k => (k, ⟨.illegalOp, 0⟩)) inTrap

/-- UIRET (08_copies R207): IllegalOp outside the handler. -/
def execUiret (s : State) : Out :=
  s.perform .uiret fun s c t =>
    let inside := t.x.filter (c.fibTest fun f => f.uiAct)
    let out := t.x.filter fun k => !c.fibTest (fun f => f.uiAct) k
    (s.modRanks c.id inside fun _ f => { f with pc := f.uiRpc, uiAct := false, st := .ready, stamp := s.cycles }).finishTraps { t with gone := t.gone ++ inside } (out.map fun k => (k, ⟨.illegalOp, 0⟩)) inside

/-- UIMASK (R207, 18_ref R401). -/
def execUimask (e : Bool) (m : Bool) (s : State) : Out :=
  s.perform (.uimask e m) fun s c t =>
    (if t.x.isEmpty then s else s.modCrew c.id fun x => { x with uiMasked := m }).finish t t.x

/-- Lanes of the executing set of a SYSCALL with their slot masks (R33). -/
def slotMask (x : List Nat) (gang : Nat) : BitVec 16 :=
  (x.filter fun k => k / 16 == gang).foldl (fun m k => setBit16 m (k % 16) true) 0

/-- SYSCALL (17_ref R390, 01_execution R33): one message for each lane with executing fibres, and each executing fibre awaits its reply. -/
def execSyscall (d a : Reg) (n : BitVec 7) (s : State) : Out :=
  s.perform (.syscall d a n) fun s c t =>
    if t.x.any fun k => s.seqBusy c.id k 0xFFFF || s.hostStuck c.id k 0xFFFF then s.stall t else
    let bad := t.x.filter fun k => s.regPoisoned c.id k (blockOf a 8)
    let x := t.x.filter fun k => !bad.contains k
    let args (k : Nat) : List (Word × Tag) := (blockOf a 8).map fun r => (c.elem r.toNat k, c.tagOf r)
    let ds := (List.range 8).map fun i => destG (d.toNat + i) .ui32 []
    let shaped : Option Crew := if t.x.isEmpty then some c else (c.prepare ds t.x).bind fun _ => if x.isEmpty then some c else c.prepare ds x
    match shaped with
    | none =>
      let (s1, t1) := s.trapTurn t (overflowAll t.x)
      s1.finish t1 []
    | some c1 =>
      let s1 := (s.overwrite t.i x ((List.range 8).map fun i => d.toNat + i)).modCrew c.id fun _ => c1
      let s2 := s1.eachRank x fun st k => st.release c.id k 5 0xFFFF
      let s3 : State := { s2 with syscalls := s2.syscalls ++ (gangsOf x).map fun g => ⟨c.id, c.lane + g, slotMask x g, n, d, (x.filter fun k => k / 16 == g).map fun k => ⟨k, args k, none⟩⟩ }
      let s4 := s3.modRanks c.id x fun _ f => f.region (t.i.pc + 4) s3.nextId
      let (s5, t1) := s4.suspend t .awaitReply x
      let s6 := if x.isEmpty then s5 else s5.diverge c.id
      let (s7, t2) := s6.trapTurn t1 (bad.map fun k => (k, ⟨.poison, 0⟩))
      s7.finish t2 x

/-- A BAR or BARW at its gate. -/
def State.barIssue (s : State) (ins : Instr) (arrives team : Bool) : Out :=
  s.perform ins fun s c t =>
    let s1 := s.eachRank t.x fun st k => st.barGate c.id k arrives team t.i.group
    match s1.getCrew c.id with
    | none => .next s1
    | some c1 =>
      if t.x.all (fun k => s1.barPasses c1.id k team) then ((s1.passGate t).eachRank t.x fun st k => (st.release c.id k (if team then 2 else 0) 0xFFFF).acquire c.core (if team then 2 else 0)).finish t t.x
      else s1.unissue t

/-- BAR (15_ref R321). -/
def execBar (e : Bool) (team : Bool) (s : State) : Out := s.barIssue (.bar e team) true team
/-- BARW (R321). -/
def execBarw (e : Bool) (team : Bool) (s : State) : Out := s.barIssue (.barw e team) false team
/-- BARA (R321). -/
def execBara (e : Bool) (team : Bool) (s : State) : Out :=
  s.perform (.bara e team) fun s c t =>
    if t.x.any fun k => s.seqBusy c.id k 0xFFFF then s.stall t
    else (s.eachRank t.x fun st k => (st.release c.id k (if team then 2 else 0) 0xFFFF).arriveBar c.id k team).finish t t.x

end Sys2Proof.Machine
end

