-- ==== Sys2Proof/Machine/Sfu.lean ====
section
/-! DEFINITION. The SFU operations (03_arithmetic R108 to R110): RCP, RSQ and SQRT correctly rounded; the others the part's own value where it lies within the bound of R110, found from fixed-point values with 400 bits of fraction. -/
namespace Sys2Proof.Machine

/-- Bits of fraction of the fixed-point values. -/
def fxBits : Nat := 400
/-- π and ln 2 with 400 bits of fraction. -/
def fxPi : Nat := 0x3243f6a8885a308d313198a2e03707344a4093822299f31d0082efa98ec4e6c89452821e638d01377be5466cf34e90c6cc0ac
def fxLn2 : Nat := 0xb17217f7d1cf79abc9e3b39803f2f6af40f343267298b62d8a0d175b8baafa2be7b876206debac98559552fb4afa1b10ed2e

/-- Σ t^k / k! from term k on. -/
def fxExpSum (t : Nat) : Nat → Nat → Nat → Nat
  | 0, _, _ => 0
  | n + 1, k, term => term + fxExpSum t n (k + 1) (term * t / (k + 1) / 2 ^ fxBits)

/-- 2^f for a fraction f below 1. -/
def fxExp2 (f : Nat) : Nat := fxExpSum (f * fxLn2 / 2 ^ fxBits) 90 0 (2 ^ fxBits)

/-- Alternating series of sine and cosine from term k on: term × r² / ((k+1)(k+2)). -/
def fxTrigSum (r2 : Int) : Nat → Nat → Int → Int
  | 0, _, _ => 0
  | n + 1, k, term => term + fxTrigSum r2 n (k + 2) (-(term * r2 / (2 ^ fxBits : Nat) / (((k + 1) * (k + 2) : Nat) : Int)))

/-- sin and cos of num/den radians. -/
def fxTrig (isCos neg : Bool) (num den : Nat) : Int :=
  let x : Nat := num * 2 ^ fxBits / den % (2 * fxPi)
  let r : Int := if fxPi < x then (x : Int) - 2 * fxPi else x
  let r := if neg then -r else r
  let r2 := r * r / (2 ^ fxBits : Nat)
  if isCos then fxTrigSum r2 64 0 (2 ^ fxBits : Nat) else fxTrigSum r2 64 1 r

/-- 2 Σ z^(2j+1) / (2j+1). -/
def fxAtanhSum (z2 : Nat) : Nat → Nat → Nat → Nat
  | 0, _, _ => 0
  | n + 1, k, p => p / k + fxAtanhSum z2 n (k + 2) (p * z2 / 2 ^ fxBits)

/-- log2(num/den) of a positive fraction. -/
def fxLog2 (num den : Nat) : Int :=
  let k := log2Frac num den
  let (n, d) := match k with
    | .ofNat j => (num, den * 2 ^ j)
    | .negSucc j => (num * 2 ^ (j + 1), den)
  let z := (n - d) * 2 ^ fxBits / (n + d)
  let ln := 2 * fxAtanhSum (z * z / 2 ^ fxBits) 135 1 z
  k * (2 ^ fxBits : Nat) + ((ln * 2 ^ fxBits / fxLn2 : Nat) : Int)

/-- tanh(num/den) of a positive fraction below 9. -/
def fxTanh (num den : Nat) : Nat :=
  let y := 2 * num * 2 ^ (2 * fxBits) / den / fxLn2
  let e := fxExp2 (y % 2 ^ fxBits) * 2 ^ (y / 2 ^ fxBits)
  (e - 2 ^ fxBits) * 2 ^ fxBits / (e + 2 ^ fxBits)

/-- Whether the F32 value c lies within `b` ulp of ±y / 2^400 (R110). -/
def withinUlp (b : Nat) (neg : Bool) (y : Nat) (c : Nat) : Bool :=
  match fF32.value c with
  | .fin s n d =>
    let k := log2Frac y (2 ^ fxBits)
    let u : Int := (if k < -126 then -126 else k) - 23
    let yv : Int := if neg then -(y : Int) else y
    let cv : Int := ((n * 2 ^ fxBits / d : Nat) : Int) * (if s then -1 else 1)
    (cv - yv).natAbs ≤ b * 2 ^ ((fxBits : Int) + u).toNat
  | _ => false

/-- The part's choice where it keeps the bound, else the nearest value; its flags (R110). -/
def sfuPick (op b : Nat) (x : Word) (neg : Bool) (y : Nat) (extra : Nat → Bool) : Nat × Nat :=
  let c := (Config.sfu op x).toNat
  let near := (fF32.round (.fin neg y (2 ^ fxBits)) .rne false).1
  let r := if withinUlp b neg y c && extra c then c else near
  (r, flIX + if y < 2 ^ (fxBits - 126) then flUF else 0)

/-- |c| at most 1.0 (R110). -/
def magLeOne (c : Nat) : Bool := c % 2 ^ 31 ≤ 0x3F800000

/-- Round of R103, with IX wherever the returned value differs from the exact one, an overflow of an exact power of two included (R110). -/
def sfuRound (v : Ex) (mode : RMode) (sat : Bool) : Nat × Nat :=
  let (b, fl) := fF32.round v mode sat
  (b, fl ||| if fl &&& (flOF ||| flSAT) == 0 then 0 else flIX)

/-- RCP, RSQ and SQRT (R108, R109). -/
def sfuRcp (x : Nat) (mode : RMode) (sat : Bool) : Nat × Nat :=
  match fF32.value x with
  | .nan => (fF32.canonNan, 0)
  | .inf s => (fF32.signed s 0, 0)
  | .fin s n d => if n == 0 then (fF32.signed s fF32.inf, flDZ) else sfuRound (.fin s d n) mode sat

def sfuRsq (x : Nat) (mode : RMode) (sat : Bool) : Nat × Nat :=
  match fF32.value x with
  | .nan => (fF32.canonNan, 0)
  | .inf s => if s then (fF32.canonNan, flIV) else (0, 0)
  | .fin s n d =>
    if n == 0 then (fF32.signed s fF32.inf, flDZ)
    else if s then (fF32.canonNan, flIV)
    else let (p, q) := sqrtFrac d n; fF32.round (.fin false p q) mode sat

def sfuSqrt (x : Nat) (mode : RMode) (sat : Bool) : Nat × Nat :=
  match fF32.value x with
  | .nan => (fF32.canonNan, 0)
  | .inf s => if s then (fF32.canonNan, flIV) else (x, 0)
  | .fin s n d =>
    if n == 0 then (x, 0)
    else if s then (fF32.canonNan, flIV)
    else let (p, q) := sqrtFrac n d; fF32.round (.fin false p q) mode sat

def sfuExp2 (x : Nat) : Nat × Nat :=
  match fF32.value x with
  | .nan => (fF32.canonNan, 0)
  | .inf s => if s then (0, 0) else (fF32.inf, 0)
  | .fin s n d =>
    if n % d == 0 then
      -- an integer operand: exact, or rounded by R103 beyond the format
      let i := min (n / d) 400
      sfuRound (if s then .fin false 1 (2 ^ i) else .fin false (2 ^ i) 1) .rne false
    else if d * 300 < n then sfuRound (if s then .fin false 1 (2 ^ 400) else .fin false (2 ^ 400) 1) .rne false
    else
      -- 2^±(n/d) = 2^q × 2^f
      let q : Int := if s then -((n / d : Nat) : Int) - 1 else (n / d : Nat)
      let f := if s then (d - n % d) * 2 ^ fxBits / d else n % d * 2 ^ fxBits / d
      let e := fxExp2 f
      let v : Ex := match q with
        | .ofNat j => .fin false (e * 2 ^ j) (2 ^ fxBits)
        | .negSucc j => .fin false e (2 ^ (fxBits + j + 1))
      let near := sfuRound v .rne false
      let c := (Config.sfu 3 (BitVec.ofNat 32 x)).toNat
      -- overflow and underflow are rounded by R103 (R109); otherwise faithful (R110)
      if near.2 == flIX && (c == (fF32.round v .rtz false).1 || c == (fF32.round v .rup false).1) && c < fF32.inf then (c, flIX) else near

def sfuLog2 (x : Nat) : Nat × Nat :=
  match fF32.value x with
  | .nan => (fF32.canonNan, 0)
  | .inf s => if s then (fF32.canonNan, flIV) else (fF32.inf, 0)
  | .fin s n d =>
    if n == 0 then (fF32.signed true fF32.inf, flDZ)
    else if s then (fF32.canonNan, flIV)
    else
      let k := log2Frac n d
      let pow2 : Bool := match k with
        | .ofNat j => n == d * 2 ^ j
        | .negSucc j => n * 2 ^ (j + 1) == d
      if pow2 then ((fF32.round (.ofInt k) .rne false).1, 0)
      else
        let y := fxLog2 n d
        sfuPick 4 (if d ≤ 2 * n && n ≤ 2 * d then 2 else 1) (BitVec.ofNat 32 x) (y < 0) y.natAbs (fun _ => true)

def sfuTrig (isCos : Bool) (x : Nat) : Nat × Nat :=
  match fF32.value x with
  | .nan => (fF32.canonNan, 0)
  | .inf _ => (fF32.canonNan, flIV)
  | .fin s n d =>
    if n == 0 then (if isCos then 0x3F800000 else x, 0)
    else
      let y := fxTrig isCos s n d
      sfuPick (if isCos then 6 else 5) 2 (BitVec.ofNat 32 x) (y < 0) y.natAbs magLeOne

def sfuTanh (x : Nat) : Nat × Nat :=
  match fF32.value x with
  | .nan => (fF32.canonNan, 0)
  | .inf s => (fF32.signed s 0x3F800000, 0)
  | .fin s n d =>
    if n == 0 then (x, 0)
    else if n * 2 ^ 12 < d then (x, flIX + if n * 2 ^ 126 ≤ d then flUF else 0)
    else if 9 * d ≤ n then (fF32.signed s 0x3F800000, flIX)
    else sfuPick 7 2 (BitVec.ofNat 32 x) s (fxTanh n d) (fun _ => true)

end Sys2Proof.Machine
end

