-- ==== Sys2Proof/Machine/Convert.lean ====
section
/-! DEFINITION. The SF instructions: SFU operations, conversions, packing, ternary decode, tags and flags (03_arithmetic R101, R105 to R110, 04_matrix R129, 16_ref R337 to R359, R373, 17_ref R381, R382, 18_ref R392, R393). -/
namespace Sys2Proof.Machine

/-- An SFU operation: F32 in, F32 out, at variable latency (R108). -/
def aluSfu (d a : Reg) (rounds : Bool) (f : FEnv → Nat → Nat × Nat) : Alu :=
  { srcs := [a], tagOk := fun l => l.all fun t => t == .f32, dests := destTag d .f32, rounds := fun _ => rounds, late := true,
    run := fun env l => [[f env (opnd l 0).toNat]] }

/-- RCP (16_ref R338). -/
def execRcp (e : Bool) (d a : Reg) (s : State) : Out := s.alu (.rcp e d a) fun _ _ => aluSfu d a true fun env x => sfuRcp x env.mode env.sat
/-- RSQ (R338). -/
def execRsq (e : Bool) (d a : Reg) (s : State) : Out := s.alu (.rsq e d a) fun _ _ => aluSfu d a true fun env x => sfuRsq x env.mode env.sat
/-- SQRT (17_ref R382). -/
def execSqrt (e : Bool) (d a : Reg) (s : State) : Out := s.alu (.sqrt e d a) fun _ _ => aluSfu d a true fun env x => sfuSqrt x env.mode env.sat
/-- EXP2 (R338). -/
def execExp2 (e : Bool) (d a : Reg) (s : State) : Out := s.alu (.exp2 e d a) fun _ _ => aluSfu d a false fun _ x => sfuExp2 x
/-- LOG2 (R338). -/
def execLog2 (e : Bool) (d a : Reg) (s : State) : Out := s.alu (.log2 e d a) fun _ _ => aluSfu d a false fun _ x => sfuLog2 x
/-- SIN (R382). -/
def execSin (e : Bool) (d a : Reg) (s : State) : Out := s.alu (.sin e d a) fun _ _ => aluSfu d a false fun _ x => sfuTrig false x
/-- COS (15_ref R331). -/
def execCos (e : Bool) (d a : Reg) (s : State) : Out := s.alu (.cos e d a) fun _ _ => aluSfu d a false fun _ x => sfuTrig true x
/-- TANH (18_ref R393). -/
def execTanh (e : Bool) (d a : Reg) (s : State) : Out := s.alu (.tanh e d a) fun _ _ => aluSfu d a false fun _ x => sfuTanh x

/-- Narrow tags that a scale goes with (R107). -/
def mxNarrow (t : Tag) : Bool := t == .e4m3x4 || t == .e5m2x4 || t == .e2m1x8 || t == .si8x4

/-- Elements of a block of registers of one tag, in order. -/
def blockElems (tag : Tag) (ws : List Word) : List Nat := ws.flatMap fun w => (List.range (tagCount tag)).map fun i => elemAt tag w.toNat i

/-- A conversion from a queue head into d (02_encoding R60): how many registers it takes on either side follows the head's tag, so its block checks and its queue destination are settled at the head. -/
def headBlocks (d : Reg) (n : Nat × Nat) : Option Cause :=
  if n.1 != 1 || (n.2 != 1 && !blockOk d n.2) then some .illegalOp else if n.2 == 1 && 120 ≤ d.toNat then some .queueRegister else none

/-- The tag of the head of a queue of a rank, if its element has arrived. -/
def Crew.headTagOf (c : Crew) (k q : Nat) : Option Tag := ((c.fib k).bind fun f => f.feeds[q]?).bind fun x => x.entries.head?.map fun e => e.tag

/-- A CVT whose source and d are both queues has no legal form: each fibre of the issue raises the trap its head's tag gives, whatever its guard (R60, R80). -/
def State.queueCvt (s : State) (ins : Instr) (d a : Reg) (tgt : Tag) : Out :=
  s.perform ins fun s c t =>
    .next ((s.trapAll c.id t.i.group ((t.i.ranks.filter fun k => !t.gone.contains k).map fun k =>
      (k, ⟨((c.headTagOf k (a.toNat - 120)).bind fun x => headBlocks d (cvtCounts x tgt)).getD .queueRegister, 0⟩))).endRun t.i [])

/-- CVT (R105 to R107, 15_ref R333, R334). -/
def execCvt (e : Bool) (d a : Reg) (tgt : Tag) (sat : Bool) (mode : RMode) (s : State) : Out :=
  if 120 ≤ d.toNat && 120 ≤ a.toNat then s.queueCvt (.cvt e d a tgt sat mode) d a tgt
  else s.alu (.cvt e d a tgt sat mode) fun c t =>
    let n := if a.toNat < 120 then (cvtCounts (c.tagOf a) tgt).1 else 1
    let scaled := t.i.ext.operand.isSome
    let src (l : List Tag) : Tag := headTag l
    { srcs := blockOf a n ++ (match t.i.ext.operand with | some r => [r] | none => []),
      tagOk := fun l => convertible (src l) && (l.take n).all (fun x => x == src l) &&
        (!scaled || (l.getD n .raw == .e8m0x4 && ((wideTag (src l) && mxNarrow tgt) || (mxNarrow (src l) && wideTag tgt)))),
      bad := fun l => if a.toNat < 120 then none else headBlocks d (cvtCounts (src l) tgt),
      dests := fun l => (List.range (cvtCounts (src l) tgt).2).map fun i => (d.toNat + i, tgt),
      run := fun _ l =>
        let st := opTag l 0
        let sc : Option Nat := if scaled then some (recF (opnd l n).toNat 0 8) else none
        let xs := blockElems st ((l.take n).map fun p => p.1)
        let es := if st == tgt then xs.map fun x => (x, 0) else xs.map fun x => convertElem st tgt mode sat sc (scaled && mxNarrow st) (scaled && mxNarrow tgt) x
        chunks (tagCount tgt) es.length es }

/-- The bits of a stream of 6-bit elements and back (R100). -/
def streamElems (ws : List Word) : List Nat :=
  let v := packElems 32 (ws.map fun w => w.toNat)
  (List.range 32).map fun i => v / 2 ^ (6 * i) % 64
def streamWords (es : List (Nat × Nat)) : List (List (Nat × Nat)) :=
  let v := packElems 6 (es.map fun p => p.1)
  let fl := es.foldl (fun a p => a ||| p.2) 0
  (List.range 6).map fun i => [(v / 2 ^ (32 * i) % 2 ^ 32, fl)]

/-- A stream tag and the element format it packs. -/
def isStream (t : Tag) : Bool := t == .e2m3p || t == .e3m2p

/-- MXPACK (16_ref R357, R358). -/
def execMxpack (e : Bool) (d a : Reg) (tgt : Tag) (s : State) : Out :=
  s.alu (.mxpack e d a tgt) fun c t =>
    let n := (mxpackCounts (c.tagOf a) tgt).2
    { srcs := blockOf a n ++ (match t.i.ext.operand with | some r => [r] | none => []),
      tagOk := fun l => wideTag (headTag l) && (l.take n).all (fun x => x == headTag l) && (t.i.ext.operand.isNone || l.getD n .raw == .e8m0x4),
      dests := fun l => (List.range (mxCounts tgt (headTag l)).1).map fun i => (d.toNat + i, tgt),
      run := fun _ l =>
        let sc := if t.i.ext.operand.isSome then recF (opnd l n).toNat 0 8 else 0x7F
        let es := (blockElems (opTag l 0) ((l.take n).map fun p => p.1)).map fun x => convertElem (opTag l 0) tgt .rne false (some sc) false true x
        if isStream tgt then streamWords es else [es] }

/-- MXUNPK (R357, R359). -/
def execMxunpk (e : Bool) (d a : Reg) (tgt : Tag) (s : State) : Out :=
  s.alu (.mxunpk e d a tgt) fun c t =>
    let n := (mxunpkCounts (if a.toNat < 120 then some (c.tagOf a) else none) tgt).1
    { srcs := blockOf a n ++ (match t.i.ext.operand with | some r => [r] | none => []),
      tagOk := fun l => packTag (headTag l) && (l.take n).all (fun x => x == headTag l) && (t.i.ext.operand.isNone || l.getD n .raw == .e8m0x4),
      bad := fun l =>
        let m := mxCounts (headTag l) tgt
        if a.toNat < 120 then none else if m.1 != 1 || (m.2 != 1 && !blockOk d m.2) then some .illegalOp else none,
      dests := fun l => (List.range (mxCounts (headTag l) tgt).2).map fun i => (d.toNat + i, tgt),
      run := fun _ l =>
        let sc := if t.i.ext.operand.isSome then recF (opnd l n).toNat 0 8 else 0x7F
        let ws := (l.take n).map fun p => p.1
        let xs := if isStream (opTag l 0) then streamElems ws else blockElems (opTag l 0) ws
        let es := xs.map fun x => convertElem (opTag l 0) tgt .rne false (some sc) true false x
        chunks (tagCount tgt) es.length es }

/-- The five weights of a byte (R101, 04_matrix R129); none for an illegal code. -/
def ternWeights (v : Nat) : Option (List Int) :=
  if 243 ≤ v then none
  else some ([1, 3, 9, 27, 81].map fun p => ((v / p % 3 : Nat) : Int) - 1)

/-- DTERN (R129). -/
def execDtern (e : Bool) (d a : Reg) (half : BitVec 2) (s : State) : Out :=
  s.alu (.dtern e d a half) fun _ _ =>
    { srcs := [a], tagOk := fun l => l.all fun t => t == .ui8x4 || t == .si8x4, dests := fun _ => [(d.toNat, .si8x4), (d.toNat + 1, .si8x4)],
      run := fun _ l =>
        match ternWeights (recF (opnd l 0).toNat (8 * half.toNat) 8) with
        | some w => [[(packElems 8 ((w.take 4).map (wrapInt 8)), 0)], [(wrapInt 8 (w.getD 4 0), 0)]]
        | none => [[(0, flTC)], [(0, 0)]] }

/-- RETAG (16_ref R373). -/
def execRetag (e : Bool) (d a : Reg) (tgt : Tag) (s : State) : Out :=
  s.alu (.retag e d a tgt) fun _ _ => { srcs := [a], tagOk := anyTags, dests := destTag d tgt, rule := .keep, run := fun _ l => wordElem (opnd l 0) }
/-- TAG (18_ref R392). -/
def execTag (e : Bool) (d a : Reg) (s : State) : Out :=
  s.alu (.tag e d a) fun c _ => { srcs := [], tagOk := anyTags, dests := destTag d .ui32, run := fun _ _ => [[((c.tagOf a).code, 0)]] }
/-- Codes of a shape tag (01_execution R37). -/
def Shape.code : Shape → Nat
  | .u => 0 | .a => 1 | .g => 2
/-- SHAPE (17_ref R381). -/
def execShape (e : Bool) (d a : Reg) (s : State) : Out :=
  s.alu (.shape e d a) fun c _ => { srcs := [], tagOk := anyTags, dests := destTag d .ui32, run := fun _ _ => [[((c.shapeOf a).code, 0)]] }
/-- FPFLAG (16_ref R347). -/
def execFpflag (e : Bool) (d : Reg) (mask : BitVec 7) (s : State) : Out :=
  s.plan (.fpflag e d mask) fun _ c _ =>
    { srcs := [], check := fun k _ => .ok (match c.fib k with | some f => f.fpstat &&& mask.setWidth 32 | none => 0),
      dests := fun l => [destG d.toNat .ui32 l],
      fibre := fun _ _ f => { f with fpstat := f.fpstat &&& ~~~(mask.setWidth 32) } }

end Sys2Proof.Machine
end

