-- ==== Sys2Proof/Machine/CrossFibre.lean ====
section
/-! DEFINITION. Gates in general, and the cross-fibre instructions: SHFL, VOTE, FOLD, SCAN, MATCH (01_execution R24, 03_arithmetic R114, 16_ref R342 to R346, 17_ref R377 to R379, 18_ref R402, R403). -/
namespace Sys2Proof.Machine

/-- What a gate answers for a fibre (R24). -/
inductive Gate where
  | holds
  | waits
  | traps (t : Trap)
deriving DecidableEq, Repr

/-- A register or predicate is pending for a fibre (R23); pd of a TXEND is until its commit is decided (07_transactions R179). -/
def State.pending (s : State) (crew k r : Nat) : Bool :=
  (s.ops.any fun o => o.crew == crew && o.ranks.contains k && o.work.regs.contains r) ||
  s.waiting.any fun i => i.commit && i.crew == crew && i.ranks.contains k && (match i.atHand with | some (.txend pd) => r == 128 + pd.toNat | _ => false)

/-- The gate of every executing fibre. -/
def State.gateAll (s : State) (f : State → Nat → State × Gate) : List Nat → State × List (Nat × Trap) × Bool
  | [] => (s, [], true)
  | k :: r =>
    let (s1, g) := f s k
    let (s2, ts, ok) := s1.gateAll f r
    match g with
    | .holds => (s2, ts, ok)
    | .waits => (s2, ts, false)
    | .traps t => (s2, (k, t) :: ts, ok)

/-- A gate at its issue: the fibres whose gate traps leave, and the others go on together or back to wait. -/
def State.atGate (s : State) (t : Turn) (f : State → Nat → State × Gate) (k : State → Turn → Out) : Out :=
  let (s1, ts, ok) := s.gateAll f t.x
  let (s2, t1) := s1.trapTurn t ts
  let t2 := { t1 with x := t.x.filter fun r => !t1.gone.contains r }
  if ok then k s2 t2 else s2.unissue t2

/-- A cross-fibre instruction: value and mask registers, whether d is captured (SHFL), and the tags a takes. -/
structure Xf where
  d : Reg
  a : Reg
  m : Reg
  shfl : Bool
  tagOk : Tag → Bool

/-- Tags of FOLD and SCAN (R344). -/
def foldTag (mode : Nat) (t : Tag) : Bool := 3 ≤ mode || arithTag t

/-- The cross-fibre instruction of a word. -/
def xfOf : Instr → Option Xf
  | .shflIdx _ d a m | .shflUp _ d a m | .shflDown _ d a m | .shflXor _ d a m => some ⟨d, a, m, true, fun _ => true⟩
  | .voteAny _ d a m | .voteAll _ d a m | .voteBallot _ d a m | .matchAny _ d a m | .matchAll _ d a m => some ⟨d, a, m, false, fun _ => true⟩
  | .foldAdd _ d a m | .foldMin _ d a m | .foldMax _ d a m | .scanAdd _ d a m | .scanMin _ d a m | .scanMax _ d a m => some ⟨d, a, m, false, foldTag 0⟩
  | .foldAnd _ d a m | .foldOr _ d a m | .foldXor _ d a m | .scanAnd _ d a m | .scanOr _ d a m | .scanXor _ d a m => some ⟨d, a, m, false, foldTag 3⟩
  | _ => none

/-- Ranks a mask names in the bundle of a rank (R343). -/
def maskRanks (k : Nat) (m : Word) : List Nat := ((List.range 32).filter fun i => m.getLsbD i).map fun i => k / 32 * 32 + i

/-- A fibre waits at an address: it stands there at a run boundary, or in the issue at hand. -/
def State.standsAt (s : State) (c : Crew) (k : Nat) (pc : PcAddr) : Bool :=
  match c.fib k with
  | none => false
  | some f => f.live && f.pc == pc && (f.st == .ready || f.st == .blocked ||
      (f.st == .issuing && (s.cur.toList ++ s.waiting).any fun i => i.crew == c.id && i.ranks.contains k && i.group == pc))

/-- What a waiting member supplies: value, tag, mask and d; none while something is pending. -/
def State.xfView (s : State) (c : Crew) (k : Nat) (x : Xf) : Chk (Word × Tag × Word × Word) :=
  if [x.a, x.m].any (fun r => decide (r.toNat < 120) && s.pending c.id k r.toNat) || (x.shfl && s.pending c.id k x.d.toNat) then .error none
  else match s.readSrcs c k [] [x.a, x.m] with
    | .error e => .error e
    | .ok l =>
      if !isInt32 (opTag l 1) || (x.shfl && !isInt32 (c.tagOf x.d)) || !x.tagOk (opTag l 0) then trapWith .formatMismatch 0
      else .ok (opnd l 0, opTag l 0, opnd l 1, c.elem x.d.toNat k)

/-- A named member waits for the meeting: it stands at the address, and its operands do not make it trap before it waits (R343). -/
def State.xfMember (s : State) (c : Crew) (x : Xf) (pc : PcAddr) (r : Nat) : Bool :=
  s.standsAt c r pc && (match s.xfView c r x with | .error (some _) => false | _ => true)

/-- An operand of a fibre at a meeting is poisoned. -/
def State.xfPoisoned (s : State) (crew : Nat) (x : Xf) (r : Nat) : Bool := s.regPoisoned crew r [x.a, x.m] || (x.shfl && s.regPoisoned crew r [x.d])

/-- The gate of a cross-fibre instruction (R24, R343); the meeting captures every member's values. A poisoned one is read by every member, and each raises Poison (05_memory R153; log 76). -/
def State.xfGate (s : State) (crew : Nat) (x : Xf) (pc : PcAddr) (k : Nat) : State × Gate :=
  match s.getCrew crew with
  | none => (s, .waits)
  | some c =>
    match c.fib k with
    | none => (s, .waits)
    | some f =>
      let poison : Gate := .traps (s.poisonTrap crew k [x.a, x.m])
      let met := f.meeting.filter fun m => m.pc == pc
      if met.isSome then (s, if met.all (fun m => m.vals.isEmpty) then poison else .holds)
      else match s.xfView c k x with
        | .error none => (s, .waits)
        | .error (some t) => (s, .traps t)
        | .ok (_, tag, mask, _) =>
          let ranks := maskRanks k mask
          let live (r : Nat) : Bool := match c.fib r with | some g => g.live | none => false
          if !ranks.contains k || !ranks.all live then (s, .traps ⟨.maskInvalid, 0⟩)
          else if !ranks.all (s.xfMember c x pc) then (s, .waits)
          else match gather (fun r => s.xfView c r x) ranks with
            | none => (s, .waits)
            | some (vals, _) =>
              if vals.length != ranks.length || !vals.all (fun v => v.2.2.2.1 == mask) then (s, .traps ⟨.maskInvalid, 0⟩)
              else if ranks.any (s.xfPoisoned crew x) then (s.modRanks crew ranks fun _ g => { g with meeting := some ⟨pc, mask, tag, []⟩ }, poison)
              else
                let mt : Meeting := ⟨pc, mask, tag, vals.map fun v => (v.1, v.2.1, v.2.2.2.2)⟩
                (s.modRanks crew ranks fun _ g => { g.popAll [x.a, x.m] with meeting := some mt }, .holds)

/-- The course of a cross-fibre instruction: each member's result, tag and flags from the meeting. -/
def State.cross (s : State) (ins : Instr) (tag : Tag → Tag) (f : Meeting → Nat → Word × Nat) : Out :=
  s.perform ins fun s c t =>
    match xfOf ins with
    | none => .next s
    | some x =>
      s.atGate t (fun st k => st.xfGate c.id x t.i.group k) fun s1 t1 =>
        let res := t1.x.map fun k => (k, match ((s1.getCrew c.id).bind fun c1 => c1.fib k).bind fun g => g.meeting with
          | some m => (f m k, tag m.tag)
          | none => ((0, 0), .ui32))
        let dtag := match res with | (_, _, g) :: _ => g | [] => .ui32
        match (s1.passGate t1).writeDests t1 t1.x [destG x.d.toNat dtag (res.map fun r => (r.1, r.2.1.1))] with
        | some s2 =>
          (s2.modRanks c.id t1.x fun k g => g.flag ((valOf res k).map (fun v => v.1.2) |>.getD 0)).finish t1 t1.x
        | none =>
          let (s2, t2) := s1.trapTurn t1 (overflowAll t1.x)
          s2.finish t2 []

/-! ### SHFL -/

/-- SHFL of R378: the source lane named by the captured d, and the own value when it is out of the mask. -/
def shflFrom (j : Int → Word → Int) (m : Meeting) (k : Nat) : Word × Nat :=
  let own := (m.vals.find? fun v => v.1 == k).map (fun v => v.2) |>.getD (0, 0)
  let i : Int := (k % 32 : Nat)
  let src := j i own.2
  if 0 ≤ src ∧ src ≤ 31 then
    match m.vals.find? fun v => v.1 == k / 32 * 32 + src.toNat with
    | some v => (v.2.1, 0)
    | none => (own.1, 0)
  else (own.1, 0)

/-- SHFL.idx (R378). -/
def execShflIdx (e : Bool) (d a m : Reg) (s : State) : Out := s.cross (.shflIdx e d a m) (fun t => t) (shflFrom fun _ x => ((x.toNat % 32 : Nat) : Int))
/-- SHFL.up (R378). -/
def execShflUp (e : Bool) (d a m : Reg) (s : State) : Out := s.cross (.shflUp e d a m) (fun t => t) (shflFrom fun i x => i - x.toNat)
/-- SHFL.down (R378). -/
def execShflDown (e : Bool) (d a m : Reg) (s : State) : Out := s.cross (.shflDown e d a m) (fun t => t) (shflFrom fun i x => i + x.toNat)
/-- SHFL.xor (R378). -/
def execShflXor (e : Bool) (d a m : Reg) (s : State) : Out := s.cross (.shflXor e d a m) (fun t => t) (shflFrom fun i x => ((i.toNat ^^^ (x.toNat % 32) : Nat) : Int))

/-! ### VOTE -/

def votes (v : Nat × Word × Word) : Bool := v.2.1 != 0
def wordBit (b : Bool) : Word := if b then 1 else 0
/-- A mask of the ranks of a list, within their bundle. -/
def ballotOf (l : List (Nat × Word × Word)) : Word := l.foldl (fun w v => w ||| (1#32 <<< (v.1 % 32))) 0

/-- VOTE.any (R403). -/
def execVoteAny (e : Bool) (d a m : Reg) (s : State) : Out := s.cross (.voteAny e d a m) (fun _ => .ui32) fun mt _ => (wordBit (mt.vals.any votes), 0)
/-- VOTE.all (R403). -/
def execVoteAll (e : Bool) (d a m : Reg) (s : State) : Out := s.cross (.voteAll e d a m) (fun _ => .ui32) fun mt _ => (wordBit (mt.vals.all votes), 0)
/-- VOTE.ballot (R403). -/
def execVoteBallot (e : Bool) (d a m : Reg) (s : State) : Out := s.cross (.voteBallot e d a m) (fun _ => .ui32) fun mt _ => (ballotOf (mt.vals.filter votes), 0)

/-! ### FOLD and SCAN -/

/-- An operation on two words with its flags, element by element (R344). -/
def wordOp (tag : Tag) (f : Elem → List Nat → Nat × Nat) (x y : Word × Nat) : Word × Nat :=
  let es := eachElem tag f [x.1, y.1]
  (mergeElems none 0 es, x.2 ||| y.2 ||| flagsOf none es)

def rneEnv : FEnv := ⟨.rne, false⟩
def foldAddOp (tag : Tag) : Word × Nat → Word × Nat → Word × Nat := wordOp tag (addElem rneEnv false)
def foldMinOp (tag : Tag) : Word × Nat → Word × Nat → Word × Nat := wordOp tag (minmaxElem false)
def foldMaxOp (tag : Tag) : Word × Nat → Word × Nat → Word × Nat := wordOp tag (minmaxElem true)
def foldBitOp (f : Word → Word → Word) (_ : Tag) (x y : Word × Nat) : Word × Nat := (f x.1 y.1, 0)

/-- FoldTree over the members (R114, R344): every member receives every rounding's flags. -/
def foldRes (op : Tag → Word × Nat → Word × Nat → Word × Nat) (m : Meeting) (_ : Nat) : Word × Nat :=
  (foldTree (op m.tag) 6 (m.vals.map fun v => (v.2.1, 0))).headD (0, 0)

/-- The prefix of a member (R114, R379). -/
def scanRes (op : Tag → Word × Nat → Word × Nat → Word × Nat) (m : Meeting) (k : Nat) : Word × Nat :=
  match (m.vals.filter fun v => v.1 ≤ k).map fun v => (v.2.1, 0) with
  | x :: r => r.foldl (op m.tag) x
  | [] => (0, 0)

/-- FOLD.add (R344). -/
def execFoldAdd (e : Bool) (d a m : Reg) (s : State) : Out := s.cross (.foldAdd e d a m) (fun t => t) (foldRes foldAddOp)
/-- FOLD.min (R344). -/
def execFoldMin (e : Bool) (d a m : Reg) (s : State) : Out := s.cross (.foldMin e d a m) (fun t => t) (foldRes foldMinOp)
/-- FOLD.max (R344). -/
def execFoldMax (e : Bool) (d a m : Reg) (s : State) : Out := s.cross (.foldMax e d a m) (fun t => t) (foldRes foldMaxOp)
/-- FOLD.and (R344). -/
def execFoldAnd (e : Bool) (d a m : Reg) (s : State) : Out := s.cross (.foldAnd e d a m) (fun t => t) (foldRes (foldBitOp fun x y => x &&& y))
/-- FOLD.or (R344). -/
def execFoldOr (e : Bool) (d a m : Reg) (s : State) : Out := s.cross (.foldOr e d a m) (fun t => t) (foldRes (foldBitOp fun x y => x ||| y))
/-- FOLD.xor (R344). -/
def execFoldXor (e : Bool) (d a m : Reg) (s : State) : Out := s.cross (.foldXor e d a m) (fun t => t) (foldRes (foldBitOp fun x y => x ^^^ y))
/-- SCAN.add (R379). -/
def execScanAdd (e : Bool) (d a m : Reg) (s : State) : Out := s.cross (.scanAdd e d a m) (fun t => t) (scanRes foldAddOp)
/-- SCAN.min (R379). -/
def execScanMin (e : Bool) (d a m : Reg) (s : State) : Out := s.cross (.scanMin e d a m) (fun t => t) (scanRes foldMinOp)
/-- SCAN.max (R379). -/
def execScanMax (e : Bool) (d a m : Reg) (s : State) : Out := s.cross (.scanMax e d a m) (fun t => t) (scanRes foldMaxOp)
/-- SCAN.and (R379). -/
def execScanAnd (e : Bool) (d a m : Reg) (s : State) : Out := s.cross (.scanAnd e d a m) (fun t => t) (scanRes (foldBitOp fun x y => x &&& y))
/-- SCAN.or (R379). -/
def execScanOr (e : Bool) (d a m : Reg) (s : State) : Out := s.cross (.scanOr e d a m) (fun t => t) (scanRes (foldBitOp fun x y => x ||| y))
/-- SCAN.xor (R379). -/
def execScanXor (e : Bool) (d a m : Reg) (s : State) : Out := s.cross (.scanXor e d a m) (fun t => t) (scanRes (foldBitOp fun x y => x ^^^ y))

/-! ### MATCH -/

/-- MATCH.any (R345). -/
def execMatchAny (e : Bool) (d a m : Reg) (s : State) : Out := s.cross (.matchAny e d a m) (fun _ => .ui32) fun mt k =>
  (match mt.vals.find? fun v => v.1 == k with | some own => ballotOf (mt.vals.filter fun v => v.2.1 == own.2.1) | none => 0, 0)
/-- MATCH.all (R345). -/
def execMatchAll (e : Bool) (d a m : Reg) (s : State) : Out := s.cross (.matchAll e d a m) (fun _ => .ui32) fun mt _ =>
  (match mt.vals with | v :: r => if r.all fun w => w.2.1 == v.2.1 then mt.mask else 0 | [] => 0, 0)

end Sys2Proof.Machine
end

