-- ==== Sys2Proof/Machine/Access.lean ====
section
/-! DEFINITION. Accesses to memory at issue: the address of each fibre, its translation, what a recoverable miss and a fault found by the walk do to the issue, and the logs of transactions (05_memory R133 to R145, 07_transactions R180, R181, 11_faults R252 to R258, 13_fabric R293). -/
namespace Sys2Proof.Machine

/-- An access of one fibre whose address has been checked: the address as TRAPADDR gives it, the place when no translation is needed, and what the instruction carries. -/
structure Addr (α : Type) where
  va : Nat
  here : Option Place
  v : α

/-- An access found: its place and leaf entry. -/
structure Hit (α : Type) where
  k : Nat
  va : Nat
  global : Bool
  p : Place
  pte : Nat
  v : α

/-- The access crosses Filsis, to this package (R145). -/
def State.peerOf (s : State) (p : Place) : Option Nat :=
  match p with
  | .mem pa _ _ _ => if paPeer pa == s.pkg then none else some (paPeer pa)
  | .scratch .. => none

/-- A place in the host window, or among the device registers (R140). -/
def Place.isHost (p : Place) : Bool := match p with | .mem pa _ _ _ => inHost (paLocal pa) | .scratch .. => false
def Place.isDev (p : Place) : Bool := match p with | .mem pa _ _ _ => inDev (paLocal pa) | .scratch .. => false

/-- A place among this package's device registers beyond the notify registers: the manual gives them no behaviour (R140, 10_scheduling R232, 14_system R303; log 58). -/
def State.unknownDevice (s : State) (p : Place) : Bool :=
  match p with
  | .mem pa _ _ _ => p.isDev && (s.peerOf p).isNone && devWindow ≤ devOffset pa
  | .scratch .. => false

/-- Address of an operand in a space (R61, R133) with its offset: as TRAPADDR gives it, and the place when no translation is needed. -/
def State.addrForm (s : State) (c : Crew) (sp : Space) (lo hi : Word) (off : Int) (n : Nat) : Chk (Nat × Option Place) :=
  match sp with
  | .global => (globalAddr (lo.toNat + hi.toNat * 2 ^ 32) off).map fun a => (a, none)
  | .scratch => (c.scratchAddr lo off n).map fun a => (a, some (.scratch c.id a))
  | .team => (s.teamAddr c lo off n).map fun p => (wrapInt 32 ((lo.toNat : Int) + off), some (.scratch p.1 p.2))

/-- An address form whose alignment has been checked (R134). -/
def State.operandAddr (s : State) (c : Crew) (sp : Space) (lo hi : Word) (off : Int) (n : Nat) : Chk (Nat × Option Place) :=
  match s.addrForm c sp lo hi off n with
  | .error e => .error e
  | .ok p => (aligned p.1 n).map fun _ => p

/-- What translation finds for the fibres of an instruction: places, recoverable misses, faults. -/
structure Found (α : Type) where
  hits : List (Hit α)
  misses : List (Nat × Nat × Bool)
  bad : List (Nat × Trap)

/-- Translate the accesses in ascending rank. -/
def State.locate {α : Type} (s : State) (c : Crew) (write : Bool) : List (Nat × Addr α) → State × Found α
  | [] => (s, ⟨[], [], []⟩)
  | (k, a) :: r =>
    match a.here with
    | some p =>
      let (s1, f) := s.locate c write r
      (s1, { f with hits := ⟨k, a.va, false, p, 0, a.v⟩ :: f.hits })
    | none =>
      let (s1, x) := s.xlate c.core c.ctx a.va write false (s.privileged c.ctx)
      let (s2, f) := s1.locate c write r
      match x with
      | .ok p pte => (s2, { f with hits := ⟨k, a.va, true, p, pte, a.v⟩ :: f.hits })
      | .miss h => (s2, { f with misses := (k, a.va, h) :: f.misses })
      | .bad cause => (s2, { f with bad := (k, ⟨cause, BitVec.ofNat 64 a.va⟩) :: f.bad })

/-- A fibre goes back to its region PC (01_execution R31): results of the region not landed are discarded, its feeds restart from the region's start. -/
def State.restartFibre (s : State) (crew k : Nat) (st : FState) (stepping : Bool) : State :=
  match (s.getCrew crew).bind fun c => c.fib k with
  | none => s
  | some f =>
    (s.discardResults crew k fun o => f.mark ≤ o.id).modFib crew k fun g =>
      { g with pc := g.regPc, st := st, gate := none, meeting := none, restart := false, stepping := g.stepping || stepping, anew := g.stepping || stepping, stamp := s.cycles,
               feeds := g.feeds.map fun q => { q with pos := q.regionPos, entries := [] } }

/-- The issue is dropped (R258): its fibres are Held, and one resolution is asked for. -/
def State.holdIssue (s : State) (t : Turn) (va : Nat) (host : Bool) : State :=
  let ranks := t.i.ranks.filter fun k => !t.gone.contains k
  let s1 := ranks.foldl (fun (st : State) k => st.restartFibre t.i.crew k .held false) s
  let ctx := (s.getCrew t.i.crew).map (fun c => c.ctx) |>.getD 0
  State.modCrew { s1 with cur := none, nextId := s1.nextId + 1, misses := s1.misses ++ [⟨s1.nextId, ctx, va, host, if host then .atsSent else .kernel, t.i.crew, ranks⟩] }
    t.i.crew Crew.fixConv

/-- A fault found after issue (11_faults R254): the issue is dropped and will restart in stepping mode. -/
def State.restartIssue (s : State) (t : Turn) : State :=
  let ranks := t.i.ranks.filter fun k => !t.gone.contains k
  (State.modRanks { s with cur := none } t.i.crew ranks fun _ f => { f with st := .held, pc := t.i.group, restart := true }).modCrew t.i.crew Crew.fixConv

/-- In stepping mode an access waits for the earlier loads of its fibre (R254). -/
def State.stepWait (s : State) (c : Crew) (x : List Nat) : Bool :=
  x.any fun k => (match c.fib k with | some f => f.stepping | none => false) && s.ops.any fun o => o.crew == c.id && o.isRead && o.ranks.contains k

/-- Sector address of a poisoned access, in the form the consumer used (05_memory R153). -/
def sectorTrap (va : Nat) : Trap := ⟨.poison, BitVec.ofNat 64 (va / 32 * 32)⟩

/-- An access that an attempt may not make (R180): another package, the host window, MODE 0b01 or 0b10. -/
def State.remoteAccess (s : State) (p : Place) (pte : Nat) : Bool :=
  (s.peerOf p).isSome || p.isHost || pteMode pte == 1 || pteMode pte == 2

/-! ### Logs of an attempt -/

/-- Bytes of a word list under a mask. -/
def maskedBytes (base overlay : List Byte) (mask : List Bool) : List Byte :=
  (List.range base.length).map fun i => if mask.getD i false then overlay.getD i 0 else base.getD i 0

/-- The log limit of an attempt (R181, R189): 64 and 32 sectors, and in serial mode the quota beyond, in sectors and for each log (log 70). -/
def Attempt.room (t : Attempt) (base quota : Nat) : Nat := if t.serial then base + quota else base

/-- Log quota of a context (R189). -/
def State.logQuota (s : State) (ctx : Nat) : Nat :=
  match (s.getCtx ctx).bind fun c => s.getPart c.part with | some p => p.logQuota | none => 0

/-- The place of the sector of an access. -/
def Place.sectorBase (p : Place) (va : Nat) : Place :=
  match p with
  | .mem pa f q k => .mem (pa - va % 32) f q k
  | x => x

/-- The bytes of an access all come from an attempt's logs (R181). -/
def Attempt.serves (t : Attempt) (va n : Nat) : Bool :=
  (t.reads.any fun l => l.va == va / 32 * 32) ||
  (match t.writes.find? fun l => l.va == va / 32 * 32 with
   | some w => ((w.mask.drop (va % 32)).take n).all fun b => b
   | none => false)

/-- A transactional load (R181): the logs after it and the bytes, or the cause of the abort. -/
def Attempt.load (t : Attempt) (s : State) (quota va n : Nat) (p : Place) : Except TxCause (Attempt × List Byte) :=
  let sec := va / 32 * 32
  let w := t.writes.find? fun l => l.va == sec
  let wb := (w.map fun l => l.bytes).getD (List.replicate 32 0)
  let wm := (w.map fun l => l.mask).getD (List.replicate 32 false)
  let cut (l : List Byte) : List Byte := ((maskedBytes l wb wm).drop (va % 32)).take n
  if ((wm.drop (va % 32)).take n).all fun b => b then .ok (t, cut wb)
  else match t.reads.find? fun l => l.va == sec with
    | some l => .ok (t, cut l.bytes)
    | none =>
      if t.room 64 quota ≤ t.reads.length then .error .readcap
      else
        let bs := s.homeRead (p.sectorBase va) 32
        .ok ({ t with reads := t.reads ++ [⟨sec, bs, []⟩] }, cut bs)

/-- A transactional store (R181). -/
def Attempt.store (t : Attempt) (quota va : Nat) (bs : List Byte) : Except TxCause Attempt :=
  let sec := va / 32 * 32
  let o := va % 32
  let put (l : LogSector) : LogSector := { l with bytes := spliceBytes l.bytes o bs, mask := (List.range 32).map fun i => l.mask.getD i false || (o ≤ i && i < o + bs.length) }
  if t.writes.any fun l => l.va == sec then .ok { t with writes := updWhere (fun l => l.va == sec) put t.writes }
  else if t.room 32 quota ≤ t.writes.length then .error .writecap
  else .ok { t with writes := t.writes ++ [put ⟨sec, List.replicate 32 0, List.replicate 32 false⟩] }

/-! ### The course of an instruction that accesses memory -/

/-- What such an instruction reads, checks, writes and does. `extra` is a check that needs the place, `atomic` marks one that also reads, `unread` an access that its attempt's logs serve without memory, `full` one for which they have no room, `spoilt` a poisoned datum it reads beside the sectors at its place (05_memory R153), and `now` an access that takes effect at issue, and so waits for its page's migration (11_faults R267). -/
structure MemPlan (α : Type) where
  srcs : List Reg
  check : Nat → List (Word × Tag) → Chk (Addr α)
  write : Bool
  bytes : Nat
  atomic : Bool := false
  dests : List (Nat × Addr α) → List Dest
  extra : Hit α → Option Cause := fun _ => none
  unread : State → Hit α → Bool := fun _ _ => false
  spoilt : State → Hit α → Option Trap := fun _ _ => none
  full : State → Hit α → Option TxCause := fun _ _ => none
  hold : State → List (Hit α) → Bool := fun _ _ => false
  now : Hit α → Bool := fun _ => false
  gate : State → List (Hit α) → Bool := fun _ _ => true
  act : State → Turn → List (Hit α) → State

/-- Fibres of attempts that reach beyond their package abort (R180); the rest of the hits go on. -/
def State.abortRemote {α : Type} (s : State) (t : Turn) (c : Crew) (hits : List (Hit α)) : State × Turn × List (Hit α) :=
  let (out, rest) := hits.partition fun h => h.global && c.inTx h.k && s.remoteAccess h.p h.pte
  (out.foldl (fun (st : State) h => st.abortTx c.id h.k .remote) s, { t with gone := t.gone ++ out.map fun h => h.k }, rest)

/-- Fibres of attempts whose logs have no room abort before the access has any effect (R181, R187); the rest of the hits go on. -/
def State.abortFull {α : Type} (s : State) (t : Turn) (c : Crew) (full : State → Hit α → Option TxCause) (hits : List (Hit α)) : State × Turn × List (Hit α) :=
  let (out, rest) := hits.partition fun h => (full s h).isSome
  (out.foldl (fun (st : State) h => match full s h with | some cause => st.abortTx c.id h.k cause | none => st) s, { t with gone := t.gone ++ out.map fun h => h.k }, rest)

/-- Fibres whose attempt has ended during the effect. -/
def State.txGone (s : State) (crew : Nat) (done : List Nat) : List Nat := done.filter fun k =>
  match (s.getCrew crew).bind fun c => c.fib k with
  | some f => f.st != .issuing
  | none => true

/-- The course: waits; operand checks; ShapeOverflow; translation; misses, faults, poison and aborts, in the order of R252; the shape steps, pops and effect. An attempt's access to a poisoned sector aborts with FAULT also where it is remote or would not fit the read log (log 70). -/
def State.access {α : Type} (s : State) (ins : Instr) (mk : State → Crew → Turn → MemPlan α) : Out :=
  s.perform ins fun s c t =>
    let a := mk s c t
    if s.stepWait c t.x then s.stall t else
    match s.checkAll c t.x a.srcs a.check with
    | none => s.stall t
    | some (vals, traps) =>
      let xs := vals.map fun p => p.1
      match (if xs.isEmpty then some c else c.prepare (a.dests vals) xs) with
      | none => s.finishTraps t (traps ++ overflowAll xs) []
      | some _ =>
        let (s1, f) := s.locate c a.write vals
        let spoilt := (s.splitPoison c a.srcs vals).2
        let steps (k : Nat) : Bool := match c.fib k with | some g => g.stepping | none => false
        let clear (h : Hit α) : Bool := !(s1.ops.any fun o => o.crew == c.id && o.ranks.contains h.k && o.work.spans.any fun q => placesMeet q.1 q.2 h.p a.bytes)
        let meets (h : Hit α) : Option Trap :=
          if !clear h || a.unread s1 h then none
          else match a.spoilt s1 h with
            | some t => some t
            | none => if !a.write || a.atomic then (s1.firstBad h.p a.bytes).map fun i => sectorTrap (h.va / 32 * 32 + 32 * i) else none
        let marked := f.hits.filterMap fun h => (meets h).map fun t => (h.k, t)
        let poisoned := marked.filter fun p => steps p.1 || c.inTx p.1
        let refused := f.hits.filterMap fun h => (a.extra h).map fun cause => (h.k, ⟨cause, BitVec.ofNat 64 h.va⟩)
        let stepped := f.bad.filter fun p => steps p.1
        match f.misses with
        | (_, va, host) :: _ =>
          let (s2, t1) := s1.trapTurn t traps
          .next (s2.holdIssue t1 va host)
        | [] =>
          if f.bad.length != stepped.length || (a.write || a.atomic) && marked.length != poisoned.length then
            let (s2, t1) := s1.trapTurn t traps
            .next (s2.restartIssue t1)
          else
            let stops := (stepped ++ refused ++ spoilt ++ poisoned).map fun p => p.1
            let (s2, t1, near) := s1.abortRemote t c (f.hits.filter fun h => !stops.contains h.k)
            let (s3, t2, hits) := s2.abortFull t1 c a.full near
            if hits.any fun h => s3.unknownDevice h.p && !a.unread s3 h then .refused .deviceRegister
            else if !a.gate s3 hits then s1.unissue t
            else if a.hold s3 hits || (a.atomic && !hits.all clear) || (hits.any fun h => a.now h && s3.placeHeld h.p) then s1.stall t else
            let done := hits.map fun h => h.k
            let s4 := if done.isEmpty then s3 else
              match s3.getCrew c.id with
              | none => s3
              | some c2 =>
                match c2.prepare (a.dests (vals.filter fun p => done.contains p.1)) done with
                | none => s3
                | some c3 => (s3.overwrite t.i done ((a.dests vals).map fun d => d.d)).modCrew c.id fun _ => c3
            let s5 := s4.modRanks c.id done fun _ g => g.popAll a.srcs
            let s6 := a.act s5 t2 hits
            let (s7, t3) := s6.trapTurn { t2 with gone := t2.gone ++ (s6.txGone c.id done) } (traps ++ stepped ++ refused ++ spoilt ++ poisoned)
            s7.finish t3 (done.filter fun k => !t3.gone.contains k)

end Sys2Proof.Machine
end

