-- ==== Sys2Proof/Machine/LoadStore.lean ====
section
/-! DEFINITION. Loads, stores, atomics, exact reductions, prefetch, FLUSH and INVAL at issue (06_consistency R156, R160, 13_fabric R293, 14_system R304, 15_ref R317 to R319, R326, 16_ref R350, R366 to R369, 17_ref R388). What happens when they land or perform is in Machine/Landing.lean. -/
namespace Sys2Proof.Machine

/-- Policy, sequence and scope of an access under its ORDER word (02_encoding R75, R76). -/
def Ext.policy (x : Ext) : Nat := match x.order with | some (p, _, _) => p.toNat | none => 0
def Ext.seqOr (x : Ext) (seq : BitVec 4) : BitVec 4 := match x.order with | some (_, some q, _) => q | _ => seq
def Ext.scopeOr (x : Ext) (scope : Nat) : Nat := match x.order with | some (_, _, some c) => c.toNat | _ => scope

/-- An outstanding access of one fibre, or of the crew. -/
def Turn.memOp {α : Type} (t : Turn) (s : State) (c : Crew) (h : Hit α) (ranks : List Nat) (seq : BitVec 4) (scope : Nat) (acq rel : Bool) (n : Nat) (w : Work) : Op :=
  { t.op c h.k ranks w with seqs := seqBit seq, scope := scope, acq := acq, rel := rel, va := h.va, n := n, peer := s.peerOf h.p, host := h.p.isHost, sentAt := s.ticks }

/-- It joins the outstanding operations; a host access after host loss is parked (14_system R307). -/
def State.addMem (s : State) (o : Op) (cls : Option OpClass) : State :=
  let s1 := s.addOp o cls
  if o.host && s.hostLost && s.parked.length < Config.parkSlots then { s1 with parked := s1.parked ++ [.op s.nextId] } else s1

/-- The fibre's attempt after a transactional access, or its abort. -/
def State.txPut (s : State) (crew k : Nat) (r : Except TxCause Attempt) : State :=
  match r with
  | .ok t => s.modFib crew k fun f => { f with tx := some t }
  | .error cause => s.abortTx crew k cause

/-- The copy that would serve a load of this code has met an uncorrectable error (05_memory R153). -/
def State.copyBad (s : State) (core : Nat) (p : Place) (code : Nat) : Bool :=
  match p with
  | .mem pa _ _ _ =>
    code % 4 != 3 && !inDev (paLocal pa) &&
    (if (s.peerOf p).isSome then code / 4 == 2 && s.remoteCache.any fun x => x.unit == dieOf core && x.sector == pa / 32 && x.bad
     else s.l1.any fun x => x.unit == core && x.sector == pa / 32 && x.bad)
  | .scratch .. => false

/-- An accumulator, or a contribution in the core's buffer, that a settle of a word would read has met an uncorrectable error: a datum with no address (05_memory R153). -/
def State.settleBad (s : State) (core : Nat) (p : Place) : Option Trap :=
  if s.accBad p 4 || s.redBuf.any fun y => y.core == core && y.bad && placesMeet y.place 4 p 4 then some ⟨.poison, 0⟩ else none

/-- The attempt of a rank. -/
def Crew.attempt (c : Crew) (k : Nat) : Option Attempt := (c.fib k).bind fun f => f.tx

/-- LD (16_ref R350, R351). -/
def execLd (e : Bool) (fmt : Tag) (space : Space) (seq : BitVec 4) (d a : Reg) (cnt : BitVec 2) (acq : Bool) (s : State) : Out :=
  s.access (.ld e fmt space seq d a cnt acq) fun s c t =>
    let n := 2 ^ cnt.toNat
    let x := t.i.ext
    let q := x.seqOr seq
    let srcs := addrRegs space a
    let shape (xs : List Nat) : Shape := if (srcs.all fun r => c.shapeOf r == .u) && !xs.any c.inTx then .u else .g
    { srcs := srcs, write := false, bytes := 4 * n,
      check := fun _ l => (s.operandAddr c space (opnd l 0) (opnd l 1) x.byteOffset (4 * n)).map fun p => Addr.mk p.1 p.2 (),
      dests := fun good => (List.range n).map fun i => ⟨d.toNat + i, fmt, shape (good.map fun p => p.1), 0, 0, []⟩,
      hold := fun st hits => hits.any fun h => h.global && c.inTx h.k && st.shadowed c.core c.id [h.k] false [(h.p.sectorBase h.va, 32)],
      now := fun h => h.global && (match c.attempt h.k with | some att => !att.serves h.va (4 * n) | none => false),
      spoilt := fun st h => if st.copyBad c.core h.p (x.policy + 4 * pteMode h.pte) then some (sectorTrap h.va) else none,
      unread := fun _ h => h.global && (match c.attempt h.k with | some att => att.serves h.va (4 * n) | none => false),
      full := fun st h => if h.global then (match c.attempt h.k with
        | some att => (match att.load st (st.logQuota c.ctx) h.va (4 * n) h.p with | .error cause => some cause | .ok _ => none)
        | none => none) else none,
      act := fun s1 t1 hits =>
        let xs := hits.map fun h => h.k
        let u : Bool := c.writeShape d.toNat (shape xs) xs == .u
        let one (st : State) (h : Hit Unit) : State :=
          match (st.getCrew c.id).bind fun c1 => c1.fib h.k with
          | none => st
          | some f =>
            let plain := st.addMem (t1.memOp st c h (if u then xs else [h.k]) q (x.scopeOr 0) acq false (4 * n)
              (.load h.p d n fmt (if u then .u else .g) (x.policy + 4 * pteMode h.pte))) (some .loads)
            match f.tx with
            | some att =>
              if h.global then
                match att.load st (st.logQuota c.ctx) h.va (4 * n) h.p with
                | .ok (att1, bs) => (((if att.serves h.va (4 * n) then st else st.noteAccess c.core c.ctx h.va h.p).dropCopies c.core h.p (4 * n)).txPut c.id h.k (.ok att1)).addOp (t1.op c h.k [h.k] (.logged d fmt .g (bytesWords bs))) (some .loads)
                | .error cause => st.abortTx c.id h.k cause
              else plain
            | none => plain
        (if u then hits.take 1 else hits).foldl one s1 }

/-- Tags a store takes (17_ref R388). -/
def storeTag (fmt t : Tag) : Bool := t == fmt || t == .raw || (isInt32 t && isInt32 fmt)

/-- ST (17_ref R388, R389). -/
def execSt (e : Bool) (fmt : Tag) (space : Space) (seq : BitVec 4) (v a : Reg) (cnt : BitVec 2) (rel : Bool) (s : State) : Out :=
  s.access (.st e fmt space seq v a cnt rel) fun s c t =>
    let n := 2 ^ cnt.toNat
    let x := t.i.ext
    let q := x.seqOr seq
    { srcs := blockOf v n ++ addrRegs space a, write := true, bytes := 4 * n,
      check := fun _ l =>
        if (l.take n).all fun p => storeTag fmt p.2 then
          (s.operandAddr c space (opnd l n) (opnd l (n + 1)) x.byteOffset (4 * n)).map fun p => Addr.mk p.1 p.2 (wordsBytes ((l.take n).map fun w => w.1))
        else trapWith .formatMismatch 0,
      dests := fun _ => [],
      unread := fun _ h => h.global && c.inTx h.k,
      full := fun st h => if h.global then (match c.attempt h.k with
        | some att => (match att.store (st.logQuota c.ctx) h.va h.v with | .error cause => some cause | .ok _ => none)
        | none => none) else none,
      act := fun s1 t1 hits =>
        let one (st : State) (h : Hit (List Byte)) : State :=
          match (st.getCrew c.id).bind fun c1 => c1.fib h.k with
          | none => st
          | some f =>
            let st1 := if x.policy == 3 then st.dropCopies c.core h.p (4 * n) else st
            let plain := st1.addMem (t1.memOp st c h [h.k] q (x.scopeOr 0) false rel (4 * n) (.store h.p h.v false)) (some .stores)
            match f.tx with
            | some att => if h.global then (st1.txPut c.id h.k (att.store (st.logQuota c.ctx) h.va h.v)).modFib c.id h.k fun g => g.passed .stores st.nextId else plain
            | none => plain
        hits.foldl one s1 }

/-! ### Atomics -/

def Sem.acquires (m : Sem) : Bool := m == .acquire || m == .acqRel
def Sem.releases (m : Sem) : Bool := m == .release || m == .acqRel

/-- Tags of an ATOM's operand (R318). -/
def atomTag (op : AtomOp) (t : Tag) : Bool :=
  match op with
  | .add | .min | .max => isInt32 t || t == .f32
  | .incw | .decw => isInt32 t
  | _ => true

/-- Fibres of one issue with atomics on one host word, merged by the quad combining unit (13_fabric R293). -/
def mergeHost (hits : List (Hit (Word × Word × Tag))) (p : Place) : List (Nat × Word × Word) :=
  (hits.filter fun h => h.p == p).map fun h => (h.k, h.v.1, h.v.2.1)

/-- An ATOM or, with no operation, a CAS, at issue (R317 to R319, R326, R327). -/
def State.atomIssue (s : State) (ins : Instr) (op : Option AtomOp) (scope : BitVec 3) (sem : Sem) (seq : BitVec 4) (d a : Reg) : Out :=
  s.access ins fun s c t =>
    let data := if op.isSome then [d] else pairOf d
    let m := data.length
    let x := t.i.ext
    { srcs := data ++ pairOf a, write := true, bytes := 4, atomic := true,
      check := fun _ l =>
        if (match op with | some o => atomTag o (opTag l 0) | none => true) then
          (s.operandAddr c .global (opnd l m) (opnd l (m + 1)) x.byteOffset 4).map fun p => Addr.mk p.1 p.2 (opnd l 0, opnd l 1, opTag l 0)
        else trapWith .formatMismatch 0,
      dests := fun _ => [⟨d.toNat, c.tagOf d, .g, 0, 0, []⟩],
      spoilt := fun st h => st.settleBad c.core h.p,
      extra := fun h => if h.p.isHost && !(op.isNone || op == some .add || op == some .xchg) then some .permission else none,
      act := fun s1 t1 hits =>
        let add (st : State) (h : Hit (Word × Word × Tag)) (ranks : List Nat) (w : Work) : State :=
          st.addMem (t1.memOp st c h ranks (x.seqOr seq) scope.toNat (Sem.acquires sem) (Sem.releases sem) 4 w) (some .loads)
        let one (st : State) (h : Hit (Word × Word × Tag)) : State :=
          if h.p.isHost && op.isSome then
            let parts := mergeHost hits h.p
            if (parts.head?.map fun p => p.1) == some h.k then add st h (parts.map fun p => p.1) (.hostAtom h.p op d parts h.v.2.2) else st
          else if h.p.isHost then add st h [h.k] (.hostAtom h.p none d [(h.k, h.v.1, h.v.2.1)] h.v.2.2)
          else match op with
            | some o => add st h [h.k] (.atom h.p o d h.v.2.2 h.v.1)
            | none => add st h [h.k] (.cas h.p d h.v.1 h.v.2.1)
        hits.foldl one s1 }

/-- ATOM.add (R318). -/
def execAtomAdd (e : Bool) (scope : BitVec 3) (sem : Sem) (seq : BitVec 4) (d a : Reg) (s : State) : Out := s.atomIssue (.atomAdd e scope sem seq d a) (some .add) scope sem seq d a
/-- ATOM.min (R318). -/
def execAtomMin (e : Bool) (scope : BitVec 3) (sem : Sem) (seq : BitVec 4) (d a : Reg) (s : State) : Out := s.atomIssue (.atomMin e scope sem seq d a) (some .min) scope sem seq d a
/-- ATOM.max (R318). -/
def execAtomMax (e : Bool) (scope : BitVec 3) (sem : Sem) (seq : BitVec 4) (d a : Reg) (s : State) : Out := s.atomIssue (.atomMax e scope sem seq d a) (some .max) scope sem seq d a
/-- ATOM.and (R318). -/
def execAtomAnd (e : Bool) (scope : BitVec 3) (sem : Sem) (seq : BitVec 4) (d a : Reg) (s : State) : Out := s.atomIssue (.atomAnd e scope sem seq d a) (some .and) scope sem seq d a
/-- ATOM.or (R318). -/
def execAtomOr (e : Bool) (scope : BitVec 3) (sem : Sem) (seq : BitVec 4) (d a : Reg) (s : State) : Out := s.atomIssue (.atomOr e scope sem seq d a) (some .or) scope sem seq d a
/-- ATOM.xor (R318). -/
def execAtomXor (e : Bool) (scope : BitVec 3) (sem : Sem) (seq : BitVec 4) (d a : Reg) (s : State) : Out := s.atomIssue (.atomXor e scope sem seq d a) (some .xor) scope sem seq d a
/-- ATOM.xchg (R318). -/
def execAtomXchg (e : Bool) (scope : BitVec 3) (sem : Sem) (seq : BitVec 4) (d a : Reg) (s : State) : Out := s.atomIssue (.atomXchg e scope sem seq d a) (some .xchg) scope sem seq d a
/-- ATOM.incw (R318). -/
def execAtomIncw (e : Bool) (scope : BitVec 3) (sem : Sem) (seq : BitVec 4) (d a : Reg) (s : State) : Out := s.atomIssue (.atomIncw e scope sem seq d a) (some .incw) scope sem seq d a
/-- ATOM.decw (R318). -/
def execAtomDecw (e : Bool) (scope : BitVec 3) (sem : Sem) (seq : BitVec 4) (d a : Reg) (s : State) : Out := s.atomIssue (.atomDecw e scope sem seq d a) (some .decw) scope sem seq d a
/-- CAS (R326). -/
def execCas (e : Bool) (scope : BitVec 3) (sem : Sem) (seq : BitVec 4) (d a : Reg) (s : State) : Out := s.atomIssue (.cas e scope sem seq d a) none scope sem seq d a

/-! ### Exact reductions -/

/-- Tags of a contribution (16_ref R368). -/
def redTag (t : Tag) : Bool := t == .f32 || t == .bf16x2 || t == .f16x2 || isInt32 t

/-- The access, were it made now, would have to wait for older ones (06_consistency R158, R161, R163). -/
def State.mustWait (s : State) (o : Op) : Bool := !s.opReady { o with id := s.nextId } || (o.rel && s.seqBusy o.crew o.rank o.seqs)

/-- A contribution enters its core's reduction buffer; a full buffer passes its contents on (R172). -/
def State.contributeBuf (s : State) (x : Contribution) : State :=
  let s1 : State := { s with redBuf := s.redBuf ++ [x] }
  if Config.coreAccs ≤ (s.redBuf.filter fun y => y.core == x.core).length then s1.passContribs fun y => y.core == x.core else s1

/-- A RED at issue (R367, R368). -/
def State.redIssue (s : State) (ins : Instr) (kind : RedKind) (scope : BitVec 3) (rel : Bool) (seq : BitVec 4) (d a : Reg) : Out :=
  s.access ins fun s c t =>
    let x := t.i.ext
    let mk (st : State) (h : Hit (Word × Tag)) : Op := t.memOp st c h [h.k] (x.seqOr seq) scope.toNat false rel 4 (.red h.p kind h.v.2 h.v.1)
    { srcs := d :: pairOf a, write := true, bytes := 4,
      check := fun _ l =>
        if redTag (opTag l 0) then (s.operandAddr c .global (opnd l 1) (opnd l 2) x.byteOffset 4).map fun p => Addr.mk p.1 p.2 (opnd l 0, opTag l 0)
        else trapWith .formatMismatch 0,
      dests := fun _ => [],
      extra := fun h => if h.p.isHost then some .permission else none,
      hold := fun st hits => hits.any fun h => (st.peerOf h.p).isNone && st.mustWait (mk st h),
      act := fun s1 _ hits => hits.foldl (fun (st : State) h =>
        if (st.peerOf h.p).isSome then st.addMem (mk st h) (some .stores)
        else
          let st1 := if rel then st.release c.id h.k scope.toNat (seqBit (x.seqOr seq)) else st
          let st2 := (if x.policy == 3 then st1.dropCopies c.core h.p 4 else st1).modFib c.id h.k fun f => f.passed .stores st1.nextId
          st2.contributeBuf ⟨c.core, c.ctx, c.id, h.k, seqBit (x.seqOr seq), h.p, kind, h.v.2, h.v.1, false⟩) s1 }

/-- RED.add (R368). -/
def execRedAdd (e : Bool) (scope : BitVec 3) (rel : Bool) (seq : BitVec 4) (d a : Reg) (s : State) : Out := s.redIssue (.redAdd e scope rel seq d a) .add scope rel seq d a
/-- RED.min (R368). -/
def execRedMin (e : Bool) (scope : BitVec 3) (rel : Bool) (seq : BitVec 4) (d a : Reg) (s : State) : Out := s.redIssue (.redMin e scope rel seq d a) .min scope rel seq d a
/-- RED.max (R368). -/
def execRedMax (e : Bool) (scope : BitVec 3) (rel : Bool) (seq : BitVec 4) (d a : Reg) (s : State) : Out := s.redIssue (.redMax e scope rel seq d a) .max scope rel seq d a

/-- The settle of one aligned word by a fibre, with the flags of R115 (16_ref R369). -/
def State.settleWord (s : State) (crew k core : Nat) (p : Place) : State :=
  let s1 := s.passContribs fun y => y.core == core
  let hit := s1.accs.any fun x => placesMeet x.place x.bytes p 4
  let (s2, fl) := s1.settleRange p 4
  let s3 := if hit then (match p with | .mem pa _ _ _ => s2.cacheStore (some core) pa (s2.homeRead p 4) | .scratch .. => s2) else s2
  s3.modFib crew k fun f => f.flag fl

/-- RSETTLE (R369). -/
def execRsettle (e : Bool) (scope : BitVec 3) (seq : BitVec 4) (a : Reg) (s : State) : Out :=
  s.access (.rsettle e scope seq a) fun s c t =>
    let x := t.i.ext
    let mk (st : State) (h : Hit Unit) : Op := t.memOp st c h [h.k] (x.seqOr seq) scope.toNat false true 4 (.settle h.p)
    { srcs := pairOf a, write := true, bytes := 4,
      check := fun _ l => (s.operandAddr c .global (opnd l 0) (opnd l 1) x.byteOffset 4).map fun p => Addr.mk p.1 p.2 (),
      dests := fun _ => [],
      spoilt := fun st h => st.settleBad c.core h.p,
      extra := fun h => if h.p.isHost then some .permission else none,
      hold := fun st hits => hits.any fun h => (st.peerOf h.p).isNone && st.mustWait (mk st h),
      act := fun s1 _ hits => hits.foldl (fun (st : State) h =>
        let st1 := if x.policy == 3 then st.dropCopies c.core h.p 4 else st
        if (st.peerOf h.p).isSome then st1.addMem (mk st h) none
        else ((st1.release c.id h.k scope.toNat (seqBit (x.seqOr seq))).noteAccess c.core c.ctx h.va h.p).settleWord c.id h.k c.core h.p) s1 }

/-! ### Prefetch, FLUSH and INVAL -/

/-- A sector filled into one of a kind of caches that holds `cap` of them, most recently used first (05_memory R137): stream at the end, keep protected up to half the cache. -/
def fillCopies (l0 : List CacheSector) (unit sector : Nat) (bytes : List Byte) (policy cap : Nat) : List CacheSector :=
  let kept := (l0.filter fun x => x.unit == unit && x.keep).length
  let e : CacheSector := ⟨unit, sector, bytes, policy == 2 && kept < cap / 2, List.replicate 32 false, [], false, false⟩
  let l := l0.filter fun x => !(x.unit == unit && x.sector == sector)
  let full := cap ≤ (l.filter fun x => x.unit == unit).length
  let victim := ((l.filter fun x => x.unit == unit && !x.keep).getLast?).orElse fun _ => (l.filter fun x => x.unit == unit).getLast?
  let l1 := if full then (match victim with | some v => l.filter fun x => !(x.unit == unit && x.sector == v.sector) | none => l) else l
  if policy == 1 then l1 ++ [e] else e :: l1

/-- A sector filled into the L1 of a core (05_memory R135 to R137). -/
def State.fillL1 (s : State) (core : Nat) (sector : Nat) (bytes : List Byte) (policy : Nat) : State :=
  { s with l1 := fillCopies s.l1 core sector bytes policy Config.l1Sectors }

/-- Ways a slice has left (05_memory R154). -/
def State.sliceWays (s : State) (slice : Nat) : Nat := 16 - ((s.l2Lost.find? fun x => x.1 == slice).map (fun x => x.2) |>.getD 0)

/-- Sectors the remote-read cache of a die holds: its ways in each of the 16 slices, which it keeps first (05_memory R139, R154). -/
def State.remoteCap (s : State) (die : Nat) : Nat := ((List.range 16).map fun i => min s.remoteWays (s.sliceWays (16 * die + i)) * 12288).foldl (fun a b => a + b) 0

/-- A sector filled into the remote-read cache of a die (05_memory R137, R139). -/
def State.fillRemote (s : State) (die : Nat) (sector : Nat) (bytes : List Byte) (policy : Nat) : State :=
  let cap := s.remoteCap die
  if cap == 0 then s else { s with remoteCache := fillCopies s.remoteCache die sector bytes policy cap }

/-- The fill PREF asks for (16_ref R366): no effect where a walk misses or faults, under MODE 0b01, in the host window, among device registers and on a squeezed page, nor on a remote line that no plane carries or to which an older request is on its way (13_fabric R287, R288; log 41); under the policy no-L1 it only drops the copies (05_memory R137). -/
def State.prefetch (s : State) (c : Crew) (va policy : Nat) : State :=
  match s.walk c.ctx va with
  | .leaf _ pte bits =>
    match s.leafCheck c.ctx va pte bits false false (s.privileged c.ctx) with
    | .ok (.mem pa f sqz k) _ =>
      let remote := (s.peerOf (.mem pa f sqz k)).isSome
      if pteMode pte == 1 || sqz != 0 || !inHbm (paLocal pa) || (remote && (s.noPlane || s.lineBusy pa)) then s
      else if policy == 3 then s.dropCopies c.core (.mem (pa / 128 * 128) f sqz k) 128
      else
        let one (st : State) (i : Nat) : State :=
          let q := pa / 128 * 4 + i
          let bs := st.homeRead (.mem (q * 32) f 0 k) 32
          if pteMode pte == 2 then (if st.remoteCache.any fun x => x.unit == dieOf c.core && x.sector == q then st else st.fillRemote (dieOf c.core) q bs policy)
          else if remote || (st.l1.any fun x => x.unit == c.core && x.sector == q) then st
          else (st.fillL1 c.core q bs policy).noteAccess c.core c.ctx va (.mem pa f sqz k)
        (List.range 4).foldl one s
    | _ => s
  | _ => s

/-- PREF (R366). -/
def execPref (e : Bool) (a : Reg) (s : State) : Out :=
  s.perform (.pref e a) fun s c t =>
    match s.checkAll c t.x (pairOf a) fun _ l => globalAddr ((opnd l 0).toNat + (opnd l 1).toNat * 2 ^ 32) t.i.ext.byteOffset with
    | none => s.stall t
    | some (vals, traps) =>
      let sp := s.splitPoison c (pairOf a) vals
      (sp.1.foldl (fun (st : State) p => st.prefetch c p.2 t.i.ext.policy) s).finishTraps t (traps ++ sp.2) (sp.1.map fun p => p.1)

/-- The physical ranges of the lines of a virtual range: per 64 KiB page, where it is mapped (R304). -/
def State.lineRanges (s : State) (ctx va len : Nat) : List (Nat × Nat) :=
  if len == 0 then [] else
  let lo := va / 128 * 128
  let hi := (va + len + 127) / 128 * 128
  (List.range ((hi - 1) / 65536 - lo / 65536 + 1)).filterMap fun i =>
    let page := (lo / 65536 + i) * 65536
    let a := max lo page
    let b := min hi (page + 65536)
    match s.kernelPlace ctx a with
    | some (.mem pa _ _ _, _) => some (pa, b - a)
    | _ => none

def inRanges (l : List (Nat × Nat)) (sector : Nat) : Bool := l.any fun r => r.1 ≤ sector * 32 && sector * 32 < r.1 + r.2

/-- The range of FLUSH or INVAL (R304): its tag, and that it ends within the address space. -/
def linesCheck (l : List (Word × Tag)) : Chk (Nat × Nat) :=
  if isInt32 (opTag l 2) then
    match globalAddr ((opnd l 0).toNat + (opnd l 1).toNat * 2 ^ 32) 0 with
    | .error x => .error x
    | .ok va => if va + (opnd l 2).toNat ≤ 2 ^ 57 then .ok (va, (opnd l 2).toNat) else trapWith .permission va
  else trapWith .formatMismatch 0

/-- FLUSH or INVAL at issue (14_system R304): the address and length of each fibre, then an operation of the stores class that STORE_PERFORM completes; a length of 0 does nothing. -/
def State.lines (s : State) (ins : Instr) (a b : Reg) (flush : Bool) : Out :=
  s.perform ins fun s c t =>
    let srcs := pairOf a ++ [b]
    let seqs := seqBit (t.i.ext.seqOr 0)
    let scope := t.i.ext.scopeOr 5
    match s.checkAll c t.x srcs fun _ => linesCheck with
    | none => s.stall t
    | some (vals, traps) =>
      let sp := s.splitPoison c srcs vals
      let good := sp.1
      let one (st : State) (p : Nat × (Nat × Nat)) : State :=
        if p.2.2 == 0 then st.modFib c.id p.1 fun f => f.passed .stores st.nextId
        else st.addOp { t.op c p.1 [p.1] (.lines flush p.2.1 p.2.2) with seqs := seqs, scope := scope, acq := !flush, rel := flush, va := p.2.1, n := p.2.2 } (some .stores)
      ((good.foldl one s).modRanks c.id (good.map fun p => p.1) fun _ f => f.popAll srcs).finishTraps t (traps ++ sp.2) (good.map fun p => p.1)

/-- Dirty host-window sectors of the range cannot reach the host while its link is down (R307). -/
def State.linesStuck (s : State) (ctx va len : Nat) : Bool :=
  s.hostLost && s.hostL2.any fun x => x.dirty.any (fun b => b) && inRanges (s.lineRanges ctx va len) x.sector

/-- The lines of a range are done: FLUSH writes back, as a release; INVAL writes back and drops every copy, as an acquire (R304). -/
def State.linesDone (s : State) (o : Op) (flush : Bool) (va len : Nat) : State :=
  let r := s.lineRanges o.ctx va len
  if flush then (s.release o.crew o.rank o.scope o.seqs).cleanSectors fun x => inRanges r x.sector
  else
    let s1 := s.cleanSectors fun x => inRanges r x.sector && x.dirty.any fun y => y
    State.acquire { s1 with l1 := s1.l1.filter (fun x => !inRanges r x.sector), hostL2 := s1.hostL2.filter (fun x => !inRanges r x.sector),
                            remoteCache := s1.remoteCache.filter (fun x => !inRanges r x.sector) } o.core o.scope

/-- The entries a TLBINV drops (11_faults R265). -/
def tlbCovers (va b : Nat) (e : TlbEntry) : Bool :=
  (recF b 17 1 == 1 || e.asid == recF b 0 10 || recF e.pte 5 1 == 1) && (recF b 16 1 == 1 || e.page == va / 2 ^ e.bits)

/-- Every matching entry of the package is dropped (R265). System software that maps a host-window page again after a warm restart (14_system R308) invalidates it so (log 28). -/
def State.tlbDrop (s : State) (va b : Nat) : State :=
  { s with tlb := s.tlb.filter fun x => !tlbCovers va b x
           hostStale := s.hostStale.filter fun x => !tlbCovers va b ⟨false, 0, (s.getCtx x.1).map (fun y => y.asid) |>.getD 1024, x.2, 16, 0⟩ }

/-- FLUSH (R304). -/
def execFlush (e : Bool) (a b : Reg) (s : State) : Out := s.lines (.flush e a b) a b true
/-- INVAL (R304). -/
def execInval (e : Bool) (a b : Reg) (s : State) : Out := s.lines (.inval e a b) a b false

end Sys2Proof.Machine
end

