-- ==== Sys2Proof/Machine/Landing.lean ====
section
/-! DEFINITION. What happens when an outstanding operation lands or performs: results, loads, atomics, stores (01_execution R28, R42, 05_memory R136 to R141, 06_consistency R166, R167, R172, 10_scheduling R232, 13_fabric R293, 15_ref R318, R326). -/
namespace Sys2Proof.Machine

/-! ### Registers -/

/-- A variable-latency result lands in one register (R42): ranks whose register a later instruction of the run has written drop it (R28); a G result takes a row again where the register has lost its own (log 20), and a register held for an attempt is written G (07_transactions R178). -/
def Crew.landReg (c : Crew) (o : Op) (d : Nat) (tag : Tag) (sh : Shape) (vals : List (Nat × Word)) : Crew :=
  let keep := vals.filter fun v => o.ranks.contains v.1 && !o.dropped.contains (v.1, d)
  if keep.isEmpty then c
  else if sh != .g && !(o.dropped.any fun p => p.2 == d) && !c.txHeld d then c.putValue d sh tag ((keep.headD (0, 0)).2) 0 []
  else match c.shapeStep d .g with
    | some c1 => c1.putValue d .g tag 0 0 keep
    | none => c

/-- The values of an operation land in registers from d up. -/
def State.landWords (s : State) (o : Op) (d : Reg) (tag : Tag) (sh : Shape) (ws : List Word) : State :=
  let l := (List.range ws.length).zip ws
  (l.foldl (fun (st : State) p => st.unmark o.crew (o.ranks.filter fun k => !o.dropped.contains (k, d.toNat + p.1)) [d.toNat + p.1]) s).modCrew o.crew fun c =>
    l.foldl (fun c p => c.landReg o (d.toNat + p.1) tag sh (o.ranks.map fun k => (k, p.2))) c

/-- Predicates that land with a result (R28). -/
def landPreds (o : Op) (l : List (Nat × PReg × Bool)) (k : Nat) (f : Fibre) : Fibre :=
  (l.filter fun p => p.1 == k && !o.dropped.contains (k, 128 + p.2.1.toNat)).foldl (fun f p => f.setPred p.2.1 p.2.2) f

/-- The value of a read has come: the operation orders nothing more and waits only to land; fences of its fibres that waited for it act (06_consistency R163). -/
def State.valueCame (s : State) (o : Op) (w : Work) : State :=
  (o.ranks.foldl (fun (st : State) k => st.fenceAcquires o.crew k o.core) { s.overtake o with ops := s.ops.map fun x => if x.id == o.id then { x with work := w, seqs := 0 } else x }).gcFences

/-! ### Loads -/

/-- A load of the host window leaves its sector with the home slice (R141). -/
def State.fillHost (s : State) (p : Place) : State :=
  match p with
  | .mem pa _ _ _ => if inHost (paLocal pa) then s.putHost (s.hostSector pa) else s
  | .scratch .. => s

/-- Bytes of a load and the caches after it (05_memory R136, R137, R139, R141): the policy no-L1 reads at the home slice. A copy may have been dropped by eviction, by a free bit (log 41); a read at the home slice is counted there (R146). -/
def State.loadBytes (s : State) (core ctx va : Nat) (p : Place) (n code : Nat) : State × List Byte :=
  let home (st : State) : State := st.noteAccess core ctx va p
  match p with
  | .scratch .. => (s, s.readPlace p n)
  | .mem pa f q k =>
    let sec := pa / 32
    let base : Place := .mem (sec * 32) f q k
    let cut (l : List Byte) : List Byte := (l.drop (pa % 32)).take n
    if inDev (paLocal pa) then (s.bumpFree, s.homeRead p n)
    else if (s.peerOf p).isSome then
      if code / 4 == 2 && code % 4 != 3 && !inHost (paLocal pa) then
        match s.remoteCache.find? fun x => x.unit == dieOf core && x.sector == sec with
        | some x =>
          let t : State := { s with free := s.free + 1 }
          if Config.freeBit s.free then let bs := s.homeRead base 32; (t.fillRemote (dieOf core) sec bs (code % 4), cut bs)
          else (t.fillRemote (dieOf core) sec x.bytes (if x.keep then 2 else code % 4), cut x.bytes)
        | none => let bs := s.homeRead base 32; (s.fillRemote (dieOf core) sec bs (code % 4), cut bs)
      else if code % 4 == 3 then ((home s).dropCopies core p n, s.homeRead p n)
      else (home s, s.homeRead p n)
    else if code % 4 == 3 then ((home (s.fillHost base)).dropCopies core p n, s.homeRead p n)
    else match s.l1.find? fun x => x.unit == core && x.sector == sec with
      | some x =>
        let t : State := { s with free := s.free + 1 }
        if Config.freeBit s.free then let bs := s.homeRead base 32; (home ((t.fillHost base).fillL1 core sec bs (code % 4)), cut bs)
        else (t.fillL1 core sec x.bytes (if x.keep then 2 else code % 4), cut x.bytes)
      | none => let bs := s.homeRead base 32; (home ((s.fillHost base).fillL1 core sec bs (code % 4)), cut bs)

/-- Fibres whose access is found bad after it issued (11_faults R254): they will restart in stepping mode, with the issue they may be in; an access of an earlier region leaves a deferred trap (R255; log 21). -/
def State.lateFault (s : State) (o : Op) (t : Trap) : State :=
  let s1 := s.retireOp o
  let hit (st : State) (k : Nat) : State :=
    match (st.getCrew o.crew).bind fun c => c.fib k with
    | none => st
    | some f =>
      if !f.live then st
      else if o.id < f.mark then st.modFib o.crew k fun g => { g with deferred := some t }
      else
        let mine (i : Issue) : Bool := i.crew == o.crew && i.ranks.contains k
        let drop := (st.cur.toList ++ st.waiting).filter mine
        let st1 := drop.foldl (fun (st : State) i => st.modRanks i.crew i.ranks fun _ g => { g with st := .held, restart := true })
          { st with cur := st.cur.filter (fun i => !mine i), waiting := st.waiting.filter fun i => !mine i }
        st1.modFib o.crew k fun g => { g with st := .held, restart := true }
  (o.ranks.foldl hit s1).modCrew o.crew Crew.fixConv

/-- A fibre is among the writers of a sector, with its sequences. -/
def addWriter (l : List HostWriter) (crew rank : Nat) (seqs : BitVec 16) : List HostWriter :=
  if l.any fun w => w.crew == crew && w.rank == rank then updWhere (fun w => w.crew == crew && w.rank == rank) (fun w => { w with seqs := w.seqs ||| seqs }) l
  else l ++ [⟨crew, rank, seqs⟩]

/-- A fibre has read host-window sectors that are dirty at their slices: its release at SYS takes them along (06_consistency R161). -/
def State.readHost (s : State) (o : Op) (p : Place) (n : Nat) : State :=
  match p with
  | .mem pa _ _ _ => if p.isHost then { s with hostL2 := updWhere (fun x => pa / 32 ≤ x.sector && x.sector ≤ (pa + n - 1) / 32 && x.dirty.any fun b => b) (fun x => { x with writers := addWriter x.writers o.crew o.rank o.seqs }) s.hostL2 } else s
  | .scratch .. => s

/-- A load lands (16_ref R350, R351); it meets a poisoned sector in memory, or in the copy that serves it (05_memory R153). -/
def State.landLoad (s : State) (o : Op) (p : Place) (d : Reg) (n : Nat) (tag : Tag) (sh : Shape) (code : Nat) : State :=
  let s1 := s.acquireRead o p
  if s.poisonedAt p (4 * n) || s1.copyBad o.core p code then s.lateFault o (sectorTrap o.va)
  else
    let (s2, bs) := (s1.readHost o p (4 * n)).loadBytes o.core o.ctx o.va p (4 * n) code
    if s2.runOn o then s2.valueCame o (.logged d tag sh (bytesWords bs)) else (s2.landWords o d tag sh (bytesWords bs)).retireOp o

/-- Loads behind an acquire of their fibre may have read their sector already, into the copies of their core, where the acquire then leaves it if it finds no release (06_consistency R159; log 36). -/
def State.readAhead (s : State) : State :=
  if s.ops.all fun q => !q.acq then s
  else s.ops.foldl (fun (st : State) o => match o.work with
    | .load (.mem pa f 0 k) _ n _ _ code =>
      if o.acq || code % 4 == 3 || paPeer pa != st.pkg || !inHbm (paLocal pa) || !(st.ops.any fun q => q.id < o.id && q.acq && q.sharesFibre o) ||
          (st.l1.any fun x => x.unit == o.core && x.sector == pa / 32) || st.placeHeld (.mem pa f 0 k) || st.poisonedAt (.mem (pa / 32 * 32) f 0 k) 32 ||
          st.shadowed o.core o.crew o.ranks false [(.mem pa f 0 k, 4 * n)] then st
      else if Config.freeBit st.free then (st.bumpFree.fillL1 o.core (pa / 32) (st.homeRead (.mem (pa / 32 * 32) f 0 k) 32) (code % 4)).noteAccess o.core o.ctx o.va (.mem pa f 0 k)
      else st.bumpFree
    | _ => st) s

/-! ### Atomics -/

/-- The word at a place, after settling (R172). -/
def State.settledWord (s : State) (p : Place) : State × Word :=
  let s1 := (s.settleRange p 4).1
  (s1, BitVec.ofNat 32 (bytesNat (s1.homeRead p 4)))

/-- One ATOM or CAS performs at its home (R166, R318, R326): the old value, and the operation now waiting only to land. -/
def State.performAtom (s : State) (o : Op) : State :=
  let run (p : Place) (d : Reg) (tag : Tag) (f : Word → Option Word) : State :=
    let s1 := (if o.rel then s.release o.crew o.rank o.scope o.seqs else s).passOwn o.crew o.rank p 4
    let (s2, old) := ((s1.dropCopies o.core p 4).noteAccess o.core o.ctx o.va p).settledWord p
    let s3 := match f old with
      | some w => s2.performWrite (some o.core) p (natBytes 4 w.toNat) false
      | none => s2
    let s4 := s3.acquireRead o p
    s4.valueCame o (.logged d tag .g [old])
  match o.work with
  | .atom p op d tag x => run p d tag fun old => some (atomNew op tag old x)
  | .cas p d e w => run p d ((s.getCrew o.crew).map (fun c => c.tagOf d) |>.getD .ui32) fun old => if old == e then some w else none
  | _ => s

/-- Atomics of one issue on one location (R166, 15_ref R327). -/
def State.atomGroup (s : State) (o : Op) : List Op :=
  s.ops.filter fun x => x.crew == o.crew && x.run == o.run && (match x.work with | .atom .. | .cas .. => x.meets o | _ => false)

/-- The atomics of the group may all perform; those of several fibres overtake nothing. -/
def State.groupReady (s : State) (l : List Op) : Bool :=
  let ids := l.map fun x => x.id
  (l.length ≤ 1 || l.all fun x => (s.overtakes x).isEmpty) && l.all fun x => State.opReady { s with ops := s.ops.filter fun y => !ids.contains y.id || y.id == x.id } x

/-- A result lands (R42), once the run that issued it has ended (R28). -/
def State.landValue (s : State) (o : Op) : State :=
  if s.runOn o then s else
  match o.work with
  | .value d tag sh vals preds flags =>
    let s1 := (s.unmark o.crew (o.ranks.filter fun k => !o.dropped.contains (k, d.toNat)) [d.toNat]).modCrew o.crew fun c => if vals.isEmpty then c else c.landReg o d.toNat tag sh vals
    (s1.modRanks o.crew o.ranks fun k f => (landPreds o preds k f).flag ((flags.find? fun p => p.1 == k).map (fun p => p.2.toNat) |>.getD 0)).retireOp o
  | .logged d tag sh ws => (s.landWords o d tag sh ws).retireOp o
  | _ => s

/-- The landing of an operation of a register result. -/
def State.landOp (s : State) (o : Op) : State :=
  match o.work with
  | .value .. | .logged .. => s.landValue o
  | .load p d n tag sh code => if s.opReady o then s.landLoad o p d n tag sh code else s
  | .atom .. | .cas .. =>
    let g := s.atomGroup o
    if s.groupReady g then
      let s1 := g.foldl State.performAtom s
      match s1.getOp o.id with
      | some o1 => s1.landValue o1
      | none => s1
    else s
  | _ => s

/-- RESULT_LANDING (R42). -/
def execResultLanding (op : Nat) (s : State) : Out :=
  match s.getOp op with
  | some o => .next (s.landOp o)
  | none => .next s

/-! ### Stores -/

/-- The writers of host-window sectors are remembered for their releases at SYS (05_memory R141). -/
def State.ownHost (s : State) (o : Op) (p : Place) (n : Nat) : State :=
  match p with
  | .mem pa _ _ _ => { s with hostL2 := updWhere (fun x => pa / 32 ≤ x.sector && x.sector ≤ (pa + n - 1) / 32) (fun x => { x with writers := addWriter x.writers o.crew o.rank o.seqs }) s.hostL2 }
  | .scratch .. => s

/-- The bytes a fibre's store or drain writes at its home, after its own contributions there (06_consistency R165). -/
def State.storeHome (s : State) (o : Op) (p : Place) (bs : List Byte) (poisoned : Bool) : State :=
  let s1 := ((s.passOwn o.crew o.rank p bs.length).noteAccess o.core o.ctx o.va p).performWrite (some o.core) p bs poisoned
  if p.isHost then s1.ownHost o p bs.length else s1

/-- The sessions whose doorbell word a release at PKG or wider has stored a frame index to (14_system R310). -/
def State.ringDoorbell (s : State) (o : Op) (p : Place) (bs : List Byte) : State :=
  match p with
  | .mem pa _ _ _ => { s with sessions := updWhere (fun x => o.rel && 3 ≤ o.scope && x.doorbell == pa && bs.length == 4) (fun x => { x with rung := x.rung ++ [bytesNat bs] }) s.sessions }
  | .scratch .. => s

/-- A store performs (06_consistency R167, 17_ref R388, R389); so do the other operations of the stores class (18_ref R405). -/
def State.performStore (s : State) (o : Op) : State :=
  match o.work with
  | .store p bs poisoned =>
    let s1 := if o.rel then s.release o.crew o.rank o.scope o.seqs else s
    ((s1.storeHome o p bs poisoned).ringDoorbell o p bs).retireOp o
  | .red p kind tag x =>
    let s1 := if o.rel then s.release o.crew o.rank o.scope o.seqs else s
    ((s1.noteAccess o.core o.ctx o.va p).reachSlice ⟨o.core, o.ctx, o.crew, o.rank, o.seqs, p, kind, tag, x, false⟩).retireOp o
  | .lines flush va len => if s.linesStuck o.ctx va len then s else (s.linesDone o flush va len).retireOp o
  | .tlbinv va b => (s.tlbDrop va b).retireOp o
  | .settle p => (((s.release o.crew o.rank o.scope o.seqs).noteAccess o.core o.ctx o.va p).settleWord o.crew o.rank o.core p).retireOp o
  | _ => s

/-- STORE_PERFORM (R167). -/
def execStorePerform (op : Nat) (s : State) : Out :=
  match s.getOp op with
  | some o => .next (if s.opReady o then s.performStore o else s)
  | none => .next s

/-! ### Host atomics -/

/-- HOST_ATOMIC_COMPLETION (R293): the slice has written back and dropped its copy; Unsupported Request or Completer Abort raises Permission in each fibre of the request (log 21). -/
def execHostAtomicCompletion (op : Nat) (ok : Bool) (s : State) : Out :=
  match s.getOp op with
  | none => .next s
  | some o =>
    match o.work with
    | .hostAtom p aop d parts tag =>
      if !s.opReady o then .next s
      else if !ok then
        .next ((s.modRanks o.crew o.ranks fun _ f => if f.counts.any fun x => x.op == o.id then { f with deferred := some ⟨.permission, BitVec.ofNat 64 o.va⟩ } else f).retireOp o)
      else
        let sec := match p with | .mem pa _ _ _ => pa / 32 | .scratch .. => 0
        let s0 := if o.rel then s.release o.crew o.rank o.scope o.seqs else s
        let s1 := s0.cleanSectors fun x => x.sector == sec && x.dirty.any fun b => b
        let s2 : State := State.dropCopies { s1 with hostL2 := s1.hostL2.filter fun x => x.sector != sec } o.core p 4
        let old : Word := BitVec.ofNat 32 (bytesNat (s2.readPlace p 4))
        let (vals, new) := hostParts aop old parts
        let s3 := match new with | some w => s2.writePlace p (natBytes 4 w.toNat) | none => s2
        let s4 := if o.acq then s3.acquire o.core o.scope else s3
        let w : Work := .value d tag .g vals [] []
        .next ((s4.valueCame o w).landValue { o with work := w, seqs := 0 })
    | _ => .next s

end Sys2Proof.Machine
end

