-- ==== Sys2Proof/Machine/Copies.lean ====
section
/-! DEFINITION. Transaction barriers, copy channels, transfer records and completion interrupts (04_matrix R128, 08_copies R192 to R206). -/
namespace Sys2Proof.Machine

/-! ### Engine addresses and barriers -/

/-- An engine address held by a crew's fibre (R192): global, or a place in a scratchpad of its team. -/
def State.engineAddr (s : State) (c : Crew) (v n : Nat) : Chk (Nat × Option Place) :=
  if v / 2 ^ 63 % 2 == 0 then (if v < 2 ^ 57 then .ok (v, none) else trapWith .permission v)
  else if v / 2 ^ 32 % 2 ^ 31 != 0 then trapWith .permission v
  else match s.teamAddr c (BitVec.ofNat 32 v) 0 n with
    | .ok (id, o) => .ok (v, some (.scratch id o))
    | .error _ => trapWith .permission v

/-- A page a global barrier may lie on (R202). -/
def State.barrierPage (s : State) (p : Place) (pte : Nat) : Bool :=
  (s.peerOf p).isNone && !p.isHost && !p.isDev && recF pte 2 1 == 1 && (pteMode pte == 0 || pteMode pte == 3) && pteSqz pte == 0 && recF pte 11 1 == 0

/-- The operand of a barrier instruction: engine address, 16-byte alignment, and b (R203). -/
def State.barOperand (s : State) (c : Crew) (l : List (Word × Tag)) (b : Word) : Chk (Addr Word) :=
  let v := (opnd l 0).toNat + (opnd l 1).toNat * 2 ^ 32
  match s.engineAddr c v 16 with
  | .error e => .error e
  | .ok (a, here) => (aligned a 16).map fun _ => ⟨a, here, b⟩

/-- The course of TBINIT, TBEXP and TBARV (R203, R204). -/
def State.barrierStep (s : State) (ins : Instr) (a : Reg) (b : Option Reg) (bOk : Word → Bool) (waits : Bool) (kind : Word → BarStep) : Out :=
  s.access ins fun s c _ =>
    { srcs := pairOf a ++ b.toList, write := true, bytes := 16,
      check := fun _ l =>
        if b.isSome && !isInt32 (opTag l 2) then trapWith .formatMismatch 0
        else if !bOk (opnd l 2) then trapWith .illegalOp 0
        else s.barOperand c l (opnd l 2),
      dests := fun _ => [],
      extra := fun h => if h.global && !s.barrierPage h.p h.pte then some .permission else none,
      hold := fun st hits => waits && hits.any fun h => st.fenceHolds c.id h.k 0xFFFF,
      now := fun h => h.global,
      act := fun st _ hits => hits.foldl (fun (st : State) h => (st.noteAccess c.core c.ctx h.va h.p).barAt h.p (kind h.v)) st }

/-- TBINIT (R203): b from 1 to 1,048,575. -/
def execTbinit (e : Bool) (a b : Reg) (s : State) : Out :=
  s.barrierStep (.tbinit e a b) a (some b) (fun w => decide (1 ≤ w.toNat) && decide (w.toNat ≤ 1048575)) false fun w => .init w.toNat
/-- TBEXP (R203): b as SI32. -/
def execTbexp (e : Bool) (a b : Reg) (s : State) : Out := s.barrierStep (.tbexp e a b) a (some b) (fun _ => true) false fun w => .exp w.toInt
/-- TBARV (R203): it carries the release fences before it. -/
def execTbarv (e : Bool) (a : Reg) (s : State) : Out := s.barrierStep (.tbarv e a) a none (fun _ => true) true fun _ => .arrive

/-- The gate of TBWAIT (R24): the phase differs from b[3:0], or the barrier is poisoned. -/
def barOpen (bar : Nat) (b : Word) : Bool := recF bar 0 4 != b.toNat % 16 || recF bar 4 1 == 1
/-- The word TBWAIT returns (R203). -/
def barWord (bar : Nat) : Word := BitVec.ofNat 32 (recF bar 96 16 * 2 ^ 16 + recF bar 4 1 * 16 + recF bar 0 4)

/-- The word of the step at which the gate held: captured by the pre-scan, or now. -/
def State.barSeen (s : State) (c : Crew) (k : Nat) (pc : PcAddr) (p : Place) (b : Word) : Option Word :=
  match (c.fib k).bind fun f => f.gate with
  | some g => if g.pc == pc && g.word.isSome then g.word else
      let bar := bytesNat (s.readPlace p 16)
      if barOpen bar b then some (barWord bar) else none
  | none =>
    let bar := bytesNat (s.readPlace p 16)
    if barOpen bar b then some (barWord bar) else none

/-- TBWAIT may look at its barrier: the page is not at the switch of its migration (11_faults R267), and, since it acquires every sequence, none of the fibre is frozen (13_fabric R292). -/
def State.barReady (s : State) (c : Crew) (k : Nat) (p : Place) : Bool := !s.placeHeld p && !s.freezes c.id k 0xFFFF s.nextId

/-- TBWAIT (R203): its completion is an acquire (06_consistency R160), taken at the widest scope. -/
def execTbwait (e : Bool) (d a b : Reg) (s : State) : Out :=
  s.access (.tbwait e d a b) fun s c t =>
    { srcs := pairOf a ++ [b], write := true, bytes := 16,
      check := fun _ l => if isInt32 (opTag l 2) then s.barOperand c l (opnd l 2) else trapWith .formatMismatch 0,
      dests := fun _ => [destG d.toNat .ui32 []],
      extra := fun h => if h.global && !s.barrierPage h.p h.pte then some .permission else none,
      gate := fun st hits => hits.all fun h => st.barReady c h.k h.p && (st.barSeen c h.k t.i.group h.p h.v).isSome,
      act := fun st t1 hits =>
        let one (st : State) (h : Hit Word) : State := (st.noteAccess c.core c.ctx h.va h.p).addOp (t1.op c h.k [h.k] (.logged d .ui32 .g [(s.barSeen c h.k t.i.group h.p h.v).getD 0])) none
        ((hits.foldl one st).passGate t1).acquire c.core 5 }

/-! ### Posting -/

/-- A channel of a core. -/
def State.channel (s : State) (core : Nat) (ch : BitVec 2) : Channel :=
  (s.chans.find? fun x => x.core == core && x.ch == ch).getD ⟨core, ch, [], none, none, false⟩
def State.setChannel (s : State) (x : Channel) : State :=
  let same (y : Channel) : Bool := y.core == x.core && y.ch == x.ch
  if s.chans.any same then { s with chans := updWhere same (fun _ => x) s.chans } else { s with chans := s.chans ++ [x] }

/-- The post slot of a fibre still holds a head (R194). -/
def State.slotFull (s : State) (c : Crew) (k : Nat) (ch : BitVec 2) : Bool := (s.channel c.core ch).heads.any fun h => h.crew == c.id && h.rank == k && !h.taken

/-- CPOST (R193, R194): a release on its sequence, then the head in the post slot. -/
def execCpost (e : Bool) (a : Reg) (ch : BitVec 2) (s : State) : Out :=
  s.perform (.cpost e a ch) fun s c t =>
    let seqs := seqBit (t.i.ext.seqOr 0)
    let check (_ : Nat) (l : List (Word × Tag)) : Chk Nat :=
      let v := (opnd l 0).toNat + (opnd l 1).toNat * 2 ^ 32
      if 2 ^ 57 ≤ v then trapWith .permission v else (aligned v 64).map fun _ => v
    if t.x.any fun k => s.seqBusy c.id k seqs || s.fenceHolds c.id k seqs || s.hostStuck c.id k seqs || s.slotFull c k ch then s.stall t else
    match s.checkAll c t.x (pairOf a) check with
    | none => s.stall t
    | some (vals, traps) =>
      let sp := s.splitPoison c (pairOf a) vals
      let good := sp.1
      let one (st : State) (p : Nat × Nat) : State :=
        let s1 := st.release c.id p.1 5 seqs
        let s2 := s1.addOp (t.op c p.1 [p.1] (.chain (4 * c.core + ch.toNat))) (some .copies)
        let x := s2.channel c.core ch
        s2.setChannel { x with heads := x.heads ++ [⟨s1.nextId, c.ctx, c.id, p.1, p.2, false⟩] }
      (good.foldl one s).finishTraps t (traps ++ sp.2) (good.map fun p => p.1)

/-- The CSTAT word of a crew (R196). -/
def State.cstatWord (s : State) (c : Crew) (ch : BitVec 2) : Word :=
  let x := s.channel c.core ch
  let pend := (x.heads.filter fun h => h.crew == c.id && !h.taken).length
  let v := c.chans.getD ch.toNat ⟨0, false⟩
  let busy : Bool := x.heads.any (fun h => h.crew == c.id) || (match x.chain with | some h => h.crew == c.id | none => false)
  BitVec.ofNat 32 (v.cause * 2 ^ 16 + pend % 4096 * 16 + bit01 v.err * 2 + bit01 busy)

/-- CSTAT (R196). -/
def execCstat (e : Bool) (d : Reg) (ch : BitVec 2) (s : State) : Out :=
  s.engine (.cstat e d ch) { srcs := [], dests := [(d.toNat, .ui32)], check := fun _ _ _ _ => .ok (), step := fun st c _ _ => (st, [st.cstatWord c ch], false) }

/-! ### Records -/

/-- Post a completion interrupt (R206). -/
def State.postInterrupt (s : State) (crew rank : Nat) (ch : BitVec 2) (err : Bool) : State :=
  s.modCrew crew fun c =>
    if c.uiVec == 0 then c
    else c.modFib rank fun f =>
      if f.live then { f with uiPend := updAt f.uiPend ch.toNat fun p => some (p.getD false || err) } else f

/-- What the crew sees of a record that ended, or of a fetch that failed (R196). -/
def State.chanStatus (s : State) (crew : Nat) (ch : BitVec 2) (cause : Option Nat) : State :=
  s.modCrew crew fun c => { c with chans := updAt c.chans ch.toNat fun v => match cause with | some n => ⟨n, true⟩ | none => { v with err := false } }

/-- The walk of a chain ends (R195); its copies count retires when every record it began has ended (R194). -/
def State.endChain (s : State) (core : Nat) (ch : BitVec 2) (h : Head) : State :=
  if s.transfers.any fun t => t.head.op == h.op then
    let x := s.channel core ch
    s.setChannel { x with next := none }
  else
    let x := s.channel core ch
    let s1 := s.setChannel { x with next := none, chain := none }
    match s1.getOp h.op with
    | some o => s1.retireOp o
    | none => s1

/-- The place of an engine address in a record of a crew (R192): a miss that must be resolved, a fatal cause, or a place. A refusal of the resolver serves one access (11_faults R259). -/
def State.engineAt (s : State) (core : Nat) (c : Crew) (v : Nat) (n : Nat) (write : Bool) : State × Xl :=
  if v / 2 ^ 63 % 2 == 1 then
    match s.teamAddr c (BitVec.ofNat 32 v) 0 n with
    | .ok (id, o) => (s, .ok (.scratch id o) 0)
    | .error _ => (s, .bad .permission)
  else match s.hostWait c.ctx v (s.xlate core c.ctx v write false (s.privileged c.ctx)) with
    | (s1, .bad .translation) => (s1.tookRefusal c.ctx v, .bad .translation)
    | x => x

/-- What an engine finds at an address: `held` says that the page is at the switch of its migration, which holds the access (11_faults R267), or that an older request of the package for the line is still on its way (13_fabric R287), `lost` that the access was parked and the host has come back since: it completes without having performed (14_system R308). -/
inductive EngAt where
  | ok (p : Place)
  | miss (host : Bool)
  | held
  | lost
  | bad (c : Cause)
deriving DecidableEq, Repr

/-- An older request of the package for the line of a place is on its way (13_fabric R287). -/
def State.placeBusy (s : State) (p : Place) : Bool := match p with | .mem pa _ _ _ => s.lineBusy pa | .scratch .. => false

/-- An access for a context at an address, as its translation found it: parked while the host link is down and lost when the host has come back since (14_system R307, R308), held at the switch of a migration (11_faults R267) or behind an older request for its line (13_fabric R287). -/
def State.foundAt (s : State) (ctx va : Nat) (r : State × Xl) : State × EngAt :=
  if s.lostAt.contains (ctx, va) then ({ s with lostAt := s.lostAt.erase (ctx, va) }, .lost)
  else match s.hostWait ctx va r with
    | (s1, .ok p _) => (s1, if s1.placeHeld p || s1.placeBusy p then .held else .ok p)
    | (s1, .miss h) => (s1, .miss h)
    | (s1, .bad c) => (s1, .bad c)

/-- An access of an engine. -/
def State.engPlace (s : State) (core : Nat) (c : Crew) (v n : Nat) (write : Bool) : State × EngAt :=
  if s.lostAt.contains (c.ctx, v) then ({ s with lostAt := s.lostAt.erase (c.ctx, v) }, .lost)
  else match s.engineAt core c v n write with
  | (s1, .ok p _) => (s1, if s1.placeHeld p || s1.placeBusy p then .held else .ok p)
  | (s1, .miss h) => (s1, .miss h)
  | (s1, .bad x) => (s1, .bad x)

/-- A signed field of a record. -/
def recS (r lo n : Nat) : Int := signedOf n (recF r lo n)

/-- Form of an engine address field (R192). -/
def engineForm (v : Nat) : Bool := if v / 2 ^ 63 % 2 == 0 then v < 2 ^ 57 else v / 2 ^ 32 % 2 ^ 31 == 0
def isLocal (v : Nat) : Bool := v / 2 ^ 63 % 2 == 1

/-- A local range lies within the scratchpad it names (R133). -/
def State.localFits (s : State) (c : Crew) (v n : Nat) : Bool :=
  match s.teamAddr c (BitVec.ofNat 32 v) 0 n with
  | .ok _ => true
  | .error _ => false

/-- Engine address of row r. -/
def rowAddr (base : Nat) (stride : Int) (r : Nat) : Nat := wrapInt 64 ((base : Int) + stride * r)

/-- The barrier a record names is well formed (R199, R202). -/
def State.barOk (s : State) (c : Crew) (v : Nat) : Bool :=
  v == 0 || (engineForm v && v % 16 == 0 &&
    (if isLocal v then s.localFits c v 16
     else match s.walk c.ctx v with
      | .leaf _ pte bits => !s.leafBad pte bits && s.barrierPage (s.leafPlace c.ctx pte bits v) pte
      | _ => false))

/-- The cores of a crew's team, ascending, and the lowest-positioned crew on each (R198); crews that have completed are left out of both (log 73). -/
def State.teamCores (s : State) (c : Crew) : List Nat :=
  let l := (s.crews.filter fun x => x.team == c.team && x.life != .completed).map fun x => x.core
  (List.range Config.cores).filter fun k => l.contains k
def State.coreCrew (s : State) (c : Crew) (core : Nat) : Option Crew :=
  (s.crews.filter fun x => x.team == c.team && x.core == core && x.life != .completed).foldl
    (fun (b : Option Crew) x => match b with | some y => if x.teamPos < y.teamPos then some x else b | none => some x) none

/-- Destination crews of a multicast (R198). -/
def State.castCrews (s : State) (c : Crew) (mask : Nat) : List Crew :=
  (((s.teamCores c).zip (List.range 32)).filter fun p => mask / 2 ^ p.2 % 2 == 1).filterMap fun p => s.coreCrew c p.1

/-- Bytes of one destination row: blocks for DEQUANT, compressed bytes under SQUEEZE (R198). -/
def State.rowBytes (s : State) (c : Crew) (r : Nat) : Nat :=
  let w := recF r 320 32
  if recF r 449 3 == 4 then 64 * w
  else if recF r 457 1 == 1 then
    match s.kernelPlace c.ctx (recF r 64 64) with
    | some (.mem _ frame sqz _, _) => let ty := (s.extent frame).ty; w / (32 * sqzBytes ty) * sqzSize ty sqz
    | _ => w
  else w

/-- The squeeze code and type of a page. -/
def State.squeezeOf (s : State) (ctx v : Nat) : Option (Nat × SqzType) :=
  match s.kernelPlace ctx v with
  | some (.mem _ frame sqz _, _) => some (sqz, (s.extent frame).ty)
  | _ => none

/-- A range SQUEEZE may copy (R198): whole blocks of squeezed pages of one form. A page that no entry maps is left to its translation. -/
def State.squeezedRange (s : State) (c : Crew) (src w : Nat) : Bool :=
  match s.squeezeOf c.ctx src with
  | none => true
  | some (sqz, ty) => sqz != 0 && src % (32 * sqzBytes ty) == 0 && w % (32 * sqzBytes ty) == 0 &&
      (match s.squeezeOf c.ctx (src + w - 1) with | some q => q == (sqz, ty) | none => true)

/-- Well-formed transfer records (R197 to R199), BAR apart. -/
def State.recordOk (s : State) (c : Crew) (r : Nat) : Bool :=
  let op := recF r 449 3
  let w := recF r 320 32
  let h := recF r 352 16
  let src := recF r 64 64
  let dst := recF r 128 64
  let aux := recF r 256 64
  let ss := if h == 1 then 0 else recS r 384 32
  let ds := if h == 1 then 0 else recS r 416 32
  let next := recF r 0 64
  let rows := List.range h
  let n := s.rowBytes c r
  let zero := recF r 474 38 == 0 && recF r 463 1 == 0 && recF r 459 1 == 0 && recF r 452 3 == 0 && recF r 368 16 == 0
  let base := recF r 460 3 < 6 && (next == 0 || (next < 2 ^ 57 && next % 64 == 0)) && engineForm src && engineForm dst && 1 ≤ h
  let mult := dst % 4 == 0 && w % 4 == 0 && ds % 4 == 0 && 4 ≤ w
  let srcFit := rows.all fun k => let a := rowAddr src ss k; engineForm a && (isLocal a == isLocal src) && (!isLocal a || s.localFits c a w)
  let dstFit (x : Crew) : Bool := rows.all fun k => let a := rowAddr dst ds k; engineForm a && (isLocal a == isLocal dst) && (!isLocal a || s.localFits x a n)
  let small := h * w ≤ 65536
  let sq := recF r 457 1 == 0 || (op == 1 && h == 1 && !isLocal src && isLocal dst && s.squeezedRange c src w)
  zero && base && sq &&
  (match op with
   | 1 => aux == 0 && mult && src % 4 == 0 && ss % 4 == 0 && srcFit && dstFit c && small
   | 2 => aux < 2 ^ 32 && src == 0 && mult && dstFit c && small
   | 3 => aux < 2 ^ 32 && aux != 0 && aux < 2 ^ (s.teamCores c).length && mult && src % 4 == 0 && ss % 4 == 0 && !isLocal src && srcFit &&
       isLocal dst && dst / 2 ^ 19 % 64 == 0 && (recF r 192 64 == 0 || (isLocal (recF r 192 64) && recF r 192 64 / 2 ^ 19 % 64 == 0)) &&
       ((s.castCrews c aux).all fun x => rows.all fun k => let a := rowAddr dst ds k; engineForm a && a % 2 ^ 32 + n ≤ x.scratchSize) && small
   | 4 => engineForm aux && !isLocal aux && !isLocal src && src % 16 == 0 && isLocal dst && dst % 64 == 0 && 1 ≤ w && w ≤ 1024 && h == 1 && dstFit c
   | _ => false)

/-- 32-byte sectors a row touches. -/
def sectorsTouched (a n : Nat) : Nat := (a % 32 + n + 31) / 32

/-- The sectors a record is to land (R198). -/
def State.recordSectors (s : State) (c : Crew) (r : Nat) : List (Option Nat × Nat × Nat) :=
  let h := recF r 352 16
  let ds := if h == 1 then 0 else recS r 416 32
  let n := s.rowBytes c r
  let one (x : Option Nat) : List (Option Nat × Nat × Nat) :=
    (List.range h).flatMap fun k => (List.range (sectorsTouched (rowAddr (recF r 128 64) ds k) n)).map fun i => (x, k, i)
  if recF r 449 3 == 3 then (s.castCrews c (recF r 256 32)).flatMap fun x => one (some x.id) else one none

/-- An engine's access to a page counts at its home slice (05_memory R146). -/
def State.noteAt (s : State) (core : Nat) (c : Crew) (v : Nat) : State :=
  match s.kernelPlace c.ctx v with
  | some (p, _) => if isLocal v then s else s.noteAccess core c.ctx v p
  | none => s

/-- A step at the barrier of an engine address; a barrier whose page faults takes none (log 65). -/
def State.recordBar (s : State) (c : Crew) (bar : Nat) (k : BarStep) : State :=
  if bar == 0 then s
  else match (s.noteAt c.core c bar).engPlace c.core c bar 16 true with
    | (s1, .ok p) => s1.barAt p k
    | (s1, _) => s1

/-- The barrier's page has come to fault since the record began: the record meets that fault (R201; log 65). -/
def State.barFault (s : State) (core : Nat) (c : Crew) (bar : Nat) : Option Cause :=
  if bar == 0 || isLocal bar then none
  else match s.engPlace core c bar 16 true with
    | (_, .bad x) => some x
    | _ => none

/-- The barriers a record names: that of each destination of a MULTICAST whose BAR is local with position 0 (R198), or the one of its address. -/
def State.recordCasts (s : State) (c : Crew) (r : Nat) : List (Option Nat) :=
  let bar := recF r 192 64
  let l := s.castCrews c (recF r 256 32)
  if recF r 449 3 == 3 && isLocal bar && bar / 2 ^ 19 % 64 == 0 && !l.isEmpty then l.map fun x => some x.id else [none]

/-- A step at the barrier of a record, in one destination crew or at its address. -/
def State.castBar (s : State) (c : Crew) (bar : Nat) (k : BarStep) (cast : Option Nat) : State :=
  match cast with
  | some id => if bar == 0 then s else s.barAt (.scratch id (bar % 2 ^ 19)) k
  | none => s.recordBar c bar k

/-- What a step at a barrier's address waits for: the resolution of its page's translation, which it asks for, or the end of a switch (R199, 11_faults R267). -/
def State.barWaits (s : State) (core : Nat) (c : Crew) (bar : Nat) : Option State :=
  if bar == 0 || isLocal bar then none
  else match s.engPlace core c bar 16 true with
    | (_, .miss h) => some (s.askMiss c.ctx bar h)
    | (_, .held) => some s
    | _ => none

/-- The page of a SQUEEZE source has no valid entry: it is resolved before the record's blocks are counted (R198, R199). -/
def State.squeezeMiss (s : State) (core : Nat) (c : Crew) (r : Nat) : Option State :=
  let src := recF r 64 64
  let miss (v : Nat) : Option State := match s.engineAt core c v 4 false with | (_, .miss h) => some (s.askMiss c.ctx v h) | _ => none
  if recF r 457 1 == 1 then (match miss src with | some x => some x | none => miss (src + recF r 320 32 - 1)) else none

/-- What the write-back of a record waits for: the record's page (11_faults R258, R267), or the host link, where a release at SYS has bytes for the host (R200, 14_system R307). -/
def State.endWaits (s : State) (c : Crew) (at_ : Nat) (t : Option Transfer) : Option State :=
  match s.walk c.ctx at_ with
  | .missing _ => if s.isRefused c.ctx at_ then none else some (s.askMiss c.ctx at_ false)
  | .leaf _ pte bits => if s.placeHeld (s.leafPlace c.ctx pte bits at_) then some s else
      (match t with
       | some x => if recF x.record 460 3 == 5 && s.hostLost && s.hostL2.any (fun y => y.wroteBy x.id 0 65535 && y.dirty.any fun b => b) then some s else none
       | none => none)
  | .malformed => none

/-- COPY_HEAD_TAKEN (R194, R195): an idle channel takes its first head. -/
def execCopyHeadTaken (core : Nat) (ch : BitVec 2) (s : State) : Out :=
  let x := s.channel core ch
  match x.chain, x.heads with
  | none, h :: r => .next (s.setChannel { x with heads := r, chain := some h, next := some h.addr, ordered := false })
  | _, _ => .next s

/-- The release of a record at its SCOPE, of what it has written of the host window: at SYS written back, at a narrower scope passed on (06_consistency R160, R161, R200). -/
def State.recordRelease (s : State) (rec r : Nat) : State :=
  let mine (x : CacheSector) : Bool := x.wroteBy rec 0 65535 && x.dirty.any fun b => b
  if recF r 460 3 == 5 then s.released.cleanSectors mine else { s.released with hostL2 := updWhere mine (fun x => { x with passedOn := true }) s.hostL2 }

/-- The end of a record: OWN = 0 and ERR written back, a release at SCOPE (R200) of what the record named `rec` has written, the status, the interrupt (R199 to R201). -/
def State.endRecord (s : State) (core : Nat) (ch : BitVec 2) (c : Crew) (h : Head) (at_ r : Nat) (rec : Option Nat) (cause : Option Nat) : State :=
  let byte := recF r 448 8
  let b1 := recSet (recSet byte 0 1 0) 7 1 (bit01 cause.isSome)
  let s0 := match rec with
    | some id => s.recordRelease id r
    | none => s
  let s1 := match s0.kernelPlace c.ctx at_ with
    | some (p, _) => s0.performWrite (some core) (p.plus 56) [BitVec.ofNat 8 b1] false
    | none => s0.tookRefusal c.ctx at_
  let s2 := s1.chanStatus h.crew ch cause
  if recF r 456 1 == 1 then s2.postInterrupt h.crew (recF r 464 10) ch cause.isSome else s2

/-- What an engine reads. -/
inductive EngRead where
  | ok (bs : List Byte) (poisoned : Bool)
  | miss (va : Nat) (host : Bool)
  | held
  | bad (cause : Nat)
deriving DecidableEq, Repr

/-- The poison cause of a failed translation, at the source or the destination (R205). -/
def xlCause (dst : Bool) (c : Cause) : Nat := if c == .permission then 4 else if dst then 3 else 2

/-- NSTATUS gains a bit (01_execution R50). -/
def State.setNstatus (s : State) (crew bit : Nat) : State := s.modCrew crew fun c => { c with nstatus := c.nstatus ||| (1#3 <<< bit) }

/-- A load or atomic that ends without an answer gives all ones, as its landing would, and a bit of NSTATUS (01_execution R28, R42, R50). -/
def State.onesLand (s : State) (o : Op) (bit : Nat) (d : Reg) (n : Nat) (tag : Tag) (sh : Shape) : State :=
  let ws := List.replicate n (0xFFFFFFFF : Word)
  let s1 := s.setNstatus o.crew bit
  if s1.runOn o then
    let s2 := s1.valueCame o (.logged d tag sh ws)
    { s2 with ops := s2.ops.map fun x => if x.id == o.id then { x with peer := none, host := false, frozen := false } else x }
  else (s1.landWords o d tag sh ws).retireOp o

/-- One read of an engine within a page; a remote one times out where no plane lives (13_fabric R288), and may by a free bit, and gives all ones with TIMEOUT (06_consistency R176, 13_fabric R290). -/
def State.engPiece (s : State) (core : Nat) (c : Crew) (v n : Nat) : State × EngRead :=
  match s.engPlace core c v n false with
  | (s1, .miss h) => (s1, .miss v h)
  | (s1, .held) => (s1, .held)
  | (s1, .lost) => (s1.setNstatus c.id 1, .ok (List.replicate n 255) false)
  | (s1, .bad x) => (s1, .bad (xlCause false x))
  | (s1, .ok p) =>
    if (s1.peerOf p).isSome && (s1.noPlane || Config.freeBit s1.free) then (s1.bumpFree.setNstatus c.id 0, .ok (List.replicate n 255) false)
    else (if (s1.peerOf p).isSome || p.isDev then s1.bumpFree else s1, .ok (s1.homeRead p n) (s1.poisonedAt p n))

/-- One such read that is an access of its own. -/
def State.engRead (s : State) (core : Nat) (c : Crew) (v n : Nat) : State × EngRead := (s.noteAt core c v).engPiece core c v n

/-- Several reads joined. -/
def State.engReads (s : State) (core : Nat) (c : Crew) (n : Nat) : List Nat → State × EngRead
  | [] => (s, .ok [] false)
  | v :: r =>
    match s.engPiece core c v n with
    | (s1, .ok bs p) =>
      match s1.engReads core c n r with
      | (s2, .ok bs2 p2) => (s2, .ok (bs ++ bs2) (p || p2))
      | x => x
    | x => x

/-- TRANSFER_RECORD_FETCH (R195, R197, R199): the next record of the chain is read, checked and begun. A page that may not be read counts as a fatal translation of the record, cause 2 (log 74). -/
def execTransferRecordFetch (core : Nat) (ch : BitVec 2) (s : State) : Out :=
  let x := s.channel core ch
  match x.chain with
  | none => .next s
  | some h =>
    match s.getCrew h.crew with
    | none => .next (s.endChain core ch h)
    | some c =>
      match x.next with
      | none => .next (s.endChain core ch h)
      | some at_ =>
        match s.engRead core c at_ 64 with
        | (s1, .miss va host) => .next (s1.askMiss h.ctx va host)
        | (_, .held) => .next s
        | (s1, .bad _) => .next ((s1.chanStatus h.crew ch (some 2)).endChain core ch h)
        | (s1, .ok _ true) => .next ((s1.chanStatus h.crew ch (some 5)).endChain core ch h)
        | (s1, .ok bs false) =>
            let r := bytesNat bs
            let bar := recF r 192 64
            if recF r 448 1 == 0 then .next (s1.endChain core ch h)
            else match (if engineForm bar && bar % 16 == 0 then s1.barWaits core c bar else none) with
            | some s2 => .next s2
            | none =>
              if !(s1.barOk c bar && s1.recordOk c r) then
                match s1.endWaits c at_ none with
                | some s2 => .next s2
                | none =>
                  let s2 := if s1.barOk c bar then (s1.recordCasts c r).foldl (fun (st : State) y => st.castBar c bar (.poison 1) y) s1 else s1
                  .next ((s2.endRecord core ch c h at_ r none (some 1)).endChain core ch h)
              else if recF r 458 1 == 1 && s1.transfers.any fun t => t.head.op == h.op then .next s1
              else match s1.squeezeMiss core c r with
              | some s2 => .next s2
              | none =>
                let s2 := s1.setChannel { x with next := if recF r 0 64 == 0 then none else some (recF r 0 64) }
                .next { s2 with nextId := s2.nextId + 1, transfers := s2.transfers ++ [⟨s2.nextId, core, ch, h, at_, r, s2.recordSectors c r, [], none⟩] }

/-! ### Landing -/

/-- Two bytes of one dequantised element (R128). -/
def dequantElem (scale nibble : Nat) : List Byte :=
  let v : Ex := if scale == 255 then .nan else ((fE2M1.value nibble).mul (e8m0Value scale)).1
  natBytes 2 (fBF16.round v .rne false).1

/-- Stored bytes of a squeezed range from a place in its packed form on (R198), each found by the translation of its block. -/
def State.storedBytes (s : State) (core : Nat) (c : Crew) (src sqz : Nat) (ty : SqzType) : Nat → Nat → State × EngRead
  | _, 0 => (s, .ok [] false)
  | off, n + 1 =>
    let v := src + off / sqzSize ty sqz * (32 * sqzBytes ty)
    match s.engPlace core c v 4 false with
    | (s1, .miss h) => (s1, .miss v h)
    | (s1, .held) => (s1, .held)
    | (s1, .lost) =>
      match (s1.setNstatus c.id 1).storedBytes core c src sqz ty (off + 1) n with
      | (s2, .ok bs p) => (s2, .ok (255 :: bs) p)
      | x => x
    | (s1, .bad x) => (s1, .bad (xlCause false x))
    | (s1, .ok (.scratch ..)) => (s1, .bad 2)
    | (s1, .ok (.mem pa frame z k)) =>
      match s1.storedBytes core c src sqz ty (off + 1) n with
      | (s2, .ok bs p) => (s2, .ok (cellGet s1.mem (frame + (pa - frame) / (32 * sqzBytes ty) * sqzSize ty sqz + off % sqzSize ty sqz) :: bs) (p || s1.poisonedAt (.mem pa frame z k) 4))
      | x => x

/-- The bytes a record lands in one sector: `off` and `n` place them in the row (R128, R198). -/
def State.sectorBytes (s : State) (core : Nat) (c : Crew) (r row off n : Nat) : State × EngRead :=
  let src := recF r 64 64
  let ss := if recF r 352 16 == 1 then 0 else recS r 384 32
  match recF r 449 3 with
  | 2 => (s, .ok ((List.range (n / 4)).flatMap fun _ => natBytes 4 (recF r 256 32)) false)
  | 4 =>
    let m := off / 64
    match (s.noteAt core c (src + 16 * m)).engReads core c 1 ((recF r 256 64 + m) :: (List.range 16).map fun i => src + 16 * m + i) with
    | (s1, .ok bs p) =>
      let x := (bs.headD 0).toNat
      let q := bs.drop 1
      let elem (i : Nat) : Nat := (q.getD (i / 2) 0).toNat / 16 ^ (i % 2) % 16
      (s1, .ok ((((List.range 32).flatMap fun i => dequantElem x (elem i)).drop (off % 64)).take n) p)
    | x => x
  | _ =>
    if recF r 457 1 == 1 then
      match s.squeezeOf c.ctx src with
      | some (sqz, ty) =>
        let v := src + off / sqzSize ty sqz * (32 * sqzBytes ty)
        let s1 := s.noteAt core c v
        match s1.engPlace core c v 4 false with
        | (s2, .ok p) =>
          if (s2.peerOf p).isSome && (s2.noPlane || Config.freeBit s2.free) then (s2.bumpFree.setNstatus c.id 0, .ok (List.replicate n 255) false)
          else (if (s2.peerOf p).isSome then s2.bumpFree else s2).storedBytes core c src sqz ty off n
        | _ => s1.storedBytes core c src sqz ty off n
      | none => (match s.engPlace core c src 4 false with
        | (s1, .miss h) => (s1, .miss src h)
        | (s1, .held) => (s1, .held)
        | (s1, _) => (s1, .bad 2))
    else (s.noteAt core c (rowAddr src ss row + off)).engReads core c 4 ((List.range (n / 4)).map fun i => rowAddr src ss row + off + 4 * i)

/-- Replace a transfer. -/
def State.setTransfer (s : State) (t : Transfer) : State := { s with transfers := s.transfers.map fun x => if x.id == t.id then t else x }

/-- The bytes of a sector a transfer is to land; a MULTICAST reads them once, at the first destination to land it (R198). -/
def State.transferBytes (s : State) (c : Crew) (t : Transfer) (cast : Option Nat) (row i off n : Nat) : State × EngRead :=
  match cast, t.read.find? fun x => x.1 == (row, i) with
  | some _, some x => (s, .ok x.2.1 x.2.2)
  | _, _ => s.sectorBytes t.core c t.record row off n

/-- The transfer once the sector in place n of those left has landed; what a MULTICAST read of it is kept until its last destination has it. -/
def Transfer.landed (t : Transfer) (cast : Option Nat) (row i n : Nat) (bs : List Byte) (poisoned : Bool) : Transfer :=
  let left := t.left.eraseIdx n
  let rest := t.read.filter fun x => x.1 != (row, i)
  { t with left := left, read := if cast.isSome && left.any (fun x => x.2 == (row, i)) then ((row, i), bs, poisoned) :: rest else rest, fault := if poisoned then some 5 else none }

/-- A write of a transfer record at a place: the host-window sectors it writes bear its name (R200), and a sector that the channel's core holds in its L1 follows the write (log 41). -/
def State.recordWrite (s : State) (core : Nat) (t : Transfer) (p : Place) (bs : List Byte) (poisoned : Bool) : State :=
  let s1 := s.performWrite (some core) p bs poisoned
  match p with
  | .mem pa _ _ _ => if p.isHost then { s1 with hostL2 := updWhere (fun x => pa / 32 ≤ x.sector && x.sector ≤ (pa + bs.length - 1) / 32) (fun x => { x with writers := addWriter x.writers t.id 0 65535 }) s1.hostL2 } else s1
  | .scratch .. => s1

/-- SECTOR_LANDING (R198): the n-th sector of those left is read, written and counted at the barrier. A write to another package may time out (13_fabric R290). -/
def execSectorLanding (record n : Nat) (s : State) : Out :=
  match s.transfers.find? fun t => t.id == record with
  | none => .next s
  | some t =>
    match s.getCrew t.head.crew, t.left[n]?, t.fault with
    | some c, some (cast, row, i), none =>
      let r := t.record
      let ds := if recF r 352 16 == 1 then 0 else recS r 416 32
      let d := rowAddr (recF r 128 64) ds row
      let base := d / 32 * 32 + 32 * i
      let lo := max d base
      let hi := min (d + s.rowBytes c r) (base + 32)
      let len := hi - lo
      match (if cast.isSome then none else s.barWaits t.core c (recF r 192 64)) with
      | some s1 => .next s1
      | none =>
      match (if cast.isSome then none else s.barFault t.core c (recF r 192 64)) with
      | some x => .next (s.setTransfer { t with fault := some (xlCause true x) })
      | none =>
      let (s1, rd) := s.transferBytes c t cast row i (lo - d) len
      match rd with
      | .miss va h => .next (s1.askMiss c.ctx va h)
      | .held => .next s
      | .bad cause => .next (s1.setTransfer { t with fault := some cause })
      | .ok bs poisoned =>
        let (s2, x) := match cast with
          | some id => (s1, EngAt.ok (.scratch id (lo % 2 ^ 19)))
          | none => (s1.noteAt t.core c lo).engPlace t.core c lo len true
        match x with
        | .miss h => .next (s2.askMiss c.ctx lo h)
        | .held => .next s
        | .lost => .next ((((s2.setNstatus c.id 1).setNstatus c.id 2).castBar c (recF r 192 64) .land cast).setTransfer (t.landed cast row i n bs poisoned))
        | .bad cause => .next (s2.setTransfer { t with fault := some (xlCause true cause) })
        | .ok p =>
          if s2.unknownDevice p then .refused .deviceRegister
          else
            let remote := (s2.peerOf p).isSome
            let late := remote && (s2.noPlane || Config.freeBit s2.free)
            let s3 := if late then (s2.bumpFree.setNstatus c.id 2) else (if remote then s2.bumpFree else s2)
            let s4 := if late && (s3.noPlane || Config.freeBit s3.free) then s3.bumpFree else s3.recordWrite t.core t p bs poisoned
            let s5 := (if recF r 192 64 == 0 then s4 else s4.recordRelease t.id r).castBar c (recF r 192 64) .land cast
            .next (s5.setTransfer (t.landed cast row i n bs poisoned))
    | _, _, _ => .next s

/-- RECORD_COMPLETION (R200): every sector has landed. -/
def execRecordCompletion (record : Nat) (s : State) : Out :=
  match s.transfers.find? fun t => t.id == record with
  | none => .next s
  | some t =>
    match s.getCrew t.head.crew with
    | none => .next s
    | some c =>
      if !t.left.isEmpty || t.fault.isSome then .next s
      else match s.endWaits c t.at_ (some t) with
      | some s1 => .next s1
      | none =>
        let s1 : State := { s with transfers := s.transfers.filter fun x => x.id != t.id }
        let s2 := s1.endRecord t.core t.ch c t.head t.at_ t.record (some t.id) none
        let ch := s2.channel t.core t.ch
        .next (if ch.next.isNone && (ch.chain.map fun h => h.op) == some t.head.op then s2.endChain t.core t.ch t.head else s2)

/-- RECORD_POISON (R201): a record that met a fault ends, and its chain with it. -/
def execRecordPoison (record : Nat) (s : State) : Out :=
  match s.transfers.find? fun t => t.id == record with
  | none => .next s
  | some t =>
    match s.getCrew t.head.crew, t.fault with
    | some c, some cause =>
      let bar := recF t.record 192 64
      match s.barWaits t.core c bar with
      | some s1 => .next s1
      | none =>
        match s.endWaits c t.at_ (some t) with
        | some s1 => .next s1
        | none =>
          let s1 : State := { s with transfers := s.transfers.filter fun x => x.id != t.id }
          let s2 := (s1.recordCasts c t.record).foldl (fun (st : State) y => st.castBar c bar (.poison cause) y) s1
          .next ((s2.endRecord t.core t.ch c t.head t.at_ t.record (some t.id) (some cause)).endChain t.core t.ch t.head)
    | _, _ => .next s

/-! ### Interrupts -/

/-- USER_INTERRUPT_ENTRY (R206): the lowest pending channel, at a run boundary of the fibre; an acquire (R168). While UIVEC is 0 there is no handler to enter, and the interrupt stays pending (log 75). -/
def execUserInterruptEntry (crew rank : Nat) (s : State) : Out :=
  match s.getCrew crew with
  | none => .next s
  | some c =>
    match c.fib rank with
    | none => .next s
    | some f =>
      match ((List.range 4).zip f.uiPend).find? fun p => p.2.isSome with
      | none => .next s
      | some (ch, p) =>
        if c.life == .resident && f.live && (f.st == .ready || f.st == .blocked) && !c.uiMasked && c.uiVec != 0 && !f.uiAct && !f.trapMode && f.tx.isNone && !f.restart && f.deferred.isNone then
          let g (f : Fibre) : Fibre :=
            ({ f with uiRpc := f.pc, uiAct := true, uiCause := BitVec.ofNat 3 (ch + 4 * bit01 (p.getD false)), uiPend := updAt f.uiPend ch fun _ => none,
                      pc := c.uiVec, st := .ready, meeting := none, stamp := s.cycles }).region c.uiVec s.nextId
          .next (((s.modFib crew rank g).acquire c.core 5).modCrew crew fun x => { x with converged := false })
        else .next s

end Sys2Proof.Machine
end

