-- ==== Sys2Proof/Machine/Transactions.lean ====
section
/-! DEFINITION. Hardware transactions: TXBEGIN, TXEND, TXABORT, TXSTAT, interim validation and the serial token (07_transactions R177 to R191). -/
namespace Sys2Proof.Machine

/-- Depth of a fibre (R178). -/
def Fibre.depth (f : Fibre) : Nat := match f.tx with | some t => t.depth | none => 0

/-- The registers of a fibre, with their tags (R186). -/
def Crew.snapshot (c : Crew) (k : Nat) : List (Tag × Word) := (List.range 120).map fun d => ((c.desc d).tag, c.elem d k)

/-- A global store, ATOM or CAS of a fibre has not been performed (R180). -/
def State.globalWritesOut (s : State) (crew k : Nat) : Bool :=
  s.ops.any fun o => o.crew == crew && o.ranks.contains k && o.work.writes && o.work.spans.any fun p => match p.1 with | .mem .. => true | .scratch .. => false

/-- The last value of a register that an attempt has recorded. -/
def Attempt.lastOf (a : Attempt) (d : Nat) : Option (Tag × Word) := (((a.past.filter fun p => p.1 == d).getLast?).map fun p => p.2).orElse fun _ => a.snap[d]?

/-- An attempt records the values its registers and predicates have taken (R186). -/
def Attempt.watch (a : Attempt) (c : Crew) (k : Nat) (preds : BitVec 16) : Attempt :=
  { a with
    past := a.past ++ (List.range a.snap.length).filterMap fun d => let v := ((c.desc d).tag, c.elem d k); if a.lastOf d == some v then none else some (d, v)
    pastPreds := if (a.snapPreds :: a.pastPreds).contains preds then a.pastPreds else a.pastPreds ++ [preds] }

/-- Every attempt of the package does so. -/
def State.watchTx (s : State) : State :=
  { s with crews := s.crews.map fun c =>
      if c.fibres.any fun f => f.tx.isSome then
        { c with fibres := ((List.range c.fibres.length).zip c.fibres).map fun p => { p.2 with tx := p.2.tx.map fun a => a.watch c p.1 p.2.preds } }
      else c }

/-- The request of a fibre joins the tail of the token's queue, unless it holds a place (R189). -/
def State.requestToken (s : State) (crew k count : Nat) : State :=
  if s.token.queue.any fun q => q.1 == crew && q.2.1 == k then s
  else { s with token := { s.token with queue := s.token.queue ++ [(crew, k, count)] } }

/-- An attempt begins (R178): depth 1, empty logs, the interim-validation timer, and pd. -/
def Fibre.beginTx (f : Fibre) (target : PcAddr) (d : Reg) (pd : PReg) (serial : Bool) (now : Nat) (snap : List (Tag × Word)) : Fibre :=
  ({ f with tx := some ⟨1, target, d, pd, [], [], serial, now, now, false, snap, f.preds, [], []⟩ }).setPred pd true

/-- TXBEGIN (R178). A fibre that must wait for the serial token leaves the run, its row for d taken; the grant completes its TXBEGIN (R191). -/
def execTxbegin (e : Bool) (d : Reg) (pd : PReg) (s : State) : Out :=
  s.perform (.txbegin e d pd) fun s c t =>
    let fib (k : Nat) (p : Fibre → Bool) : Bool := match c.fib k with | some f => p f | none => false
    if t.x.any fun k => fib k (fun f => f.depth == 0) && s.globalWritesOut c.id k then s.stall t
    else
      let deep := t.x.filter fun k => fib k fun f => f.depth == 7
      let rest := t.x.filter fun k => !deep.contains k
      let waits := rest.filter fun k => fib k fun f => f.depth == 0 && f.abortCount == 4 && s.token.holder != some (c.id, k)
      let go := rest.filter fun k => !waits.contains k
      let deeps (st : State) : State := deep.foldl (fun st k => st.abortTx c.id k .depth) st
      match (if rest.isEmpty then some c else c.prepare [destG d.toNat .ui32 []] rest) with
      | none =>
        let (s1, t1) := (deeps s).trapTurn { t with gone := t.gone ++ deep } (overflowAll rest)
        s1.finish t1 []
      | some c1 =>
        let s1 := s.modCrew c.id fun _ => c1
        let start (k : Nat) (f : Fibre) : Fibre :=
          match f.tx with
          | some a => ({ f with tx := some { a with depth := a.depth + 1 } }).setPred pd true
          | none => f.beginTx (t.i.pc + 4) d pd (s.token.holder == some (c.id, k)) s.ticks (c.snapshot k)
        let s2 := (s1.overwrite t.i rest [d.toNat, 128 + pd.toNat]).modRanks c.id go start
        let s3 := if go.isEmpty then s2 else (s2.unmark c.id go [d.toNat]).modCrew c.id fun c2 => c2.putValue d.toNat .g .ui32 0 0 (go.map fun k => (k, 0))
        let s4 := waits.foldl (fun (st : State) k =>
          (st.requestToken c.id k 4).modFib c.id k fun f => { f with st := .awaitToken, pc := t.i.pc, begins := some (d, pd) }) s3
        (deeps s4).finish { t with gone := t.gone ++ deep ++ waits } go

/-- The value a load of a logged sector would return now, at its place (R184, R185). -/
def State.sectorNow (s : State) (core ctx va : Nat) (write : Bool) : State × Xl := s.xlate core ctx va write false (s.privileged ctx)

/-- Translations of the logged sectors of an attempt, in ascending virtual address order: where each lies, or the first that stops the commit. -/
def State.logPlaces (s : State) (core ctx : Nat) (write : Bool) : List LogSector → State × Except (Xl × Nat) (List (LogSector × Place))
  | [] => (s, .ok [])
  | l :: r =>
    match s.sectorNow core ctx l.va write with
    | (s1, .ok p _) =>
      match s1.logPlaces core ctx write r with
      | (s2, .ok ps) => (s2, .ok ((l, p) :: ps))
      | (s2, .error x) => (s2, .error x)
    | (s1, x) => (s1, .error (x, l.va))

/-- Insertion by address. -/
def insertSector (l : LogSector) : List LogSector → List LogSector
  | [] => [l]
  | x :: r => if l.va < x.va then l :: x :: r else x :: insertSector l r

def sortSectors (l : List LogSector) : List LogSector := l.foldr insertSector []

/-- The runs of written bytes of a write-log sector: offset and bytes. -/
def writeRuns (l : LogSector) : List (Nat × List Byte) :=
  (List.range 32).foldl (fun acc i =>
    if l.mask.getD i false then
      match acc.getLast? with
      | some (o, bs) => if o + bs.length == i then acc.dropLast ++ [(o, bs ++ [l.bytes.getD i 0])] else acc ++ [(i, [l.bytes.getD i 0])]
      | none => [(i, [l.bytes.getD i 0])]
    else acc) []

/-- Sectors in common. -/
def logsMeet (a b : List LogSector) : Bool := a.any fun x => b.any fun y => x.va == y.va

/-- Step 1 of R184: an attempt in conflict with a survivor's. -/
def siblings (f g : Attempt) : Bool := logsMeet g.writes f.reads || logsMeet g.writes f.writes || logsMeet f.writes g.reads

/-- Steps 1 and 2 of R184: the survivors, and those that abort with their causes. A holder of the token that step 1 aborts has released it before step 2 (R186). -/
def State.survivors (s : State) (crew : Nat) : List (Nat × Attempt) → List (Nat × Attempt) → List (Nat × TxCause) → List (Nat × Attempt) × List (Nat × TxCause)
  | [], keep, out =>
    let others (k : Nat) : Bool := match s.token.holder with | some h => h != (crew, k) && !(h.1 == crew && out.any fun p => p.1 == h.2) | none => false
    (keep.filter fun p => !others p.1, out ++ (keep.filter fun p => others p.1).map fun p => (p.1, .token))
  | (k, a) :: r, keep, out =>
    if keep.any fun p => siblings a p.2 then s.survivors crew r keep (out ++ [(k, .sibling)])
    else s.survivors crew r (keep ++ [(k, a)]) out

/-- Where a survivor's logs lie. -/
structure CommitPlan where
  k : Nat
  a : Attempt
  reads : List (LogSector × Place)
  writes : List (LogSector × Place)

/-- The translations of every survivor: none when a recoverable miss must be resolved first, with its address. -/
def State.commitPlans (s : State) (core ctx : Nat) : List (Nat × Attempt) → State × List CommitPlan × List Nat × Option (Nat × Bool)
  | [] => (s, [], [], none)
  | (k, a) :: r =>
    let (s1, rd) := s.logPlaces core ctx false (sortSectors a.reads)
    let (s2, wr) := s1.logPlaces core ctx true (sortSectors a.writes)
    let (s3, plans, faults, miss) := s2.commitPlans core ctx r
    match rd, wr with
    | .ok x, .ok y => (s3, ⟨k, a, x, y⟩ :: plans, faults, miss)
    | .error (.miss h, va), _ => (s3, plans, faults, miss.orElse fun _ => some (va, h))
    | _, .error (.miss h, va) => (s3, plans, faults, miss.orElse fun _ => some (va, h))
    | _, _ => (s3, plans, k :: faults, miss)

/-- The accesses of a commit to its logged sectors count at their home slices (05_memory R146). -/
def State.noteCommit (s : State) (c : Crew) (p : CommitPlan) : State := (p.reads ++ p.writes).foldl (fun (st : State) r => st.noteAccess c.core c.ctx r.1.va r.2) s

/-- Step 3 of R184 for one survivor: a poisoned sector of the read log counts as changed, and each run of written bytes is one step on its block (log 70). -/
def State.commitOne (s : State) (c : Crew) (pd : PReg) (p : CommitPlan) : State × Bool :=
  let same := p.reads.all fun r => s.homeRead r.2 32 == r.1.bytes && !s.poisonedAt r.2 32
  if same then
    let s1 := p.writes.foldl (fun (st : State) w => (writeRuns w.1).foldl (fun (st : State) x => st.performWrite (some c.core) (w.2.plus x.1) x.2 false) st) s
    let s2 := s1.modFib c.id p.k fun f => ({ f with tx := none, txCause := 0, abortCount := 0 }).setPred pd true
    ({ s2 with token := if s2.token.holder == some (c.id, p.k) then { s2.token with holder := none } else s2.token }, true)
  else (s.abortTx c.id p.k .conflict, false)

/-- A logged sector lies on a page at the switch of its migration, or the accesses held there have not all been served at the new home: the commit is held as an atomic is (R185, 05_memory R147). -/
def State.commitHeld (s : State) (ps : List CommitPlan) : Bool := ps.any fun p => (p.reads ++ p.writes).any fun r => s.placeHeld r.2

/-- The logs touch bytes that another fibre of the core has accessed ahead of its older accesses: the commit waits for those (06_consistency R158). -/
def State.commitShadowed (s : State) (c : Crew) (ps : List CommitPlan) : Bool := ps.any fun p =>
  s.shadowed c.core c.id [p.k] false (p.reads.map fun r => (r.2, 32)) || s.shadowed c.core c.id [p.k] true (p.writes.map fun r => (r.2, 32))

/-- What the commit of the outermost TXENDs of an issue finds before its first lock (R184, R185). -/
structure CommitLook where
  s : State
  out : List (Nat × TxCause)
  plans : List CommitPlan
  faults : List Nat
  waits : Bool

/-- The fibres of an issue at an outermost TXEND, with their attempts. -/
def Crew.outermost (c : Crew) (x : List Nat) : List (Nat × Attempt) :=
  x.filterMap fun k => match c.attempt k with | some a => if a.depth == 1 then some (k, a) else none | none => none

/-- Steps 1 and 2 of R184 and the translations of the logs; the commit waits for older accesses, a recoverable miss, which is asked for, or a switch. -/
def State.lookCommit (s : State) (c : Crew) (outer : List (Nat × Attempt)) : CommitLook :=
  let (keep, out) := s.survivors c.id outer [] []
  let (s1, plans, faults, miss) := s.commitPlans c.core c.ctx keep
  match miss with
  | some (va, h) => ⟨s1.askMiss c.ctx va h, out, plans, faults, true⟩
  | none => ⟨s1, out, plans, faults, outer.any (fun p => s.seqBusy c.id p.1 0xFFFF) || s1.commitHeld plans || s1.commitShadowed c plans⟩

/-- The outermost attempts are decided (R184, R185): the losers of steps 1 and 2 abort, faults abort with FAULT, and the others are validated and applied in ascending rank. The fibres that have aborted come with it. -/
def State.commitAll (s : State) (c : Crew) (pd : PReg) (l : CommitLook) : State × List Nat :=
  let s3 := l.out.foldl (fun (st : State) p => st.abortTx c.id p.1 p.2) s
  let s4 := l.faults.foldl (fun (st : State) k => st.abortTx c.id k .fault) s3
  let s5 := l.plans.foldl (fun (st : State) p => st.release c.id p.k 3 0xFFFF) s4
  let (s6, lost) := l.plans.foldl (fun (acc : State × List Nat) p =>
    let r := (acc.1.noteCommit c p).commitOne c pd p
    (r.1, if r.2 then acc.2 else acc.2 ++ [p.k])) (s5, [])
  let gone := l.out.map (fun p => p.1) ++ l.faults ++ lost
  let s7 := if l.plans.isEmpty then s6 else s6.acquire c.core 3
  (if !gone.isEmpty && gone.length != (l.out.length + l.faults.length + l.plans.length) then s7.diverge c.id else s7, gone)

/-- A TXEND that ends no attempt: pd = 0 outside one, one level less inside. -/
def Fibre.innerTxend (pd : PReg) (f : Fibre) : Fibre :=
  match f.tx with
  | none => f.setPred pd false
  | some a => if a.depth == 1 then f else ({ f with tx := some { a with depth := a.depth - 1 } }).setPred pd true

/-- TXEND (R178, R179, R184). Fibres whose commit cannot be decided yet are Blocked in Committing, together and holding no lane, until it is; the others of the issue go on. -/
def execTxend (pd : PReg) (s : State) : Out :=
  s.perform (.txend pd) fun s c t =>
    let outer := c.outermost t.x
    let l := s.lookCommit c outer
    let ranks := outer.map fun p => p.1
    let others := t.x.filter fun k => !ranks.contains k
    let s2 := (l.s.overwrite t.i t.x [128 + pd.toNat]).modRanks c.id others fun _ f => f.innerTxend pd
    if l.waits then
      let s3 := s2.modRanks c.id ranks fun _ f => { f with st := .committing, pc := t.i.group }
      State.finish { s3 with waiting := s3.waiting ++ [{ t.i with ranks := ranks, commit := true }] } { t with gone := t.gone ++ ranks } others
    else if l.plans.any fun p => p.writes.any fun r => s2.unknownDevice r.2 then .refused .deviceRegister
    else
      let r := s2.commitAll c pd l
      r.1.finish { t with gone := t.gone ++ r.2 } t.x

/-- TXABORT (R178, R190). -/
def execTxabort (e : Bool) (s : State) : Out :=
  s.perform (.txabort e) fun s c t =>
    let act := t.x.filter fun k => c.inTx k
    let one (st : State) (k : Nat) : State :=
      match (c.fib k).bind fun f => f.tx with
      | none => st
      | some a =>
        let st1 := st.abortTx c.id k .explicit
        if s.token.holder == some (c.id, k) then st1.trapEntry c.id k ⟨.serialAbort, t.i.pc.setWidth 64⟩ a.target else st1
    (act.foldl one s).finish { t with gone := t.gone ++ act } t.x

/-- Members of a mask, in the bundle of rank k, that are live and whose last attempt aborted (R178). -/
def Crew.txstat (c : Crew) (k : Nat) (m : Word) : Word :=
  (List.range 32).foldl (fun r i =>
    if m.getLsbD i && (match c.fib (k / 32 * 32 + i) with | some f => f.live && f.txCause != 0 | none => false) then r ||| (1#32 <<< i) else r) 0

/-- A source word tagged SI32 or UI32. -/
def intWord (n : Nat) (l : List (Word × Tag)) : Chk Word := if isInt32 (opTag l n) then .ok (opnd l n) else trapWith .formatMismatch 0

/-- TXSTAT (R178): the members' causes as they stand. -/
def execTxstat (e : Bool) (d a : Reg) (s : State) : Out :=
  s.engine (.txstat e d a)
    { srcs := [a], dests := [(d.toNat, .ui32)], check := fun _ _ _ l => intWord 0 l, step := fun st c k w => (st, [c.txstat k w], false) }

/-! ### Steps of their own -/

/-- The read log of an attempt differs from memory (R183): the bytes are compared, a poison mark is not looked at, and a sector whose page has no valid entry counts as unchanged (log 70). -/
def State.logStale (s : State) (ctx : Nat) (a : Attempt) : Bool :=
  a.reads.any fun l => match s.kernelPlace ctx l.va with
    | some (p, _) => s.homeRead p 32 != l.bytes
    | none => false

/-- INTERIM_VALIDATION (R183): due every 16,384 ticks; a mismatch aborts with CONFLICT at the next run boundary. -/
def execInterimValidation (crew rank : Nat) (s : State) : Out :=
  match (s.getCrew crew).bind fun c => (c.fib rank).bind fun f => f.tx.map fun a => (c, f, a) with
  | none => .next s
  | some (c, f, a) =>
    let due := a.checked + 16384 ≤ s.ticks
    let bad := a.failed || (due && s.logStale c.ctx a)
    if bad && f.st != .issuing && f.st != .committing && c.life == .resident then .next ((s.abortTx crew rank .conflict).modCrew crew Crew.fixConv)
    else if due || bad then .next (s.modFib crew rank fun g => { g with tx := some { a with checked := if due then s.ticks else a.checked, failed := bad } })
    else .next s

/-- The token granted to a fibre that awaits it completes its TXBEGIN (R178, R191): Active in serial mode at depth 1, d = 0, pd = 1, at the word after it, where a region begins. -/
def State.grantedBegin (s : State) (crew k : Nat) : State :=
  match (s.getCrew crew).bind fun c => (c.fib k).bind fun f => f.begins.map fun b => (c, b) with
  | none => s
  | some (c, d, pd) =>
    ((s.unmark crew [k] [d.toNat]).modCrew crew fun c1 => (c1.putValue d.toNat .g .ui32 0 0 [(k, 0)]).modFib k fun f =>
      { (f.beginTx (f.pc + 4) d pd true s.ticks (c.snapshot k)).region (f.pc + 4) s.nextId with st := .ready, pc := f.pc + 4, begins := none, stamp := s.cycles }).modCrew crew Crew.fixConv

/-- SERIAL_TOKEN_GRANT (R189): to the first request in the queue whose fibre is resident; one that waits at its TXBEGIN goes on, and one still on its way to it finds the token held there. -/
def execSerialTokenGrant (s : State) : Out :=
  if s.token.holder.isSome then .next s
  else
    let ok (q : Nat × Nat × Nat) : Bool := match s.getCrew q.1 with
      | some c => c.life == .resident && c.fibTest (fun f => f.live) q.2.1
      | none => false
    match s.token.queue.find? ok with
    | none => .next s
    | some q => .next (State.grantedBegin { s with token := ⟨some (q.1, q.2.1), s.token.queue.filter fun x => x != q⟩ } q.1 q.2.1)

end Sys2Proof.Machine
end

