-- ==== Sys2Proof/Machine/Crumbs.lean ====
section
/-! DEFINITION. Crumb counters, and the steps on task queues that they share with the task instructions (09_crumbs R213 to R224). -/
namespace Sys2Proof.Machine

/-! ### Task queues -/

/-- The task queue of a context with a number. -/
def State.taskQueue (s : State) (ctx num : Nat) : Option TaskQueue := s.taskQueues.find? fun q => q.ctx == ctx && q.num == num

/-- A field of a task queue's descriptor (R222). -/
def State.tqField (s : State) (q : TaskQueue) (lo n : Nat) : Nat := recF (cellNat s.mem q.desc 64) lo n

/-- A word of a descriptor as its owner writes it: a word that keeps its value is not written (log 63). -/
def State.putWord (s : State) (pa v : Nat) : State :=
  if cellRead s.mem pa 4 == natBytes 4 v then s else s.performWrite none (kernelAt pa) (natBytes 4 v) false

/-- The counts of R222 follow the slots, and `more` is added to a counter of failures at a byte offset. -/
def State.setQueue (s : State) (q : TaskQueue) (failAt more : Nat) : State :=
  let n (x : SlotState) : Nat := (q.slots.filter fun y => y.1 == x).length
  let s1 : State := { s with taskQueues := updWhere (fun x => x.num == q.num) (fun _ => q) s.taskQueues }
  let s2 := ((s1.putWord (q.desc + 16) (n .free)).putWord (q.desc + 20) (n .reserved)).putWord (q.desc + 24) (n .committed)
  if more == 0 then s2 else s2.putWord (q.desc + failAt) (cellNat s2.mem (q.desc + failAt) 4 + more)

/-- The queue and slot a task handle names, when the slot is reserved under its GEN (R223). -/
def State.handleSlot (s : State) (ctx : Nat) (h : Word) : Option (TaskQueue × Nat) :=
  match s.taskQueue ctx (recF h.toNat 22 10) with
  | none => none
  | some q =>
    let i := recF h.toNat 0 16
    match q.slots[i]? with
    | some (.reserved, g) => if g == recF h.toNat 16 6 then some (q, i) else none
    | _ => none

/-- A slot with a new state, under the GEN it has. -/
def TaskQueue.setSlot (q : TaskQueue) (i : Nat) (x : SlotState) : TaskQueue := { q with slots := updAt q.slots i fun y => (x, y.2) }

/-- A commit (R223, R224): a reserved slot joins the dispatch order. -/
def State.commitTask (s : State) (ctx : Nat) (h : Word) : State :=
  match s.handleSlot ctx h with
  | some (q, i) => s.setQueue { q.setSlot i .committed with order := q.order ++ [i] } 32 0
  | none => s

/-- A drop (R223). -/
def State.dropTask (s : State) (ctx : Nat) (h : Word) : State :=
  match s.handleSlot ctx h with
  | some (q, i) => s.setQueue (q.setSlot i .free) 32 0
  | none => s

/-- A poisoned commit (R223): the slot is free, ERRORS counts, and the status block says so. -/
def State.poisonTask (s : State) (ctx : Nat) (h : Word) : State :=
  match s.handleSlot ctx h with
  | some (q, i) => (s.setQueue (q.setSlot i .free) 32 1).ctxStatus ctx fun c => { c with bits := c.bits ||| 2 }
  | none => s

/-! ### Counters -/

/-- The counter a handle names (R213). -/
def State.crumb (s : State) (h : Word) : Option Crumb := s.crumbs.find? fun c => c.slice == recF h.toNat 26 6 && c.index == recF h.toNat 16 10

/-- A handle of a counter. -/
def Crumb.handle (c : Crumb) : Word := BitVec.ofNat 32 (c.slice * 2 ^ 26 + c.index * 2 ^ 16 + c.gen.toNat)

/-- Next arming number, skipping 0 (R213). -/
def nextGen (g : BitVec 16) : BitVec 16 := if g + 1 == 0 then 1 else g + 1

/-- What arming finds. -/
inductive Arming where
  | miss (va : Nat) (host : Bool)
  | trap (s : State) (t : Trap)
  | wait
  | device
  | ok (s : State) (handle : Word)

/-- What the walk of a region finds: its physical ranges, or why not. -/
inductive Pages where
  | miss (va : Nat)
  | trap (t : Trap)
  | ok (l : List (Nat × Nat))
deriving DecidableEq, Repr

/-- A walk that found no leaf (R143, R258). -/
def State.noLeaf (s : State) (ctx va : Nat) (missing : Bool) : Pages :=
  if missing && !s.isRefused ctx va then .miss va else .trap ⟨.translation, BitVec.ofNat 64 va⟩

/-- The pages of a region, in this package, not of the host window, homed (R216); `n` bytes from an address, `rec` the record's address. -/
def State.regionPages (s : State) (ctx rec : Nat) : Nat → Nat → Nat → Pages
  | 0, _, _ => .ok []
  | k + 1, va, n =>
    if n == 0 then .ok [] else
    match s.walk ctx va with
    | .missing _ => s.noLeaf ctx va true
    | .malformed => s.noLeaf ctx va false
    | .leaf _ pte bits =>
      if s.leafBad pte bits then s.noLeaf ctx va false
      else
        let pa := pteFrame pte + va % 2 ^ bits
        let m := min n (2 ^ bits - va % 2 ^ bits)
        if paPeer pa != s.pkg || inHost (paLocal pa) || recF pte 10 1 == 0 then .trap ⟨.permission, BitVec.ofNat 64 rec⟩
        else match s.regionPages ctx rec k (va + m) (n - m) with
          | .ok l => .ok ((pa, m) :: l)
          | x => x

/-- Every extent of a range is homed in a slice. -/
def State.rangeHome (s : State) (slice : Nat) (r : Nat × Nat) : Bool :=
  (List.range ((r.1 % 2 ^ 21 + r.2 + 2 ^ 21 - 1) / 2 ^ 21)).all fun i => s.home (r.1 / 2 ^ 21 * 2 ^ 21 + i * 2 ^ 21) == slice

/-- The checks on an arm record by itself (R214, R216). A region of no bytes is refused with those (log 22). -/
def armFields (r : Nat) : Bool :=
  let action := recF r 136 2
  let base := recF r 0 64
  let len := recF r 64 32
  recF r 139 21 == 0 && action < 3 && recF r 96 40 != 0 && (recF r 160 32 == 0) == (action != 2) && (action == 0 || recF r 224 32 == 0) &&
  base < 2 ^ 57 && base % 32 == 0 && len % 32 == 0 && len != 0 && base + len ≤ 2 ^ 57

/-- The checks on the record's operand that do not depend on the counter chosen (R216). -/
def State.armOperand (s : State) (c : Crew) (rec r : Nat) : Pages :=
  let no : Pages := .trap ⟨.permission, BitVec.ofNat 64 rec⟩
  let v := recF r 192 64
  match recF r 136 2 with
  | 0 =>
    if 2 ^ 57 ≤ v || v % 16 != 0 then no
    else match s.walk c.ctx v with
      | .missing _ => if s.isRefused c.ctx v then no else .miss v
      | .malformed => no
      | .leaf _ pte bits => if !s.leafBad pte bits && s.barrierPage (s.leafPlace c.ctx pte bits v) pte then .ok [] else no
  | 1 => if (s.taskQueue c.ctx (v / 2 ^ 22)).isSome then .ok [] else no
  | _ => match s.crumb (BitVec.ofNat 32 v) with
    | some x => if x.owner == some c.ctx then .ok [] else no
    | none => no

/-- Whether a page of a region is in one of these states of migration (11_faults R267). -/
def Migration.covers (m : Migration) (l : List (Nat × Nat)) : Bool := l.any fun r => r.1 < m.old + m.size && m.old < r.1 + r.2

/-- The lowest free counter of a slice in the set of the context's partition (R213, R215). -/
def State.freeCrumb (s : State) (ctx slice : Nat) : Option Nat :=
  let set := match (s.getCtx ctx).bind fun c => s.getPart c.part with | some p => p.counters | none => []
  (List.range 1024).find? fun i => set.any (fun p => p.1 == slice && p.2.1 ≤ i && i < p.2.1 + p.2.2) && !(s.crumbs.any fun c => c.slice == slice && c.index == i && c.armed)

/-- The installation step (R216): a new arming; a page of the region being copied returns to Resident (11_faults R267). -/
def State.installCrumb (s : State) (ctx slice i r : Nat) (l : List (Nat × Nat)) : State × Word :=
  let old := s.crumbs.find? fun c => c.slice == slice && c.index == i
  let new : Crumb := ⟨slice, i, nextGen (match old with | some c => c.gen | none => 0), some ctx, l, recF r 96 40, 0, recF r 136 2, recF r 160 32,
    BitVec.ofNat 64 (recF r 192 64), recF r 138 1 == 1, true, false, false, false⟩
  ({ s with crumbs := new :: s.crumbs.filter (fun c => !(c.slice == slice && c.index == i)),
            migrations := s.migrations.filter fun m => !(m.st == .copying && m.covers l) }, new.handle)

/-- CCARM of one fibre (R215, R216). -/
def State.armOne (s : State) (c : Crew) (k va : Nat) : Arming :=
  match s.xlate c.core c.ctx va false false (s.privileged c.ctx) with
  | (_, .miss h) => .miss va h
  | (s1, .bad cause) => .trap s1 ⟨cause, BitVec.ofNat 64 va⟩
  | (s0, .ok p _) =>
    let s1 := s0.noteAccess c.core c.ctx va p
    if s1.unknownDevice p then .device
    else if s1.placeHeld p || s1.placeBusy p || s1.ops.any fun o => o.crew == c.id && o.ranks.contains k && o.work.spans.any fun q => placesMeet q.1 q.2 p 32 then .wait
    else if s1.poisonedAt p 32 then .trap s1 (sectorTrap va)
    else
      let r := if (s1.peerOf p).isSome && s1.noPlane then 2 ^ 256 - 1 else bytesNat (s1.homeRead p 32)
      let no : Arming := .trap s1 ⟨.permission, BitVec.ofNat 64 va⟩
      if !armFields r then no
      else match s1.regionPages c.ctx va (recF r 64 32 / 65536 + 2) (recF r 0 64) (recF r 64 32), s1.armOperand c va r with
        | .miss x, _ => .miss x false
        | .trap t, _ => .trap s1 t
        | .ok _, .miss x => .miss x false
        | .ok _, .trap t => .trap (s1.tookRefusal c.ctx (recF r 192 64)) t
        | .ok l, .ok _ =>
          let slice := s1.home (l.headD (0, 0)).1
          if !l.all (s1.rangeHome slice) then no
          else if s1.migrations.any fun m => m.st == .switching && m.covers l then .wait
          else match s1.freeCrumb c.ctx slice with
            | none => .ok s1 0
            | some i =>
              if recF r 136 2 == 2 && recF r 208 16 ≤ slice * 1024 + i then no
              else let (s2, h) := s1.installCrumb c.ctx slice i r l; .ok s2 h

/-- CCARM of the fibres of an issue in turn: the state, the handles, the traps; or the first that waits or misses. A fibre with a poisoned operand raises Poison where no check before it fails (11_faults R252). -/
def State.armAll (c : Crew) (bad : List (Nat × Trap)) : State → List (Nat × Nat) → Except Arming (State × List (Nat × Word) × List (Nat × Trap))
  | s, [] => .ok (s, [], [])
  | s, (k, va) :: rest =>
    match s.armOne c k va, valOf bad k with
    | .ok s1 h, none => match State.armAll c bad s1 rest with
      | .ok (s2, hs, ts) => .ok (s2, (k, h) :: hs, ts)
      | x => x
    | .ok _ _, some t => match State.armAll c bad s rest with
      | .ok (s2, hs, ts) => .ok (s2, hs, (k, t) :: ts)
      | x => x
    | .trap s1 t, _ => match State.armAll c bad s1 rest with
      | .ok (s2, hs, ts) => .ok (s2, hs, (k, t) :: ts)
      | x => x
    | x, _ => .error x

/-- CCARM (R215, R216). -/
def execCcarm (e : Bool) (d a : Reg) (s : State) : Out :=
  s.perform (.ccarm e d a) fun s c t =>
    let check (_ : Nat) (l : List (Word × Tag)) : Chk Nat :=
      match globalAddr ((opnd l 0).toNat + (opnd l 1).toNat * 2 ^ 32) 0 with
      | .error x => .error x
      | .ok v => (aligned v 32).map fun _ => v
    if s.stepWait c t.x then s.stall t else
    match s.checkAll c t.x (pairOf a) check with
    | none => s.stall t
    | some (vals, traps) =>
      let sp := s.splitPoison c (pairOf a) vals
      let xs := vals.map fun p => p.1
      match (if xs.isEmpty then some c else c.prepare [destG d.toNat .ui32 []] xs) with
      | none =>
        let (s1, t1) := s.trapTurn t (traps ++ overflowAll xs)
        s1.finish t1 []
      | some _ =>
        match State.armAll c sp.2 s vals with
        | .error (.miss va h) =>
          let (s1, t1) := s.trapTurn t traps
          .next (s1.holdIssue t1 va h)
        | .error .device => .refused .deviceRegister
        | .error _ => s.stall t
        | .ok (s1, hs, late) =>
          let steps (k : Nat) : Bool := match c.fib k with | some g => g.stepping | none => false
          if late.any fun p => !steps p.1 && valOf sp.2 p.1 != some p.2 then
            let (s2, t1) := s.trapTurn t traps
            .next (s2.restartIssue t1)
          else
            let done := hs.map fun p => p.1
            match s1.landLater t done [destG d.toNat .ui32 hs] [] [] with
            | none => .next s1
            | some s2 =>
              let (s3, t1) := s2.trapTurn t (traps ++ late)
              s3.finish t1 done

/-- A counter handle (R215): its tag, then its owner. -/
def State.crumbHandle (s : State) (c : Crew) (l : List (Word × Tag)) : Chk Word :=
  match intWord 0 l with
  | .error x => .error x
  | .ok h => (require (match s.crumb h with | some x => x.owner == some c.ctx | none => false) .permission h.toNat).map fun _ => h

/-- The pair CCREAD gives (R215). -/
def Crumb.readPair (c : Crumb) (h : Word) : List Word :=
  if c.gen.toNat != recF h.toNat 0 16 then [0, 0]
  else [BitVec.ofNat 32 c.count, BitVec.ofNat 32 (c.count / 2 ^ 32 % 256 + bit01 c.armed * 256 + bit01 c.taint * 512 + bit01 c.fired * 1024)]

/-- CCREAD (R215); of a counter that an uncorrectable error has met it raises Poison, whose address the manual does not give (05_memory R153; log 62). -/
def execCcread (e : Bool) (d a : Reg) (s : State) : Out :=
  s.engine (.ccread e d a)
    { srcs := [a], dests := [(d.toNat, .ui32), (d.toNat + 1, .ui32)], check := fun st c _ l => (match st.crumbHandle c l with
        | .ok h => if (st.crumb h).any fun x => x.bad && x.gen.toNat == recF h.toNat 0 16 then trapWith .poison 0 else .ok h
        | x => x),
      step := fun st _ _ h => (st, (match st.crumb h with | some x => x.readPair h | none => [0, 0]), false) }

/-- CCDIS (R215). -/
def execCcdis (e : Bool) (a : Reg) (s : State) : Out :=
  s.engine (.ccdis e a)
    { srcs := [a], dests := [], check := fun st c _ l => st.crumbHandle c l,
      step := fun st _ _ h =>
        ({ st with crumbs := updWhere (fun x => x.slice == recF h.toNat 26 6 && x.index == recF h.toNat 16 10 && x.gen.toNat == recF h.toNat 0 16) (fun x => { x with armed := false }) st.crumbs }, [], false) }

/-- The action of a firing (R219). -/
def State.fire (s : State) (f : Firing) : State :=
  let h : Word := f.operand.setWidth 32
  match f.action with
  | 0 => match s.kernelPlace f.ctx f.operand.toNat with
    | some (p, _) => (s.noteAccess (64 * (f.slice / 16)) f.ctx f.operand.toNat p).barAt p (if f.taint then .poison 8 else .arrive)
    | none => s.tookRefusal f.ctx f.operand.toNat
  | 1 => if f.taint then s.poisonTask f.ctx h else s.commitTask f.ctx h
  | _ => match s.crumb h with
    | some c => if c.gen.toNat == recF h.toNat 0 16 then s.countAt c f.k f.taint else s
    | none => s

/-- What an arrival waits for: the resolution of its barrier's page, or the end of a switch (11_faults R258, R267). -/
def State.fireWaits (s : State) (f : Firing) : Option State :=
  if f.action != 0 then none
  else match s.walk f.ctx f.operand.toNat with
    | .missing _ => if s.isRefused f.ctx f.operand.toNat then none else some (s.askMiss f.ctx f.operand.toNat false)
    | .leaf _ pte bits => if s.placeHeld (s.leafPlace f.ctx pte bits f.operand.toNat) then some s else none
    | .malformed => none

/-- CRUMB_FIRING (R219): the firings of one counter act in order. -/
def execCrumbFiring (firing : Nat) (s : State) : Out :=
  match s.firings.find? fun f => f.id == firing with
  | none => .next s
  | some f =>
    if s.firings.any fun g => g.id < f.id && g.slice == f.slice && g.index == f.index then .next s
    else match s.fireWaits f with
    | some s1 => .next s1
    | none => .next (State.fire { s with firings := s.firings.filter fun g => g.id != f.id } f)

/-! ### Task instructions -/

/-- TKRES of one fibre (R224): the pair and the predicate. -/
def State.reserveTask (s : State) (q : TaskQueue) : State × List Word × Bool :=
  if s.tqField q 88 1 == 0 then (s, [0, 2], false)
  else match (List.range q.slots.length).find? fun i => (q.slots.getD i (.reserved, 0)).1 == .free with
    | none => (s.setQueue q 28 1, [0, 1], false)
    | some i =>
      let g := ((q.slots.getD i (.free, 0)).2 + 1) % 64
      let q1 := { q with slots := q.slots.set i (.reserved, g) }
      (s.setQueue q1 28 0, [BitVec.ofNat 32 (s.tqField q 0 32 + 64 * i), BitVec.ofNat 32 (q.num * 2 ^ 22 + g * 2 ^ 16 + i)], true)

/-- TKRES (R224). -/
def execTkres (e : Bool) (d a : Reg) (pd : PReg) (s : State) : Out :=
  s.access (.tkres e d a pd) fun s c _ =>
    { srcs := pairOf a, write := false, bytes := 64,
      check := fun _ l =>
        match globalAddr ((opnd l 0).toNat + (opnd l 1).toNat * 2 ^ 32) 0 with
        | .error x => .error x
        | .ok v => (aligned v 64).map fun _ => ⟨v, none, ()⟩,
      dests := fun _ => [destG d.toNat .ui32 [], destG (d.toNat + 1) .ui32 []],
      now := fun _ => true,
      extra := fun h => if s.taskQueues.any fun q => q.ctx == c.ctx && placesMeet h.p 1 (kernelAt q.desc) 1 then none else some .permission,
      act := fun st t hits =>
        let one (st : State) (h : Hit Unit) : State :=
          match st.taskQueues.find? fun q => q.ctx == c.ctx && placesMeet h.p 1 (kernelAt q.desc) 1 with
          | none => st
          | some q =>
            let (s1, ws, ok) := st.reserveTask q
            (s1.addOp (t.op c h.k [h.k] (.value d .ui32 .g [(h.k, ws.headD 0)] [(h.k, pd, ok)] [])) none).addOp
              (t.op c h.k [h.k] (.value (d + 1) .ui32 .g [(h.k, ws.getD 1 0)] [] [])) none
        hits.foldl one (st.overwrite t.i (hits.map fun h => h.k) [128 + pd.toNat]) }

/-- A task handle (R224). -/
def State.taskHandle (s : State) (c : Crew) (l : List (Word × Tag)) : Chk Word :=
  match intWord 0 l with
  | .error x => .error x
  | .ok h => (require (s.taskQueue c.ctx (recF h.toNat 22 10)).isSome .permission h.toNat).map fun _ => h

/-- The sequence named for the instruction at hand. -/
def State.curSeq (s : State) : BitVec 16 := seqBit (match s.cur with | some i => i.ext.seqOr 0 | none => 0)

/-- TKCOM (R224): a release at POD on its sequence, then the commit. -/
def execTkcom (e : Bool) (a : Reg) (s : State) : Out :=
  s.engine (.tkcom e a)
    { srcs := [a], dests := [], busy := fun st c k => st.seqBusy c.id k st.curSeq || st.fenceHolds c.id k st.curSeq, check := fun st c _ l => st.taskHandle c l,
      step := fun st c k h => ((st.release c.id k 4 st.curSeq).commitTask c.ctx h, [], false) }

/-- TKDROP (R224). -/
def execTkdrop (e : Bool) (a : Reg) (s : State) : Out :=
  s.engine (.tkdrop e a)
    { srcs := [a], dests := [], check := fun st c _ l => st.taskHandle c l, step := fun st c _ h => (st.dropTask c.ctx h, [], false) }

end Sys2Proof.Machine
end

