-- ==== Sys2Proof/Machine/Pipes.lean ====
section
/-! DEFINITION. Pipes (09_crumbs R226 to R230). -/
namespace Sys2Proof.Machine

/-! ### A pipe's storage -/

/-- Entries on chip, and entries of an overflow segment (R226, R228). -/
def pipeChip : Nat := 64
def pipeSegment : Nat := 512

/-- A pipe that can take no entry (R228). -/
def Pipe.full (p : Pipe) : Bool := pipeChip ≤ p.entries.length && p.segments * pipeSegment ≤ p.gone + p.overflow.length

/-- Append at the tail, none when the pipe is full (R227, R228). -/
def Pipe.push (p : Pipe) (v : Word × Tag) : Option Pipe :=
  if p.overflow.isEmpty && p.entries.length < pipeChip then some { p with entries := p.entries ++ [v] }
  else if p.gone + p.overflow.length < p.segments * pipeSegment then some { p with overflow := p.overflow ++ [v] }
  else none

/-- After an entry has left: the oldest overflow entries move on chip, and each segment that has emptied is given back (R228). -/
def Pipe.refill (p : Pipe) : Pipe × Nat :=
  let n := min (pipeChip - p.entries.length) p.overflow.length
  let rest := p.overflow.drop n
  let back := if rest.isEmpty then p.segments else (p.gone + n) / pipeSegment
  if p.overflow.isEmpty then (p, 0)
  else ({ p with entries := p.entries ++ p.overflow.take n, overflow := rest, segments := p.segments - back, gone := if rest.isEmpty then 0 else (p.gone + n) % pipeSegment }, back)

/-- The handle of a pipe (R226). -/
def Pipe.handle (p : Pipe) : Word := BitVec.ofNat 32 (p.gen.toNat * 2 ^ 16 + p.die * 2 ^ 12 + p.num)

def State.getPipe (s : State) (num : Nat) : Option Pipe := s.pipes.find? fun p => p.num == num

/-- Replace a pipe; it is full since now, or since it was. -/
def State.setPipe (s : State) (p : Pipe) : State :=
  { s with pipes := updWhere (fun x => x.num == p.num) (fun x => { p with fullSince := if p.full then some (x.fullSince.getD s.ticks) else none }) s.pipes }

/-- Overflow segments taken from or given back to the pool of a context's partition (R228). -/
def State.pool (s : State) (ctx : Nat) : Nat := match (s.getCtx ctx).bind fun c => s.getPart c.part with | some p => p.pool | none => 0
def State.setPool (s : State) (ctx n : Nat) : State :=
  match s.getCtx ctx with
  | some c => { s with partitions := updWhere (fun p => p.id == c.part) (fun p => { p with pool := n }) s.partitions }
  | none => s

/-- Entries go to registrations, from the head, in order (R227). -/
def State.assignPipe (s : State) (num : Nat) : Nat → State
  | 0 => s
  | n + 1 =>
    match s.getPipe num with
    | none => s
    | some p =>
      match p.regs, p.entries with
      | (crew, rank, pc, _) :: r, e :: es =>
        let (p1, freed) := { p with regs := r, entries := es }.refill
        let s1 := (s.setPipe p1).setPool p.ctx (s.pool p.ctx + freed)
        (s1.modFib crew rank fun f => { f with recvs := updWhere (fun x => x.pc == pc && x.pipe == num) (fun x => { x with entry := some e }) f.recvs }).assignPipe num n
      | _, _ => s

/-- The pipe of a handle for a fibre of a crew (R226). -/
def State.pipeOf (s : State) (c : Crew) (h : Word × Tag) : Option Pipe :=
  if isInt32 h.2 && recF h.1.toNat 14 2 == 0 then
    s.pipes.find? fun p => p.handle == h.1 && p.ctx == c.ctx && p.die == dieOf c.core
  else none

def pipeChk (s : State) (c : Crew) (l : List (Word × Tag)) : Chk Pipe :=
  match s.pipeOf c (opnd l 0, opTag l 0) with
  | some p => .ok p
  | none => trapWith .permission (opnd l 0).toNat

/-- An append to a pipe. -/
def Work.pipe : Work → Option Nat
  | .append n .. => some n
  | _ => none

/-- A fibre's PSEND has not been appended (R227). -/
def State.appending (s : State) (crew k : Nat) : Bool := s.ops.any fun o => o.crew == crew && o.ranks.contains k && o.work.pipe.isSome

/-! ### Instructions -/

/-- PSEND (R227): a release at DIE on its sequence; the entry goes to the pipe's home. -/
def execPsend (e : Bool) (a b : Reg) (s : State) : Out :=
  s.perform (.psend e a b) fun s c t =>
    let seqs := seqBit (t.i.ext.seqOr 0)
    if t.x.any fun k => s.seqBusy c.id k seqs || s.fenceHolds c.id k seqs || s.appending c.id k then s.stall t else
    match s.checkAll c t.x [a, b] fun _ l => (pipeChk s c l).map fun p => (p, (opnd l 1, opTag l 1)) with
    | none => s.stall t
    | some (vals, traps) =>
      let sp := s.splitPoison c [a, b] vals
      let good := sp.1
      let one (st : State) (v : Nat × (Pipe × (Word × Tag))) : State :=
        (st.release c.id v.1 2 seqs).addOp (t.op c v.1 [v.1] (.append v.2.1.num v.2.1.gen v.2.2.1 v.2.2.2)) (some .stores)
      let done := good.map fun p => p.1
      ((good.foldl one s).modRanks c.id done fun _ f => f.popAll [a, b]).finishTraps t (traps ++ sp.2) done

/-- The gate of PRECV (R24, R227): a fibre that reaches it registers; the gate waits for the fibre's own PSEND to be appended, and, as an acquire of every sequence, for a freeze to end (13_fabric R292). -/
def State.precvGate (s : State) (crew : Nat) (a : Reg) (pc : PcAddr) (k : Nat) : State × Gate :=
  match s.getCrew crew with
  | none => (s, .waits)
  | some c =>
    match c.fib k with
    | none => (s, .waits)
    | some f =>
      let holds (x : Recv) : Gate := if x.entry.isSome && !s.appending crew k && !s.freezes crew k 0xFFFF s.nextId then .holds else .waits
      match f.recvs.find? fun x => x.pc == pc with
      | some x => (s, holds x)
      | none =>
        if decide (a.toNat < 120) && s.pending crew k a.toNat then (s, .waits)
        else match s.readSrcs c k [] [a] with
          | .error none => (s, .waits)
          | .error (some t) => (s, .traps t)
          | .ok l => match pipeChk s c l with
            | .error (some t) => (s, .traps t)
            | .error none => (s, .waits)
            | .ok p =>
              let s1 := (s.modFib crew k fun g => { g with recvs := g.recvs ++ [⟨pc, p.num, none⟩] }).setPipe { p with regs := p.regs ++ [(crew, k, pc, s.ticks)] }
              let s2 := s1.assignPipe p.num 1
              match ((s2.getCrew crew).bind fun c => c.fib k).bind fun g => g.recvs.find? fun x => x.pc == pc with
              | some x => (s2, holds x)
              | none => (s2, .waits)

/-- PRECV (R227): an acquire at DIE of every sequence; the entry and its tag land in d. -/
def execPrecv (e : Bool) (d a : Reg) (s : State) : Out :=
  s.perform (.precv e d a) fun s _ t =>
    s.atGate t (fun st k => st.precvGate t.i.crew a t.i.group k) fun s t =>
      match s.getCrew t.i.crew with
      | none => .next s
      | some c =>
        let entry (k : Nat) : Word × Tag :=
          (((c.fib k).bind fun f => f.recvs.find? fun x => x.pc == t.i.group).bind fun x => x.entry).getD (0, .si32)
        let bad := t.x.filter fun k => s.regPoisoned c.id k [a]
        let x := t.x.filter fun k => !bad.contains k
        match (if x.isEmpty then some c else c.prepare [destG d.toNat .ui32 []] x) with
        | none =>
          let (s1, t1) := s.trapTurn t (overflowAll t.x)
          s1.finish t1 []
        | some c1 =>
          let s1 := (s.overwrite t.i x [d.toNat]).modCrew c.id fun _ => c1
          let s2 := x.foldl (fun (st : State) k => st.addOp (t.op c k [k] (.value d (entry k).2 .g [(k, (entry k).1)] [] [])) none) s1
          let s3 := s2.modRanks c.id x fun _ f => ({ f with recvs := f.recvs.filter fun y => y.pc != t.i.group }).popAll [a]
          let s4 := if x.isEmpty then s3 else (s3.acquire c.core 2).diverge c.id
          let (s5, t1) := (s4.passGate t).trapTurn t (bad.map fun k => (k, s.poisonTrap c.id k [a]))
          s5.finish t1 x

/-- The word of PPROBE (R227). -/
def Pipe.probe (p : Pipe) : Word :=
  BitVec.ofNat 32 (min (p.entries.length + p.overflow.length) 65535 + bit01 (p.segments != 0) * 2 ^ 16 + bit01 (!p.regs.isEmpty) * 2 ^ 17)

/-- PPROBE (R227). -/
def execPprobe (e : Bool) (d a : Reg) (s : State) : Out :=
  s.engine (.pprobe e d a)
    { srcs := [a], dests := [(d.toNat, .ui32)], check := fun st c _ l => (pipeChk st c l).map fun p => p.num,
      step := fun st _ _ n => (st, [match st.getPipe n with | some p => p.probe | none => 0], false) }

/-! ### Events -/

/-- When a crew last appended. -/
def Pipe.appended (p : Pipe) (crew now : Nat) : Pipe := { p with appends := (crew, now) :: p.appends.filter fun x => x.1 != crew }

/-- PIPE_APPEND (R227, R228): an entry reaches the home; on a full pipe it waits there, in order of arrival. An entry of a destroyed pipe is dropped (log 23). -/
def execPipeAppend (op : Nat) (s : State) : Out :=
  match s.getOp op with
  | none => .next s
  | some o =>
    match o.work with
    | .append num gen v tag =>
      match s.getPipe num with
      | none => .next (s.retireOp o)
      | some p =>
        if p.ctx != o.ctx || p.gen != gen then .next (s.retireOp o)
        else if s.ops.any fun x => x.id < o.id && x.work.pipe == some num && x.crew == o.crew && (x.run == o.run || x.sharesFibre o) then .next s
        else if !p.waiting.isEmpty && p.waiting.head? != some op then
          .next (if p.waiting.contains op then s else s.setPipe { p with waiting := p.waiting ++ [op] })
        else match p.push (v, tag) with
          | none => .next (if p.waiting.contains op then s else s.setPipe { p with waiting := p.waiting ++ [op] })
          | some p1 => .next (((s.setPipe ({ p1 with waiting := p1.waiting.filter fun x => x != op }.appended o.crew s.ticks)).assignPipe num p.regs.length).retireOp o)
    | _ => .next s

/-- PIPE_OVERFLOW_SEGMENT (R228): a pipe full for 4,000 ticks gains a segment; with the pool exhausted the status block says so. -/
def execPipeOverflowSegment (pipe : Nat) (s : State) : Out :=
  match s.getPipe pipe with
  | none => .next s
  | some p =>
    match p.fullSince with
    | none => .next s
    | some since =>
      if s.ticks < since + 4000 then .next s
      else if s.pool p.ctx == 0 then
        .next ((State.ctxStatus { s with pipes := updWhere (fun x => x.num == pipe) (fun x => { x with fullSince := some s.ticks }) s.pipes } p.ctx fun c => { c with bits := c.bits ||| 4 }))
      else .next ((s.setPipe { p with segments := p.segments + 1 }).setPool p.ctx (s.pool p.ctx - 1))

/-- Whether an armed counter's action can come to create crews (R229). -/
def State.createsCrews (s : State) : Nat → Nat → DWord → Bool
  | 0, _, _ => true
  | n + 1, action, operand =>
    if action == 0 then false
    else if action == 1 then true
    else match s.crumb (operand.setWidth 32) with
      | some t => t.armed && s.createsCrews n t.action t.operand
      | none => false

/-- The instruction at an address of a context, as a pre-scan reads it. -/
def State.instrAt (s : State) (ctx : Nat) (pc : PcAddr) : Option Instr :=
  match s.kernelPlace ctx pc.toNat with
  | some (p, _) => (match decodeBytes (s.homeRead p 4) with | .ok i => some i | .error _ => none)
  | none => none

/-- A fibre is blocked at PRECV on a pipe, unassigned: the pipe, the address and the time of registration (R229). -/
def State.atPrecv (s : State) (c : Crew) (k : Nat) (f : Fibre) : Option (Nat × PcAddr × Nat) :=
  if f.st != .blocked then none
  else match f.recvs.find? fun x => x.pc == f.pc && x.entry.isNone with
    | none => none
    | some x => (s.getPipe x.pipe).bind fun p => (p.regs.find? fun r => r.1 == c.id && r.2.1 == k && r.2.2.1 == x.pc).map fun r => (x.pipe, x.pc, r.2.2.2)

/-- A fibre is blocked at a gate that waits only on fibres of crews of a set (R229): a barrier, or a cross-fibre meeting of its own crew. -/
def State.atFibreGate (s : State) (set : List Nat) (c : Crew) (k : Nat) (f : Fibre) : Bool :=
  f.st == .blocked &&
  (match f.gate with
   | some g => g.arrived && g.pc == f.pc && !f.barHolds g.team &&
       (!g.team || (s.crews.filter fun x => x.team == c.team && x.life != .completed).all fun x => set.contains x.id || x.fibres.all fun f => !f.live || f.arrivedTeam)
   | none => match (s.instrAt c.ctx f.pc).bind xfOf with
     | some x => (s.xfGate c.id x f.pc k).2 == .waits && !(s.ops.any fun o => o.crew == c.id && isResult o.work)
     | none => false)

/-- One pass over a candidate set. -/
def State.cycleStep (s : State) (set : List Nat) : List Nat :=
  set.filter fun id => match s.getCrew id with
    | none => false
    | some c => c.life == .resident && c.liveSet != [] && c.liveSet.all fun k => match c.fib k with
      | some f => (s.atPrecv c k f).isSome || s.atFibreGate set c k f
      | none => false

def State.cycleSet (s : State) : Nat → List Nat → List Nat
  | 0, set => set
  | n + 1, set => s.cycleSet n (s.cycleStep set)

/-- The registrations of a set of crews: crew, rank, pipe, address, time. -/
def State.setRegs (s : State) (set : List Nat) : List (Nat × Nat × Nat × PcAddr × Nat) :=
  set.flatMap fun id => match s.getCrew id with
    | none => []
    | some c => c.liveSet.filterMap fun k => (c.fib k).bind fun f => (s.atPrecv c k f).map fun r => (id, k, r.1, r.2.1, r.2.2)

/-- The context can still create crews (R229): a launch not yet placed or not yet read from its queue, a task slot in use, an armed counter or a firing that can commit one. -/
def State.moreCrews (s : State) (ctx : Nat) : Bool :=
  (s.launches.any fun l => l.ctx == ctx && (l.st == .waiting || l.st == .distributing)) ||
  (s.userQueues.any fun q => q.ctx == ctx && recF (cellNat s.mem q.desc 64) 66 1 == 1) ||
  (s.taskQueues.any fun q => q.ctx == ctx && q.slots.any fun x => x.1 != .free) ||
  (s.crumbs.any fun c => c.owner == some ctx && c.armed && s.createsCrews 65536 c.action c.operand) ||
  (s.firings.any fun f => f.ctx == ctx && s.createsCrews 65536 f.action f.operand)

/-- PIPE_CYCLE_INSPECTION (R229). -/
def execPipeCycleInspection (ctx : Nat) (s : State) : Out :=
  let crews := (s.crews.filter fun c => c.ctx == ctx && c.life != .completed).map fun c => c.id
  let set := s.cycleSet crews.length crews
  let regs := s.setRegs set
  match regs with
  | [] => .next s
  | r0 :: _ =>
    let since := regs.foldl (fun m r => min m r.2.2.2.2) r0.2.2.2.2
    let awaited := regs.map fun r => r.2.2.1
    let outside := s.pipes.any fun p => awaited.contains p.num &&
      ((p.appends.any fun a => !set.contains a.1 && since ≤ a.2) || s.ops.any fun o => o.work.pipe == some p.num && !set.contains o.crew)
    if outside || s.moreCrews ctx then .next s
    else
      let one (st : State) (r : Nat × Nat × Nat × PcAddr × Nat) : State :=
        match st.getPipe r.2.2.1 with
        | none => st
        | some p =>
          let s1 := (st.setPipe { p with regs := p.regs.filter fun x => !(x.1 == r.1 && x.2.1 == r.2.1 && x.2.2.1 == r.2.2.2.1) }).modFib r.1 r.2.1 fun f =>
            { f with recvs := f.recvs.filter fun x => x.pc != r.2.2.2.1 }
          s1.trapEntry r.1 r.2.1 ⟨.pipeCycle, BitVec.ofNat 64 p.handle.toNat⟩ r.2.2.2.1
      .next (regs.foldl one s)

/-- PIPE_DESTROY (R230): every fibre registered there raises Permission at its PRECV. -/
def execPipeDestroy (pipe : Nat) (s : State) : Out :=
  match s.getPipe pipe with
  | none => .next s
  | some p =>
    let s1 := State.setPool { s with pipes := s.pipes.filter fun x => x.num != pipe } p.ctx (s.pool p.ctx + p.segments)
    let one (st : State) (r : Nat × Nat × PcAddr × Nat) : State :=
      let s2 := st.modFib r.1 r.2.1 fun f => { f with recvs := f.recvs.filter fun x => x.pc != r.2.2.1 }
      match s2.getCrew r.1 with
      | some c =>
        if c.life == .resident && (match c.fib r.2.1 with | some f => f.live && f.pc == r.2.2.1 && !f.restart | none => false)
        then s2.trapEntry r.1 r.2.1 ⟨.permission, BitVec.ofNat 64 p.handle.toNat⟩ r.2.2.1
        else s2
      | none => s2
    .next (p.regs.foldl one s1)

/-- A new pipe (R226): no pipe of the package has the number; its home slice is one of its die. -/
def State.createPipe (s : State) (ctx pipe die slice : Nat) (gen : BitVec 16) : State :=
  match s.getCtx ctx with
  | none => s
  | some c =>
    if c.down || !(s.getPart c.part).any (fun p => p.slices.contains slice) || 4096 ≤ pipe || 4 ≤ die || slice / 16 != die || (s.getPipe pipe).isSome then s
    else { s with pipes := s.pipes ++ [⟨pipe, die, slice, gen, ctx, [], [], 0, 0, [], [], none, []⟩] }

/-- PIPE_CREATION (R226), as the kernel asks. -/
def execPipeCreation (s : State) : Out :=
  match takeInput (fun i => match i with | .pipe ctx pipe die slice gen => some (ctx, pipe, die, slice, gen) | _ => none) s.inputs with
  | none => .next s
  | some ((ctx, pipe, die, slice, gen), r) => .next ((s.took r).createPipe ctx pipe die slice gen)

end Sys2Proof.Machine
end

