-- ==== Sys2Proof/Machine/Tiles.lean ====
section
/-! DEFINITION. The matrix engine and the tile store (03_arithmetic R99, R100, R113, 04_matrix R117 to R127, 18_ref R395). -/
namespace Sys2Proof.Machine

/-- A matrix form (R117): register tag, element format, K, fragment registers, whether scales apply, the power of two an element is divided by (R99), and whether it sums integers. -/
structure MatForm where
  tag : Tag
  k : Nat
  regs : Nat
  scaled : Bool := false
  shift : Nat := 0
  int : Bool := false

/-- The fragment of a fibre as one number of K elements, and its scale word (R117, R118). -/
structure Frag where
  bits : Nat
  scale : Nat

/-- Elements of a fragment: the packed streams of R100 and the packed words alike hold element k at bit width × k. -/
def MatForm.elemBits (m : MatForm) (f : Frag) (k : Nat) : Nat := let w := (tagElem m.tag).width; f.bits / 2 ^ (w * k) % 2 ^ w

/-- The value of element k under its scale (R99, R118). -/
def MatForm.value (m : MatForm) (f : Frag) (k : Nat) : Ex :=
  let v := (tagElem m.tag).value (m.elemBits f k)
  let v1 := if m.shift == 0 then v else (v.mul (.fin false 1 (2 ^ m.shift))).1
  if m.scaled then (v1.mul (e8m0Value (f.scale / 2 ^ (8 * (k / 32)) % 256))).1 else v1

/-- A scale of 0xFF among those the form uses (R118, R121). -/
def MatForm.nanScale (m : MatForm) (f : Frag) : Bool := m.scaled && (List.range (m.k / 32)).any fun i => f.scale / 2 ^ (8 * i) % 256 == 255

/-- The fragment of a fibre at a register, read from a view of the registers. -/
def MatForm.frag (m : MatForm) (view : Nat → Nat → Word) (r : Reg) (k : Nat) : Frag :=
  ⟨packElems 32 ((List.range m.regs).map fun i => (view (r.toNat + i) k).toNat), if m.scaled then (view (r.toNat + m.regs) k).toNat else 0⟩

/-- Exact sum of R113, zero signs by its rule; opposite infinities and 0 × ∞ raise IV. -/
def exactSum (xs : List Ex) (iv : Bool) : Ex × Nat :=
  let pinf := xs.any fun x => x == .inf false
  let ninf := xs.any fun x => x == .inf true
  let bad := iv || (pinf && ninf)
  if bad then (.nan, flIV)
  else (xs.foldl (fun a x => (a.add x .rne).1) (.fin true 0 1), 0)

/-- One accumulator element (R113, R120, R121): the new word and flags; a sum that overflows sets OF and IX (R121). -/
def MatForm.element (m : MatForm) (neg : Bool) (acc : Word) (a b : Frag) : Word × Nat :=
  if m.int then
    let p : Int := ((List.range m.k).map fun k => (match tagElem m.tag with
      | .int s w => intOf s w (m.elemBits a k) * intOf s w (m.elemBits b k)
      | _ => 0)).foldl (fun x y => x + y) 0
    (acc + wordOf (if neg then -p else p), 0)
  else if m.nanScale a || m.nanScale b then (BitVec.ofNat 32 fF32.canonNan, flIV)
  else
    let ps := (List.range m.k).map fun k => (m.value a k).mul (m.value b k)
    let (v, fl) := exactSum (fF32.value acc.toNat :: ps.map fun p => if neg then p.1.neg else p.1) (ps.any fun p => p.2 != 0)
    let (w, fr) := fF32.round v .rne false
    (BitVec.ofNat 32 w, fl ||| fr ||| if fr &&& flOF == 0 then 0 else flIX)

/-- The update of one gang (R120): its rows of the tile, and the flags of each row's owner; `view` is how the B registers of its members are read (R122). -/
def Crew.matGang (c : Crew) (m : MatForm) (neg : Bool) (t : Nat) (a b : Reg) (view : Nat → Nat → Word) (x : List Nat) (g : Nat) : Crew :=
  let live (k : Nat) : Bool := match c.fib k with | some f => f.live | none => false
  let cols := (List.range 16).map fun j => if live (16 * g + j) then m.frag view b (16 * g + j) else ⟨0, 0⟩
  let rows := x.filter fun k => k / 16 == g
  rows.foldl (fun (c1 : Crew) k =>
    let row := m.frag c.elem a k
    let old (j : Nat) : Word := match c1.tiles[t]? with | some tl => tl.words.getD (16 * (k % 16) + j) 0 | none => 0
    let es := (cols.zip (List.range 16)).map fun p => m.element neg (old p.2) row p.1
    let put (tl : Tile) : Tile := { tl with words := (es.zip (List.range 16)).foldl (fun w p => w.set (16 * (k % 16) + p.2) p.1.1) tl.words }
    Crew.modFib { c1 with tiles := updAt c1.tiles t put } k fun f => f.flag (es.foldl (fun a p => a ||| p.2) 0)) c

/-- A crew with no such tile. -/
def Crew.tileBad (c : Crew) (t : Nat) : Bool := decide (c.tiles.length ≤ t)

/-- Whether a tile word of a row is poisoned (05_memory R153). -/
def State.tilePoisoned (s : State) (c : Crew) (t : Nat) (row : Option Nat) : Bool :=
  s.poison.any fun m => match m with | .tileWord q u w => q == c.id && u == t && (match row with | some r => w / 16 == r | none => true) | _ => false

/-- One trap in every executing fibre. -/
def State.trapSet (s : State) (t : Turn) (cause : Cause) : Out :=
  let (s1, t1) := s.trapTurn t (t.x.map fun k => (k, ⟨cause, 0⟩))
  s1.finish t1 []

/-- Variable-latency results that may land as the engine reads, in B registers of live members that do not execute (R122). -/
def State.matLanding (s : State) (c : Crew) (x : List Nat) (b : Reg) (span : Nat) : List Op :=
  s.ops.filter fun o => o.crew == c.id && (o.ranks.any fun k => !x.contains k && (gangsOf x).contains (k / 16)) &&
    (o.work.regs.any fun r => (blockOf b span).any fun q => q.toNat == r) &&
    (match o.work with
     | .value .. | .logged .. => true
     | .load p _ n _ _ _ => s.opReady o && !s.poisonedAt p (4 * n)
     | _ => false)

/-- What the engine reads at B (R122): each such result lands at this moment or not, by a free bit, and of a member that does not execute each register is read as it stood or as it has landed, by a free bit of its own. -/
def State.matLandings (s : State) (c : Crew) (x : List Nat) (b : Reg) (span : Nat) : State × (Nat → Nat → Word) :=
  match s.matLanding c x b span with
  | [] => (s, c.elem)
  | l =>
    let s1 := l.foldl (fun (st : State) o => if Config.freeBit st.free then (match st.getOp o.id with | some o1 => st.bumpFree.landOp o1 | none => st.bumpFree) else st.bumpFree) s
    let view (r k : Nat) : Word := match s1.getCrew c.id with
      | some c1 => if !x.contains k && Config.freeBit (s1.free + 128 * k + r) then c1.elem r k else c.elem r k
      | none => c.elem r k
    ({ s1 with free := s1.free + 128 * c.size }, view)

/-- An MMA or MMAS (R119 to R123). -/
def State.matrix (s : State) (ins : Instr) (m : MatForm) (t : BitVec 8) (a b : Reg) (neg : Bool) : Out :=
  s.perform ins fun s c tn =>
    let n := m.regs
    let tagsOk := (blockOf a n ++ blockOf b n).all (fun r => c.tagOf r == m.tag) &&
      (!m.scaled || (c.tagOf (a + BitVec.ofNat 7 n) == .e8m0x4 && c.tagOf (b + BitVec.ofNat 7 n) == .e8m0x4))
    if !tagsOk then s.trapSet tn .formatMismatch
    else if c.tileBad t.toNat then s.trapSet tn .tileOwnership
    else
      let span := if m.scaled then n + 1 else n
      let colBad (g : Nat) : Bool := (List.range 16).any fun j => (match c.fib (16 * g + j) with | some f => f.live | none => false) && s.regPoisoned c.id (16 * g + j) (blockOf b span)
      let bad := tn.x.filter fun k => s.regPoisoned c.id k (blockOf a span) || colBad (k / 16) || s.tilePoisoned c t.toNat (some (k % 16))
      let good := tn.x.filter fun k => !bad.contains k
      let (s0, view) := s.matLandings c tn.x b span
      let s1 := s0.modCrew c.id fun c1 => (gangsOf good).foldl (fun c2 g => c2.matGang m neg t.toNat a b view good g) c1
      let (s2, t1) := (s1.modRanks c.id good fun _ f => f.passed .tiles s.nextId).trapTurn tn (bad.map fun k => (k, ⟨.poison, 0⟩))
      s2.finish t1 good

def matBf16 : MatForm := { tag := .bf16x2, k := 32, regs := 16 }
def matF16 : MatForm := { tag := .f16x2, k := 32, regs := 16 }
def matE4m3 : MatForm := { tag := .e4m3x4, k := 64, regs := 16 }
def matE5m2 : MatForm := { tag := .e5m2x4, k := 64, regs := 16 }
def matSi8 : MatForm := { tag := .si8x4, k := 64, regs := 16, int := true }
def matUi8 : MatForm := { tag := .ui8x4, k := 64, regs := 16, int := true }

/-- MMA.bf16 (R120). -/
def execMmaBf16 (e : Bool) (t : BitVec 8) (a b : Reg) (neg : Bool) (s : State) : Out := s.matrix (.mmaBf16 e t a b neg) matBf16 t a b neg
/-- MMA.f16 (R120). -/
def execMmaF16 (e : Bool) (t : BitVec 8) (a b : Reg) (neg : Bool) (s : State) : Out := s.matrix (.mmaF16 e t a b neg) matF16 t a b neg
/-- MMA.e4m3 (R120). -/
def execMmaE4m3 (e : Bool) (t : BitVec 8) (a b : Reg) (neg : Bool) (s : State) : Out := s.matrix (.mmaE4m3 e t a b neg) matE4m3 t a b neg
/-- MMA.e5m2 (R120). -/
def execMmaE5m2 (e : Bool) (t : BitVec 8) (a b : Reg) (neg : Bool) (s : State) : Out := s.matrix (.mmaE5m2 e t a b neg) matE5m2 t a b neg
/-- MMA.si8 (R120). -/
def execMmaSi8 (e : Bool) (t : BitVec 8) (a b : Reg) (neg : Bool) (s : State) : Out := s.matrix (.mmaSi8 e t a b neg) matSi8 t a b neg
/-- MMA.ui8 (R120). -/
def execMmaUi8 (e : Bool) (t : BitVec 8) (a b : Reg) (neg : Bool) (s : State) : Out := s.matrix (.mmaUi8 e t a b neg) matUi8 t a b neg
/-- MMAS.e2m1 (R120, R118). -/
def execMmasE2m1 (e : Bool) (t : BitVec 8) (a b : Reg) (neg : Bool) (s : State) : Out := s.matrix (.mmasE2m1 e t a b neg) { tag := .e2m1x8, k := 128, regs := 16, scaled := true } t a b neg
/-- MMAS.e2m3 (R120, R118). -/
def execMmasE2m3 (e : Bool) (t : BitVec 8) (a b : Reg) (neg : Bool) (s : State) : Out := s.matrix (.mmasE2m3 e t a b neg) { tag := .e2m3p, k := 128, regs := 24, scaled := true } t a b neg
/-- MMAS.e3m2 (R120, R118). -/
def execMmasE3m2 (e : Bool) (t : BitVec 8) (a b : Reg) (neg : Bool) (s : State) : Out := s.matrix (.mmasE3m2 e t a b neg) { tag := .e3m2p, k := 128, regs := 24, scaled := true } t a b neg
/-- MMAS.e4m3 (R120, R118). -/
def execMmasE4m3 (e : Bool) (t : BitVec 8) (a b : Reg) (neg : Bool) (s : State) : Out := s.matrix (.mmasE4m3 e t a b neg) { matE4m3 with scaled := true } t a b neg
/-- MMAS.e5m2 (R120, R118). -/
def execMmasE5m2 (e : Bool) (t : BitVec 8) (a b : Reg) (neg : Bool) (s : State) : Out := s.matrix (.mmasE5m2 e t a b neg) { matE5m2 with scaled := true } t a b neg
/-- MMAS.si8 (R120, R118): its elements are MXINT8 (R99). -/
def execMmasSi8 (e : Bool) (t : BitVec 8) (a b : Reg) (neg : Bool) (s : State) : Out :=
  s.matrix (.mmasSi8 e t a b neg) { tag := .si8x4, k := 64, regs := 16, scaled := true, shift := 6 } t a b neg

/-! ### Tile instructions -/

def Tile.zero (st : TileState) : Tile := ⟨st, List.replicate 256 0⟩

/-- Tile words are no longer poisoned once written. -/
def State.unmarkTile (s : State) (crew t : Nat) (p : Nat → Bool) : State :=
  if s.poison.isEmpty then s
  else { s with poison := s.poison.filter fun m => match m with | .tileWord c u w => !(c == crew && u == t && p w) | _ => true }

def State.modTile (s : State) (crew t : Nat) (f : Tile → Tile) : State := s.modCrew crew fun c => { c with tiles := updAt c.tiles t f }

/-- TZERO (R126). -/
def execTzero (e : Bool) (t : BitVec 8) (s : State) : Out :=
  s.perform (.tzero e t) fun s c tn =>
    if c.tileBad t.toNat then s.trapSet tn .tileOwnership
    else (if tn.x.isEmpty then s else (((s.modTile c.id t.toNat fun _ => Tile.zero .ready).unmarkTile c.id t.toNat fun _ => true).modRanks c.id tn.x fun _ f => f.passed .tiles s.nextId).wakeAll c.id [awaitTile t.toNat]).finish tn tn.x

/-- Bytes of the memory side of a fill or drain (R126). -/
def tileBytes (f : TileFmt) : Nat := match f with | .word => 1024 | _ => 512

/-- The range of a fill or drain in 64-byte pieces, translated and checked (R126); a global range that passes 2^57 raises Permission, as a byte there would (02_encoding R61; log 66). -/
def State.tileRange (s : State) (c : Crew) (write : Bool) (n : Nat) (lo hi : Word) (off : Int) (scr : Bool) : Chk (Nat × State × Found Unit) :=
  match s.addrForm c (if scr then .scratch else .global) lo hi off n with
  | .error x => .error x
  | .ok (a, _) =>
    if a % 128 != 0 then trapWith .misaligned a
    else if !scr && 2 ^ 57 < a + n then trapWith .permission a
    else
      let pieces := (List.range (n / 64)).map fun i => (i, Addr.mk (a + 64 * i) (if scr then some (Place.scratch c.id (a + 64 * i)) else none) ())
      let (s1, f) := s.locate c write pieces
      .ok (a, s1, f)

/-- TFILL or TDRAIN: once per issue, at the address of its lowest-ranked executing fibre (R126). -/
def State.tileMove (s : State) (ins : Instr) (t : BitVec 8) (seq : BitVec 4) (reg : Reg) (fmt : TileFmt) (scr : Bool) (write : Bool) (work : List Place → Work) : Out :=
  s.perform ins fun s c tn =>
    match tn.x with
    | [] => s.finish tn []
    | k0 :: _ =>
      if c.tileBad t.toNat then s.trapSet tn .tileOwnership
      else
        let srcs := if scr then [reg] else pairOf reg
        let only (tr : Trap) (st : State) : Out :=
          let (s1, t1) := st.trapTurn tn [(k0, tr)]
          s1.finish t1 (tn.x.filter fun k => k != k0)
        if s.stepWait c [k0] then s.stall tn else
        match s.readSrcs c k0 [] srcs with
        | .error none => s.stall tn
        | .error (some tr) => only tr s
        | .ok l =>
          match s.tileRange c write (tileBytes fmt) (opnd l 0) (opnd l 1) tn.i.ext.byteOffset scr with
          | .error none => s.stall tn
          | .error (some tr) => only tr s
          | .ok (va, s1, f) =>
            let stepping : Bool := match c.fib k0 with | some g => g.stepping | none => false
            match f.bad, f.misses with
            | (_, tr) :: _, _ => if stepping then only tr s1 else .next (s1.restartIssue tn)
            | [], (_, a, h) :: _ => .next (s1.holdIssue tn a h)
            | [], [] =>
              if s.regPoisoned c.id k0 srcs || (write && s.tilePoisoned c t.toNat none) then only (if s.regPoisoned c.id k0 srcs then s.poisonTrap c.id k0 srcs else ⟨.poison, 0⟩) s1
              else if f.hits.any fun h => s1.unknownDevice h.p then .refused .deviceRegister
              else
                let ps := f.hits.map fun h => h.p
                let o := { tn.op c k0 tn.x (work ps) with seqs := seqBit seq, va := va, n := (tileBytes fmt), peer := ps.findSome? s.peerOf, host := ps.any Place.isHost, sentAt := s.ticks }
                let s2 := (s1.modTile c.id t.toNat fun x => { x with st := if write then .draining else .filling }).modFib c.id k0 fun g => g.popAll srcs
                (s2.addMem o (some .tiles)).finish tn tn.x

/-- TFILL (R126). -/
def execTfill (e : Bool) (t : BitVec 8) (seq : BitVec 4) (reg : Reg) (fmt : TileFmt) (scr : Bool) (s : State) : Out :=
  s.tileMove (.tfill e t seq reg fmt scr) t seq reg fmt scr false fun ps => .fill ps t.toNat fmt
/-- TDRAIN (R126). -/
def execTdrain (e : Bool) (t : BitVec 8) (seq : BitVec 4) (reg : Reg) (keep : Bool) (fmt : TileFmt) (scr : Bool) (s : State) : Out :=
  s.tileMove (.tdrain e t seq reg keep fmt scr) t seq reg fmt scr true fun ps => .drain ps t.toNat fmt keep

/-- TGET (R126, R127): the row is read at issue, its place in the tile order, and lands later. -/
def execTget (e : Bool) (t : BitVec 8) (reg : Reg) (s : State) : Out :=
  s.perform (.tget e t reg) fun s c tn =>
    if c.tileBad t.toNat then s.trapSet tn .tileOwnership
    else
      let bad := tn.x.filter fun k => s.tilePoisoned c t.toNat (some (k % 16))
      let good := tn.x.filter fun k => !bad.contains k
      let word (k j : Nat) : Word := match c.tiles[t.toNat]? with | some tl => tl.words.getD (16 * (k % 16) + j) 0 | none => 0
      match (s.passGate tn).landLater tn good ((List.range 16).map fun j => destG (reg.toNat + j) .f32 (good.map fun k => (k, word k j))) [] [] with
      | none =>
        let (s1, t1) := s.trapTurn tn (overflowAll tn.x)
        s1.finish t1 []
      | some s1 =>
        let (s2, t1) := s1.trapTurn tn (bad.map fun k => (k, ⟨.poison, 0⟩))
        s2.finish t1 good

/-- TROW (R126). -/
def execTrow (e : Bool) (t : BitVec 8) (reg : Reg) (s : State) : Out :=
  s.perform (.trow e t reg) fun s c tn =>
    if !(blockOf reg 16).all fun r => c.tagOf r == .f32 || c.tagOf r == .si32 then s.trapSet tn .formatMismatch
    else if c.tileBad t.toNat then s.trapSet tn .tileOwnership
    else
      let bad := tn.x.filter fun k => s.regPoisoned c.id k (blockOf reg 16)
      let good := tn.x.filter fun k => !bad.contains k
      let put (tl : Tile) : Tile := { tl with words := good.foldl (fun w k => (List.range 16).foldl (fun w j => w.set (16 * (k % 16) + j) (c.elem (reg.toNat + j) k)) w) tl.words }
      let s1 := (s.modTile c.id t.toNat put).unmarkTile c.id t.toNat fun w => good.any fun k => k % 16 == w / 16
      let (s2, t1) := (s1.modRanks c.id good fun _ f => f.passed .tiles s.nextId).trapTurn tn (bad.map fun k => (k, ⟨.poison, 0⟩))
      s2.finish t1 good

/-- State codes of R124. -/
def TileState.code : TileState → Nat
  | .empty => 0 | .filling => 1 | .ready => 2 | .draining => 3

/-- TSTAT (R126). -/
def execTstat (e : Bool) (t : BitVec 8) (reg : Reg) (s : State) : Out :=
  s.perform (.tstat e t reg) fun s c tn =>
    match c.tiles[t.toNat]? with
    | none => s.trapSet tn .tileOwnership
    | some tl =>
      match s.landLater tn tn.x [destG reg.toNat .ui32 (tn.x.map fun k => (k, BitVec.ofNat 32 tl.st.code))] [] [] with
      | some s1 => s1.finish tn tn.x
      | none =>
        let (s1, t1) := s.trapTurn tn (overflowAll tn.x)
        s1.finish t1 []

/-! ### Completions -/

/-- Exact conversion of a source element to a tile word (R126). -/
def fillWord (fmt : TileFmt) (bits : Nat) : Word :=
  match fmt with
  | .word => BitVec.ofNat 32 bits
  | .bf16 => BitVec.ofNat 32 (fF32.round (fBF16.value bits) .rne false).1
  | .f16 => BitVec.ofNat 32 (fF32.round (fF16.value bits) .rne false).1

/-- Bytes of an element. -/
def tileWidth (f : TileFmt) : Nat := match f with | .word => 4 | _ => 2

/-- The places of 128-byte pieces, from those of 64-byte ones. -/
def everyOther {α : Type} : List α → List α
  | [] => []
  | [x] => [x]
  | x :: _ :: r => x :: everyOther r

/-- TILE_FILL_COMPLETION (R124, R126): the core's L1 keeps no copy older than what was read at the homes (06_consistency R165); a poisoned sector gives 0x7FC0_0000 in the words it feeds and a deferred Poison in the fibre that gave the address, at the lowest of several such sectors (log 81). -/
def execTileFillCompletion (op : Nat) (s : State) : Out :=
  match s.getOp op with
  | none => .next s
  | some o =>
    match o.work with
    | .fill ps t fmt =>
      if !s.opReady o then .next s else
      let halves := ps.flatMap fun p => [(p, s.poisonedAt p 32), (p.plus 32, s.poisonedAt (p.plus 32) 32)]
      let words := halves.flatMap fun h =>
        let es := (chunks (tileWidth fmt) 32 (s.homeRead h.1 32)).map bytesNat
        if h.2 then es.map fun _ => (0x7FC00000 : Word) else es.map fun e => fillWord fmt e
      let s1 := (s.modTile o.crew t fun _ => ⟨.ready, words⟩).unmarkTile o.crew t fun _ => true
      let s2 := match (halves.zip (List.range halves.length)).find? fun p => p.1.2 with
        | some p => s1.modFib o.crew o.rank fun f => { f with deferred := some (sectorTrap (o.va + 32 * p.2)) }
        | none => s1
      let seen (st : State) (x : Place × Nat) : State := ((st.readHost o x.1 64).dropCopies o.core x.1 64).noteAccess o.core o.ctx (o.va + 64 * x.2) x.1
      .next ((((ps.zip (List.range ps.length)).foldl seen s2).wakeAll o.crew [awaitTile t]).retireOp o)
    | _ => .next s

/-- TILE_DRAIN_COMPLETION (R124, R126): the tile is read out, and empty again or kept ready; then its bytes are performed at their homes, in pieces that hold whole blocks of a squeezed page. -/
def execTileDrainCompletion (op : Nat) (s : State) : Out :=
  match s.getOp op with
  | none => .next s
  | some o =>
    match o.work with
    | .drain ps t fmt keep =>
      (match (s.getCrew o.crew).bind fun c => c.tiles[t]? with
      | none => .next (s.retireOp o)
      | some tl =>
        let s1 := (s.modTile o.crew t fun x => if keep then { x with st := .ready } else Tile.zero .empty).wakeAll o.crew [awaitTile t]
        .next { s1 with ops := s1.ops.map fun x => if x.id == o.id then { x with work := .drained ps (tl.words.flatMap (drainBytes fmt)) } else x })
    | .drained ps bs =>
      if !s.opReady o then .next s
      else .next (((((chunks 128 ps.length bs).zip (everyOther ps)).zip (List.range ps.length)).foldl (fun (st : State) p => st.storeHome { o with va := o.va + 128 * p.2 } p.1.2 p.1.1 false) s).retireOp o)
    | _ => .next s

end Sys2Proof.Machine
end

