-- ==== Sys2Proof/Machine/Fetch.lean ====
section
/-! DEFINITION. Instruction fetch, the groups of a run and the extension words (01_execution R22 to R26, 02_encoding R58, R59, R75 to R80). -/
namespace Sys2Proof.Machine

/-- Fetch the word at a pc (R59, 11_faults R252): a page with X, and PRIV only for a privileged fibre. A fetch that is lost, or that times out at another package, brings all ones (13_fabric R288, R290, 14_system R308; log 80). -/
def State.fetchWord (s : State) (core ctx : Nat) (pc : PcAddr) : State × Fetched :=
  let ones : Fetched := .word (List.replicate 4 255)
  match s.foundAt ctx pc.toNat (s.xlate core ctx pc.toNat false true (s.privileged ctx)) with
  | (s1, .ok p) =>
    let remote := (s1.peerOf p).isSome
    if remote && (s1.noPlane || Config.freeBit s1.free) then (s1.bumpFree, ones)
    else (if remote || p.isDev then s1.bumpFree else s1, if s1.unknownDevice p then .device else if s1.poisonedAt p 4 then .bad (sectorTrap pc.toNat) else .word (s1.homeRead p 4))
  | (s1, .lost) => (s1, ones)
  | (s1, .held) => (s1, .held)
  | (s1, .miss h) => (s1, .miss h)
  | (s1, .bad c) => (s1, .bad ⟨c, pc.setWidth 64⟩)

/-- An extension word joins its group (R77): two words of one kind, but for two IMM words, and a fourth word are errors. -/
def Ext.add (x : Ext) (w : Instr) : Option Ext :=
  let y := { x with count := x.count + 1 }
  if 3 ≤ x.count then none
  else match w with
    | .xwImm p => if 2 ≤ x.imm.length then none else some { y with imm := x.imm ++ [p] }
    | .xwGuard pol p => if x.guard.isSome then none else some { y with guard := some (pol, p) }
    | .xwOrder policy hasSeq seq hasScope scope =>
      if x.order.isSome then none else some { y with order := some (policy, if hasSeq then some seq else none, if hasScope then some scope else none) }
    | .xwMask m => if x.mask.isSome then none else some { y with mask := some m }
    | .xwRound dyn sat mode => if x.round.isSome then none else some { y with round := some (dyn, sat, mode) }
    | .xwOperand r => if x.operand.isSome then none else some { y with operand := some r }
    | .xwOffset o => if x.offset.isSome then none else some { y with offset := some o }
    | _ => none

/-- Whether a word is an extension word (R75). -/
def isExt : Instr → Bool
  | .xwImm .. | .xwGuard .. | .xwOrder .. | .xwMask .. | .xwRound .. | .xwOperand .. | .xwOffset .. => true
  | _ => false

/-- An extension word takes an issue slot and modifies the instruction of its group (R77, R78). -/
def State.extWord (s : State) (ins : Instr) : Out :=
  match s.cur with
  | none => .fault .noIssue
  | some i =>
    match i.ext.add ins with
    | none => s.trapIssue i .illegalOp
    | some x => .next { s with cur := some { i with ext := x, pc := i.pc + 4, words := i.words + 1, code := i.code.drop 1 } }

/-- XW.IMM (R79). -/
def execXwImm (payload : BitVec 24) (s : State) : Out := s.extWord (.xwImm payload)
/-- XW.GUARD (R78). -/
def execXwGuard (pol : Bool) (p : PReg) (s : State) : Out := s.extWord (.xwGuard pol p)
/-- XW.ORDER (R78). -/
def execXwOrder (policy : BitVec 2) (hasSeq : Bool) (seq : BitVec 4) (hasScope : Bool) (scope : BitVec 3) (s : State) : Out :=
  s.extWord (.xwOrder policy hasSeq seq hasScope scope)
/-- XW.MASK (R78). -/
def execXwMask (mask : BitVec 8) (s : State) : Out := s.extWord (.xwMask mask)
/-- XW.ROUND (R78). -/
def execXwRound (dyn sat : Bool) (mode : RMode) (s : State) : Out := s.extWord (.xwRound dyn sat mode)
/-- XW.OPERAND (R78). -/
def execXwOperand (r : Reg) (s : State) : Out := s.extWord (.xwOperand r)
/-- XW.OFFSET (R78). -/
def execXwOffset (off : BitVec 24) (s : State) : Out := s.extWord (.xwOffset off)

/-! ### The pre-scan of a run -/

/-- A group of a run (R77). -/
structure WordGroup where
  pc : PcAddr
  ext : Ext
  ins : Instr
  form : Form

/-- What the pre-scan of a run finds: the groups up to its end or to an error that only the issue raises (R59, R80), with all its words as fetched, a structural error with the group it lies in (R26), a miss (R258), or a word still held. -/
inductive Scan where
  | run (gs : List WordGroup) (code : List Fetched)
  | structural (pc : PcAddr)
  | miss (va : Nat) (host : Bool)
  | held

/-- Registers a group of a run writes whose new tags its later words see (01_execution R28), given those that the groups before it write; a conversion whose source tag is not settled may write as many as any source gives it. -/
def WordGroup.writes (c : Crew) (before : List Reg) (g : WordGroup) : List Reg :=
  let settled (a : Reg) : Option Tag := if a.toNat < 120 && !before.contains a then some (c.tagOf a) else none
  match g.ins with
  | .leaA3 _ d _ _ | .leaAi _ d _ _ | .dtern _ d _ _ => pairOf d
  | .ldi _ d _ => if g.ext.imm.length = 2 then pairOf d else [d]
  | .sread _ d n => if sregPair n.toNat then pairOf d else [d]
  | .cvt _ d a tgt _ _ => blockOf d (cvtCounts ((settled a).getD .e2m1x8) tgt).2
  | .mxpack _ d _ tgt => blockOf d (mxpackCounts .f32 tgt).1
  | .mxunpk _ d a tgt => blockOf d (match settled a with | some t => (mxunpkCounts (some t) tgt).2 | none => if a.toNat < 120 then (mxCounts .e2m3p tgt).2 else (mxCounts .e2m1x8 tgt).2)
  | .spawn _ d _ _ => [0, d]
  | _ => g.form.dests.filter fun r => !g.form.lat.contains r

/-- Registers the groups of a run write. -/
def runWrites (c : Crew) (gs : List WordGroup) : List Reg := gs.foldl (fun w g => w ++ g.writes c w) []

/-- The register whose tag settles the blocks of a conversion (03_arithmetic R105, 16_ref R357). -/
def convertSource : Instr → Option Reg
  | .cvt _ _ a _ _ _ | .mxpack _ _ a _ | .mxunpk _ _ a _ => some a
  | _ => none

/-- An earlier instruction of the run may change the tag that settles the blocks of a conversion: its block check is then made when it issues (log 12). -/
def laterTag (c : Crew) (gs : List WordGroup) (ins : Instr) : Bool :=
  match convertSource ins with
  | some a => (runWrites c gs).contains a
  | none => false

/-- An encoding error of a group, from its words alone (R80). -/
def groupBad (c : Crew) (gs : List WordGroup) (f : Form) (x : Ext) (ins : Instr) : Bool := { f with bad := f.bad && !laterTag c gs ins }.check x == some .illegalOp

/-- A tile on which an earlier instruction of the run has started TFILL or TDRAIN (R26). -/
def startedTile (gs : List WordGroup) (f : Form) : Bool :=
  f.use != .none && gs.any fun g => (g.form.use == .starts || g.form.use == .drains) && g.form.tile == f.tile

/-- The pre-scan from a word on, with the words left of the 24 (R22, R26). -/
def State.scan (s : State) (c : Crew) : Nat → PcAddr → PcAddr → Ext → List WordGroup → List Fetched → State × Scan
  | 0, group, _, _, _, _ => (s, .structural group)
  | n + 1, group, pc, x, gs, code =>
    match s.fetchWord c.core c.ctx pc with
    | (s1, .miss h) => (s1, .miss pc.toNat h)
    | (s1, .held) => (s1, .held)
    | (s1, .bad t) => (s1, .run gs (code ++ [.bad t]))
    | (s1, .device) => (s1, .run gs (code ++ [.device]))
    | (s1, .word bs) =>
      let code1 := code ++ [.word bs]
      match decodeBytes bs with
      | .error (.closerWithoutB ins) => if groupBad c gs (formOf c x ins) x ins then (s1, .run gs code1) else (s1, .structural group)
      | .error _ => (s1, .run gs code1)
      | .ok ins =>
        if isExt ins then
          match x.add ins with
          | none => (s1, .run gs code1)
          | some y => if n == 0 then (s1, .structural group) else s1.scan c n group (pc + 4) y gs code1
        else
          let f := formOf c x ins
          let gs1 := gs ++ [⟨group, x, ins, f⟩]
          if groupBad c gs f x ins then (s1, .run gs code1)
          else if (f.gate && !gs.isEmpty) || startedTile gs f then (s1, .structural group)
          else if f.b then (s1, .run gs1 code1)
          else if n == 0 then (s1, .structural group)
          else s1.scan c n (pc + 4) (pc + 4) Ext.zero gs1 code1

/-- The pre-scan of the run at a pc. -/
def State.prescan (s : State) (c : Crew) (pc : PcAddr) : State × Scan := s.scan c Config.runWords pc pc Ext.zero [] []

end Sys2Proof.Machine
end

