-- ==== Sys2Proof/Machine/Predicate.lean ====
section
/-! DEFINITION. Compares, predicate logic and SEL (02_encoding R64 to R66, 15_ref R329, R330, 16_ref R363, R364, 17_ref R380). -/
namespace Sys2Proof.Machine

/-- How a compare writes its predicate (R329). -/
def cmpInto (mode : CmpMode) (pd : PReg) (c : Bool) (f : Fibre) : Fibre :=
  f.setPred pd (match mode with | .set => c | .andInto => f.pred pd && c | .orInto => f.pred pd || c)

/-- CMP (R329). -/
def execCmp (e : Bool) (cond : Cond) (pd : PReg) (mode : CmpMode) (a b : Reg) (s : State) : Out :=
  s.plan (.cmp e cond pd mode a b) fun _ _ _ =>
    { srcs := [a, b], preds := [pd],
      check := fun _ l =>
        if opTag l 0 == opTag l 1 then
          match condHolds cond (opTag l 0) (opnd l 0) (opnd l 1) with
          | some r => .ok r
          | none => trapWith .formatMismatch 0
        else trapWith .formatMismatch 0,
      fibre := fun _ r f => cmpInto mode pd r f }

/-- CMPI (R329): the immediate is an integer of a's tag. -/
def execCmpi (e : Bool) (cond : Cond) (pd : PReg) (mode : CmpMode) (a : Reg) (imm : BitVec 7) (s : State) : Out :=
  s.plan (.cmpi e cond pd mode a imm) fun _ _ t =>
    { srcs := [a], preds := [pd],
      check := fun _ l =>
        if isInt32 (opTag l 0) then
          match condHolds cond (opTag l 0) (opnd l 0) (immWord t.i.ext imm) with
          | some r => .ok r
          | none => trapWith .formatMismatch 0
        else trapWith .formatMismatch 0,
      fibre := fun _ r f => cmpInto mode pd r f }

/-- A predicate operation on a fibre (R363). -/
def planPred (pd : PReg) (g : Fibre → Bool) : Plan Unit :=
  { srcs := [], preds := [pd], check := fun _ _ => .ok (), fibre := fun _ _ f => f.setPred pd (g f) }

/-- PAND (R363). -/
def execPand (e : Bool) (pd pa pb : PReg) (s : State) : Out := s.plan (.pand e pd pa pb) fun _ _ _ => planPred pd fun f => f.pred pa && f.pred pb
/-- POR (R363). -/
def execPor (e : Bool) (pd pa pb : PReg) (s : State) : Out := s.plan (.por e pd pa pb) fun _ _ _ => planPred pd fun f => f.pred pa || f.pred pb
/-- PXOR (R363). -/
def execPxor (e : Bool) (pd pa pb : PReg) (s : State) : Out := s.plan (.pxor e pd pa pb) fun _ _ _ => planPred pd fun f => f.pred pa != f.pred pb
/-- PNOT (R363). -/
def execPnot (e : Bool) (pd pa : PReg) (s : State) : Out := s.plan (.pnot e pd pa) fun _ _ _ => planPred pd fun f => !f.pred pa

/-- The predicate word, p15 reading 1 (R36). -/
def Fibre.predWord (f : Fibre) : BitVec 16 := setBit16 f.preds 15 true

/-- PMOV v, pw (R65, R364): the result is G. -/
def execPmovToRegister (e : Bool) (v : Reg) (mask : BitVec 16) (s : State) : Out :=
  s.plan (.pmovToRegister e v mask) fun _ c _ =>
    { srcs := [], check := fun k _ => .ok (match c.fib k with | some f => f.predWord &&& mask | none => 0),
      dests := fun l => [destG v.toNat .ui32 (l.map fun p => (p.1, p.2.setWidth 32))] }

/-- PMOV pw, v (R65, R364). -/
def execPmovToPredicates (e : Bool) (v : Reg) (mask : BitVec 16) (s : State) : Out :=
  s.plan (.pmovToPredicates e v mask) fun _ _ _ =>
    { srcs := [v], preds := maskPreds mask,
      check := fun _ l => if isInt32 (opTag l 0) then .ok (opnd l 0) else trapWith .formatMismatch 0,
      fibre := fun _ w f => (List.range 15).foldl (fun g i => if mask.getLsbD i then g.setPred (BitVec.ofNat 4 i) (w.getLsbD i) else g) f }

/-- SEL (R66, R380): U under its three conditions, else G. -/
def execSel (e : Bool) (ps : PReg) (inv : Bool) (d a b : Reg) (s : State) : Out :=
  s.plan (.sel e ps inv d a b) fun _ c _ =>
    { srcs := [a, b],
      check := fun k l =>
        if opTag l 0 == opTag l 1 then
          .ok ((if (match c.fib k with | some f => f.pred ps | none => true) != inv then opnd l 0 else opnd l 1), opTag l 0)
        else trapWith .formatMismatch 0,
      dests := fun l =>
        let tag := match l with | p :: _ => p.2.2 | [] => .si32
        let live := c.fibres.filter fun f => f.live
        let same : Bool := live.all (fun f => f.pred ps) || live.all fun f => !f.pred ps
        let uni : Bool := c.shapeOf a == .u && c.shapeOf b == .u && (c.elem a.toNat 0 == c.elem b.toNat 0 || same)
        let base := match l with | p :: _ => p.2.1 | [] => 0
        [⟨d.toNat, tag, if uni then .u else .g, base, 0, l.map fun p => (p.1, p.2.1)⟩] }

end Sys2Proof.Machine
end

