-- ==== Sys2Proof/Machine/Save.lean ====
section
/-! DEFINITION. The save area and the scratch image (01_execution R52 to R56), SYSCALL replies (17_ref R391), and what pre-emption and restore do to one crew (11_faults R261, 07_transactions R188, R189, 08_copies R212). -/
namespace Sys2Proof.Machine

/-! ### Layout -/

/-- The next multiple of 128. -/
def align128 (n : Nat) : Nat := (n + 127) / 128 * 128

/-- Bytes padded with zeros to a length. -/
def padTo (n : Nat) (bs : List Byte) : List Byte := bs ++ List.replicate (n - bs.length) 0

/-- Where the descriptors, rows, feed states and tiles of a save area begin (R52; the descriptors where its rule puts them, log 24). -/
structure AreaLayout where
  descs : Nat
  rows : Nat
  feeds : Nat
  tiles : Nat
  size : Nat
deriving DecidableEq, Repr

/-- Bytes of tile state codes (R52). -/
def tileCodes (tiles : Nat) : Nat := if tiles ≤ 128 then 128 else 256

def areaLayout (size gused feeds tiles : Nat) : AreaLayout :=
  let d := 128 + 64 * size
  let r := align128 (d + 1088)
  let f := align128 (r + gused * 4 * size)
  let t := align128 (f + 16 * feeds * size)
  ⟨d, r, f, t, t + tileCodes tiles + 1024 * tiles⟩

def shapeCode : Shape → Nat
  | .u => 0 | .a => 1 | .g => 2

/-- Registers tagged G, ascending (R52). -/
def Crew.gRegs (c : Crew) : List Nat := (List.range 120).filter fun d => (c.desc d).shape == .g

/-- Arrivals the crew barrier still waits for: CBPEND (R53; log 24). -/
def Crew.barPending (c : Crew) : Nat := (c.fibres.filter fun f => f.live && !f.arrivedCrew).length

/-- The crew header (R53). -/
def Crew.header (c : Crew) : Nat :=
  let l := areaLayout c.size c.gRegs.length c.feeds c.tiles.length
  1 + c.size * 2 ^ 16 + c.grows * 2 ^ 32 + c.gRegs.length * 2 ^ 40 + c.feeds * 2 ^ 48 + bit01 c.converged * 2 ^ 52 + c.nstatus.toNat * 2 ^ 64 +
  c.barPending * 2 ^ 96 + bit01 c.barPhase * 2 ^ 107 + c.uiVec.toNat * 2 ^ 128 + bit01 c.uiMasked * 2 ^ 192 +
  l.rows * 2 ^ 256 + l.feeds * 2 ^ 288 + l.tiles * 2 ^ 320 + c.tiles.length * 2 ^ 352

/-- A fibre record (R54). -/
def Fibre.record (f : Fibre) : Nat :=
  if f.live then
    f.pc.toNat + f.regPc.toNat * 2 ^ 64 + (f.preds.toNat % 2 ^ 15 + 2 ^ 15) * 2 ^ 128 + f.fpstat.toNat * 2 ^ 144 + f.trapCause.toNat * 2 ^ 176 +
    f.txCause.toNat * 2 ^ 184 + 2 ^ 196 + bit01 f.trapMode * 2 ^ 197 + bit01 (f.st == .awaitReply) * 2 ^ 198 + bit01 f.uiAct * 2 ^ 199 +
    bit01 f.arrivedCrew * 2 ^ 200 + f.trapPc.toNat * 2 ^ 256 + (f.trapAddr.toNat % 2 ^ 57) * 2 ^ 320 + f.uiRpc.toNat * 2 ^ 384
  else 0

/-- A saved descriptor (R37, R52); a G register names the ordinal of its row. -/
def Crew.savedDesc (c : Crew) (d : Nat) : Nat :=
  let x := c.desc d
  (if x.shape == .g then (c.gRegs.takeWhile fun r => r != d).length else x.base.toNat) + x.stride.toNat * 2 ^ 32 + shapeCode x.shape * 2 ^ 64 + x.tag.code * 2 ^ 66

/-- A feed state (R55). -/
def Feed.saved (q : Feed) : Nat := q.record % 2 ^ 57 + q.regionPos % 2 ^ 32 * 2 ^ 64 + bit01 q.stopped * 2 ^ 96

/-- Code of a tile in a save area: only empty and ready occur (04_matrix R124). -/
def Tile.savedCode (t : Tile) : Byte := if t.st == .empty then 0 else 2

/-- The bytes of a save area (R52). Bytes between the end of a section and the next multiple of 128 are zeros, and a restore does not look at them; the feed states of a rank without a live fibre are those its retirement left, and a restore ignores them (R55; log 72). -/
def Crew.saveBytes (c : Crew) : List Byte :=
  let l := areaLayout c.size c.gRegs.length c.feeds c.tiles.length
  let head := natBytes 128 c.header ++ c.fibres.flatMap fun f => natBytes 64 f.record
  let a1 := padTo l.rows (head ++ (List.range 120).flatMap fun d => natBytes 9 (c.savedDesc d))
  let a2 := padTo l.feeds (a1 ++ c.gRegs.flatMap fun d => (List.range c.size).flatMap fun k => natBytes 4 (c.elem d k).toNat)
  let a3 := padTo l.tiles (a2 ++ (List.range c.feeds).flatMap fun q => c.fibres.flatMap fun f => natBytes 16 (match f.feeds[q]? with | some x => x.saved | none => 0))
  padTo (l.tiles + tileCodes c.tiles.length) (a3 ++ c.tiles.map Tile.savedCode) ++
    c.tiles.flatMap fun t => wordsBytes (if t.st == .empty then List.replicate 256 0 else t.words)

/-! ### Reading a save area back -/

/-- A field of zeros. -/
def zeroF (r lo n : Nat) : Bool := recF r lo n == 0

/-- The header's zero fields, and its offsets and counts against R52 for a crew. That counts other than the crew's are malformed, and that VERSION is not compared, are the model's readings (log 24). -/
def headerOk (c : Crew) (h : Nat) : Bool :=
  let l := areaLayout c.size (recF h 40 8) c.feeds c.tiles.length
  zeroF h 8 8 && zeroF h 53 11 && zeroF h 67 29 && zeroF h 108 20 && zeroF h 185 7 && zeroF h 193 63 && zeroF h 368 656 &&
  recF h 16 16 == c.size && recF h 32 8 == c.grows && recF h 48 4 == c.feeds && recF h 352 16 == c.tiles.length &&
  recF h 256 32 == l.rows && recF h 288 32 == l.feeds && recF h 320 32 == l.tiles && recF h 40 8 ≤ c.grows

/-- The zero fields of a fibre record (R54), those of FPSTAT (R49) among them. -/
def recordZeros (r : Nat) : Bool :=
  zeroF r 57 7 && zeroF r 121 7 && zeroF r 191 1 && zeroF r 151 1 && zeroF r 154 22 && zeroF r 192 4 && zeroF r 201 55 && zeroF r 313 7 && zeroF r 377 7 && zeroF r 441 71

/-- A descriptor read back, none when malformed (R56). -/
def readDesc (x : Nat) : Option Desc :=
  match Tag.ofCode (recF x 66 4) with
  | none => none
  | some tag =>
    let b := BitVec.ofNat 32 x
    let st := BitVec.ofNat 32 (x / 2 ^ 32)
    if !zeroF x 70 2 then none
    else match recF x 64 2 with
      | 0 => if st == 0 then some ⟨.u, tag, b, 0⟩ else none
      | 1 => some ⟨.a, tag, b, st⟩
      | 2 => if st == 0 && b.toNat < 64 then some ⟨.g, tag, b, 0⟩ else none
      | _ => none

/-- Every element, or none. -/
def allSome {α : Type} : List (Option α) → Option (List α)
  | [] => some []
  | some x :: r => (allSome r).map fun l => x :: l
  | none :: _ => none

/-- A fibre as its record gives it, over what is kept with the context: UICAUSE, CLOCKHI and TIMEHI, which the record has no field for, stand (log 24). -/
def Fibre.restored (f : Fibre) (r : Nat) (feeds : List Nat) (stamp mark : Nat) : Fibre :=
  if recF r 196 1 == 0 then { f with live := false, st := .retired }
  else
    let pc : PcAddr := BitVec.ofNat 57 (recF r 64 57)
    { f with
      live := true
      st := if recF r 198 1 == 1 then .awaitReply else if f.st == .awaitToken then .awaitToken else .ready
      pc := if f.st == .awaitToken then BitVec.ofNat 57 (recF r 0 57) else pc
      regPc := pc
      mark := mark
      preds := BitVec.ofNat 16 (recF r 128 15)
      fpstat := BitVec.ofNat 32 (recF r 144 32)
      trapCause := BitVec.ofNat 8 (recF r 176 8)
      trapPc := BitVec.ofNat 57 (recF r 256 57)
      trapAddr := BitVec.ofNat 64 (recF r 320 57)
      trapMode := recF r 197 1 == 1
      txCause := BitVec.ofNat 4 (recF r 184 4)
      uiRpc := BitVec.ofNat 57 (recF r 384 57)
      uiAct := recF r 199 1 == 1
      arrivedCrew := recF r 200 1 == 1
      counts := []
      gate := none
      meeting := none
      restart := false
      stepping := false
      anew := false
      stamp := stamp
      feeds := (f.feeds.zip feeds).map fun p => ⟨recF p.2 0 57, recF p.2 64 32, recF p.2 64 32, recF p.2 96 1 == 1, []⟩ }

/-- The descriptors read back, each G register with a row of its own in ascending order (R52); with each row, the ordinal its values come from. -/
def ownRows : Nat → List Desc → List Desc × List Nat
  | _, [] => ([], [])
  | n, d :: r =>
    if d.shape == .g then
      let q := ownRows (n + 1) r
      ({ d with base := BitVec.ofNat 32 n } :: q.1, d.base.toNat :: q.2)
    else
      let q := ownRows n r
      (d :: q.1, q.2)

/-- A crew as its save area and scratch image give it; none when the area is malformed (R56): that a count of G registers other than GUSED, or an ordinal of no row, is malformed too, and that a tile of code 1 or 3 comes back ready, is the model's reading (log 24). -/
def Crew.restored (c : Crew) (area image : List Byte) (stamp mark : Nat) : Option Crew :=
  let at_ (off n : Nat) : Nat := bytesNat ((area.drop off).take n)
  let h := at_ 0 128
  if !headerOk c h then none
  else
    let l := areaLayout c.size (recF h 40 8) c.feeds c.tiles.length
    let recs := (List.range c.size).map fun k => at_ (128 + 64 * k) 64
    let codes := (List.range (tileCodes c.tiles.length)).map fun i => at_ (l.tiles + i) 1
    let feed (q k : Nat) : Nat := at_ (l.feeds + 16 * (q * c.size + k)) 16
    let feedsOk := (List.range c.feeds).all fun q => (List.range c.size).all fun k => zeroF (feed q k) 57 7 && zeroF (feed q k) 97 31
    let codesOk := ((List.range codes.length).zip codes).all fun p => if p.1 < c.tiles.length then p.2 < 4 else p.2 == 0
    match allSome ((List.range 120).map fun d => readDesc (at_ (l.descs + 9 * d) 9)) with
    | none => none
    | some ds =>
      let own := ownRows 0 ds
      if !(own.2.length == recF h 40 8 && own.2.all (fun n => decide (n < recF h 40 8)) && recs.all recordZeros && recs.all (fun r => recF r 196 1 == 1 || r == 0) && at_ (l.descs + 1080) 8 == 0 && feedsOk && codesOk) then none
      else
        let row (i : Nat) : List Word := (List.range c.size).map fun k => BitVec.ofNat 32 (at_ (l.rows + 4 * (i * c.size + k)) 4)
        let tile (t : Nat) : Tile :=
          ⟨if codes.getD t 0 == 0 then .empty else .ready, bytesWords ((area.drop (l.tiles + tileCodes c.tiles.length + 1024 * t)).take 1024)⟩
        some { c with
          converged := recF h 52 1 == 1
          nstatus := c.nstatus ||| BitVec.ofNat 3 (recF h 64 3)
          barPhase := recF h 107 1 == 1
          uiVec := BitVec.ofNat 57 (recF h 128 57)
          uiMasked := recF h 192 1 == 1
          regs := own.1
          rows := (List.range c.grows).map fun i => match own.2[i]? with | some n => row n | none => List.replicate c.size 0
          fibres := ((c.fibres.zip recs).zip (List.range c.size)).map fun p => p.1.1.restored p.1.2 ((List.range c.feeds).map fun q => feed q p.2) stamp mark
          tiles := (List.range c.tiles.length).map tile
          scratch := cellWrite [] 0 image }

/-! ### Replies -/

/-- The part of a message still awaited by a fibre. -/
def Syscall.partOf (y : Syscall) (rank : Nat) : Option SyscallPart := y.parts.find? fun p => p.rank == rank

/-- A fibre of a message has its reply; a message whose fibres all have theirs is done with. -/
def State.dropPart (s : State) (crew rank : Nat) : State :=
  { s with syscalls := (s.syscalls.map fun y => if y.crew == crew then { y with parts := y.parts.filter fun p => p.rank != rank } else y).filter fun y => !y.parts.isEmpty }

/-- A reply reaches its fibre (R391, R33): d to d+7, an acquire at SYS, and the fibre goes on. -/
def State.deliverReply (s : State) (crew rank : Nat) (d : Reg) (reply : List Word) : State :=
  match s.getCrew crew with
  | none => s
  | some c =>
    let ws := (List.range 8).map fun i => reply.getD i 0
    let put (c : Crew) : Crew := ((List.range 8).zip ws).foldl (fun (c : Crew) p =>
      let d := d.toNat + p.1
      match c.shapeStep d .g with
      | some c1 => c1.putValue d .g .ui32 0 0 [(rank, p.2)]
      | none => c) c
    let s2 := ((s.dropPart crew rank).unmark crew [rank] ((List.range 8).map fun i => d.toNat + i)).modCrew crew put
    (s2.acquire c.core 5).modFib crew rank fun f => { f with st := .ready, stamp := s.cycles }

/-- SYSCALL_REPLY (R391): a reply that comes while the crew is saved waits for its restore. -/
def execSyscallReply (crew rank : Nat) (reply : List Word) (s : State) : Out :=
  match s.syscalls.find? fun y => y.crew == crew && (match y.partOf rank with | some p => p.reply.isNone | none => false) with
  | none => .next s
  | some y =>
    match s.getCrew crew with
    | none => .next s
    | some c =>
      if c.life == .resident then .next (s.deliverReply crew rank y.d reply)
      else .next { s with syscalls := updWhere (fun x => x.crew == crew) (fun x => { x with parts := updWhere (fun p => p.rank == rank) (fun p => { p with reply := some reply }) x.parts }) s.syscalls }

/-! ### Saving -/

/-- The result of an issued region closer of a fibre has not landed (R31, R261), or one of a fibre at its TXBEGIN, which does not issue its region again (07_transactions R191). -/
def State.closerResult (s : State) (c : Crew) : Bool :=
  s.ops.any fun o => o.crew == c.id && isResult o.work && o.ranks.any fun k => c.fibTest (fun f => decide (o.id < f.mark) || f.st == .awaitToken) k

/-- A fill or drain still at its tile (04_matrix R124). -/
def Work.onTile : Work → Bool
  | .fill .. | .drain .. => true
  | _ => false

/-- An operation that does not delay a save: results to be discarded, appends, heads, jobs (13_fabric R302), fences, and stores handed to a Filsis port (R261). -/
def Op.saveable (o : Op) : Bool :=
  isResult o.work || o.work.pipe.isSome || o.work.isFence || (o.peer.isSome && o.work.writes && !o.work.onTile) ||
  (match o.work with
   | .chain _ | .job _ => true
   | _ => false)

/-- The crew may be saved now (R261 steps 1 to 4): its runs have ended, but for one that waits behind a PSEND, which the save itself moves (R230), and for a commit not yet decided, which has locked no slice and aborts (07_transactions R188). -/
def State.saveReady (s : State) (c : Crew) : Bool :=
  !((s.cur.toList ++ s.waiting).any fun i => i.crew == c.id && !i.commit && !(s.ops.any fun o => o.crew == c.id && o.work.pipe.isSome)) && !c.liveSet.isEmpty && !s.closerResult c &&
  !(s.ops.any fun o => o.crew == c.id && !o.saveable) && !(s.transfers.any fun t => t.head.crew == c.id)

/-- Waiting PSENDs of a crew enter overflow storage at once (R230); with the pool exhausted they keep waiting at the home, and the status block says so (R228; log 23). -/
def State.flushSends (s : State) (crew : Nat) : State :=
  (s.ops.filter fun o => o.crew == crew && o.work.pipe.isSome).foldl (fun (st : State) o =>
    match o.work with
    | .append num gen v tag =>
      match st.getPipe num with
      | none => st.retireOp o
      | some p =>
        if p.ctx != o.ctx || p.gen != gen then st.retireOp o else
        match (match p.push (v, tag) with
          | some q => some q
          | none => if st.pool p.ctx == 0 then none else Pipe.push { p with segments := p.segments + 1 } (v, tag)) with
        | none => st.ctxStatus p.ctx fun c => { c with bits := c.bits ||| 4 }
        | some p1 =>
        let st1 := (st.setPipe { p1.appended crew st.ticks with waiting := p1.waiting.filter fun x => x != o.id }).setPool p.ctx (st.pool p.ctx - (p1.segments - p.segments))
        (st1.assignPipe num p.regs.length).retireOp o
    | _ => st) s

/-- The channel's chain of a crew stops at its next record, and its heads are kept with the context (R212). -/
def State.keepCopies (s : State) (c : Crew) : State :=
  (s.chans.filter fun x => x.core == c.core).foldl (fun (st : State) x =>
    let mine (h : Head) : Bool := h.crew == c.id
    let walk : List Head := match x.chain with | some h => if mine h then x.next.toList.map fun a => { h with addr := a, taken := true } else [] | none => []
    let heads := walk ++ x.heads.filter mine
    let stop : Bool := match x.chain with | some h => mine h | none => false
    let ended := match x.chain with | some h => if mine h && x.next.isNone then (st.getOp h.op).toList else [] | none => []
    let st1 := st.setChannel { x with heads := x.heads.filter (fun h => !mine h), chain := if stop then none else x.chain, next := if stop then none else x.next }
    let st2 := ended.foldl (fun (a : State) o => a.retireOp o) st1
    if heads.isEmpty then st2 else { st2 with savedCopies := st2.savedCopies ++ [⟨c.id, x.core, x.ch, heads⟩] }) s

/-- Heads of a restored crew are placed again, in their order (R212). -/
def State.placeCopies (s : State) (crew core : Nat) : State :=
  let l := s.savedCopies.filter fun x => x.crew == crew
  let s1 : State := { s with savedCopies := s.savedCopies.filter fun x => x.crew != crew }
  l.foldl (fun (st : State) x =>
    let ch := st.channel core x.ch
    let ids := x.heads.map fun h => h.op
    State.setChannel { st with ops := st.ops.map fun o => if ids.contains o.id then { o with core := core, work := .chain (4 * core + x.ch.toNat) } else o }
      { ch with heads := ch.heads ++ x.heads }) s1

/-- A fibre that holds the serial token without an attempt gives it back and stands at the head of its queue (07_transactions R189). -/
def State.yieldToken (s : State) (crew : Nat) : State :=
  match s.token.holder with
  | some (c, k) => if c == crew then { s with token := ⟨none, (c, k, 4) :: s.token.queue⟩ } else s
  | none => s

/-- What pre-emption does to a fibre that stays live: everything that is not saved is dropped (R56, R189, R261). -/
def Fibre.stopped (f : Fibre) (queued : Bool) : Fibre :=
  { f with
    pc := if f.restart then f.regPc else f.pc
    st := if f.st == .awaitReply then .awaitReply else if f.st == .awaitToken then .awaitToken else .ready
    abortCount := if queued then f.abortCount else 0
    counts := f.counts.filter fun c => c.cls == .copies
    gate := none
    meeting := none
    restart := false
    stepping := false
    anew := false }

/-- One crew is saved (R261 steps 3, 5 and 6). A fence stays while stores handed to a port that it orders are still on their way (06_consistency R163). -/
def State.saveCrew (s : State) (id area image : Nat) : State :=
  match s.getCrew id with
  | none => s
  | some c =>
    let s1 := (c.liveSet.foldl (fun (st : State) k => st.abortTx id k .preempt) ((s.flushSends id).yieldToken id)).modCrew id Crew.fixConv
    let s2 := c.liveSet.foldl (fun (st : State) k => st.discardResults id k fun _ => true) s1
    let s3 : State := (s2.keepCopies c).passContribs fun x => x.crew == id
    let queued (k : Nat) : Bool := s3.token.queue.any fun q => q.1 == id && q.2.1 == k
    let s4 := State.modCrew { s3.gcFences with
        cur := s3.cur.filter (fun i => i.crew != id),
        waiting := s3.waiting.filter (fun i => i.crew != id),
        misses := s3.misses.map fun m => if m.crew == id then { m with ranks := [] } else m } id fun x =>
      { x with fibres := ((x.fibres.zip (List.range x.size)).map fun p => if p.1.live then p.1.stopped (queued p.2) else p.1) }
    match s4.getCrew id with
    | none => s4
    | some c4 =>
      let s5 := s4.performWrite none (kernelAt area) c4.saveBytes false
      let s6 := s5.performWrite none (kernelAt image) (cellRead c4.scratch 0 c4.scratchSize) false
      s6.modCrew id fun x => { x with life := .saved, area := area, image := image }

/-! ### Restoring -/

/-- Replies that came while a crew was saved reach it (R33). -/
def State.lateReplies (s : State) (crew : Nat) : State :=
  (s.syscalls.filter fun y => y.crew == crew).foldl (fun (st : State) y =>
    (y.parts.filter fun p => p.reply.isSome).foldl (fun (st1 : State) p => st1.deliverReply crew p.rank y.d (p.reply.getD [])) st) s

/-- A saved crew is placed on a core and lane (R261, R56, 11_faults R260): its area and image are read, or its context is torn down. No copy that its new core or die holds can be older than what its fibres have written or read before (06_consistency R158, R165). -/
def State.restoreCrew (s : State) (id core lane prio : Nat) : State :=
  match s.getCrew id with
  | none => s
  | some c =>
    let h := bytesNat (s.homeRead (kernelAt c.area) 128)
    let n := (areaLayout c.size (recF h 40 8) c.feeds c.tiles.length).size
    if s.poisonedAt (kernelAt c.area) n || (c.scratchSize != 0 && s.poisonedAt (kernelAt c.image) c.scratchSize) then s.teardown c.ctx 0x101
    else match c.restored (s.homeRead (kernelAt c.area) n) (s.homeRead (kernelAt c.image) c.scratchSize) s.cycles s.nextId with
      | none => s.teardown c.ctx 0x100
      | some c1 =>
        let s1 := s.modCrew id fun _ => { c1 with life := .resident, core := core, lane := lane, prio := prio, area := 0, image := 0 }
        (((s1.placeCopies id core).modCrew id Crew.fixConv).acquire core 4).lateReplies id

end Sys2Proof.Machine
end

