-- ==== Sys2Proof/Machine/Queues.lean ====
section
/-! DEFINITION. User queues and launch records: mapping, reading, dependences, rejection, cancellation, and the dispatch of tasks (10_scheduling R231 to R240, 09_crumbs R222, R225). -/
namespace Sys2Proof.Machine

/-! ### User queues -/

def State.userQueue (s : State) (qid : Nat) : Option UserQueue := s.userQueues.find? fun q => q.qid == qid

/-- Descriptor of a user queue as a number (R231). -/
def State.uqDesc (s : State) (q : UserQueue) : Nat := cellNat s.mem q.desc 64

/-- A queue and descriptor after a step of the queue scheduler. -/
def State.setUq (s : State) (q : UserQueue) (d : Nat) : State :=
  State.putDesc { s with userQueues := updWhere (fun x => x.qid == q.qid) (fun _ => q) s.userQueues } q.desc d

/-- Fields of the descriptor (R231). -/
def uqEnabled (d : Nat) : Bool := recF d 64 1 == 1
def uqMapped (d : Nat) : Bool := recF d 65 1 == 1
def uqRunnable (d : Nat) : Bool := recF d 66 1 == 1
def uqSize (d : Nat) : Nat := 2 ^ (recF d 72 4 + 6)
def uqPrio (d : Nat) : Nat := recF d 76 4
def uqHead (d : Nat) : Word := BitVec.ofNat 32 (recF d 256 32)

/-- Queues that hold a hardware slot. -/
def State.mappedQueues (s : State) : List UserQueue := s.userQueues.filter fun q => uqMapped (s.uqDesc q)

/-- Queues that wait for one. -/
def State.runnableQueues (s : State) : List UserQueue := s.userQueues.filter fun q => !uqMapped (s.uqDesc q) && uqRunnable (s.uqDesc q)

/-- The first of a list under a strict order. -/
def bestOf {α : Type} (before : α → α → Bool) : List α → Option α
  | [] => none
  | x :: r => match bestOf before r with
    | some y => if before y x then some y else some x
    | none => some x

/-- The runnable queue that is mapped first (R234). -/
def State.nextRunnable (s : State) : Option UserQueue :=
  bestOf (fun a b => uqPrio (s.uqDesc b) < uqPrio (s.uqDesc a) || (uqPrio (s.uqDesc a) == uqPrio (s.uqDesc b) && a.runnableAt < b.runnableAt)) s.runnableQueues

/-- The mapped queue that is evicted first (R234). -/
def State.nextEvicted (s : State) : Option UserQueue :=
  bestOf (fun a b => uqPrio (s.uqDesc a) < uqPrio (s.uqDesc b) || (uqPrio (s.uqDesc a) == uqPrio (s.uqDesc b) && a.heard < b.heard)) s.mappedQueues

/-- Boot has stopped at an image: the endpoint has BAR2 alone (14_system R312). -/
def State.bootStopped (s : State) : Bool := match s.boot with | .stopped _ => true | _ => false

/-- NOTIFY_WRITE (R232): a notify write of the host through BAR0 (14_system R303); none reaches a package whose host link is down, that has no power (R313) or that has no BAR0 (R312). -/
def execNotifyWrite (s : State) : Out :=
  match takeInput (fun i => match i with | .notify qid tail width => some (qid, tail, width) | _ => none) s.inputs with
  | none => .next s
  | some ((qid, tail, width), r) => .next (if s.hostLost || !s.powered || s.bootStopped then s.took r else (s.took r).notifyStep qid tail width)

/-- QUEUE_MAP (R233, R234): the first runnable queue takes a free slot, with HEAD and SHADOW. -/
def execQueueMap (qid : Nat) (s : State) : Out :=
  match s.nextRunnable with
  | some q =>
    if q.qid == qid && s.mappedQueues.length < Config.queueSlots then
      let d := s.uqDesc q
      .next (s.setUq { q with tail := BitVec.ofNat 32 (recF d 288 32) } (recSet d 65 1 1))
    else .next s
  | none => .next s

/-- A mapped queue loses its slot (R233). -/
def State.unmapQueue (s : State) (q : UserQueue) : State :=
  let d := s.uqDesc q
  let r := q.tail != uqHead d
  s.setUq { q with runnableAt := if r then s.cycles else q.runnableAt } (recSet (recSet (recSet d 288 32 q.tail.toNat) 66 1 (bit01 r)) 65 1 0)

/-- QUEUE_IDLE_UNMAP (R233): every record read, and 100 µs without a notify. -/
def execQueueIdleUnmap (qid : Nat) (s : State) : Out :=
  match s.userQueue qid with
  | some q =>
    let d := s.uqDesc q
    .next (if uqMapped d && q.tail == uqHead d && q.notified + 100000 ≤ s.ticks then s.unmapQueue q else s)
  | none => .next s

/-- QUEUE_EVICTION (R234): no slot is free, and a runnable queue has a strictly higher priority. -/
def execQueueEviction (qid : Nat) (s : State) : Out :=
  match s.nextEvicted, s.nextRunnable with
  | some v, some r =>
    .next (if v.qid == qid && Config.queueSlots ≤ s.mappedQueues.length && uqPrio (s.uqDesc v) < uqPrio (s.uqDesc r) then s.unmapQueue v else s)
  | _, _ => .next s

/-- QUEUE_SUSPEND (R233): ENABLED is cleared. -/
def execQueueSuspend (qid : Nat) (s : State) : Out :=
  match s.userQueue qid with
  | some q => .next (s.setUq q (recSet (s.uqDesc q) 64 1 0))
  | none => .next s

/-- ERRORS of a user queue counts. -/
def State.uqError (s : State) (qid : Nat) : State :=
  match s.userQueue qid with
  | some q => s.setUq q (recSet (s.uqDesc q) 224 32 (recF (s.uqDesc q) 224 32 + 1))
  | none => s

/-! ### Launch records -/

/-- Fields of a launch record (R235). -/
def Launch.entry (l : Launch) : Nat := recF l.record 0 64
def Launch.args (l : Launch) : Nat := recF l.record 64 64
def Launch.anchor (l : Launch) : Nat := recF l.record 128 64
def Launch.crews (l : Launch) : Nat := if recF l.record 192 32 == 0 then 2 ^ 32 else recF l.record 192 32
def Launch.crewSize (l : Launch) : Nat := recF l.record 224 11
def Launch.teamSize (l : Launch) : Nat := recF l.record 235 7
def Launch.grows (l : Launch) : Nat := recF l.record 242 7
def Launch.feeds (l : Launch) : Nat := recF l.record 249 4
def Launch.scratch (l : Launch) : Nat := recF l.record 256 13 * 128
def Launch.tiles (l : Launch) : Nat := recF l.record 269 9
def Launch.depL (l : Launch) : Bool := recF l.record 288 1 == 1
def Launch.depQ (l : Launch) : Nat := recF l.record 304 16
def Launch.depIdx (l : Launch) : Word := BitVec.ofNat 32 (recF l.record 320 32)
def Launch.depCtr (l : Launch) : Word := BitVec.ofNat 32 (recF l.record 352 32)

/-- A launch has left the machine's hands (R238). -/
def LaunchState.over (x : LaunchState) : Bool := x == .complete || x == .rejected || x == .cancelled || x == .tornDown

/-- What a unit that reads records finds while an address is not mapped: the miss is asked for (11_faults R258). -/
def State.askWalk (s : State) (ctx va : Nat) : State :=
  match s.walk ctx va with
  | .missing _ => if s.isRefused ctx va then s else s.askMiss ctx va false
  | _ => s

/-- LAUNCH_RECORD_READ (R231, R233, R238): the record of count HEAD, once no launch of the queue waits. The record is read where its context's tables map it; a recoverable miss is resolved first, and where they refuse it stays unread (log 25). -/
def execLaunchRecordRead (qid : Nat) (s : State) : Out :=
  match s.userQueue qid with
  | none => .next s
  | some q =>
    let d := s.uqDesc q
    let h := uqHead d
    if !uqMapped d || !uqEnabled d || q.tail == h || (s.launches.any fun l => !l.task && l.queue == qid && l.st == .waiting) then .next s
    else match s.kernelPlace q.ctx (recF d 0 64 + 64 * (h.toNat % uqSize d)) with
      | none => .next (s.askWalk q.ctx (recF d 0 64 + 64 * (h.toNat % uqSize d)))
      | some (p, _) =>
        if s.placeHeld p then .next s else
        let l : Launch := ⟨s.nextId, q.ctx, bytesNat (s.homeRead p 64), false, qid, h, .waiting, 0, 0, false, 0, 0, []⟩
        .next (State.setUq (State.bumpId { s with launches := s.launches ++ [l] }) q (recSet (recSet d 256 32 (h + 1).toNat) 66 1 (bit01 (q.tail != h + 1))))

/-! ### Dependences -/

/-- How a dependence stands (R239). -/
inductive Dep where
  | holds | waits | fails
deriving DecidableEq, Repr

/-- A launch dependence (R239). One that names no queue of the context is left to the check that rejects it. -/
def State.depLaunch (s : State) (l : Launch) : Dep :=
  if !l.depL then .holds
  else match s.userQueues.find? fun q => q.qid == l.depQ && q.ctx == l.ctx with
    | none => .holds
    | some q =>
      let read := (uqHead (s.uqDesc q) - 1 - l.depIdx).toNat < 2 ^ 31
      let open_ := s.launches.any fun x => !x.task && x.queue == q.qid && (l.depIdx - x.index).toNat < 2 ^ 31 && !x.st.over
      if read && !open_ then .holds else .waits

/-- A counter dependence (R239). One that names a counter of another context is left to the check that rejects it. -/
def State.depCounter (s : State) (l : Launch) : Dep :=
  if l.depCtr == 0 then .holds
  else match s.crumb l.depCtr with
    | none => .holds
    | some c =>
      if c.owner != some l.ctx then .holds
      else if c.gen.toNat != recF l.depCtr.toNat 0 16 then .fails
      else if c.fired then .holds
      else if c.armed then .waits else .fails

/-- What both say; a task has no dependence. -/
def State.depState (s : State) (l : Launch) : Dep :=
  if l.task then .holds
  else match s.depCounter l, s.depLaunch l with
    | .fails, _ => .fails
    | .holds, .holds => .holds
    | _, _ => .waits

/-! ### Capacities and rejection -/

/-- Capacities of a core (R2, 05_memory R154). -/
def State.caps (s : State) (core : Nat) : CoreCaps :=
  match s.coreCaps.find? fun x => x.1 == core with
  | some x => x.2
  | none => ⟨64, 524288, 256⟩

/-- The reported capacity is the most of any core (14_system R311). -/
def State.maxCaps (s : State) : CoreCaps :=
  (List.range Config.cores).foldl (fun a k => let c := s.caps k; ⟨max a.rows c.rows, max a.scratch c.scratch, max a.tiles c.tiles⟩) ⟨0, 0, 0⟩

/-- Lanes of a crew of n fibres (01_execution R12). -/
def crewLanes (n : Nat) : Nat := (n + 15) / 16

/-- Crews of a launch that a core could hold when empty (R242). -/
def State.emptyCrews (s : State) (l : Launch) (core : Nat) : Nat :=
  let c := s.caps core
  let n := crewLanes l.crewSize
  if c.rows < l.grows + 4 * l.feeds then 0
  else
    let byLanes := Config.lanes / (2 * ((n + 1) / 2)) + (if n % 2 == 1 && Config.lanes % (n + 1) == n then 1 else 0)
    let byScratch := if l.scratch == 0 then byLanes else c.scratch / l.scratch
    let byTiles := if l.tiles == 0 then byLanes else c.tiles / l.tiles
    min byLanes (min byScratch byTiles)

/-- The `n` largest of a list, summed. -/
def insertDesc (x : Nat) : List Nat → List Nat
  | [] => [x]
  | y :: r => if y ≤ x then x :: y :: r else y :: insertDesc x r
def topSum (n : Nat) (l : List Nat) : Nat := ((l.foldr insertDesc []).take n).foldl (fun a b => a + b) 0

/-- A die whose cores of a set could hold `n` crews of a launch when empty, on at most 32 cores (R236, R245). -/
def State.dieHolds (s : State) (l : Launch) (cores : List Nat) (n die : Nat) : Bool :=
  n ≤ topSum 32 ((cores.filter fun k => dieOf k == die).map fun k => s.emptyCrews l k)

/-- A core and a die of a set of cores could hold a crew and a team (R236). -/
def State.coresHold (s : State) (l : Launch) (cores : List Nat) : Bool :=
  cores.any (fun k => 1 ≤ s.emptyCrews l k) && (List.range 4).any fun d => s.dieHolds l cores l.teamSize d

/-- The cores of a context's partition that stay in it. -/
def State.ctxCores (s : State) (ctx : Nat) : List Nat :=
  match (s.getCtx ctx).bind fun c => s.getPart c.part with | some p => p.cores.filter (fun k => !p.leaving.contains k) | none => []

/-- The fields of a record within R235. -/
def Launch.fieldsOk (l : Launch) : Bool :=
  let r := l.record
  zeroF r 448 64 && zeroF r 289 15 && zeroF r 278 10 && zeroF r 253 3 &&
  l.entry < 2 ^ 57 && l.entry % 4 == 0 && 1 ≤ l.crewSize && l.crewSize ≤ 1024 && 1 ≤ l.teamSize && l.teamSize ≤ 64 && l.grows ≤ 64 && l.feeds ≤ 8 &&
  l.scratch ≤ 524288 && l.tiles ≤ 256 && l.status < 2 ^ 57 && l.status % 16 == 0 && l.crews % l.teamSize == 0

/-- The checks of R236 apart from those that depend on the cores. -/
def State.launchOk (s : State) (l : Launch) : Bool :=
  let m := s.maxCaps
  l.fieldsOk && l.grows + 4 * l.feeds ≤ m.rows && l.scratch ≤ m.scratch && l.tiles ≤ m.tiles &&
  (if l.task then !l.depL && l.depQ == 0 && l.depIdx == 0 && l.depCtr == 0
   else (!l.depL || s.userQueues.any fun q => q.qid == l.depQ && q.ctx == l.ctx) &&
     (l.depCtr == 0 || match s.crumb l.depCtr with | some c => c.owner == some l.ctx | none => false))

/-- LAUNCH_REJECTED (R236): status 2, and ERRORS of its queue or task queue counts. -/
def State.rejectLaunch (s : State) (l : Launch) : State :=
  let s1 := (s.launchStatus l 2).modLaunch l.id fun x => { x with st := .rejected }
  if l.task then
    match s1.taskQueues.find? fun q => q.num == l.queue with
    | some q => s1.setQueue q 32 1
    | none => s1
  else s1.uqError l.queue

/-- LAUNCH_DEPENDENCES_SATISFIED (R238, R239). -/
def execLaunchDependencesSatisfied (launch : Nat) (s : State) : Out :=
  match s.getLaunch launch with
  | none => .next s
  | some l =>
    if l.st != .waiting || s.depState l != .holds then .next s
    else if s.launchOk l && s.coresHold l (s.ctxCores l.ctx) then
      .next ((State.bumpId s).modLaunch launch fun x => { x with st := .distributing, entered := s.nextId })
    else .next (s.rejectLaunch l)

/-- LAUNCH_CANCELLED (R238, R239). -/
def execLaunchCancelled (launch : Nat) (s : State) : Out :=
  match s.getLaunch launch with
  | none => .next s
  | some l =>
    if l.st == .waiting && s.depState l == .fails then .next ((s.launchStatus l 3).modLaunch launch fun x => { x with st := .cancelled })
    else .next s

/-! ### Tasks -/

/-- TASK_DISPATCH (09_crumbs R223, R225): the first committed slot's record is read, and the slot is free. -/
def execTaskDispatch (qnum : Nat) (s : State) : Out :=
  match s.taskQueues.find? fun q => q.num == qnum with
  | none => .next s
  | some q =>
    match q.order with
    | [] => .next s
    | i :: rest =>
      match s.kernelPlace q.ctx (s.tqField q 0 64 + 64 * i) with
      | none => .next (s.askWalk q.ctx (s.tqField q 0 64 + 64 * i))
      | some (p, _) =>
        if s.placeHeld p then .next s else
        let l : Launch := ⟨s.nextId, q.ctx, bytesNat (s.homeRead p 64), true, qnum, 0, .waiting, 0, 0, false, 0, 0, []⟩
        let s1 := s.setQueue { q.setSlot i .free with order := rest } 32 0
        .next (State.bumpId { s1 with launches := s1.launches ++ [l] })

/-! ### Priorities -/

/-- The priority in force of a launch (R240). -/
def State.prioOf (s : State) (l : Launch) : Nat :=
  if l.task then match s.taskQueues.find? fun q => q.num == l.queue with | some q => s.tqField q 84 4 | none => 0
  else match s.userQueue l.queue with | some q => uqPrio (s.uqDesc q) | none => 0

/-- PRIORITY_CHANGE (R240). -/
def execPriorityChange (task : Bool) (q : Nat) (prio : BitVec 4) (s : State) : Out :=
  if task then match s.taskQueues.find? fun x => x.num == q with
    | some x => .next (s.putDesc x.desc (recSet (cellNat s.mem x.desc 64) 84 4 prio.toNat))
    | none => .next s
  else match s.userQueue q with
    | some x => .next (s.setUq x (recSet (s.uqDesc x) 76 4 prio.toNat))
    | none => .next s

end Sys2Proof.Machine
end

