-- ==== Sys2Proof/Machine/Placement.lean ====
section
/-! DEFINITION. The distributor: resource checks, anchors, crew and team placement, restore, rounds; pre-emption of a team and partition resizing (10_scheduling R241 to R250, 11_faults R261). -/
namespace Sys2Proof.Machine

/-! ### Resources -/

/-- What one crew needs of a core (R242). -/
structure Need where
  lanes : Nat
  rows : Nat
  scratch : Nat
  tiles : Nat
deriving DecidableEq, Repr

def Launch.need (l : Launch) : Need := ⟨crewLanes l.crewSize, l.grows + 4 * l.feeds, l.scratch, l.tiles⟩

/-- The lowest even lane with `n` free contiguous lanes from it (R12, R242; the choice of the lowest is the model's, log 26). -/
def laneFit (busy : List (Nat × Nat)) (n : Nat) : Option Nat :=
  ((List.range 64).find? fun b => 2 * b + n ≤ Config.lanes && busy.all fun x => 2 * b + n ≤ x.1 || x.1 + x.2 ≤ 2 * b).map fun b => 2 * b

/-- Sum of a number over a list. -/
def sumOf {α : Type} (f : α → Nat) (l : List α) : Nat := l.foldl (fun n x => n + f x) 0

/-- The resource check of a core for one more crew, beside those of the step assigned already (R242): the lane. -/
def State.coreFit (s : State) (p : Partition) (n : Need) (assigned : List (Nat × Nat)) (core : Nat) : Option Nat :=
  let caps := s.caps core
  let here := assigned.filter fun x => x.1 == core
  let res := s.crews.filter fun c => c.core == core && c.life == .resident
  let k := here.length + 1
  if !p.cores.contains core || p.leaving.contains core || caps.rows < n.rows || caps.scratch < sumOf (fun c => c.scratchSize) res + k * n.scratch ||
     caps.tiles < sumOf (fun c => c.tiles.length) res + k * n.tiles then none
  else laneFit (res.map (fun c => (c.lane, crewLanes c.size)) ++ here.map fun x => (x.2, n.lanes)) n.lanes

/-- First fit of `k` crews over a scan of cores, on at most `most` distinct cores (R245). -/
def State.assign (s : State) (p : Partition) (n : Need) (most : Nat) (scan : List Nat) : Nat → List (Nat × Nat) → Option (List (Nat × Nat))
  | 0, acc => some acc
  | k + 1, acc =>
    let used := (acc.map fun x => x.1).eraseDups
    match scan.findSome? fun core => if used.contains core || used.length < most then (s.coreFit p n acc core).map fun l => (core, l) else none with
    | some x => s.assign p n most scan k (acc ++ [x])
    | none => none

/-- A list from an element on, wrapping. -/
def rotateTo (x : Nat) (l : List Nat) : List Nat := l.dropWhile (fun y => y != x) ++ l.takeWhile fun y => y != x

/-- The partition's cores on a die, ascending. -/
def Partition.dieCores (p : Partition) (d : Nat) : List Nat := (List.range Config.cores).filter fun k => dieOf k == d && p.cores.contains k

/-- The core after a core (R244). -/
def Partition.nextCore (p : Partition) (core : Nat) : Nat :=
  let l := p.dieCores (dieOf core)
  ((rotateTo core l)[1]?).getD core

/-- The last core of a scan that received a crew (R245). -/
def lastUsed (scan : List Nat) (l : List (Nat × Nat)) : Nat := ((scan.filter fun k => l.any fun x => x.1 == k).getLast?).getD 0

/-- Placement on one die (R244, R245): the assignment and the scan that gave it. -/
def State.placeOnDie (s : State) (p : Partition) (n : Need) (team : Bool) (k d : Nat) : Option (List (Nat × Nat) × List Nat) :=
  let cores := p.dieCores d
  let at_ := p.corePtr.getD d 0
  let whole := rotateTo at_ cores
  let quads := rotateTo (quadOf at_) ((cores.map quadOf).eraseDups)
  let inQuad (q : Nat) : List Nat := let l := cores.filter fun c => quadOf c == q; if q == quadOf at_ then rotateTo at_ l else l
  let tryScan (scan : List Nat) : Option (List (Nat × Nat) × List Nat) := (s.assign p n 32 scan k []).map fun a => (a, scan)
  if team then match quads.findSome? fun q => tryScan (inQuad q) with
    | some r => some r
    | none => tryScan whole
  else tryScan whole

/-- Placement over the dies in the order of R244, but for some: the assignment and the die and pointer it leaves. -/
def State.findPlace (s : State) (p : Partition) (n : Need) (team : Bool) (k d : Nat) (barred : List Nat) : Option (List (Nat × Nat) × Nat × Nat) :=
  ([d, d + 1, d + 2, d + 3].map fun x => x % 4).findSome? fun x =>
    if barred.contains x then none
    else (s.placeOnDie p n team k x).map fun r => (r.1, x, p.nextCore (lastUsed r.2 r.1))

def State.setPart (s : State) (p : Partition) : State := { s with partitions := updWhere (fun x => x.id == p.id) (fun _ => p) s.partitions }

/-- The pointer of a die moves (R244). -/
def State.movePtr (s : State) (part die core : Nat) : State :=
  match s.getPart part with
  | some p => s.setPart { p with corePtr := p.corePtr.set die core }
  | none => s

/-! ### Anchors -/

/-- What the anchor of a launch gives (R243): a miss to resolve, no anchor die, or a die. -/
inductive Anchor where
  | miss (va : Nat) (host : Bool)
  | none
  | die (d : Nat)
deriving DecidableEq, Repr

def State.anchorOf (s : State) (l : Launch) : Anchor :=
  if l.anchor == 0 || 2 ^ 57 ≤ l.anchor then .none
  else match s.walk l.ctx l.anchor with
    | .malformed => .none
    | .missing _ => if s.isRefused l.ctx l.anchor then .none else .miss l.anchor false
    | .leaf _ pte bits =>
      match s.leafCheck l.ctx l.anchor pte bits false false (s.privileged l.ctx) with
      | .ok (.mem pa _ _ _) _ => if paPeer pa == s.pkg && inHbm (paLocal pa) then .die (recF pa 37 2) else .none
      | .miss h => if s.isRefused l.ctx l.anchor then .none else .miss l.anchor h
      | _ => .none

/-- Dies that hold partition cores. -/
def Partition.dies (p : Partition) : List Nat := (List.range 4).filter fun d => p.cores.any fun k => dieOf k == d

/-- The next die of the partition after one, cyclically. -/
def Partition.nextDie (p : Partition) (d : Nat) : Nat :=
  (([d + 1, d + 2, d + 3].map fun x => x % 4).find? fun x => p.dies.contains x).getD d

/-! ### Creation of crews -/

/-- A crew as R13 creates it. -/
def newCrew (s : State) (l : Launch) (id team : Nat) (kind : CrewKind) (index teamIndex : Word) (pos teamSize size core lane prio : Nat) (pcs : List PcAddr) : Crew where
  id := id
  ctx := l.ctx
  launch := l.id
  team := team
  kind := kind
  life := .resident
  core := core
  lane := lane
  index := index
  teamIndex := teamIndex
  teamPos := pos
  teamSize := teamSize
  gridSize := BitVec.ofNat 32 l.crews
  args := BitVec.ofNat 64 l.args
  size := size
  grows := l.grows
  feeds := l.feeds
  prio := prio
  converged := true
  regs := List.replicate 120 Desc.zero
  rows := List.replicate l.grows (List.replicate size 0)
  fibres := (List.range size).map fun k => match pcs[k]? with
    | some pc => Fibre.fresh pc l.feeds s.cycles s.nextId
    | none => { Fibre.fresh 0 l.feeds s.cycles s.nextId with live := false, st := .retired }
  scratchSize := l.scratch
  scratch := []
  tiles := List.replicate l.tiles ⟨.empty, List.replicate 256 0⟩
  nstatus := 0
  uiVec := 0
  uiMasked := false
  barPhase := false
  chans := List.replicate 4 ⟨0, false⟩
  area := 0
  image := 0

/-- A crew joins the machine; its creation is an acquire (06_consistency R171). -/
def State.addCrew (s : State) (c : Crew) : State :=
  (State.acquire { s with crews := s.crews ++ [c] } c.core 5).modCrew c.id Crew.fixConv

/-- Crews of a new team in TEAMPOS order, on their cores. -/
def State.createTeam (s : State) (l : Launch) (prio first pos team : Nat) : List (Nat × Nat) → State
  | [] => s
  | (core, lane) :: r =>
    let idx := first + pos
    let c := newCrew s l s.nextId team .ordinary (BitVec.ofNat 32 idx) (BitVec.ofNat 32 (idx / l.teamSize)) pos l.teamSize l.crewSize core lane prio
      (List.replicate l.crewSize (BitVec.ofNat 57 l.entry))
    ((s.bumpId).addCrew c).createTeam l prio first (pos + 1) team r

/-- Restored crews of a team, on their cores. -/
def State.restoreTeam (s : State) (prio : Nat) : List (Nat × (Nat × Nat)) → State
  | [] => s
  | (id, (core, lane)) :: r => (s.restoreCrew id core lane prio).restoreTeam prio r

/-! ### Rounds -/

/-- Key of R241. -/
def keyLe (a b : Nat × Nat × Nat) : Bool := a.1 < b.1 || (a.1 == b.1 && (a.2.1 < b.2.1 || (a.2.1 == b.2.1 && a.2.2 ≤ b.2.2)))
def insertKey (x : (Nat × Nat × Nat) × Item) : List ((Nat × Nat × Nat) × Item) → List ((Nat × Nat × Nat) × Item)
  | [] => [x]
  | y :: r => if keyLe x.1 y.1 then x :: y :: r else y :: insertKey x r

/-- A launch belongs to a partition. -/
def State.inPart (s : State) (part : Nat) (l : Launch) : Bool := match s.getCtx l.ctx with | some c => c.part == part && !c.down | none => false

/-- Saved crews of a team, in TEAMPOS order. -/
def State.savedOf (s : State) (team : Nat) : List Crew :=
  let l := s.crews.filter fun c => c.team == team && c.life == .saved
  (List.range 64).flatMap fun k => l.filter fun c => c.teamPos == k

/-- The candidates of a partition in the order of R241: the saved teams of each launch, formed crews, then each launch's next crew or team. -/
def State.candidates (s : State) (part : Nat) : List Item :=
  let ls := s.launches.filter fun l => s.inPart part l && (l.st == .distributing || l.st == .resident)
  let key (l : Launch) (cat seq : Nat) : Nat × Nat × Nat := (15 - s.prioOf l, cat, seq)
  let saved := ls.flatMap fun l => (s.teams.filter fun t => t.launch == l.id && t.saved).map fun t => (key l 0 l.entered, Item.saved t.id l.id)
  let formed := (s.formed.zip (List.range s.formed.length)).filterMap fun f => (ls.find? fun l => l.id == f.1.launch).map fun l => (key l 1 f.2, Item.formed f.1)
  let fresh := (ls.filter fun l => l.st == .distributing).map fun l => (key l 2 l.entered, Item.fresh l.id)
  ((saved ++ formed ++ fresh).foldr insertKey []).map fun x => x.2

/-- Crews a candidate places together. -/
def State.itemCrews (s : State) (x : Item) (l : Launch) : Nat :=
  match x with
  | .saved t _ => (s.savedOf t).length
  | .formed _ => 1
  | .fresh _ => l.teamSize

/-- Dies closed to a candidate of a launch by other crews or teams passed over for 100 µs at an equal or higher priority: those that would take them (R241). A candidate held back so has itself been passed over, and bars in its turn (log 79). -/
def State.barredDies (s : State) (p : Partition) (l : Launch) (x : Item) : List Nat :=
  let b := s.passed.filterMap fun y => if y.barred && y.item != x then (s.getLaunch y.item.launch).map fun z => (y.item, z) else none
  let b1 := b.filter fun y => s.inPart p.id y.2 && !y.2.st.over && s.prioOf l ≤ s.prioOf y.2
  (List.range 4).filter fun d => b1.any fun y => s.dieHolds y.2 (p.cores.filter fun k => !p.leaving.contains k) (s.itemCrews y.1 y.2) d

/-- A candidate was placed, or was passed over (R241). -/
def State.placedOk (s : State) (x : Item) : State := { s with passed := s.passed.filter fun y => y.item != x }
def State.passedOver (s : State) (x : Item) : State := if s.passed.any fun y => y.item == x then s else { s with passed := s.passed ++ [⟨x, s.ticks, false⟩] }

/-- A team saved is placed again (R243, R246). -/
def State.trySaved (s : State) (p : Partition) (l : Launch) (team : Nat) : State :=
  let cs := s.savedOf team
  match cs with
  | [] => { s with teams := updWhere (fun t => t.id == team) (fun t => { t with saved := false }) s.teams }
  | c0 :: _ =>
    let go (d : Nat) : State :=
      match s.findPlace p l.need (1 < c0.teamSize) cs.length d (s.barredDies p l (.saved team l.id)) with
      | none => s.passedOver (.saved team l.id)
      | some (a, die, ptr) =>
        let s1 : State := { s with teams := updWhere (fun t => t.id == team) (fun t => { t with saved := false }) s.teams }
        (((s1.movePtr p.id die ptr).restoreTeam (s.prioOf l) ((cs.map fun c => c.id).zip a)).placedOk (.saved team l.id))
    match s.anchorOf l with
    | .miss va h => s.askMiss l.ctx va h
    | .none => (go (dieOf c0.core)).tookRefusal l.ctx l.anchor
    | .die d => go d

/-- A relaunch or any-hit crew is placed, after the saved crews of its launch (12_render R274, R280); the slots of its records are free. -/
def State.tryFormed (s : State) (p : Partition) (l : Launch) (f : Formed) : State :=
  let size := max l.crewSize f.fibres.length
  if s.teams.any fun t => t.launch == l.id && t.saved then s.passedOver (.formed f) else
  match s.findPlace p l.need false 1 (f.quad / 16) (s.barredDies p l (.formed f)) with
  | some ((core, lane) :: _, die, ptr) =>
    let kind : CrewKind := match f.ray with | some r => .anyHit r | none => .relaunch
    let c := newCrew s l s.nextId (s.nextId + 1) kind 0xFFFFFFFF 0xFFFFFFFF 0 1 size core lane (s.prioOf l) (f.fibres.map fun x => x.1)
    let regs := f.fibres.headD (0, [])
    let put (c : Crew) (d : Nat) : Crew :=
      match c.shapeStep d .g with
      | some c1 => c1.putValue d .g ((regs.2.getD d (0, .si32)).2) 0 0 (((List.range size).zip f.fibres).map fun x => (x.1, (x.2.2.getD d (0, .si32)).1))
      | none => c
    let c1 := (List.range regs.2.length).foldl put c
    let s1 : State := { s with
      nextId := s.nextId + 2
      formed := s.formed.erase f
      teams := s.teams ++ [⟨s.nextId + 1, l.id, false, false⟩]
      launches := updWhere (fun x => x.id == l.id) (fun x => { x with slots := x.slots.filter fun y => !f.slots.contains y.1 }) s.launches }
    ((s1.movePtr p.id die ptr).addCrew c1).placedOk (.formed f)
  | _ => s.passedOver (.formed f)

/-- The next crew or team of a launch is placed (R243 to R245), after a crew of its records that waits behind a saved team of the launch (12_render R274). -/
def State.tryFresh (s : State) (p : Partition) (l : Launch) : State :=
  if s.formed.any (fun f => f.launch == l.id) && s.teams.any (fun t => t.launch == l.id && t.saved) then s else
  let go (d : Nat) (takes : Bool) : State :=
    match s.findPlace p l.need (1 < l.teamSize) l.teamSize d (s.barredDies p l (.fresh l.id)) with
    | none => s.passedOver (.fresh l.id)
    | some (a, die, ptr) =>
      let s1 := s.movePtr p.id die ptr
      let s2 := if takes then match s1.getPart p.id with | some q => s1.setPart { q with diePtr := q.nextDie q.diePtr } | none => s1 else s1
      let team := s2.nextId
      let s3 := State.createTeam { s2 with nextId := s2.nextId + 1, teams := s2.teams ++ [⟨team, l.id, false, false⟩] } l (s.prioOf l) l.placed 0 team a
      (s3.modLaunch l.id fun x =>
        { x with placed := x.placed + l.teamSize, anchored := true, die := d, st := if l.crews ≤ x.placed + l.teamSize then .resident else .distributing }).placedOk (.fresh l.id)
  if l.anchored then go l.die false
  else match s.anchorOf l with
    | .miss va h => s.askMiss l.ctx va h
    | .none => (go p.diePtr true).tookRefusal l.ctx l.anchor
    | .die d => go d false

/-- One candidate of a round. -/
def State.tryCand (part : Nat) (s : State) (x : Item) : State :=
  match s.getPart part, s.getLaunch x.launch with
  | some p, some l =>
    match x with
    | .saved t _ => s.trySaved p l t
    | .formed f => s.tryFormed p l f
    | .fresh _ => if l.st == .distributing then s.tryFresh p l else s
  | _, _ => s

/-- DISTRIBUTOR_ROUND (R241). -/
def execDistributorRound (part : Nat) (s : State) : Out := .next ((s.candidates part).foldl (State.tryCand part) s)

/-- PASSED_OVER_TIMEOUT (R241): crews and teams of a launch passed over for 100 µs. -/
def execPassedOverTimeout (launch : Nat) (s : State) : Out :=
  .next { s with passed := s.passed.map fun y => if y.item.launch == launch && y.since + 100000 ≤ s.ticks then { y with barred := true } else y }

/-! ### Pre-emption and resizing -/

/-- Areas given for every crew of a team, 128-byte aligned (R52). -/
def areaOf (areas : List SaveArea) (c : Crew) : Option SaveArea := areas.find? fun a => a.crew == c.id && a.area % 128 == 0 && a.image % 128 == 0

/-- Pre-emption of a team (11_faults R261, R246): once every crew of the team may be saved. A crew without a live fibre completes first. -/
def State.preempt (s : State) (team : Nat) (areas : List SaveArea) : Option State :=
  let cs := s.crews.filter fun c => c.team == team && c.life == .resident
  if cs.isEmpty || !cs.all (fun c => s.saveReady c && (areaOf areas c).isSome) then none
  else
    let one (st : State) (c : Crew) : State := match areaOf areas c with | some a => st.saveCrew c.id a.area a.image | none => st
    let s1 := cs.foldl one s
    some { s1 with teams := updWhere (fun t => t.id == team) (fun t => { t with saved := true }) s1.teams }

/-- PREEMPTION (R261): a request waits until its team may be saved. -/
def execPreemption (s : State) : Out :=
  match takeInput (fun i => match i with | .preempt team areas => (s.preempt team areas).map fun t => t | _ => none) s.inputs with
  | none => .next s
  | some (t, r) => .next (t.took r)

/-- A partition as it is first given cores (log 27): its share of the crumb counters, its pool and its log quota are the model's choice, the timeout is the default of 13_fabric R290. -/
def newPartition (id : Nat) (cores : List Nat) : Partition :=
  let low (d : Nat) : Nat := ((List.range Config.cores).find? fun k => dieOf k == d && cores.contains k).getD (64 * d)
  { id := id, cores := cores, leaving := [], slices := List.range 64, memory := 2 ^ 39, asids := [(0, 65536)], userQueues := 65536, taskQueues := 1024, prot := false, persist := false, counters := (List.range 64).map fun k => (k, 64 * id, 64)
    diePtr := ((List.range 4).find? fun d => cores.any fun k => dieOf k == d).getD 0, corePtr := (List.range 4).map low, pool := 256, timeout := 20000, logQuota := 1024 }

/-- Launches that a set of cores would make rejectable, or saved teams without a die (R250). -/
def State.resizeBreaks (s : State) (p : Partition) (cores : List Nat) : Bool :=
  (s.launches.any fun l => s.inPart p.id l && (l.st == .waiting || l.st == .distributing || l.st == .resident) &&
    s.launchOk l && s.coresHold l (p.cores.filter fun k => !p.leaving.contains k) && !s.coresHold l cores) ||
  (s.teams.any fun t => t.saved && match s.getLaunch t.launch with
    | some l => s.inPart p.id l && !((List.range 4).any fun d => s.dieHolds l cores (s.savedOf t.id).length d)
    | none => false)

/-- A resize (R249, R250): added cores join, removed cores are leaving; a core of another partition is not taken. -/
def State.resize (s : State) (part : Nat) (cores : List Nat) : State :=
  let cs := (List.range Config.cores).filter fun k => cores.contains k
  if s.partitions.any fun p => p.id != part && p.cores.any fun k => cs.contains k then { s with resizesRefused := s.resizesRefused + 1 }
  else match s.getPart part with
    | none => if part < 16 then { s with partitions := s.partitions ++ [newPartition part cs] } else s
    | some p =>
      if s.resizeBreaks p cs then { s with resizesRefused := s.resizesRefused + 1 }
      else s.setPart { p with cores := p.cores ++ cs.filter (fun k => !p.cores.contains k), leaving := p.cores.filter fun k => !cs.contains k }

/-- PARTITION_RESIZE (R249). -/
def execPartitionResize (s : State) : Out :=
  match takeInput (fun i => match i with | .resize part cores => some (part, cores) | _ => none) s.inputs with
  | none => .next s
  | some ((part, cores), r) => .next ((s.took r).resize part cores)

/-- CORE_LEAVES_PARTITION (R249, R244): a leaving core that holds no crew. -/
def execCoreLeavesPartition (core : Nat) (s : State) : Out :=
  match s.partitions.find? fun p => p.leaving.contains core with
  | none => .next s
  | some p =>
    if s.crews.any fun c => c.core == core && c.life == .resident then .next s
    else
      let d := dieOf core
      let q := { p with cores := p.cores.filter (fun k => k != core), leaving := p.leaving.filter (fun k => k != core),
                        corePtr := if p.corePtr.getD d 0 == core then p.corePtr.set d (p.nextCore core) else p.corePtr }
      .next (s.setPart { q with diePtr := if q.dies.contains q.diePtr then q.diePtr else q.nextDie q.diePtr })

/-! ### Completion -/

/-- Everything of a launch has completed (R238): its crews, and its rays and records. -/
def State.gridDone (s : State) (l : Launch) : Bool :=
  l.st == .resident && !(s.crews.any fun c => c.launch == l.id && c.life != .completed) && !(s.rays.any fun r => r.launch == l.id) &&
  !(s.requeues.any fun r => r.launch == l.id) && !(s.formed.any fun f => f.launch == l.id)

/-- GRID_COMPLETION (R238): a release at SYS of everything its crews did, then status 1. -/
def State.gridCheck (s : State) (launch : Nat) : State :=
  match s.getLaunch launch with
  | none => s
  | some l =>
    let mine (x : CacheSector) : Bool := x.dirty.any (fun b => b) && x.writers.any fun w => match s.getCrew w.crew with | some c => c.ctx == l.ctx | none => true
    if s.gridDone l && !(s.hostLost && s.hostL2.any mine) then
      let s1 := s.cleanSectors mine
      let s2 := (s1.launchStatus l 1).modLaunch launch fun x => { x with st := .complete, slots := [] }
      { s2 with passed := s2.passed.filter (fun y => y.item.launch != launch), crews := s2.crews.filter (fun c => c.launch != launch), teams := s2.teams.filter fun t => t.launch != launch }
    else s

/-- Settle every location a crew has contributed to (06_consistency R173). -/
def State.settleCrew (s : State) (crew : Nat) : State :=
  let s1 := s.passContribs fun c => c.crew == crew
  (s1.accs.filter fun a => a.crews.contains crew).foldl (fun (st : State) a => (st.settleRange a.place a.bytes).1) s1

/-- CREW_COMPLETION (01_execution R15): no live fibre, and its stores and copies have performed; its reductions settle, its unposted reservations are skipped (13_fabric R298), its resources are free. -/
def execCrewCompletion (crew : Nat) (s : State) : Out :=
  match s.getCrew crew with
  | none => .next s
  | some c =>
    if c.life != .resident || !c.liveSet.isEmpty || (s.ops.any fun o => o.crew == crew && !o.work.isFence) || s.transfers.any (fun t => t.head.crew == crew) then .next s
    else
      let s1 := (s.settleCrew crew).skipRecords fun _ r => r.2 == crew
      let s2 := State.modCrew { s1 with ops := s1.ops.filter (fun o => o.crew != crew), syscalls := s1.syscalls.filter (fun y => y.crew != crew) } crew fun x =>
        { x with life := .completed, scratch := [], tiles := [] }
      .next ((s2.checkTeam c.team).gridCheck c.launch)

end Sys2Proof.Machine
end

