-- ==== Sys2Proof/Machine/Render.lean ====
section
/-! DEFINITION. Rendering: TRACE, TEXC and HITREP, continuation records, traversal, textures, relaunch and any-hit crews (12_render R268 to R283). -/
namespace Sys2Proof.Machine

/-! ### Reads of a unit for a context -/

/-- What a ray unit reads; `held` stands as in EngAt. -/
inductive UnitRead where
  | ok (bs : List Byte)
  | poison
  | bad (c : Cause)
  | miss (va : Nat) (host : Bool)
  | held
deriving DecidableEq, Repr

/-- Translate for a unit outside any core (11_faults R258, R264): the walk sets A, and D for a write. -/
def State.unitXlate (s : State) (ctx va : Nat) (write : Bool) : State × Xl :=
  if 2 ^ 57 ≤ va then (s, .bad .permission)
  else match s.walk ctx va with
    | .malformed => (s, .bad .translation)
    | .missing _ => if s.isRefused ctx va then (s.tookRefusal ctx va, .bad .translation) else (s, .miss false)
    | .leaf at_ pte bits =>
      match s.leafCheck ctx va pte bits write false (s.privileged ctx) with
      | .ok p _ =>
        let pte1 := recSet (recSet pte 13 1 1) 14 1 (if write then 1 else recF pte 14 1)
        (if pte1 == pte then s else s.kernelStore at_ (natBytes 8 pte1), .ok p pte1)
      | .miss h => if h && s.isRefused ctx va then (s.tookRefusal ctx va, .bad .translation) else (s, .miss h)
      | x => (s, x)

/-- An access of a unit outside any core. -/
def State.unitAt (s : State) (ctx va : Nat) (write : Bool) : State × EngAt := s.foundAt ctx va (s.unitXlate ctx va write)

/-- A unit asks for the translation of an address, or waits for the host there, and tries again later. -/
def State.unitMiss (s : State) (ctx va : Nat) (host : Bool) : State := State.askMiss (s.unitAt ctx va false).1 ctx va host

/-- One read of a unit within a page, counted at its home slice (05_memory R146) for the die of a core; a remote one times out where no plane lives (13_fabric R288), and may by a free bit, and gives all ones (06_consistency R176, 13_fabric R290). -/
def State.unitPiece (s : State) (core ctx va n : Nat) : State × UnitRead :=
  match s.unitAt ctx va false with
  | (s1, .miss h) => (s1, .miss va h)
  | (s1, .bad c) => (s1, .bad c)
  | (s1, .held) => (s1, .held)
  | (s1, .lost) => (s1, .ok (List.replicate n 255))
  | (s1, .ok p) =>
    let remote := (s1.peerOf p).isSome
    let s2 := if remote then s1.bumpFree else s1
    if p.isDev then (s1, .bad .permission)
    else if remote && (s1.noPlane || Config.freeBit s1.free) then (s2, .ok (List.replicate n 255))
    else (s2.noteAccess core ctx va p, if s1.poisonedAt p n then .poison else .ok (s1.homeRead p n))

/-- A read of a unit, a page at a time. -/
def State.unitRead (s : State) (core ctx va n : Nat) : State × UnitRead :=
  let m := min n (65536 - va % 65536)
  match s.unitPiece core ctx va m with
  | (s1, .ok bs) =>
    if m == n then (s1, .ok bs)
    else match s1.unitPiece core ctx (va + m) (n - m) with
      | (s2, .ok bs2) => (s2, .ok (bs ++ bs2))
      | x => x
  | x => x

/-- A range of addresses, found a page at a time: each piece with its place (none where the access is lost), address and length. -/
abbrev Span := List (Option Place × Nat × Nat)

/-- What an access to a range finds: its pieces, or what is in the way of one. -/
inductive SpanAt where
  | ok (l : Span)
  | miss (va : Nat) (host : Bool)
  | held
  | bad (c : Cause)
deriving DecidableEq, Repr

/-- A range of addresses is translated, a page at a time; `fuel` counts the pages. -/
def spanFrom (look : State → Nat → State × EngAt) : Nat → State → Nat → Nat → State × SpanAt
  | 0, s, _, _ => (s, .ok [])
  | k + 1, s, va, n =>
    if n == 0 then (s, .ok []) else
    let m := min n (65536 - va % 65536)
    let rest (s1 : State) (p : Option Place) : State × SpanAt :=
      match spanFrom look k s1 (va + m) (n - m) with
      | (s2, .ok l) => (s2, .ok ((p, va, m) :: l))
      | x => x
    match look s va with
    | (s1, .ok p) => rest s1 (some p)
    | (s1, .lost) => rest s1 none
    | (s1, .miss h) => (s1, .miss va h)
    | (s1, .held) => (s1, .held)
    | (s1, .bad c) => (s1, .bad c)

/-- The place of an address of a range. -/
def Span.at_ (l : Span) (va : Nat) : Option Place := (l.find? fun x => decide (x.2.1 ≤ va) && decide (va < x.2.1 + x.2.2)).bind fun x => x.1.map fun p => p.plus (va - x.2.1)

/-- What a write of a unit stands for: the core whose caches follow it, and the crew whose NSTATUS tells of its loss; none when a unit writes of its own (log 80). -/
abbrev Writer := Option (Nat × Nat)
def State.tellWriter (s : State) (w : Writer) (bit : Nat) : State := match w with | some x => s.setNstatus x.2 bit | none => s

/-- A write of a unit at a place, counted at its home slice; a remote one may time out, and is then performed or not by a free bit, and where no plane lives it is not (13_fabric R288, R290). -/
def State.unitWrite (s : State) (w : Writer) (core ctx va : Nat) (p : Place) (bs : List Byte) : State :=
  let go (st : State) : State := (st.noteAccess core ctx va p).performWrite (w.map fun x => x.1) p bs false
  if (s.peerOf p).isSome then
    let late := s.noPlane || Config.freeBit s.free
    let s1 := State.tellWriter { s with free := s.free + 2 } (if late then w else none) 2
    if late && (s.noPlane || Config.freeBit (s.free + 1)) then s1 else go s1
  else go s

/-- The bytes of a range are written at its places; those of a piece that is lost are dropped (14_system R308). -/
def State.putSpan (s : State) (w : Writer) (core ctx : Nat) : Span → List Byte → State
  | [], _ => s
  | (p, va, n) :: r, bs => ((match p with | some q => s.unitWrite w core ctx va q (bs.take n) | none => (s.tellWriter w 1).tellWriter w 2).putSpan w core ctx r (bs.drop n))

/-! ### The render block and the descriptor -/

/-- Fields of the render block, as a number (R268). -/
def rbPool (b : Nat) : Nat := recF b 256 64
def rbPoolSize (b : Nat) : Nat := recF b 224 32
def rbTexCount (b : Nat) : Nat := recF b 384 32
def rbTexTab (b : Nat) : Nat := recF b 320 64
def rbSbtCount (b : Nat) : Nat := recF b 192 32
def rbSbt (b : Nat) : Nat := recF b 128 64
def rbTris (b : Nat) : Nat := recF b 64 64
def rbRoot (b : Nat) : Nat := recF b 0 64
/-- A global engine address with an alignment (08_copies R192). -/
def globalForm (v n : Nat) : Bool := v < 2 ^ 57 && v % n == 0
/-- The fields TRACE and TEXC do not check are well formed (R268). -/
def rbOk (b : Nat) : Bool := recF b 416 96 == 0 && globalForm (rbTexTab b) 32 && globalForm (rbSbt b) 32 && globalForm (rbTris b) 16 && globalForm (rbRoot b) 64

/-- LIVE of a continuation descriptor (R270). -/
def descLive (lo : Word) : Nat := recF lo.toNat 22 7
/-- A legal continuation descriptor (R270). -/
def descOk (texc : Bool) (lo hi : Word) : Bool :=
  let f := hi.toNat
  recF lo.toNat 29 3 == 0 && recF f 24 8 == 0 && decide (descLive lo ≤ 112) && recF f 6 2 == 0 && recF f 0 2 != 3 && recF f 4 2 != 3 && (!texc || f == 0)

/-- Size of a slot for n live registers, and where its hit area lies (R273). -/
def hitArea (n : Nat) : Nat := 16 + 4 * n + 4 * ((n + 7) / 8)
def slotSize (n : Nat) : Nat := 32 * ((48 + 4 * n + 4 * ((n + 7) / 8) + 31) / 32)

/-- The bytes of a record's header, values and tags (R273). -/
def slotBytes (texc : Bool) (n resume : Nat) (hi : Word) (regs : List (Word × Tag)) : List Byte :=
  natBytes 16 (resume + n * 2 ^ 57 + recF hi.toNat 0 8 * 2 ^ 64 + recF hi.toNat 8 12 * 2 ^ 72 + recF hi.toNat 20 4 * 2 ^ 84 + bit01 texc * 2 ^ 88) ++
  wordsBytes (regs.map fun r => r.1) ++ natBytes (4 * ((n + 7) / 8)) (packElems 4 (regs.map fun r => r.2.code))

/-- Whether a range of a pool overlaps no allocated slot. -/
def slotFree (slots : List (Nat × Nat)) (a n : Nat) : Bool := slots.all fun x => a + n ≤ x.1 || x.1 + x.2 ≤ a

/-- A slot of a pool (R273): where it lies is unpredictable, so a free value proposes an address (log 1); one that does not fit gives way to the first that does. -/
def allocSlot (slots : List (Nat × Nat)) (pool size n free : Nat) : Option Nat :=
  let ok (a : Nat) : Bool := pool ≤ a && a + n ≤ pool + size && slotFree slots a n
  let ends := slots.map fun x => x.1 + x.2
  (((pool + 32 * (Config.freeNat free % (size / 32 + 1))) :: pool :: ends).find? ok)

/-- The first place of a pool that a slot fits into. -/
def firstSlot (slots : List (Nat × Nat)) (pool size n : Nat) : Option Nat :=
  (pool :: slots.map fun x => x.1 + x.2).find? fun a => pool ≤ a && a + n ≤ pool + size && slotFree slots a n

/-- Slots for several fibres, each by a rule that picks one; none when one finds no place. -/
def groupSlots (pick : List (Nat × Nat) → Nat → Nat → Option Nat) : List (Nat × Nat) → List (Nat × Nat) → Option (List (Nat × Nat))
  | _, [] => some []
  | slots, (k, n) :: r =>
    match pick slots k n with
    | none => none
    | some a => (groupSlots pick ((a, n) :: slots) r).map fun l => (k, a) :: l

/-- Slots for every executing fibre (R272): as free values propose, or, where those leave one fibre no place, each at the first that fits, so that a pool with room never keeps the run waiting. -/
def allocSlots (pool size free : Nat) (slots want : List (Nat × Nat)) : Option (List (Nat × Nat)) :=
  (groupSlots (fun l k n => allocSlot l pool size n (free + k)) slots want).orElse fun _ => groupSlots (fun l _ n => firstSlot l pool size n) slots want

/-! ### TRACE and TEXC -/

/-- The operand checks of R269: the pair of the descriptor. -/
def State.traceCheck (s : State) (c : Crew) (texc : Bool) (a b : Reg) (k : Nat) : Chk (Word × Word) :=
  match s.readSrcs c k [] (blockOf a 8 ++ pairOf b) with
  | .error e => .error e
  | .ok l =>
    let f32 (i : Nat) : Bool := opTag l i == .f32
    let tags := (if texc then isInt32 (opTag l 0) && [1, 2, 3].all f32 else (List.range 8).all f32) && isInt32 (opTag l 8) && isInt32 (opTag l 9)
    let shader : Bool := match c.kind with | .anyHit _ => true | _ => false
    if !tags then trapWith .formatMismatch 0
    else if c.shapeOf b != .u || c.shapeOf (b + 1) != .u || !descOk texc (opnd l 8) (opnd l 9) then trapWith .illegalOp 0
    else if c.grows < descLive (opnd l 8) + 8 then trapWith .shapeOverflow 0
    else if shader then trapWith .illegalOp 0
    else .ok (opnd l 8, opnd l 9)

/-- The slot's pages, for the store of its record (R268). -/
def State.slotPages (s : State) (c : Crew) (a n : Nat) : State × SpanAt :=
  spanFrom (fun st va => st.foundAt c.ctx va (st.xlate c.core c.ctx va true false (s.privileged c.ctx))) (n / 65536 + 2) s a n

/-- A register of the record that a result of an earlier run has still to reach. -/
def State.livePending (s : State) (t : Turn) (c : Crew) (k n : Nat) : Bool :=
  s.ops.any fun o => o.crew == c.id && o.run != t.i.run && o.ranks.contains k && o.work.regs.any fun r => decide (r < n)

/-- One fibre's record is written at the places of its slot, its request handed on, and it retires (R272). -/
def State.traceOne (s : State) (t : Turn) (texc : Bool) (a : Reg) (p : Nat × (Word × Word) × Nat) (l : Span) : State :=
  match s.getCrew t.i.crew with
  | none => s
  | some c =>
    let k := p.1
    let lo := p.2.1.1
    let hi := p.2.1.2
    let n := descLive lo
    let resume := wordTarget t.i.pc (signedOf 22 lo.toNat)
    let regs := (List.range n).map fun r => (c.elem r k, (c.desc r).tag)
    let req := (blockOf a 8).map fun r => c.elem r.toNat k
    let ray : Ray := { id := s.nextId, ctx := c.ctx, launch := c.launch, quad := quadOf c.core, texc := texc, slot := p.2.2, live := n, resume := resume,
                       flags := BitVec.ofNat 8 (recF hi.toNat 0 8), sbtOff := recF hi.toNat 8 12, sbtStride := recF hi.toNat 20 4, req := req, regs := regs,
                       stack := [], visits := 0, begun := false, buffer := [], hit := none, tmax := none, term := false, status := 0, anyHit := false }
    let s1 := (s.release c.id k 3 0xFFFF).putSpan (some (c.core, c.id)) c.core c.ctx l (slotBytes texc n resume.toNat hi regs)
    let s2 : State := { s1 with nextId := s1.nextId + 1, rays := s1.rays ++ [ray] }
    (s2.modLaunch c.launch fun l => { l with slots := l.slots ++ [(p.2.2, slotSize n)] }).retireFibre c.id k

/-- Translate the slots of several fibres. -/
def State.slotsAt (s : State) (c : Crew) : List (Nat × (Word × Word) × Nat) → State × List ((Nat × (Word × Word) × Nat) × SpanAt)
  | [] => (s, [])
  | p :: r =>
    let (s1, x) := s.slotPages c p.2.2 (slotSize (descLive p.2.1.1))
    let (s2, l) := s1.slotsAt c r
    (s2, (p, x) :: l)

/-- The first page of some slots that misses. -/
def slotMiss (l : List ((Nat × (Word × Word) × Nat) × SpanAt)) : Option (Nat × Bool) := l.findSome? fun p => match p.2 with | .miss va h => some (va, h) | _ => none

/-- Slots held for the runs of a context that are under way (R272). -/
def State.heldSlots (s : State) (ctx : Nat) : List RayHold := s.rayHolds.filter fun h => h.ctx == ctx && (s.cur.toList ++ s.waiting).any fun i => i.run == h.run

/-- The slots the launches of a context hold and those held for its runs, whatever launch they belong to: no two overlap, also where launches name one pool (R273). -/
def State.poolSlots (s : State) (ctx : Nat) : List (Nat × Nat) :=
  ((s.launches.filter fun l => l.ctx == ctx).flatMap fun l => l.slots) ++ (s.heldSlots ctx).map fun h => (h.addr, h.size)

/-- The slot held for a fibre of a run, where it still suits the pool and the record. -/
def State.heldFor (s : State) (ctx run k pool size n : Nat) : Option Nat :=
  ((s.heldSlots ctx).find? fun h => h.run == run && h.rank == k && h.size == n && pool ≤ h.addr && h.addr + n ≤ pool + size).map fun h => h.addr

/-- The pool fields of a block suit a slot of n live registers (R268). -/
def poolFits (blk n : Nat) : Bool := globalForm (rbPool blk) 128 && rbPoolSize blk % 128 == 0 && decide (slotSize n ≤ rbPoolSize blk)

/-- Slots for the fibres of a set, each with its rank, address and size, if there is room for all (R272); what will trap or miss asks for none. -/
def State.traceSlots (s : State) (c : Crew) (l : List Nat) (a b : Reg) : Option (List (Nat × Nat × Nat)) :=
  let want := l.filterMap fun k => match s.traceCheck c false a b k, s.traceCheck c true a b k with
    | .ok p, _ => some (k, descLive p.1)
    | _, .ok p => some (k, descLive p.1)
    | _, _ => none
  match s.unitRead c.core c.ctx c.args.toNat 64 with
  | (_, .ok bs) =>
    let blk := bytesNat bs
    let sizes := (want.filter fun p => poolFits blk p.2).map fun p => (p.1, slotSize p.2)
    (allocSlots (rbPool blk) (rbPoolSize blk) s.free (s.poolSlots c.ctx) sizes).map fun r => r.map fun p => (p.1, p.2, (valOf sizes p.1).getD 0)
  | _ => some []

/-- The course of TRACE and TEXC (R268 to R272). -/
def State.traceIssue (s : State) (ins : Instr) (texc : Bool) (a b : Reg) : Out :=
  s.perform ins fun s c t =>
    if t.x.any fun k => s.seqBusy c.id k 0xFFFF then s.stall t else
    match gather (s.traceCheck c texc a b) t.x with
    | none => s.stall t
    | some (vals, traps) =>
      if vals.any fun p => s.livePending t c p.1 (descLive p.2.1) then s.stall t else
      let bad := (vals.filter fun p => s.regPoisoned c.id p.1 (blockOf a 8 ++ pairOf b ++ blockOf 0 (descLive p.2.1))).map fun p => (p.1, s.poisonTrap c.id p.1 (blockOf a 8 ++ pairOf b))
      let at_ := c.args.toNat
      let good := vals.filter fun p => !(bad.any fun q => q.1 == p.1)
      let stop (s : State) (cause : Cause) (addr : Nat) : Out :=
        let (s1, t1) := s.trapTurn t (traps ++ bad ++ good.map fun p => (p.1, ⟨cause, BitVec.ofNat 64 addr⟩))
        s1.finish t1 []
      if good.isEmpty then
        let (s1, t1) := s.trapTurn t (traps ++ bad)
        s1.finish t1 []
      else match s.unitRead c.core c.ctx at_ 64 with
        | (_, .held) => s.stall t
        | (s1, .miss va h) =>
          let (s2, t1) := s1.trapTurn t (traps ++ bad)
          .next (s2.holdIssue t1 va h)
        | (s1, .bad cause) => stop s1 cause at_
        | (s1, .poison) => stop s1 .poison (at_ / 32 * 32)
        | (s1, .ok bs) =>
          let blk := bytesNat bs
          let small := (good.filter fun p => !poolFits blk (descLive p.2.1)).map fun p => (p.1, ⟨.permission, BitVec.ofNat 64 at_⟩)
          let go := good.filter fun p => poolFits blk (descLive p.2.1)
          let used := s1.poolSlots c.ctx
          let held (p : Nat × Word × Word) : Option Nat := s1.heldFor c.ctx t.i.run p.1 (rbPool blk) (rbPoolSize blk) (slotSize (descLive p.2.1))
          match allocSlots (rbPool blk) (rbPoolSize blk) s1.free used ((go.filter fun p => (held p).isNone).map fun p => (p.1, slotSize (descLive p.2.1))) with
          | none => s1.stall t
          | some more =>
            let addrs := more ++ go.filterMap fun p => (held p).map fun a => (p.1, a)
            let plan := go.map fun p => (p.1, p.2, (valOf addrs p.1).getD 0)
            let (s2, found) := s1.slotsAt c plan
            let faults := found.filterMap fun p => match p.2 with | .bad cause => some (p.1.1, ⟨cause, BitVec.ofNat 64 p.1.2.2⟩) | _ => none
            match slotMiss found with
            | some (va, h) =>
              let (s3, t1) := s2.trapTurn t (traps ++ bad ++ small)
              .next (s3.holdIssue t1 va h)
            | none =>
              if found.any fun p => p.2 == .held then s.stall t
              else if faults.any fun p => !c.fibTest (fun f => f.stepping) p.1 then
                let (s3, t1) := s2.trapTurn t (traps ++ bad ++ small)
                .next (s3.restartIssue t1)
              else
              let done := found.filterMap fun p => match p.2 with | .ok l => some (p.1, l) | _ => none
              let s3 := done.foldl (fun (st : State) p => st.traceOne t texc a p.1 p.2) { s2 with free := s2.free + 1024 }
              let (s4, t1) := s3.trapTurn { t with gone := t.gone ++ done.map fun p => p.1.1 } (traps ++ bad ++ small ++ faults)
              s4.finish t1 (done.map fun p => p.1.1)

/-- TRACE (R272). -/
def execTrace (a b : Reg) (s : State) : Out := s.traceIssue (.trace a b) false a b
/-- TEXC (R272). -/
def execTexc (a b : Reg) (s : State) : Out := s.traceIssue (.texc a b) true a b

/-- HITREP (R281): the first report of an any-hit fibre stands; IllegalOp in any other. -/
def State.hitrep (s : State) (ins : Instr) (h : HitReport) : Out :=
  s.plan ins fun _ c _ =>
    { srcs := [], check := fun _ _ => (match c.kind with | .anyHit _ => .ok () | _ => trapWith .illegalOp 0 : Chk Unit),
      fibre := fun _ _ f => { f with report := some (f.report.getD h) } }

/-- HITREP.accept (R281). -/
def execHitrepAccept (e : Bool) (s : State) : Out := s.hitrep (.hitrepAccept e) .accept
/-- HITREP.ignore (R281). -/
def execHitrepIgnore (e : Bool) (s : State) : Out := s.hitrep (.hitrepIgnore e) .ignore
/-- HITREP.terminate (R281). -/
def execHitrepTerminate (e : Bool) (s : State) : Out := s.hitrep (.hitrepTerminate e) .terminate

/-! ### Exact geometry -/

/-- Order of exact values with −0 equal to +0. -/
def Ex.below (a b : Ex) : Bool := a.lt b && !a.eqv b
/-- The fraction n/d, d positive. -/
def exFrac (n : Int) (d : Nat) : Ex := .fin (decide (n < 0)) n.natAbs d

/-- An F32 word's value. -/
def f32Of (w : Word) : Ex := fF32.value w.toNat

/-- The part of the line inside one slab of a box (R277); none when the box is empty there or the line misses it. -/
def axisSpan (o d : Int) (lo hi : Ex) : Option (Ex × Ex) :=
  let at_ (x : Ex) : Ex := match x with
    | .inf n => .inf (n != decide (d < 0))
    | x => let n := (fix149 x - o) * (if d < 0 then -1 else 1); exFrac n d.natAbs
  if hi.below lo then none
  else if d == 0 then (let e := exFrac o (2 ^ 149); if e.below lo || hi.below e then none else some (.inf true, .inf false))
  else if 0 < d then some (at_ lo, at_ hi) else some (at_ hi, at_ lo)

/-- The exact segment of a request meets a box of six bounds; a NaN bound counts as met (R277). -/
def meetsBox (req box : List Word) : Bool :=
  let b := box.map f32Of
  let o (i : Nat) : Int := fix149 (f32Of (req.getD i 0))
  let d (i : Nat) : Int := fix149 (f32Of (req.getD (4 + i) 0))
  if b.any fun x => x.isNan then true
  else
    let step (acc : Option (Ex × Ex)) (i : Nat) : Option (Ex × Ex) :=
      match acc, axisSpan (o i) (d i) (b.getD i .nan) (b.getD (3 + i) .nan) with
      | some (l, h), some (a, c) => some (if l.below a then a else l, if c.below h then c else h)
      | _, _ => none
    match [0, 1, 2].foldl step (some (f32Of (req.getD 3 0), f32Of (req.getD 7 0))) with
    | some (l, h) => !h.below l
    | none => false

abbrev Vec3 := Int × Int × Int
def vsub (a b : Vec3) : Vec3 := (a.1 - b.1, a.2.1 - b.2.1, a.2.2 - b.2.2)
def vdot (a b : Vec3) : Int := a.1 * b.1 + a.2.1 * b.2.1 + a.2.2 * b.2.2
def vcross (a b : Vec3) : Vec3 := (a.2.1 * b.2.2 - a.2.2 * b.2.1, a.2.2 * b.1 - a.1 * b.2.2, a.1 * b.2.1 - a.2.1 * b.1)
/-- A vector of F32 words as multiples of 2^-149. -/
def vecOf (l : List Word) (i : Nat) : Vec3 := (fix149 (f32Of (l.getD i 0)), fix149 (f32Of (l.getD (i + 1) 0)), fix149 (f32Of (l.getD (i + 2) 0)))

/-- Exact intersection of a request's line with a triangle (R277): t as a fraction, the barycentrics rounded, front. -/
def triHit (req vs : List Word) (limit : Option (Int × Nat)) : Option (Int × Nat × Word × Word × Bool) :=
  if !(vs.all fun w => (f32Of w).isFinite) then none
  else
    let v0 := vecOf vs 0
    let e1 := vsub (vecOf vs 3) v0
    let e2 := vsub (vecOf vs 6) v0
    let d := vecOf req 4
    let tv := vsub (vecOf req 0) v0
    let p := vcross d e2
    let q := vcross tv e1
    let det := vdot e1 p
    let sg : Int := if det < 0 then -1 else 1
    let u := sg * vdot tv p
    let v := sg * vdot d q
    let t := sg * vdot e2 q
    let n := det.natAbs
    let te := exFrac t n
    let cap : Bool := match limit with | some l => (exFrac l.1 l.2).below te | none => (f32Of (req.getD 7 0)).below te
    if det == 0 || u < 0 || v < 0 || (n : Int) < u + v || te.below (f32Of (req.getD 3 0)) || cap then none
    else
      let r (x : Int) : Word := BitVec.ofNat 32 (fF32.round (exFrac x n) .rne false).1
      some (t, n, r u, r v, decide (0 < det))

/-- The order of candidates: exact t, GEOM, PRIM (R277, R280). -/
def Cand.before (a b : Cand) : Bool :=
  let x := exFrac a.tNum a.tDen
  let y := exFrac b.tNum b.tDen
  x.below y || (!y.below x && (a.geom.ult b.geom || (a.geom == b.geom && a.prim.ult b.prim)))

/-- Insert a candidate in order. -/
def insertCand (c : Cand) : List Cand → List Cand
  | [] => [c]
  | x :: r => if c.before x then c :: x :: r else x :: insertCand c r

/-- An accepted candidate becomes the hit when it is closer (R277, R280). -/
def Ray.accept (r : Ray) (c : Cand) : Ray :=
  let closer : Bool := match r.hit with | some h => c.before h | none => true
  let r1 := if closer then { r with hit := some c, tmax := some (c.tNum, c.tDen) } else r
  if r.flags.getLsbD 2 then { r1 with term := true } else r1

/-- A request that completes as a miss without traversal (R277). -/
def Ray.degenerate (r : Ray) : Bool :=
  let e := r.req.map f32Of
  let g (i : Nat) : Ex := e.getD i .nan
  e.any (fun x => x.isNan) || !([0, 1, 2, 4, 5, 6].all fun i => (g i).isFinite) || (g 7).below (g 3) || vecOf r.req 4 == (0, 0, 0)

/-! ### Traversal -/

/-- How a stretch of traversal ends. -/
inductive Travel where
  | done
  | full
  | fault (poison : Bool)
  | miss (va : Nat) (host : Bool)
  | held
deriving DecidableEq, Repr

/-- What a read that brought no bytes means for a request (R278). -/
def UnitRead.stops : UnitRead → Travel
  | .poison => .fault true
  | .miss va h => .miss va h
  | .held => .held
  | _ => .fault false

/-- Shader-table record of an index: none when out of range, else its four PCs (R279). -/
def State.sbtRecord (s : State) (core ctx blk idx : Nat) : State × Except Travel (Option Nat) :=
  if rbSbtCount blk ≤ idx then (s, .ok none)
  else match s.unitRead core ctx (rbSbt blk + 32 * idx) 32 with
    | (s1, .ok bs) => (s1, .ok (if bytesNat bs == 0 then none else some (bytesNat bs)))
    | (s1, x) => (s1, .error (UnitRead.stops x))

/-- A core of the die of a ray's unit. -/
def Ray.core (r : Ray) : Nat := 4 * r.quad

/-- A leaf's references are tried one triangle at a time: the reference that is left (R276). -/
def leafRest (ref : Nat) : List Nat := if ref % 16 == 0 then [] else [ref + 15]

/-- One triangle of a ray (R277, R279, R280). -/
def State.tryTriangle (s : State) (blk : Nat) (r : Ray) (ref : Nat) (rest : List Nat) : State × Ray × Travel :=
  match s.unitRead r.core r.ctx (rbTris blk + 48 * ((ref - 2 ^ 31) / 16)) 48 with
  | (s1, .ok bs) =>
    let ws := bytesWords bs
    let next := { r with stack := leafRest ref ++ rest }
    match triHit r.req (ws.take 9) r.tmax with
    | none => (s1, next, .done)
    | some (tn, td, b1, b2, front) =>
      if (r.flags.getLsbD 4 && !front) || (r.flags.getLsbD 5 && front) then (s1, next, .done)
      else
        let geom := ws.getD 9 0
        let c : Cand := ⟨tn, td, b1, b2, geom, ws.getD 10 0, front, 0, false⟩
        if r.flags.getLsbD 0 || ((ws.getD 11 0).getLsbD 0 && !r.flags.getLsbD 1) then (s1, next.accept c, .done)
        else match s1.sbtRecord r.core r.ctx blk (r.sbtOff + geom.toNat * r.sbtStride) with
          | (s2, .error x) => (s2, r, x)
          | (s2, .ok none) => (s2, next.accept c, .done)
          | (s2, .ok (some rec)) =>
            if recF rec 0 64 == 0 then (s2, next.accept c, .done)
            else (s2, { next with buffer := next.buffer ++ [{ c with anyPc := BitVec.ofNat 57 (recF rec 0 64) }] }, .done)
  | (s1, x) => (s1, r, x.stops)

/-- One node of a ray (R276 to R278): a child box that the segment misses is entered too, by a free bit (log 1). -/
def State.tryNode (s : State) (blk : Nat) (r : Ray) (ref : Nat) (rest : List Nat) : State × Ray × Travel :=
  if 65536 ≤ r.visits then (s, r, .fault false)
  else match s.unitRead r.core r.ctx (rbRoot blk + 64 * ref) 64 with
    | (s1, .ok bs) =>
      let n := bytesNat bs
      let ws := bytesWords bs
      if recF n 482 30 != 0 then (s1, r, .fault false)
      else
        let enter (i : Nat) : List Nat :=
          if recF n (480 + i) 1 == 1 && (meetsBox r.req ((ws.drop (6 * i)).take 6) || Config.freeBit (s1.free + i)) then [recF n (384 + 32 * i) 32] else []
        let kids := if Config.freeBit (s1.free + 2) then enter 1 ++ enter 0 else enter 0 ++ enter 1
        ({ s1 with free := s1.free + 3 }, { r with visits := r.visits + 1, stack := kids ++ rest }, .done)
    | (s1, x) => (s1, r, x.stops)

/-- Traversal until it is done, the buffer is full, or something is in the way. -/
def State.travel (blk : Nat) : Nat → State → Ray → State × Ray × Travel
  | 0, s, r => (s, r, .fault false)
  | n + 1, s, r =>
    if 16 ≤ r.buffer.length then (s, r, .full)
    else if r.term then (s, { r with stack := [] }, .done)
    else match r.stack with
      | [] => (s, r, .done)
      | ref :: rest =>
        match if 2 ^ 31 ≤ ref then s.tryTriangle blk r ref rest else s.tryNode blk r ref rest with
        | (s1, r1, .done) => State.travel blk n s1 r1
        | x => x

/-- Steps that suffice for 65,536 nodes of two leaves of 16 triangles. -/
def travelFuel : Nat := 65536 * 34

/-- A ray's traversal goes on from where it stands (R277); the block is the launch's. -/
def State.advance (s : State) (r : Ray) : State × Ray × Travel :=
  match s.getLaunch r.launch with
  | none => (s, r, .fault false)
  | some l =>
    match s.unitRead r.core r.ctx l.args 64 with
    | (s1, .ok bs) =>
      let blk := bytesNat bs
      if !rbOk blk then (s1, r, .fault false)
      else if r.begun then s1.travel blk travelFuel r
      else if r.degenerate then (s1, { r with begun := true }, .done)
      else s1.travel blk travelFuel { r with begun := true, stack := [0] }
    | (s1, x) => (s1, r, x.stops)

/-! ### Completion of a request -/

/-- Words from the relaunch address back to RESUME (R275). -/
def backOffset (resume pc : PcAddr) : Word := BitVec.ofInt 32 (((resume.toNat : Int) - pc.toNat) / 4)

/-- The hit block of a TRACE hit (R275). -/
def hitBlock (r : Ray) (c : Cand) (status : Nat) (pc : PcAddr) : List (Word × Tag) :=
  [(BitVec.ofNat 32 (fF32.round (exFrac c.tNum c.tDen) .rne false).1, .f32), (c.b1, .f32), (c.b2, .f32), (c.geom, .ui32), (c.prim, .ui32),
   (BitVec.ofNat 32 status, .ui32), (backOffset r.resume pc, .si32), (BitVec.ofNat 32 (r.sbtOff + c.geom.toNat * r.sbtStride), .ui32)]

/-- The hit block of a TRACE miss (R275). -/
def missBlock (r : Ray) (status : Nat) (pc : PcAddr) : List (Word × Tag) :=
  [(r.req.getD 7 0, .f32), (0, .f32), (0, .f32), (0xFFFFFFFF, .ui32), (0xFFFFFFFF, .ui32), (BitVec.ofNat 32 status, .ui32), (backOffset r.resume pc, .si32), (0xFFFFFFFF, .ui32)]

/-- The block of a TEXC (R275). -/
def texBlock (rgba : List Word) (status : Nat) : List (Word × Tag) :=
  (List.range 4).map (fun i => (rgba.getD i 0, Tag.f32)) ++ [(0, .ui32), (BitVec.ofNat 32 status, .ui32), (0, .si32), (0, .ui32)]

/-- The hit area of a record, found for its write (R273). -/
def State.hitSpan (s : State) (r : Ray) : State × SpanAt := spanFrom (fun st va => st.unitAt r.ctx va true) 2 s (r.slot + hitArea r.live) 32

/-- What the completion of a request waits for: the pages of its hit area, which it asks for, or the end of a switch (11_faults R258, R267). -/
def State.hitWaits (s : State) (r : Ray) : Option State :=
  match s.hitSpan r with
  | (s1, .miss va h) => some (s1.askMiss r.ctx va h)
  | (_, .held) => some s
  | _ => none

/-- The request completes: the hit area is written, but for a page that takes no write, and the record queued under its key (R274). -/
def State.finishRay (s : State) (r : Ray) (pc : PcAddr) (hit : List (Word × Tag)) : State :=
  let s1 := match s.hitSpan r with
    | (s0, SpanAt.ok l) => s0.putSpan none r.core r.ctx l (wordsBytes (hit.map fun (x : Word × Tag) => x.1))
    | (s0, _) => s0
  { s1 with rays := s1.rays.filter (fun x => x.id != r.id), requeues := s1.requeues ++ [⟨r.id, r.ctx, r.launch, r.quad, r.slot, pc, r.regs, hit, s.ticks⟩] }

/-- A shader's PC is an instruction address (02_encoding R59); another completes the request with FAULT. -/
def pcForm (v : Nat) : Bool := v < 2 ^ 57 && v % 4 == 0

/-- A request ends in a miss with FAULT or POISON (R278). -/
def State.faultRay (s : State) (r : Ray) (poison : Bool) : State :=
  let st := if poison then 64 else 32
  s.finishRay r r.resume (if r.texc then texBlock [] st else missBlock r st r.resume)

/-- A miss: the miss PC of record SBTOFF (R274). -/
def State.missRay (s : State) (r : Ray) (blk : Nat) : State :=
  match s.sbtRecord r.core r.ctx blk r.sbtOff with
  | (_, .error (.miss va h)) => s.unitMiss r.ctx va h
  | (s1, .error (.fault p)) => s1.faultRay r p
  | (_, .error _) => s
  | (s1, .ok rec) =>
    let m := recF (rec.getD 0) 192 64
    if m == 0 then s1.finishRay r r.resume (missBlock r 0 r.resume)
    else if pcForm m then s1.finishRay r (BitVec.ofNat 57 m) (missBlock r 0 (BitVec.ofNat 57 m))
    else s1.faultRay r false

/-- A hit: the closest-hit PC, or RESUME (R274, R279). -/
def State.hitRay (s : State) (r : Ray) (blk : Nat) (c : Cand) : State :=
  match s.sbtRecord r.core r.ctx blk (r.sbtOff + c.geom.toNat * r.sbtStride) with
  | (_, .error (.miss va h)) => s.unitMiss r.ctx va h
  | (s1, .error (.fault p)) => s1.faultRay r p
  | (_, .error _) => s
  | (s1, .ok rec) =>
    let st := 1 + 2 * bit01 c.front + 4 * bit01 rec.isNone + 8 * bit01 r.term
    let s2 := if rec.isNone then s1.modLaunch r.launch fun l => { l with sbtMiss := min (l.sbtMiss + 1) (2 ^ 32 - 1) } else s1
    let p := recF (rec.getD 0) 64 64
    if p == 0 || r.flags.getLsbD 3 then s2.finishRay r r.resume (hitBlock r c st r.resume)
    else if pcForm p then s2.finishRay r (BitVec.ofNat 57 p) (hitBlock r c st (BitVec.ofNat 57 p))
    else s1.faultRay r false

/-! ### Textures -/

/-- Level sizes and texel offsets (R282). -/
def levelDim (n l : Nat) : Nat := max 1 (n / 2 ^ l)
def levelStart (w h l : Nat) : Nat := (List.range l).foldl (fun a k => a + levelDim w k * levelDim h k) 0

/-- Addr of R282: 0 wrap, 1 clamp, 2 mirror. -/
def texAddr (mode : Nat) (i : Int) (n : Nat) : Nat :=
  if mode == 0 then (i % (n : Int)).toNat
  else if mode == 1 then (if i < 0 then 0 else min i.toNat (n - 1))
  else let k := (i % ((2 * n : Nat) : Int)).toNat; if k < n then k else 2 * n - 1 - k

/-- A channel of a texel: its bits, and its value over 255 or 2^149 (R282). -/
def texChan (fmt : Nat) (bs : List Byte) (ch : Nat) : Ex × Nat :=
  match fmt with
  | 0 => (.fin false (bs.getD ch 0).toNat 255, (bs.getD ch 0).toNat)
  | 1 => let b := bytesNat ((bs.drop (2 * ch)).take 2); (fF16.value b, b)
  | _ => let b := bytesNat ((bs.drop (4 * ch)).take 4); (fF32.value b, b)

/-- A channel returned by itself, as F32 (R282). -/
def texOne (x : Ex × Nat) : Word :=
  match x.1 with
  | .nan => BitVec.ofNat 32 fF32.canonNan
  | e => BitVec.ofNat 32 (fF32.round e .rne false).1

/-- The weighted sum of four channels (R282): weights over q; a NaN gives CanonNaN. Where an infinite channel has weight 0, or infinities of both signs meet, the manual states no value, and it is a free one (log 1). -/
def texBlend (fmt : Nat) (free : Nat) (q : Nat) (l : List (Nat × Ex)) : Word :=
  let den : Nat := if fmt == 0 then 255 else 2 ^ 149
  let num (e : Ex) : Int := match e with | .fin s n d => (if s then -1 else 1) * ((n * (den / d) : Nat) : Int) | _ => 0
  let infs := l.filter fun x => !x.2.isFinite
  if l.any fun x => x.2.isNan then BitVec.ofNat 32 fF32.canonNan
  else match infs with
    | [] => BitVec.ofNat 32 (fF32.round (exFrac (l.foldl (fun a x => a + (x.1 : Int) * num x.2) 0) (q * den)) .rne false).1
    | x :: _ =>
      if infs.all fun y => y.1 != 0 && y.2 == x.2 then BitVec.ofNat 32 (fF32.round x.2 .rne false).1 else Config.freeWord free

/-- Several reads of a unit. -/
def State.unitReads (s : State) (core ctx n : Nat) : List Nat → State × Except Travel (List (List Byte))
  | [] => (s, .ok [])
  | a :: r =>
    match s.unitRead core ctx a n with
    | (s1, .ok bs) => (match s1.unitReads core ctx n r with
      | (s2, .ok l) => (s2, .ok (bs :: l))
      | x => x)
    | (s1, x) => (s1, .error (UnitRead.stops x))

/-- The level of detail (R282). -/
def texLevel (lod : Word) (levels : Nat) : Nat :=
  match f32Of lod with
  | .nan => 0
  | .inf n => if n then 0 else levels - 1
  | .fin s n d => if s then 0 else min (roundInt false n d .rne).1.toNat (levels - 1)

/-- Sample of R282 from a well-formed descriptor. -/
def State.sample (s : State) (core ctx d : Nat) (u v : Ex) (lod : Word) : State × Except Travel (List Word) :=
  let fmt := recF d 100 2
  let tb := if fmt == 0 then 4 else if fmt == 1 then 8 else 16
  let l := texLevel lod (recF d 96 4)
  let w := levelDim (recF d 64 16) l
  let h := levelDim (recF d 80 16) l
  let at_ (i j : Int) : Nat := recF d 0 64 + tb * (levelStart (recF d 64 16) (recF d 80 16) l + texAddr (recF d 103 2) j h * w + texAddr (recF d 103 2) i w)
  let q : Nat := 2 ^ 150
  if recF d 102 1 == 0 then
    match s.unitReads core ctx tb [at_ (fix149 u * w / 2 ^ 149) (fix149 v * h / 2 ^ 149)] with
    | (s1, .ok ts) => (s1, .ok ((List.range 4).map fun c => texOne (texChan fmt (ts.headD []) c)))
    | (s1, .error e) => (s1, .error e)
  else
    let x : Int := 2 * fix149 u * w - 2 ^ 149
    let y : Int := 2 * fix149 v * h - 2 ^ 149
    let i := x / (q : Int)
    let j := y / (q : Int)
    let fx := (x % (q : Int)).toNat
    let fy := (y % (q : Int)).toNat
    match s.unitReads core ctx tb [at_ i j, at_ (i + 1) j, at_ i (j + 1), at_ (i + 1) (j + 1)] with
    | (s1, .ok ts) =>
      let ws := [(q - fx) * (q - fy), fx * (q - fy), (q - fx) * fy, fx * fy]
      ({ s1 with free := s1.free + 4 }, .ok ((List.range 4).map fun c => texBlend fmt (s1.free + c) (q * q) (ws.zip (ts.map fun b => (texChan fmt b c).1))))
    | (s1, .error e) => (s1, .error e)

/-- A texture descriptor whose fields lie in their ranges (R282). -/
def texDescOk (d : Nat) : Bool :=
  recF d 105 151 == 0 && globalForm (recF d 0 64) 128 && 1 ≤ recF d 64 16 && recF d 64 16 ≤ 16384 && 1 ≤ recF d 80 16 && recF d 80 16 ≤ 16384 &&
  1 ≤ recF d 96 4 && recF d 96 4 ≤ 15 && recF d 100 2 != 3 && recF d 103 2 != 3

/-- A TEXC request completes (R282). -/
def State.texRay (s : State) (r : Ray) : State :=
  let stop (st : State) (x : Travel) : State := match x with
    | .miss va h => s.unitMiss r.ctx va h
    | .fault p => st.faultRay r p
    | _ => s
  let badTex (s : State) : State := s.finishRay r r.resume (texBlock [] 16)
  match s.getLaunch r.launch with
  | none => s.faultRay r false
  | some l =>
    match s.unitReads r.core r.ctx 64 [l.args] with
    | (s1, .error x) => stop s1 x
    | (s1, .ok bs) =>
      let blk := bytesNat (bs.headD [])
      let idx := (r.req.getD 0 0).toNat
      let u := f32Of (r.req.getD 1 0)
      let v := f32Of (r.req.getD 2 0)
      if !rbOk blk then s1.faultRay r false
      else if rbTexCount blk ≤ idx || !u.isFinite || !v.isFinite then badTex s1
      else match s1.unitReads r.core r.ctx 32 [rbTexTab blk + 32 * idx] with
        | (s2, .error x) => stop s2 x
        | (s2, .ok ds) =>
          let d := bytesNat (ds.headD [])
          if !texDescOk d then badTex s2
          else match s2.sample r.core r.ctx d u v (r.req.getD 3 0) with
            | (s3, .error x) => stop s3 x
            | (s3, .ok rgba) => s3.finishRay r r.resume (texBlock rgba 0)

/-! ### Steps of the ray units -/

/-- Replace a ray. -/
def State.setRay (s : State) (r : Ray) : State := { s with rays := updWhere (fun x => x.id == r.id) (fun _ => r) s.rays }

/-- The block of a launch, already read once. -/
def State.blockOfRay (s : State) (r : Ray) : Nat :=
  match s.getLaunch r.launch with
  | some l => (match s.unitRead r.core r.ctx l.args 64 with | (_, .ok bs) => bytesNat bs | _ => 0)
  | none => 0

/-- RAY_REQUEST_COMPLETION (R274 to R279): the traversal goes on; when it is done with no candidate left to report, the request completes. -/
def execRayRequestCompletion (ray : Nat) (s : State) : Out :=
  match s.rays.find? fun r => r.id == ray with
  | none => .next s
  | some r =>
    if r.anyHit then .next s
    else match s.hitWaits r with
    | some s1 => .next s1
    | none =>
    if r.texc then .next (s.texRay r)
    else match s.advance r with
      | (_, _, .miss va h) => .next (s.unitMiss r.ctx va h)
      | (_, _, .held) => .next s
      | (s1, r1, .fault p) => .next (s1.faultRay r1 p)
      | (s1, r1, .full) => .next (s1.setRay r1)
      | (s1, r1, .done) =>
        if !r1.buffer.isEmpty then .next (s1.setRay r1)
        else match r1.hit with
          | some c => .next ((s1.setRay r1).hitRay r1 (s1.blockOfRay r1) c)
          | none => .next ((s1.setRay r1).missRay r1 (s1.blockOfRay r1))

/-- ANY_HIT_CREW_FORMATION (R280): a full or final buffer runs as one crew, in order of (t, GEOM, PRIM). -/
def execAnyHitCrewFormation (ray : Nat) (s : State) : Out :=
  match s.rays.find? fun r => r.id == ray with
  | none => .next s
  | some r =>
    if r.anyHit || r.texc || r.buffer.isEmpty || !(16 ≤ r.buffer.length || r.stack.isEmpty || r.term) then .next s
    else
      let l := r.buffer.foldr insertCand []
      let fib (c : Cand) : PcAddr × List (Word × Tag) := (c.anyPc, r.regs ++ hitBlock r c (1 + 2 * bit01 c.front) c.anyPc)
      let s1 := s.setRay { r with buffer := l, anyHit := true }
      .next { s1 with formed := s1.formed ++ [⟨r.launch, r.quad, some r.id, [], l.map fib⟩] }

/-- The reports of an any-hit crew, in candidate order; a fibre without one accepts (R280, R281). -/
def Ray.applyReports (r : Ray) (reports : List (Option HitReport)) : Ray :=
  let l := r.buffer.zip reports
  let acc := (l.filter fun x => x.2 != some .ignore).map fun x => x.1
  let stop : Bool := l.any fun x => x.2 == some .terminate
  let r1 := acc.foldl Ray.accept { r with buffer := [], anyHit := false }
  if stop then { r1 with term := true } else r1

/-- ANY_HIT_REPORTS_APPLIED (R280): once every fibre of the crew has retired. -/
def execAnyHitReportsApplied (ray : Nat) (s : State) : Out :=
  match s.rays.find? fun r => r.id == ray, s.crews.find? fun c => c.kind == .anyHit ray && c.life == .completed with
  | some r, some c =>
    if r.anyHit then
      let s1 := s.setRay (r.applyReports (c.fibres.map fun f => f.report))
      .next { s1 with crews := s1.crews.filter (fun x => x.id != c.id), teams := s1.teams.filter fun t => t.id != c.team }
    else .next s
  | _, _ => .next s

/-- Records of one key: relaunch address and tags, at one unit (R274). -/
def Requeue.sameKey (a b : Requeue) : Bool := a.launch == b.launch && a.quad == b.quad && a.pc == b.pc && a.regs.map (fun x => x.2) == b.regs.map fun x => x.2

/-- Whether a crew of a record's key is due (R274). -/
def State.keyDue (s : State) (l : Launch) (q : Requeue) : Bool :=
  l.crewSize ≤ (s.requeues.filter q.sameKey).length || q.since + 1000 ≤ s.ticks || !(s.rays.any fun r => r.launch == l.id)

/-- RELAUNCH_CREW_FORMATION (R274): a crew of the records of one key, in queue order. -/
def execRelaunchCrewFormation (launch : Nat) (s : State) : Out :=
  match s.getLaunch launch with
  | none => .next s
  | some l =>
    match s.requeues.find? fun q => q.launch == launch && s.keyDue l q with
    | none => .next s
    | some q =>
      let recs := (s.requeues.filter q.sameKey).take l.crewSize
      let ids := recs.map fun x => x.ray
      .next { s with
        requeues := s.requeues.filter fun x => !ids.contains x.ray
        formed := s.formed ++ [⟨launch, q.quad, none, recs.map fun x => x.slot, recs.map fun x => (x.pc, x.regs ++ x.hit)⟩] }

end Sys2Proof.Machine
end

