-- ==== Sys2Proof/Machine/Special.lean ====
section
/-! DEFINITION. Special registers and TLBINV (01_execution R45 to R51, 11_faults R265, R266, 17_ref R385, R386, 18_ref R398). -/
namespace Sys2Proof.Machine

/-- Numbers a privileged fibre may read (R266). -/
def privListed (n : Nat) : Bool := 0x100 ≤ n && n ≤ 0x103

/-- Access checks of R46 and R47 that depend on the fibre: privilege, then, in a privileged fibre, the number, the access and the pair limit. -/
def sregCheck (priv : Bool) (n : Nat) (r : Reg) (write : Bool) : Chk Unit :=
  if n < 0x100 then .ok ()
  else if !priv then trapWith .privOp 0
  else if !privListed n || write then trapWith .illegalOp 0
  else if sregPair n && !pairOk r then trapWith .illegalOp 0
  else .ok ()

/-- TXCAUSE of R51. -/
def Fibre.txWord (f : Fibre) : Nat := f.txCause.toNat + 16 * (match f.tx with | some t => t.depth | none => 0)

/-- Value and shape of a special register in a fibre (R45, R48 to R51, R266): 64 bits for a pair. -/
def State.sregValue (s : State) (c : Crew) (k : Nat) (f : Fibre) (n : Nat) : Nat × Shape :=
  let cx := s.getCtx c.ctx
  match n with
  | 0x000 => (k, .a)
  | 0x001 => (c.index.toNat, .u)
  | 0x002 => (c.size, .u)
  | 0x003 => (c.teamIndex.toNat, .u)
  | 0x004 => (c.teamPos, .u)
  | 0x005 => (c.teamSize, .u)
  | 0x006 => (c.lane + k / 16, .g)
  | 0x007 => (c.core, .u)
  | 0x008 => (quadOf c.core, .u)
  | 0x009 => (dieOf c.core, .u)
  | 0x00A => (s.pkg, .u)
  | 0x00B => (c.gridSize.toNat, .u)
  | 0x00C => (c.args.toNat, .u)
  | 0x010 => (s.cycles, .g)
  | 0x011 => (f.clockHi.toNat, .g)
  | 0x012 => (s.ticks, .g)
  | 0x013 => (f.timeHi.toNat, .g)
  | 0x020 => (f.fpstat.toNat, .g)
  | 0x021 => (c.nstatus.toNat, .u)
  | 0x022 => (f.txWord, .g)
  | 0x023 => (f.trapCause.toNat, .g)
  | 0x024 => (f.trapPc.toNat, .g)
  | 0x025 => (f.trapAddr.toNat, .g)
  | 0x026 => (c.uiVec.toNat, .u)
  | 0x027 => (f.uiCause.toNat, .g)
  | 0x030 => (s.capsAt, .u)
  | 0x100 => ((cx.map fun x => x.asid).getD 0, .u)
  | 0x101 => ((cx.map fun x => x.ptroot).getD 0, .u)
  | 0x102 => ((cx.map fun x => x.trapvec.toNat).getD 0, .u)
  | 0x103 => ((cx.map fun x => x.pasid).getD 0, .u)
  | _ => (0, .u)

/-- SREAD of CLOCK and TIME latches the count (R48). -/
def State.latch (s : State) (n : Nat) (f : Fibre) : Fibre :=
  match n with
  | 0x010 => { f with clockHi := BitVec.ofNat 32 (s.cycles / 2 ^ 32) }
  | 0x012 => { f with timeHi := BitVec.ofNat 32 (s.ticks / 2 ^ 32) }
  | _ => f

/-- The destination of one half of a special register. -/
def sregDest (d : Nat) (half : Nat) (l : List (Nat × (Nat × Shape))) (base stride : Word) : Dest :=
  let sh := match l with | p :: _ => p.2.2 | [] => .g
  ⟨d, .ui32, sh, base, stride, l.map fun p => (p.1, BitVec.ofNat 32 (p.2.1 / 2 ^ (32 * half)))⟩

/-- SREAD (17_ref R385). -/
def execSread (e : Bool) (d : Reg) (n : BitVec 9) (s : State) : Out :=
  s.plan (.sread e d n) fun s c _ =>
    { srcs := [],
      check := fun k _ =>
        match sregCheck (s.privileged c.ctx) n.toNat d false, c.fib k with
        | .error x, _ => .error x
        | .ok _, some f => .ok (s.sregValue c k f n.toNat)
        | .ok _, none => trapWith .illegalOp 0,
      dests := fun l =>
        let v := match l with | p :: _ => p.2.1 | [] => 0
        let isA : Bool := n == 0
        sregDest d.toNat 0 l (if isA then 0 else BitVec.ofNat 32 v) (if isA then 1 else 0) ::
          (if sregPair n.toNat then [sregDest (d.toNat + 1) 1 l (BitVec.ofNat 32 (v / 2 ^ 32)) 0] else []),
      fibre := fun _ _ f => s.latch n.toNat f }

/-- Checks of the value SWRITE gives UIVEC, TRAPPC or TRAPADDR (R47). -/
def swriteValue (n : Nat) (v : Nat) : Chk Unit :=
  if n == 0x24 || n == 0x25 || n == 0x26 then
    if 2 ^ 57 ≤ v then trapWith .permission v
    else if n != 0x25 && v % 4 != 0 then trapWith .misaligned v
    else .ok ()
  else .ok ()

/-- A fibre's register written (R386); FPSTAT takes [9:8] and [6:0]. -/
def Fibre.swrite (n : Nat) (v : Nat) (f : Fibre) : Fibre :=
  match n with
  | 0x20 => { f with fpstat := BitVec.ofNat 32 (v % 128 + 256 * recF v 8 2) }
  | 0x23 => { f with trapCause := BitVec.ofNat 8 v }
  | 0x24 => { f with trapPc := BitVec.ofNat 57 v }
  | 0x25 => { f with trapAddr := BitVec.ofNat 64 v }
  | _ => f

/-- The checks of SWRITE in a fibre: privilege, RO registers, then the value (R45 to R47, R386). -/
def State.swriteCheck (s : State) (c : Crew) (n : Nat) (a : Reg) (srcs : List Reg) (k : Nat) : Chk Nat :=
  match sregCheck (s.privileged c.ctx) n a true with
  | .error x => .error x
  | .ok _ =>
    if (n == 0x23 || n == 0x24 || n == 0x25) && !c.fibTest (fun f => f.trapMode) k then trapWith .illegalOp 0
    else s.readThen c k srcs fun l =>
      let v := (opnd l 0).toNat + (opnd l 1).toNat * 2 ^ 32
      (swriteValue n v).map fun _ => v

/-- SWRITE (R386): the trap registers are RO outside trap mode (R45, R46). -/
def execSwrite (e : Bool) (a : Reg) (n : BitVec 9) (s : State) : Out :=
  s.perform (.swrite e a n) fun s c t =>
    let srcs := if sregPair n.toNat then pairOf a else [a]
    match gather (s.swriteCheck c n.toNat a srcs) t.x with
    | none => s.stall t
    | some (vals, traps) =>
      let sp := s.splitPoison c srcs vals
      let one (st : State) (p : Nat × Nat) : State :=
        let s1 := st.modFib c.id p.1 fun f => (f.popAll srcs).swrite n.toNat p.2
        if n == 0x26 then s1.modCrew c.id fun x => { x with uiVec := BitVec.ofNat 57 p.2 } else s1
      (sp.1.foldl one s).finishTraps t (traps ++ sp.2) (sp.1.map fun p => p.1)

/-- TLBINV (R265): an operation of the stores class that STORE_PERFORM completes. -/
def execTlbinv (e : Bool) (a b : Reg) (s : State) : Out :=
  s.perform (.tlbinv e a b) fun s c t =>
    let check (k : Nat) : Chk (Nat × Nat) :=
      if !s.privileged c.ctx then trapWith .privOp 0
      else s.readThen c k (pairOf a ++ [b]) fun l =>
        if !isInt32 (opTag l 2) then trapWith .formatMismatch 0
        else if recF (opnd l 2).toNat 10 6 != 0 || recF (opnd l 2).toNat 18 14 != 0 then trapWith .illegalOp 0
        else .ok (((opnd l 0).toNat + (opnd l 1).toNat * 2 ^ 32) % 2 ^ 57, (opnd l 2).toNat)
    match gather check t.x with
    | none => s.stall t
    | some (vals, traps) =>
      let sp := s.splitPoison c (pairOf a ++ [b]) vals
      let good := sp.1
      let one (st : State) (p : Nat × (Nat × Nat)) : State := st.addOp { t.op c p.1 [p.1] (.tlbinv p.2.1 p.2.2) with va := p.2.1 } (some .stores)
      ((good.foldl one s).modRanks c.id (good.map fun p => p.1) fun _ f => f.popAll (pairOf a ++ [b])).finishTraps t (traps ++ sp.2) (good.map fun p => p.1)

end Sys2Proof.Machine
end

