-- ==== Sys2Proof/Machine/Preview.lean ====
section
/-! DEFINITION. A run that ends in TRACE or TEXC looked at ahead, as the lane does before it lets the run issue: what its earlier words make of the descriptor, and the slots its fibres are to have (12_render R272, 18_ref R396). -/
namespace Sys2Proof.Machine

/-- A word looked at ahead whose results land only after its run (01_execution R28): it pops its queues and is passed over. -/
def State.passWord (s : State) (ins : Instr) : Out :=
  match s.cur with
  | none => .next s
  | some i => match s.getCrew i.crew with
    | none => .next s
    | some c => .next { s.modRanks i.crew (c.executing i) (fun _ f => f.popAll (formOf c i.ext ins).reads) with cur := some i.onward }

/-- A word looked at ahead: those of fixed latency, and the cross-fibre ones, take their course. -/
def State.previewWord (s : State) (ins : Instr) : Out :=
  match ins with
  | .addA3 e d a b => execAddA3 e d a b s
  | .addAi e d a imm => execAddAi e d a imm s
  | .subA3 e d a b => execSubA3 e d a b s
  | .subAi e d a imm => execSubAi e d a imm s
  | .mulA3 e d a b => execMulA3 e d a b s
  | .mulAi e d a imm => execMulAi e d a imm s
  | .mulhi e d a b => execMulhi e d a b s
  | .ma e d a b => execMa e d a b s
  | .minA3 e d a b => execMinA3 e d a b s
  | .minAi e d a imm => execMinAi e d a imm s
  | .maxA3 e d a b => execMaxA3 e d a b s
  | .maxAi e d a imm => execMaxAi e d a imm s
  | .andA3 e d a b => execAndA3 e d a b s
  | .andAi e d a imm => execAndAi e d a imm s
  | .orA3 e d a b => execOrA3 e d a b s
  | .orAi e d a imm => execOrAi e d a imm s
  | .xorA3 e d a b => execXorA3 e d a b s
  | .xorAi e d a imm => execXorAi e d a imm s
  | .shlA3 e d a b => execShlA3 e d a b s
  | .shlAi e d a imm => execShlAi e d a imm s
  | .shrA3 e d a b => execShrA3 e d a b s
  | .shrAi e d a imm => execShrAi e d a imm s
  | .sarA3 e d a b => execSarA3 e d a b s
  | .sarAi e d a imm => execSarAi e d a imm s
  | .rotA3 e d a b => execRotA3 e d a b s
  | .rotAi e d a imm => execRotAi e d a imm s
  | .bfe e d a b => execBfe e d a b s
  | .bfi e d a b => execBfi e d a b s
  | .leaA3 e d a b => execLeaA3 e d a b s
  | .leaAi e d a imm => execLeaAi e d a imm s
  | .mov e d a => execMov e d a s
  | .neg e d a => execNeg e d a s
  | .abs e d a => execAbs e d a s
  | .notR e d a => execNotR e d a s
  | .popc e d a => execPopc e d a s
  | .clz e d a => execClz e d a s
  | .brev e d a => execBrev e d a s
  | .dot4 e d a b => execDot4 e d a b s
  | .dott e d a b => execDott e d a b s
  | .ldi e d imm => execLdi e d imm s
  | .cmp e cond pd mode a b => execCmp e cond pd mode a b s
  | .cmpi e cond pd mode a imm => execCmpi e cond pd mode a imm s
  | .pand e pd pa pb => execPand e pd pa pb s
  | .por e pd pa pb => execPor e pd pa pb s
  | .pxor e pd pa pb => execPxor e pd pa pb s
  | .pnot e pd pa => execPnot e pd pa s
  | .pmovToRegister e v mask => execPmovToRegister e v mask s
  | .pmovToPredicates e v mask => execPmovToPredicates e v mask s
  | .sel e ps inv d a b => execSel e ps inv d a b s
  | .shflIdx e d a m => execShflIdx e d a m s
  | .shflUp e d a m => execShflUp e d a m s
  | .shflDown e d a m => execShflDown e d a m s
  | .shflXor e d a m => execShflXor e d a m s
  | .voteAny e d a m => execVoteAny e d a m s
  | .voteAll e d a m => execVoteAll e d a m s
  | .voteBallot e d a m => execVoteBallot e d a m s
  | .foldAdd e d a m => execFoldAdd e d a m s
  | .foldMin e d a m => execFoldMin e d a m s
  | .foldMax e d a m => execFoldMax e d a m s
  | .foldAnd e d a m => execFoldAnd e d a m s
  | .foldOr e d a m => execFoldOr e d a m s
  | .foldXor e d a m => execFoldXor e d a m s
  | .scanAdd e d a m => execScanAdd e d a m s
  | .scanMin e d a m => execScanMin e d a m s
  | .scanMax e d a m => execScanMax e d a m s
  | .scanAnd e d a m => execScanAnd e d a m s
  | .scanOr e d a m => execScanOr e d a m s
  | .scanXor e d a m => execScanXor e d a m s
  | .matchAny e d a m => execMatchAny e d a m s
  | .matchAll e d a m => execMatchAll e d a m s
  | .cvt e d a tgt sat mode => execCvt e d a tgt sat mode s
  | .mxpack e d a tgt => execMxpack e d a tgt s
  | .mxunpk e d a tgt => execMxunpk e d a tgt s
  | .dtern e d a half => execDtern e d a half s
  | .retag e d a tgt => execRetag e d a tgt s
  | .tag e d a => execTag e d a s
  | .shape e d a => execShape e d a s
  | .fpflag e d mask => execFpflag e d mask s
  | .nop e => execNop e s
  | .region e => execRegion e s
  | .spawn e d a b => execSpawn e d a b s
  | .yield e => execYield e s
  | .sread e d n => execSread e d n s
  | .swrite e a n => execSwrite e a n s
  | _ => if isExt ins then s.extWord ins else s.passWord ins

/-- The words of a run take their course up to its last, which an issue then stands at; none when they do not all complete. `fuel` counts the words. -/
def State.previewRun : Nat → State → Option State
  | 0, _ => none
  | n + 1, s =>
    match s.cur with
    | none => none
    | some i =>
      match i.code with
      | [_] => some s
      | .word bs :: _ => (match decodeBytes bs with
        | .ok ins => (match s.previewWord ins with
          | .next t => State.previewRun n t
          | _ => none)
        | .error _ => none)
      | _ => none

/-- The slots that the TRACE or TEXC ending a run is to be given (R272): none where the run ends otherwise or its words do not lead there, else each fibre's, if there is room for all that would execute it. Nothing of the look ahead stays. -/
def State.raySlots (s : State) (crew : Nat) (conv : Bool) (l : List Nat) (pc : PcAddr) (code : List Fetched) : Option (Option (List (Nat × Nat × Nat))) :=
  match (State.previewRun Config.runWords { s with cur := some ⟨crew, l, conv, pc, pc, Ext.zero, s.nextId, 0, code, 0, false⟩, waiting := [], ops := [] }) with
  | none => none
  | some t =>
    match t.cur.bind fun i => (t.getCrew crew).bind fun c => i.atHand.map fun ins => (i, c, ins) with
    | some (i, c, .trace a b) | some (i, c, .texc a b) => some (State.traceSlots { t with launches := s.launches, rayHolds := s.rayHolds, cur := s.cur, waiting := s.waiting } c ((c.executing i).filter fun k => !c.inTx k) a b)
    | _ => none

end Sys2Proof.Machine
end

