-- ==== Sys2Proof/Machine/Arbitration.lean ====
section
/-! DEFINITION. Arbitration of lanes and units, and the restarts and traps taken at run boundaries (01_execution R16 to R26, 10_scheduling R247, R248, 11_faults R254, R255). -/
namespace Sys2Proof.Machine

/-! ### Eligibility -/

/-- The class an instruction counts in (18_ref R405). -/
def classOf : Instr → Option OpClass
  | .ld .. | .atomAdd .. | .atomMin .. | .atomMax .. | .atomAnd .. | .atomOr .. | .atomXor .. | .atomXchg .. | .atomIncw .. | .atomDecw .. | .cas .. => some .loads
  | .st .. | .redAdd .. | .redMin .. | .redMax .. | .psend .. | .rwpost .. | .tlbinv .. | .flush .. | .inval .. => some .stores
  | .cpost .. | .netjob .. => some .copies
  | .mmaBf16 .. | .mmaF16 .. | .mmaE4m3 .. | .mmaE5m2 .. | .mmaSi8 .. | .mmaUi8 .. | .mmasE2m1 .. | .mmasE2m3 .. | .mmasE3m2 .. | .mmasE4m3 .. | .mmasE5m2 .. | .mmasSi8 ..
  | .tzero .. | .trow .. | .tfill .. | .tdrain .. => some .tiles
  | _ => none

/-- A fibre stays within 255 operations in each class through the run (R405). -/
def Fibre.countsOk (f : Fibre) (gs : List WordGroup) : Bool :=
  [OpClass.loads, .stores, .copies, .tiles].all fun cls =>
    let n := (gs.filter fun g => classOf g.ins == some cls).length
    n == 0 || decide ((f.counts.filter fun x => x.cls == cls).length + n ≤ 255)

/-- Registers of the operand set (R23). -/
def runRegs (gs : List WordGroup) : List Reg := gs.flatMap fun g => g.form.reads ++ g.form.lat
/-- Predicates of the operand set. -/
def runPreds (gs : List WordGroup) : List PReg := gs.flatMap fun g => g.form.preds ++ (match g.ext.guard with | some (_, p) => [p] | none => [])

/-- The next element of every queue the run reads has arrived; a queue that traps its reader is not waited for (R23, 08_copies R211). -/
def State.queuesOk (s : State) (c : Crew) (k : Nat) (gs : List WordGroup) : Bool :=
  ((runRegs gs).filter fun r => decide (120 ≤ r.toNat)).all fun r => match s.readQueue c k (r.toNat - 120) 0 with | .error none => false | _ => true

/-- No member of the operand set is pending for a fibre (R23). -/
def State.operandsOk (s : State) (c : Crew) (k : Nat) (gs : List WordGroup) : Bool :=
  !((runRegs gs).any fun r => decide (r.toNat < 120) && s.pending c.id k r.toNat) &&
  !((runPreds gs).any fun p => s.pending c.id k (128 + p.toNat)) && s.queuesOk c k gs

/-- Every tile the run names is, as the pre-scan finds it, in a state that lets its instruction issue (R23, 04_matrix R124). -/
def Crew.tilesOk (c : Crew) (gs : List WordGroup) : Bool := gs.all fun g => c.tileOk g.form.use g.form.tile

/-- The run holds a PSEND or a PRECV (09_crumbs R227). -/
def runPipes (gs : List WordGroup) : Bool := gs.any fun g => match g.ins with | .psend .. | .precv .. => true | _ => false

/-- The gate of TBWAIT at the pre-scan (R24, 08_copies R203): the word of the step at which it holds is captured; an address the instruction will trap or miss on holds, a page it may not name among them (08_copies R202). -/
def State.tbGate (s : State) (c : Crew) (k : Nat) (a b : Reg) (pc : PcAddr) : State × Bool :=
  match s.readSrcs c k [] (pairOf a ++ [b]) with
  | .error none => (s, false)
  | .error (some _) => (s, true)
  | .ok l =>
    if !isInt32 (opTag l 2) then (s, true)
    else match s.barOperand c l (opnd l 2) with
      | .error _ => (s, true)
      | .ok ad =>
        let place : Option Place := match ad.here with
          | some p => some p
          | none => match s.walk c.ctx ad.va with
            | .leaf _ pte bits => (match s.leafCheck c.ctx ad.va pte bits true false (s.privileged c.ctx) with
              | .ok p _ => if s.barrierPage p pte then some p else none
              | _ => none)
            | _ => none
        match place with
        | none => (s, true)
        | some p =>
          if !s.barReady c k p then (s, false) else
          match s.barSeen c k pc p ad.v with
          | none => (s, false)
          | some w => (s.modFib c.id k fun f => { f with gate := some ⟨pc, false, false, some w⟩ }, true)

/-- The gate of the run's first instruction for a fibre (R24). It holds where the guard is false, where the instruction aborts the fibre's attempt (07_transactions R182), and where it traps. -/
def State.gateOk (s : State) (crew k : Nat) (g : WordGroup) : State × Bool :=
  match s.getCrew crew with
  | none => (s, false)
  | some c =>
    match c.fib k with
    | none => (s, false)
    | some f =>
      let wait : Bool := match g.ext.guard with | some (_, p) => s.pending c.id k (128 + p.toNat) | none => false
      if !g.form.gate then (s, true)
      else if wait then (s, false)
      else if !g.ext.guardHolds f || (g.form.barred && f.tx.isSome) || (g.form.check g.ext).isSome then (s, true)
      else match g.ins with
        | .bar _ team =>
          let s1 := s.barGate crew k true team g.pc
          (s1, s1.barPasses crew k team)
        | .barw _ team =>
          let s1 := s.barGate crew k false team g.pc
          (s1, s1.barPasses crew k team)
        | .wait _ l st cp t => (s, s.waitHolds c.id k f l st cp t)
        | .tbwait _ _ a b => if (pairOf a ++ [b]).any (fun r => decide (r.toNat < 120) && s.pending c.id k r.toNat) then (s, false) else s.tbGate c k a b g.pc
        | .precv _ _ a =>
          let (s1, x) := s.precvGate crew a g.pc k
          (s1, x != .waits)
        | ins => match xfOf ins with
          | some x =>
            let (s1, y) := s.xfGate crew x g.pc k
            (s1, y != .waits)
          | none => (s, true)

/-- No CPOST of the run finds its fibre's post slot still holding a head (08_copies R194). -/
def State.slotsFree (s : State) (c : Crew) (k : Nat) (gs : List WordGroup) : Bool :=
  gs.all fun g => match g.ins with | .cpost _ _ ch => !s.slotFull c k ch | _ => true

/-- The run ends in TRACE or TEXC. -/
def endsInTrace (gs : List WordGroup) : Bool := match gs.getLast? with | some g => (match g.ins with | .trace .. | .texc .. => true | _ => false) | none => false

/-- Each fibre of a set can be given a slot by the TRACE or TEXC that ends the run (12_render R272). -/
def State.raySlotsOk (s : State) (crew : Nat) (conv : Bool) (l : List Nat) (pc : PcAddr) (gs : List WordGroup) (code : List Fetched) : Bool :=
  !endsInTrace gs || s.raySlots crew conv l pc code != some none

/-- A fibre's run is eligible (R23), its gate found to hold or not. -/
def State.fibreOk (s1 : State) (c : Crew) (k : Nat) (gs : List WordGroup) (gate : Bool) : Bool :=
  match (s1.getCrew c.id).bind fun x => (x.fib k).map fun f => (x, f) with
  | none => false
  | some (c1, f) => gate && s1.operandsOk c1 k gs && f.countsOk gs && c1.tilesOk gs && s1.slotsFree c1 k gs && !(runPipes gs && s1.appending c.id k)

/-- What a pre-scan finds pending for a fibre, to be stamped when it arrives (10_scheduling R247). -/
def State.pendingFor (s : State) (c : Crew) (k : Nat) (gs : List WordGroup) (gate : Bool) : List Nat :=
  ((runRegs gs).filterMap fun r =>
    if r.toNat < 120 then (if s.pending c.id k r.toNat then some r.toNat else none)
    else match s.readQueue c k (r.toNat - 120) 0 with | .error none => some (awaitQueue (r.toNat - 120)) | _ => none) ++
  ((runPreds gs).filter fun p => s.pending c.id k (128 + p.toNat)).map (fun p => 128 + p.toNat) ++
  ((gs.filter fun g => !c.tileOk g.form.use g.form.tile).map fun g => awaitTile g.form.tile) ++
  (match gs with
   | g :: _ => if gate then [] else (match g.ins with | .wait .. | .bar .. | .barw .. => [awaitCount] | _ => [awaitGate])
   | [] => [])

/-- The same, or a condition that no event of its own brings about. -/
def State.awaited (s : State) (c : Crew) (k : Nat) (gs : List WordGroup) (gate : Bool) : List Nat :=
  let l := s.pendingFor c k gs gate
  if l.isEmpty then [awaitGate] else l

/-- A fibre found eligible or not (R16): one that was Blocked becomes Ready at the cycle its last pending operand landed or its gate held (10_scheduling R247); a round in which it is not eligible ends its count of consecutive losses. -/
def Fibre.settled (f : Fibre) (ok : Bool) (pending : List Nat) (now : Nat) : Fibre :=
  if ok then (if f.st == .blocked then { f with st := .ready, stamp := if f.awaits.contains awaitGate then now else f.woke, awaits := [] } else f)
  else { f with st := .blocked, awaits := pending, lost := 0, woke := if f.st == .blocked then f.woke else now }

/-- Fibres in order: those eligible become or stay Ready, the others Blocked (R16). -/
def State.settleFibres (s : State) (c : Crew) (gs : List WordGroup) : List Nat → State × List Nat
  | [] => (s, [])
  | k :: r =>
    let (s1, gate) := match gs with | g :: _ => s.gateOk c.id k g | [] => (s, true)
    let ok := s1.fibreOk c k gs gate
    let s2 := s1.modFib c.id k fun f => f.settled ok (s1.awaited c k gs gate) s.cycles
    let (s3, l) := s2.settleFibres c gs r
    (s3, if ok then k :: l else l)

/-! ### Candidates -/

/-- A fibre that may start a run: resident, Ready or Blocked, with nothing to take first at its run boundary (08_copies R206, 07_transactions R183, 11_faults R255). -/
def Crew.startable (c : Crew) (f : Fibre) : Bool :=
  let due : Bool := f.uiPend.any (fun p => p.isSome) && !c.uiMasked && c.uiVec != 0 && !f.uiAct && !f.trapMode && f.tx.isNone
  f.live && (f.st == .ready || f.st == .blocked) && !f.restart && f.deferred.isNone && !due && !(match f.tx with | some t => t.failed | none => false)

/-- A candidate: ranks at one pc with one trap-mode value (R17). -/
structure Candidate where
  pc : PcAddr
  trap : Bool
  ranks : List Nat
deriving DecidableEq, Repr

/-- Candidates of some ranks. -/
def Crew.candidates (c : Crew) : List Nat → List Candidate
  | [] => []
  | k :: r =>
    let rest := c.candidates r
    match c.fib k with
    | none => rest
    | some f =>
      if rest.any fun x => x.pc == f.pc && x.trap == f.trapMode then rest.map fun x => if x.pc == f.pc && x.trap == f.trapMode then { x with ranks := k :: x.ranks } else x
      else ⟨f.pc, f.trapMode, [k]⟩ :: rest

/-- One candidate is pre-scanned: its eligible ranks, or none when it traps, is held or waits, and the words of its run. -/
def State.tryCandidate (s : State) (crew : Nat) (conv : Bool) (x : Candidate) : State × List Nat × List Fetched :=
  match s.getCrew crew with
  | none => (s, [], [])
  | some c =>
    match s.prescan c x.pc with
    | (s1, .structural pc) => ((s1.trapAll crew pc (x.ranks.map fun k => (k, ⟨.illegalOp, 0⟩))).modCrew crew Crew.fixConv, [], [])
    | (s1, .miss va host) =>
      let s2 : State := { s1 with nextId := s1.nextId + 1, misses := s1.misses ++ [⟨s1.nextId, c.ctx, va, host, if host then .atsSent else .kernel, crew, x.ranks⟩] }
      (s2.modRanks crew x.ranks fun _ f => { f with st := .held }, [], [])
    | (s1, .held) => (s1.modRanks crew x.ranks fun _ f => f.settled false [awaitGate] s1.cycles, [], [])
    | (s1, .run gs code) =>
      let (s2, l) := s1.settleFibres c gs x.ranks
      if conv && l.length != x.ranks.length then (s2, [], code)
      else if s2.raySlotsOk crew conv l x.pc gs code then (s2, l, code)
      else (s2.modRanks crew l fun _ f => f.settled false [awaitGate] s2.cycles, [], code)

/-- A Blocked fibre's next run, looked at as it stands, would be found eligible; nothing of the look stays. -/
def State.wouldGo (s : State) (c : Crew) (k : Nat) (f : Fibre) : Bool :=
  match s.prescan c f.pc with
  | (s1, .run gs code) =>
    let (s2, gate) := match gs with | g :: _ => s1.gateOk c.id k g | [] => (s1, true)
    s2.fibreOk c k gs gate && s2.raySlotsOk c.id false [k] f.pc gs code
  | _ => false

/-- A Blocked fibre whose gate, or other condition without an event of its own, has come to hold: the cycle is kept for its stamp (R16, 10_scheduling R247). -/
def State.noteGate (s : State) (c : Crew) (k : Nat) (f : Fibre) : Fibre :=
  if f.live && f.st == .blocked && f.awaits.contains awaitGate && s.wouldGo c k f then { f with awaits := [awaitHeld], woke := s.cycles } else f

/-- The same of every fibre of the resident crews. -/
def State.noteGates (s : State) : State :=
  { s with crews := s.crews.map fun c => if c.life == .resident then { c with fibres := ((List.range c.fibres.length).zip c.fibres).map fun p => s.noteGate c p.1 p.2 } else c }

/-- The key of a candidate: promoted once a fibre of it has lost 256 consecutive rounds of its lane (R247). -/
def Crew.key (c : Crew) (ranks : List Nat) : Nat × Nat × Nat × Nat := c.keyOf ranks ((ranks.filterMap fun k => c.fib k).foldl (fun m f => max m f.lost) 0)

/-- Pre-scan each candidate in turn, collecting the eligible sets with their words. -/
def State.tryAll (s : State) (crew : Nat) (conv : Bool) : List Candidate → State × List (List Nat × List Fetched)
  | [] => (s, [])
  | x :: r =>
    let (s1, l) := s.tryCandidate crew conv x
    let (s2, ls) := s1.tryAll crew conv r
    (s2, if l.1.isEmpty then ls else l :: ls)

/-- The words of a run are counted where their pages are homed (05_memory R146). -/
def State.noteFetches (s : State) (core ctx : Nat) (pc : PcAddr) (n : Nat) : State :=
  (List.range n).foldl (fun (st : State) j => match st.kernelPlace ctx (pc.toNat + 4 * j) with | some (p, _) => st.noteAccess core ctx (pc.toNat + 4 * j) p | none => st) s

/-- The slots of a run that is about to issue are held for it (12_render R272); holds of runs that have ended go. -/
def State.holdSlots (s : State) (crew ctx : Nat) (conv : Bool) (l : List Nat) (pc : PcAddr) (code : List Fetched) : State :=
  match (match code.getLast? with | some (.word bs) => (match decodeBytes bs with | .ok (.trace ..) | .ok (.texc ..) => s.raySlots crew conv l pc code | _ => none) | _ => none) with
  | some (some r) =>
    let old := s.rayHolds.filter fun h => (s.cur.toList ++ s.waiting).any fun i => i.run == h.run
    { s with free := s.free + 1024, rayHolds := old ++ r.map fun p => ⟨s.nextId, ctx, p.1, p.2.1, p.2.2⟩ }
  | _ => s

/-- The winner issues the words its pre-scan fetched (R22, 02_encoding R59): its fibres are Issuing, and the losers have lost one more round. -/
def State.issueRun (s : State) (crew : Nat) (conv : Bool) (win : List Nat) (code : List Fetched) (sets : List (List Nat × List Fetched)) : State :=
  match (s.getCrew crew).bind fun c => (c.fib (win.headD 0)).map fun f => (c, f) with
  | none => s
  | some (c, f) =>
    let lose := (sets.flatMap fun l => l.1).filter fun k => !win.contains k
    let s1 := (s.modRanks crew lose fun _ g => { g with lost := g.lost + 1 }).modRanks crew win fun _ g => { g with lost := 0, st := .issuing }
    let s2 := s1.noteFetches c.core c.ctx f.pc code.length
    { s2.holdSlots crew c.ctx conv win f.pc code with nextId := s1.nextId + 1, cur := some ⟨crew, win, conv, f.pc, f.pc, Ext.zero, s1.nextId, 0, code, 0, false⟩ }

/-- The crew resident on a lane (R12). -/
def State.crewAt (s : State) (core lane : Nat) : Option Crew :=
  s.crews.find? fun c => c.life == .resident && c.core == core && c.lane ≤ lane && lane < c.lane + (c.size + 15) / 16

/-- An issue that waits on a lane of its crew. -/
def Issue.onLane (i : Issue) (c : Crew) (lane : Nat) : Bool := i.crew == c.id && i.ranks.any fun k => c.lane + k / 16 == lane

/-- An issue that holds a lane may be tried again; one whose commit waits holds none, and goes on when its outcome can be decided (07_transactions R179). -/
def State.triable (s : State) (c : Crew) (i : Issue) : Bool := !i.commit || !(s.lookCommit c (c.outermost i.ranks)).waits

/-- Misses that the waiting commits of a lane meet are asked for (07_transactions R185). -/
def State.askCommits (s : State) (c : Crew) (lane : Nat) : State :=
  (s.waiting.filter fun i => i.commit && i.onLane c lane).foldl (fun (st : State) i => (st.lookCommit c (c.outermost i.ranks)).s) s

/-- LANE_ARBITRATION (R247, R17, R19): the issue that holds the lane is tried again, or a new one is formed. When a gate of this round completed the phase that sets the converged flag (R18), the crew issues as a whole from the next round on. -/
def execLaneArbitration (core lane : Nat) (s : State) : Out :=
  match s.crewAt core lane with
  | none => .next s
  | some c =>
    if s.cur.isSome then .next s
    else match s.waiting.find? fun i => i.onLane c lane && s.triable c i with
      | some i => .next (State.modRanks { s with cur := some i, waiting := s.waiting.filter fun x => !(x.run == i.run && x.commit == i.commit) } c.id i.ranks fun _ f => { f with st := .issuing })
      | none =>
        let s := s.askCommits c lane
        let free (k : Nat) : Bool := match c.fib k with | some f => c.startable f | none => false
        let live := c.liveSet
        let ranks := if c.converged then (if live.all free then live else []) else live.filter fun k => c.lane + k / 16 == lane && free k
        let (s1, sets) := s.tryAll c.id c.converged (c.candidates ranks)
        match s1.getCrew c.id with
        | none => .next s1
        | some c1 =>
          match bestOf (fun a b => keyLt (c1.key a.1) (c1.key b.1)) sets with
          | none => .next (s1.modCrew c.id Crew.fixConv)
          | some win => .next (if c1.converged && !c.converged then s1 else s1.issueRun c.id c.converged win.1 win.2 sets)

/-! ### Units -/

/-- UNIT_ARBITRATION (R248): the first of the waiting requests in key order is served; as its word issues, each other loses a round of that unit. -/
def execUnitArbitration (core : Nat) (unit : CoreUnit) (s : State) : Out :=
  let l := s.waiting.filter (s.requests core unit)
  if s.cur.isSome then .next s
  else match bestOf s.unitLt l with
    | none => .next s
    | some i =>
      .next { s with cur := some i, waiting := s.waiting.filter fun x => x.run != i.run,
                     unitOwner := (core, unit, i.crew) :: s.unitOwner.filter fun x => !(x.1 == core && x.2.1 == unit) }

/-! ### Run boundaries -/

/-- STEPPING_MODE_RESTART (11_faults R254): each fibre whose batch was dropped restarts at its region PC in stepping mode. -/
def execSteppingModeRestart (crew : Nat) (s : State) : Out :=
  match s.getCrew crew with
  | none => .next s
  | some c =>
    if c.life != .resident then .next s
    else
      let l := ranksOf (fun f => f.live && f.restart && f.st == .held) 0 c.fibres
      .next ((l.foldl (fun (st : State) k => st.restartFibre crew k .ready true) s).modCrew crew Crew.fixConv)

/-- DEFERRED_POISON_TRAP (R255): at the run boundary of the fibre, with no restart. -/
def execDeferredPoisonTrap (crew rank : Nat) (s : State) : Out :=
  match (s.getCrew crew).bind fun c => (c.fib rank).map fun f => (c, f) with
  | none => .next s
  | some (c, f) =>
    match f.deferred with
    | none => .next s
    | some t =>
      if c.life == .resident && f.live && (f.st == .ready || f.st == .blocked) && !f.restart then
        .next (((s.modFib crew rank fun g => { g with deferred := none }).trapEntry crew rank t f.pc).modCrew crew Crew.fixConv)
      else .next s

end Sys2Proof.Machine
end

