-- ==== Sys2Proof/Machine/Fabric.lean ====
section
/-! DEFINITION. Filsis requests and their timeouts, frozen sequences, planes, requests from other packages, NSTAT, remote work records and Millefeuille jobs (13_fabric R287 to R302). -/
namespace Sys2Proof.Machine

/-- The timeout of a context's partition, in ticks (R290). -/
def State.ctxTimeout (s : State) (ctx : Nat) : Nat := match (s.getCtx ctx).bind fun c => s.getPart c.part with | some p => p.timeout | none => 20000

/-! ### Timeouts -/

/-- A work channel of the package, by number; its descriptor's bits and their replacement. -/
def State.workChan (s : State) (chan : Nat) : Option WorkChan := s.workChans.find? fun w => w.chan == chan
def State.wcDesc (s : State) (w : WorkChan) : Nat := cellNat s.mem w.desc 64
def State.setWc (s : State) (w : WorkChan) (d : Nat) : State := s.putDesc w.desc d
/-- A counter of the descriptor moves by one (R295). -/
def bump32 (d lo : Nat) : Nat := recSet d lo 32 (recF d lo 32 + 1)
def State.wcError (s : State) (w : WorkChan) : State := s.setWc w (bump32 (s.wcDesc w) 288)

/-- A work record leaves for its receiver (R297): 128 bytes at the address of its slot there. -/
def State.sendRecord (s : State) (chan : Nat) (handle : Word) (bs : List Byte) : State :=
  match s.workChan chan with
  | none => s
  | some w =>
    let d := s.wcDesc w
    { s with responses := s.responses ++ [⟨recF d 96 10, recF d 0 64 + 128 * (handle.toNat % 2 ^ 20 % 2 ^ (recF d 128 4 + 4)), .record, bs, false⟩] }

/-- What the target may have performed of a request whose answer is lost (R290); the copies of the requester's die go by it (05_memory R139). -/
def State.targetEffect (s0 : State) (o : Op) : State :=
  let s := match o.work.spans with | p :: _ => s0.noteAccess o.core o.ctx o.va p.1 | [] => s0
  match o.work with
  | .store p bs poisoned => s.performWrite (some o.core) p bs poisoned
  | .red p kind tag x => s.reachSlice ⟨o.core, o.ctx, o.crew, o.rank, o.seqs, p, kind, tag, x, false⟩
  | .settle p => ((s.dropCopies o.core p 4).settleRange p 4).1
  | .atom p op _ tag x =>
    let (s1, old) := (s.dropCopies o.core p 4).settledWord p
    s1.performWrite (some o.core) p (natBytes 4 (atomNew op tag old x).toNat) false
  | .cas p _ e w =>
    let (s1, old) := (s.dropCopies o.core p 4).settledWord p
    if old == e then s1.performWrite (some o.core) p (natBytes 4 w.toNat) false else s1
  | .drain ps t fmt _ =>
    match (s.getCrew o.crew).bind fun c => c.tiles[t]? with
    | some tl => ((chunks 64 ps.length (tl.words.flatMap (drainBytes fmt))).zip ps).foldl (fun (st : State) p => st.performWrite (some o.core) p.2 p.1 false) s
    | none => s
  | .drained ps bs => ((chunks 64 ps.length bs).zip ps).foldl (fun (st : State) p => st.performWrite (some o.core) p.2 p.1 false) s
  | .workRecord chan h bs => s.sendRecord chan h bs
  | _ => s

/-- A remote request completes without an answer (R290, 01_execution R50); `performed` says what the target did. What a release carries is on its way either way (06_consistency R161, R172). -/
def State.timeoutOp (s : State) (o : Op) (performed : Bool) : State :=
  let s0 := if o.rel then s.release o.crew o.rank o.scope o.seqs else s
  let s1 := if performed && s.opReady o then s0.targetEffect o else s0
  let s2 : State := { s1 with frozen := s1.frozen.filter fun f => f.op != o.id }
  match o.work with
  | .load _ d n tag sh _ => s2.onesLand o 0 d n tag sh
  | .atom _ _ d tag _ => s2.onesLand o 0 d 1 tag .g
  | .cas _ d _ _ => s2.onesLand o 0 d 1 ((s2.getCrew o.crew).map (fun c => c.tagOf d) |>.getD .ui32) .g
  | .fill ps t fmt =>
    let n := ps.length * 64 / tileWidth fmt
    let w := fillWord fmt (2 ^ (8 * tileWidth fmt) - 1)
    (((s2.modTile o.crew t fun _ => ⟨.ready, List.replicate n w⟩).unmarkTile o.crew t fun _ => true).setNstatus o.crew 0 |>.wakeAll o.crew [awaitTile t]).retireOp o
  | .drain _ t _ keep => ((s2.modTile o.crew t fun x => if keep then { x with st := .ready } else Tile.zero .empty).setNstatus o.crew 2 |>.wakeAll o.crew [awaitTile t]).retireOp o
  | .workRecord chan _ _ => ((match s2.workChan chan with | some w => s2.wcError w | none => s2).setNstatus o.crew 2).retireOp o
  | _ => (s2.setNstatus o.crew 2).retireOp o

/-- The requests that wait at the source port behind a faulting one (R292). -/
def State.behind (s : State) (op : Nat) : List Op :=
  s.ops.filter fun x => x.peer.isSome && op < x.id && s.frozen.any fun f => f.op == op && f.crew == x.crew && x.ranks.contains f.rank && x.seqs.getLsbD f.seq.toNat

/-- A freeze ends (R292): what waited for it goes on. -/
def State.thaw (s : State) (op : Nat) : State := State.gcFences { s with frozen := s.frozen.filter fun f => f.op != op }

/-- A freeze ends as fatal (R292): the faulting request, where it has not been discarded, and those behind it complete under R290. -/
def State.freezeFatal (s : State) (op : Nat) : State := (((s.getOp op).toList ++ s.behind op).foldl (fun (st : State) x => st.timeoutOp x false) s).thaw op

/-- The timeout of a context has passed since the fault response of a freeze whose faulting request, a load, has been discarded since (R292, 01_execution R31). -/
def State.freezeLate (s : State) (op : Nat) : Bool :=
  s.frozen.any fun f => f.op == op && f.since + s.ctxTimeout ((s.getCrew f.crew).map (fun c => c.ctx) |>.getD 0) ≤ s.ticks

/-- REMOTE_REQUEST_TIMEOUT (R290, R292): a request on the way, or one whose freeze has lasted for the timeout, with those that wait behind it. -/
def execRemoteRequestTimeout (op : Nat) (performed : Bool) (s : State) : Out :=
  match s.getOp op with
  | none => .next (if s.freezeLate op then s.freezeFatal op else s)
  | some o =>
    if o.peer.isNone || s.ticks < o.sentAt + s.ctxTimeout o.ctx || s.frozenHeld o then .next s
    else if !o.frozen then .next (s.timeoutOp o performed)
    else .next (s.freezeFatal op)

/-! ### Frozen sequences -/

/-- SEQUENCE_FREEZE (R292): the target answers a request with a miss or a fault. -/
def execSequenceFreeze (op : Nat) (s : State) : Out :=
  match s.getOp op with
  | none => .next s
  | some o =>
    if o.peer.isNone || o.frozen || !s.opReady o then .next s
    else
      let l := o.ranks.flatMap fun k => ((List.range 16).filter fun q => o.seqs.getLsbD q).map fun q => Frozen.mk o.crew k (BitVec.ofNat 4 q) op s.ticks
      .next { s with frozen := s.frozen ++ l, ops := s.ops.map fun x => if x.id == op then { x with frozen := true, sentAt := s.ticks } else x }

/-- SEQUENCE_RESUME (R292): resume sends the faulting request again, with those behind it; a fatal answer completes them all under R290. -/
def execSequenceResume (crew rank : Nat) (seq : BitVec 4) (resumed : Bool) (s : State) : Out :=
  match s.frozen.find? fun f => f.crew == crew && f.rank == rank && f.seq == seq with
  | none => .next s
  | some f =>
    if resumed then
      let ids := f.op :: (s.behind f.op).map fun x => x.id
      .next (State.thaw { s with ops := s.ops.map fun x => if ids.contains x.id then { x with frozen := x.frozen && x.id != f.op, sentAt := s.ticks } else x } f.op)
    else .next (s.freezeFatal f.op)

/-! ### Planes -/

/-- The next live plane above one, counted cyclically (R288). -/
def nextPlane (live : List Bool) (p : Nat) : Nat := ((List.range 8).map fun i => (p + 1 + i) % 8).find? (fun q => live.getD q false) |>.getD p

/-- The pod physical addresses of a request: those of its bytes, or of the slot of a work record (R287, R295). -/
def State.requestAddrs (s : State) (o : Op) : List Nat :=
  match o.work with
  | .workRecord chan h _ => (match s.workChan chan with
    | some w => [recF (s.wcDesc w) 0 64 + 128 * (h.toNat % 2 ^ 20 % 2 ^ (recF (s.wcDesc w) 128 4 + 4))]
    | none => [])
  | w => w.spans.filterMap fun p => match p.1 with | .mem pa _ _ _ => some pa | .scratch .. => none

/-- The plane of a pod physical address (R287). -/
def State.planeOf (s : State) (pa : Nat) : Nat := s.planes.getD (recF pa 7 3) 0

/-- PLANE_REMAP (R288): the requests in flight on the dead plane time out, each performed or not by a free bit (log 1); every line on it takes the next live plane, and requests still held at their source go by it. -/
def execPlaneRemap (plane : Nat) (s : State) : Out :=
  if 8 ≤ plane || !(s.livePlanes.getD plane false) then .next s
  else
    let live := s.livePlanes.set plane false
    let on (o : Op) : Bool := s.onFilsis o && s.opSent o && (s.requestAddrs o).any fun pa => s.planeOf pa == plane
    let s1 := (s.ops.filter on).foldl (fun (st : State) o => st.bumpFree.timeoutOp o (Config.freeBit st.free)) s
    .next { s1 with livePlanes := live, planes := s.planes.map fun q => if q == plane then nextPlane live plane else q }

/-! ### Requests from other packages -/

/-- The export that grants an address to a context of another package (R289). -/
def State.exportFor (s : State) (peer ctx pa : Nat) : Option Export := s.exports.find? fun e => e.peer == peer && e.ctx == ctx && e.pa ≤ pa && pa < e.pa + e.size

/-- The place of an address on an exported page, in the page's own form (05_memory R150, R152). -/
def State.exportPlace (s : State) (e : Export) (pa : Nat) : Place := .mem (s.pkg * 2 ^ 42 + pa) (s.pkg * 2 ^ 42 + e.pa) e.sqz e.chk

/-- An answer leaves for another package. -/
def State.answer (s : State) (req : RemoteReq) (kind : Answer) (bs : List Byte) (poisoned : Bool) : State := { s with responses := s.responses ++ [⟨req.peer, req.pa, kind, bs, poisoned⟩] }

/-- A work record that another package sends lands as one write in its slot (R297); its handle names the slot. -/
def State.recordLands (s : State) (req : RemoteReq) (chan : Nat) (bs : List Byte) : State :=
  match s.recvChans.find? fun c => c.peer == req.peer && c.chan == chan with
  | some c => (s.performWrite none (kernelAt (c.ring + 128 * (bytesNat (bs.take 4) % 2 ^ 20 % 2 ^ (c.size + 4)))) ((List.range 128).map fun i => bs.getD i 0) false).answer req .done [] false
  | none => s.answer req .fatal [] false

/-- A granted request is performed at its home slice and answered (R289); a load of poisoned data is answered with its mark (05_memory R153). -/
def State.grantRequest (s : State) (req : RemoteReq) (p : Place) : State :=
  match req.kind with
  | .load n => s.answer req .done (s.homeRead p n) (s.poisonedAt p n)
  | .store bs => (s.performWrite none p bs false).answer req .done [] false
  | .atom op tag x =>
    let (s1, old) := s.settledWord p
    (s1.performWrite none p (natBytes 4 (atomNew op tag old x).toNat) false).answer req .done (natBytes 4 old.toNat) false
  | .cas e w =>
    let (s1, old) := s.settledWord p
    (if old == e then s1.performWrite none p (natBytes 4 w.toNat) false else s1).answer req .done (natBytes 4 old.toNat) false
  | .red kind tag x => (s.reachSlice ⟨0, 0, 0, 0, 0, p, kind, tag, x, false⟩).answer req .done [] false
  | .record chan bs => s.recordLands req chan bs

/-- A request of another package (R289): granted, or a miss that the kernel has still to resolve or refuse, or a fatal fault, of a write through a read-only export. Of an address outside the HBM there is no export. -/
def State.serveRequest (s : State) (req : RemoteReq) : State :=
  let write : Bool := match req.kind with | .load _ => false | _ => true
  match req.kind, s.exportFor req.peer req.ctx req.pa with
  | .record chan bs, _ => s.recordLands req chan bs
  | _, none => State.answer { s with exportMisses := s.exportMisses ++ [⟨req.peer, req.ctx, req.pa⟩] } req .miss [] false
  | _, some e => if write && !e.writable then s.answer req .fatal [] false else s.grantRequest req (s.exportPlace e req.pa)

/-- The kernel has resolved some misses of other packages, or refused them: their sources are told to resume, or of a fatal fault (R289, R292). -/
def State.settleExports (s : State) (p : ExportMiss → Bool) (kind : Answer) : State :=
  { s with
    exportMisses := s.exportMisses.filter fun m => !p m
    responses := s.responses ++ (s.exportMisses.filter p).map fun m => ⟨m.peer, m.pa, kind, [], false⟩ }

/-- TARGET_EXPORT_CHECK (R289); a page at the switch of its migration holds the request (11_faults R267), and a package whose compute dies are off answers none (14_system R313). -/
def execTargetExportCheck (s : State) : Out :=
  match takeInput (fun i => match i with | .request req => some req | _ => none) s.inputs with
  | none => .next s
  | some (req, r) => .next (if !s.powered then s.took r else if s.placeHeld (kernelAt (s.pkg * 2 ^ 42 + req.pa)) then s else (s.took r).serveRequest req)

/-! ### NSTAT -/

/-- NSTAT (R291). -/
def execNstat (e : Bool) (d a : Reg) (s : State) : Out :=
  s.engine (.nstat e d a)
    { srcs := [a], dests := [(d.toNat, .ui32)],
      check := fun _ _ _ l => if !isInt32 (opTag l 0) then trapWith .formatMismatch 0 else if recF (opnd l 0).toNat 3 29 != 0 then trapWith .illegalOp 0 else .ok (opnd l 0),
      step := fun st c _ w =>
        let old := match st.getCrew c.id with | some x => x.nstatus | none => 0
        (st.modCrew c.id fun x => { x with nstatus := x.nstatus &&& ~~~(w.setWidth 3) }, [old.setWidth 32], false) }

/-! ### Work records -/

/-- RWRES (R297). -/
def execRwres (e : Bool) (d a : Reg) (pd : PReg) (s : State) : Out :=
  s.engine (.rwres e d a pd)
    { srcs := [a], dests := [(d.toNat, .ui32)], pd := some pd,
      check := fun st c _ l =>
        if !isInt32 (opTag l 0) then trapWith .formatMismatch 0
        else match st.workChans.find? fun w => w.ctx == c.ctx && w.chan == (opnd l 0).toNat with
          | some w => .ok w.chan
          | none => trapWith .permission (opnd l 0).toNat,
      step := fun st c _ n =>
        match st.workChan n with
        | none => (st, [0], false)
        | some w =>
          let v := st.wcDesc w
          if recF v 113 1 == 0 then (st, [0], false)
          else if recF v 224 32 == 0 then (st.setWc w (bump32 v 256), [0], false)
          else
            let h : Word := BitVec.ofNat 32 (recF v 64 12 * 2 ^ 20 + recF v 192 20)
            let st1 := st.setWc w (recSet (bump32 v 192) 224 32 (recF v 224 32 - 1))
            ({ st1 with workChans := updWhere (fun x => x.chan == n) (fun x => { x with reserved := x.reserved ++ [(h, c.id)] }) st1.workChans }, [h], true) }

/-- A place in a local frame (R297, R300). -/
def State.localFrame (s : State) (p : Place) : Bool := (s.peerOf p).isNone && !p.isHost && !p.isDev

/-- The channel a context posts to by a handle; and whether the handle names a slot of it reserved and not yet posted (R297). -/
def State.handleChan (s : State) (ctx : Nat) (h : Word) : Option WorkChan := s.workChans.find? fun w => w.ctx == ctx && w.chan == h.toNat / 2 ^ 20
def State.handleOk (s : State) (ctx : Nat) (h : Word) : Bool := (s.handleChan ctx h).any fun w => w.reserved.any fun r => r.1 == h

/-- A lower executing rank of the issue posts the same handle first (R297). -/
def Turn.postsFirst (t : Turn) (c : Crew) (b : Reg) (k : Nat) (h : Word) : Bool := b.toNat < 120 && t.x.any fun j => j < k && c.elem b.toNat j == h

/-- RWPOST of one fibre (R297): the 128 bytes are read now, and the record leaves later; a handle that names no such slot posts nothing, and the instruction has passed. -/
def State.postRecord (s : State) (t : Turn) (c : Crew) (seqs : BitVec 16) (h : Hit Word) : State :=
  let past (st : State) : State := st.modFib c.id h.k fun f => f.passed .stores st.nextId
  match s.handleChan c.ctx h.v with
  | none => past s
  | some w =>
    if !(w.reserved.any fun r => r.1 == h.v) then past (s.wcError w)
    else match s.firstBad h.p 128 with
    | some i => s.modFib c.id h.k fun f => { f with deferred := some (sectorTrap (h.va / 32 * 32 + 32 * i)) }
    | none =>
      let bs := natBytes 8 h.v.toNat ++ (s.homeRead h.p 128).drop 8
      let s1 : State := { s with workChans := updWhere (fun x => x.chan == w.chan) (fun x => { x with reserved := x.reserved.filter fun r => r.1 != h.v }) s.workChans }
      (s1.release c.id h.k 4 seqs).addOp { t.op c h.k [h.k] (.workRecord w.chan h.v bs) with seqs := seqs, scope := 4, rel := true, va := h.va, n := 128, peer := some (recF (s.wcDesc w) 96 10), sentAt := s.ticks } (some .stores)

/-- RWPOST (R297). -/
def execRwpost (e : Bool) (a b : Reg) (s : State) : Out :=
  s.access (.rwpost e a b) fun s c t =>
    let seqs := seqBit (t.i.ext.seqOr 0)
    { srcs := pairOf a ++ [b], write := false, bytes := 128, atomic := true,
      check := fun _ l =>
        if !isInt32 (opTag l 2) then trapWith .formatMismatch 0
        else (s.operandAddr c .global (opnd l 0) (opnd l 1) 0 128).map fun p => Addr.mk p.1 p.2 (opnd l 2),
      dests := fun _ => [],
      extra := fun h => if s.localFrame h.p then none else some .permission,
      unread := fun st h => !st.handleOk c.ctx h.v || t.postsFirst c b h.k h.v,
      hold := fun st hits => hits.any fun h => st.seqBusy c.id h.k seqs || st.fenceHolds c.id h.k seqs,
      now := fun _ => true,
      act := fun st t1 hits => hits.foldl (fun (st : State) h => (if st.handleOk c.ctx h.v then st.noteAccess c.core c.ctx h.va h.p else st).postRecord t1 c seqs h) st }

/-- REMOTE_WORK_RECORD_LANDING (R297): one indivisible write of 128 bytes at the receiver. -/
def execRemoteWorkRecordLanding (op : Nat) (s : State) : Out :=
  match s.getOp op with
  | some o => (match o.work with
    | .workRecord chan h bs => .next (if s.opReady o then (s.sendRecord chan h bs).retireOp o else s)
    | _ => .next s)
  | none => .next s

/-- A count of consumed records (R296): the receiver's count advances; one that would raise CREDITS above the ring size is ignored. -/
def State.consume (s : State) (chan : Nat) (count : Word) : State :=
  match s.workChan chan with
  | none => s
  | some w =>
    let d := s.wcDesc w
    let c := recF d 224 32 + (count - w.consumed).toNat
    if 2 ^ (recF d 128 4 + 4) < c then s.wcError w
    else { s.setWc w (recSet d 224 32 c) with workChans := updWhere (fun x => x.chan == chan) (fun x => { x with consumed := count }) s.workChans }

/-- CONSUMED_WORD_WRITE (R296). -/
def execConsumedWordWrite (s : State) : Out :=
  match takeInput (fun i => match i with | .consumed chan count => some (chan, count) | _ => none) s.inputs with
  | none => .next s
  | some ((chan, count), r) => .next ((s.took r).consume chan count)

/-- The partition of a context holds the slice that homes an address (14_system R309). -/
def State.holdsSlice (s : State) (ctx pa : Nat) : Bool :=
  match (s.getCtx ctx).bind fun c => s.getPart c.part, (s.extent pa).home with
  | some p, some h => p.slices.contains h
  | _, _ => false

/-- A new work channel (R295): the descriptor at its reset values, on a homed page of this package, in a slice of the context's partition (14_system R309). -/
def State.createChannel (s : State) (ctx : Nat) (init : ChannelInit) : State :=
  match s.getCtx ctx with
  | none => s
  | some c =>
    if c.down || !s.holdsSlice ctx init.desc || 4096 ≤ init.chan || 12 < init.size || 1024 ≤ init.peer || init.ring % 128 != 0 || 2 ^ 64 ≤ init.ring || init.desc % 64 != 0 || paPeer init.desc != s.pkg || !inHbm (paLocal init.desc) ||
       (s.workChan init.chan).isSome then s
    else
      let d := init.ring + init.chan * 2 ^ 64 + init.peer * 2 ^ 96 + bit01 init.ethernet * 2 ^ 112 + 2 ^ 113 + init.size * 2 ^ 128 + 2 ^ (init.size + 4) * 2 ^ 224
      let s1 := s.kernelStore init.desc (natBytes 64 d)
      { s1 with workChans := s1.workChans ++ [⟨init.chan, ctx, init.desc, [], 0⟩] }

/-- WORK_CHANNEL_CREATION (R295). -/
def execWorkChannelCreation (s : State) : Out :=
  match takeInput (fun i => match i with | .workChannel ctx init => some (ctx, init) | _ => none) s.inputs with
  | none => .next s
  | some ((ctx, init), r) => .next ((s.took r).createChannel ctx init)

/-! ### Millefeuille: the arithmetic of R301 -/

/-- A tile, or the elements of a sum, as a job works on it: colour or S values in F32, depths in F32, counts. -/
structure MData where
  col : List Nat
  dep : List Nat
  cnt : List Nat
deriving DecidableEq, Repr

/-- Bytes of a compositing tile (12_render R285). -/
def tileSize : Nat := 57344
/-- An exact value of one format in another, rounded RNE. -/
def refmt (a b : Fmt) (x : Nat) : Nat := (b.round (a.value x) .rne false).1
/-- A colour that is copied (R301): an F16 value as F32 and back, a NaN with its payload. -/
def f16Up (x : Nat) : Nat := if (fF16.value x).isNan then x / 2 ^ 15 % 2 * 2 ^ 31 + 0x7F800000 + x % 2 ^ 10 * 2 ^ 13 else refmt fF16 fF32 x
def f16Down (x : Nat) : Nat := if (fF32.value x).isNan then x / 2 ^ 31 % 2 * 2 ^ 15 + 0x7C00 + x / 2 ^ 13 % 2 ^ 10 else refmt fF32 fF16 x
def f32Round (x : Ex) : Nat := (fF32.round x .rne false).1
def elemsOf (n : Nat) (bs : List Byte) : List Nat := (chunks n bs.length bs).map bytesNat

/-- The leaf of a member (R301). -/
def mLeaf (op : Nat) (bs : List Byte) : MData :=
  if op == 3 then ⟨(elemsOf 2 bs).map (refmt fBF16 fF32), [], []⟩
  else if op == 4 then ⟨elemsOf 4 bs, [], []⟩
  else
    let col := (elemsOf 2 (bs.take 32768)).map (if op == 0 then f16Up else refmt fF16 fF32)
    let dep := elemsOf 4 ((bs.drop 32768).take 16384)
    let cnt := elemsOf 2 (bs.drop 49152)
    if op == 2 then ⟨((chunks 4 col.length col).zip cnt).flatMap (fun p => p.1.map fun x => f32Round ((fF32.value x).mul (Ex.ofInt p.2)).1), dep, cnt⟩ else ⟨col, dep, cnt⟩

/-- Whether depth y wins over depth x (R301): a NaN loses to all, x on a tie. -/
def depthWins (x y : Nat) : Bool :=
  let a := fF32.value x
  let b := fF32.value y
  if a.isNan then !b.isNan else !b.isNan && b.below a

/-- Pairs of pixels with their depths and four channels. -/
def pixels (x : MData) : List (List Nat × Nat) := (chunks 4 x.col.length x.col).zip x.dep

/-- 1 − α of a pixel, exactly. -/
def overWeight (px : List Nat) : Ex := ((Ex.ofInt 1).add (fF32.value (px.getD 3 0)).neg .rne).1

/-- op(x, y) of R301. -/
def mCombine (op : Nat) (x y : MData) : MData :=
  let cnt := (x.cnt.zip y.cnt).map fun p => p.1 + p.2
  let minDep := (x.dep.zip y.dep).map fun p => if depthWins p.1 p.2 then p.2 else p.1
  let sum := (x.col.zip y.col).map fun p => f32Round ((fF32.value p.1).add (fF32.value p.2) .rne).1
  match op with
  | 0 =>
    let l := ((pixels x).zip (pixels y)).map fun p => if depthWins p.1.2 p.2.2 then p.2 else p.1
    ⟨l.flatMap fun p => p.1, l.map fun p => p.2, cnt⟩
  | 1 =>
    let pixelOver (p : (List Nat × Nat) × (List Nat × Nat)) : List Nat :=
      (p.1.1.zip p.2.1).map fun q => f32Round ((fF32.value q.1).add ((overWeight p.1.1).mul (fF32.value q.2)).1 .rne).1
    ⟨((pixels x).zip (pixels y)).flatMap pixelOver, minDep, cnt⟩
  | 2 => ⟨sum, minDep, cnt⟩
  | _ => ⟨sum, [], []⟩

/-- Squeeze and unsqueeze blocks of 32 consecutive values (R301). -/
def mSqueeze (ty : SqzType) (sqz : Nat) (l : List Nat) : List Nat :=
  if sqz == 0 then l
  else (chunks 32 l.length l).flatMap fun b =>
    let r := squeeze ty (sqzMag ty sqz) b
    unsqueeze ty (sqzMag ty sqz) r.1 r.2

/-- The combination over positions: FoldTree or left to right (R301, 03_arithmetic R114). -/
def mFold (op algo sqz : Nat) (l : List MData) : MData :=
  let sq (x : MData) : MData := { x with col := mSqueeze .f32 sqz x.col }
  if algo == 0 then (foldTree (fun x y => mCombine op x (sq y)) 11 l).headD ⟨[], [], []⟩
  else match l with
    | [] => ⟨[], [], []⟩
    | x :: r => r.foldl (fun a y => mCombine op (sq a) y) x

/-- The bytes of the result (R301). -/
def mResult (op sqz : Nat) (x : MData) : List Byte :=
  if op == 3 then (mSqueeze .bf16 sqz (x.col.map (refmt fF32 fBF16))).flatMap (natBytes 2)
  else if op == 4 then (mSqueeze .f32 sqz x.col).flatMap (natBytes 4)
  else
    let mean (p : List Nat × Nat) : List Nat := p.1.map fun s => if p.2 == 0 then 0 else (fF16.round ((fF32.value s).div (Ex.ofInt p.2)) .rne false).1
    let col := if op == 2 then ((chunks 4 x.col.length x.col).zip x.cnt).flatMap mean else x.col.map (if op == 0 then f16Down else refmt fF32 fF16)
    (mSqueeze .f16 sqz col).flatMap (natBytes 2) ++ x.dep.flatMap (natBytes 4) ++ x.cnt.flatMap fun n => natBytes 2 (min n 65535)

/-- The result of a job from every position's bytes, a tile at a time (R301). -/
def mJob (op algo sqz : Nat) (data : List (List Byte)) : List Byte :=
  if op < 3 then
    let tiles := data.map fun b => chunks tileSize b.length b
    (List.range (tiles.headD []).length).flatMap fun i => mResult op sqz (mFold op algo sqz (tiles.map fun t => mLeaf op (t.getD i [])))
  else mResult op sqz (mFold op algo sqz (data.map (mLeaf op)))

/-! ### Millefeuille: jobs -/

/-- Fields of a job record (R300). -/
def jbSrc (r : Nat) : Nat := recF r 0 64
def jbDst (r : Nat) : Nat := recF r 64 64
def jbBar (r : Nat) : Nat := recF r 128 64
def jbOrder (r : Nat) : Nat := recF r 192 64
def jbCount (r : Nat) : Nat := recF r 256 32
def jbSeq (r : Nat) : Nat := recF r 288 16
def jbGroup (r : Nat) : Nat := recF r 304 8
def jbRoot (r : Nat) : Nat := recF r 312 10
def jbSqz (r : Nat) : Nat := recF r 322 2
def jbAlgo (r : Nat) : Nat := recF r 324 1
def jbOp (r : Nat) : Nat := recF r 325 3
def jbMerge (r : Nat) : Bool := jbOp r < 3

/-- NETJOB (R300): the record is on a local frame; the job joins those posted. -/
def execNetjob (e : Bool) (a : Reg) (s : State) : Out :=
  s.access (.netjob e a) fun s c t =>
    let seqs := seqBit (t.i.ext.seqOr 0)
    { srcs := pairOf a, write := false, bytes := 128, atomic := true,
      check := fun _ l => (s.operandAddr c .global (opnd l 0) (opnd l 1) 0 128).map fun p => Addr.mk p.1 p.2 (),
      dests := fun _ => [],
      extra := fun h => if s.localFrame h.p then none else some .permission,
      hold := fun st hits => hits.any fun h => st.seqBusy c.id h.k seqs || st.fenceHolds c.id h.k seqs,
      now := fun _ => true,
      act := fun st t1 hits =>
        let one (st : State) (h : Hit Unit) : State :=
          let st1 := (st.noteAccess c.core c.ctx h.va h.p).release c.id h.k 4 seqs
          let id := st1.nextId
          let st2 := st1.addOp { t1.op c h.k [h.k] (.job id) with scope := 4, rel := true, va := h.va, n := 128, sentAt := st1.ticks } (some .copies)
          { st2 with jobs := st2.jobs ++ [⟨id, id, c.ctx, c.id, h.k, h.va, bytesNat (st2.homeRead h.p 128), false, [], [], []⟩] }
        hits.foldl one st }

def State.group (s : State) (ctx num : Nat) : Option Group := s.groups.find? fun g => g.num == num && g.ctx == ctx

/-- A well-formed job record (R300). -/
def State.jobOk (s : State) (j : Job) : Bool :=
  let r := j.record
  let bar : Bool := match s.getCrew j.crew with | some c => s.barOk c (jbBar r) | none => true
  match s.group j.ctx (jbGroup r) with
  | none => false
  | some g =>
    recF r 344 680 == 0 && recF r 330 6 == 0 && decide (jbOp r < 5) && jbSqz r != 3 && (jbAlgo r == 1 || 2 ^ Nat.log2 g.nranks == g.nranks) &&
    (if jbMerge r then decide (1 ≤ jbCount r) && decide (jbCount r ≤ 65535) && decide (jbRoot r < g.nranks) && globalForm (jbSrc r) 128 && (g.rank != jbRoot r || globalForm (jbDst r) 128)
     else jbCount r % 32 == 0 && globalForm (jbSrc r) 1 && globalForm (jbDst r) 1) && (jbOp r != 1 || globalForm (jbOrder r) 1) && bar

/-- Bytes each member gives. -/
def jbBytes (r : Nat) : Nat := jbCount r * (if jbMerge r then tileSize else if jbOp r == 3 then 2 else 4)

/-- A core of the die a job's accesses are counted for (05_memory R146): the poster's (log 80). -/
def State.jobCore (s : State) (j : Job) : Nat := match s.getCrew j.crew with | some c => c.core | none => 0

/-- A long read for a context, page by page; `fuel` counts the pages. -/
def State.unitBytes (core ctx : Nat) : Nat → State → Nat → Nat → State × UnitRead
  | 0, s, _, _ => (s, .ok [])
  | k + 1, s, va, n =>
    if n == 0 then (s, .ok []) else
    let m := min n (65536 - va % 65536)
    match s.unitPiece core ctx va m with
    | (s1, .ok bs) => match State.unitBytes core ctx k s1 (va + m) (n - m) with
      | (s2, .ok l) => (s2, .ok (bs ++ l))
      | x => x
    | x => x

/-- Another post of a job's number has started and not yet ended (16_ref R360). -/
def State.jobRuns (s : State) (j : Job) : Bool := s.jobs.any fun x => x.started && x.id != j.id && x.ctx == j.ctx && jbGroup x.record == jbGroup j.record && jbSeq x.record == jbSeq j.record

/-- A job ends (R302): OWN = 0 with ERR and CODE, the barrier's arrival or poison, the operation done, the group's next job. -/
def State.endJob (s : State) (j : Job) (code : Nat) (poison : Option Nat) : State :=
  let s1 := s.hwWrite j.ctx (j.at_ + 41) (natBytes 2 ((if code == 0 then 0 else 2) + 256 * code))
  let s2 := match s1.getCrew j.crew with
    | some c => if s1.barOk c (jbBar j.record) then s1.recordBar c (jbBar j.record) (match poison with | some p => .poison p | none => .arrive) else s1
    | none => s1
  let s3 := match s2.getOp j.op with | some o => s2.retireOp o | none => s2
  let mine (g : Group) : Bool := g.num == jbGroup j.record && g.ctx == j.ctx && g.jobSeq % 65536 == jbSeq j.record && !s.jobRuns j
  { s3 with jobs := s3.jobs.filter (fun x => x.id != j.id), groups := updWhere mine (fun g => { g with jobSeq := g.jobSeq + 1 }) s3.groups }

/-- What the end of a job waits for: the page of its barrier (08_copies R199, 11_faults R267). -/
def State.jobWaits (s : State) (j : Job) : Option State :=
  match s.getCrew j.crew with
  | some c => if engineForm (jbBar j.record) && jbBar j.record % 16 == 0 then s.barWaits c.core c (jbBar j.record) else none
  | none => none

/-- Write what a job has for its destination, a sector at a time, at the places found for it; a sector is written where a test says so. -/
def State.writeSectors (s : State) (core ctx va : Nat) (l : Span) (test : State → Bool) (bs : List Byte) : State :=
  (List.range ((va % 32 + bs.length + 31) / 32)).foldl (fun (st : State) i =>
    let lo := max va (va / 32 * 32 + 32 * i)
    let hi := min (va + bs.length) (va / 32 * 32 + 32 * i + 32)
    match l.at_ lo with
    | some p => State.bumpFree (if test st then st.unitWrite none core ctx lo p ((bs.drop (lo - va)).take (hi - lo)) else st)
    | none => st) s

/-- Source bytes of a job at its end: those read at its start, and those that have changed since, by a free bit for each (R302). -/
def mixSource (free : Nat) (own now : List Byte) : List Byte :=
  (List.range own.length).map fun i => if Config.freeBit (free + i) then now.getD i (own.getD i 0) else own.getD i 0

/-- What a job writes at this package (R301), and the state when its source has been looked at again. -/
def State.jobOut (s : State) (g : Group) (j : Job) : State × List Byte :=
  let r := j.record
  let own := match State.unitBytes (s.jobCore j) j.ctx (j.own.length / 65536 + 2) s (jbSrc r) j.own.length with
    | (_, .ok now) => mixSource s.free j.own now
    | _ => j.own
  let data (k : Nat) : List Byte := if k == g.rank then own else match j.members.find? fun m => m.rank == k with | some m => m.data | none => []
  let pos := if jbOp r == 1 then j.order else List.range g.nranks
  ({ s with free := s.free + own.length + 1 }, if !jbMerge r || g.rank == jbRoot r then mJob (jbOp r) (jbAlgo r) (jbSqz r) (pos.map data) else [])

/-- The destination of a job overlaps its source (R302). -/
def Job.overlaps (j : Job) (out : List Byte) : Bool := !out.isEmpty && jbSrc j.record < jbDst j.record + out.length && jbDst j.record < jbSrc j.record + j.own.length

/-- What a destination that overlaps its source ends with (R302): each byte one of the source before the job or one that the job wrote, by a free value (log 1). -/
def blurred (free : Nat) (own out : List Byte) : List Byte := (List.range out.length).map fun i => pick (own ++ out) 0 (free + i)

/-- The writes of a job at its end, at the places found for them (R302): after an error each sector holds its previous value or the job's, by a free bit (log 1). -/
def State.writeJob (s : State) (j : Job) (whole : Bool) (l : Span) (out : List Byte) : State :=
  let bs := if j.overlaps out then blurred s.free j.own out else out
  State.writeSectors (if j.overlaps out then { s with free := s.free + out.length } else s) (s.jobCore j) j.ctx (jbDst j.record) l (fun st => whole || Config.freeBit st.free) bs

/-- The places of a job's destination, found for its writes. -/
def State.jobSpan (s : State) (j : Job) (out : List Byte) : State × SpanAt := spanFrom (fun st va => st.unitAt j.ctx va true) (out.length / 65536 + 2) s (jbDst j.record) out.length

/-- The pages of a range that take a write now. -/
def State.openPages (s : State) (ctx : Nat) : Nat → Nat → Nat → Span
  | 0, _, _ => []
  | k + 1, va, n =>
    if n == 0 then [] else
    let m := min n (65536 - va % 65536)
    let rest := s.openPages ctx k (va + m) (n - m)
    match (s.unitAt ctx va true).2 with
    | .ok p => (some p, va, m) :: rest
    | _ => rest

/-- A job ends in an error once it has started: what it has written by then (R302). -/
def State.partialJob (s : State) (j : Job) : State :=
  match s.group j.ctx (jbGroup j.record), j.started with
  | some g, true => let (s1, out) := s.jobOut g j; s1.writeJob j false (s1.openPages j.ctx (out.length / 65536 + 2) (jbDst j.record) out.length) out
  | _, _ => s

/-- A fault of a job (R302, 08_copies R205): CODE, and the barrier's poison. -/
def faultCode (c : Cause) : Nat × Nat := (2, if c == .permission then 4 else 2)

/-- A permutation of the ranks. -/
def isPerm (n : Nat) (l : List Nat) : Bool := l.length == n && (List.range n).all fun i => l.contains i

/-- A job that was posted with OWN = 0, or with a JOBSEQ that its group has run already, in the half of the numbers behind the next one (16_ref R360; log 68). -/
def Group.repeated (g : Group) (j : Job) : Bool :=
  let back := (g.jobSeq + 65536 - jbSeq j.record) % 65536
  recF j.record 328 1 == 0 || (1 ≤ back && back ≤ min g.jobSeq 32768)

/-- The job of a group whose turn it is (R299). -/
def State.turnJob (s : State) (g : Group) : Option Job := s.jobs.find? fun j => j.ctx == g.ctx && !j.started && jbGroup j.record == g.num && jbSeq j.record == g.jobSeq % 65536 && !g.repeated j && !s.jobRuns j && s.jobOk j

/-- The job starts with every member's data (R301): this member's own in its rank. -/
def State.runJob (s : State) (j : Job) (members : List JobMember) (own : List Byte) (order : List Nat) : State :=
  let r := j.record
  let agree (m : JobMember) : Bool := m.op == jbOp r && m.algo == jbAlgo r && m.sqz == jbSqz r && m.root == jbRoot r && m.count == jbCount r && (jbOp r != 1 || m.order == order)
  if !(members.all agree) then s.endJob j 5 none
  else { s with jobs := updWhere (fun x => x.id == j.id) (fun x => { x with started := true, own := own, members := members, order := order }) s.jobs }

/-- The start of a job (R299, R300, R301), and whether the members' data were taken: every other member has posted its record, as `members` says. -/
def State.startJob (s : State) (group : Nat) (members : List JobMember) : State × Bool :=
  match s.groups.find? fun g => g.num == group && (s.turnJob g).isSome with
  | none => (s, false)
  | some g =>
    match s.turnJob g with
    | none => (s, false)
    | some j =>
      let r := j.record
      match s.jobWaits j with
      | some s1 => (s1, false)
      | none =>
      let others := (List.range g.nranks).filter fun k => k != g.rank
      if !(others.all fun k => (members.filter fun m => m.rank == k).length == 1) then (s, false)
      else
        let nOrder := if jbOp r == 1 then 2 * g.nranks else 0
        match State.unitBytes (s.jobCore j) j.ctx (nOrder / 65536 + 2) s (jbOrder r) nOrder with
        | (_, .miss va h) => (s.unitMiss j.ctx va h, false)
        | (_, .held) => (s, false)
        | (s1, .poison) => (s1.endJob j 3 (some 5), true)
        | (s1, .bad c) => (s1.endJob j (faultCode c).1 (some (faultCode c).2), true)
        | (s1, .ok ob) =>
          let order := elemsOf 2 ob
          if jbOp r == 1 && !isPerm g.nranks order then (s1.endJob j 1 (some 1), true)
          else match State.unitBytes (s.jobCore j) j.ctx (jbBytes r / 65536 + 2) s1 (jbSrc r) (jbBytes r) with
            | (_, .miss va h) => (s.unitMiss j.ctx va h, false)
            | (_, .held) => (s, false)
            | (s2, .poison) => (s2.endJob j 3 (some 5), true)
            | (s2, .bad c) => (s2.endJob j (faultCode c).1 (some (faultCode c).2), true)
            | (s2, .ok own) => (s2.runJob j (members.filter fun m => m.rank != g.rank) own order, true)

/-- MILLEFEUILLE_JOB_START (R299 to R301). -/
def execMillefeuilleJobStart (s : State) : Out :=
  match takeInput (fun i => match i with | .members group members => some (group, members) | _ => none) s.inputs with
  | none => .next s
  | some ((group, members), r) =>
    let (s1, taken) := s.startJob group members
    .next (if taken then s1.took r else s1)

/-- MILLEFEUILLE_JOB_COMPLETION (R302): every byte written at this package is performed; a malformed record ends at once, and so does a repeated one, with CODE 5 (16_ref R360). -/
def execMillefeuilleJobCompletion (job : Nat) (s : State) : Out :=
  match s.jobs.find? fun j => j.id == job with
  | none => .next s
  | some j =>
    match s.jobWaits j with
    | some s1 => .next s1
    | none =>
      match s.group j.ctx (jbGroup j.record), j.started with
      | some g, true =>
        let (s0, out) := s.jobOut g j
        (match s0.jobSpan j out with
        | (s1, .miss va h) => .next (s1.askMiss j.ctx va h)
        | (_, .held) => .next s
        | (_, .bad c) => .next ((s.partialJob j).endJob j (faultCode c).1 (some (faultCode c).2))
        | (s1, .ok l) => .next ((s1.writeJob j true l out).endJob j 0 none))
      | some g, false => .next (if !s.jobOk j then s.endJob j 1 (some 1) else if g.repeated j then s.endJob j 5 none else s)
      | none, _ => .next (s.endJob j 1 (some 1))

/-- MILLEFEUILLE_MEMBER_TIMEOUT (R302): CODE 4, the barrier unpoisoned. -/
def execMillefeuilleMemberTimeout (job : Nat) (s : State) : Out :=
  match s.jobs.find? fun j => j.id == job with
  | none => .next s
  | some j =>
    let since := match s.getOp j.op with | some o => o.sentAt | none => 0
    if s.ticks < since + s.ctxTimeout j.ctx || !s.jobOk j || (!j.started && (s.jobRuns j || (s.group j.ctx (jbGroup j.record)).any fun g => g.repeated j)) then .next s
    else match s.jobWaits j with
      | some s1 => .next s1
      | none => .next ((s.partialJob j).endJob j 4 none)

/-- A new group (R299). -/
def State.createGroup (s : State) (ctx : Nat) (init : GroupInit) : State :=
  match s.getCtx ctx with
  | none => s
  | some c =>
    if c.down || 256 ≤ init.num || init.nranks == 0 || 1024 < init.nranks || init.nranks ≤ init.rank || init.members.length != init.nranks || (init.members.getD init.rank (s.pkg, false)).1 != s.pkg || s.groups.any (fun g => g.num == init.num) then s
    else { s with groups := s.groups ++ [⟨init.num, ctx, init.nranks, init.rank, init.members, 0⟩] }

/-- GROUP_CREATION (R299). -/
def execGroupCreation (s : State) : Out :=
  match takeInput (fun i => match i with | .group ctx init => some (ctx, init) | _ => none) s.inputs with
  | none => .next s
  | some ((ctx, init), r) => .next ((s.took r).createGroup ctx init)

end Sys2Proof.Machine
end

