-- ==== Sys2Proof/Machine/Faults.lean ====
section
/-! DEFINITION. Walks, the resolution of misses, host translations, teardown on request, and the migration of pages (11_faults R259 to R267, 05_memory R146). -/
namespace Sys2Proof.Machine

/-! ### Walks -/

/-- PAGE_WALK (R264): a walk for an access of a core ends in a leaf that no TLB holds, marks it accessed and fills the TLBs; a miss or malformed entry is not cached. -/
def execPageWalk (core ctx : Nat) (va : PcAddr) (s : State) : Out :=
  match s.getCtx ctx with
  | none => .next s
  | some c =>
    if Config.cores ≤ core || c.down || (s.tlbFind core c.asid va.toNat).isSome then .next s
    else match s.walk ctx va.toNat with
      | .leaf at_ pte bits =>
        if s.leafBad pte bits then .next s
        else
          let pte1 := recSet pte 13 1 1
          .next (State.tlbFill (if pte1 == pte then s else s.kernelStore at_ (natBytes 8 pte1)) core c.asid va.toNat pte1 bits)
      | _ => .next s

/-! ### Resolution of misses -/

/-- A miss is answered "mapped" (R259): its fibres are Ready at their region PC. -/
def State.answerMiss (s : State) (m : Miss) : State :=
  (State.modRanks { s with misses := s.misses.filter fun x => x.id != m.id } m.crew m.ranks fun _ f =>
    if f.st == .held && !f.restart then { f with st := .ready, stamp := s.cycles } else f).modCrew m.crew Crew.fixConv

/-- A miss is answered "refused" (R259): the access raises Translation when it is made again, and that uses the refusal up. -/
def State.refuseMiss (s : State) (m : Miss) : State :=
  State.answerMiss { s with refused := if s.refused.contains ⟨m.ctx, m.va / 65536⟩ then s.refused else ⟨m.ctx, m.va / 65536⟩ :: s.refused } m

/-- An address lies in a range that the context's memory map declares backed (R259). -/
def Context.backs (c : Context) (va : Nat) : Bool := c.backed.any fun r => r.1 ≤ va && va < r.1 + r.2

/-- A page lies on a page at the switch of its migration: the miss is answered when its entry is valid again (R259, R267). -/
def State.switchingAt (s : State) (ctx va : Nat) : Bool := s.migrations.any fun m => m.st == .switching && m.ctx == ctx && m.va ≤ va && va < m.va + m.size

/-- The entries the kernel writes: 8 bytes each, in the HBM of this package. -/
def State.kernelWrites (s : State) (writes : List (Nat × DWord)) : State :=
  (writes.filter fun w => paPeer w.1 == s.pkg && inHbm (paLocal w.1) && w.1 % 8 == 0).foldl
    (fun (st : State) w => st.kernelStore w.1 (natBytes 8 w.2.toNat)) s

/-- MISS_RESOLUTION (R259): a backed address is answered once the entries written make it valid, every other address is refused. -/
def execMissResolution (miss : Nat) (writes : List (Nat × DWord)) (s : State) : Out :=
  match s.misses.find? fun m => m.id == miss with
  | none => .next s
  | some m =>
    if m.st != .kernel || s.switchingAt m.ctx m.va then .next s
    else match s.walk m.ctx m.va with
      | .missing _ =>
        if (match s.getCtx m.ctx with | some c => c.backs m.va | none => false) then
          let s1 := s.kernelWrites writes
          match s1.walk m.ctx m.va with
          | .missing _ => .next s
          | _ => .next (s1.answerMiss m)
        else .next (s.refuseMiss m)
      | _ => .next (s.answerMiss m)

/-- ATS_COMPLETION (R259): a page reported not present goes on to a PRI page request. No answer comes while the host link is down. -/
def execAtsCompletion (miss : Nat) (present : Bool) (s : State) : Out :=
  match s.misses.find? fun m => m.id == miss with
  | none => .next s
  | some m =>
    if m.st != .atsSent || s.hostLost then .next s
    else if present then
      let page := (m.ctx, m.va / 65536)
      .next (State.answerMiss { s with hostMapped := if s.hostMapped.contains page then s.hostMapped else page :: s.hostMapped } m)
    else .next { s with misses := updWhere (fun x => x.id == miss) (fun x => { x with st := .priSent }) s.misses }

/-- PRI_RESPONSE (R259): Success repeats the ATS request, any other response refuses. -/
def execPriResponse (miss : Nat) (success : Bool) (s : State) : Out :=
  match s.misses.find? fun m => m.id == miss with
  | none => .next s
  | some m =>
    if m.st != .priSent || s.hostLost then .next s
    else if success then .next { s with misses := updWhere (fun x => x.id == miss) (fun x => { x with st := .atsSent }) s.misses }
    else .next (s.refuseMiss m)

/-- ATS_INVALIDATION_REQUEST (R265): it completes once every access through the matching translations has performed, and they are dropped. -/
def execAtsInvalidationRequest (pasid : BitVec 20) (va : PcAddr) (size : Nat) (s : State) : Out :=
  let lo := va.toNat
  let cs := s.contexts.filter fun c => c.pasid == pasid.toNat
  let has (k : Nat) : Bool := cs.any fun c => c.id == k
  let page (a b : Nat) : Bool := a < lo + size && lo < b
  let hit (e : TlbEntry) : Bool := cs.any (fun c => c.asid == e.asid) && inHost (paLocal (pteFrame e.pte)) && page (e.page * 2 ^ e.bits) (e.page * 2 ^ e.bits + 2 ^ e.bits)
  let within := (lo / 65536 * 65536, lo + size) :: (s.tlb.filter hit).map fun e => (e.page * 2 ^ e.bits, e.page * 2 ^ e.bits + 2 ^ e.bits)
  let busy := s.ops.any fun o => has o.ctx && o.host && within.any fun r => o.va < r.2 && r.1 < o.va + max o.n 1
  if busy then .next s
  else
    .next { s with
      hostMapped := s.hostMapped.filter fun p => !(has p.1 && page (p.2 * 65536) (p.2 * 65536 + 65536))
      tlb := s.tlb.filter fun e => !hit e }

/-- TEARDOWN (R260): requested by system software. -/
def execTeardown (ctx : Nat) (s : State) : Out := .next (s.teardown ctx 0xFFFFFFFF)

/-! ### Migration -/

/-- Physical ranges share a byte. -/
def rangesMeet (a n b k : Nat) : Bool := a < b + k && b < a + n

/-- The accesses counted for a die in one of the 64 KiB of a page (05_memory R146). -/
def State.crossed (s : State) (frame size die : Nat) : Bool :=
  s.accessCounts.any fun x => frame ≤ x.1 * 65536 && x.1 * 65536 < frame + size && x.2.1 == die && s.migThreshold < x.2.2

/-- What the tables of a context hold, from a table at a level that maps from a virtual address: their own addresses, and the leaf entries, each with its address and page bits (R263). -/
def State.tables (s : State) : Nat → Nat → Nat → Nat → List Nat × List (Nat × Nat × Nat)
  | 0, _, _, _ => ([], [])
  | fuel + 1, level, table, base =>
    (List.range (if level == 5 then 32 else 512)).foldl (fun (acc : List Nat × List (Nat × Nat × Nat)) i =>
      let e := cellNat s.mem (s.pkg * 2 ^ 42 + table + 8 * i) 8
      let va := base + i * 2 ^ levelLo level
      if e % 2 == 0 then acc
      else if e / 2 % 2 == 1 then (if 3 ≤ level then (acc.1, (va, e, levelLo level) :: acc.2) else acc)
      else
        let q := s.tables fuel (level + 1) (recF e 8 34 * 256) va
        (q.1 ++ acc.1, q.2 ++ acc.2)) ([table], [])

/-- The same of a context from its root. -/
def State.ctxTables (s : State) (c : Context) : List Nat × List (Nat × Nat × Nat) := s.tables 5 1 c.ptroot 0

/-- A context's tables lie in a physical range, or map it. -/
def State.rangeInUse (s : State) (a n : Nat) : Bool :=
  (s.contexts.filter fun c => !c.down).any fun c =>
    let t := s.ctxTables c
    (t.1.any fun x => rangesMeet (s.pkg * 2 ^ 42 + x) 4096 a n) || t.2.any fun l => rangesMeet (pteFrame l.2.1) (2 ^ l.2.2) a n

/-- A new frame that keeps the page's homing and squeeze type, in the HBM of the die, and that nothing maps (R146; log 29). -/
def State.frameFits (s : State) (pte frame size die : Nat) : Bool :=
  let f := s.pkg * 2 ^ 42 + frame
  let e := s.extent f
  inHbm frame && frame % size == 0 && !s.rangeInUse f size && e.ty == (s.extent (pteFrame pte)).ty && e.home.isSome == (recF pte 10 1 == 1) &&
  (match e.home with | some h => h / 16 == die | none => recF frame 37 2 == die)

/-- No condition of R146 bars the move. -/
def State.mayMove (s : State) (pte size : Nat) : Bool :=
  let f := pteFrame pte
  pteMode pte == 3 && recF pte 12 1 == 0 && recF pte 11 1 == 0 && !inHost (paLocal f) && !inDev (paLocal f) &&
  !(s.crumbs.any fun c => c.armed && c.region.any fun r => rangesMeet r.1 r.2 f size)

/-- MIGRATION_START (R267): a die's count crosses the threshold, and a new frame is allocated (log 29). -/
def execMigrationStart (ctx : Nat) (va : PcAddr) (die frame : Nat) (s : State) : Out :=
  match s.walk ctx va.toNat with
  | .leaf at_ pte bits =>
    let size := 2 ^ bits
    let f := pteFrame pte
    let new := s.pkg * 2 ^ 42 + frame
    let taken := s.migrations.any fun m => rangesMeet m.old m.size f size || rangesMeet m.new m.size f size || rangesMeet m.new m.size new size || rangesMeet m.old m.size new size
    if s.leafBad pte bits || !s.mayMove pte size || 4 ≤ die || !s.crossed f size die || !s.frameFits pte frame size die || rangesMeet f size new size || taken then .next s
    else .next { s with
      nextId := s.nextId + 1
      accessCounts := s.accessCounts.filter fun x => !(f ≤ x.1 * 65536 && x.1 * 65536 < f + size)
      refused := s.refused.filter fun r => !(r.ctx == ctx && r.va / 2 ^ (bits - 16) == va.toNat / 2 ^ bits)
      migrations := s.migrations ++ [⟨s.nextId, ctx, va.toNat / size * size, at_, f, new, size, .copying, [], 1, []⟩] }
  | _ => .next s

/-- A place on the old frame, on the new one. -/
def Migration.place (m : Migration) (p : Place) : Place :=
  match p with
  | .mem pa frame sqz chk => if m.old ≤ pa && pa < m.old + m.size then .mem (pa - m.old + m.new) (frame - m.old + m.new) sqz chk else p
  | .scratch .. => p

/-- An address of the old frame, on the new one. -/
def Migration.addr (m : Migration) (pa : Nat) : Nat := if m.old ≤ pa && pa < m.old + m.size then pa - m.old + m.new else pa

/-- What the package holds by its physical address moves with its page: descriptors (09_crumbs R222, 10_scheduling R231, 13_fabric R295), the receiving side of a channel, the doorbell of a session. -/
def State.moveObjects (s : State) (m : Migration) : State :=
  { s with
    taskQueues := s.taskQueues.map fun q => { q with desc := m.addr q.desc }
    userQueues := s.userQueues.map fun q => { q with desc := m.addr q.desc }
    workChans := s.workChans.map fun w => { w with desc := m.addr w.desc }
    recvChans := s.recvChans.map fun c => { c with ring := m.addr c.ring, word := m.addr c.word }
    sessions := s.sessions.map fun x => { x with doorbell := m.addr x.doorbell } }

/-- An operation on the old frame, on the new one. -/
def Migration.work (m : Migration) (w : Work) : Work :=
  match w with
  | .load p d n tag sh policy => .load (m.place p) d n tag sh policy
  | .atom p op d tag x => .atom (m.place p) op d tag x
  | .cas p d e x => .cas (m.place p) d e x
  | .settle p => .settle (m.place p)
  | .store p bs poisoned => .store (m.place p) bs poisoned
  | .red p kind tag x => .red (m.place p) kind tag x
  | .fill ps t fmt => .fill (ps.map m.place) t fmt
  | .drain ps t fmt keep => .drain (ps.map m.place) t fmt keep
  | .drained ps bs => .drained (ps.map m.place) bs
  | .hostAtom p op d parts tag => .hostAtom (m.place p) op d parts tag
  | w => w

/-- Whether an operation touches a frame. -/
def Op.onFrame (o : Op) (a n : Nat) : Bool := o.work.spans.any fun p => match p.1 with | .mem pa _ _ _ => a ≤ pa && pa < a + n | .scratch .. => false

/-- The bytes and poison marks of a page, copied as stored. -/
def State.copyPage (s : State) (m : Migration) : State :=
  let inOld (a : Nat) : Bool := m.old ≤ a && a < m.old + m.size
  let inNew (a : Nat) : Bool := m.new ≤ a && a < m.new + m.size
  let marks := s.poison.filterMap fun d => match d with | .memory a => if inOld a then some (Datum.memory (a - m.old + m.new)) else none | _ => none
  { s with
    mem := (s.mem.filter fun c => inOld c.1).foldl (fun l c => cellSet l (c.1 - m.old + m.new) c.2) (s.mem.filter fun c => !inNew c.1)
    poison := marks ++ s.poison.filter fun d => match d with | .memory a => !inNew a | _ => true }

/-- MIGRATION_COPY_PASS_END (R267): another pass, the switch, or the end of a migration whose page is now pinned or armed. -/
def execMigrationCopyPassEnd (mig : Nat) (s : State) : Out :=
  match s.migrations.find? fun m => m.id == mig with
  | none => .next s
  | some m =>
    let pte := cellNat s.mem m.pteAt 8
    let put (x : Migration) : State := { s with migrations := updWhere (fun y => y.id == mig) (fun _ => x) s.migrations }
    if m.st != .copying then .next s
    else if pte % 2 == 0 || pteFrame pte != m.old || !s.mayMove pte m.size then .next { s with migrations := s.migrations.filter fun y => y.id != mig }
    else if 64 < m.dirty.length && m.passes < 8 then .next (put { m with dirty := [], passes := m.passes + 1 })
    else .next ((put { m with st := .switching }).kernelStore m.pteAt (natBytes 8 (recSet pte 0 1 0)))

/-- MIGRATION_INVALIDATION_COMPLETE (R267): no TLB holds the entry, no cache a copy of either frame, the page lies in the new frame with its open accumulators, the entry is valid, and the accesses held go on to the new home. -/
def execMigrationInvalidationComplete (mig : Nat) (s : State) : Out :=
  match s.migrations.find? fun m => m.id == mig with
  | none => .next s
  | some m =>
    if m.st != .switching then .next s
    else
      let pte := cellNat s.mem m.pteAt 8
      let new := recSet (recSet (recSet pte 0 1 1) 16 26 (paLocal m.new / 2 ^ 16)) 42 10 s.pkg
      let held := (s.ops.filter fun o => o.onFrame m.old m.size).map fun o => o.id
      let asid := match s.getCtx m.ctx with | some c => c.asid | none => 0
      let s1 := (s.copyPage m).kernelStore m.pteAt (natBytes 8 new)
      let inOld (sector : Nat) : Bool := (m.old ≤ sector * 32 && sector * 32 < m.old + m.size) || (m.new ≤ sector * 32 && sector * 32 < m.new + m.size)
      let s2 : State := { s1 with
        tlb := s1.tlb.filter fun e => !((e.asid == asid || recF e.pte 5 1 == 1) && rangesMeet (e.page * 2 ^ e.bits) (2 ^ e.bits) m.va m.size)
        l1 := s1.l1.filter fun x => !inOld x.sector
        remoteCache := s1.remoteCache.filter fun x => !inOld x.sector
        accs := s1.accs.map fun a => { a with place := m.place a.place }
        redBuf := s1.redBuf.map fun c => { c with place := m.place c.place }
        ops := s1.ops.map fun o => if o.onFrame m.old m.size then { o with work := m.work o.work, peer := none } else o
        overtaken := s1.overtaken.map fun z => { z with spans := z.spans.map fun p => (m.place p.1, p.2) }
        migrations := updWhere (fun y => y.id == mig) (fun y => { y with st := .settling, held := held, dirty := [] }) s1.migrations }
      .next ((s2.misses.filter fun x => x.ctx == m.ctx && x.st == .kernel && m.va ≤ x.va && x.va < m.va + m.size).foldl State.answerMiss (s2.moveObjects m))

/-- OLD_FRAME_FREED (R267): every access that was in flight to the old frame has performed. -/
def execOldFrameFreed (mig : Nat) (s : State) : Out :=
  match s.migrations.find? fun m => m.id == mig with
  | none => .next s
  | some m =>
    if m.st != .settling || s.ops.any fun o => m.held.contains o.id || o.onFrame m.old m.size then .next s
    else .next { s with migrations := s.migrations.filter fun y => y.id != mig }

end Sys2Proof.Machine
end

