-- ==== Sys2Proof/Machine/Feeds.lean ====
section
/-! DEFINITION. Feeds (08_copies R208 to R211). -/
namespace Sys2Proof.Machine

/-- FEED (R209): a queue beyond the crew's declared feeds is FeedFault (02_encoding R83); else the record is bound, its position 0; the engine checks it when it fetches. -/
def execFeed (e : Bool) (q : BitVec 3) (a : Reg) (s : State) : Out :=
  s.plan (.feed e q a) fun _ c _ =>
    { srcs := pairOf a,
      check := fun _ l =>
        if c.feeds ≤ q.toNat then trapWith .feedFault 0
        else match globalAddr ((opnd l 0).toNat + (opnd l 1).toNat * 2 ^ 32) 0 with
        | .error x => .error x
        | .ok v => (aligned v 32).map fun _ => v,
      fibre := fun _ v f => { f with feeds := updAt f.feeds q.toNat fun _ => ⟨v, 0, 0, false, []⟩ } }

/-- FSTOP (R209); FeedFault as FEED (02_encoding R83). -/
def execFstop (e : Bool) (q : BitVec 3) (s : State) : Out :=
  s.plan (.fstop e q) fun _ c _ =>
    { srcs := [], check := fun _ _ => require (q.toNat < c.feeds) .feedFault 0, fibre := fun _ _ f => { f with feeds := updAt f.feeds q.toNat fun x => { x with stopped := true, entries := [] } } }

/-- The fields of a feed record by themselves (R208, R211). -/
def feedRecordOk (r : Nat) : Bool :=
  recF r 224 32 == 0 && recF r 72 24 == 0 && recF r 64 4 < 14 && recF r 0 64 < 2 ^ 57 && recF r 0 64 % 4 == 0 && recF r 128 32 % 4 == 0 &&
  recF r 192 32 % 4 == 0 && recF r 160 32 != 0 && !(recF r 68 1 == 1 && recF r 160 32 != 1)

/-- Address of element n of a record with IDX = 0, none for a tail element (R210). -/
def feedElemAddr (r n : Nat) : Option Nat :=
  let c0 := recF r 96 32
  if c0 * recF r 160 32 ≤ n then none
  else some (wrapInt 64 ((recF r 0 64 : Int) + (n % c0 : Nat) * recS r 128 32 + (n / c0 : Nat) * recS r 192 32))

/-- What the engine finds for one element (R211). -/
inductive FeedRead where
  | entry (e : FeedEntry)
  | miss (va : Nat) (host : Bool)
  | held
deriving DecidableEq, Repr

def feedTrap (a : Nat) : FeedRead := .entry ⟨0, .si32, some ⟨.feedFault, BitVec.ofNat 64 a⟩⟩

/-- The word of an element, or the trap its reader will raise (R211). -/
def State.feedWord (s : State) (c : Crew) (tag : Tag) (va : Option Nat) : State × FeedRead :=
  match va with
  | none => (s, .entry ⟨0, tag, none⟩)
  | some a =>
    if 2 ^ 57 ≤ a then (s, feedTrap a)
    else match s.engRead c.core c a 4 with
      | (s1, .miss x h) => (s1, .miss x h)
      | (s1, .held) => (s1, .held)
      | (s1, .bad _) => (s1, feedTrap a)
      | (s1, .ok bs p) => (s1, .entry ⟨BitVec.ofNat 32 (bytesNat bs), tag, if p then some (sectorTrap a) else none⟩)

/-- The record bound at an address: a miss (none of it while its page's switch holds the access), none when it cannot be read, or its 256 bits. -/
def State.feedFetch (s : State) (c : Crew) (va : Nat) : State × Except (Option (Nat × Bool)) (Option Nat) :=
  match s.engRead c.core c va 32 with
  | (s1, .miss x h) => (s1, .error (some (x, h)))
  | (s1, .held) => (s1, .error none)
  | (s1, .bad _) => (s1, .ok none)
  | (s1, .ok bs p) => (s1, .ok (if p then none else some (bytesNat bs)))

/-- Element n of a feed of a fibre (R210, R211): with IDX = 1 the index is element n of the feed of queue ISRC; where that queue is unbound or stopped, or its record out of range, unreadable or malformed, the element is a FeedFault at the data record's address (log 78). -/
def State.feedElem (s : State) (c : Crew) (f : Fibre) (q : Nat) (record n : Nat) : State × FeedRead :=
  match s.feedFetch c record with
  | (s1, .error (some (x, h))) => (s1, .miss x h)
  | (s1, .error none) => (s1, .held)
  | (s1, .ok none) => (s1, feedTrap record)
  | (s1, .ok (some r)) =>
    match feedRecordOk r, Tag.ofCode (recF r 64 4) with
    | true, some tag =>
      if recF r 68 1 == 0 then s1.feedWord c tag (feedElemAddr r n)
      else
        let isrc := recF r 69 3
        match f.feeds[isrc]? with
        | none => (s1, feedTrap record)
        | some ix =>
          if isrc == q || ix.record == 0 || ix.stopped then (s1, feedTrap record)
          else match s1.feedFetch c ix.record with
            | (s2, .error (some (x, h))) => (s2, .miss x h)
            | (s2, .error none) => (s2, .held)
            | (s2, .ok none) => (s2, feedTrap record)
            | (s2, .ok (some r2)) =>
              if !feedRecordOk r2 || recF r2 68 1 == 1 || 1 < recF r2 64 4 then (s2, feedTrap record)
              else if recF r 96 32 ≤ n then (s2, .entry ⟨0, tag, none⟩)
              else match s2.feedWord c .si32 (feedElemAddr r2 n) with
                | (s3, .miss x h) => (s3, .miss x h)
                | (s3, .held) => (s3, .held)
                | (s3, .entry e) =>
                  match e.trap, feedElemAddr r2 n with
                  | some t, _ => (s3, .entry ⟨0, tag, some t⟩)
                  | none, none => (s3, .entry ⟨0, tag, none⟩)
                  | none, some _ =>
                    let i : Int := if recF r2 64 4 == 0 then e.value.toInt else e.value.toNat
                    s3.feedWord c tag (some (wrapInt 64 ((recF r 0 64 : Int) + i * recS r 128 32)))
    | _, _ => (s1, feedTrap record)

/-- FEED_ELEMENT_FETCH (R211): the next element of a bound feed with fewer than four entries; a recoverable miss leaves it pending. -/
def execFeedElementFetch (crew rank : Nat) (q : BitVec 3) (s : State) : Out :=
  match s.getCrew crew with
  | none => .next s
  | some c =>
    match c.fib rank with
    | none => .next s
    | some f =>
      match f.feeds[q.toNat]? with
      | none => .next s
      | some fd =>
        if c.life != .resident || !f.live || fd.record == 0 || fd.stopped || 4 ≤ fd.entries.length || s.isIndexQueue c.ctx f q.toNat then .next s
        else
          let n := fd.pos + fd.entries.length
          match s.feedElem c f q.toNat fd.record n with
          | (s1, .miss va h) => .next (s1.askMiss c.ctx va h)
          | (_, .held) => .next s
          | (s1, .entry e) =>
            let isrc := match s1.feedRecord c.ctx fd.record with | some r => if recF r 68 1 == 1 && recF r 69 3 != q.toNat then recF r 69 3 else 8 | none => 8
            .next (s1.modFib crew rank fun g =>
              Fibre.woken { g with feeds := updAt (updAt g.feeds q.toNat fun x => { x with entries := x.entries ++ [e] }) isrc fun x => { x with pos := max x.pos (n + 1) } } [awaitQueue q.toNat] s.cycles)

end Sys2Proof.Machine
end

