-- ==== Sys2Proof/Machine/System.lean ====
section
/-! DEFINITION. The host endpoint, service cores, encoders, storage errors, boot and power; creation of contexts and queues (05_memory R141, R153, R154, 06_consistency R172, 09_crumbs R222, 10_scheduling R231, 11_faults R266, 14_system R303 to R313). -/
namespace Sys2Proof.Machine

/-! ### Buffers and the host window -/

/-- REDUCTION_BUFFER_PASS (R172): what a core's buffer holds reaches the home slices, in order (log 30). -/
def execReductionBufferPass (core : Nat) (s : State) : Out := .next (s.passContribs fun c => c.core == core)

/-- L2_WRITEBACK (R141): a slice evicts a host-window sector, writing its dirty bytes to host memory; not while the link is down, nor after power-off (R313). -/
def execL2Writeback (sector : Nat) (s : State) : Out :=
  if s.hostLost || !s.powered then .next s
  else
    let s1 := s.cleanSectors fun c => c.sector == sector
    .next { s1 with hostL2 := s1.hostL2.filter fun c => c.sector != sector }

/-- The link is down (R307): every host access without a completion is parked, as far as the storage goes, and every context is told. -/
def State.loseHost (s : State) : State :=
  if s.hostLost then s
  else
    let l := (s.ops.filter fun o => o.host).map fun o => Parked.op o.id
    let s1 : State := { s with hostLost := true, parked := l.take Config.parkSlots }
    (s1.contexts.filter fun c => !c.down).foldl (fun (st : State) c => st.ctxStatus c.id fun x => { x with bits := x.bits ||| 32 }) s1

/-- HOST_LOSS (R307). -/
def execHostLoss (s : State) : Out := .next s.loseHost

/-- A host access completes without having performed (R308, 01_execution R50): all ones and HOSTLOST, or dropped with HOSTLOST and DROPPED; one whose value has come has performed, and only its result is still to land (R307). -/
def State.lostOp (s : State) (o : Op) : State :=
  let dropped (s : State) : State := ((s.setNstatus o.crew 1).setNstatus o.crew 2).retireOp o
  match o.work with
  | .load _ d n tag sh _ => s.onesLand o 1 d n tag sh
  | .hostAtom _ _ d _ tag => s.onesLand o 1 d 1 tag .g
  | .value .. | .logged .. => s
  | .fill ps t fmt =>
    let n := ps.length * 64 / tileWidth fmt
    let w := fillWord fmt (2 ^ (8 * tileWidth fmt) - 1)
    (((s.modTile o.crew t fun _ => ⟨.ready, List.replicate n w⟩).unmarkTile o.crew t fun _ => true).setNstatus o.crew 1 |>.wakeAll o.crew [awaitTile t]).retireOp o
  | .drain _ t _ keep => dropped ((s.modTile o.crew t fun x => if keep then { x with st := .ready } else Tile.zero .empty).wakeAll o.crew [awaitTile t])
  | _ => dropped s

/-- The pages of a context that its tables map to the host window, in 64 KiB. -/
def State.hostPages (s : State) (c : Context) : List Nat :=
  (s.ctxTables c).2.flatMap fun l => if inHost (paLocal (pteFrame l.2.1)) then (List.range (2 ^ (l.2.2 - 16))).map fun j => l.1 / 65536 + j else []

/-- What a reset of the module leaves: the memories, the kernel's settings of the storage, the contexts torn down, what the outside has seen, and the model's own fields; CLOCK and TIME count anew (01_execution R45; log 31). -/
def State.moduleReset (s : State) : State :=
  { State.reset with
    pkg := s.pkg, mem := s.mem, poison := s.poison, eccLog := s.eccLog, extents := s.extents, capsAt := s.capsAt
    coreCaps := s.coreCaps, l2Lost := s.l2Lost, remapped := s.remapped, remoteWays := s.remoteWays, contexts := s.contexts, responses := s.responses, hostSeen := s.hostSeen, lateWrites := s.lateWrites, inputs := s.inputs
    powered := s.powered, free := s.free, nextId := s.nextId, schedule := s.schedule }

/-- HOST_WARM_RESTART (R308): with every partition in use in persist mode, and one at least, only the endpoint is reset; the accesses parked complete without having performed, and what had been performed before the loss stands (R307). Else the module is reset, with every context torn down (log 31), and the host, back again, finds that in the status blocks. -/
def execHostWarmRestart (s : State) : Out :=
  let live := s.contexts.filter fun c => !c.down
  if s.partitions.any (fun p => p.persist) && live.all fun c => (match s.getPart c.part with | some p => p.persist | none => false) then
    let s0 := s.loseHost
    let s2 := (s0.ops.filter fun o => o.host).foldl State.lostOp s0
    let s3 : State := { s2 with
      hostLost := false, parked := [], hostMapped := []
      lostAt := s2.parked.filterMap fun p => match p with | .engine c v => some (c, v) | _ => none
      l1 := s2.l1.filter fun x => !inHost (paLocal (x.sector * 32))
      hostStale := live.flatMap fun c => (s2.hostPages c).map fun page => (c.id, page)
      tlb := s2.tlb.filter fun e => !inHost (paLocal (pteFrame e.pte)) }
    let s4 := live.foldl (fun (st : State) c => st.ctxStatus c.id fun x => { x with bits := x.bits ||| 8 }) s3
    .next ((s4.launches.map fun l => l.id).foldl State.gridCheck s4.gcFences)
  else
    let s0 : State := { s with hostLost := false, parked := [], ops := s.ops.filter fun o => !(s.hostLost && o.host) }
    .next ((live.foldl (fun (st : State) c => st.teardown c.id 0x104) s0).moduleReset)

/-! ### Service cores -/

/-- A table of a context is homed in a slice, or an extent of one of its pages is (R305). -/
def State.touchesSlice (s : State) (slice : Nat) (c : Context) : Bool :=
  let t := s.ctxTables c
  (t.1.any fun x => s.home (s.pkg * 2 ^ 42 + x) == slice) ||
  t.2.any fun l => paPeer (pteFrame l.2.1) == s.pkg && (List.range (max 1 (2 ^ l.2.2 / 2 ^ 21))).any fun i => (s.extent (pteFrame l.2.1 + i * 2 ^ 21)).home == some slice

/-- JALLEY_INSTANCE_STOP (R305): every context with pages homed in the slice is torn down, and the fault is logged. -/
def execJalleyInstanceStop (slice : Nat) (s : State) : Out :=
  if 64 ≤ slice || s.stoppedJalley.contains slice then .next s
  else
    let l := s.contexts.filter fun c => !c.down && s.touchesSlice slice c
    .next (l.foldl (fun (st : State) c => st.teardown c.id 0x102) { s with stoppedJalley := s.stoppedJalley ++ [slice] })

/-! ### Encoders -/

/-- The lowest slot reserved to a partition: 16 for none. -/
def Encoder.rank (e : Encoder) (part : Nat) : Nat := ((List.range 16).find? fun i => e.reserved.getD i none == some part).getD 16

/-- The partition whose first waiting frame a slot serves (R310): its owner, else the waiting partition with the lowest reservation (log 32). -/
def Encoder.serves (e : Encoder) (slot : Nat) : Option Nat :=
  let parts := (e.waiting.map fun w => w.1).eraseDups
  match e.reserved.getD slot none with
  | some p => if parts.contains p then some p else bestOf (fun a b => e.rank a < e.rank b) parts
  | none => bestOf (fun a b => e.rank a < e.rank b) parts

/-- A slot of encoder time given to the first waiting frame of a partition. -/
def giveSlot (part : Nat) : List (Nat × Nat × Nat × Nat) → List (Nat × Nat × Nat × Nat) × List (Nat × Nat)
  | [] => ([], [])
  | w :: r =>
    if w.1 == part then (if w.2.2.2 ≤ 1 then (r, [(w.2.1, w.2.2.1)]) else ((w.1, w.2.1, w.2.2.1, w.2.2.2 - 1) :: r, []))
    else let (r1, d) := giveSlot part r; (w :: r1, d)

/-- ENCODER_SLOT (R310): the encoder works through its current slot, and the next begins. The bytes of a frame's OBUs, which another specification defines, are a free value, their number too (log 71). -/
def execEncoderSlot (enc : Nat) (s : State) : Out :=
  let obus : List Byte := natBytes (Config.freeNat s.free) (Config.freeNat (s.free + 1))
  let one (e : Encoder) : Encoder :=
    let e1 := match e.serves e.slot with
      | some p => let (w, d) := giveSlot p e.waiting; { e with waiting := w, streamed := e.streamed ++ d.map fun (x : Nat × Nat) => (x.1, x.2, obus) }
      | none => e
    { e1 with slot := (e.slot + 1) % 16 }
  .next (if s.powered then { s with free := s.free + 2, encoders := updWhere (fun e => e.id == enc) one s.encoders } else s)

/-- FRAME_READY (R310): a release at PKG has stored the frame's index to the session's doorbell word. -/
def execFrameReady (session : Nat) (frame : Word) (s : State) : Out :=
  match s.sessions.find? fun x => x.id == session with
  | none => .next s
  | some x =>
    if !x.rung.contains frame.toNat || !s.powered then .next s
    else .next { s with sessions := updWhere (fun y => y.id == x.id) (fun y => { y with rung := y.rung.erase frame.toNat }) s.sessions, encoders := updWhere (fun e => e.id == x.encoder) (fun e => { e with waiting := e.waiting ++ [(x.part, x.id, frame.toNat, x.slots)] }) s.encoders }

/-! ### The capability list -/

/-- The header of an entry (R311). -/
def capHeader (id length next : Nat) : Nat := id + 2 ^ 16 + length * 2 ^ 24 + next * 2 ^ 32

/-- The capacity entry, as 32 bytes (R311). -/
def State.capEntry (s : State) : Nat :=
  let c := s.maxCaps
  let least := 16 - s.l2Lost.foldl (fun m x => max m x.2) 0
  capHeader 2 2 64 + c.rows * 2 ^ 64 + c.scratch / 1024 * 2 ^ 72 + c.tiles * 2 ^ 88 + least * 2 ^ 97 + (s.capsAt + 192) * 2 ^ 192

/-- The per-core words (R311). -/
def State.coreWords (s : State) : List Byte :=
  (List.range Config.cores).flatMap fun k => let c := s.caps k; natBytes 4 (c.rows + c.scratch / 1024 * 2 ^ 8 + c.tiles * 2 ^ 18)

/-- The capacities as the list reports them: the per-core words, then the entry by one write (R311). -/
def State.writeCaps (s : State) : State :=
  (s.performWrite none (kernelAt (s.capsAt + 192)) s.coreWords false).performWrite none (kernelAt (s.capsAt + 32)) (natBytes 32 s.capEntry) false

/-- The list: the ISA, the capacities, and the units, in ascending ID (R311). -/
def State.writeCapList (s : State) : State :=
  let units := (List.range 8).flatMap fun i => natBytes 16 (capHeader (16 + i) 1 (if i == 7 then 0 else 80 + 16 * i))
  ((s.performWrite none (kernelAt s.capsAt) (natBytes 16 (capHeader 1 1 32 + 2 ^ 72)) false).performWrite none (kernelAt (s.capsAt + 64)) units false).writeCaps

/-! ### Storage errors -/

/-- ECC_CORRECTED_ERROR (R153): corrected in place, and logged. -/
def execEccCorrectedError (arr : SramArray) (unit row : Nat) (s : State) : Out := .next { s with eccLog := s.eccLog ++ [(arr, unit, row)] }

/-- The sector a mark stands for. -/
def datumSector : Datum → Datum
  | .memory pa => .memory (pa / 32 * 32)
  | .scratch c o => .scratch c (o / 32 * 32)
  | d => d

/-- A copy of the sector of an address that a unit holds is lost. -/
def loseSector (unit pa : Nat) (l : List CacheSector) : List CacheSector := updWhere (fun x => x.unit == unit && x.sector == pa / 32) (fun x => { x with bad := true }) l

/-- UNCORRECTABLE_ERROR (R153): the datum is marked, where it stands. -/
def execUncorrectableError (datum : Datum) (s : State) : Out :=
  .next (match datum with
    | .l1Sector core pa => { s with l1 := loseSector core pa s.l1 }
    | .remoteSector die pa => { s with remoteCache := loseSector die pa s.remoteCache }
    | .counter slice index => { s with crumbs := updWhere (fun x => x.slice == slice && x.index == index) (fun x => { x with bad := true }) s.crumbs }
    | .contribution core n => { s with redBuf := ((s.redBuf.zip (List.range s.redBuf.length)).map fun x => if x.1.core == core && ((s.redBuf.take x.2).filter fun y => y.core == core).length == n then { x.1 with bad := true } else x.1) }
    | .accumulator pa => { s with accs := updWhere (fun a => match a.place with | .mem b _ _ _ => b ≤ pa && pa < b + a.bytes | .scratch .. => false) (fun a => { a with bad := true }) s.accs }
    | d => if s.poison.contains (datumSector d) then s else { s with poison := (datumSector d) :: s.poison })

/-- The core that owns a row of registers, scratchpad or tiles. -/
def arrOfCore : SramArray → Bool
  | .registerFile | .scratchpad | .tileStore => true
  | _ => false

/-- A row that holds no live data (R154): cache rows are written back and dropped. -/
def State.emptyRow (s : State) (arr : SramArray) (unit : Nat) : State :=
  match arr with
  | .l1 => { s with l1 := s.l1.filter fun x => x.unit != unit }
  | .l2 =>
    let s1 := s.cleanSectors fun x => x.unit == unit
    { s1 with hostL2 := s1.hostL2.filter (fun x => x.unit != unit), remoteCache := s1.remoteCache.filter fun x => x.unit != unit / 16 }
  | .reductionBuffer => s.passContribs fun x => x.core == unit
  | _ => s

/-- A bank disabled (R154): the capacity of its array shrinks by one step. -/
def State.shrink (s : State) (arr : SramArray) (unit : Nat) : State :=
  let put (c : CoreCaps) : State := { s with coreCaps := (unit, c) :: s.coreCaps.filter fun x => x.1 != unit }
  let c := s.caps unit
  match arr with
  | .registerFile => put { c with rows := c.rows - 8 }
  | .scratchpad => put { c with scratch := c.scratch - 16384 }
  | .tileStore => put { c with tiles := c.tiles - 16 }
  | .l2 =>
    let n := (s.l2Lost.find? fun x => x.1 == unit).map (fun x => x.2) |>.getD 0
    { s with l2Lost := (unit, min 16 (n + 1)) :: s.l2Lost.filter fun x => x.1 != unit }
  | _ => s

/-- Contexts with a saved crew that fits no core of its partition any longer receive CapacityLost (R154). -/
def State.capacityLost (s : State) : State :=
  let lost (c : Crew) : Bool := c.life == .saved &&
    (match s.getLaunch c.launch, (s.getCtx c.ctx).bind fun x => s.getPart x.part with
     | some l, some p => !(p.cores.any fun k => !p.leaving.contains k && s.emptyCrews l k != 0)
     | _, _ => false)
  (((s.crews.filter lost).map fun c => c.ctx).eraseDups).foldl (fun (st : State) k => st.ctxStatus k fun x => { x with bits := x.bits ||| 16 }) s

/-- ROW_REMAP (R154): a row with repeated corrected errors goes to a spare, or its bank is disabled; whether a spare is left is a free bit (log 1). Rows of crumb counters wait until no counter of the slice is armed. -/
def execRowRemap (arr : SramArray) (unit row : Nat) (s : State) : Out :=
  let repeated : Bool := 2 ≤ (s.eccLog.filter fun x => x == (arr, unit, row)).length
  let idle : Bool := !(arrOfCore arr && s.crews.any fun c => c.life == .resident && c.core == unit) && !(arr == .crumbs && s.crumbs.any fun c => c.armed && c.slice == unit)
  if !repeated || !idle || !s.powered || s.remapped.contains (arr, unit, row) || (s.hostLost && arr == .l2) then .next s
  else
    let s1 : State := State.bumpFree { s.emptyRow arr unit with eccLog := s.eccLog.filter fun x => x != (arr, unit, row) }
    if Config.freeBit s.free then .next { s1 with remapped := s1.remapped ++ [(arr, unit, row)] }
    else .next ((s1.shrink arr unit).writeCaps.capacityLost)

/-! ### Boot, attestation, power -/

/-- The first image that fails its checks or is older than its rollback counter (R312). -/
def bootFails (images : List BootImage) : Option BootImage := images.find? fun i => !(i.rsaOk && i.slhOk) || i.version < i.rollback

/-- The kernel's settings at boot, which the manual leaves to it: the ways of each slice that the remote-read cache takes, 0 to 4 (05_memory R139), and the count at which a page moves (R146). -/
def State.kernelSettings (s : State) : State :=
  { s with remoteWays := Config.freeNat s.free % 5, migThreshold := Config.freeNat (s.free + 1), free := s.free + 2 }

/-- The extents of this package's HBM that the kernel names as homed at boot, each in a slice of its die; the squeeze types stand (05_memory R138, R140). Extents of other packages are striped and F32 here (05_memory R143; log 77). -/
def State.homeExtents (s : State) (l : List (Nat × Nat)) : State :=
  let fits := l.filter fun x => let pa := x.1 * 2 ^ 21; paPeer pa == s.pkg && inHbm (paLocal pa) && x.2 / 16 == recF (paLocal pa) 37 2
  fits.foldl (fun (st : State) x => { st with extents := ⟨x.1, some x.2, (st.extent (x.1 * 2 ^ 21)).ty⟩ :: st.extents.filter fun e => e.num != x.1 })
    { s with extents := s.extents.map fun e => { e with home := none } }

/-- The images boot verifies (R312): the port-die firmware, the Jalley kernel and the compute-die microcode, in that order. One that fails leaves its number in BAR2, which alone is there then (log 82). -/
def State.bootWith (s : State) (images : List BootImage) : State :=
  if (images.map fun i => i.image) != [0, 1, 2] then s
  else match bootFails images with
    | some i => { s with boot := .stopped i.image, mailbox := cellWrite [] 0 (natBytes 4 i.image) }
    | none => (State.writeCapList { s with boot := .running (images.map fun i => i.measurement) }).kernelSettings

/-- BOOT (R312), with the homing of extents that the kernel is given, none of them when it is given none (05_memory R138). -/
def execBoot (s : State) : Out :=
  match takeInput (fun i => match i with | .images images => some images | _ => none) s.inputs with
  | none => .next s
  | some (images, r) =>
    if s.boot == .off && s.powered then
      match takeInput (fun i => match i with | .homing l => some l | _ => none) r with
      | some (l, r2) => .next (((s.took r2).homeExtents l).bootWith images)
      | none => .next (((s.took r).homeExtents []).bootWith images)
    else .next s

/-- The Jalley kernel runs. -/
def State.kernelUp (s : State) : Bool := s.powered && (match s.boot with | .running _ => true | _ => false)

/-- ATTESTATION_REQUEST (R312): a report of the measurements of every image and its signature, which the model leaves open (log 1); through the endpoint on Ultra Ethernet only for a peer that SPDM has authenticated. -/
def execAttestationRequest (s : State) : Out :=
  match takeInput (fun i => match i with | .attestation eth ok nonce => some (eth, ok, nonce) | _ => none) s.inputs, s.boot with
  | some ((eth, ok, nonce), r), .running ms =>
    .next (if !s.powered then s else if eth && !ok then s.took r else { s.took r with attest := s.attest ++ [⟨nonce, ms, Config.digest (nonce :: ms)⟩] })
  | _, _ => .next s

/-- THERMAL_THROTTLE (R313): results are unchanged. -/
def execThermalThrottle (lowered : Bool) (s : State) : Out := .next { s with clockLow := lowered }

/-- THERMAL_SHUTDOWN (R313): every context is torn down, the compute dies are off, their caches empty and what they export gone, and the port die stops with them. -/
def execThermalShutdown (s : State) : Out :=
  .next { (s.contexts.foldl (fun (st : State) c => st.teardown c.id 0x103) s) with
    powered := false, boot := .off, exports := [], exportMisses := [], attest := [], l1 := [], remoteCache := [], hostL2 := [], tlb := [], redBuf := [], accs := [] }

/-! ### Creation of contexts and queues -/

/-- Bytes of some ranges. -/
def rangeBytes (l : List (Nat × Nat)) : Nat := l.foldl (fun n r => n + r.2) 0

/-- A partition allows a context this ASID and these backed ranges beside those of its other contexts (R309). -/
def State.partAllows (s : State) (part asid : Nat) (backed : List (Nat × Nat)) : Bool :=
  match s.getPart part with
  | none => false
  | some p => (p.asids.any fun r => r.1 ≤ asid && asid < r.1 + r.2) &&
      rangeBytes backed + rangeBytes ((s.contexts.filter fun c => !c.down && c.part == part && c.asid != asid).flatMap fun c => c.backed) ≤ p.memory

/-- Queues of a kind that the contexts of a partition hold. -/
def State.partHas (s : State) (ctx : Nat) (l : List Nat) : Nat :=
  match s.getCtx ctx with
  | some c => (l.filter fun x => match s.getCtx x with | some y => y.part == c.part | none => false).length
  | none => 0

/-- The partition of a context. -/
def State.partOf (s : State) (ctx : Nat) : Option Partition := (s.getCtx ctx).bind fun c => s.getPart c.part

/-- A new context (R263, R266, R306): its ASID and memory are its partition's (R309). -/
def State.createContext (s : State) (init : ContextInit) : State :=
  let used := s.contexts.any fun c => !c.down && c.asid == init.asid
  if used || !s.partAllows init.part init.asid init.backed || 1024 ≤ init.asid || 2 ^ 20 ≤ init.pasid || !inHbm init.ptroot || init.ptroot % 4096 != 0 || init.status % 32 != 0 then s
  else
    let c : Context := ⟨s.nextId, init.asid, init.pasid, init.ptroot, init.trapvec, init.privileged, init.status, init.part, init.backed, false, 0, 0, 0⟩
    State.writeBlock { s with nextId := s.nextId + 1, contexts := s.contexts ++ [c] } c

/-- CONTEXT_CREATION (R266): the kernel runs. -/
def execContextCreation (s : State) : Out :=
  match takeInput (fun i => match i with | .context init => some init | _ => none) s.inputs with
  | none => .next s
  | some (init, r) => .next (if s.kernelUp then (s.took r).createContext init else s)

/-- A context the kernel may create objects for. -/
def State.liveCtx (s : State) (ctx : Nat) : Bool := match s.getCtx ctx with | some c => s.kernelUp && !c.down | none => false

/-- A new user queue (R231): the descriptor is written with its initial values. -/
def State.createUserQueue (s : State) (ctx : Nat) (init : QueueInit) : State :=
  let d := init.ring + 2 ^ 64 + init.size * 2 ^ 72 + init.prio * 2 ^ 76 + init.num * 2 ^ 80
  if !s.liveCtx ctx || 65536 ≤ init.num || 10 < init.size || 15 < init.prio || 2 ^ 57 ≤ init.ring || init.ring % 64 != 0 || init.desc % 64 != 0 || (s.userQueue init.num).isSome ||
     !((s.partOf ctx).any fun p => decide (s.partHas ctx (s.userQueues.map fun q => q.ctx) < p.userQueues)) then s
  else
    let s1 := s.performWrite none (kernelAt init.desc) (natBytes 64 d) false
    { s1 with userQueues := s1.userQueues ++ [⟨init.num, ctx, init.desc, 0, 0, 0, 0, 0⟩] }

/-- USER_QUEUE_CREATION (R231). -/
def execUserQueueCreation (s : State) : Out :=
  match takeInput (fun i => match i with | .userQueue ctx init => some (ctx, init) | _ => none) s.inputs with
  | none => .next s
  | some ((ctx, init), r) => .next ((s.took r).createUserQueue ctx init)

/-- A new task queue (R222): every slot free; the descriptor on a homed page of the context without W, in one 4 GiB window of engine addresses with the ring. -/
def State.createTaskQueue (s : State) (ctx : Nat) (init : QueueInit) : State :=
  let n := 2 ^ (init.size + 6)
  let d := init.ring + init.num * 2 ^ 64 + init.size * 2 ^ 80 + init.prio * 2 ^ 84 + 2 ^ 88 + n * 2 ^ 128
  let window : Bool := init.va / 2 ^ 32 == init.ring / 2 ^ 32 && (init.ring + 64 * n - 1) / 2 ^ 32 == init.ring / 2 ^ 32 &&
    (match s.kernelPlace ctx init.va with
    | some (.mem pa _ _ _, pte) => pa == init.desc && recF pte 2 1 == 0
    | _ => false)
  if !s.liveCtx ctx || 1024 ≤ init.num || 10 < init.size || 15 < init.prio || 2 ^ 57 ≤ init.ring || init.ring % 64 != 0 || init.desc % 64 != 0 || !window ||
     !s.holdsSlice ctx init.desc || s.taskQueues.any (fun q => q.num == init.num) ||
     !((s.partOf ctx).any fun p => decide (s.partHas ctx (s.taskQueues.map fun q => q.ctx) < p.taskQueues)) then s
  else
    let s1 := s.performWrite none (kernelAt init.desc) (natBytes 64 d) false
    { s1 with taskQueues := s1.taskQueues ++ [⟨init.num, ctx, init.desc, List.replicate n (.free, 0), []⟩] }

/-- TASK_QUEUE_CREATION (R222). -/
def execTaskQueueCreation (s : State) : Out :=
  match takeInput (fun i => match i with | .taskQueue ctx init => some (ctx, init) | _ => none) s.inputs with
  | none => .next s
  | some ((ctx, init), r) => .next ((s.took r).createTaskQueue ctx init)

end Sys2Proof.Machine
end

