-- ==== Sys2Proof/Machine/Dispatch.lean ====
section
/-! DEFINITION. One arm per constructor of Instr: a direct call of its meaning, or a rejection by name. -/
namespace Sys2Proof.Machine

def exec (i : Instr) (s : State) : Host.Outcome State Fault Refusal :=
  match i with
  | .addA3 e d a b => Sys2Proof.Machine.execAddA3 e d a b s
  | .addAi e d a imm => Sys2Proof.Machine.execAddAi e d a imm s
  | .subA3 e d a b => Sys2Proof.Machine.execSubA3 e d a b s
  | .subAi e d a imm => Sys2Proof.Machine.execSubAi e d a imm s
  | .mulA3 e d a b => Sys2Proof.Machine.execMulA3 e d a b s
  | .mulAi e d a imm => Sys2Proof.Machine.execMulAi e d a imm s
  | .mulhi e d a b => Sys2Proof.Machine.execMulhi e d a b s
  | .ma e d a b => Sys2Proof.Machine.execMa e d a b s
  | .minA3 e d a b => Sys2Proof.Machine.execMinA3 e d a b s
  | .minAi e d a imm => Sys2Proof.Machine.execMinAi e d a imm s
  | .maxA3 e d a b => Sys2Proof.Machine.execMaxA3 e d a b s
  | .maxAi e d a imm => Sys2Proof.Machine.execMaxAi e d a imm s
  | .andA3 e d a b => Sys2Proof.Machine.execAndA3 e d a b s
  | .andAi e d a imm => Sys2Proof.Machine.execAndAi e d a imm s
  | .orA3 e d a b => Sys2Proof.Machine.execOrA3 e d a b s
  | .orAi e d a imm => Sys2Proof.Machine.execOrAi e d a imm s
  | .xorA3 e d a b => Sys2Proof.Machine.execXorA3 e d a b s
  | .xorAi e d a imm => Sys2Proof.Machine.execXorAi e d a imm s
  | .shlA3 e d a b => Sys2Proof.Machine.execShlA3 e d a b s
  | .shlAi e d a imm => Sys2Proof.Machine.execShlAi e d a imm s
  | .shrA3 e d a b => Sys2Proof.Machine.execShrA3 e d a b s
  | .shrAi e d a imm => Sys2Proof.Machine.execShrAi e d a imm s
  | .sarA3 e d a b => Sys2Proof.Machine.execSarA3 e d a b s
  | .sarAi e d a imm => Sys2Proof.Machine.execSarAi e d a imm s
  | .rotA3 e d a b => Sys2Proof.Machine.execRotA3 e d a b s
  | .rotAi e d a imm => Sys2Proof.Machine.execRotAi e d a imm s
  | .bfe e d a b => Sys2Proof.Machine.execBfe e d a b s
  | .bfi e d a b => Sys2Proof.Machine.execBfi e d a b s
  | .leaA3 e d a b => Sys2Proof.Machine.execLeaA3 e d a b s
  | .leaAi e d a imm => Sys2Proof.Machine.execLeaAi e d a imm s
  | .mov e d a => Sys2Proof.Machine.execMov e d a s
  | .neg e d a => Sys2Proof.Machine.execNeg e d a s
  | .abs e d a => Sys2Proof.Machine.execAbs e d a s
  | .notR e d a => Sys2Proof.Machine.execNotR e d a s
  | .popc e d a => Sys2Proof.Machine.execPopc e d a s
  | .clz e d a => Sys2Proof.Machine.execClz e d a s
  | .brev e d a => Sys2Proof.Machine.execBrev e d a s
  | .dot4 e d a b => Sys2Proof.Machine.execDot4 e d a b s
  | .dott e d a b => Sys2Proof.Machine.execDott e d a b s
  | .ldi e d imm => Sys2Proof.Machine.execLdi e d imm s
  | .cmp e cond pd mode a b => Sys2Proof.Machine.execCmp e cond pd mode a b s
  | .cmpi e cond pd mode a imm => Sys2Proof.Machine.execCmpi e cond pd mode a imm s
  | .pand e pd pa pb => Sys2Proof.Machine.execPand e pd pa pb s
  | .por e pd pa pb => Sys2Proof.Machine.execPor e pd pa pb s
  | .pxor e pd pa pb => Sys2Proof.Machine.execPxor e pd pa pb s
  | .pnot e pd pa => Sys2Proof.Machine.execPnot e pd pa s
  | .pmovToRegister e v mask => Sys2Proof.Machine.execPmovToRegister e v mask s
  | .pmovToPredicates e v mask => Sys2Proof.Machine.execPmovToPredicates e v mask s
  | .sel e ps inv d a b => Sys2Proof.Machine.execSel e ps inv d a b s
  | .bra p pol off => Sys2Proof.Machine.execBra p pol off s
  | .ld e fmt space seq d a cnt acq => Sys2Proof.Machine.execLd e fmt space seq d a cnt acq s
  | .st e fmt space seq v a cnt rel => Sys2Proof.Machine.execSt e fmt space seq v a cnt rel s
  | .atomAdd e scope sem seq d a => Sys2Proof.Machine.execAtomAdd e scope sem seq d a s
  | .atomMin e scope sem seq d a => Sys2Proof.Machine.execAtomMin e scope sem seq d a s
  | .atomMax e scope sem seq d a => Sys2Proof.Machine.execAtomMax e scope sem seq d a s
  | .atomAnd e scope sem seq d a => Sys2Proof.Machine.execAtomAnd e scope sem seq d a s
  | .atomOr e scope sem seq d a => Sys2Proof.Machine.execAtomOr e scope sem seq d a s
  | .atomXor e scope sem seq d a => Sys2Proof.Machine.execAtomXor e scope sem seq d a s
  | .atomXchg e scope sem seq d a => Sys2Proof.Machine.execAtomXchg e scope sem seq d a s
  | .atomIncw e scope sem seq d a => Sys2Proof.Machine.execAtomIncw e scope sem seq d a s
  | .atomDecw e scope sem seq d a => Sys2Proof.Machine.execAtomDecw e scope sem seq d a s
  | .cas e scope sem seq d a => Sys2Proof.Machine.execCas e scope sem seq d a s
  | .redAdd e scope rel seq d a => Sys2Proof.Machine.execRedAdd e scope rel seq d a s
  | .redMin e scope rel seq d a => Sys2Proof.Machine.execRedMin e scope rel seq d a s
  | .redMax e scope rel seq d a => Sys2Proof.Machine.execRedMax e scope rel seq d a s
  | .rsettle e scope seq a => Sys2Proof.Machine.execRsettle e scope seq a s
  | .mmaBf16 e t a b negate => Sys2Proof.Machine.execMmaBf16 e t a b negate s
  | .mmaF16 e t a b negate => Sys2Proof.Machine.execMmaF16 e t a b negate s
  | .mmaE4m3 e t a b negate => Sys2Proof.Machine.execMmaE4m3 e t a b negate s
  | .mmaE5m2 e t a b negate => Sys2Proof.Machine.execMmaE5m2 e t a b negate s
  | .mmaSi8 e t a b negate => Sys2Proof.Machine.execMmaSi8 e t a b negate s
  | .mmaUi8 e t a b negate => Sys2Proof.Machine.execMmaUi8 e t a b negate s
  | .mmasE2m1 e t a b negate => Sys2Proof.Machine.execMmasE2m1 e t a b negate s
  | .mmasE2m3 e t a b negate => Sys2Proof.Machine.execMmasE2m3 e t a b negate s
  | .mmasE3m2 e t a b negate => Sys2Proof.Machine.execMmasE3m2 e t a b negate s
  | .mmasE4m3 e t a b negate => Sys2Proof.Machine.execMmasE4m3 e t a b negate s
  | .mmasE5m2 e t a b negate => Sys2Proof.Machine.execMmasE5m2 e t a b negate s
  | .mmasSi8 e t a b negate => Sys2Proof.Machine.execMmasSi8 e t a b negate s
  | .tzero e t => Sys2Proof.Machine.execTzero e t s
  | .tfill e t seq reg fmt scr => Sys2Proof.Machine.execTfill e t seq reg fmt scr s
  | .tdrain e t seq reg keep fmt scr => Sys2Proof.Machine.execTdrain e t seq reg keep fmt scr s
  | .tget e t reg => Sys2Proof.Machine.execTget e t reg s
  | .trow e t reg => Sys2Proof.Machine.execTrow e t reg s
  | .tstat e t reg => Sys2Proof.Machine.execTstat e t reg s
  | .shflIdx e d a m => Sys2Proof.Machine.execShflIdx e d a m s
  | .shflUp e d a m => Sys2Proof.Machine.execShflUp e d a m s
  | .shflDown e d a m => Sys2Proof.Machine.execShflDown e d a m s
  | .shflXor e d a m => Sys2Proof.Machine.execShflXor e d a m s
  | .voteAny e d a m => Sys2Proof.Machine.execVoteAny e d a m s
  | .voteAll e d a m => Sys2Proof.Machine.execVoteAll e d a m s
  | .voteBallot e d a m => Sys2Proof.Machine.execVoteBallot e d a m s
  | .foldAdd e d a m => Sys2Proof.Machine.execFoldAdd e d a m s
  | .foldMin e d a m => Sys2Proof.Machine.execFoldMin e d a m s
  | .foldMax e d a m => Sys2Proof.Machine.execFoldMax e d a m s
  | .foldAnd e d a m => Sys2Proof.Machine.execFoldAnd e d a m s
  | .foldOr e d a m => Sys2Proof.Machine.execFoldOr e d a m s
  | .foldXor e d a m => Sys2Proof.Machine.execFoldXor e d a m s
  | .scanAdd e d a m => Sys2Proof.Machine.execScanAdd e d a m s
  | .scanMin e d a m => Sys2Proof.Machine.execScanMin e d a m s
  | .scanMax e d a m => Sys2Proof.Machine.execScanMax e d a m s
  | .scanAnd e d a m => Sys2Proof.Machine.execScanAnd e d a m s
  | .scanOr e d a m => Sys2Proof.Machine.execScanOr e d a m s
  | .scanXor e d a m => Sys2Proof.Machine.execScanXor e d a m s
  | .matchAny e d a m => Sys2Proof.Machine.execMatchAny e d a m s
  | .matchAll e d a m => Sys2Proof.Machine.execMatchAll e d a m s
  | .rcp e d a => Sys2Proof.Machine.execRcp e d a s
  | .rsq e d a => Sys2Proof.Machine.execRsq e d a s
  | .sqrt e d a => Sys2Proof.Machine.execSqrt e d a s
  | .exp2 e d a => Sys2Proof.Machine.execExp2 e d a s
  | .log2 e d a => Sys2Proof.Machine.execLog2 e d a s
  | .sin e d a => Sys2Proof.Machine.execSin e d a s
  | .cos e d a => Sys2Proof.Machine.execCos e d a s
  | .tanh e d a => Sys2Proof.Machine.execTanh e d a s
  | .cvt e d a tgt sat mode => Sys2Proof.Machine.execCvt e d a tgt sat mode s
  | .mxpack e d a tgt => Sys2Proof.Machine.execMxpack e d a tgt s
  | .mxunpk e d a tgt => Sys2Proof.Machine.execMxunpk e d a tgt s
  | .dtern e d a half => Sys2Proof.Machine.execDtern e d a half s
  | .retag e d a tgt => Sys2Proof.Machine.execRetag e d a tgt s
  | .tag e d a => Sys2Proof.Machine.execTag e d a s
  | .shape e d a => Sys2Proof.Machine.execShape e d a s
  | .fpflag e d mask => Sys2Proof.Machine.execFpflag e d mask s
  | .nop e => Sys2Proof.Machine.execNop e s
  | .brx a => Sys2Proof.Machine.execBrx a s
  | .call off => Sys2Proof.Machine.execCall off s
  | .region e => Sys2Proof.Machine.execRegion e s
  | .spawn e d a b => Sys2Proof.Machine.execSpawn e d a b s
  | .yield e => Sys2Proof.Machine.execYield e s
  | .wait e loads stores copies tiles => Sys2Proof.Machine.execWait e loads stores copies tiles s
  | .fence e scope kind mask => Sys2Proof.Machine.execFence e scope kind mask s
  | .trap e code => Sys2Proof.Machine.execTrap e code s
  | .syscall d a n => Sys2Proof.Machine.execSyscall d a n s
  | .uimask e m => Sys2Proof.Machine.execUimask e m s
  | .sread e d n => Sys2Proof.Machine.execSread e d n s
  | .swrite e a n => Sys2Proof.Machine.execSwrite e a n s
  | .tlbinv e a b => Sys2Proof.Machine.execTlbinv e a b s
  | .cpost e a ch => Sys2Proof.Machine.execCpost e a ch s
  | .cstat e d ch => Sys2Proof.Machine.execCstat e d ch s
  | .tbinit e a b => Sys2Proof.Machine.execTbinit e a b s
  | .tbexp e a b => Sys2Proof.Machine.execTbexp e a b s
  | .tbarv e a => Sys2Proof.Machine.execTbarv e a s
  | .tbwait e d a b => Sys2Proof.Machine.execTbwait e d a b s
  | .bar e team => Sys2Proof.Machine.execBar e team s
  | .bara e team => Sys2Proof.Machine.execBara e team s
  | .barw e team => Sys2Proof.Machine.execBarw e team s
  | .tkres e d a pd => Sys2Proof.Machine.execTkres e d a pd s
  | .tkcom e a => Sys2Proof.Machine.execTkcom e a s
  | .tkdrop e a => Sys2Proof.Machine.execTkdrop e a s
  | .ccarm e d a => Sys2Proof.Machine.execCcarm e d a s
  | .ccread e d a => Sys2Proof.Machine.execCcread e d a s
  | .ccdis e a => Sys2Proof.Machine.execCcdis e a s
  | .psend e a b => Sys2Proof.Machine.execPsend e a b s
  | .precv e d a => Sys2Proof.Machine.execPrecv e d a s
  | .pprobe e d a => Sys2Proof.Machine.execPprobe e d a s
  | .txbegin e d pd => Sys2Proof.Machine.execTxbegin e d pd s
  | .txend pd => Sys2Proof.Machine.execTxend pd s
  | .txabort e => Sys2Proof.Machine.execTxabort e s
  | .txstat e d a => Sys2Proof.Machine.execTxstat e d a s
  | .feed e q a => Sys2Proof.Machine.execFeed e q a s
  | .fstop e q => Sys2Proof.Machine.execFstop e q s
  | .trace a b => Sys2Proof.Machine.execTrace a b s
  | .texc a b => Sys2Proof.Machine.execTexc a b s
  | .hitrepAccept e => Sys2Proof.Machine.execHitrepAccept e s
  | .hitrepIgnore e => Sys2Proof.Machine.execHitrepIgnore e s
  | .hitrepTerminate e => Sys2Proof.Machine.execHitrepTerminate e s
  | .rwres e d a pd => Sys2Proof.Machine.execRwres e d a pd s
  | .rwpost e a b => Sys2Proof.Machine.execRwpost e a b s
  | .netjob e a => Sys2Proof.Machine.execNetjob e a s
  | .nstat e d a => Sys2Proof.Machine.execNstat e d a s
  | .pref e a => Sys2Proof.Machine.execPref e a s
  | .flush e a b => Sys2Proof.Machine.execFlush e a b s
  | .inval e a b => Sys2Proof.Machine.execInval e a b s
  | .xwImm payload => Sys2Proof.Machine.execXwImm payload s
  | .xwGuard pol p => Sys2Proof.Machine.execXwGuard pol p s
  | .xwOrder policy hasSeq seq hasScope scope => Sys2Proof.Machine.execXwOrder policy hasSeq seq hasScope scope s
  | .xwMask mask => Sys2Proof.Machine.execXwMask mask s
  | .xwRound dyn sat mode => Sys2Proof.Machine.execXwRound dyn sat mode s
  | .xwOperand r => Sys2Proof.Machine.execXwOperand r s
  | .xwOffset off => Sys2Proof.Machine.execXwOffset off s
  | .queueMap qid => Sys2Proof.Machine.execQueueMap qid s
  | .queueIdleUnmap qid => Sys2Proof.Machine.execQueueIdleUnmap qid s
  | .queueEviction qid => Sys2Proof.Machine.execQueueEviction qid s
  | .queueSuspend qid => Sys2Proof.Machine.execQueueSuspend qid s
  | .launchRecordRead qid => Sys2Proof.Machine.execLaunchRecordRead qid s
  | .launchDependencesSatisfied launch => Sys2Proof.Machine.execLaunchDependencesSatisfied launch s
  | .launchCancelled launch => Sys2Proof.Machine.execLaunchCancelled launch s
  | .distributorRound part => Sys2Proof.Machine.execDistributorRound part s
  | .passedOverTimeout launch => Sys2Proof.Machine.execPassedOverTimeout launch s
  | .priorityChange task q prio => Sys2Proof.Machine.execPriorityChange task q prio s
  | .laneArbitration core lane => Sys2Proof.Machine.execLaneArbitration core lane s
  | .unitArbitration core unit => Sys2Proof.Machine.execUnitArbitration core unit s
  | .resultLanding op => Sys2Proof.Machine.execResultLanding op s
  | .crewCompletion crew => Sys2Proof.Machine.execCrewCompletion crew s
  | .storePerform op => Sys2Proof.Machine.execStorePerform op s
  | .crumbFiring firing => Sys2Proof.Machine.execCrumbFiring firing s
  | .taskDispatch qnum => Sys2Proof.Machine.execTaskDispatch qnum s
  | .pipeAppend op => Sys2Proof.Machine.execPipeAppend op s
  | .pipeOverflowSegment pipe => Sys2Proof.Machine.execPipeOverflowSegment pipe s
  | .pipeCycleInspection ctx => Sys2Proof.Machine.execPipeCycleInspection ctx s
  | .pipeDestroy pipe => Sys2Proof.Machine.execPipeDestroy pipe s
  | .copyHeadTaken core ch => Sys2Proof.Machine.execCopyHeadTaken core ch s
  | .transferRecordFetch core ch => Sys2Proof.Machine.execTransferRecordFetch core ch s
  | .sectorLanding record n => Sys2Proof.Machine.execSectorLanding record n s
  | .recordCompletion record => Sys2Proof.Machine.execRecordCompletion record s
  | .recordPoison record => Sys2Proof.Machine.execRecordPoison record s
  | .userInterruptEntry crew rank => Sys2Proof.Machine.execUserInterruptEntry crew rank s
  | .feedElementFetch crew rank q => Sys2Proof.Machine.execFeedElementFetch crew rank q s
  | .pageWalk core ctx va => Sys2Proof.Machine.execPageWalk core ctx va s
  | .missResolution miss writes => Sys2Proof.Machine.execMissResolution miss writes s
  | .atsCompletion miss present => Sys2Proof.Machine.execAtsCompletion miss present s
  | .priResponse miss success => Sys2Proof.Machine.execPriResponse miss success s
  | .steppingModeRestart crew => Sys2Proof.Machine.execSteppingModeRestart crew s
  | .deferredPoisonTrap crew rank => Sys2Proof.Machine.execDeferredPoisonTrap crew rank s
  | .teardown ctx => Sys2Proof.Machine.execTeardown ctx s
  | .coreLeavesPartition core => Sys2Proof.Machine.execCoreLeavesPartition core s
  | .interimValidation crew rank => Sys2Proof.Machine.execInterimValidation crew rank s
  | .reductionBufferPass core => Sys2Proof.Machine.execReductionBufferPass core s
  | .migrationStart ctx va die frame => Sys2Proof.Machine.execMigrationStart ctx va die frame s
  | .migrationCopyPassEnd mig => Sys2Proof.Machine.execMigrationCopyPassEnd mig s
  | .migrationInvalidationComplete mig => Sys2Proof.Machine.execMigrationInvalidationComplete mig s
  | .oldFrameFreed mig => Sys2Proof.Machine.execOldFrameFreed mig s
  | .remoteRequestTimeout op performed => Sys2Proof.Machine.execRemoteRequestTimeout op performed s
  | .sequenceFreeze op => Sys2Proof.Machine.execSequenceFreeze op s
  | .sequenceResume crew rank seq resumed => Sys2Proof.Machine.execSequenceResume crew rank seq resumed s
  | .planeRemap plane => Sys2Proof.Machine.execPlaneRemap plane s
  | .hostAtomicCompletion op ok => Sys2Proof.Machine.execHostAtomicCompletion op ok s
  | .l2Writeback sector => Sys2Proof.Machine.execL2Writeback sector s
  | .atsInvalidationRequest pasid va size => Sys2Proof.Machine.execAtsInvalidationRequest pasid va size s
  | .rayRequestCompletion ray => Sys2Proof.Machine.execRayRequestCompletion ray s
  | .relaunchCrewFormation launch => Sys2Proof.Machine.execRelaunchCrewFormation launch s
  | .anyHitCrewFormation ray => Sys2Proof.Machine.execAnyHitCrewFormation ray s
  | .anyHitReportsApplied ray => Sys2Proof.Machine.execAnyHitReportsApplied ray s
  | .remoteWorkRecordLanding op => Sys2Proof.Machine.execRemoteWorkRecordLanding op s
  | .millefeuilleJobCompletion job => Sys2Proof.Machine.execMillefeuilleJobCompletion job s
  | .millefeuilleMemberTimeout job => Sys2Proof.Machine.execMillefeuilleMemberTimeout job s
  | .encoderSlot enc => Sys2Proof.Machine.execEncoderSlot enc s
  | .frameReady session frame => Sys2Proof.Machine.execFrameReady session frame s
  | .eccCorrectedError arr unit row => Sys2Proof.Machine.execEccCorrectedError arr unit row s
  | .uncorrectableError datum => Sys2Proof.Machine.execUncorrectableError datum s
  | .rowRemap arr unit row => Sys2Proof.Machine.execRowRemap arr unit row s
  | .jalleyInstanceStop slice => Sys2Proof.Machine.execJalleyInstanceStop slice s
  | .syscallReply crew rank reply => Sys2Proof.Machine.execSyscallReply crew rank reply s
  | .thermalThrottle lowered => Sys2Proof.Machine.execThermalThrottle lowered s
  | .tileFillCompletion op => Sys2Proof.Machine.execTileFillCompletion op s
  | .tileDrainCompletion op => Sys2Proof.Machine.execTileDrainCompletion op s
  | .ret => Sys2Proof.Machine.execRet s
  | .retire => Sys2Proof.Machine.execRetire s
  | .eret => Sys2Proof.Machine.execEret s
  | .uiret => Sys2Proof.Machine.execUiret s
  | .notifyWrite => Sys2Proof.Machine.execNotifyWrite s
  | .preemption => Sys2Proof.Machine.execPreemption s
  | .partitionResize => Sys2Proof.Machine.execPartitionResize s
  | .serialTokenGrant => Sys2Proof.Machine.execSerialTokenGrant s
  | .targetExportCheck => Sys2Proof.Machine.execTargetExportCheck s
  | .hostLoss => Sys2Proof.Machine.execHostLoss s
  | .hostWarmRestart => Sys2Proof.Machine.execHostWarmRestart s
  | .consumedWordWrite => Sys2Proof.Machine.execConsumedWordWrite s
  | .millefeuilleJobStart => Sys2Proof.Machine.execMillefeuilleJobStart s
  | .boot => Sys2Proof.Machine.execBoot s
  | .thermalShutdown => Sys2Proof.Machine.execThermalShutdown s
  | .contextCreation => Sys2Proof.Machine.execContextCreation s
  | .userQueueCreation => Sys2Proof.Machine.execUserQueueCreation s
  | .taskQueueCreation => Sys2Proof.Machine.execTaskQueueCreation s
  | .pipeCreation => Sys2Proof.Machine.execPipeCreation s
  | .workChannelCreation => Sys2Proof.Machine.execWorkChannelCreation s
  | .groupCreation => Sys2Proof.Machine.execGroupCreation s
  | .attestationRequest => Sys2Proof.Machine.execAttestationRequest s

end Sys2Proof.Machine
end

