-- ==== Sys2Proof/Machine/Outside.lean ====
section
/-! DEFINITION. The acts of the Jalley kernel and of the host that no event of the opcode table takes: they land between two steps, in the order they came, one in a step (05_memory R140, R153, 06_consistency R155, R176, 09_crumbs R222, 11_faults R259, 13_fabric R289, R295, R296, 14_system R303, R306, R309, R310; log 67). -/
namespace Sys2Proof.Machine

/-! ### The Jalley kernel -/

/-- No entry of a live context maps an extent. -/
def State.unmappedExtent (s : State) (extent : Nat) : Bool :=
  !((s.contexts.filter fun c => !c.down).any fun c => (s.ctxTables c).2.any fun l => rangesMeet (pteFrame l.2.1) (2 ^ l.2.2) (extent * 2 ^ 21) (2 ^ 21))

/-- The squeeze type of an extent of this package's HBM, which changes only while no entry maps it (R140). -/
def State.setSqueeze (s : State) (extent : Nat) (ty : SqzType) : State :=
  let pa := extent * 2 ^ 21
  if paPeer pa == s.pkg && inHbm (paLocal pa) && s.unmappedExtent extent then
    { s with extents := ⟨extent, (s.extent pa).home, ty⟩ :: s.extents.filter fun e => e.num != extent }
  else s

/-- Segments of its pool that the pipes of a partition hold. -/
def State.heldSegments (s : State) (part : Nat) : Nat :=
  ((s.pipes.filter fun q => match s.getCtx q.ctx with | some c => c.part == part | none => false).map fun q => q.segments).foldl (fun a b => a + b) 0

/-- What the kernel gives a partition beside its cores (R309): whole slices with counters of those slices; a timeout lies from 1 µs to 1 s (13_fabric R290). -/
def State.givePartition (s : State) (part : Nat) (i : PartInit) : State :=
  match s.getPart part with
  | none => s
  | some p =>
    if i.timeout < 1000 || 1000000000 < i.timeout || !(i.slices.all fun k => decide (k < 64)) || !(i.counters.all fun x => i.slices.contains x.1) then s
    else s.setPart { p with
      slices := i.slices, counters := i.counters, memory := i.memory, asids := i.asids, userQueues := i.userQueues, taskQueues := i.taskQueues
      pool := i.pool - s.heldSegments part, timeout := i.timeout, logQuota := i.logQuota, prot := i.prot, persist := i.persist }

/-- The memory map of a context changes (R259): its pages refused are asked about again. -/
def State.setBacked (s : State) (ctx : Nat) (ranges : List (Nat × Nat)) : State :=
  match s.getCtx ctx with
  | none => s
  | some c =>
    if c.down || !s.partAllows c.part c.asid ranges then s
    else State.modCtx { s with refused := s.refused.filter fun r => r.ctx != ctx } ctx fun x => { x with backed := ranges }

/-- An entry of the export map (R289); it resolves the misses that have waited for it. -/
def State.addExport (s : State) (e : ExportInit) : State :=
  if e.size == 0 || e.pa % 65536 != 0 || e.size % 65536 != 0 || !inHbm e.pa || !inHbm (e.pa + e.size - 1) then s
  else State.settleExports { s with exports := ⟨e.peer, e.ctx, e.pa, e.size, e.writable, e.sqz, e.chk⟩ :: s.exports.filter fun x => !(x.peer == e.peer && x.ctx == e.ctx && x.pa == e.pa) }
    (fun m => m.peer == e.peer && m.ctx == e.ctx && e.pa ≤ m.pa && m.pa < e.pa + e.size) .resume

/-- A range of this package's HBM lies on pages that a context maps; `homed` asks that they be homed, too. -/
def State.ctxHolds (s : State) (ctx pa n : Nat) (homed : Bool) : Bool :=
  match s.getCtx ctx with
  | none => false
  | some c =>
    let leaves := (s.ctxTables c).2
    paPeer pa == s.pkg && inHbm (paLocal pa) && inHbm (paLocal pa + n - 1) && (List.range ((pa % 65536 + n + 65535) / 65536)).all fun i =>
      let a := pa / 65536 * 65536 + 65536 * i
      (!homed || (s.extent a).home.isSome) && leaves.any fun l => pteFrame l.2.1 ≤ a && a < pteFrame l.2.1 + 2 ^ l.2.2

/-- The receiving side of a work channel (R295, R296), once for each channel of a sender: the ring on homed pages of the context, the consumed word on a page of it. -/
def State.addReceiver (s : State) (i : RecvInit) : State :=
  if !s.liveCtx i.ctx || 4096 ≤ i.chan || 12 < i.size || i.ring % 128 != 0 || i.word % 4 != 0 || !s.ctxHolds i.ctx i.ring (128 * 2 ^ (i.size + 4)) true || !s.ctxHolds i.ctx i.word 4 false || s.recvChans.any (fun c => c.peer == i.peer && c.chan == i.chan) then s
  else { s with recvChans := s.recvChans ++ [⟨i.peer, i.chan, i.ctx, i.ring, i.size, i.word, 0⟩] }

/-- ENABLED of a task queue (R222) and of a work channel (R295). -/
def State.enableTasks (s : State) (num : Nat) (on : Bool) : State :=
  match s.taskQueues.find? fun q => q.num == num with
  | none => s
  | some q => s.putDesc q.desc (recSet (cellNat s.mem q.desc 64) 88 1 (bit01 on))
def State.enableChannel (s : State) (chan : Nat) (on : Bool) : State :=
  match s.workChan chan with
  | none => s
  | some w => s.setWc w (recSet (s.wcDesc w) 113 1 (bit01 on))

/-- A session of an encoder (R310); no frame needs more than the 16 slots of a cycle. -/
def State.addSession (s : State) (i : SessionInit) : State :=
  if 8 ≤ i.encoder || i.slots == 0 || 16 < i.slots || (s.getPart i.part).isNone || s.sessions.any (fun x => x.id == i.num) then s
  else { s with sessions := s.sessions ++ [⟨i.num, i.part, i.encoder, i.doorbell, i.slots, []⟩] }

/-- An act of the Jalley kernel. -/
def State.kernelAct (s : State) : KernelAct → State
  | .squeezeType extent ty => s.setSqueeze extent ty
  | .write pa bytes => if paPeer pa == s.pkg && inHbm (paLocal pa) && inHbm (paLocal pa + bytes.length) then s.kernelStore pa bytes else s
  | .partition part init => s.givePartition part init
  | .backing ctx ranges => s.setBacked ctx ranges
  | .exportPage init => s.addExport init
  | .unexport peer ctx pa => { s with exports := s.exports.filter fun e => !(e.peer == peer && e.ctx == ctx && e.pa == pa) }
  | .refuseExport peer ctx pa => s.settleExports (fun m => m.peer == peer && m.ctx == ctx && m.pa == pa) .fatal
  | .receiver init => s.addReceiver init
  | .taskQueueEnable num on => s.enableTasks num on
  | .channelEnable chan on => s.enableChannel chan on
  | .session init => s.addSession init
  | .encoderSlots enc slots => if slots.length == 16 then { s with encoders := updWhere (fun e => e.id == enc) (fun e => { e with reserved := slots }) s.encoders } else s

/-! ### The host -/

/-- Bytes of the mailbox, BAR2 (R303). -/
def mailboxSize : Nat := 2 ^ 14

/-- The bytes of the host's memory that an address of the host window names. -/
def inHostRange (pa n : Nat) : Bool := inHost (paLocal pa) && inHost (paLocal pa + n)

/-- Status bits that the host clears, which the kernel takes (R306). -/
def State.clearBits (s : State) (ctx : Nat) (bits : BitVec 6) : State :=
  match s.getCtx ctx with
  | none => s
  | some c =>
    if s.hostLost || !s.kernelUp || bits == 0 then s
    else
      let c1 := { c with bits := c.bits &&& ~~~bits }
      (s.modCtx ctx fun _ => c1).writeBlock c1

/-- A write of the host to its memory: a byte of a context's status block is not written so, but its W1C bits are cleared where the write has ones (R306). -/
def State.hostStore (s : State) (pa : Nat) (bytes : List Byte) : State :=
  let block (a : Nat) : Bool := s.contexts.any fun c => c.status ≤ a && a < c.status + 32
  let s1 : State := { s with mem := ((List.range bytes.length).zip bytes).foldl (fun m p => if block (pa + p.1) then m else cellSet m (pa + p.1) p.2) s.mem }
  (s.contexts.filter fun c => pa ≤ c.status && c.status < pa + bytes.length).foldl (fun (st : State) c => st.clearBits c.id ((bytes.getD (c.status - pa) 0).setWidth 6)) s1

/-- An act of the host: on its own memory at the addresses by which the window names it (R155, R176), or, while the link is up and the package has power, through BAR0 and BAR2 (R303), or the clearing of status bits (R306). After a failed boot BAR2 alone is there, and tells of the image that failed (R312; log 82). -/
def State.hostAct (s : State) : HostAct → State
  | .write pa bytes => if paPeer pa == s.pkg && inHostRange pa bytes.length then s.hostStore pa bytes else s
  | .read pa n => if paPeer pa == s.pkg && inHostRange pa n then { s with hostSeen := s.hostSeen ++ [⟨none, pa, cellRead s.mem pa n⟩] } else s
  | .mailboxWrite off bytes => if !s.hostLost && s.powered && !s.bootStopped && off + bytes.length ≤ mailboxSize then { s with mailbox := cellWrite s.mailbox off bytes } else s
  | .mailboxRead off n => if !s.hostLost && s.powered && off + n ≤ mailboxSize then { s with hostSeen := s.hostSeen ++ [⟨some 2, off, cellRead s.mailbox off n⟩] } else s
  | .windowRead off n =>
    if !s.hostLost && s.powered && !s.bootStopped && off + n ≤ devWindow then State.bumpFree { s with hostSeen := s.hostSeen ++ [⟨some 0, off, s.devRead (s.pkg * 2 ^ 42 + devBase + off) n⟩] } else s
  | .clearStatus ctx bits => s.clearBits ctx bits

/-- What an input stands for that no event takes. -/
inductive OutsideAct where
  | kernel (act : KernelAct)
  | host (act : HostAct)
deriving DecidableEq, Repr

/-- The acts among the inputs. -/
def Input.act : Input → Option OutsideAct
  | .kernel a => some (.kernel a)
  | .host a => some (.host a)
  | _ => none

/-- The first act among the inputs lands; one of the kernel while it does not run is lost. -/
def State.outside (s : State) : State :=
  match takeInput Input.act s.inputs with
  | none => s
  | some (.kernel a, r) => if s.kernelUp then (s.took r).released.kernelAct a else s.took r
  | some (.host a, r) => (s.took r).released.hostAct a

/-- With no act among the inputs, nothing lands. -/
theorem State.outside_none {s : State} (h : takeInput Input.act s.inputs = none) : s.outside = s := by
  simp [State.outside, h]

end Sys2Proof.Machine
end

