-- ==== Sys2Proof/Machine/Run.lean ====
section
/-! DEFINITION. What the next step is: the word of the run being issued, or an event; how time passes; how a word is placed where the next step fetches it (01_execution R16 to R27, 02_encoding R59; log 4, 5, 6). -/
namespace Sys2Proof.Machine

/-! ### Time -/

/-- At least one core cycle passes in a step; how many more, and how many ticks of the time base, is left open (log 5). -/
def State.passTime (s : State) : State :=
  { s with cycles := s.cycles + 1 + Config.cyclesOf s.cycles, ticks := s.ticks + Config.ticksOf s.cycles }

/-- After an effect an act from outside lands, the writes of the hardware that wait are tried again, loads behind an acquire may read ahead (06_consistency R159), attempts and gates note what it has done to them (07_transactions R186, 10_scheduling R247), and time passes. -/
def tickOut (o : Out) : Out :=
  match o with
  | .next s => .next s.outside.flushLate.readAhead.watchTx.noteGates.passTime
  | .fault r => .fault r
  | .refused r => .refused r

/-! ### The run being issued -/

/-- What the machine turns to with an issue at hand: an instruction of it, or what fetching gave instead. -/
inductive Turning where
  | word (s : State) (ins : Instr)
  | done (o : Out)

/-- A word missed at a fetch outside a pre-scan holds the fibres of the issue at the group they stand at (11_faults R258). -/
def State.holdFetch (s : State) (c : Crew) (i : Issue) (host : Bool) : State :=
  (State.modRanks { s with cur := none, nextId := s.nextId + 1, misses := s.misses ++ [⟨s.nextId, c.ctx, i.pc.toNat, host, if host then .atsSent else .kernel, i.crew, i.ranks⟩] }
    i.crew i.ranks fun _ f => { f with st := .held }).modCrew i.crew Crew.fixConv

/-- The word at hand of an issue, as its run was fetched whole for the pre-scan (R59); an issue that holds no words, which no arbitration forms, fetches it (log 6). -/
def State.wordAt (s : State) (c : Crew) (i : Issue) : State × Fetched :=
  match i.code with
  | w :: _ => (s, w)
  | [] => s.fetchWord c.core c.ctx i.pc

/-- The next word of an issue (R22, R59, R80): a fetch that traps does so in every fibre, at the first word of its group. -/
def State.nextWord (s : State) (i : Issue) : Turning :=
  match s.getCrew i.crew with
  | none => .done (.next { s with cur := none })
  | some c =>
    if Config.runWords ≤ i.words then .done (s.trapIssue i .illegalOp)
    else match s.wordAt c i with
      | (s1, .word bs) => (match decodeBytes bs with
        | .ok ins => .word (s1.beats i c ins) ins
        | .error _ => .done (s1.trapIssue i .illegalOp))
      | (s1, .miss host) => .done (.next (s1.holdFetch c i host))
      | (s1, .bad t) => .done (.next ((s1.trapAll i.crew i.group (i.ranks.map fun k => (k, t))).endRun i []))
      | (_, .device) => .done (.refused .deviceRegister)
      | (s1, .held) => .done (.next s1)

/-! ### Events -/

/-- The operation's event when it comes to its turn. -/
def Op.due (o : Op) : List Instr :=
  match o.work with
  | .value .. | .load .. | .atom .. | .cas .. | .logged .. => [.resultLanding o.id]
  | .settle .. | .store .. | .red .. | .lines .. | .tlbinv .. => [.storePerform o.id]
  | .fill .. => [.tileFillCompletion o.id]
  | .drain .. | .drained .. => [.tileDrainCompletion o.id]
  | .append .. => [.pipeAppend o.id]
  | .workRecord .. => [.remoteWorkRecordLanding o.id]
  | .hostAtom .. => [.hostAtomicCompletion o.id true]
  | .fence .. | .chain _ | .job _ => []

/-- The events a fibre may come to. -/
def Fibre.due (f : Fibre) (crew k : Nat) : List Instr :=
  (if f.deferred.isSome then [.deferredPoisonTrap crew k] else []) ++ (if f.tx.isSome then [.interimValidation crew k] else []) ++
  (if f.uiPend.any fun p => p.isSome then [.userInterruptEntry crew k] else []) ++
  ((List.range f.feeds.length).filter fun q => match f.feeds[q]? with | some x => x.record != 0 && !x.stopped && x.entries.length < 4 | none => false).map fun q =>
    .feedElementFetch crew k (BitVec.ofNat 3 q)

/-- The events a crew may come to. -/
def Crew.due (c : Crew) : List Instr :=
  if c.life != .resident then []
  else
    let fs := (List.range c.fibres.length).zip c.fibres
    ((List.range ((c.size + 15) / 16)).map fun j => Instr.laneArbitration c.core (c.lane + j)) ++ [.crewCompletion c.id] ++
    (if c.fibres.any fun f => f.restart then [.steppingModeRestart c.id] else []) ++ fs.flatMap fun p => if p.2.live then p.2.due c.id p.1 else []

/-- The event that takes an input: none for an act, which lands after a step. -/
def inputEvent : Input → Option Instr
  | .notify .. => some .notifyWrite
  | .context _ => some .contextCreation
  | .userQueue .. => some .userQueueCreation
  | .taskQueue .. => some .taskQueueCreation
  | .pipe .. => some .pipeCreation
  | .workChannel .. => some .workChannelCreation
  | .group .. => some .groupCreation
  | .attestation .. => some .attestationRequest
  | .images _ | .homing _ => some .boot
  | .request _ => some .targetExportCheck
  | .consumed .. => some .consumedWordWrite
  | .members .. => some .millefeuilleJobStart
  | .resize .. => some .partitionResize
  | .preempt .. => some .preemption
  | .kernel _ | .host _ => none

/-- Events of the machine itself that may be due, without a schedule (log 4). -/
def State.agenda (s : State) : List Instr :=
  s.inputs.filterMap inputEvent ++ s.ops.flatMap Op.due ++ s.crews.flatMap Crew.due ++
  (s.waiting.flatMap fun i => match s.getCrew i.crew with
    | some c => [CoreUnit.matrix, .sfu, .loadStore, .tileStore, .enginePorts].map fun u => Instr.unitArbitration c.core u
    | none => []) ++
  (s.userQueues.flatMap fun q => [.queueMap q.qid, .queueIdleUnmap q.qid, .queueEviction q.qid, .launchRecordRead q.qid]) ++
  ((s.launches.filter fun l => !l.st.over).flatMap fun l => [.launchDependencesSatisfied l.id, .launchCancelled l.id, .passedOverTimeout l.id, .relaunchCrewFormation l.id]) ++
  (s.partitions.flatMap fun p => Instr.distributorRound p.id :: p.leaving.map fun k => .coreLeavesPartition k) ++
  ((s.taskQueues.filter fun q => !q.order.isEmpty).map fun q => .taskDispatch q.num) ++
  (s.firings.map fun f => .crumbFiring f.id) ++
  (s.pipes.map fun p => .pipeOverflowSegment p.num) ++ (s.contexts.map fun c => .pipeCycleInspection c.id) ++
  (s.chans.flatMap fun x => [.copyHeadTaken x.core x.ch, .transferRecordFetch x.core x.ch]) ++
  (s.transfers.flatMap fun t => [.sectorLanding t.id 0, .recordCompletion t.id, .recordPoison t.id]) ++
  ((s.misses.filter fun m => m.st == .kernel).map fun m => .missResolution m.id []) ++
  (if s.token.queue.isEmpty then [] else [.serialTokenGrant]) ++
  (s.redBuf.map fun x => .reductionBufferPass x.core) ++
  (s.migrations.flatMap fun m => [.migrationCopyPassEnd m.id, .migrationInvalidationComplete m.id, .oldFrameFreed m.id]) ++
  (s.rays.flatMap fun r => [.rayRequestCompletion r.id, .anyHitCrewFormation r.id, .anyHitReportsApplied r.id]) ++
  (s.jobs.map fun j => .millefeuilleJobCompletion j.id)

/-- The outcome leaves the state as it was. -/
def Out.idle (s : State) (o : Out) : Bool :=
  match o with
  | .next t => decide (t = s)
  | _ => false

/-- The first event of a list that has an effect. -/
def State.firstOf (s : State) (run : Instr → State → Out) : List Instr → Option Out
  | [] => none
  | e :: r => if Out.idle s (run e s) then s.firstOf run r else some (run e s)

/-- A list from a position on, wrapping. -/
def rotated {α : Type} (n : Nat) (l : List α) : List α := l.drop (n % max l.length 1) ++ l.take (n % max l.length 1)

/-- An event the machine turns to by itself: the first with an effect, from a place in the agenda that moves on (log 4). -/
def State.ownEvent (s : State) (run : Instr → State → Out) : Out :=
  match State.firstOf s.bumpFree run (rotated s.free s.agenda) with
  | some o => o
  | none => .next s

/-- Whether an instruction is an event of the machine, not a word. -/
def isEvent (e : Instr) : Bool := (encode e).isNone

/-- The step with no issue at hand: the schedule's next event, or one of the machine's own. A word in a schedule is passed over. -/
def State.turnEvent (s : State) (run : Instr → State → Out) : Out :=
  match s.schedule with
  | e :: r => if isEvent e then run e { s with schedule := r } else .next { s with schedule := r }
  | [] => s.ownEvent run

/-! ### Placing a word -/

/-- The program counter of a word placed: virtual, and local to the package. -/
def placePc : PcAddr := 0x1000
/-- The tables of a word placed: local addresses of levels 1 to 3. -/
def placeRoot : Nat := 0x10000

/-- A context whose tables map the first GiB to itself, writable and executable. -/
def placeCtx (s : State) : Context := ⟨s.nextId, 0, 0, placeRoot, 0x2000, true, 0, 0, [], false, 0, 0, 0⟩

/-- A crew of one fibre on lane 0 of core 0, its issue at hand. -/
def placeCrew (s : State) : Crew where
  id := s.nextId + 1
  ctx := s.nextId
  launch := 0
  team := s.nextId + 2
  kind := .ordinary
  life := .resident
  core := 0
  lane := 0
  index := 0
  teamIndex := 0
  teamPos := 0
  teamSize := 1
  gridSize := 1
  args := 0
  size := 1
  grows := 64
  feeds := 0
  prio := 0
  converged := true
  regs := List.replicate 120 Desc.zero
  rows := List.replicate 64 [0]
  fibres := [{ Fibre.fresh placePc 0 s.cycles s.nextId with st := .issuing }]
  scratchSize := 4096
  scratch := []
  tiles := List.replicate 16 ⟨.ready, List.replicate 256 0⟩
  nstatus := 0
  uiVec := 0
  uiMasked := false
  barPhase := false
  chans := List.replicate 4 ⟨0, false⟩
  area := 0
  image := 0

/-- The issue of the word placed. -/
def placeIssue (s : State) : Issue := ⟨s.nextId + 1, [0], true, placePc, placePc, Ext.zero, s.nextId + 3, 0, [], 0, false⟩

/-- Memory with a word placed, the NOP behind it, and the tables. -/
def placeMem (s : State) (w : Nat) : List Host.Cell :=
  let at_ (a : Nat) : Nat := s.pkg * 2 ^ 42 + a
  let leaf := 0x600F + s.pkg * 2 ^ 42
  let next (a : Nat) : Nat := 1 + a
  cellWrite (cellWrite (cellWrite (cellWrite s.mem (at_ placePc.toNat) (natBytes 4 w ++ natBytes 4 0xE0000000)) (at_ placeRoot) (natBytes 8 (next 0x11000)))
    (at_ 0x11000) (natBytes 8 (next 0x12000))) (at_ 0x12000) (natBytes 8 leaf)

/-- A state whose next step fetches the word (log 6). -/
def State.placeWord (s : State) (w : Nat) : State :=
  { s with
    nextId := s.nextId + 4
    tlb := []
    mem := placeMem s w
    poison := s.poison.filter fun d => match d with | .memory a => a / 32 * 32 != s.pkg * 2 ^ 42 + 0x1000 | _ => true
    contexts := placeCtx s :: s.contexts
    crews := placeCrew s :: s.crews
    teams := s.teams ++ [⟨s.nextId + 2, 0, false, false⟩]
    cur := some (placeIssue s) }

end Sys2Proof.Machine
end

