-- ==== Sys2Proof/Machine/Step.lean ====
section
/-! DEFINITION. One step of the machine, and a word placed where the next step fetches it (01_execution R22; log 4 to 6). -/
namespace Sys2Proof.Machine

/-- One step: the next word of the run being issued, or an event; then time passes. -/
def step (s : State) : Host.Outcome State Fault Refusal :=
  match s.cur with
  | some i => (match s.nextWord i with
    | .word s1 ins => tickOut (exec ins s1)
    | .done o => tickOut o)
  | none => tickOut (s.turnEvent exec)

/-- The state with a word stored where step fetches its next instruction. -/
def State.withFetchWord (s : State) (_nbits w : Nat) : State := s.placeWord w

end Sys2Proof.Machine
end

