-- ==== Sys2Proof/Safety.lean ====
section
/-! DEFINITION. The terms the statements use: the canonical form of memory, a register file in order, an instruction at its turn, and what an instruction leaves alone. -/
namespace Sys2Proof.Machine

/-- The canonical form of pod memory and of every scratchpad: addresses strictly rising, no entry equal to what an unlisted address reads as. -/
abbrev Memory.wf (s : State) : Prop := cellWf s.mem = true ∧ ∀ c ∈ s.crews, cellWf c.scratch = true

/-- A register file in order (01_execution R34, R37, R38): 120 descriptors, the declared rows of one element for each rank, every G register with a row of its own. -/
def Crew.regsOk (c : Crew) : Bool :=
  c.regs.length == 120 && c.fibres.length == c.size && c.rows.length == c.grows && decide (c.grows ≤ 256) &&
  c.rows.all (fun r => r.length == c.size) && c.usedRows.all (fun r => decide (r < c.grows)) && decide c.usedRows.Nodup

/-- Crews in order (01_execution R13, R17, R34, R37, R38): their numbers are distinct and below the next one, their register files are in order, and the issues at hand and waiting name ranks that their crews have, each once. -/
abbrev CrewsInOrder (s : State) : Prop :=
  (s.crews.map fun c => c.id).Nodup ∧ (∀ c ∈ s.crews, c.id < s.nextId ∧ c.regsOk = true) ∧
  ∀ i ∈ s.cur.toList ++ s.waiting, i.crew < s.nextId ∧ i.ranks.Nodup ∧ ∀ c ∈ s.crews, c.id = i.crew → ∀ k ∈ i.ranks, k < c.size

/-- An instruction word at its turn, with nothing in its way: an issue at hand, a word that passes the checks of R21, the executing ranks x, no attempt where the instruction is barred in one (07_transactions R182), nothing that it waits for at issue (11_faults R255, 16_ref R369, 04_matrix R124). -/
def Ready (s : State) (ins : Instr) (i : Issue) (c : Crew) (x : List Nat) : Prop :=
  s.cur = some i ∧ s.getCrew i.crew = some c ∧ (formOf c i.ext ins).check i.ext = none ∧ x = c.executing i ∧
  ((formOf c i.ext ins).barred = true → ∀ r ∈ x, c.inTx r = false) ∧
  s.turnWaits i c (formOf c i.ext ins) x = false ∧
  i.ranks.Nodup ∧ ∀ r ∈ i.ranks, r < c.fibres.length

/-- A fibre reads its source registers: their values and tags, none of them poisoned (01_execution R35, R37, 05_memory R153). -/
def Reads (s : State) (c : Crew) (k : Nat) (srcs : List Reg) (l : List (Word × Tag)) : Prop :=
  s.readSrcs c k [] srcs = .ok l ∧ s.regPoisoned c.id k srcs = false

/-- A fibre is as `f` says but for where it stands: its pc, and whether it is Ready. -/
def Onward (f g : Fibre) : Prop := g = { f with pc := g.pc, st := g.st, stamp := g.stamp }

/-- An instruction has completed and its issue moved on (01_execution R22, R29): the fibres of the issue stand at the next word, fibre k as `fib k` makes it from what it was, behind a region closer at a new region; the crew is as `d` says but for its fibres and converged flag; the rest of the state is as `u` says but for the issue at hand. -/
def MovedOn (u t : State) (i : Issue) (fm : Form) (c d : Crew) (done : List Nat) (fib : Nat → Fibre → Fibre) : Prop :=
  ∃ c' m, t.getCrew i.crew = some c' ∧ c' = { d with fibres := c'.fibres, converged := c'.converged } ∧
    (∀ k f, c.fib k = some f → ∃ g, c'.fib k = some g ∧ g.pc = (if k ∈ i.ranks then i.pc + 4 else f.pc) ∧
      Onward (if fm.region = true ∧ k ∈ i.ranks ∧ k ∈ done then (fib k f).region (i.pc + 4) m else fib k f) g) ∧
    (∀ id, id ≠ i.crew → t.getCrew id = u.getCrew id) ∧
    t = { u with cur := t.cur, crews := t.crews } ∧
    t.cur = if fm.b then none else some i.onward

/-- A fibre Ready at an address (01_execution R14). -/
def Fibre.readyAt (f : Fibre) (pc : PcAddr) (now : Nat) : Fibre := { f with pc := pc, st := .ready, stamp := now }

/-- A fibre of a run that ends here goes on at an address (01_execution R22). -/
def Fibre.leaves (f : Fibre) (pc : PcAddr) (now : Nat) : Fibre := if f.st = .issuing then f.readyAt pc now else { f with pc := pc }

/-- A run has ended (01_execution R22): the fibres are as `fib` says, the crew as `d` says but for its fibres and the converged flag, which is clear where the live fibres no longer stand together (R18); the rest of the state is as `u` says with no issue at hand. -/
def RunEnded (u t : State) (i : Issue) (c d : Crew) (fib : Nat → Fibre → Fibre) : Prop :=
  ∃ c', t.getCrew i.crew = some c' ∧ c' = { d with fibres := c'.fibres, converged := d.converged && c'.together } ∧
    (∀ k f, c.fib k = some f → c'.fib k = some (fib k f)) ∧ (∀ id, id ≠ i.crew → t.getCrew id = u.getCrew id) ∧ t = { u with cur := none, crews := t.crews }

/-- A MASK word selects elements that the result's tag has (02_encoding R78). -/
def MaskFits (x : Ext) (t : Tag) : Prop := ∀ m, x.mask = some m → m.toNat < 2 ^ tagCount t

/-- Under a MASK word the old value of the destination is an operand, and is not poisoned (02_encoding R78, 05_memory R153). -/
def MaskReads (s : State) (x : Ext) (c : Crew) (ranks : List Nat) (d : Reg) : Prop := x.mask.isSome = true → ∀ k ∈ ranks, s.regPoisoned c.id k [d] = false

/-- The shape of a result (01_execution R39) from its sources with their tags, and under a MASK word the old value of the destination; `rounds` says that it may take its mode from FPSTAT. -/
def Crew.resultShape (c : Crew) (x : Ext) (ranks : List Nat) (rounds : Bool) (rule : ShapeRule) (srcs : List (Reg × Tag)) (d : Nat) (tag : Tag) : Shape :=
  let sh := rule.shape ((srcs.map fun q => (c.shapeOf q.1, q.2)) ++ if x.mask.isSome then [((c.desc d).shape, tag)] else []) tag
  if (rounds && x.dynamicMode && ranks.any fun k => (c.envAt x k).mode != (c.envAt x (ranks.headD 0)).mode) || (x.mask.isSome && sh == .a) then .g else sh

/-- The pool has the rows that results of given shapes take (01_execution R40), the shape of each by the ranks that write it. -/
def Crew.Room (c : Crew) (x : List Nat) (l : List (Nat × Shape)) : Prop :=
  x ≠ [] → (c.shapeSteps (l.map fun p => (p.1, c.writeShape p.1 p.2 x))).isSome = true

/-- An instruction has written registers: register D.1 has tag D.2.1 and at each rank k of x the word D.2.2 k; every other register, and every register at the live ranks that did not execute, reads as before (01_execution R40). -/
def RegsWritten (c d : Crew) (x : List Nat) (ds : List (Nat × Tag × (Nat → Word))) : Prop :=
  d.regsOk = true ∧ d = { c with regs := d.regs, rows := d.rows } ∧
  (∀ D ∈ ds, x ≠ [] → (d.desc D.1).tag = D.2.1) ∧ (∀ D ∈ ds, ∀ k ∈ x, d.elem D.1 k = D.2.2 k) ∧
  (∀ r k, r < 120 → k < c.size → (r ∉ ds.map (fun D => D.1) ∨ (k ∈ c.liveSet ∧ k ∉ x)) → d.elem r k = c.elem r k) ∧
  (∀ r, r ∉ ds.map (fun D => D.1) → (d.desc r).tag = (c.desc r).tag)

/-- Registers written have the shape of their results where every live fibre writes, else G (01_execution R39, R40). -/
def Shaped (c d : Crew) (x : List Nat) (l : List (Nat × Shape)) : Prop := x ≠ [] → ∀ p ∈ l, (d.desc p.1).shape = c.writeShape p.1 p.2 x

/-- Registers whose values land later have taken their rows (01_execution R42): one that will be G is G, any other has the shape it had. -/
def RowsTaken (c d : Crew) (x : List Nat) (l : List (Nat × Shape)) : Prop :=
  x ≠ [] → ∀ p ∈ l, (d.desc p.1).shape = if c.writeShape p.1 p.2 x = .g then .g else (c.desc p.1).shape

/-- The sign of a value, and the number that a finite one is (03_arithmetic R96). -/
def Ex.isNeg : Ex → Bool
  | .nan => false
  | .inf s => s
  | .fin s _ _ => s
def Ex.rat : Ex → Rat
  | .fin s n d => (if s then -1 else 1) * ((n : Rat) / (d : Rat))
  | _ => 0

/-- An element and its flags are one rounding of an exact real (03_arithmetic R103). -/
def Fmt.Rounds (f : Fmt) (env : FEnv) (v : Rat) (r : Nat × Nat) : Prop := ∃ s n d, 0 < d ∧ (Ex.fin s n d).rat = v ∧ r = f.round (.fin s n d) env.mode env.sat

/-- The integer nearest a real under a mode (03_arithmetic R102, R106). -/
def NearestInt (mode : RMode) (v : Rat) (n : Int) : Prop :=
  match mode with
  | .rne => -1 ≤ 2 * ((n : Rat) - v) ∧ 2 * ((n : Rat) - v) ≤ 1 ∧ ((2 * ((n : Rat) - v) = 1 ∨ 2 * ((n : Rat) - v) = -1) → n % 2 = 0)
  | .rtz => if 0 ≤ v then (n : Rat) ≤ v ∧ v < n + 1 else v ≤ n ∧ (n : Rat) - 1 < v
  | .rup => v ≤ n ∧ (n : Rat) - 1 < v
  | .rdn => (n : Rat) ≤ v ∧ v < n + 1

/-- Results that land later: one outstanding operation for each, of the ranks x, newest last (01_execution R27, R42); no operation where no fibre executes. Earlier operations of the run no longer write its registers (R28). -/
def State.later (s : State) (i : Issue) (f : Form) (c : Crew) (x : List Nat) (regs : List Nat) (ws : List Work) : State :=
  if x = [] then s else ws.foldl (fun st w => st.addOp (Turn.op ⟨i, f, x, []⟩ c (x.headD 0) x w) none) (s.overwrite i x regs)

/-- The accesses of an instruction find their places (05_memory R142 to R145): fibre k of x reads the address va k and carries v k; translation leaves the state s1 and finds the hits, none of them a miss or a fault; the fibres are being issued, in no attempt and not in stepping mode. -/
def Finds {α : Type} (s : State) (c : Crew) (write : Bool) (x : List Nat) (va : Nat → Nat × Option Place) (v : Nat → α) (s1 : State) (hits : List (Hit α)) : Prop :=
  s.locate c write (x.map fun k => (k, ⟨(va k).1, (va k).2, v k⟩)) = (s1, ⟨hits, [], []⟩) ∧
  ∀ k ∈ x, ∀ f, c.fib k = some f → f.st = .issuing ∧ f.tx = none ∧ f.stepping = false

/-- An instruction has issued accesses (01_execution R27, 18_ref R405): the operations join those outstanding with numbers from nextId on, and count in a class of their fibres; registers, predicates and flags read as before; the fibres of the issue stand at the next word; the rest of the state is as s1 says. -/
def Issued (s1 t : State) (i : Issue) (fm : Form) (c : Crew) (x regs : List Nat) (cls : Option OpClass) (new : List Op) : Prop :=
  ∃ c', t.getCrew i.crew = some c' ∧ c' = { c with regs := c'.regs, rows := c'.rows, fibres := c'.fibres, converged := c'.converged } ∧ c'.regsOk = true ∧
    (∀ r k, r < 120 → k < c.size → c'.elem r k = c.elem r k) ∧ (∀ r, (c'.desc r).tag = (c.desc r).tag) ∧
    (∀ k f, c.fib k = some f → ∃ g, c'.fib k = some g ∧ g.pc = (if k ∈ i.ranks then i.pc + 4 else f.pc) ∧ g.preds = f.preds ∧ g.fpstat = f.fpstat ∧ g.live = f.live ∧
      g.counts = f.counts ++ (match cls with
        | some q => (((List.range new.length).zip new).filter fun p => p.2.ranks.contains k).map fun p => ⟨q, s1.nextId + p.1, false⟩
        | none => [])) ∧
    (∀ id, id ≠ i.crew → t.getCrew id = s1.getCrew id) ∧
    t = { s1 with cur := t.cur, crews := t.crews, parked := t.parked, nextId := s1.nextId + new.length,
                  ops := (s1.overwrite i x regs).ops ++ ((List.range new.length).zip new).map fun p => { p.2 with id := s1.nextId + p.1 } } ∧
    t.cur = if fm.b then none else some i.onward

/-- Memory and every scratchpad read as before, byte by byte. -/
def MemKept (s t : State) : Prop := (∀ a, cellGet t.mem a = cellGet s.mem a) ∧ ∀ id a, cellGet (t.scratchOf id) a = cellGet (s.scratchOf id) a

end Sys2Proof.Machine
end

