-- ==== Sys2Proof/Certificates/Slice0/Obligations.lean ====
section
/-! DEFINITION. The statements for the provers, one definition each. -/
open Sys2Proof Sys2Proof.Machine

/-! ### Arithmetic, bitwise and moves -/

/-- ADD, SUB, MUL, MIN and MAX of two registers of one arithmetic tag: each executing fibre's element of d is the operation of its elements, under the mask; the flags of the elements written; nothing else (R104, R315, R354, R376, R39, R40, R78). ADD, SUB, MUL, MIN and MAX of a register and an immediate: 32-bit integers, the immediate of R79 as a word (R64, R315, R354, R376). Integers wrap, and are the smaller or larger by their tag; a floating-point element is the exact sum, difference or product rounded once, with R104's zeros, infinities and NaNs; rows of R104's table; a MASK word's elements and flags (R94, R103, R104, R78, R111). It states the completion of: addA3, addAi, subA3, subAi, mulA3, mulAi, minA3, minAi, maxA3, maxAi. -/
def Obligations.ArithmeticWritesItsResult : Prop :=
  (
    ∀ p ∈ ([(Instr.addA3, ShapeRule.add, true, fun env => addElem env false), (.subA3, .add, true, fun env => addElem env true), (.mulA3, .mul, true, mulElem),
        (.minA3, .uni, false, fun _ => minmaxElem false), (.maxA3, .uni, false, fun _ => minmaxElem true)] :
        List ((Bool → Reg → Reg → Reg → Instr) × ShapeRule × Bool × (FEnv → Elem → List Nat → Nat × Nat))),
    ∀ (e : Bool) (d a b : Reg) (s : State) (i : Issue) (c : Crew) (x : List Nat) (T : Tag) (va vb : Nat → Word),
      Ready s (p.1 e d a b) i c x → c.regsOk = true → d.toNat < 120 → arithTag T = true → MaskFits i.ext T → MaskReads s i.ext c x d →
      (∀ k ∈ x, Reads s c k [a, b] [(va k, T), (vb k, T)]) →
      c.Room x [(d.toNat, c.resultShape i.ext x (p.2.2.1 && floatTag T) p.2.1 [(a, T), (b, T)] d.toNat T)] →
      ∃ t c', exec (p.1 e d a b) s = .next t ∧ Shaped c c' x [(d.toNat, c.resultShape i.ext x (p.2.2.1 && floatTag T) p.2.1 [(a, T), (b, T)] d.toNat T)] ∧
        RegsWritten c c' x [(d.toNat, T, fun k => mergeElems i.ext.mask (c.elem d.toNat k) (eachElem T (p.2.2.2 (c.envAt i.ext k)) [va k, vb k]))] ∧
        MovedOn (s.marked i x [d.toNat]) t i (formOf c i.ext (p.1 e d a b)) c c' x fun k f =>
          if k ∈ x then (f.popAll [a, b]).flag (flagsOf i.ext.mask (eachElem T (p.2.2.2 (c.envAt i.ext k)) [va k, vb k])) else f
  ) ∧
  (
    ∀ p ∈ ([(Instr.addAi, ShapeRule.add, fun env => addElem env false), (.subAi, .add, fun env => addElem env true), (.mulAi, .mul, mulElem),
        (.minAi, .uni, fun _ => minmaxElem false), (.maxAi, .uni, fun _ => minmaxElem true)] :
        List ((Bool → Reg → Reg → BitVec 7 → Instr) × ShapeRule × (FEnv → Elem → List Nat → Nat × Nat))),
    ∀ (e : Bool) (d a : Reg) (imm : BitVec 7) (s : State) (i : Issue) (c : Crew) (x : List Nat) (T : Tag) (va : Nat → Word),
      Ready s (p.1 e d a imm) i c x → c.regsOk = true → d.toNat < 120 → isInt32 T = true → MaskFits i.ext T → MaskReads s i.ext c x d →
      (∀ k ∈ x, Reads s c k [a] [(va k, T)]) →
      c.Room x [(d.toNat, c.resultShape i.ext x false p.2.1 [(a, T)] d.toNat T)] →
      ∃ t c', exec (p.1 e d a imm) s = .next t ∧ Shaped c c' x [(d.toNat, c.resultShape i.ext x false p.2.1 [(a, T)] d.toNat T)] ∧
        RegsWritten c c' x [(d.toNat, T, fun k => mergeElems i.ext.mask (c.elem d.toNat k) (eachElem T (p.2.2 (c.envAt i.ext k)) [va k, immWord i.ext imm]))] ∧
        MovedOn (s.marked i x [d.toNat]) t i (formOf c i.ext (p.1 e d a imm)) c c' x fun k f => if k ∈ x then f.popAll [a] else f
  ) ∧
  (
    ∀ (env : FEnv),
      (∀ T ∈ [Tag.si32, .ui32], ∀ a b : Word,
        eachElem T (addElem env false) [a, b] = [((a + b).toNat, 0)] ∧ eachElem T (addElem env true) [a, b] = [((a - b).toNat, 0)] ∧ eachElem T (mulElem env) [a, b] = [((a * b).toNat, 0)] ∧
        eachElem T (minmaxElem false) [a, b] = [((if (if T = .si32 then a.toInt < b.toInt else a.toNat < b.toNat) then a else b).toNat, 0)] ∧
        eachElem T (minmaxElem true) [a, b] = [((if (if T = .si32 then a.toInt < b.toInt else a.toNat < b.toNat) then b else a).toNat, 0)]) ∧
      (∀ T ∈ [Tag.si8x4, .ui8x4], ∀ a b : Word,
        let lanes (g : Nat → Nat → Nat) : List (Nat × Nat) := (List.range 4).map fun n => (g (a.toNat / 2 ^ (8 * n) % 256) (b.toNat / 2 ^ (8 * n) % 256), 0)
        let less (y z : Nat) : Prop := if T = .si8x4 then (BitVec.ofNat 8 y).toInt < (BitVec.ofNat 8 z).toInt else y < z
        eachElem T (addElem env false) [a, b] = lanes (fun y z => (y + z) % 256) ∧ eachElem T (addElem env true) [a, b] = lanes (fun y z => (y + (256 - z)) % 256) ∧
        eachElem T (mulElem env) [a, b] = lanes (fun y z => y * z % 256) ∧
        ∃ least most, eachElem T (minmaxElem false) [a, b] = lanes least ∧ eachElem T (minmaxElem true) [a, b] = lanes most ∧
          ∀ y z, y < 256 → z < 256 → (less y z → least y z = y ∧ most y z = z) ∧ (¬less y z → least y z = z ∧ most y z = y)) ∧
      (∀ p ∈ [(Tag.f32, fF32), (.bf16x2, fBF16), (.f16x2, fF16)], ∀ (g : Elem → List Nat → Nat × Nat) (ws : List Word),
        eachElem p.1 g ws = (List.range (32 / p.2.width)).map fun n => g (.flt p.2) (ws.map fun w => w.toNat / 2 ^ (p.2.width * n) % 2 ^ p.2.width)) ∧
      (∀ f ∈ [fF32, fBF16, fF16], ∀ a b : Nat, a < 2 ^ f.width → b < 2 ^ f.width →
        let x := f.value a
        let y := f.value b
        let add := addElem env false (.flt f) [a, b]
        let sub := addElem env true (.flt f) [a, b]
        let mul := mulElem env (.flt f) [a, b]
        let zero (neg : Bool) : Nat × Nat := (f.signed neg 0, 0)
        let inf (neg : Bool) : Nat × Nat := (f.signed neg f.inf, 0)
        (x.isFinite = true → y.isFinite = true →
          f.Rounds env (x.rat + y.rat) add ∧ f.Rounds env (x.rat - y.rat) sub ∧ f.Rounds env (x.rat * y.rat) mul ∧
          (x.rat + y.rat = 0 → add = zero (if x.isNeg = y.isNeg then x.isNeg else decide (env.mode = .rdn))) ∧
          (x.rat - y.rat = 0 → sub = zero (if x.isNeg = y.isNeg then decide (env.mode = .rdn) else x.isNeg)) ∧
          (x.rat * y.rat = 0 → mul = zero (x.isNeg != y.isNeg))) ∧
        (x.isNan = true ∨ y.isNan = true → add = (f.canonNan, 0) ∧ sub = (f.canonNan, 0) ∧ mul = (f.canonNan, 0)) ∧
        (∀ p q, x = .inf p → y = .inf q →
          add = (if p = q then inf p else (f.canonNan, flIV)) ∧ sub = (if p = q then (f.canonNan, flIV) else inf p) ∧ mul = inf (p != q)) ∧
        (∀ p, x = .inf p → y.isFinite = true → add = inf p ∧ sub = inf p ∧ mul = if y.rat = 0 then (f.canonNan, flIV) else inf (p != y.isNeg)) ∧
        (∀ q, y = .inf q → x.isFinite = true → add = inf q ∧ sub = inf (!q) ∧ mul = if x.rat = 0 then (f.canonNan, flIV) else inf (x.isNeg != q)) ∧
        let least := minmaxElem false (.flt f) [a, b]
        let most := minmaxElem true (.flt f) [a, b]
        let below (x y : Ex) : Prop := x = .inf true ∨ y = .inf false ∨ (x.isFinite = true ∧ y.isFinite = true ∧ (x.rat < y.rat ∨ (x.rat = y.rat ∧ x.isNeg = true ∧ y.isNeg = false)))
        least.2 = 0 ∧ most.2 = 0 ∧ (x.isNan = true → y.isNan = true → least.1 = f.canonNan ∧ most.1 = f.canonNan) ∧
        (x.isNan = true → y.isNan = false → least.1 = b ∧ most.1 = b) ∧ (x.isNan = false → y.isNan = true → least.1 = a ∧ most.1 = a) ∧
        (x.isNan = false → y.isNan = false → (below x y → least.1 = a ∧ most.1 = b) ∧ (below y x → least.1 = b ∧ most.1 = a))) ∧
      addElem ⟨.rne, false⟩ false (.flt fF32) [0x7F7FFFFF, 0x73000000] = (0x7F800000, flOF + flIX) ∧ addElem ⟨.rne, true⟩ false (.flt fF32) [0x7F7FFFFF, 0x73000000] = (0x7F7FFFFF, flSAT + flIX) ∧
      addElem ⟨.rtz, false⟩ false (.flt fF32) [0x7F7FFFFF, 0x73000000] = (0x7F7FFFFF, flIX) ∧
      (∀ (m : Option (BitVec 8)) (old : Word) (es : List (Nat × Nat)), es.length ∈ [1, 2, 4, 8] →
        let sel (n : Nat) : Bool := match m with | some w => w.getLsbD n | none => true
        let w := 32 / es.length
        (∀ n z, es[n]? = some z → (mergeElems m old es).toNat / 2 ^ (w * n) % 2 ^ w = if sel n then z.1 % 2 ^ w else old.toNat / 2 ^ (w * n) % 2 ^ w) ∧
        ∀ j, (flagsOf m es).testBit j = true ↔ ∃ n z, es[n]? = some z ∧ sel n = true ∧ z.2.testBit j = true)
  )

/-- AND, OR, XOR, SHL, SHR, SAR and ROT, of two registers and of a register and an immediate: the operation on the 32 bits, with the first operand's tag, any tags accepted (R315, R354, R376, R406, R44). MULHI, MA, BFE, BFI, DOT4 and DOTT: the high word of the exact product; the sum rounded or wrapped once, with d or the OPERAND register as the addend; the field extracted or inserted; the sums of byte products or of signed activations, with TC where a weight is no ternary value (R354, R316, R130, R131). MA's integers wrap; a floating-point element is the exact a × b + c rounded once, with R104's zeros, infinities and NaNs (R94, R103, R104). It states the completion of: mulhi, ma, andA3, andAi, orA3, orAi, xorA3, xorAi, shlA3, shlAi, shrA3, shrAi, sarA3, sarAi, rotA3, rotAi, bfe, bfi, dot4, dott. -/
def Obligations.BitMultiplyAndFieldOperationsWriteTheirResults : Prop :=
  (
    (∀ p ∈ ([(Instr.andA3, ShapeRule.uni, fun a b => a &&& b), (.orA3, .uni, fun a b => a ||| b), (.xorA3, .uni, fun a b => a ^^^ b),
        (.shlA3, .shl, fun a b => a <<< (b.toNat % 32)), (.shrA3, .uni, fun a b => a >>> (b.toNat % 32)), (.sarA3, .uni, fun a b => a.sshiftRight (b.toNat % 32)),
        (.rotA3, .uni, fun a b => a.rotateLeft (b.toNat % 32))] : List ((Bool → Reg → Reg → Reg → Instr) × ShapeRule × (Word → Word → Word))),
      ∀ (e : Bool) (d a b : Reg) (s : State) (i : Issue) (c : Crew) (x : List Nat) (ta tb : Tag) (va vb : Nat → Word),
        Ready s (p.1 e d a b) i c x → c.regsOk = true → d.toNat < 120 → (∀ k ∈ x, Reads s c k [a, b] [(va k, ta), (vb k, tb)]) →
        c.Room x [(d.toNat, c.resultShape i.ext x false p.2.1 [(a, ta), (b, tb)] d.toNat ta)] →
        ∃ t c', exec (p.1 e d a b) s = .next t ∧ Shaped c c' x [(d.toNat, c.resultShape i.ext x false p.2.1 [(a, ta), (b, tb)] d.toNat ta)] ∧ RegsWritten c c' x [(d.toNat, ta, fun k => p.2.2 (va k) (vb k))] ∧
          MovedOn (s.marked i x [d.toNat]) t i (formOf c i.ext (p.1 e d a b)) c c' x fun k f => if k ∈ x then f.popAll [a, b] else f) ∧
    (∀ p ∈ ([(Instr.andAi, ShapeRule.uni, fun a b => a &&& b), (.orAi, .uni, fun a b => a ||| b), (.xorAi, .uni, fun a b => a ^^^ b),
        (.shlAi, .shl, fun a b => a <<< (b.toNat % 32)), (.shrAi, .uni, fun a b => a >>> (b.toNat % 32)), (.sarAi, .uni, fun a b => a.sshiftRight (b.toNat % 32)),
        (.rotAi, .uni, fun a b => a.rotateLeft (b.toNat % 32))] : List ((Bool → Reg → Reg → BitVec 7 → Instr) × ShapeRule × (Word → Word → Word))),
      ∀ (e : Bool) (d a : Reg) (imm : BitVec 7) (s : State) (i : Issue) (c : Crew) (x : List Nat) (ta : Tag) (va : Nat → Word),
        Ready s (p.1 e d a imm) i c x → c.regsOk = true → d.toNat < 120 → (∀ k ∈ x, Reads s c k [a] [(va k, ta)]) →
        c.Room x [(d.toNat, c.resultShape i.ext x false p.2.1 [(a, ta)] d.toNat ta)] →
        ∃ t c', exec (p.1 e d a imm) s = .next t ∧ Shaped c c' x [(d.toNat, c.resultShape i.ext x false p.2.1 [(a, ta)] d.toNat ta)] ∧ RegsWritten c c' x [(d.toNat, ta, fun k => p.2.2 (va k) (immWord i.ext imm))] ∧
          MovedOn (s.marked i x [d.toNat]) t i (formOf c i.ext (p.1 e d a imm)) c c' x fun k f => if k ∈ x then f.popAll [a] else f)
  ) ∧
  (
    ∀ (e : Bool) (d a b : Reg) (s : State) (i : Issue) (c : Crew) (x : List Nat) (T ta tb td : Tag) (va vb vc : Nat → Word), c.regsOk = true → d.toNat < 120 →
      (Ready s (.mulhi e d a b) i c x → isInt32 T = true → (∀ k ∈ x, Reads s c k [a, b] [(va k, T), (vb k, T)]) →
        c.Room x [(d.toNat, c.resultShape i.ext x false .uni [(a, T), (b, T)] d.toNat T)] →
        ∃ t c', exec (.mulhi e d a b) s = .next t ∧ Shaped c c' x [(d.toNat, c.resultShape i.ext x false .uni [(a, T), (b, T)] d.toNat T)] ∧
          RegsWritten c c' x [(d.toNat, T, fun k => BitVec.ofInt 32 ((if T = .si32 then (va k).toInt * (vb k).toInt else ((va k).toNat * (vb k).toNat : Nat)) / 2 ^ 32))] ∧
          MovedOn (s.marked i x [d.toNat]) t i (formOf c i.ext (.mulhi e d a b)) c c' x fun k f => if k ∈ x then f.popAll [a, b] else f) ∧
      (Ready s (.ma e d a b) i c x → arithTag T = true → MaskFits i.ext T → MaskReads s i.ext c x d →
        (∀ k ∈ x, Reads s c k [a, b, i.ext.operand.getD d] [(va k, T), (vb k, T), (vc k, T)]) →
        c.Room x [(d.toNat, c.resultShape i.ext x (floatTag T) .uni [(a, T), (b, T), (i.ext.operand.getD d, T)] d.toNat T)] →
        ∃ t c', exec (.ma e d a b) s = .next t ∧ Shaped c c' x [(d.toNat, c.resultShape i.ext x (floatTag T) .uni [(a, T), (b, T), (i.ext.operand.getD d, T)] d.toNat T)] ∧
          RegsWritten c c' x [(d.toNat, T, fun k => mergeElems i.ext.mask (c.elem d.toNat k) (eachElem T (maElem (c.envAt i.ext k)) [va k, vb k, vc k]))] ∧
          MovedOn (s.marked i x [d.toNat]) t i (formOf c i.ext (.ma e d a b)) c c' x fun k f =>
            if k ∈ x then (f.popAll [a, b, i.ext.operand.getD d]).flag (flagsOf i.ext.mask (eachElem T (maElem (c.envAt i.ext k)) [va k, vb k, vc k])) else f) ∧
      (Ready s (.bfe e d a b) i c x → isInt32 tb = true → (∀ k ∈ x, Reads s c k [a, b] [(va k, ta), (vb k, tb)]) →
        c.Room x [(d.toNat, c.resultShape i.ext x false .uni [(a, ta), (b, tb)] d.toNat ta)] →
        ∃ t c', exec (.bfe e d a b) s = .next t ∧ Shaped c c' x [(d.toNat, c.resultShape i.ext x false .uni [(a, ta), (b, tb)] d.toNat ta)] ∧
          RegsWritten c c' x [(d.toNat, ta, fun k =>
            let pos := (vb k).toNat % 32
            let len := min ((vb k).toNat / 256 % 32) (32 - pos)
            let f := (va k).toNat / 2 ^ pos % 2 ^ len
            BitVec.ofInt 32 (if ta = .si32 ∧ 0 < len ∧ 2 ^ (len - 1) ≤ f then (f : Int) - 2 ^ len else f))] ∧
          MovedOn (s.marked i x [d.toNat]) t i (formOf c i.ext (.bfe e d a b)) c c' x fun k f => if k ∈ x then f.popAll [a, b] else f) ∧
      (Ready s (.bfi e d a b) i c x → isInt32 tb = true → (∀ k ∈ x, Reads s c k [a, b, d] [(va k, ta), (vb k, tb), (vc k, td)]) →
        c.Room x [(d.toNat, c.resultShape i.ext x false .uni [(a, ta), (b, tb), (d, td)] d.toNat td)] →
        ∃ t c', exec (.bfi e d a b) s = .next t ∧ Shaped c c' x [(d.toNat, c.resultShape i.ext x false .uni [(a, ta), (b, tb), (d, td)] d.toNat td)] ∧
          RegsWritten c c' x [(d.toNat, td, fun k =>
            let pos := (vb k).toNat % 32
            let len := min ((vb k).toNat / 256 % 32) (32 - pos)
            let m : Word := BitVec.ofNat 32 ((2 ^ len - 1) * 2 ^ pos)
            (vc k &&& ~~~m) ||| (BitVec.ofNat 32 ((va k).toNat * 2 ^ pos) &&& m))] ∧
          MovedOn (s.marked i x [d.toNat]) t i (formOf c i.ext (.bfi e d a b)) c c' x fun k f => if k ∈ x then f.popAll [a, b, d] else f) ∧
      (Ready s (.dot4 e d a b) i c x → (T = .si8x4 ∨ T = .ui8x4) → isInt32 td = true →
        (∀ k ∈ x, Reads s c k [a, b, i.ext.operand.getD d] [(va k, T), (vb k, T), (vc k, td)]) →
        c.Room x [(d.toNat, c.resultShape i.ext x false .uni [(a, T), (b, T), (i.ext.operand.getD d, td)] d.toNat td)] →
        ∃ t c', exec (.dot4 e d a b) s = .next t ∧ Shaped c c' x [(d.toNat, c.resultShape i.ext x false .uni [(a, T), (b, T), (i.ext.operand.getD d, td)] d.toNat td)] ∧
          RegsWritten c c' x [(d.toNat, td, fun k =>
            let byte (w : Word) (n : Nat) : Int := if T = .si8x4 then (w.extractLsb' n 8).toInt else (w.extractLsb' n 8).toNat
            BitVec.ofInt 32 ((vc k).toNat + (byte (va k) 0 * byte (vb k) 0 + byte (va k) 8 * byte (vb k) 8 + byte (va k) 16 * byte (vb k) 16 + byte (va k) 24 * byte (vb k) 24)))] ∧
          MovedOn (s.marked i x [d.toNat]) t i (formOf c i.ext (.dot4 e d a b)) c c' x fun k f => if k ∈ x then f.popAll [a, b, i.ext.operand.getD d] else f) ∧
      (Ready s (.dott e d a b) i c x → isInt32 td = true →
        (∀ k ∈ x, Reads s c k [a, b, i.ext.operand.getD d] [(va k, .si8x4), (vb k, .si8x4), (vc k, td)]) →
        c.Room x [(d.toNat, c.resultShape i.ext x false .uni [(a, .si8x4), (b, .si8x4), (i.ext.operand.getD d, td)] d.toNat td)] →
        ∃ t c', exec (.dott e d a b) s = .next t ∧ Shaped c c' x [(d.toNat, c.resultShape i.ext x false .uni [(a, .si8x4), (b, .si8x4), (i.ext.operand.getD d, td)] d.toNat td)] ∧
          RegsWritten c c' x [(d.toNat, td, fun k =>
            let byte (w : Word) (n : Nat) : Int := (w.extractLsb' n 8).toInt
            let part (n : Nat) : Int := if 0 < byte (vb k) n then byte (va k) n else if byte (vb k) n < 0 then -byte (va k) n else 0
            BitVec.ofInt 32 ((vc k).toNat + (part 0 + part 8 + part 16 + part 24)))] ∧
          MovedOn (s.marked i x [d.toNat]) t i (formOf c i.ext (.dott e d a b)) c c' x fun k f =>
            if k ∈ x then (f.popAll [a, b, i.ext.operand.getD d]).flag
              (if [0, 8, 16, 24].any fun n => decide (((vb k).extractLsb' n 8).toInt < -1 ∨ 1 < ((vb k).extractLsb' n 8).toInt) then flTC else 0) else f)
  ) ∧
  (
    ∀ (env : FEnv),
      (∀ T ∈ [Tag.si32, .ui32], ∀ a b c : Word, eachElem T (maElem env) [a, b, c] = [((a * b + c).toNat, 0)]) ∧
      (∀ T ∈ [Tag.si8x4, .ui8x4], ∀ a b c : Word,
        let lane (w : Word) (n : Nat) : Nat := w.toNat / 2 ^ (8 * n) % 256
        eachElem T (maElem env) [a, b, c] = (List.range 4).map fun n => ((lane a n * lane b n + lane c n) % 256, 0)) ∧
      ∀ f ∈ [fF32, fBF16, fF16], ∀ a b c : Nat, a < 2 ^ f.width → b < 2 ^ f.width → c < 2 ^ f.width →
        let x := f.value a
        let y := f.value b
        let z := f.value c
        let r := maElem env (.flt f) [a, b, c]
        (x.isFinite = true → y.isFinite = true → z.isFinite = true → f.Rounds env (x.rat * y.rat + z.rat) r ∧
          (x.rat * y.rat + z.rat = 0 → r = (f.signed (if (x.isNeg != y.isNeg) = z.isNeg ∧ z.rat = 0 then z.isNeg else decide (env.mode = .rdn)) 0, 0))) ∧
        (((∃ p, x = .inf p) ∧ y.isFinite = true ∧ y.rat = 0) ∨ ((∃ q, y = .inf q) ∧ x.isFinite = true ∧ x.rat = 0) → r = (f.canonNan, flIV)) ∧
        (x.isNan = true ∨ y.isNan = true → r = (f.canonNan, 0)) ∧
        (x.isNan = false → y.isNan = false → z.isNan = true → ¬(x.rat = 0 ∧ y.rat = 0 ∧ x.isFinite ≠ y.isFinite) → r = (f.canonNan, 0)) ∧
        (∀ p, x = .inf p → y.isNan = false → (y.isFinite = true → y.rat ≠ 0) → z.isNan = false →
          r = if z = .inf (!(p != y.isNeg)) then (f.canonNan, flIV) else (f.signed (p != y.isNeg) f.inf, 0)) ∧
        (∀ q, y = .inf q → x.isFinite = true → x.rat ≠ 0 → z.isNan = false →
          r = if z = .inf (!(x.isNeg != q)) then (f.canonNan, flIV) else (f.signed (x.isNeg != q) f.inf, 0)) ∧
        (∀ p, z = .inf p → x.isFinite = true → y.isFinite = true → r = (f.signed p f.inf, 0))
  )

/-- MOV, NOT, NEG, ABS, POPC, CLZ and BREV: the word moved with its tag and shape, its complement, the sign of each element flipped or cleared, the count of one bits, the count of leading zeros, the bits reversed (R354, R315, R98, R39). LEA adds to a 64-bit address pair, and LDI writes its immediate, under two IMM words to a pair (R353, R352, R79). The shapes of results: U of U, A of integers where R39 forms it, else G, and G where not every live fibre writes (R39, R40). It states the completion of: leaA3, leaAi, mov, neg, abs, notR, popc, clz, brev, ldi. -/
def Obligations.OneOperandFormsLeaAndLdiWriteTheirResults : Prop :=
  (
    ∀ (e : Bool) (d a : Reg) (s : State) (i : Issue) (c : Crew) (x : List Nat) (T : Tag) (va : Nat → Word), c.regsOk = true → d.toNat < 120 → (∀ k ∈ x, Reads s c k [a] [(va k, T)]) →
      (Ready s (.mov e d a) i c x → c.Room x [(d.toNat, c.resultShape i.ext x false .keep [(a, T)] d.toNat T)] →
        ∃ t c', exec (.mov e d a) s = .next t ∧ Shaped c c' x [(d.toNat, c.resultShape i.ext x false .keep [(a, T)] d.toNat T)] ∧ RegsWritten c c' x [(d.toNat, T, va)] ∧
          MovedOn (s.marked i x [d.toNat]) t i (formOf c i.ext (.mov e d a)) c c' x fun k f => if k ∈ x then f.popAll [a] else f) ∧
      (∀ p ∈ ([(Instr.notR, T, fun w => ~~~w), (.popc, .ui32, fun w => BitVec.ofNat 32 ((List.range 32).countP fun n => w.getLsbD n)),
          (.clz, .ui32, fun w => BitVec.ofNat 32 ((List.range 32).countP fun n => decide (w.toNat < 2 ^ (31 - n)))), (.brev, T, fun w => w.reverse)] :
          List ((Bool → Reg → Reg → Instr) × Tag × (Word → Word))),
        Ready s (p.1 e d a) i c x → c.Room x [(d.toNat, c.resultShape i.ext x false .uni [(a, T)] d.toNat p.2.1)] →
        ∃ t c', exec (p.1 e d a) s = .next t ∧ Shaped c c' x [(d.toNat, c.resultShape i.ext x false .uni [(a, T)] d.toNat p.2.1)] ∧ RegsWritten c c' x [(d.toNat, p.2.1, fun k => p.2.2 (va k))] ∧
          MovedOn (s.marked i x [d.toNat]) t i (formOf c i.ext (p.1 e d a)) c c' x fun k f => if k ∈ x then f.popAll [a] else f) ∧
      (∀ p ∈ ([(Instr.neg, negElem), (.abs, absElem)] : List ((Bool → Reg → Reg → Instr) × (Elem → List Nat → Nat × Nat))),
        Ready s (p.1 e d a) i c x → arithTag T = true → MaskFits i.ext T → MaskReads s i.ext c x d →
        c.Room x [(d.toNat, c.resultShape i.ext x false .uni [(a, T)] d.toNat T)] →
        ∃ t c', exec (p.1 e d a) s = .next t ∧ Shaped c c' x [(d.toNat, c.resultShape i.ext x false .uni [(a, T)] d.toNat T)] ∧ RegsWritten c c' x [(d.toNat, T, fun k => mergeElems i.ext.mask (c.elem d.toNat k) (eachElem T p.2 [va k]))] ∧
          MovedOn (s.marked i x [d.toNat]) t i (formOf c i.ext (p.1 e d a)) c c' x fun k f => if k ∈ x then f.popAll [a] else f)
  ) ∧
  (
    ∀ (e : Bool) (d a b : Reg) (s : State) (i : Issue) (c : Crew) (x : List Nat), c.regsOk = true →
      (∀ (t0 t1 t2 : Tag) (lo hi vb : Nat → Word), Ready s (.leaA3 e d a b) i c x → d.toNat ≤ 118 → isInt32 t0 = true → isInt32 t1 = true → isInt32 t2 = true →
        (∀ k ∈ x, Reads s c k [a, a + 1, b] [(lo k, t0), (hi k, t1), (vb k, t2)]) →
        c.Room x [(d.toNat, c.resultShape i.ext x false .uni [(a, t0), (a + 1, t1), (b, t2)] d.toNat .ui32),
          (d.toNat + 1, c.resultShape i.ext x false .uni [(a, t0), (a + 1, t1), (b, t2)] (d.toNat + 1) .ui32)] →
        ∃ t c', exec (.leaA3 e d a b) s = .next t ∧ Shaped c c' x [(d.toNat, c.resultShape i.ext x false .uni [(a, t0), (a + 1, t1), (b, t2)] d.toNat .ui32),
          (d.toNat + 1, c.resultShape i.ext x false .uni [(a, t0), (a + 1, t1), (b, t2)] (d.toNat + 1) .ui32)] ∧
          RegsWritten c c' x [(d.toNat, .ui32, fun k => ((hi k ++ lo k) + (vb k).signExtend 64).extractLsb' 0 32),
            (d.toNat + 1, .ui32, fun k => ((hi k ++ lo k) + (vb k).signExtend 64).extractLsb' 32 32)] ∧
          MovedOn (s.marked i x [d.toNat, d.toNat + 1]) t i (formOf c i.ext (.leaA3 e d a b)) c c' x fun k f => if k ∈ x then f.popAll [a, a + 1, b] else f) ∧
      (∀ (imm : BitVec 7) (t0 t1 : Tag) (lo hi : Nat → Word), Ready s (.leaAi e d a imm) i c x → d.toNat ≤ 118 → isInt32 t0 = true → isInt32 t1 = true →
        (∀ k ∈ x, Reads s c k [a, a + 1] [(lo k, t0), (hi k, t1)]) →
        c.Room x [(d.toNat, c.resultShape i.ext x false .uni [(a, t0), (a + 1, t1)] d.toNat .ui32), (d.toNat + 1, c.resultShape i.ext x false .uni [(a, t0), (a + 1, t1)] (d.toNat + 1) .ui32)] →
        ∃ t c', exec (.leaAi e d a imm) s = .next t ∧ Shaped c c' x [(d.toNat, c.resultShape i.ext x false .uni [(a, t0), (a + 1, t1)] d.toNat .ui32), (d.toNat + 1, c.resultShape i.ext x false .uni [(a, t0), (a + 1, t1)] (d.toNat + 1) .ui32)] ∧
          RegsWritten c c' x [(d.toNat, .ui32, fun k => ((hi k ++ lo k) + BitVec.ofInt 64 (i.ext.immediate imm.toNat 7)).extractLsb' 0 32),
            (d.toNat + 1, .ui32, fun k => ((hi k ++ lo k) + BitVec.ofInt 64 (i.ext.immediate imm.toNat 7)).extractLsb' 32 32)] ∧
          MovedOn (s.marked i x [d.toNat, d.toNat + 1]) t i (formOf c i.ext (.leaAi e d a imm)) c c' x fun k f => if k ∈ x then f.popAll [a, a + 1] else f) ∧
      (∀ imm : BitVec 14, Ready s (.ldi e d imm) i c x →
        (i.ext.imm.length ≠ 2 → d.toNat < 120 → c.Room x [(d.toNat, .u)] →
          ∃ t c', exec (.ldi e d imm) s = .next t ∧ Shaped c c' x [(d.toNat, .u)] ∧ RegsWritten c c' x [(d.toNat, .si32, fun _ => BitVec.ofInt 32 (i.ext.immediate imm.toNat 14))] ∧
            MovedOn (s.marked i x [d.toNat]) t i (formOf c i.ext (.ldi e d imm)) c c' x fun _ f => f) ∧
        (i.ext.imm.length = 2 → d.toNat ≤ 118 → c.Room x [(d.toNat, .u), (d.toNat + 1, .u)] →
          ∃ t c', exec (.ldi e d imm) s = .next t ∧ Shaped c c' x [(d.toNat, .u), (d.toNat + 1, .u)] ∧
            RegsWritten c c' x [(d.toNat, .si32, fun _ => (BitVec.ofInt 64 (i.ext.immediate imm.toNat 14)).extractLsb' 0 32),
              (d.toNat + 1, .si32, fun _ => (BitVec.ofInt 64 (i.ext.immediate imm.toNat 14)).extractLsb' 32 32)] ∧
            MovedOn (s.marked i x [d.toNat, d.toNat + 1]) t i (formOf c i.ext (.ldi e d imm)) c c' x fun _ f => f))
  ) ∧
  (
    ∀ (old a : Word),
      (∀ T ∈ [Tag.si32, .ui32], mergeElems none old (eachElem T negElem [a]) = -a) ∧ mergeElems none old (eachElem .f32 negElem [a]) = a ^^^ 0x80000000 ∧
      (∀ T ∈ [Tag.bf16x2, .f16x2], mergeElems none old (eachElem T negElem [a]) = a ^^^ 0x80008000 ∧ mergeElems none old (eachElem T absElem [a]) = a &&& 0x7FFF7FFF) ∧
      mergeElems none old (eachElem .f32 absElem [a]) = a &&& 0x7FFFFFFF ∧ mergeElems none old (eachElem .si32 absElem [a]) = (if a.toInt < 0 then -a else a) ∧
      mergeElems none old (eachElem .ui32 absElem [a]) = a ∧
      (let lane (n : Nat) : Nat := a.toNat / 2 ^ (8 * n) % 256
       (∀ T ∈ [Tag.si8x4, .ui8x4], eachElem T negElem [a] = ((List.range 4).map fun n => ((256 - lane n) % 256, 0))) ∧
        eachElem .si8x4 absElem [a] = ((List.range 4).map fun n => (if 128 ≤ lane n then 256 - lane n else lane n, 0)) ∧ eachElem .ui8x4 absElem [a] = ((List.range 4).map fun n => (lane n, 0))) ∧
      ∀ T, arithTag T = true → ∀ p ∈ eachElem T negElem [a] ++ eachElem T absElem [a], p.2 = 0
  ) ∧
  (
    ∀ (l : List (Shape × Tag)) (T : Tag) (c : Crew) (d : Nat) (sh : Shape) (x : List Nat),
      c.writeShape d sh x = (if x = c.liveSet ∧ c.txHeld d = false then sh else .g) ∧
      (∀ r ∈ [ShapeRule.uni, .add, .mul, .shl, .keep],
        ((∀ p ∈ l, p.1 = .u) → r.shape l T = .u) ∧ ((∃ p ∈ l, p.1 = .g) → r.shape l T = .g) ∧
        ((∃ p ∈ l, p.1 ≠ .u) → (isInt32 T = false ∨ (∃ p ∈ l, isInt32 p.2 = false) ∨ r = .uni) → r.shape l T = .g)) ∧
      (isInt32 T = true → ∀ t u, isInt32 t = true → isInt32 u = true →
        ShapeRule.add.shape [(.a, t), (.a, u)] T = .a ∧ ShapeRule.add.shape [(.a, t), (.u, u)] T = .a ∧ ShapeRule.add.shape [(.u, t), (.a, u)] T = .a ∧
        ShapeRule.mul.shape [(.a, t), (.u, u)] T = .a ∧ ShapeRule.mul.shape [(.u, t), (.a, u)] T = .a ∧ ShapeRule.mul.shape [(.a, t), (.a, u)] T = .g ∧
        ShapeRule.shl.shape [(.a, t), (.u, u)] T = .a ∧ ShapeRule.shl.shape [(.u, t), (.a, u)] T = .g ∧ ShapeRule.shl.shape [(.a, t), (.a, u)] T = .g ∧
        ShapeRule.keep.shape [(.a, t)] T = .a)
  )

/-! ### Special functions, compares, predicates and selection -/

/-- RCP, RSQ, SQRT, EXP2, LOG2, SIN, COS and TANH on F32: the result and its flags are those of R109 and R110 in each fibre's rounding environment; they land later, and the shape step is made at issue: a result that will be G has its row (R108, R42, R338, R382, R331, R393). Which of the results within R110's bounds comes is a free value (log entry 1), and the exact value is computed to 400 bits (log entry 42): the model's choices. It states the completion of: rcp, rsq, sqrt, exp2, log2, sin, cos, tanh. -/
def Obligations.SpecialFunctionsStartAnOperationWithTheirResults : Prop :=
  ∀ p ∈ ([(Instr.rcp, true, fun env n => sfuRcp n env.mode env.sat), (.rsq, true, fun env n => sfuRsq n env.mode env.sat), (.sqrt, true, fun env n => sfuSqrt n env.mode env.sat),
      (.exp2, false, fun _ n => sfuExp2 n), (.log2, false, fun _ n => sfuLog2 n), (.sin, false, fun _ n => sfuTrig false n), (.cos, false, fun _ n => sfuTrig true n),
      (.tanh, false, fun _ n => sfuTanh n)] : List ((Bool → Reg → Reg → Instr) × Bool × (FEnv → Nat → Nat × Nat))),
  ∀ (e : Bool) (d a : Reg) (s : State) (i : Issue) (c : Crew) (x : List Nat) (va : Nat → Word),
    Ready s (p.1 e d a) i c x → c.regsOk = true → d.toNat < 120 → (∀ k ∈ x, Reads s c k [a] [(va k, .f32)]) →
    c.Room x [(d.toNat, c.resultShape i.ext x p.2.1 .uni [(a, .f32)] d.toNat .f32)] →
    ∃ t c', exec (p.1 e d a) s = .next t ∧ RegsWritten c c' x [] ∧ RowsTaken c c' x [(d.toNat, c.resultShape i.ext x p.2.1 .uni [(a, .f32)] d.toNat .f32)] ∧
      MovedOn (s.later i (formOf c i.ext (p.1 e d a)) c x [d.toNat]
          [.value d .f32 (c.writeShape d.toNat (c.resultShape i.ext x p.2.1 .uni [(a, .f32)] d.toNat .f32) x)
            (x.map fun k => (k, BitVec.ofNat 32 (p.2.2 (c.envAt i.ext k) (va k).toNat).1)) []
            (x.map fun k => (k, BitVec.ofNat 32 (p.2.2 (c.envAt i.ext k) (va k).toNat).2))])
        t i (formOf c i.ext (p.1 e d a)) c c' x fun k f => if k ∈ x then f.popAll [a] else f

/-- CMP and CMPI: where the condition is defined for the tag, the predicate takes the outcome, or its conjunction or disjunction with the old value, in each executing fibre; the immediate is an integer of the register's tag; p15 is never written (R329, R330, R36). The conditions: signed or unsigned order of 32-bit integers by their tag, unsigned order of the raw bits, and for F32 no order with a NaN (R330). It states the completion of: cmp, cmpi. -/
def Obligations.ComparesWriteTheirPredicate : Prop :=
  (
    ∀ (e : Bool) (cond : Cond) (pd : PReg) (mode : CmpMode) (a b : Reg) (imm : BitVec 7) (s : State) (i : Issue) (c : Crew) (x : List Nat) (T : Tag) (va vb : Nat → Word) (r : Nat → Bool),
      c.regsOk = true →
      let into (r : Bool) (f : Fibre) : Fibre :=
        if pd = 15 then f else
          { f with preds := setBit16 f.preds pd.toNat (match mode with | .set => r | .andInto => f.preds.getLsbD pd.toNat && r | .orInto => f.preds.getLsbD pd.toNat || r) }
      (Ready s (.cmp e cond pd mode a b) i c x → (∀ k ∈ x, Reads s c k [a, b] [(va k, T), (vb k, T)] ∧ condHolds cond T (va k) (vb k) = some (r k)) →
        ∃ t c', exec (.cmp e cond pd mode a b) s = .next t ∧ RegsWritten c c' x [] ∧
          MovedOn (s.overwrite i x [128 + pd.toNat]) t i (formOf c i.ext (.cmp e cond pd mode a b)) c c' x fun k f => if k ∈ x then into (r k) (f.popAll [a, b]) else f) ∧
      (Ready s (.cmpi e cond pd mode a imm) i c x → isInt32 T = true →
        (∀ k ∈ x, Reads s c k [a] [(va k, T)] ∧ condHolds cond T (va k) (immWord i.ext imm) = some (r k)) →
        ∃ t c', exec (.cmpi e cond pd mode a imm) s = .next t ∧ RegsWritten c c' x [] ∧
          MovedOn (s.overwrite i x [128 + pd.toNat]) t i (formOf c i.ext (.cmpi e cond pd mode a imm)) c c' x fun k f => if k ∈ x then into (r k) (f.popAll [a]) else f)
  ) ∧
  (
    ∀ (T : Tag) (a b : Word),
      (isInt32 T = true →
        let va : Int := if T = .si32 then a.toInt else a.toNat
        let vb : Int := if T = .si32 then b.toInt else b.toNat
        condHolds .eq T a b = some (decide (va = vb)) ∧ condHolds .ne T a b = some (decide (va ≠ vb)) ∧ condHolds .lt T a b = some (decide (va < vb)) ∧
        condHolds .le T a b = some (decide (va ≤ vb)) ∧ condHolds .gt T a b = some (decide (vb < va)) ∧ condHolds .ge T a b = some (decide (vb ≤ va)) ∧
        condHolds .ord T a b = some true ∧ condHolds .uno T a b = some false) ∧
      (condHolds .ltu T a b = some (decide (a.toNat < b.toNat)) ∧ condHolds .leu T a b = some (decide (a.toNat ≤ b.toNat)) ∧
        condHolds .gtu T a b = some (decide (b.toNat < a.toNat)) ∧ condHolds .geu T a b = some (decide (b.toNat ≤ a.toNat))) ∧
      (∀ cond ∈ [Cond.lt, .le, .gt, .ge, .ord, .uno], isInt32 T = false → T ≠ .f32 → condHolds cond T a b = none) ∧
      ((fF32.value a.toNat).isNan = true ∨ (fF32.value b.toNat).isNan = true →
        (∀ cond ∈ [Cond.eq, .lt, .le, .gt, .ge, .ord], condHolds cond .f32 a b = some false) ∧ condHolds .ne .f32 a b = some true ∧ condHolds .uno .f32 a b = some true)
  )

/-- PAND, POR, PXOR, PNOT and PMOV: predicate logic in each executing fibre, p15 reading 1 and never written; PMOV moves the predicates its mask names, to a G register or from a register (R363, R364, R36, R65). SEL: each executing fibre takes a or b by its predicate; the result is U where both are U and the values are equal or every live fibre has the same predicate, else G (R380, R66). It states the completion of: pand, por, pxor, pnot, pmovToRegister, pmovToPredicates, sel. -/
def Obligations.PredicateOperationsAndSel : Prop :=
  (
    ∀ (e : Bool) (pd pa pb : PReg) (s : State) (i : Issue) (c : Crew) (x : List Nat), c.regsOk = true →
      (∀ p ∈ ([(Instr.pand e pd pa pb, fun f => f.pred pa && f.pred pb), (.por e pd pa pb, fun f => f.pred pa || f.pred pb), (.pxor e pd pa pb, fun f => f.pred pa != f.pred pb),
          (.pnot e pd pa, fun f => !f.pred pa)] : List (Instr × (Fibre → Bool))),
        Ready s p.1 i c x →
        ∃ t c', exec p.1 s = .next t ∧ RegsWritten c c' x [] ∧
          MovedOn (s.overwrite i x [128 + pd.toNat]) t i (formOf c i.ext p.1) c c' x fun k f => if k ∈ x then f.setPred pd (p.2 f) else f) ∧
      (∀ (v : Reg) (m : BitVec 16), Ready s (.pmovToRegister e v m) i c x → c.Room x [(v.toNat, .g)] →
        ∃ t c', exec (.pmovToRegister e v m) s = .next t ∧ Shaped c c' x [(v.toNat, .g)] ∧
          RegsWritten c c' x [(v.toNat, .ui32, fun k => match c.fib k with | some f => ((f.preds ||| 0x8000) &&& m).setWidth 32 | none => 0)] ∧
          MovedOn (s.marked i x [v.toNat]) t i (formOf c i.ext (.pmovToRegister e v m)) c c' x fun _ f => f) ∧
      (∀ (v : Reg) (m : BitVec 16) (T : Tag) (va : Nat → Word), Ready s (.pmovToPredicates e v m) i c x → isInt32 T = true → (∀ k ∈ x, Reads s c k [v] [(va k, T)]) →
        ∃ t c' fib, exec (.pmovToPredicates e v m) s = .next t ∧ RegsWritten c c' x [] ∧
          MovedOn (s.overwrite i x ((maskPreds m).map fun q => 128 + q.toNat)) t i (formOf c i.ext (.pmovToPredicates e v m)) c c' x fib ∧
          ∀ k f, fib k f = if k ∈ x then { f.popAll [v] with preds := (fib k f).preds } else f) ∧
      (∀ (v : Reg) (m : BitVec 16) (T : Tag) (va : Nat → Word), Ready s (.pmovToPredicates e v m) i c x → isInt32 T = true → (∀ k ∈ x, Reads s c k [v] [(va k, T)]) →
        ∀ k ∈ x, ∀ f, c.fib k = some f → ∃ t c' g, exec (.pmovToPredicates e v m) s = .next t ∧ t.getCrew i.crew = some c' ∧ c'.fib k = some g ∧
          ∀ n, n < 15 → g.preds.getLsbD n = if m.getLsbD n then (va k).getLsbD n else f.preds.getLsbD n) ∧
      ∀ (f : Fibre) (b : Bool), f.pred 15 = true ∧ f.setPred 15 b = f ∧ ∀ q : PReg, q ≠ 15 → ((f.setPred q b).pred q = b ∧ ∀ r : PReg, r ≠ q → (f.setPred q b).pred r = f.pred r)
  ) ∧
  (
    ∀ (e : Bool) (ps : PReg) (inv : Bool) (d a b : Reg) (s : State) (i : Issue) (c : Crew) (x : List Nat) (T : Tag) (va vb : Nat → Word),
      Ready s (.sel e ps inv d a b) i c x → c.regsOk = true → d.toNat < 120 → (∀ k ∈ x, Reads s c k [a, b] [(va k, T), (vb k, T)]) →
      let live := c.fibres.filter fun f => f.live
      let sh : Shape := if c.shapeOf a = .u ∧ c.shapeOf b = .u ∧ (c.elem a.toNat 0 = c.elem b.toNat 0 ∨ (∀ f ∈ live, f.pred ps = true) ∨ ∀ f ∈ live, f.pred ps = false) then .u else .g
      c.Room x [(d.toNat, sh)] →
      ∃ t c', exec (.sel e ps inv d a b) s = .next t ∧ Shaped c c' x [(d.toNat, sh)] ∧
        RegsWritten c c' x [(d.toNat, T, fun k => if c.fibTest (fun f => f.pred ps != inv) k then va k else vb k)] ∧
        MovedOn (s.marked i x [d.toNat]) t i (formOf c i.ext (.sel e ps inv d a b)) c c' x fun k f => if k ∈ x then f.popAll [a, b] else f
  )

/-! ### Conversions, tags and flags -/

/-- CVT, MXPACK and MXUNPK: the elements of the source registers, each converted once by R106 or R107, fill the destination registers from element 0 of the first; a stream tag packs thirty-two 6-bit elements into six registers (R105, R333, R100, R357, R359). An element of a floating-point format has the value of R96. A conversion to a floating-point format rounds the value once; one between integers wraps or clamps; one to an integer takes the nearest integer under the mode and clamps; one to E8M0 the power of two at or below; a scale multiplies an MX source and divides for an MX target, an MXINT8 element counting in sixty-fourths; a scale of 0xFF is a NaN (R96, R103, R106, R107). It states the completion of: cvt, mxpack, mxunpk. -/
def Obligations.ConversionsWriteEveryElement : Prop :=
  (
  ∀ (e : Bool) (d a : Reg) (S tgt : Tag) (s : State) (i : Issue) (c : Crew) (x : List Nat) (ws : Nat → List Word) (sc : Nat → Word), c.regsOk = true →
    let op := i.ext.operand.toList
    let scale (k : Nat) : Nat := (sc k).toNat % 256
    let srcs (n : Nat) : List (Reg × Tag) := ((blockOf a n).map fun r => (r, S)) ++ op.map fun r => (r, .e8m0x4)
    let outs (n m : Nat) : List (Nat × Shape) := (List.range m).map fun j => (d.toNat + j, c.resultShape i.ext x false .uni (srcs n) (d.toNat + j) tgt)
    let reads (n : Nat) : Prop := ∀ k ∈ x, Reads s c k (blockOf a n ++ op) (((ws k).map fun w => (w, S)) ++ op.map fun _ => (sc k, .e8m0x4))
    let word (es : List (Nat × Nat)) (j : Nat) : Word := BitVec.ofNat 32 (packElems (32 / tagCount tgt) (((es.drop (tagCount tgt * j)).take (tagCount tgt)).map fun p => p.1))
    let fib (srcs : List Reg) (es : Nat → List (Nat × Nat)) (k : Nat) (f : Fibre) : Fibre :=
      if k ∈ x then (f.popAll srcs).flag ((es k).foldl (fun acc p => acc ||| p.2) 0) else f
    (∀ (sat : Bool) (mode : RMode),
      let n := (cvtCounts S tgt).1
      let m := (cvtCounts S tgt).2
      let es (k : Nat) : List (Nat × Nat) := (blockElems S (ws k)).map fun z => if S = tgt then (z, 0) else
        convertElem S tgt mode sat (if i.ext.operand.isSome then some (scale k) else none) (i.ext.operand.isSome && mxNarrow S) (i.ext.operand.isSome && mxNarrow tgt) z
      Ready s (.cvt e d a tgt sat mode) i c x → convertible S = true → (i.ext.operand.isSome = true → (wideTag S = true ∧ mxNarrow tgt = true) ∨ (mxNarrow S = true ∧ wideTag tgt = true)) →
      (120 ≤ a.toNat → n = 1) → d.toNat + m ≤ 120 → reads n → c.Room x (outs n m) →
      ∃ t c', exec (.cvt e d a tgt sat mode) s = .next t ∧ Shaped c c' x (outs n m) ∧ RegsWritten c c' x ((List.range m).map fun j => (d.toNat + j, tgt, fun k => word (es k) j)) ∧
        MovedOn (s.marked i x ((List.range m).map fun j => d.toNat + j)) t i (formOf c i.ext (.cvt e d a tgt sat mode)) c c' x (fib (blockOf a n ++ op) es)) ∧
    (let n := (mxCounts tgt S).2
      let m := (mxCounts tgt S).1
      let es (k : Nat) : List (Nat × Nat) := (blockElems S (ws k)).map (convertElem S tgt .rne false (some (if i.ext.operand.isSome then scale k else 127)) false true)
      Ready s (.mxpack e d a tgt) i c x → packTag tgt = true → wideTag S = true → d.toNat + m ≤ 120 → reads n → c.Room x (outs n m) →
      ∃ t c', exec (.mxpack e d a tgt) s = .next t ∧ Shaped c c' x (outs n m) ∧
        RegsWritten c c' x ((List.range m).map fun j => (d.toNat + j, tgt, fun k =>
          if isStream tgt then BitVec.ofNat 32 (packElems 6 ((es k).map fun p => p.1) / 2 ^ (32 * j)) else word (es k) j)) ∧
        MovedOn (s.marked i x ((List.range m).map fun j => d.toNat + j)) t i (formOf c i.ext (.mxpack e d a tgt)) c c' x (fib (blockOf a n ++ op) es)) ∧
    (let n := (mxCounts S tgt).1
      let m := (mxCounts S tgt).2
      let elems (ws : List Word) : List Nat :=
        if isStream S then (List.range 32).map fun j => packElems 32 (ws.map fun w => w.toNat) / 2 ^ (6 * j) % 64 else blockElems S ws
      let es (k : Nat) : List (Nat × Nat) := (elems (ws k)).map (convertElem S tgt .rne false (some (if i.ext.operand.isSome then scale k else 127)) true false)
      Ready s (.mxunpk e d a tgt) i c x → packTag S = true → wideTag tgt = true → (120 ≤ a.toNat → n = 1) → d.toNat + m ≤ 120 → reads n → c.Room x (outs n m) →
      ∃ t c', exec (.mxunpk e d a tgt) s = .next t ∧ Shaped c c' x (outs n m) ∧ RegsWritten c c' x ((List.range m).map fun j => (d.toNat + j, tgt, fun k => word (es k) j)) ∧
        MovedOn (s.marked i x ((List.range m).map fun j => d.toNat + j)) t i (formOf c i.ext (.mxunpk e d a tgt)) c c' x (fib (blockOf a n ++ op) es))
  ) ∧
  (
    ∀ (S tgt : Tag) (mode : RMode) (sat : Bool) (z : Nat), z < 2 ^ (tagElem S).width →
      let v := (tagElem S).value z
      let lo (sg : Bool) (w : Nat) : Int := if sg then -((2 ^ (w - 1) : Nat) : Int) else 0
      let hi (sg : Bool) (w : Nat) : Int := if sg then ((2 ^ (w - 1) : Nat) : Int) - 1 else ((2 ^ w : Nat) : Int) - 1
      let clamp (sg : Bool) (w : Nat) (n : Int) : Nat × Nat := ((BitVec.ofInt w (max (lo sg w) (min (hi sg w) n))).toNat, if n < lo sg w ∨ hi sg w < n then flSAT else 0)
      let nearest (sg : Bool) (w : Nat) (r : Rat) (out : Nat × Nat) : Prop :=
        ∃ n : Int, NearestInt mode r n ∧ out = ((clamp sg w n).1, (clamp sg w n).2 + if (n : Rat) = r then 0 else flIX)
      let plain := convertElem S tgt mode sat none false false z
      (∀ f, tagElem tgt = .flt f → plain = f.round v mode sat) ∧
      (∀ sg w, tagElem tgt = .int sg w →
        (∀ sg' w', tagElem S = .int sg' w' → let n : Int := if sg' then (BitVec.ofNat w' z).toInt else z
          plain = if sat then clamp sg w n else ((BitVec.ofInt w n).toNat, 0)) ∧
        ((∀ sg' w', tagElem S ≠ .int sg' w') →
          (v.isNan = true → plain = ((hi sg w).toNat, flIV)) ∧ (∀ neg, v = .inf neg → plain = ((BitVec.ofInt w (if neg then lo sg w else hi sg w)).toNat, flSAT)) ∧
          (v.isFinite = true → nearest sg w v.rat plain))) ∧
      (tagElem tgt = .e8m0 →
        let r : Rat := (if v.rat < 0 then -v.rat else v.rat) * ((2 ^ 127 : Nat) : Rat)
        (v.isNan = true → plain = (255, 0)) ∧ (∀ neg, v = .inf neg → plain = (254, flSAT)) ∧
        (v.isFinite = true → (r < 1 → plain = (0, flUF + flIX)) ∧ (((2 ^ 255 : Nat) : Rat) ≤ r → plain = (254, flSAT)) ∧
          ∀ n, n < 255 → ((2 ^ n : Nat) : Rat) ≤ r → r < ((2 ^ (n + 1) : Nat) : Rat) → plain = (n, if r = ((2 ^ n : Nat) : Rat) then 0 else flIX))) ∧
      (∀ q, q < 255 →
        let sc : Rat := ((2 ^ q : Nat) : Rat) / ((2 ^ 127 : Nat) : Rat)
        let up := convertElem S tgt mode sat (some q) true false z
        let down := convertElem S tgt mode sat (some q) false true z
        (∀ f, tagElem tgt = .flt f →
          (v.isFinite = true → f.Rounds ⟨mode, sat⟩ (v.rat * (if S = .si8x4 then 1 / 64 else 1) * sc) up ∧ f.Rounds ⟨mode, sat⟩ (v.rat / sc) down ∧
            (v.rat = 0 → up = (f.signed v.isNeg 0, 0) ∧ down = (f.signed v.isNeg 0, 0))) ∧
          (v.isFinite = false → up = f.round v mode sat ∧ down = f.round v mode sat)) ∧
        (tgt = .si8x4 → wideTag S = true →
          (v.isNan = true → down = (127, flIV)) ∧ (∀ neg, v = .inf neg → down = (if neg then 128 else 127, flSAT)) ∧ (v.isFinite = true → nearest true 8 (v.rat * 64 / sc) down))) ∧
      (∀ up down, convertElem S tgt mode sat (some 255) up down z = match tagElem tgt with
        | .flt f => ((f.round .nan mode sat).1, flIV) | .e8m0 => (255, flIV) | .int sg w => ((hi sg w).toNat, flIV)) ∧
      ∀ f, tagElem S = .flt f →
        let m := z % 2 ^ f.m
        let x := z / 2 ^ f.m % 2 ^ f.eb
        let top := x = 2 ^ f.eb - 1
        let nan := if f.hasInf then top ∧ m ≠ 0 else f.hasNan = true ∧ top ∧ m = 2 ^ f.m - 1
        (v.isNan = true ↔ nan) ∧ ((v = .inf false ∨ v = .inf true) ↔ f.hasInf = true ∧ top ∧ m = 0) ∧ (¬nan → v.isNeg = decide (2 ^ (f.eb + f.m) ≤ z)) ∧
        (v.isFinite = true → v.rat * ((2 ^ (f.bias + f.m) : Nat) : Rat) = (if v.isNeg then -1 else 1) * (((if x = 0 then 2 * m else (2 ^ f.m + m) * 2 ^ x : Nat)) : Rat))
  )

/-- DTERN, RETAG, TAG, SHAPE and FPFLAG: the five weights of a byte below 243 in two SI8x4 registers, zeros and TC for a larger byte; the word under a new tag; the codes of a register's tag and shape; flags read and cleared (R129, R101, R373, R392, R381, R347). It states the completion of: dtern, retag, tag, shape, fpflag. -/
def Obligations.TernaryTagAndFlagFormsWriteTheirResults : Prop :=
  ∀ (e : Bool) (d a : Reg) (s : State) (i : Issue) (c : Crew) (x : List Nat) (T : Tag) (va : Nat → Word), c.regsOk = true → d.toNat < 120 →
    (∀ half : BitVec 2, Ready s (.dtern e d a half) i c x → (T = .ui8x4 ∨ T = .si8x4) → d.toNat ≤ 118 → (∀ k ∈ x, Reads s c k [a] [(va k, T)]) →
      c.Room x [(d.toNat, c.resultShape i.ext x false .uni [(a, T)] d.toNat .si8x4), (d.toNat + 1, c.resultShape i.ext x false .uni [(a, T)] (d.toNat + 1) .si8x4)] →
      let byte (k : Nat) : Nat := ((va k).extractLsb' (8 * half.toNat) 8).toNat
      let weight (k n : Nat) : BitVec 8 := if byte k < 243 then BitVec.ofInt 8 (((byte k / 3 ^ n % 3 : Nat) : Int) - 1) else 0
      ∃ t c', exec (.dtern e d a half) s = .next t ∧ Shaped c c' x [(d.toNat, c.resultShape i.ext x false .uni [(a, T)] d.toNat .si8x4), (d.toNat + 1, c.resultShape i.ext x false .uni [(a, T)] (d.toNat + 1) .si8x4)] ∧
        RegsWritten c c' x [(d.toNat, .si8x4, fun k => weight k 3 ++ weight k 2 ++ weight k 1 ++ weight k 0), (d.toNat + 1, .si8x4, fun k => (weight k 4).setWidth 32)] ∧
        MovedOn (s.marked i x [d.toNat, d.toNat + 1]) t i (formOf c i.ext (.dtern e d a half)) c c' x fun k f =>
          if k ∈ x then (f.popAll [a]).flag (if byte k < 243 then 0 else flTC) else f) ∧
    (∀ tgt : Tag, Ready s (.retag e d a tgt) i c x → (∀ k ∈ x, Reads s c k [a] [(va k, T)]) → c.Room x [(d.toNat, c.resultShape i.ext x false .keep [(a, T)] d.toNat tgt)] →
      ∃ t c', exec (.retag e d a tgt) s = .next t ∧ Shaped c c' x [(d.toNat, c.resultShape i.ext x false .keep [(a, T)] d.toNat tgt)] ∧ RegsWritten c c' x [(d.toNat, tgt, va)] ∧
        MovedOn (s.marked i x [d.toNat]) t i (formOf c i.ext (.retag e d a tgt)) c c' x fun k f => if k ∈ x then f.popAll [a] else f) ∧
    (Ready s (.tag e d a) i c x → c.Room x [(d.toNat, .u)] →
      ∃ t c', exec (.tag e d a) s = .next t ∧ Shaped c c' x [(d.toNat, .u)] ∧ RegsWritten c c' x [(d.toNat, .ui32, fun _ => BitVec.ofNat 32 (c.desc a.toNat).tag.code)] ∧
        MovedOn (s.marked i x [d.toNat]) t i (formOf c i.ext (.tag e d a)) c c' x fun _ f => f) ∧
    (Ready s (.shape e d a) i c x → a.toNat < 120 → c.Room x [(d.toNat, .u)] →
      ∃ t c', exec (.shape e d a) s = .next t ∧ Shaped c c' x [(d.toNat, .u)] ∧
        RegsWritten c c' x [(d.toNat, .ui32, fun _ => match (c.desc a.toNat).shape with | .u => 0 | .a => 1 | .g => 2)] ∧
        MovedOn (s.marked i x [d.toNat]) t i (formOf c i.ext (.shape e d a)) c c' x fun _ f => f) ∧
    (∀ mask : BitVec 7, Ready s (.fpflag e d mask) i c x → c.Room x [(d.toNat, .g)] →
      ∃ t c', exec (.fpflag e d mask) s = .next t ∧ Shaped c c' x [(d.toNat, .g)] ∧
        RegsWritten c c' x [(d.toNat, .ui32, fun k => match c.fib k with | some f => f.fpstat &&& mask.setWidth 32 | none => 0)] ∧
        MovedOn (s.marked i x [d.toNat]) t i (formOf c i.ext (.fpflag e d mask)) c c' x fun k f =>
          if k ∈ x then { f with fpstat := f.fpstat &&& ~~~(mask.setWidth 32) } else f)

/-! ### Control transfer, traps and special registers -/

/-- BRA, BRX, CALL and RET: the fibres that transfer are Ready at their targets, the others of the issue go on at the next word, and the run ends; CALL leaves the return address in v118 and v119 (R323, R324, R325, R372, R67, R22). That a target and a return address wrap modulo 2^57 is log entry 14, the model's choice. It states the completion of: bra, brx, call, ret. -/
def Obligations.TransfersSendFibresToTheirTargets : Prop :=
  ∀ (s : State) (i : Issue) (c : Crew) (x : List Nat),
    let goes (fib : Nat → Fibre → Fibre) (k : Nat) (f : Fibre) : Fibre := if k ∈ x then fib k f else if k ∈ i.ranks then f.leaves (i.pc + 4) s.cycles else f
    (∀ (p : PReg) (pol : Bool) (off : BitVec 22), Ready s (.bra p pol off) i c x →
      ∃ t, exec (.bra p pol off) s = .next t ∧
        RunEnded s t i c c (goes fun _ f => if f.pred p != pol then f.readyAt (i.pc + BitVec.ofInt 57 (4 * off.toInt)) s.cycles else f.leaves (i.pc + 4) s.cycles)) ∧
    (∀ (a : Reg) (T : Tag) (va : Nat → Word), Ready s (.brx a) i c x → isInt32 T = true → (∀ k ∈ x, Reads s c k [a] [(va k, T)]) →
      (∀ k ∈ x, 0 ≤ (i.pc.toNat : Int) + 4 * (va k).toInt ∧ (i.pc.toNat : Int) + 4 * (va k).toInt < 2 ^ 57) →
      ∃ t, exec (.brx a) s = .next t ∧ RunEnded s t i c c (goes fun k f => (f.popAll [a]).readyAt (BitVec.ofInt 57 (i.pc.toNat + 4 * (va k).toInt)) s.cycles)) ∧
    (∀ off : BitVec 21, Ready s (.call off) i c x → c.regsOk = true → c.Room x [(118, .u), (119, .u)] →
      ∃ t c', exec (.call off) s = .next t ∧ Shaped c c' x [(118, .u), (119, .u)] ∧
        RegsWritten c c' x [(118, .ui32, fun _ => BitVec.ofNat 32 (i.pc + 4).toNat), (119, .ui32, fun _ => BitVec.ofNat 32 ((i.pc + 4).toNat / 2 ^ 32))] ∧
        RunEnded (s.marked i x [118, 119]) t i c c' (goes fun _ f => f.readyAt (i.pc + BitVec.ofInt 57 (4 * off.toInt)) s.cycles)) ∧
    (∀ (t0 t1 : Tag) (lo hi : Nat → Word), Ready s .ret i c x → isInt32 t0 = true → isInt32 t1 = true → (∀ k ∈ x, Reads s c k [118, 119] [(lo k, t0), (hi k, t1)]) →
      (∀ k ∈ x, (hi k ++ lo k).toNat < 2 ^ 57 ∧ (lo k).toNat % 4 = 0) →
      ∃ t, exec .ret s = .next t ∧ RunEnded s t i c c (goes fun k f => f.readyAt (BitVec.ofNat 57 (hi k ++ lo k).toNat) s.cycles))

/-- NOP, YIELD, REGION, UIMASK and WAIT: nothing but the pc; the count of lost arbitrations reset; a region begins at the instruction's own group; the crew's mask; the gate passed when no more than the named numbers of operations are outstanding and none of those classes is frozen, else the fibres wait at the group (R361, R408, R371, R401, R404, R405, R292). It states the completion of: nop, region, yield, wait, uimask. -/
def Obligations.NopYieldRegionUimaskAndWait : Prop :=
  ∀ (e : Bool) (s : State) (i : Issue) (c : Crew) (x : List Nat),
    decodeTableWord 32 0x60000000 = some (.nop false) ∧ decodeTableWord 32 0xE0000000 = some (.nop true) ∧
    (∀ g, (formOf c { Ext.zero with guard := g } (.nop e)).check { Ext.zero with guard := g } = none) ∧
    (Ready s (.nop e) i c x → ∃ t, exec (.nop e) s = .next t ∧ MovedOn s t i (formOf c i.ext (.nop e)) c c x fun _ f => f) ∧
    (Ready s (.yield e) i c x → ∃ t, exec (.yield e) s = .next t ∧ MovedOn s t i (formOf c i.ext (.yield e)) c c x fun k f => if k ∈ x then { f with lost := 0 } else f) ∧
    (Ready s (.region e) i c x → ∃ t, exec (.region e) s = .next t ∧ MovedOn s t i (formOf c i.ext (.region e)) c c x fun k f => if k ∈ x then f.regionHere i.group s.nextId else f) ∧
    (∀ m : Bool, Ready s (.uimask e m) i c x → ∃ t, exec (.uimask e m) s = .next t ∧
      MovedOn s t i (formOf c i.ext (.uimask e m)) c (if x = [] then c else { c with uiMasked := m }) x fun _ f => f) ∧
    (∀ loads stores copies tiles : BitVec 4, Ready s (.wait e loads stores copies tiles) i c x →
      let holds (k : Nat) (f : Fibre) : Prop := ∀ q ∈ [(OpClass.loads, loads), (.stores, stores), (.copies, copies), (.tiles, tiles)], q.2 ≠ 15 →
        (f.counts.filter fun n => n.cls == q.1).length ≤ q.2.toNat ∧ ∀ z ∈ s.frozen, z.crew = c.id → z.rank = k → ∀ n ∈ f.counts, n.cls = q.1 → n.op ≠ z.op
      ((∀ k ∈ x, ∀ f, c.fib k = some f → holds k f) →
        ∃ t, exec (.wait e loads stores copies tiles) s = .next t ∧
          MovedOn s t i (formOf c i.ext (.wait e loads stores copies tiles)) c c x fun k f => if k ∈ i.ranks then { f with gate := none, meeting := none } else f) ∧
      ((∃ k ∈ x, ∃ f, c.fib k = some f ∧ ¬holds k f) →
        ∃ t c', exec (.wait e loads stores copies tiles) s = .next t ∧ t = { s with cur := none, crews := t.crews } ∧ t.getCrew i.crew = some c' ∧ c' = { c with fibres := c'.fibres } ∧
          (∀ k f, c.fib k = some f → c'.fib k = some (if k ∈ i.ranks ∧ f.st = .issuing then { f with st := .blocked, awaits := [awaitGate], pc := i.group } else f)) ∧
          ∀ id, id ≠ i.crew → t.getCrew id = s.getCrew id))

/-- TRAP takes its exception (R257, R256): TRAPCAUSE, TRAPPC and TRAPADDR are written, trap mode is entered and the fibre is Ready at TRAPVEC in a new region; the converged flag is cleared and the run ends. ERET goes back to TRAPPC, a new region, out of trap mode; UIRET to the saved pc, out of the handler (R257, R207). That UIRET leaves the region PC as it is is log entry 40, the model's choice. It states the completion of: trap, eret, uiret. -/
def Obligations.TrapsEnterTheHandlerAndReturnsRestoreThePc : Prop :=
  (
    ∀ (e : Bool) (code : BitVec 16) (s : State) (i : Issue) (c : Crew) (x : List Nat) (cx : Context), Ready s (.trap e code) i c x → x ≠ [] →
      s.getCtx c.ctx = some cx → cx.trapvec ≠ 0 → (∀ k ∈ x, ∀ f, c.fib k = some f → f.trapMode = false ∧ f.tx = none) →
      ∃ t, exec (.trap e code) s = .next t ∧
        RunEnded (x.foldl (fun st k => st.leaveIssue i.crew k) s) t i c { c with converged := false } fun k f =>
          if k ∈ x then
            { f with trapCause := 0x0A, trapPc := i.group, trapAddr := code.setWidth 64, trapMode := true, st := .ready, pc := cx.trapvec, regPc := cx.trapvec, mark := s.nextId,
                     gate := none, meeting := none, restart := false, stepping := false, anew := false, stamp := s.cycles, feeds := f.feeds.map fun q => { q with regionPos := q.pos } }
          else if k ∈ i.ranks then f.leaves (i.pc + 4) s.cycles else f
  ) ∧
  (
    ∀ (s : State) (i : Issue) (c : Crew) (x : List Nat),
      let goes (fib : Fibre → Fibre) (k : Nat) (f : Fibre) : Fibre := if k ∈ x then fib f else if k ∈ i.ranks then f.leaves (i.pc + 4) s.cycles else f
      (Ready s .eret i c x → (∀ k ∈ x, ∀ f, c.fib k = some f → f.trapMode = true) →
        ∃ t, exec .eret s = .next t ∧ RunEnded s t i c c (goes fun f =>
          { f with trapMode := false, pc := f.trapPc, regPc := f.trapPc, mark := s.nextId, stepping := false, anew := false, st := .ready, stamp := s.cycles, feeds := f.feeds.map fun q => { q with regionPos := q.pos } })) ∧
      (Ready s .uiret i c x → (∀ k ∈ x, ∀ f, c.fib k = some f → f.uiAct = true) →
        ∃ t, exec .uiret s = .next t ∧ RunEnded s t i c c (goes fun f => { f with pc := f.uiRpc, uiAct := false, st := .ready, stamp := s.cycles }))
  )

/-- SREAD writes the value of a special register, in two registers where it is 64 bits wide, and latches the high half of CLOCK or TIME; 0x100 to 0x103 need a privileged fibre (R385, R45, R46, R48, R266). The identity and state registers hold what they name (R45, R48, R50, R51). That CLOCK is one count of the package is log entry 43, what CAPS holds log entries 3 and 55, the model's choices. It states the completion of: sread. -/
def Obligations.SreadReadsASpecialRegister : Prop :=
  (
    ∀ (e : Bool) (d : Reg) (n : BitVec 9) (s : State) (i : Issue) (c : Crew) (x : List Nat), Ready s (.sread e d n) i c x → c.regsOk = true → d.toNat < 120 →
      (sregPair n.toNat = true → d.toNat ≤ 118) → (0x100 ≤ n.toNat → s.privileged c.ctx = true ∧ n.toNat ≤ 0x103) →
      let value (k : Nat) : Nat := match c.fib k with | some f => (s.sregValue c k f n.toNat).1 | none => 0
      let sh : Shape := match c.fib (x.headD 0) with | some f => (s.sregValue c 0 f n.toNat).2 | none => .g
      let ds : List (Nat × Nat) := (d.toNat, 0) :: if sregPair n.toNat then [(d.toNat + 1, 1)] else []
      c.Room x (ds.map fun q => (q.1, sh)) →
      ∃ t c', exec (.sread e d n) s = .next t ∧ Shaped c c' x (ds.map fun q => (q.1, sh)) ∧ RegsWritten c c' x (ds.map fun q => (q.1, .ui32, fun k => BitVec.ofNat 32 (value k / 2 ^ (32 * q.2)))) ∧
        MovedOn (s.marked i x (ds.map fun q => q.1)) t i (formOf c i.ext (.sread e d n)) c c' x fun k f =>
          if k ∈ x then
            (if n = 0x010 then { f with clockHi := BitVec.ofNat 32 (s.cycles / 2 ^ 32) } else if n = 0x012 then { f with timeHi := BitVec.ofNat 32 (s.ticks / 2 ^ 32) } else f)
          else f
  ) ∧
  (
    ∀ (s : State) (c : Crew) (k : Nat) (f : Fibre),
      [0x000, 0x001, 0x002, 0x003, 0x004, 0x005, 0x007, 0x008, 0x009, 0x00A, 0x00B, 0x00C, 0x010, 0x011, 0x012, 0x013, 0x020, 0x021, 0x023, 0x024, 0x025, 0x026, 0x027, 0x030].map (fun n => (s.sregValue c k f n).1) =
        [k, c.index.toNat, c.size, c.teamIndex.toNat, c.teamPos, c.teamSize, c.core, c.core / 4, c.core / 64, s.pkg, c.gridSize.toNat, c.args.toNat, s.cycles, f.clockHi.toNat, s.ticks, f.timeHi.toNat,
          f.fpstat.toNat, c.nstatus.toNat, f.trapCause.toNat, f.trapPc.toNat, f.trapAddr.toNat, c.uiVec.toNat, f.uiCause.toNat, s.capsAt] ∧
      (∀ n ∈ [0x006, 0x010, 0x011, 0x012, 0x013, 0x020, 0x022, 0x023, 0x024, 0x025, 0x027], (s.sregValue c k f n).2 = .g) ∧ ∀ pc n t m, (Fibre.fresh pc n t m).clockHi = 0 ∧ (Fibre.fresh pc n t m).timeHi = 0
  )

/-- SWRITE writes FPSTAT, UIVEC or, in trap mode, a trap register; addresses are below 2^57 and those of code are aligned (R386, R47, R49). TLBINV in a privileged fibre is an outstanding operation of the stores class, which drops the cached translations that its operands name, in every core, when it performs (R265, R405). It states the completion of: swrite, tlbinv. -/
def Obligations.SwriteAndTlbinvWriteTheirState : Prop :=
  (
    ∀ (e : Bool) (a : Reg) (n : BitVec 9) (s : State) (i : Issue) (c : Crew) (x : List Nat) (t0 t1 : Tag) (lo hi : Nat → Word), Ready s (.swrite e a n) i c x →
      n ∈ [0x020, 0x023, 0x024, 0x025, 0x026] → ((n = 0x023 ∨ n = 0x024 ∨ n = 0x025) → ∀ k ∈ x, ∀ f, c.fib k = some f → f.trapMode = true) →
      let wide : Prop := n = 0x024 ∨ n = 0x025 ∨ n = 0x026
      let v (k : Nat) : Nat := (hi k ++ lo k).toNat
      (¬wide → ∀ k ∈ x, Reads s c k [a] [(lo k, t0)]) → (wide → ∀ k ∈ x, Reads s c k [a, a + 1] [(lo k, t0), (hi k, t1)] ∧ v k < 2 ^ 57 ∧ (n ≠ 0x025 → (lo k).toNat % 4 = 0)) →
      ∃ t, exec (.swrite e a n) s = .next t ∧
        MovedOn s t i (formOf c i.ext (.swrite e a n)) c (if n = 0x026 ∧ x ≠ [] then { c with uiVec := BitVec.ofNat 57 (v (x.getLastD 0)) } else c) x fun k f =>
          if k ∈ x then
            (let g := f.popAll (if n = 0x020 ∨ n = 0x023 then [a] else [a, a + 1])
             if n = 0x020 then { g with fpstat := lo k &&& 0x37F }
             else if n = 0x023 then { g with trapCause := (lo k).setWidth 8 }
             else if n = 0x024 then { g with trapPc := BitVec.ofNat 57 (v k) }
             else if n = 0x025 then { g with trapAddr := BitVec.ofNat 64 (v k) } else g)
          else f
  ) ∧
  (
    ∀ (e : Bool) (a b : Reg) (s : State) (i : Issue) (c : Crew) (x : List Nat) (t0 t1 t2 : Tag) (lo hi vb : Nat → Word), Ready s (.tlbinv e a b) i c x → s.privileged c.ctx = true →
      c.regsOk = true → isInt32 t2 = true → (∀ k ∈ x, Reads s c k [a, a + 1, b] [(lo k, t0), (hi k, t1), (vb k, t2)] ∧ (vb k).extractLsb' 10 6 = 0 ∧ (vb k).extractLsb' 18 14 = 0) →
      ∃ t, exec (.tlbinv e a b) s = .next t ∧
        Issued s t i (formOf c i.ext (.tlbinv e a b)) c x [] (some .stores) (x.map fun k =>
          { Turn.op ⟨i, formOf c i.ext (.tlbinv e a b), x, []⟩ c k [k] (.tlbinv ((hi k ++ lo k).toNat % 2 ^ 57) (vb k).toNat) with va := (hi k ++ lo k).toNat % 2 ^ 57 })
  ) ∧
  (
    ∀ (s : State) (o : Op) (v : Nat) (w : Word), s.getOp o.id = some o → o.work = .tlbinv v w.toNat → s.opReady o = true →
      ∃ t u : State, exec (.storePerform o.id) s = .next t ∧ t = u.retireOp o ∧ u = { s with tlb := u.tlb, hostStale := u.hostStale } ∧
        ∀ y, y ∈ u.tlb ↔ y ∈ s.tlb ∧ ¬((w.getLsbD 17 = true ∨ y.asid = w.toNat % 1024 ∨ y.pte.testBit 5 = true) ∧ (w.getLsbD 16 = true ∨ y.page = v / 2 ^ y.bits))
  )

/-! ### Fibre life, barriers and fences -/

/-- SPAWN by one fibre: the lowest rank that is not live becomes a fibre Ready at the target, its v0 holding the argument, and d holds its rank; with none, d holds all ones and nothing is created; the fibre releases at CORE either way; the converged flag is cleared (R383, R384, R13, R18, R172). In an any-hit crew the rank's report stands (log entry 69, the model's choice). RETIRE: the executing fibres are no longer live, no result lands in them (an atomic still changes memory), and the others of the issue go on at the next word; registers, memory and scratchpads are unchanged (R374, R15). It states the completion of: spawn, retire. -/
def Obligations.SpawnCreatesAndRetireEndsFibres : Prop :=
  (
    ∀ (e : Bool) (d a b : Reg) (s : State) (i : Issue) (c : Crew) (k : Nat) (T tb : Tag) (va vb : Word), Ready s (.spawn e d a b) i c [k] → c.regsOk = true → d.toNat < 120 →
      isInt32 T = true → Reads s c k [a, b] [(va, T), (vb, tb)] → s.seqBusy c.id k 0xFFFF = false → (∀ j ∈ i.ranks, c.fibTest (fun f => f.live) j = true) → 0 ≤ (i.pc.toNat : Int) + 4 * va.toInt → (i.pc.toNat : Int) + 4 * va.toInt < 2 ^ 57 →
      (∀ r, r < c.size → (∀ j, j < r → c.fibTest (fun f => f.live) j = true) → c.fibTest (fun f => f.live) r = false →
        c.usedRows.length + ((if (c.desc 0).shape = .g then 0 else 1) + if d.toNat = 0 ∨ (c.desc d.toNat).shape = .g then 0 else 1) ≤ c.grows →
        ∃ t c', exec (.spawn e d a b) s = .next t ∧ t.getCrew i.crew = some c' ∧ c'.regsOk = true ∧ c'.converged = false ∧
          c'.elem d.toNat k = BitVec.ofNat 32 r ∧ (c'.desc d.toNat).tag = .ui32 ∧ c'.elem 0 r = vb ∧ (d ≠ 0 → (c'.desc 0).tag = tb) ∧
          (∃ g, c.fib r = some g ∧ c'.fib r = some { Fibre.fresh (BitVec.ofInt 57 (i.pc.toNat + 4 * va.toInt)) c.feeds s.cycles s.nextId with
            report := match c.kind with | .anyHit _ => some (g.report.getD .accept) | _ => none }) ∧
          (∀ q j, q < 120 → j < c.size → (q, j) ≠ (0, r) → (q, j) ≠ (d.toNat, k) → c'.elem q j = c.elem q j) ∧
          (∀ j f, j ≠ r → j ∉ i.ranks → c.fib j = some f → c'.fib j = some f) ∧ ∀ id, id ≠ i.crew → (t.getCrew id).map (fun y => (y.regs, y.rows, y.fibres)) = (s.getCrew id).map fun y => (y.regs, y.rows, y.fibres)) ∧
      ((∀ r, r < c.size → c.fibTest (fun f => f.live) r = true) → c.Room [k] [(d.toNat, .g)] →
        let u := (s.marked i [k] [d.toNat]).release c.id k 0 0xFFFF
        ∃ t c', exec (.spawn e d a b) s = .next t ∧ RegsWritten c c' [k] [(d.toNat, .ui32, fun _ => 0xFFFFFFFF)] ∧ (c'.desc d.toNat).shape = .g ∧
          MovedOn u t i (formOf c i.ext (.spawn e d a b)) c { c' with scratch := u.scratchOf c.id } [k] (fun j f => if j = k then f.popAll [a, b] else f) ∧ (t.getCrew i.crew).map (fun y => y.converged) = some false)
  ) ∧
  (
    ∀ (s : State) (i : Issue) (c : Crew) (x : List Nat), Ready s .retire i c x → x ≠ [] →
      ∃ t c', exec .retire s = .next t ∧ t.cur = none ∧ t.getCrew i.crew = some c' ∧ (c'.regs, c'.rows, c'.scratch, c'.tiles, c'.life) = (c.regs, c.rows, c.scratch, c.tiles, c.life) ∧ t.mem = s.mem ∧
        (∀ k f, c.fib k = some f → ∃ g, c'.fib k = some g ∧
          (k ∈ x → g.live = false ∧ g.st = .retired) ∧ (k ∉ x → g.live = f.live ∧ g.preds = f.preds ∧ g.fpstat = f.fpstat ∧ g.pc = (if k ∈ i.ranks then i.pc + 4 else f.pc))) ∧
        ∀ o ∈ t.ops, o.crew = i.crew → isResult o.work = true → ∀ k ∈ x, k ∉ o.ranks ∨ (o.work.isAtomic = true ∧ ∀ r ∈ o.work.regs, (k, r) ∈ o.dropped)
  )

/-- SYSCALL: one message goes out for each lane of the issue, with the call number, the lane, the slot mask of its executing fibres and the eight argument registers of each of them; d to d+7 become G and each executing fibre awaits its reply at the next word, in a new region (R390, R33). It states the completion of: syscall. -/
def Obligations.SyscallSendsItsMessages : Prop :=
  ∀ (d a : Reg) (n : BitVec 7) (s : State) (i : Issue) (c : Crew) (x : List Nat), Ready s (.syscall d a n) i c x → c.regsOk = true → x ≠ [] → d.toNat ≤ 112 → a.toNat ≤ 112 →
    (∀ k ∈ x, s.seqBusy c.id k 0xFFFF = false ∧ s.hostStuck c.id k 0xFFFF = false ∧ s.regPoisoned c.id k (blockOf a 8) = false) → c.Room x ((List.range 8).map fun j => (d.toNat + j, .g)) →
    ∃ t c', exec (.syscall d a n) s = .next t ∧ t.cur = none ∧ t.getCrew i.crew = some c' ∧ c'.converged = false ∧
      t.syscalls = s.syscalls ++ (gangsOf x).map (fun g => ⟨c.id, c.lane + g, slotMask x g, n, d,
        (x.filter fun k => k / 16 == g).map fun k => ⟨k, (List.range 8).map fun j => (c.elem (a.toNat + j) k, (c.desc (a.toNat + j)).tag), none⟩⟩) ∧
      (∀ q k, q < 120 → k < c.size → c'.elem q k = c.elem q k) ∧ (∀ j, j < 8 → (c'.desc (d.toNat + j)).shape = .g) ∧
      ∀ k f, c.fib k = some f → ∃ g, c'.fib k = some g ∧ g.preds = f.preds ∧ g.fpstat = f.fpstat ∧
        (k ∈ x → g.st = .awaitReply ∧ g.pc = i.pc + 4 ∧ g.regPc = i.pc + 4) ∧ (k ∉ x → g.regPc = f.regPc ∧ g.pc = if k ∈ i.ranks then i.pc + 4 else f.pc)

/-- The crew barrier (R321, R24): when the arrival of BAR is the last of the live fibres, the phase turns and its fibres pass; while a live fibre has not arrived they wait at the instruction; BARA arrives and goes on; BARW passes a fibre whose arrival is no longer pending. The team barrier (R321): when the arrival of BAR is the last of the live fibres of the team's crews, the team's phase turns and its fibres pass; else they wait; BARA arrives and goes on; BARW passes a fibre whose arrival is no longer pending. It states the completion of: bar, bara, barw. -/
def Obligations.BarriersPassWhenAllHaveArrived : Prop :=
  (
    ∀ (e : Bool) (s : State) (i : Issue) (c : Crew) (k : Nat) (f : Fibre), s.seqBusy c.id k 0xFFFF = false → c.fib k = some f → f.live = true → f.gate = none → i.ranks = [k] →
      (∃ y ∈ s.crews, y.team = c.team ∧ y.life ≠ .completed ∧ ∃ g ∈ y.fibres, g.live = true ∧ g.arrivedTeam = false) →
      let last : Prop := ∀ j g, j ≠ k → c.fib j = some g → g.live = true → g.arrivedCrew = true
      (Ready s (.bar e false) i c [k] → last →
        ∃ t c', exec (.bar e false) s = .next t ∧ t.getCrew i.crew = some c' ∧ c'.barPhase = !c.barPhase ∧ (∀ g ∈ c'.fibres, g.arrivedCrew = false) ∧
          (c'.regs, c'.rows, c'.tiles) = (c.regs, c.rows, c.tiles) ∧ ∃ g, c'.fib k = some g ∧ g.pc = i.pc + 4 ∧ g.gate = none ∧ g.preds = f.preds) ∧
      (Ready s (.bar e false) i c [k] → ¬last →
        ∃ t c' g, exec (.bar e false) s = .next t ∧ t.cur = none ∧ t.getCrew i.crew = some c' ∧ c'.barPhase = c.barPhase ∧ c'.fib k = some g ∧
          g = { f with arrivedCrew := true, gate := some ⟨i.group, true, false, none⟩, st := if f.st = .issuing then .blocked else f.st, awaits := if f.st = .issuing then [awaitGate] else f.awaits, pc := if f.st = .issuing then i.group else f.pc }) ∧
      (Ready s (.bara e false) i c [k] → ¬last →
        ∃ t c' g, exec (.bara e false) s = .next t ∧ t.getCrew i.crew = some c' ∧ c'.barPhase = c.barPhase ∧ c'.fib k = some g ∧ g.pc = i.pc + 4 ∧ g.arrivedCrew = true ∧ g.gate = none) ∧
      (Ready s (.barw e false) i c [k] → f.arrivedCrew = false →
        ∃ t c' g, exec (.barw e false) s = .next t ∧ t.getCrew i.crew = some c' ∧ c'.barPhase = c.barPhase ∧ c'.fib k = some g ∧ g.pc = i.pc + 4 ∧ g.gate = none) ∧
      (Ready s (.barw e false) i c [k] → f.arrivedCrew = true →
        ∃ t c' g, exec (.barw e false) s = .next t ∧ t.cur = none ∧ t.getCrew i.crew = some c' ∧ c'.fib k = some g ∧ g.gate = some ⟨i.group, true, false, none⟩ ∧ g.arrivedCrew = true)
  ) ∧
  (
    ∀ (e : Bool) (s : State) (i : Issue) (c : Crew) (k : Nat) (f : Fibre), s.seqBusy c.id k 0xFFFF = false → c.fib k = some f → f.live = true → f.gate = none → i.ranks = [k] → f.arrivedCrew = false →
      c.life ≠ .completed → (∃ g ∈ c.fibres, g.live = true ∧ g.arrivedCrew = false) →
      let last : Prop := ∀ y ∈ s.crews, y.team = c.team → y.life ≠ .completed → ∀ j g, (y.id, j) ≠ (c.id, k) → y.fib j = some g → g.live = true → g.arrivedTeam = true
      (Ready s (.bar e true) i c [k] → last →
        ∃ t c', exec (.bar e true) s = .next t ∧ t.getCrew i.crew = some c' ∧ t.teams = s.teams.map (fun q => if q.id = c.team then { q with phase := !q.phase } else q) ∧
          (∀ y ∈ t.crews, y.team = c.team → ∀ g ∈ y.fibres, g.arrivedTeam = false) ∧
          (c'.regs, c'.rows, c'.tiles) = (c.regs, c.rows, c.tiles) ∧ ∃ g, c'.fib k = some g ∧ g.pc = i.pc + 4 ∧ g.gate = none ∧ g.preds = f.preds) ∧
      (Ready s (.bar e true) i c [k] → ¬last →
        ∃ t c' g, exec (.bar e true) s = .next t ∧ t.cur = none ∧ t.getCrew i.crew = some c' ∧ t.teams = s.teams ∧ c'.fib k = some g ∧
          g = { f with arrivedTeam := true, gate := some ⟨i.group, true, true, none⟩, st := if f.st = .issuing then .blocked else f.st, awaits := if f.st = .issuing then [awaitGate] else f.awaits, pc := if f.st = .issuing then i.group else f.pc }) ∧
      (Ready s (.bara e true) i c [k] → ¬last →
        ∃ t c' g, exec (.bara e true) s = .next t ∧ t.getCrew i.crew = some c' ∧ t.teams = s.teams ∧ c'.fib k = some g ∧ g.pc = i.pc + 4 ∧ g.arrivedTeam = true ∧ g.gate = none) ∧
      (Ready s (.barw e true) i c [k] → f.arrivedTeam = false →
        ∃ t c' g, exec (.barw e true) s = .next t ∧ t.getCrew i.crew = some c' ∧ t.teams = s.teams ∧ c'.fib k = some g ∧ g.pc = i.pc + 4 ∧ g.gate = none) ∧
      (Ready s (.barw e true) i c [k] → f.arrivedTeam = true →
        ∃ t c' g, exec (.barw e true) s = .next t ∧ t.cur = none ∧ t.getCrew i.crew = some c' ∧ c'.fib k = some g ∧ g.gate = some ⟨i.group, true, true, none⟩ ∧ g.arrivedTeam = true)
  )

/-- FENCE in a fibre with earlier accesses outstanding in the sequences it names stands behind them, and while one of them is outstanding a later access of those sequences that its kind orders after it cannot take effect: behind older reads for acq, before newer writes for rel, either for acq_rel, all for sc; with none outstanding it leaves nothing behind (R163). It states the completion of: fence. -/
def Obligations.FenceOrdersTheSequencesItNames : Prop :=
  ∀ (e : Bool) (scope : BitVec 3) (kind : FenceKind) (mask : BitVec 16) (s : State) (i : Issue) (c : Crew) (x : List Nat), Ready s (.fence e scope kind mask) i c x →
    (∀ o ∈ s.ops, o.id < s.nextId) →
    ∃ t d, exec (.fence e scope kind mask) s = .next t ∧ t.getCrew i.crew = some d ∧ (d.regs, d.rows, d.tiles) = (c.regs, c.rows, c.tiles) ∧
      (∀ k f, c.fib k = some f → ∃ g, d.fib k = some g ∧ g.preds = f.preds ∧ g.fpstat = f.fpstat ∧ g.pc = if k ∈ i.ranks then i.pc + 4 else f.pc) ∧
      (∀ k ∈ x,
        let older (o : Op) : Prop := o ∈ s.ops ∧ o.crew = c.id ∧ k ∈ o.ranks ∧ mask &&& o.seqs ≠ 0 ∧ (o.work.reads = true ∨ o.work.writes = true)
        let orders (old new : Work) : Prop := match kind with | .acq => old.reads = true | .rel => new.writes = true | .acqRel => old.reads = true ∨ new.writes = true | .sc => True
        ((∃ o, older o) → ∃ o ∈ t.ops, o.crew = c.id ∧ o.ranks = [k] ∧ o.seqs = mask ∧ o.scope = scope.toNat ∧ o.work = .fence kind mask) ∧
        ((∀ o, ¬older o) → s.frozen = [] → s.hostLost = false → ∀ o ∈ t.ops, o.crew = c.id → k ∈ o.ranks → o ∈ s.ops) ∧
        ∀ old new : Op, older old → t.nextId ≤ new.id → new.crew = c.id → k ∈ new.ranks → mask &&& new.seqs ≠ 0 → orders old.work new.work → t.opReady new = false) ∧
      ∀ o ∈ s.ops, o.work.isFence = false → o ∈ t.ops

/-! ### Extension words -/

/-- An extension word joins its group and the run goes on at the next word; a fourth one, or a second of its kind but for IMM, is illegal in every fibre of the issue, at the group's first word (R77, R78, R79, R80). It states the completion of: xwImm, xwGuard, xwOrder, xwMask, xwRound, xwOperand, xwOffset. -/
def Obligations.ExtensionWordsJoinTheirGroup : Prop :=
  ∀ (s : State) (i : Issue) (p off : BitVec 24) (pol hasSeq hasScope dyn sat : Bool) (pr : PReg) (policy : BitVec 2) (seq : BitVec 4) (scope : BitVec 3) (m : BitVec 8) (mode : RMode) (r : Reg),
    s.cur = some i →
    let joins (w : Instr) (x : Ext) : Prop := exec w s = .next { s with cur := some { i with ext := { x with count := i.ext.count + 1 }, pc := i.pc + 4, words := i.words + 1, code := i.code.drop 1 } }
    let illegal (w : Instr) : Prop := exec w s = .next ((s.trapAll i.crew i.group (i.ranks.map fun k => (k, ⟨.illegalOp, 0⟩))).endRun i [])
    (i.ext.count < 3 →
      (i.ext.imm.length < 2 → joins (.xwImm p) { i.ext with imm := i.ext.imm ++ [p] }) ∧
      (i.ext.guard = none → joins (.xwGuard pol pr) { i.ext with guard := some (pol, pr) }) ∧
      (i.ext.order = none → joins (.xwOrder policy hasSeq seq hasScope scope) { i.ext with order := some (policy, if hasSeq then some seq else none, if hasScope then some scope else none) }) ∧
      (i.ext.mask = none → joins (.xwMask m) { i.ext with mask := some m }) ∧
      (i.ext.round = none → joins (.xwRound dyn sat mode) { i.ext with round := some (dyn, sat, mode) }) ∧
      (i.ext.operand = none → joins (.xwOperand r) { i.ext with operand := some r }) ∧
      (i.ext.offset = none → joins (.xwOffset off) { i.ext with offset := some off })) ∧
    (∀ w ∈ [Instr.xwImm p, .xwGuard pol pr, .xwOrder policy hasSeq seq hasScope scope, .xwMask m, .xwRound dyn sat mode, .xwOperand r, .xwOffset off],
      (3 ≤ i.ext.count → illegal w) ∧
      ((match w with | .xwImm _ => 2 ≤ i.ext.imm.length | .xwGuard .. => i.ext.guard.isSome = true | .xwOrder .. => i.ext.order.isSome = true | .xwMask _ => i.ext.mask.isSome = true | .xwRound .. => i.ext.round.isSome = true | .xwOperand _ => i.ext.operand.isSome = true | _ => i.ext.offset.isSome = true) → illegal w))

/-! ### Memory accesses -/

/-- LD of an element format from any space: an outstanding load of 2^cnt registers for each executing fibre, one for all where the address is U and the whole live set executes; its sequence, scope and policy follow the ORDER word; the registers are written when it lands (R350, R351, R42, R75, R405). ST to any space: an outstanding store of the bytes of the registers, lowest first, for each executing fibre (R388, R389, R405); a plain store may go to a notify register (R232); under policy 0b11 a store drops the copies its core and die hold (R137). In an attempt a global load is served by the attempt's logs, or logs the sector it reads, its result landing later; a global store enters the write log; at the logs' limits an access has no room (R180, R181). When a load or a store takes its effect is the model's choice (log entries 4 and 36). It states the completion of: ld, st. -/
def Obligations.LoadsAndStoresStartAnAccess : Prop :=
  (
    ∀ (e : Bool) (fmt : Tag) (sp : Space) (seq : BitVec 4) (d a : Reg) (cnt : BitVec 2) (acq : Bool) (s : State) (i : Issue) (c : Crew) (x : List Nat)
      (l : Nat → List (Word × Tag)) (va : Nat → Nat × Option Place) (s1 : State) (hits : List (Hit Unit)),
      let ins := Instr.ld e fmt sp seq d a cnt acq
      let n := 2 ^ cnt.toNat
      let sh : Shape := if ∀ r ∈ addrRegs sp a, c.shapeOf r = .u then .u else .g
      let one := c.writeShape d.toNat sh x = .u
      Ready s ins i c x → c.regsOk = true → d.toNat + n ≤ 120 → (∀ k ∈ x, Reads s c k (addrRegs sp a) (l k)) →
      (∀ k ∈ x, s.operandAddr c sp (opnd (l k) 0) (opnd (l k) 1) i.ext.byteOffset (4 * n) = .ok (va k)) → Finds s c false x va (fun _ => ()) s1 hits → (∀ h ∈ hits, s1.unknownDevice h.p = false) →
      c.Room x ((List.range n).map fun j => (d.toNat + j, sh)) →
      ∃ t, exec ins s = .next t ∧
        Issued s1 t i (formOf c i.ext ins) c x ((List.range n).map fun j => d.toNat + j) (some .loads)
          ((if one then hits.take 1 else hits).map fun h => Turn.memOp ⟨i, formOf c i.ext ins, x, []⟩ s1 c h (if one then x else [h.k]) (i.ext.seqOr seq) (i.ext.scopeOr 0) acq false (4 * n)
            (.load h.p d n fmt (if one then .u else .g) (i.ext.policy + 4 * pteMode h.pte)))
  ) ∧
  (
    ∀ (e : Bool) (fmt : Tag) (sp : Space) (seq : BitVec 4) (v a : Reg) (cnt : BitVec 2) (rel : Bool) (s : State) (i : Issue) (c : Crew) (x : List Nat)
      (l : Nat → List (Word × Tag)) (va : Nat → Nat × Option Place) (s1 : State) (hits : List (Hit (List Byte))),
      let ins := Instr.st e fmt sp seq v a cnt rel
      let n := 2 ^ cnt.toNat
      Ready s ins i c x → c.regsOk = true → (∀ k ∈ x, Reads s c k (blockOf v n ++ addrRegs sp a) (l k) ∧ ∀ p ∈ (l k).take n, p.2 = fmt ∨ p.2 = .raw ∨ (isInt32 p.2 = true ∧ isInt32 fmt = true)) →
      (∀ k ∈ x, s.operandAddr c sp (opnd (l k) n) (opnd (l k) (n + 1)) i.ext.byteOffset (4 * n) = .ok (va k)) →
      Finds s c true x va (fun k => wordsBytes (((l k).take n).map fun w => w.1)) s1 hits → (∀ h ∈ hits, s1.unknownDevice h.p = false) →
      ∃ t, exec ins s = .next t ∧
        Issued (if i.ext.policy = 3 then hits.foldl (fun (st : State) h => st.dropCopies c.core h.p (4 * n)) s1 else s1) t i (formOf c i.ext ins) c x [] (some .stores)
          (hits.map fun h => Turn.memOp ⟨i, formOf c i.ext ins, x, []⟩ s1 c h [h.k] (i.ext.seqOr seq) (i.ext.scopeOr 0) false rel (4 * n) (.store h.p h.v false))
  ) ∧
  (
    ∀ (e : Bool) (fmt : Tag) (seq : BitVec 4) (d a : Reg) (cnt : BitVec 2) (acq : Bool) (s : State) (i : Issue) (c : Crew) (x : List Nat)
      (l : Nat → List (Word × Tag)) (va : Nat → Nat × Option Place) (s1 : State) (hits : List (Hit Unit)) (att att1 : Nat → Attempt) (bs : Nat → List Byte),
      let ins := Instr.ld e fmt .global seq d a cnt acq
      let m := 2 ^ cnt.toNat
      let n := 4 * m
      Ready s ins i c x → c.regsOk = true → d.toNat + m ≤ 120 →
      (∀ k ∈ x, Reads s c k [a, a + 1] (l k) ∧ s.operandAddr c .global (opnd (l k) 0) (opnd (l k) 1) i.ext.byteOffset n = .ok (va k)) →
      s.locate c false (x.map fun k => (k, ⟨(va k).1, (va k).2, ()⟩)) = (s1, ⟨hits, [], []⟩) →
      (∀ k ∈ x, ∀ f, c.fib k = some f → f.st = .issuing ∧ f.tx = some (att k) ∧ f.stepping = false) →
      (∀ h ∈ hits, s1.remoteAccess h.p h.pte = false ∧ s1.shadowed c.core c.id [h.k] false [(h.p.sectorBase h.va, 32)] = false ∧
        (att h.k).load s1 (s1.logQuota c.ctx) h.va n h.p = .ok (att1 h.k, bs h.k) ∧
        ((att h.k).serves h.va n = false → s1.unknownDevice h.p = false ∧ s1.firstBad h.p n = none ∧ s1.copyBad c.core h.p (i.ext.policy + 4 * pteMode h.pte) = false ∧ s1.placeHeld h.p = false)) →
      c.Room x ((List.range m).map fun j => (d.toNat + j, .g)) →
      let u := hits.foldl (fun (st : State) h => (if (att h.k).serves h.va n then st else st.noteAccess c.core c.ctx h.va h.p).dropCopies c.core h.p n) s1
      ∃ t c', exec ins s = .next t ∧ t.getCrew i.crew = some c' ∧ (∀ k ∈ x, c'.fibTest (fun f => f.tx == some (att1 k)) k = true) ∧
        Issued u t i (formOf c i.ext ins) c x ((List.range m).map fun j => d.toNat + j) (some .loads)
          (hits.map fun h => Turn.op ⟨i, formOf c i.ext ins, x, []⟩ c h.k [h.k] (.logged d fmt .g (bytesWords (bs h.k))))
  ) ∧
  (
    ∀ (e : Bool) (fmt : Tag) (seq : BitVec 4) (v a : Reg) (cnt : BitVec 2) (rel : Bool) (s : State) (i : Issue) (c : Crew) (x : List Nat)
      (l : Nat → List (Word × Tag)) (va : Nat → Nat × Option Place) (s1 : State) (hits : List (Hit (List Byte))) (att att1 : Nat → Attempt),
      let ins := Instr.st e fmt .global seq v a cnt rel
      let n := 2 ^ cnt.toNat
      Ready s ins i c x → c.regsOk = true →
      (∀ k ∈ x, Reads s c k (blockOf v n ++ [a, a + 1]) (l k) ∧ (∀ p ∈ (l k).take n, p.2 = fmt ∨ p.2 = .raw ∨ (isInt32 p.2 = true ∧ isInt32 fmt = true)) ∧
        s.operandAddr c .global (opnd (l k) n) (opnd (l k) (n + 1)) i.ext.byteOffset (4 * n) = .ok (va k)) →
      s.locate c true (x.map fun k => (k, ⟨(va k).1, (va k).2, wordsBytes (((l k).take n).map fun w => w.1)⟩)) = (s1, ⟨hits, [], []⟩) →
      (∀ k ∈ x, ∀ f, c.fib k = some f → f.st = .issuing ∧ f.tx = some (att k) ∧ f.stepping = false) →
      (∀ h ∈ hits, s1.remoteAccess h.p h.pte = false ∧ (att h.k).store (s1.logQuota c.ctx) h.va h.v = .ok (att1 h.k)) →
      ∃ t, exec ins s = .next t ∧
        MovedOn (if i.ext.policy = 3 then hits.foldl (fun (st : State) h => st.dropCopies c.core h.p (4 * n)) s1 else s1) t i (formOf c i.ext ins) c c x
          fun k f => if k ∈ x then ({ f.popAll (blockOf v n ++ [a, a + 1]) with tx := some (att1 k) }).passed .stores s1.nextId else f
  ) ∧
  (
    ∀ (att : Attempt) (quota va : Nat), (∀ w ∈ att.writes, w.bytes.length = 32 ∧ w.mask.length = 32) → (∀ r ∈ att.reads, r.bytes.length = 32) →
      let sec := va / 32 * 32
      let room (base : Nat) : Nat := if att.serial then base + quota else base
      let write : Option LogSector := att.writes.find? fun w => w.va == sec
      let put (j : Nat) : Bool := (write.map fun w => w.mask.getD j false).getD false
      let old (j : Nat) : Byte := (write.map fun w => w.bytes.getD j 0).getD 0
      (∀ (s : State) (n : Nat) (p : Place), va % 32 + n ≤ 32 → (s.homeRead (p.sectorBase va) 32).length = 32 →
        let fresh := s.homeRead (p.sectorBase va) 32
        let bytes (l : List Byte) : List Byte := (List.range n).map fun j => if put (va % 32 + j) then old (va % 32 + j) else l.getD (va % 32 + j) 0
        let own := ∀ j, j < n → put (va % 32 + j) = true
        (att.serves va n = true ↔ own ∨ ∃ r ∈ att.reads, r.va = sec) ∧
        (own → att.load s quota va n p = .ok (att, bytes [])) ∧ (¬own → ∀ r, att.reads.find? (fun r => r.va == sec) = some r → att.load s quota va n p = .ok (att, bytes r.bytes)) ∧
        (¬own → (∀ r ∈ att.reads, r.va ≠ sec) → att.load s quota va n p =
          if att.reads.length < room 64 then .ok ({ att with reads := att.reads ++ [⟨sec, fresh, []⟩] }, bytes fresh) else .error .readcap)) ∧
      ∀ v : List Byte, va % 32 + v.length ≤ 32 →
        (write = none → room 32 ≤ att.writes.length → att.store quota va v = .error .writecap) ∧
        (write ≠ none ∨ att.writes.length < room 32 →
          ∃ att1 w, att.store quota va v = .ok att1 ∧ att1 = { att with writes := att1.writes } ∧ (∀ w ∈ att1.writes, w.bytes.length = 32 ∧ w.mask.length = 32) ∧
            att1.writes.find? (fun w => w.va == sec) = some w ∧ (∀ q, q ≠ sec → att1.writes.find? (fun w => w.va == q) = att.writes.find? fun w => w.va == q) ∧
            ∀ j, j < 32 → let here := va % 32 ≤ j ∧ j < va % 32 + v.length
              w.mask.getD j false = (put j || decide here) ∧ (w.mask.getD j false = true → w.bytes.getD j 0 = if here then v.getD (j - va % 32) 0 else old j))
  )

/-- ATOM and CAS: an outstanding atomic for each executing fibre, of its scope and semantics; a host-window add or exchange of several fibres on one word is one request of all of them, in ascending rank (R317, R318, R319, R326, R327, R293). The accesses have no older access of their fibre to the same bytes (R158) and no poisoned data (R153). It states the completion of: atomAdd, atomMin, atomMax, atomAnd, atomOr, atomXor, atomXchg, atomIncw, atomDecw, cas. -/
def Obligations.AtomicsStartAnAccess : Prop :=
  ∀ (e : Bool) (scope : BitVec 3) (sem : Sem) (seq : BitVec 4) (d a : Reg) (s : State) (i : Issue) (c : Crew) (x : List Nat) (T : Tag) (l : Nat → List (Word × Tag))
    (va : Nat → Nat × Option Place) (s1 : State) (hits : List (Hit (Word × Word × Tag))), c.regsOk = true → d.toNat < 120 →
    (∀ h ∈ hits, s1.unknownDevice h.p = false ∧ s1.firstBad h.p 4 = none ∧ s1.settleBad c.core h.p = none ∧ ∀ o ∈ s1.ops, o.crew = c.id → h.k ∈ o.ranks → ∀ q ∈ o.work.spans, placesMeet q.1 q.2 h.p 4 = false) →
    c.Room x [(d.toNat, .g)] →
    let op (ins : Instr) (h : Hit (Word × Word × Tag)) (ranks : List Nat) (w : Work) : Op :=
      Turn.memOp ⟨i, formOf c i.ext ins, x, []⟩ s1 c h ranks (i.ext.seqOr seq) scope.toNat (decide (sem = .acquire ∨ sem = .acqRel)) (decide (sem = .release ∨ sem = .acqRel)) 4 w
    (∀ p ∈ ([(Instr.atomAdd, AtomOp.add, fun t => isInt32 t || t == .f32), (.atomMin, .min, fun t => isInt32 t || t == .f32), (.atomMax, .max, fun t => isInt32 t || t == .f32),
        (.atomAnd, .and, fun _ => true), (.atomOr, .or, fun _ => true), (.atomXor, .xor, fun _ => true), (.atomXchg, .xchg, fun _ => true), (.atomIncw, .incw, isInt32), (.atomDecw, .decw, isInt32)] :
        List ((Bool → BitVec 3 → Sem → BitVec 4 → Reg → Reg → Instr) × AtomOp × (Tag → Bool))),
      let ins := p.1 e scope sem seq d a
      Ready s ins i c x → p.2.2 T = true → (∀ k ∈ x, Reads s c k [d, a, a + 1] (l k) ∧ opTag (l k) 0 = T) →
      (∀ k ∈ x, s.operandAddr c .global (opnd (l k) 1) (opnd (l k) 2) i.ext.byteOffset 4 = .ok (va k)) → Finds s c true x va (fun k => (opnd (l k) 0, opnd (l k) 1, T)) s1 hits →
      (∀ h ∈ hits, h.p.isHost = true → p.2.1 = .add ∨ p.2.1 = .xchg) →
      ∃ t, exec ins s = .next t ∧
        Issued s1 t i (formOf c i.ext ins) c x [d.toNat] (some .loads) (hits.filterMap fun h =>
          let same := hits.filter fun g => g.p == h.p
          if h.p.isHost then
            (if (same.map fun g => g.k).head? = some h.k then some (op ins h (same.map fun g => g.k) (.hostAtom h.p (some p.2.1) d (same.map fun g => (g.k, g.v.1, g.v.2.1)) T)) else none)
          else some (op ins h [h.k] (.atom h.p p.2.1 d T h.v.1)))) ∧
    (
      let ins := Instr.cas e scope sem seq d a
      Ready s ins i c x → (∀ k ∈ x, Reads s c k [d, d + 1, a, a + 1] (l k) ∧ opTag (l k) 0 = T) →
      (∀ k ∈ x, s.operandAddr c .global (opnd (l k) 2) (opnd (l k) 3) i.ext.byteOffset 4 = .ok (va k)) → Finds s c true x va (fun k => (opnd (l k) 0, opnd (l k) 1, T)) s1 hits →
      ∃ t, exec ins s = .next t ∧
        Issued s1 t i (formOf c i.ext ins) c x [d.toNat] (some .loads) (hits.map fun h =>
          op ins h [h.k] (if h.p.isHost then .hostAtom h.p none d [(h.k, h.v.1, h.v.2.1)] T else .cas h.p d h.v.1 h.v.2.1)))

/-- RED and RSETTLE: a contribution to a word of this package enters the core's reduction buffer, one to another package is an outstanding operation; it has then been counted among its fibre's stores; RSETTLE settles its word, or asks another package to; under policy 0b11 the copies its core and die hold are dropped (R137, R367, R368, R369, R172, R405). It states the completion of: redAdd, redMin, redMax, rsettle. -/
def Obligations.ReductionsContributeAndSettle : Prop :=
  ∀ (e : Bool) (scope : BitVec 3) (rel : Bool) (seq : BitVec 4) (d a : Reg) (s : State) (i : Issue) (c : Crew) (x : List Nat) (l : Nat → List (Word × Tag)) (va : Nat → Nat × Option Place) (s1 : State),
    c.regsOk = true →
    (∀ p ∈ ([(Instr.redAdd, RedKind.add), (.redMin, .min), (.redMax, .max)] : List ((Bool → BitVec 3 → Bool → BitVec 4 → Reg → Reg → Instr) × RedKind)), ∀ hits : List (Hit (Word × Tag)),
      let ins := p.1 e scope rel seq d a
      let op (h : Hit (Word × Tag)) : Op := Turn.memOp ⟨i, formOf c i.ext ins, x, []⟩ s1 c h [h.k] (i.ext.seqOr seq) scope.toNat false rel 4 (.red h.p p.2 h.v.2 h.v.1)
      Ready s ins i c x → (∀ k ∈ x, Reads s c k [d, a, a + 1] (l k) ∧ (isInt32 (opTag (l k) 0) = true ∨ opTag (l k) 0 ∈ [.f32, .bf16x2, .f16x2])) →
      (∀ k ∈ x, s.operandAddr c .global (opnd (l k) 1) (opnd (l k) 2) i.ext.byteOffset 4 = .ok (va k)) → Finds s c true x va (fun k => (opnd (l k) 0, opTag (l k) 0)) s1 hits →
      (∀ h ∈ hits, s1.unknownDevice h.p = false ∧ h.p.isHost = false) →
      ((∀ h ∈ hits, s1.peerOf h.p ≠ none) → ∃ t, exec ins s = .next t ∧ Issued s1 t i (formOf c i.ext ins) c x [] (some .stores) (hits.map op)) ∧
      ((∀ h ∈ hits, s1.peerOf h.p = none ∧ s1.mustWait (op h) = false) → rel = false → (s1.redBuf.filter fun y => y.core == c.core).length + x.length ≤ Config.coreAccs →
        ∃ t, exec ins s = .next t ∧
          let u := if i.ext.policy = 3 then hits.foldl (fun (st : State) h => st.dropCopies c.core h.p 4) s1 else s1
          MovedOn { u with redBuf := s1.redBuf ++ hits.map fun h => ⟨c.core, c.ctx, c.id, h.k, seqBit (i.ext.seqOr seq), h.p, p.2, h.v.2, h.v.1, false⟩ } t i (formOf c i.ext ins) c c x
            fun k f => if k ∈ x then (f.popAll [d, a, a + 1]).passed .stores s1.nextId else f)) ∧
    (∀ hits : List (Hit Unit),
      let ins := Instr.rsettle e scope seq a
      let op (h : Hit Unit) : Op := Turn.memOp ⟨i, formOf c i.ext ins, x, []⟩ s1 c h [h.k] (i.ext.seqOr seq) scope.toNat false true 4 (.settle h.p)
      Ready s ins i c x → (∀ k ∈ x, Reads s c k [a, a + 1] (l k)) → (∀ k ∈ x, s.operandAddr c .global (opnd (l k) 0) (opnd (l k) 1) i.ext.byteOffset 4 = .ok (va k)) →
      Finds s c true x va (fun _ => ()) s1 hits → (∀ h ∈ hits, s1.unknownDevice h.p = false ∧ h.p.isHost = false ∧ s1.settleBad c.core h.p = none) →
      ((∀ h ∈ hits, s1.peerOf h.p ≠ none) → ∃ t, exec ins s = .next t ∧ Issued (if i.ext.policy = 3 then hits.foldl (fun (st : State) h => st.dropCopies c.core h.p 4) s1 else s1) t i (formOf c i.ext ins) c x [] none (hits.map op)) ∧
      ((∀ h ∈ hits, s1.peerOf h.p = none ∧ s1.mustWait (op h) = false) → a.toNat ≤ 118 → (s1.crews.map fun y => y.id).Nodup →
        let u := hits.foldl (fun (st : State) h => (((if i.ext.policy = 3 then st.dropCopies c.core h.p 4 else st).release c.id h.k scope.toNat (seqBit (i.ext.seqOr seq))).noteAccess c.core c.ctx h.va h.p).settleWord c.id h.k c.core h.p) s1
        ∃ t d, exec ins s = .next t ∧ u.getCrew i.crew = some d ∧ (d.regs, d.rows, d.tiles) = (c.regs, c.rows, c.tiles) ∧ MovedOn u t i (formOf c i.ext ins) d d x fun _ f => f))

/-- PREF changes nothing but caches and the counts of accesses (R366, R146). FLUSH and INVAL of a length other than 0: an outstanding operation of the stores class for each executing fibre, of its sequence and scope; a length of 0 does nothing. When the operation performs, the dirty bytes of the host sectors of its lines stand in memory; a FLUSH leaves those sectors clean, and an INVAL has dropped every cached copy of its lines (R304, R405). It states the completion of: pref, flush, inval. -/
def Obligations.PrefFlushAndInvalActOnTheCaches : Prop :=
  ∀ (e : Bool) (a b : Reg) (s : State) (i : Issue) (c : Crew) (x : List Nat) (t0 t1 t2 : Tag) (lo hi n : Nat → Word),
    (Ready s (.pref e a) i c x → (∀ k ∈ x, Reads s c k [a, a + 1] [(lo k, t0), (hi k, t1)] ∧ wrapInt 64 ((hi k ++ lo k).toNat + i.ext.byteOffset) < 2 ^ 57) →
      ∃ t u, exec (.pref e a) s = .next t ∧ u = { s with l1 := u.l1, remoteCache := u.remoteCache, accessCounts := u.accessCounts } ∧
        MovedOn u t i (formOf c i.ext (.pref e a)) c c x fun _ f => f) ∧
    (∀ flush : Bool,
      let ins := if flush then Instr.flush e a b else Instr.inval e a b
      let seqs := seqBit (i.ext.seqOr 0)
      let va (k : Nat) : Nat := (hi k ++ lo k).toNat
      Ready s ins i c x → c.regsOk = true → isInt32 t2 = true → (∀ k ∈ x, Reads s c k [a, a + 1, b] [(lo k, t0), (hi k, t1), (n k, t2)] ∧ va k < 2 ^ 57 ∧ va k + (n k).toNat ≤ 2 ^ 57) →
      ((∀ k ∈ x, n k ≠ 0) → ∃ t, exec ins s = .next t ∧
        Issued s t i (formOf c i.ext ins) c x [] (some .stores) (x.map fun k =>
          { Turn.op ⟨i, formOf c i.ext ins, x, []⟩ c k [k] (.lines flush (va k) (n k).toNat) with seqs := seqs, scope := i.ext.scopeOr 5, acq := !flush, rel := flush, va := va k, n := (n k).toNat })) ∧
      ((∀ k ∈ x, n k = 0) → ∃ t, exec ins s = .next t ∧
        MovedOn s t i (formOf c i.ext ins) c c x fun k f => if k ∈ x then (f.popAll [a, a + 1, b]).passed .stores s.nextId else f)) ∧
    (∀ (o : Op) (flush : Bool) (v len : Nat), s.getOp o.id = some o → o.work = .lines flush v len → s.opReady o = true → s.linesStuck o.ctx v len = false →
      let r := s.lineRanges o.ctx v len
      ∃ t u : State, exec (.storePerform o.id) s = .next t ∧ t = u.retireOp o ∧ u.ops = s.ops ∧
        (s.hostLost = false → Memory.wf s → (s.hostL2.map fun y => y.sector).Nodup → (∀ y ∈ s.hostL2, y.bytes.length = 32) →
          (∀ a ∈ s.accs, a.place.isHost = false) → (∀ a ∈ s.redBuf, a.place.isHost = false) →
          (∀ y ∈ s.hostL2, inRanges r y.sector = true → ∀ n, n < 32 → y.dirty.getD n false = true → cellGet u.mem (32 * y.sector + n) = y.bytes.getD n 0) ∧
          ((∀ y ∈ s.redBuf, ¬(y.crew = o.crew ∧ y.rank = o.rank)) → ∀ a, cellGet u.mem a = cellGet s.mem a ∨
            ∃ y ∈ s.hostL2, a / 32 = y.sector ∧ y.dirty.getD (a % 32) false = true ∧ cellGet u.mem a = y.bytes.getD (a % 32) 0)) ∧
        (flush = true → s.hostLost = false → ∀ y ∈ u.hostL2, inRanges r y.sector = true → ∀ q ∈ y.dirty, q = false) ∧
        (flush = false → (∀ y ∈ u.hostL2, inRanges r y.sector = false) ∧ (∀ y ∈ u.l1, inRanges r y.sector = false) ∧ ∀ y ∈ u.remoteCache, inRanges r y.sector = false))

/-- A load of the device registers beyond the notify registers, to which the spec gives no meaning, is refused (R140, R232, R303; log entry 58). -/
def Obligations.DeviceRegisterLoadsStop : Prop :=
  ∀ (e : Bool) (fmt : Tag) (seq : BitVec 4) (d a : Reg) (cnt : BitVec 2) (acq : Bool) (s : State) (i : Issue) (c : Crew) (x : List Nat)
    (l : Nat → List (Word × Tag)) (va : Nat → Nat × Option Place) (s1 : State) (hits : List (Hit Unit)),
    let ins := Instr.ld e fmt .global seq d a cnt acq
    Ready s ins i c x → (∀ k ∈ x, Reads s c k [a, a + 1] (l k) ∧ s.operandAddr c .global (opnd (l k) 0) (opnd (l k) 1) i.ext.byteOffset (4 * 2 ^ cnt.toNat) = .ok (va k)) →
    Finds s c false x va (fun _ => ()) s1 hits → (∃ h ∈ hits, s1.unknownDevice h.p = true) → c.Room x ((List.range (2 ^ cnt.toNat)).map fun j => (d.toNat + j, if c.shapeOf a = .u ∧ c.shapeOf (a + 1) = .u then .u else .g)) →
    exec ins s = .refused .deviceRegister

/-! ### The matrix engine and tiles -/

/-- MMA and MMAS in every element format: gang by gang, each executing fibre's row of the tile takes the exact sum of its own element and the K products with the sixteen columns (zeros for a column whose fibre is not live), rounded once or wrapped; the row's flags go to its fibre; the update counts among the tile operations (R117, R118, R119, R120, R121, R113, R405). An element of the update: the wrapping integer sum, or the exact sum of the old value and the scaled products rounded once to F32, with its NaNs, infinities, zero sign and flags (R99, R113, R120, R121). Where results of members that do not execute may land as the engine reads, which of them it sees is a free value (R122, log entry 1). It states the completion of: mmaBf16, mmaF16, mmaE4m3, mmaE5m2, mmaSi8, mmaUi8, mmasE2m1, mmasE2m3, mmasE3m2, mmasE4m3, mmasE5m2, mmasSi8. -/
def Obligations.MatrixInstructionsAccumulateInTheTile : Prop :=
  ∀ p ∈ ([(Instr.mmaBf16, ⟨.bf16x2, 32, 16, false, 0, false⟩), (.mmaF16, ⟨.f16x2, 32, 16, false, 0, false⟩), (.mmaE4m3, ⟨.e4m3x4, 64, 16, false, 0, false⟩), (.mmaE5m2, ⟨.e5m2x4, 64, 16, false, 0, false⟩),
      (.mmaSi8, ⟨.si8x4, 64, 16, false, 0, true⟩), (.mmaUi8, ⟨.ui8x4, 64, 16, false, 0, true⟩), (.mmasE2m1, ⟨.e2m1x8, 128, 16, true, 0, false⟩), (.mmasE2m3, ⟨.e2m3p, 128, 24, true, 0, false⟩),
      (.mmasE3m2, ⟨.e3m2p, 128, 24, true, 0, false⟩), (.mmasE4m3, ⟨.e4m3x4, 64, 16, true, 0, false⟩), (.mmasE5m2, ⟨.e5m2x4, 64, 16, true, 0, false⟩), (.mmasSi8, ⟨.si8x4, 64, 16, true, 6, false⟩)] :
      List ((Bool → BitVec 8 → Reg → Reg → Bool → Instr) × MatForm)),
  (
  ∀ (e : Bool) (t8 : BitVec 8) (a b : Reg) (neg : Bool) (s : State) (i : Issue) (c : Crew) (x : List Nat) (tl : Tile), Ready s (p.1 e t8 a b neg) i c x → c.tiles[t8.toNat]? = some tl → tl.words.length = 256 →
    let m := p.2
    let span := if m.scaled then m.regs + 1 else m.regs
    (∀ r ∈ blockOf a m.regs ++ blockOf b m.regs, c.tagOf r = m.tag) → (m.scaled = true → c.tagOf (a + BitVec.ofNat 7 m.regs) = .e8m0x4 ∧ c.tagOf (b + BitVec.ofNat 7 m.regs) = .e8m0x4) →
    (∀ k, s.regPoisoned c.id k (blockOf a span ++ blockOf b span) = false) → s.tilePoisoned c t8.toNat none = false →
    ∀ (s0 : State) (view : Nat → Nat → Word) (c0 : Crew), s.matLandings c x b span = (s0, view) → s0.getCrew i.crew = some c0 → c0.tiles = c.tiles → c0.fibres.length = c.fibres.length →
    let u := (gangsOf x).foldl (fun c2 g => c2.matGang m neg t8.toNat a b view x g) c0
    (∃ t, exec (p.1 e t8 a b neg) s = .next t ∧ MovedOn s0 t i (formOf c i.ext (p.1 e t8 a b neg)) u u x fun k f => if k ∈ x then f.passed .tiles s.nextId else f) ∧
    (s.matLanding c x b span = [] → s0 = s ∧ c0 = c ∧ view = c.elem) ∧
    (u.regs, u.rows, u.scratch) = (c0.regs, c0.rows, c0.scratch) ∧ (∀ n, n ≠ t8.toNat → u.tiles[n]? = c.tiles[n]?) ∧
    ∀ g, (∀ k ∈ x, k / 16 = g) →
      let col (j : Nat) : Frag := if c0.fibTest (fun f => f.live) (16 * g + j) then m.frag view b (16 * g + j) else ⟨0, 0⟩
      (∃ tu, u.tiles[t8.toNat]? = some tu ∧ tu.st = tl.st ∧ ∀ w, w < 256 → tu.words.getD w 0 =
        if 16 * g + w / 16 ∈ x then (m.element neg (tl.words.getD w 0) (m.frag c0.elem a (16 * g + w / 16)) (col (w % 16))).1 else tl.words.getD w 0) ∧
      ∀ k f, c0.fib k = some f → u.fib k = some (if k ∈ x then
        f.flag ((List.range 16).foldl (fun acc j => acc ||| (m.element neg (tl.words.getD (16 * (k % 16) + j) 0) (m.frag c0.elem a k) (col j)).2) 0) else f)
  ) ∧
  (
    ∀ (neg : Bool) (acc : Word) (fa fb : Frag),
      let m := p.2
      let out := m.element neg acc fa fb
      let w := (tagElem m.tag).width
      let bits (f : Frag) (n : Nat) : Nat := f.bits / 2 ^ (w * n) % 2 ^ w
      let int (f : Frag) (n : Nat) : Int := if m.tag = .si8x4 then (BitVec.ofNat 8 (bits f n)).toInt else bits f n
      (m.int = true → out = (let p : Int := ((List.range m.k).map fun n => int fa n * int fb n).sum
        (acc + BitVec.ofInt 32 (if neg then -p else p), 0))) ∧
      (m.int = false →
        let v (f : Frag) (n : Nat) : Ex := (tagElem m.tag).value (bits f n)
        let scale (f : Frag) (n : Nat) : Nat := f.scale / 2 ^ (8 * (n / 32)) % 256
        let val (f : Frag) (n : Nat) : Rat := (v f n).rat / ((2 ^ m.shift : Nat) : Rat) * if m.scaled then ((2 ^ scale f n : Nat) : Rat) / ((2 ^ 127 : Nat) : Rat) else 1
        let badScale := m.scaled = true ∧ ∃ n, n < m.k ∧ (scale fa n = 255 ∨ scale fb n = 255)
        let z := fF32.value acc.toNat
        let sign (n : Nat) : Bool := ((v fa n).isNeg != (v fb n).isNeg) != neg
        let isZero (f : Frag) (n : Nat) : Prop := (v f n).isFinite = true ∧ (v f n).rat = 0
        let isInf (f : Frag) (n : Nat) : Prop := v f n = .inf false ∨ v f n = .inf true
        let invalid (n : Nat) : Prop := (isZero fa n ∧ isInf fb n) ∨ (isInf fa n ∧ isZero fb n)
        let infinite (q : Bool) : Prop := z = .inf q ∨ ∃ n, n < m.k ∧ (isInf fa n ∨ isInf fb n) ∧ sign n = q
        let someNan := z.isNan = true ∨ ∃ n, n < m.k ∧ ((v fa n).isNan = true ∨ (v fb n).isNan = true)
        (badScale → out = (0x7FC00000, flIV)) ∧
        (¬badScale →
          ((∃ n, n < m.k ∧ invalid n) → out = (0x7FC00000, flIV)) ∧
          ((∀ n, n < m.k → ¬invalid n) →
            (someNan → ¬(infinite false ∧ infinite true) → out = (0x7FC00000, 0)) ∧
            (¬someNan → (infinite false → infinite true → out = (0x7FC00000, flIV)) ∧ (∀ q, infinite q → ¬infinite (!q) → out = (BitVec.ofNat 32 (fF32.signed q fF32.inf), 0)) ∧
              (¬infinite false → ¬infinite true →
                let total : Rat := z.rat + (if neg then -1 else 1) * ((List.range m.k).map fun n => val fa n * val fb n).sum
                ∃ r, fF32.Rounds ⟨.rne, false⟩ total r ∧ out = (BitVec.ofNat 32 r.1, r.2 ||| if r.2 &&& flOF = 0 then 0 else flIX) ∧
                  (total = 0 → (r.1 = 0x80000000 ↔ z.rat = 0 ∧ z.isNeg = true ∧ ∀ n, n < m.k → val fa n * val fb n = 0 ∧ sign n = true)))))))
  )
/-- TZERO, TROW, TGET and TSTAT: zeros in every word and READY; the executing fibres' rows from sixteen registers; a row into sixteen registers, and the state of the tile into one, when the operation lands (R126, R127, R124). TFILL and TDRAIN: at the address of the lowest executing fibre, aligned to 128 bytes, one outstanding operation of the issue moves the tile, which is FILLING or DRAINING until it completes (R126, R124). It states the completion of: tzero, tfill, tdrain, tget, trow, tstat. -/
def Obligations.TileInstructionsMoveRowsAndTiles : Prop :=
  (
    ∀ (e : Bool) (t8 : BitVec 8) (reg : Reg) (s : State) (i : Issue) (c : Crew) (x : List Nat) (tl : Tile), c.regsOk = true → c.tiles[t8.toNat]? = some tl → tl.words.length = 256 →
      (Ready s (.tzero e t8) i c x → x ≠ [] →
        ∃ t, exec (.tzero e t8) s = .next t ∧
          MovedOn (s.unmarkTile c.id t8.toNat fun _ => true) t i (formOf c i.ext (.tzero e t8)) c { c with tiles := c.tiles.set t8.toNat ⟨.ready, List.replicate 256 0⟩ } x
            fun k f => (if k ∈ x then f.passed .tiles s.nextId else f).woken [awaitTile t8.toNat] s.cycles) ∧
      (Ready s (.trow e t8 reg) i c x → (∀ r ∈ blockOf reg 16, c.tagOf r = .f32 ∨ c.tagOf r = .si32) → (∀ k ∈ x, s.regPoisoned c.id k (blockOf reg 16) = false) →
        ∃ t words, exec (.trow e t8 reg) s = .next t ∧ words.length = 256 ∧
          (∀ w, w < 256 → words.getD w 0 = match (x.filter fun k => k % 16 == w / 16).getLast? with | some k => c.elem (reg.toNat + w % 16) k | none => tl.words.getD w 0) ∧
          MovedOn (s.unmarkTile c.id t8.toNat fun w => x.any fun k => k % 16 == w / 16) t i (formOf c i.ext (.trow e t8 reg)) c { c with tiles := c.tiles.set t8.toNat { tl with words := words } } x
            fun k f => if k ∈ x then f.passed .tiles s.nextId else f) ∧
      (Ready s (.tget e t8 reg) i c x → reg.toNat ≤ 104 → s.tilePoisoned c t8.toNat none = false → c.Room x ((List.range 16).map fun j => (reg.toNat + j, .g)) →
        ∃ t c', exec (.tget e t8 reg) s = .next t ∧ RegsWritten c c' x [] ∧
          MovedOn (s.later i (formOf c i.ext (.tget e t8 reg)) c x ((List.range 16).map fun j => reg.toNat + j)
              ((List.range 16).map fun j => .value (reg + BitVec.ofNat 7 j) .f32 .g (x.map fun k => (k, tl.words.getD (16 * (k % 16) + j) 0)) [] []))
            t i (formOf c i.ext (.tget e t8 reg)) c c' x fun k f => if k ∈ i.ranks then { f with gate := none, meeting := none } else f) ∧
      (Ready s (.tstat e t8 reg) i c x → reg.toNat < 120 → c.Room x [(reg.toNat, .g)] →
        ∃ t c', exec (.tstat e t8 reg) s = .next t ∧ RegsWritten c c' x [] ∧
          MovedOn (s.later i (formOf c i.ext (.tstat e t8 reg)) c x [reg.toNat]
              [.value reg .ui32 .g (x.map fun k => (k, match tl.st with | .empty => 0 | .filling => 1 | .ready => 2 | .draining => 3)) [] []])
            t i (formOf c i.ext (.tstat e t8 reg)) c c' x fun _ f => f)
  ) ∧
  (
    ∀ (e write : Bool) (t8 : BitVec 8) (seq : BitVec 4) (reg : Reg) (keep : Bool) (fmt : TileFmt) (scr : Bool) (s : State) (i : Issue) (c : Crew) (k0 : Nat) (xs : List Nat) (tl : Tile)
      (l : List (Word × Tag)) (va : Nat) (here : Option Place) (s1 : State) (hits : List (Hit Unit)),
      let ins := if write then Instr.tdrain e t8 seq reg keep fmt scr else .tfill e t8 seq reg fmt scr
      let x := k0 :: xs
      let srcs := if scr then [reg] else pairOf reg
      let n := match fmt with | .word => 1024 | _ => 512
      let ps := hits.map fun h => h.p
      Ready s ins i c x → c.regsOk = true → reg.toNat ≤ 118 → c.tiles[t8.toNat]? = some tl → Reads s c k0 srcs l →
      s.addrForm c (if scr then .scratch else .global) (opnd l 0) (opnd l 1) i.ext.byteOffset n = .ok (va, here) → va % 128 = 0 → (scr = false → va + n ≤ 2 ^ 57) →
      s.locate c write ((List.range (n / 64)).map fun j => (j, ⟨va + 64 * j, if scr then some (.scratch c.id (va + 64 * j)) else none, ()⟩)) = (s1, ⟨hits, [], []⟩) →
      (∀ h ∈ hits, s1.unknownDevice h.p = false) → (write = true → s.tilePoisoned c t8.toNat none = false) → (∀ f, c.fib k0 = some f → f.stepping = false) →
      ∃ t, exec ins s = .next t ∧
        Issued s1 t i (formOf c i.ext ins) { c with tiles := c.tiles.set t8.toNat { tl with st := if write then .draining else .filling } } x [] (some .tiles)
          [{ Turn.op ⟨i, formOf c i.ext ins, x, []⟩ c k0 x (if write then .drain ps t8.toNat fmt keep else .fill ps t8.toNat fmt) with
              seqs := seqBit seq, va := va, n := n, peer := ps.findSome? s.peerOf, host := ps.any Place.isHost, sentAt := s.ticks }]
  )

/-! ### Cross-fibre instructions -/

/-- SHFL, VOTE, FOLD, SCAN and MATCH once their gate holds (R343, R24): every executing fibre is in a meeting that captured its members' values, and writes its result, always G, with the flags of the rounding steps (R378, R403, R344, R379, R345, R114). The tree of FOLD; its steps: 32-bit integers wrap, and elements of other tags are those of ADD, MIN and MAX, rounded to nearest without saturation (R114, R344). It states the completion of: shflIdx, shflUp, shflDown, shflXor, voteAny, voteAll, voteBallot, foldAdd, foldMin, foldMax, foldAnd, foldOr, foldXor, scanAdd, scanMin, scanMax, scanAnd, scanOr, scanXor, matchAny, matchAll. -/
def Obligations.CrossFibreInstructionsCompleteAtTheirMeeting : Prop :=
  (
  ∀ (e : Bool) (d a m : Reg) (s : State) (i : Issue) (c : Crew) (x : List Nat) (T : Tag) (mt : Nat → Meeting), c.regsOk = true → d.toNat < 120 →
    (∀ k ∈ x, (mt k).pc = i.group ∧ (mt k).tag = T ∧ (mt k).vals ≠ [] ∧ ∀ f, c.fib k = some f → f.meeting = some (mt k)) → c.Room x [(d.toNat, .g)] →
    let done (ins : Instr) (tag : Tag) (word : Meeting → Nat → Word) (flags : Meeting → Nat) : Prop :=
      Ready s ins i c x → ∃ t c', exec ins s = .next t ∧ RegsWritten c c' x [(d.toNat, tag, fun k => word (mt k) k)] ∧ (x ≠ [] → (c'.desc d.toNat).shape = .g) ∧
        MovedOn (s.marked i x [d.toNat]) t i (formOf c i.ext ins) c c' x fun k f =>
          let g : Fibre := if k ∈ i.ranks then { f with gate := none, meeting := none } else f
          if k ∈ x then g.flag (flags (mt k)) else g
    let own (q : Meeting) (k : Nat) : Word × Word := ((q.vals.find? fun v => v.1 == k).map fun v => v.2).getD (0, 0)
    let shfl (src : Int → Nat → Int) (q : Meeting) (k : Nat) : Word :=
      let j := src (k % 32 : Nat) (own q k).2.toNat
      if 0 ≤ j ∧ j ≤ 31 ∧ (q.vals.any fun v => v.1 == k / 32 * 32 + j.toNat) = true then (own q (k / 32 * 32 + j.toNat)).1 else (own q k).1
    let ballot (l : List (Nat × Word × Word)) : Word := l.foldl (fun w v => w ||| (1#32 <<< (v.1 % 32))) 0
    let words (q : Meeting) : List (Word × Nat) := q.vals.map fun v => (v.2.1, 0)
    let upTo (q : Meeting) (k : Nat) : List (Word × Nat) := (q.vals.filter fun v => v.1 ≤ k).map fun v => (v.2.1, 0)
    let scan (op : Word × Nat → Word × Nat → Word × Nat) (q : Meeting) (k : Nat) : Word × Nat := match upTo q k with | y :: r => r.foldl op y | [] => (0, 0)
    done (.shflIdx e d a m) T (shfl fun _ n => ((n % 32 : Nat) : Int)) (fun _ => 0) ∧ done (.shflUp e d a m) T (shfl fun j n => j - n) (fun _ => 0) ∧
    done (.shflDown e d a m) T (shfl fun j n => j + n) (fun _ => 0) ∧ done (.shflXor e d a m) T (shfl fun j n => ((j.toNat ^^^ (n % 32) : Nat) : Int)) (fun _ => 0) ∧
    done (.voteAny e d a m) .ui32 (fun q _ => if q.vals.any (fun v => v.2.1 != 0) then 1 else 0) (fun _ => 0) ∧
    done (.voteAll e d a m) .ui32 (fun q _ => if q.vals.all (fun v => v.2.1 != 0) then 1 else 0) (fun _ => 0) ∧
    done (.voteBallot e d a m) .ui32 (fun q _ => ballot (q.vals.filter fun v => v.2.1 != 0)) (fun _ => 0) ∧
    done (.matchAny e d a m) .ui32 (fun q k => if (q.vals.any fun v => v.1 == k) = true then ballot (q.vals.filter fun v => v.2.1 == (own q k).1) else 0) (fun _ => 0) ∧
    done (.matchAll e d a m) .ui32 (fun q _ => if q.vals ≠ [] ∧ ∀ v ∈ q.vals, ∀ w ∈ q.vals, v.2.1 = w.2.1 then q.mask else 0) (fun _ => 0) ∧
    (∀ p ∈ ([(Instr.foldAnd, Instr.scanAnd, fun y z => y &&& z), (.foldOr, .scanOr, fun y z => y ||| z), (.foldXor, .scanXor, fun y z => y ^^^ z)] :
        List ((Bool → Reg → Reg → Reg → Instr) × (Bool → Reg → Reg → Reg → Instr) × (Word → Word → Word))),
      (∀ k ∈ x, (mt k).vals.length ≤ 32) → done (p.1 e d a m) T (fun q _ => match q.vals with | v :: r => r.foldl (fun w u => p.2.2 w u.2.1) v.2.1 | [] => 0) (fun _ => 0)) ∧
    (∀ p ∈ ([(Instr.foldAdd, Instr.scanAdd, foldAddOp T), (.foldMin, .scanMin, foldMinOp T), (.foldMax, .scanMax, foldMaxOp T),
        (.foldAnd, .scanAnd, foldBitOp (fun y z => y &&& z) T), (.foldOr, .scanOr, foldBitOp (fun y z => y ||| z) T), (.foldXor, .scanXor, foldBitOp (fun y z => y ^^^ z) T)] :
        List ((Bool → Reg → Reg → Reg → Instr) × (Bool → Reg → Reg → Reg → Instr) × (Word × Nat → Word × Nat → Word × Nat))),
      done (p.1 e d a m) T (fun q _ => ((foldTree p.2.2 6 (words q)).headD (0, 0)).1) (fun q => ((foldTree p.2.2 6 (words q)).headD (0, 0)).2) ∧
      (Ready s (p.2.1 e d a m) i c x → ∃ t c', exec (p.2.1 e d a m) s = .next t ∧ (x ≠ [] → (c'.desc d.toNat).shape = .g) ∧ RegsWritten c c' x [(d.toNat, T, fun k => (scan p.2.2 (mt k) k).1)] ∧
        MovedOn (s.marked i x [d.toNat]) t i (formOf c i.ext (p.2.1 e d a m)) c c' x fun k f =>
          let g : Fibre := if k ∈ i.ranks then { f with gate := none, meeting := none } else f
          if k ∈ x then g.flag (scan p.2.2 (mt k) k).2 else g))
  ) ∧
  (
    (∀ (op : Word × Nat → Word × Nat → Word × Nat) (a b c d e : Word × Nat),
      foldTree op 6 [a] = [a] ∧ foldTree op 6 [a, b] = [op a b] ∧ foldTree op 6 [a, b, c] = [op (op a b) c] ∧ foldTree op 6 [a, b, c, d] = [op (op a b) (op c d)] ∧
        foldTree op 6 [a, b, c, d, e] = [op (op (op a b) (op c d)) e]) ∧
    ∀ (a b : Word) (p q : Nat),
      (∀ T ∈ [Tag.si32, .ui32],
        let less : Prop := if T = .si32 then a.toInt < b.toInt else a.toNat < b.toNat
        foldAddOp T (a, p) (b, q) = (a + b, p ||| q) ∧ (less → foldMinOp T (a, p) (b, q) = (a, p ||| q) ∧ foldMaxOp T (a, p) (b, q) = (b, p ||| q)) ∧
          (¬less → foldMinOp T (a, p) (b, q) = (b, p ||| q) ∧ foldMaxOp T (a, p) (b, q) = (a, p ||| q))) ∧
      ∀ T, arithTag T = true →
        let es := eachElem T (addElem ⟨.rne, false⟩ false) [a, b]
        foldAddOp T (a, p) (b, q) = (mergeElems none 0 es, p ||| q ||| flagsOf none es) ∧ foldMinOp T (a, p) (b, q) = (mergeElems none 0 (eachElem T (minmaxElem false) [a, b]), p ||| q) ∧
          foldMaxOp T (a, p) (b, q) = (mergeElems none 0 (eachElem T (minmaxElem true) [a, b]), p ||| q)
  )
/-- The gate of a cross-fibre instruction in the last of its mask's fibres to reach it: the values of all of them are captured and each is in the meeting; a mask that leaves the fibre out or names one that is not live is MaskInvalid (R343, R24). -/
def Obligations.TheLastToReachAGateOpensTheMeeting : Prop :=
  ∀ (s : State) (crew : Nat) (c : Crew) (xf : Xf) (pc : PcAddr) (k : Nat) (f : Fibre) (T : Tag) (mask : Word) (va vd : Nat → Word), s.getCrew crew = some c → c.fib k = some f → f.meeting = none →
    let members := maskRanks k mask
    (∀ r, s.regPoisoned crew r [xf.a, xf.m, xf.d] = false) →
    ((∀ r ∈ k :: members, s.xfView c r xf = .ok (va r, T, mask, vd r)) → k ∈ members → (∀ r ∈ members, s.standsAt c r pc = true) →
      (s.xfGate crew xf pc k).2 = .holds ∧
      ∃ c', (s.xfGate crew xf pc k).1.getCrew crew = some c' ∧ (c'.regs, c'.rows) = (c.regs, c.rows) ∧
        ∀ r g, c.fib r = some g → c'.fib r = some (if r ∈ members then { g.popAll [xf.a, xf.m] with meeting := some ⟨pc, mask, T, members.map fun q => (q, va q, vd q)⟩ } else g)) ∧
    ((∃ w, s.xfView c k xf = .ok (w, T, mask, vd k)) → (k ∉ members ∨ ∃ r ∈ members, c.fibTest (fun g => g.live) r = false) → s.xfGate crew xf pc k = (s, .traps ⟨.maskInvalid, 0⟩))

/-! ### Transactions -/

/-- TXBEGIN: an outermost one begins an attempt with empty logs and its target behind it, an inner one deepens it, both with d = 0 and the predicate set; at depth 7 the attempt aborts with DEPTH; after four aborts the fibre waits for the serial token (R178, R189). That a waiting TXBEGIN has already taken its row is log entry 53, the model's choice. It states the completion of: txbegin. -/
def Obligations.TxbeginBeginsAnAttempt : Prop :=
  ∀ (e : Bool) (d : Reg) (pd : PReg) (s : State) (i : Issue) (c : Crew) (k : Nat) (f : Fibre), Ready s (.txbegin e d pd) i c [k] → c.regsOk = true → d.toNat < 120 → c.fib k = some f → c.Room [k] [(d.toNat, .g)] →
    (f.tx = none → s.globalWritesOut c.id k = false → (f.abortCount ≠ 4 ∨ s.token.holder = some (c.id, k)) →
      ∃ t c' g, exec (.txbegin e d pd) s = .next t ∧ RegsWritten c c' [k] [(d.toNat, .ui32, fun _ => 0)] ∧ (c'.desc d.toNat).shape = .g ∧
        g = { f with tx := some ⟨1, i.pc + 4, d, pd, [], [], decide (s.token.holder = some (c.id, k)), s.ticks, s.ticks, false, c.snapshot k, f.preds, [], []⟩ } ∧
        MovedOn ((s.overwrite i [k] [d.toNat, 128 + pd.toNat]).unmark c.id [k] [d.toNat]) t i (formOf c i.ext (.txbegin e d pd)) c c' [k] fun j h => if j = k then g.setPred pd true else h) ∧
    (∀ a, f.tx = some a → a.depth ≠ 0 → a.depth < 7 →
      ∃ t c', exec (.txbegin e d pd) s = .next t ∧ RegsWritten c c' [k] [(d.toNat, .ui32, fun _ => 0)] ∧
        MovedOn ((s.overwrite i [k] [d.toNat, 128 + pd.toNat]).unmark c.id [k] [d.toNat]) t i (formOf c i.ext (.txbegin e d pd)) c c' [k] fun j h =>
          if j = k then ({ f with tx := some { a with depth := a.depth + 1 } }).setPred pd true else h) ∧
    (∀ a, f.tx = some a → a.depth = 7 →
      ∃ t c' g, exec (.txbegin e d pd) s = .next t ∧ t.cur = none ∧ t.getCrew i.crew = some c' ∧ c'.fib k = some g ∧ g.tx = none ∧ g.txCause.toNat = TxCause.depth.code ∧ g.pc = a.target ∧ g.st = .ready) ∧
    (f.tx = none → s.globalWritesOut c.id k = false → f.abortCount = 4 → s.token.holder ≠ some (c.id, k) →
      ∃ t c' g, exec (.txbegin e d pd) s = .next t ∧ t.cur = none ∧ t.getCrew i.crew = some c' ∧ c'.fib k = some g ∧ g.tx = none ∧ g.st = .awaitToken ∧ g.pc = i.pc ∧ g.begins = some (d, pd) ∧ (c'.desc d.toNat).shape = .g ∧ (∀ r j, r < 120 → j < c.size → c'.elem r j = c.elem r j) ∧
        t.token.holder = s.token.holder ∧ ∃ n, (c.id, k, n) ∈ t.token.queue)

/-- TXEND: outside a transaction the predicate is cleared; an inner one makes the attempt shallower; an outermost one commits when every logged sector reads as logged: the written bytes are performed, the cause and the abort count are zero and the predicate is set; else the fibre aborts with CONFLICT (R178, R184, R186); while older accesses of the fibre are outstanding it is Blocked in Committing, holding no lane (R179). Which value a general register takes after an abort is a free bit where its tag stands (log entries 1 and 44); that a poisoned sector of the read log counts as changed, and each run of written bytes as one step on its block, is log entry 70; that the row of a register taken at TXBEGIN stays its own is log entry 53: the model's choices. It states the completion of: txend. -/
def Obligations.TxendCommitsOrAborts : Prop :=
  ∀ (pd : PReg) (s : State) (i : Issue) (c : Crew) (k : Nat) (f : Fibre), Ready s (.txend pd) i c [k] → c.regsOk = true → c.fib k = some f → i.ranks = [k] → f.st = .issuing →
    (f.tx = none → ∃ t, exec (.txend pd) s = .next t ∧ RunEnded (s.overwrite i [k] [128 + pd.toNat]) t i c c fun j h => if j = k then (f.setPred pd false).readyAt (i.pc + 4) s.cycles else h) ∧
    (∀ a, f.tx = some a → a.depth ≠ 0 → a.depth ≠ 1 →
      ∃ t, exec (.txend pd) s = .next t ∧ RunEnded (s.overwrite i [k] [128 + pd.toNat]) t i c c fun j h =>
        if j = k then (({ f with tx := some { a with depth := a.depth - 1 } }).setPred pd true).readyAt (i.pc + 4) s.cycles else h) ∧
    (∀ (a : Attempt) (s1 : State) (rd wr : List (LogSector × Place)), f.tx = some a → a.depth = 1 → s.seqBusy c.id k 0xFFFF = false → (s.token.holder = none ∨ s.token.holder = some (c.id, k)) →
      s.commitPlans c.core c.ctx [(k, a)] = (s1, [⟨k, a, rd, wr⟩], [], none) → s1.commitHeld [⟨k, a, rd, wr⟩] = false → s1.commitShadowed c [⟨k, a, rd, wr⟩] = false → (∀ w ∈ wr, s1.unknownDevice w.2 = false) →
      let u := (s1.overwrite i [k] [128 + pd.toNat]).release c.id k 3 0xFFFF
      ((rd.all fun r => u.homeRead r.2 32 == r.1.bytes && !u.poisonedAt r.2 32) = true →
        ∃ t c' g, exec (.txend pd) s = .next t ∧ t.cur = none ∧ t.getCrew i.crew = some c' ∧ c'.fib k = some g ∧ g.tx = none ∧ g.txCause = 0 ∧ g.abortCount = 0 ∧ g.pred pd = true ∧ g.pc = i.pc + 4 ∧ g.st = .ready ∧
          t.token.holder = none ∧ (c'.regs, c'.rows) = (c.regs, c.rows) ∧
          t.mem = (wr.foldl (fun (st : State) w => (writeRuns w.1).foldl (fun (st : State) q => st.performWrite (some c.core) (w.2.plus q.1) q.2 false) st) u).mem) ∧
      ((rd.all fun r => u.homeRead r.2 32 == r.1.bytes && !u.poisonedAt r.2 32) = false →
        ∃ t c' g, exec (.txend pd) s = .next t ∧ t.cur = none ∧ t.getCrew i.crew = some c' ∧ c'.fib k = some g ∧ g.tx = none ∧ g.txCause.toNat = TxCause.conflict.code ∧ g.pc = a.target ∧ g.st = .ready ∧
          g.abortCount = min (f.abortCount + 1) 4 ∧ t.mem = u.mem)) ∧
    (∀ (a : Attempt) (s1 : State) (plans : List CommitPlan) (faults : List Nat), f.tx = some a → a.depth = 1 → s.seqBusy c.id k 0xFFFF = true → (s.token.holder = none ∨ s.token.holder = some (c.id, k)) →
      s.commitPlans c.core c.ctx [(k, a)] = (s1, plans, faults, none) →
      ∃ t c' g, exec (.txend pd) s = .next t ∧ t.cur = none ∧ t.getCrew i.crew = some c' ∧ c'.fib k = some g ∧ g = { f with st := .committing, pc := i.group } ∧ t.waiting = s1.waiting ++ [{ i with ranks := [k], commit := true }] ∧ t.mem = s1.mem)

/-- TXABORT and TXSTAT: an attempt ends with EXPLICIT at its target, with its predicate clear and the cause in d; outside one nothing happens; TXSTAT names the live members of its mask whose last attempt aborted (R178, R186). Which of the values it has held a register returns to is a free value (log entry 1), and that it does where its tag still stands, or the fibre is the only live one, is log entry 44: the model's choices. It states the completion of: txabort, txstat. -/
def Obligations.TxabortAndTxstat : Prop :=
  ∀ (e : Bool) (d a : Reg) (s : State) (i : Issue) (c : Crew) (x : List Nat), c.regsOk = true →
    (Ready s (.txabort e) i c x → (∀ k ∈ x, ∀ f, c.fib k = some f → f.tx = none) → ∃ t, exec (.txabort e) s = .next t ∧ MovedOn s t i (formOf c i.ext (.txabort e)) c c x fun _ f => f) ∧
    (∀ (k : Nat) (f : Fibre) (q : Attempt), Ready s (.txabort e) i c [k] → c.fib k = some f → f.tx = some q → q.d.toNat < 120 → (c.desc q.d.toNat).shape = .g → s.token.holder ≠ some (c.id, k) →
      ∃ t c' g, exec (.txabort e) s = .next t ∧ t.cur = none ∧ t.getCrew i.crew = some c' ∧ c'.fib k = some g ∧ g.tx = none ∧ g.txCause.toNat = TxCause.explicit.code ∧ g.abortCount = f.abortCount ∧
        g.pc = q.target ∧ g.st = .ready ∧ g.fpstat = f.fpstat ∧ (q.pd ≠ 15 → g.pred q.pd = false) ∧ c'.elem q.d.toNat k = BitVec.ofNat 32 TxCause.explicit.code ∧ (c'.desc q.d.toNat).tag = .ui32 ∧
        (∀ r, r < 120 → r ≠ q.d.toNat → (c'.elem r k = c.elem r k ∨ ∃ tag, (q.snap[r]? = some (tag, c'.elem r k) ∨ (r, tag, c'.elem r k) ∈ q.past) ∧ (tag = (c.desc r).tag ∨ c.liveSet = [k])) ∧ ∀ j ∈ c.liveSet, j ≠ k → c'.elem r j = c.elem r j) ∧
        (∀ n, n < 15 → n ≠ q.pd.toNat → g.preds.getLsbD n = f.preds.getLsbD n ∨ g.preds.getLsbD n = q.snapPreds.getLsbD n ∨ ∃ w ∈ q.pastPreds, g.preds.getLsbD n = w.getLsbD n) ∧
        (∀ o ∈ t.ops, o.crew = c.id → isResult o.work = true → k ∉ o.ranks ∨ (o.work.isAtomic = true ∧ ∀ r ∈ o.work.regs, (k, r) ∈ o.dropped)) ∧ t.mem = s.mem) ∧
    (∀ (va : Nat → Word) (T : Tag), Ready s (.txstat e d a) i c x → isInt32 T = true → (∀ k ∈ x, Reads s c k [a] [(va k, T)]) → d.toNat < 120 → c.Room x [(d.toNat, .g)] →
      ∃ (t : State) (c' : Crew) (w : Nat → Word), exec (.txstat e d a) s = .next t ∧ RegsWritten c c' x [] ∧
        MovedOn (s.later i (formOf c i.ext (.txstat e d a)) c x [d.toNat] [.value d .ui32 .g (x.map fun k => (k, w k)) [] []]) t i (formOf c i.ext (.txstat e d a)) c c' x
          (fun k f => if k ∈ x then f.popAll [a] else f) ∧
        ∀ k j, j < 32 → (w k).getLsbD j = ((va k).getLsbD j && c.fibTest (fun f => f.live && f.txCause != 0) (k / 32 * 32 + j)))

/-! ### Transaction barriers, copies and feeds -/

/-- TBINIT, TBEXP and TBARV: each executing fibre, in ascending rank, takes one step at its barrier, in scratchpad or on a page a barrier may lie on (R203, R204, R202). TBWAIT: once the phase of every executing fibre's barrier differs from its operand, or the barrier is poisoned, the barrier's word is to land in d; else the fibres wait at the instruction (R203, R24). That its acquire is taken at the widest scope is log entry 52, the model's choice. It states the completion of: tbinit, tbexp, tbarv, tbwait. -/
def Obligations.TransactionBarriersStepAndWait : Prop :=
  (
    ∀ (e : Bool) (a b : Reg) (s : State) (i : Issue) (c : Crew) (x : List Nat) (l : Nat → List (Word × Tag)) (va : Nat → Nat × Option Place) (s1 : State) (hits : List (Hit Word)),
      c.regsOk = true → a.toNat ≤ 118 → b.toNat < 120 → (s1.crews.map fun y => y.id).Nodup →
      (∀ k ∈ x, s.engineAddr c ((opnd (l k) 0).toNat + (opnd (l k) 1).toNat * 2 ^ 32) 16 = .ok (va k) ∧ (va k).1 % 16 = 0) → Finds s c true x va (fun k => opnd (l k) 2) s1 hits →
      (∀ h ∈ hits, h.p.isDev = false ∧ (h.global = true → s.barrierPage h.p h.pte = true ∧ s1.placeHeld h.p = false)) →
      let steps (ins : Instr) (kind : Word → BarStep) : Prop :=
        let u := hits.foldl (fun (st : State) h => (st.noteAccess c.core c.ctx h.va h.p).barAt h.p (kind h.v)) s1
        ∃ t d, exec ins s = .next t ∧ u.getCrew i.crew = some d ∧ (d.regs, d.rows, d.tiles) = (c.regs, c.rows, c.tiles) ∧ MovedOn u t i (formOf c i.ext ins) d d x fun _ f => f
      (Ready s (.tbinit e a b) i c x → (∀ k ∈ x, Reads s c k [a, a + 1, b] (l k) ∧ isInt32 (opTag (l k) 2) = true ∧ 1 ≤ (opnd (l k) 2).toNat ∧ (opnd (l k) 2).toNat ≤ 1048575) →
        steps (.tbinit e a b) fun w => .init w.toNat) ∧
      (Ready s (.tbexp e a b) i c x → (∀ k ∈ x, Reads s c k [a, a + 1, b] (l k) ∧ isInt32 (opTag (l k) 2) = true) → steps (.tbexp e a b) fun w => .exp w.toInt) ∧
      (Ready s (.tbarv e a) i c x → (∀ k ∈ x, Reads s c k [a, a + 1] (l k) ∧ s1.fenceHolds c.id k 0xFFFF = false) → steps (.tbarv e a) fun _ => .arrive)
  ) ∧
  (
    ∀ (e : Bool) (d a b : Reg) (s : State) (i : Issue) (c : Crew) (x : List Nat) (l : Nat → List (Word × Tag)) (va : Nat → Nat × Option Place) (s1 : State) (hits : List (Hit Word)),
      let ins := Instr.tbwait e d a b
      Ready s ins i c x → c.regsOk = true → d.toNat < 120 → c.Room x [(d.toNat, .g)] → (∀ k ∈ x, Reads s c k [a, a + 1, b] (l k) ∧ isInt32 (opTag (l k) 2) = true) →
      (∀ k ∈ x, s.engineAddr c ((opnd (l k) 0).toNat + (opnd (l k) 1).toNat * 2 ^ 32) 16 = .ok (va k) ∧ (va k).1 % 16 = 0) → Finds s c true x va (fun k => opnd (l k) 2) s1 hits →
      (∀ h ∈ hits, h.p.isDev = false ∧ (h.global = true → s.barrierPage h.p h.pte = true)) → (∀ k f, c.fib k = some f → f.gate = none) →
      let bar (st : State) (h : Hit Word) : Nat := bytesNat (st.readPlace h.p 16)
      let isOpen (st : State) (h : Hit Word) : Prop := recF (bar st h) 0 4 ≠ h.v.toNat % 16 ∨ recF (bar st h) 4 1 = 1
      ((∀ h ∈ hits, isOpen s h ∧ isOpen s1 h ∧ s1.placeHeld h.p = false ∧ s1.freezes c.id h.k 0xFFFF s1.nextId = false) →
        ∃ t, exec ins s = .next t ∧
          Issued ((hits.foldl (fun (st : State) h => st.noteAccess c.core c.ctx h.va h.p) s1).acquire c.core 5) t i (formOf c i.ext ins) c x [d.toNat] none
            (hits.map fun h => Turn.op ⟨i, formOf c i.ext ins, x, []⟩ c h.k [h.k]
              (.logged d .ui32 .g [BitVec.ofNat 32 (recF (bar s h) 96 16 * 2 ^ 16 + recF (bar s h) 4 1 * 16 + recF (bar s h) 0 4)]))) ∧
      ((∃ h ∈ hits, ¬isOpen s1 h) →
        ∃ t c', exec ins s = .next t ∧ t = { s1 with cur := none, crews := t.crews } ∧ t.getCrew i.crew = some c' ∧ c' = { c with fibres := c'.fibres } ∧
          ∀ k f, c.fib k = some f → c'.fib k = some (if k ∈ i.ranks ∧ f.st = .issuing then { f with st := .blocked, awaits := [awaitGate], pc := i.group } else f))
  )

/-- A barrier step at its home: the sixteen bytes hold the barrier after the step, and nothing else of memory changes but accumulators settled first (R202, R204, R172). The steps of a barrier: TBINIT sets both counts, an arrival takes one off the arrivals, a landing one sector off the expected sectors; when both are zero the phase turns and the arrivals start again; poison stays with its first cause (R202, R204). -/
def Obligations.BarrierStepsActAtTheirHome : Prop :=
  (
    ∀ (s : State) (p : Place) (kind : BarStep), Memory.wf s → (match p with | .mem _ _ sqz _ => sqz = 0 | .scratch id _ => (s.getCrew id).isSome = true) →
      bytesNat ((s.barAt p kind).readPlace p 16) = barStep (bytesNat (s.readPlace p 16)) kind % 2 ^ 128 ∧ Memory.wf (s.barAt p kind) ∧
      ((∀ q ∈ s.accs, placesMeet q.place q.bytes p 16 = false) →
        ∀ q, placesMeet q 1 p 16 = false → (match q with | .mem _ _ sqz _ => sqz = 0 | .scratch .. => True) → (s.barAt p kind).readPlace q 1 = s.readPlace q 1)
  ) ∧
  (
    ∀ b n : Nat, b < 2 ^ 128 → 1 ≤ n → n < 2 ^ 20 →
      (let r := barStep b (.init n); recF r 0 4 = 0 ∧ recF r 4 1 = 0 ∧ recF r 8 20 = n ∧ recF r 28 20 = n ∧ recF r 64 32 = 0) ∧
      (∀ kind cause, recF b 4 1 = 1 → kind ∈ [BarStep.exp 1, .land, .arrive, .poison cause] → barStep b kind = b) ∧
      (recF b 4 1 = 0 → recF b 8 20 = 0 → (let r := barStep b .arrive; recF r 4 1 = 1 ∧ recF r 96 16 = 6)) ∧
      (recF b 4 1 = 0 → 1 < recF b 8 20 → (let r := barStep b .arrive; recF r 8 20 = recF b 8 20 - 1 ∧ recF r 0 4 = recF b 0 4 ∧ recF r 64 32 = recF b 64 32 ∧ recF r 4 1 = 0)) ∧
      (recF b 4 1 = 0 → recF b 8 20 = 1 → recF b 64 32 = 0 → (let r := barStep b .arrive; recF r 8 20 = recF b 28 20 ∧ recF r 0 4 = (recF b 0 4 + 1) % 16 ∧ recF r 64 32 = 0)) ∧
      (recF b 4 1 = 0 → recF b 8 20 = 0 → recF b 64 32 = 1 → (let r := barStep b .land; recF r 8 20 = recF b 28 20 ∧ recF r 0 4 = (recF b 0 4 + 1) % 16 ∧ recF r 64 32 = 0))
  )

/-- CPOST puts each executing fibre's record address behind the heads of its channel and counts in COPIES until the chain ends; CSTAT reads the channel's state for the crew (R193, R194, R196). FEED binds a queue of each executing fibre to its record, from position 0; FSTOP stops it and drops its entries (R209). It states the completion of: cpost, cstat, feed, fstop. -/
def Obligations.CopyAndFeedInstructions : Prop :=
  (
    ∀ (e : Bool) (d a : Reg) (ch : BitVec 2) (s : State) (i : Issue) (c : Crew) (x : List Nat) (t0 t1 : Tag) (lo hi : Nat → Word), c.regsOk = true →
      (Ready s (.cpost e a ch) i c x → (∀ k ∈ x, Reads s c k [a, a + 1] [(lo k, t0), (hi k, t1)] ∧ (hi k ++ lo k).toNat < 2 ^ 57 ∧ (lo k).toNat % 64 = 0 ∧
          s.seqBusy c.id k (seqBit (i.ext.seqOr 0)) = false ∧ s.hostStuck c.id k (seqBit (i.ext.seqOr 0)) = false ∧ s.fenceHolds c.id k (seqBit (i.ext.seqOr 0)) = false ∧ s.slotFull c k ch = false) →
        ∃ t c', exec (.cpost e a ch) s = .next t ∧ t.getCrew i.crew = some c' ∧ (c'.regs, c'.rows, c'.tiles) = (c.regs, c.rows, c.tiles) ∧
          (∀ k f, c.fib k = some f → ∃ g, c'.fib k = some g ∧ g.preds = f.preds ∧ g.fpstat = f.fpstat ∧ g.pc = (if k ∈ i.ranks then i.pc + 4 else f.pc) ∧
            g.counts.length = f.counts.length + (if k ∈ x then 1 else 0) ∧ (k ∈ x → (g.counts.getLast?.map fun n => n.cls) = some .copies)) ∧
          (t.channel c.core ch).heads.map (fun h => (h.ctx, h.crew, h.rank, h.addr)) =
            (s.channel c.core ch).heads.map (fun h => (h.ctx, h.crew, h.rank, h.addr)) ++ x.map (fun k => (c.ctx, c.id, k, (hi k ++ lo k).toNat)) ∧
          (∀ k ∈ x, ∃ o ∈ t.ops, o.crew = c.id ∧ o.ranks = [k] ∧ o.work = .chain (4 * c.core + ch.toNat)) ∧ ∀ o ∈ s.ops, o ∈ t.ops) ∧
      (Ready s (.cstat e d ch) i c x → d.toNat < 120 → c.Room x [(d.toNat, .g)] →
        let q := s.channel c.core ch
        let st := c.chans.getD ch.toNat ⟨0, false⟩
        let heads := (q.heads.filter fun h => h.crew == c.id && !h.taken).length
        ∃ t c', exec (.cstat e d ch) s = .next t ∧ RegsWritten c c' x [] ∧
          MovedOn (s.later i (formOf c i.ext (.cstat e d ch)) c x [d.toNat]
              [.value d .ui32 .g (x.map fun k => (k, BitVec.ofNat 32 (st.cause * 2 ^ 16 + heads % 4096 * 16 + (if st.err then 2 else 0) +
                if (∃ h ∈ q.heads, h.crew = c.id) ∨ (∃ h, q.chain = some h ∧ h.crew = c.id) then 1 else 0))) [] []])
            t i (formOf c i.ext (.cstat e d ch)) c c' x fun _ f => f)
  ) ∧
  (
    ∀ (e : Bool) (q : BitVec 3) (a : Reg) (s : State) (i : Issue) (c : Crew) (x : List Nat) (t0 t1 : Tag) (lo hi : Nat → Word), c.regsOk = true →
      (Ready s (.feed e q a) i c x → a.toNat ≤ 118 → q.toNat < c.feeds → (∀ k ∈ x, Reads s c k [a, a + 1] [(lo k, t0), (hi k, t1)] ∧ (hi k ++ lo k).toNat < 2 ^ 57 ∧ (lo k).toNat % 32 = 0) →
        ∃ t c' fib, exec (.feed e q a) s = .next t ∧ RegsWritten c c' x [] ∧ MovedOn s t i (formOf c i.ext (.feed e q a)) c c' x fib ∧
          ∀ k f, fib k f = { f with feeds := (fib k f).feeds } ∧
            ∀ n, (fib k f).feeds[n]? = if k ∈ x ∧ n = q.toNat then f.feeds[n]?.map fun _ => ⟨(hi k ++ lo k).toNat, 0, 0, false, []⟩ else f.feeds[n]?) ∧
      (Ready s (.fstop e q) i c x → q.toNat < c.feeds →
        ∃ t c' fib, exec (.fstop e q) s = .next t ∧ RegsWritten c c' x [] ∧ MovedOn s t i (formOf c i.ext (.fstop e q)) c c' x fib ∧
          ∀ k f, fib k f = { f with feeds := (fib k f).feeds } ∧
            ∀ n, (fib k f).feeds[n]? = if k ∈ x ∧ n = q.toNat then f.feeds[n]?.map fun y => { y with stopped := true, entries := [] } else f.feeds[n]?)
  )

/-! ### Crumb counters, tasks and pipes -/

/-- CCARM, CCREAD and CCDIS: the handle of the counter armed (0 with none free) is to land in d; the count and the state bits are to land in a pair, zeros under another arming number; a counter named under its arming number is disarmed (R215, R216). It states the completion of: ccarm, ccread, ccdis. -/
def Obligations.CrumbInstructionsArmReadAndDisarm : Prop :=
  ∀ (e : Bool) (d a : Reg) (s : State) (i : Issue) (c : Crew) (x : List Nat), c.regsOk = true → d.toNat < 120 →
    (∀ (t0 t1 : Tag) (lo hi : Nat → Word) (s1 : State) (hs : List (Nat × Word)), Ready s (.ccarm e d a) i c x →
      (∀ k ∈ x, Reads s c k [a, a + 1] [(lo k, t0), (hi k, t1)] ∧ (hi k ++ lo k).toNat < 2 ^ 57 ∧ (lo k).toNat % 32 = 0 ∧ c.fibTest (fun f => f.stepping) k = false) → c.Room x [(d.toNat, .g)] →
      State.armAll c [] s (x.map fun k => (k, (hi k ++ lo k).toNat)) = .ok (s1, hs, []) →
      ∃ t c', exec (.ccarm e d a) s = .next t ∧ RegsWritten c c' x [] ∧ hs.map (fun p => p.1) = x ∧
        MovedOn (s1.later i (formOf c i.ext (.ccarm e d a)) c x [d.toNat] [.value d .ui32 .g hs [] []]) t i (formOf c i.ext (.ccarm e d a)) c c' x fun _ f => f) ∧
    (∀ (T : Tag) (h : Nat → Word) (q : Nat → Crumb), (∀ k ∈ x, Reads s c k [a] [(h k, T)] ∧ isInt32 T = true ∧ s.crumb (h k) = some (q k) ∧ (q k).owner = some c.ctx) →
      (Ready s (.ccread e d a) i c x → d.toNat < 119 → c.Room x [(d.toNat, .g), (d.toNat + 1, .g)] →
        let same (k : Nat) : Prop := (q k).gen.toNat = (h k).toNat % 65536
        (∀ k ∈ x, same k → (q k).bad = false) →
        ∃ t c', exec (.ccread e d a) s = .next t ∧ RegsWritten c c' x [] ∧
          MovedOn (s.later i (formOf c i.ext (.ccread e d a)) c x [d.toNat, d.toNat + 1]
              [.value d .ui32 .g (x.map fun k => (k, if same k then BitVec.ofNat 32 (q k).count else 0)) [] [],
               .value (d + 1) .ui32 .g (x.map fun k => (k, if same k then BitVec.ofNat 32 ((q k).count / 2 ^ 32 % 256 + (if (q k).armed then 256 else 0) + (if (q k).taint then 512 else 0) + if (q k).fired then 1024 else 0) else 0)) [] []])
            t i (formOf c i.ext (.ccread e d a)) c c' x fun k f => if k ∈ x then f.popAll [a] else f) ∧
      (Ready s (.ccdis e a) i c x →
        ∃ t c', exec (.ccdis e a) s = .next t ∧ RegsWritten c c' x [] ∧
          MovedOn { s with crumbs := s.crumbs.map fun y => if x.any (fun k => y.slice == recF (h k).toNat 26 6 && y.index == recF (h k).toNat 16 10 && y.gen.toNat == recF (h k).toNat 0 16) then { y with armed := false } else y }
            t i (formOf c i.ext (.ccdis e a)) c c' x fun k f => if k ∈ x then f.popAll [a] else f))

/-- The arming of one record (R214, R216, R213): when a counter is free, a new arming of it takes the record's total, action, operand and K, counts from 0 over the pages of its region, and its handle names its slice, its index and its new arming number, never 0; a record with a field that R216 forbids raises Permission at its address. A counted write (R217, R218): each armed counter whose region the write meets adds the bytes in common, and fires when its total is reached; a counter that reloads keeps what is above; each firing carries the counter's action. A region of no bytes is refused too (log entry 22, the model's choice); a counter that has met an uncorrectable error counts as tainted (log entry 62, the model's choice). -/
def Obligations.CountersAreArmedCountAndFire : Prop :=
  (
    ∀ (s s0 s2 : State) (c : Crew) (k va : Nat) (h : Word) (p : Place) (pte : Nat), s.xlate c.core c.ctx va false false (s.privileged c.ctx) = (s0, .ok p pte) →
      s.armOne c k va = .ok s2 h → h ≠ 0 → (∀ pa, s.home pa < 64) →
      let r := bytesNat (s0.homeRead p 32)
      (∃ y, y ∈ s2.crumbs ∧ s2.crumb h = some y ∧ y.total = r / 2 ^ 96 % 2 ^ 40 ∧ y.action = r / 2 ^ 136 % 4 ∧ y.action ≠ 3 ∧ y.k = r / 2 ^ 160 % 2 ^ 32 ∧ y.operand.toNat = r / 2 ^ 192 % 2 ^ 64 ∧ y.reload = r.testBit 138 ∧
        s0.regionPages c.ctx va (r / 2 ^ 64 % 2 ^ 32 / 65536 + 2) (r % 2 ^ 64) (r / 2 ^ 64 % 2 ^ 32) = .ok y.region ∧ y.gen ≠ 0 ∧ y.gen.toNat = h.toNat % 65536 ∧ y.owner = some c.ctx ∧ y.armed = true ∧ y.count = 0 ∧ y.total ≠ 0 ∧ y.taint = false ∧ y.fired = false ∧
        (∀ z ∈ s0.crumbs, z.slice = y.slice → z.index = y.index → z.armed = false) ∧ ∀ r ∈ y.region, s2.rangeHome y.slice r = true) ∧
      s2.crews = s.crews ∧ s2.ops = s.ops ∧ s2.taskQueues = s.taskQueues
  ) ∧
  (
    ∀ (y : Crumb) (n : Nat) (tainted : Bool), y.armed = true → y.count < y.total →
      (y.count + n < y.total → y.counted n tainted = ({ y with count := y.count + n, taint := y.taint || tainted || y.bad }, [])) ∧
      (y.total ≤ y.count + n → y.reload = false →
        y.counted n tainted = ({ y with count := y.total, armed := false, fired := true, taint := false }, [y.taint || tainted || y.bad])) ∧
      (y.total ≤ y.count + n → y.reload = true →
        ∃ l, y.counted n tainted = ({ y with count := (y.count + n) % y.total, fired := true, taint := false }, l) ∧ l.length = (y.count + n) / y.total ∧ l.head? = some (y.taint || tainted || y.bad) ∧ ∀ b ∈ l.tail, b = false)
  ) ∧
  (
    ∀ (s s0 : State) (c : Crew) (k va : Nat) (p : Place) (pte : Nat), s.xlate c.core c.ctx va false false (s.privileged c.ctx) = (s0, .ok p pte) →
      s0.unknownDevice p = false → s0.placeHeld p = false → s0.placeBusy p = false → s0.firstBad p 32 = none → s0.poisonedAt p 32 = false →
      (∀ o ∈ s0.ops, o.crew = c.id → k ∈ o.ranks → ∀ q ∈ o.work.spans, placesMeet q.1 q.2 p 32 = false) → (s0.peerOf p = none ∨ s0.noPlane = false) →
      let r := bytesNat (s0.homeRead p 32)
      let base := r % 2 ^ 64
      let len := r / 2 ^ 64 % 2 ^ 32
      let action := r / 2 ^ 136 % 4
      (r / 2 ^ 139 % 2 ^ 21 ≠ 0 ∨ action = 3 ∨ r / 2 ^ 96 % 2 ^ 40 = 0 ∨ ((r / 2 ^ 160 % 2 ^ 32 = 0) ↔ action = 2) ∨ (action ≠ 0 ∧ r / 2 ^ 224 % 2 ^ 32 ≠ 0) ∨
        2 ^ 57 ≤ base ∨ base % 32 ≠ 0 ∨ len % 32 ≠ 0 ∨ len = 0 ∨ 2 ^ 57 < base + len) →
      ∃ u, s.armOne c k va = .trap u ⟨.permission, BitVec.ofNat 64 va⟩ ∧ u.crumbs = s0.crumbs
  ) ∧
  (
    ∀ (s : State) (pa n : Nat) (tainted : Bool), (s.crumbs.map fun y => (y.slice, y.index)).Nodup →
      let met (y : Crumb) : Nat := (y.region.map fun r => min (pa + n) (r.1 + r.2) - max pa r.1).sum
      let t := s.countWrite pa n tainted
      t.crumbs = (s.crumbs.map fun y => if y.armed = true ∧ met y ≠ 0 then (y.counted (met y) tainted).1 else y) ∧
        (t.firings.map fun f => (f.ctx, f.slice, f.index, f.action, f.operand, f.k, f.taint)) = (s.firings.map fun f => (f.ctx, f.slice, f.index, f.action, f.operand, f.k, f.taint)) ++
          (s.crumbs.filter fun y => y.armed && met y != 0).flatMap fun y => (y.counted (met y) tainted).2.map fun b => (y.owner.getD 0, y.slice, y.index, y.action, y.operand, y.k, b)
  )

/-- TKRES, TKCOM and TKDROP by one fibre: the lowest free slot of an open queue is reserved under a new number and its address, handle and success are to land, 0 and 1 when the queue is full, 0 and 2 when it is closed; a reserved slot joins the dispatch order, or is free again (R223, R224). It states the completion of: tkres, tkcom, tkdrop. -/
def Obligations.TaskInstructionsReserveCommitAndDrop : Prop :=
  ∀ (e : Bool) (d a : Reg) (pd : PReg) (s : State) (i : Issue) (c : Crew) (k : Nat), c.regsOk = true →
    (∀ (t0 t1 : Tag) (lo hi : Word) (s1 : State) (h : Hit Unit) (q : TaskQueue), Ready s (.tkres e d a pd) i c [k] → d.toNat ≤ 118 → c.Room [k] [(d.toNat, .g), (d.toNat + 1, .g)] →
      Reads s c k [a, a + 1] [(lo, t0), (hi, t1)] → (hi ++ lo).toNat < 2 ^ 57 → lo.toNat % 64 = 0 → Finds s c false [k] (fun _ => ((hi ++ lo).toNat, none)) (fun _ => ()) s1 [h] → h.p.isDev = false → s1.placeHeld h.p = false →
      let mine (q : TaskQueue) : Bool := q.ctx == c.ctx && placesMeet h.p 1 (kernelAt q.desc) 1
      s.taskQueues.any mine = true → s1.taskQueues.find? mine = some q →
      let gives (w0 w1 : Word) (ok : Bool) (slots : Option (List (SlotState × Nat))) : Prop :=
        ∃ t c' w, exec (.tkres e d a pd) s = .next t ∧ t.getCrew i.crew = some c' ∧ (∀ r j, r < 120 → j < c.size → c'.elem r j = c.elem r j) ∧
          (∀ o ∈ w, o.crew = c.id ∧ o.ranks = [k]) ∧ w.map (fun o => o.work) = [.value d .ui32 .g [(k, w0)] [(k, pd, ok)] [], .value (d + 1) .ui32 .g [(k, w1)] [] []] ∧ (∃ l, t.ops = l ++ w ∧ l.map (fun o => (o.id, o.work)) = s.ops.map fun o => (o.id, o.work)) ∧
          match slots with
          | some sl => t.taskQueues = s1.taskQueues.map fun y => if y.num = q.num then { q with slots := sl } else y
          | none => t.taskQueues = s1.taskQueues.map fun y => if y.num = q.num then q else y
      let s2 := s1.overwrite i [k] [d.toNat, d.toNat + 1]
      (∀ n g, s2.tqField q 88 1 = 1 → q.slots[n]? = some (.free, g) → (∀ j, j < n → (q.slots[j]?.map fun y => y.1) ≠ some .free) →
        gives (BitVec.ofNat 32 (s2.tqField q 0 32 + 64 * n)) (BitVec.ofNat 32 (q.num * 2 ^ 22 + (g + 1) % 64 * 2 ^ 16 + n)) true (some (q.slots.set n (.reserved, (g + 1) % 64)))) ∧
      (s2.tqField q 88 1 = 1 → (∀ y ∈ q.slots, y.1 ≠ .free) → gives 0 1 false none) ∧
      (s2.tqField q 88 1 = 0 → gives 0 2 false none)) ∧
    (∀ (T : Tag) (h : Word) (q : TaskQueue) (n : Nat), Reads s c k [a] [(h, T)] → isInt32 T = true → s.handleSlot c.ctx h = some (q, n) → s.taskQueue c.ctx (recF h.toNat 22 10) = some q →
      (Ready s (.tkcom e a) i c [k] → s.seqBusy c.id k (seqBit (i.ext.seqOr 0)) = false → s.fenceHolds c.id k (seqBit (i.ext.seqOr 0)) = false →
        ∃ t c', exec (.tkcom e a) s = .next t ∧ t.getCrew i.crew = some c' ∧ (c'.regs, c'.rows) = (c.regs, c.rows) ∧
          t.taskQueues = s.taskQueues.map fun y => if y.num = q.num then { q with slots := updAt q.slots n fun z => (.committed, z.2), order := q.order ++ [n] } else y) ∧
      (Ready s (.tkdrop e a) i c [k] →
        ∃ t c', exec (.tkdrop e a) s = .next t ∧ t.getCrew i.crew = some c' ∧ (c'.regs, c'.rows) = (c.regs, c.rows) ∧
          t.taskQueues = s.taskQueues.map fun y => if y.num = q.num then { q with slots := updAt q.slots n fun z => (.free, z.2) } else y))

/-- PSEND, PRECV and PPROBE: an outstanding append of the register's word and tag; the entry the gate has been given is to land in d with its tag, an acquire; the pipe's occupancy is to land in d (R227). It states the completion of: psend, precv, pprobe. -/
def Obligations.PipeInstructionsSendReceiveAndProbe : Prop :=
  ∀ (e : Bool) (d a b : Reg) (s : State) (i : Issue) (c : Crew) (x : List Nat), c.regsOk = true →
    (∀ (T tb : Tag) (h v : Nat → Word) (q : Nat → Pipe), Ready s (.psend e a b) i c x → (∀ k ∈ x, Reads s c k [a, b] [(h k, T), (v k, tb)] ∧ s.pipeOf c (h k, T) = some (q k) ∧
        s.seqBusy c.id k (seqBit (i.ext.seqOr 0)) = false ∧ s.fenceHolds c.id k (seqBit (i.ext.seqOr 0)) = false ∧ s.appending c.id k = false) →
      ∃ t c', exec (.psend e a b) s = .next t ∧ t.getCrew i.crew = some c' ∧ (c'.regs, c'.rows, c'.tiles) = (c.regs, c.rows, c.tiles) ∧
        (∀ k f, c.fib k = some f → ∃ g, c'.fib k = some g ∧ g.preds = f.preds ∧ g.fpstat = f.fpstat ∧ g.pc = (if k ∈ i.ranks then i.pc + 4 else f.pc) ∧
          g.counts.length = f.counts.length + (if k ∈ x then 1 else 0)) ∧
        ∃ w, t.ops = s.ops ++ w ∧ w.map (fun o => (o.crew, o.ranks, o.work)) = x.map fun k => (c.id, [k], .append (q k).num (q k).gen (v k) tb)) ∧
    (∀ (w : Nat → Word) (T : Nat → Tag), Ready s (.precv e d a) i c x → x ≠ [] → d.toNat < 120 → c.Room x [(d.toNat, .g)] → (∀ k ∈ x, s.regPoisoned c.id k [a] = false ∧ s.appending c.id k = false ∧ s.freezes c.id k 0xFFFF s.nextId = false ∧
        ∀ f, c.fib k = some f → ∃ y, f.recvs.find? (fun y => y.pc == i.group) = some y ∧ y.entry = some (w k, T k)) →
      ∃ t, exec (.precv e d a) s = .next t ∧
        Issued (s.acquire c.core 2) t i (formOf c i.ext (.precv e d a)) c x [d.toNat] none
          (x.map fun k => Turn.op ⟨i, formOf c i.ext (.precv e d a), x, []⟩ c k [k] (.value d (T k) .g [(k, w k)] [] []))) ∧
    (∀ (T : Tag) (h : Nat → Word) (q : Nat → Pipe), Ready s (.pprobe e d a) i c x → d.toNat < 120 → c.Room x [(d.toNat, .g)] →
      (∀ k ∈ x, Reads s c k [a] [(h k, T)] ∧ s.pipeOf c (h k, T) = some (q k) ∧ s.getPipe (q k).num = some (q k)) →
      ∃ t c', exec (.pprobe e d a) s = .next t ∧ RegsWritten c c' x [] ∧
        MovedOn (s.later i (formOf c i.ext (.pprobe e d a)) c x [d.toNat]
            [.value d .ui32 .g (x.map fun k => (k, BitVec.ofNat 32 (min ((q k).entries.length + (q k).overflow.length) 65535 + (if (q k).segments ≠ 0 then 65536 else 0) + if (q k).regs ≠ [] then 131072 else 0))) [] []])
          t i (formOf c i.ext (.pprobe e d a)) c c' x fun k f => if k ∈ x then f.popAll [a] else f)

/-! ### Rendering, work records and jobs -/

/-- TRACE and TEXC by one fibre with a well-formed request: a slot of the pool, overlapping no other slot of the context's launches, takes the record of the live registers, the request goes to the ray unit of the quad with the resume address, and the fibre retires (R269, R272, R273). HITREP in a fibre of an any-hit crew: its report stands when it is the first; in any other crew each executing fibre takes IllegalOp (R281). The resume address wraps modulo 2^57 and where in the pool a slot lies is a free value: the model's choices (log entries 14, 1 and 13). It states the completion of: trace, texc, hitrepAccept, hitrepIgnore, hitrepTerminate. -/
def Obligations.TraceTexcAndHitrep : Prop :=
  (
    ∀ (texc : Bool) (a b : Reg) (s : State) (i : Issue) (c : Crew) (k : Nat) (f : Fibre) (lo hi : Word) (s1 s2 : State) (bs : List Byte) (at_ : Nat) (pages : Span),
      let ins := if texc then Instr.texc a b else .trace a b
      let n := descLive lo
      let blk := bytesNat bs
      let used := s1.poolSlots c.ctx
      Ready s ins i c [k] → c.fib k = some f → f.live = true → s.seqBusy c.id k 0xFFFF = false → s.traceCheck c texc a b k = .ok (lo, hi) →
      s.livePending ⟨i, formOf c i.ext ins, [k], []⟩ c k n = false → s.regPoisoned c.id k (blockOf a 8 ++ pairOf b ++ blockOf 0 n) = false →
      s.rayHolds = [] → s.unitRead c.core c.ctx c.args.toNat 64 = (s1, .ok bs) → globalForm (rbPool blk) 128 = true → rbPoolSize blk % 128 = 0 →
      allocSlot used (rbPool blk) (rbPoolSize blk) (slotSize n) (s1.free + k) = some at_ → s1.slotPages c at_ (slotSize n) = (s2, .ok pages) →
      ∃ t c' g r, exec ins s = .next t ∧ t.cur = none ∧ t.getCrew i.crew = some c' ∧ c'.fib k = some g ∧ g.live = false ∧ (c'.regs, c'.rows, c'.tiles) = (c.regs, c.rows, c.tiles) ∧
        t.rays = s.rays ++ [r] ∧ (r.ctx, r.launch, r.quad, r.texc, r.slot, r.live) = (c.ctx, c.launch, quadOf c.core, texc, at_, n) ∧ r.resume = i.pc + BitVec.ofInt 57 (4 * signedOf 22 lo.toNat) ∧
        r.req = (blockOf a 8).map (fun q => c.elem q.toNat k) ∧ r.regs = (List.range n).map (fun q => (c.elem q k, (c.desc q).tag)) ∧ r.begun = false ∧ r.buffer = [] ∧ r.hit = none ∧
        (rbPool blk ≤ at_ ∧ at_ + slotSize n ≤ rbPool blk + rbPoolSize blk ∧ ∀ q ∈ used, at_ + slotSize n ≤ q.1 ∨ q.1 + q.2 ≤ at_) ∧
        t.launches = s.launches.map (fun l => if l.id = c.launch then { l with slots := l.slots ++ [(at_, slotSize n)] } else l) ∧
        t.mem = ((State.release { s2 with free := s2.free + 1024 } c.id k 3 0xFFFF).putSpan (some (c.core, c.id)) c.core c.ctx pages (slotBytes texc n (i.pc + BitVec.ofInt 57 (4 * signedOf 22 lo.toNat)).toNat hi r.regs)).mem
  ) ∧
  (
    ∀ p ∈ ([(Instr.hitrepAccept, HitReport.accept), (.hitrepIgnore, .ignore), (.hitrepTerminate, .terminate)] : List ((Bool → Instr) × HitReport)),
    ∀ (e : Bool) (s : State) (i : Issue) (c : Crew) (x : List Nat), Ready s (p.1 e) i c x → c.regsOk = true →
      (∀ ray, c.kind = .anyHit ray →
        ∃ t c', exec (p.1 e) s = .next t ∧ RegsWritten c c' x [] ∧
          MovedOn s t i (formOf c i.ext (p.1 e)) c c' x fun k f => if k ∈ x then { f with report := some (f.report.getD p.2) } else f) ∧
      ((∀ ray, c.kind ≠ .anyHit ray) → ∃ t, exec (p.1 e) s = State.finishTraps s ⟨i, formOf c i.ext (p.1 e), x, []⟩ (x.map fun k => (k, ⟨.illegalOp, 0⟩)) [] ∧ exec (p.1 e) s = .next t)
  )

/-- RWRES, RWPOST, NETJOB and NSTAT by one fibre: with credits left on an open channel a handle of the channel and its reservation number is to land in d, a credit is taken, and the predicate is to be set; with none, or on a closed channel, 0 and a clear predicate; a reserved handle's record, its first eight bytes the handle, is sent to the channel's receiver; the job joins those posted with its record as it stands; the status bits before are to land in d and those named are cleared (R297, R300, R291). It states the completion of: rwres, rwpost, netjob, nstat. -/
def Obligations.WorkRecordsJobsAndNetworkStatus : Prop :=
  ∀ (e : Bool) (d a b : Reg) (pd : PReg) (s : State) (i : Issue) (c : Crew) (k : Nat), c.regsOk = true →
    (∀ (T : Tag) (v : Word) (w : WorkChan), Ready s (.rwres e d a pd) i c [k] → d.toNat < 120 → c.Room [k] [(d.toNat, .g)] → Reads s c k [a] [(v, T)] → isInt32 T = true →
      s.workChans.find? (fun y => y.ctx == c.ctx && y.chan == v.toNat) = some w → s.workChan v.toNat = some w →
      let q := s.wcDesc w
      let h : Word := BitVec.ofNat 32 (recF q 64 12 * 2 ^ 20 + recF q 192 20)
      let gives (u : State) (val : Word) (ok : Bool) : Prop :=
        ∃ t c', exec (.rwres e d a pd) s = .next t ∧ RegsWritten c c' [k] [] ∧
          MovedOn (u.later i (formOf c i.ext (.rwres e d a pd)) c [k] [d.toNat, 128 + pd.toNat] [.value d .ui32 .g [(k, val)] [(k, pd, ok)] []]) t i (formOf c i.ext (.rwres e d a pd)) c c' [k]
            fun j f => if j = k then f.popAll [a] else f
      (recF q 113 1 = 0 → gives s 0 false) ∧
      (recF q 113 1 ≠ 0 → recF q 224 32 = 0 → gives (s.setWc w (recSet q 256 32 (recF q 256 32 + 1))) 0 false) ∧
      (recF q 113 1 ≠ 0 → recF q 224 32 ≠ 0 →
        gives { s.setWc w (recSet (recSet q 192 32 (recF q 192 32 + 1)) 224 32 (recF q 224 32 - 1)) with
                workChans := s.workChans.map fun y => if y.chan = v.toNat then { y with reserved := y.reserved ++ [(h, c.id)] } else y } h true)) ∧
    (∀ (l : List (Word × Tag)) (va : Nat × Option Place) (s1 : State) (h : Hit Word) (w : WorkChan), Ready s (.rwpost e a b) i c [k] → Reads s c k [a, a + 1, b] l → isInt32 (opTag l 2) = true →
      s.operandAddr c .global (opnd l 0) (opnd l 1) 0 128 = .ok va → Finds s c false [k] (fun _ => va) (fun _ => opnd l 2) s1 [h] → s.localFrame h.p = true → s1.firstBad h.p 128 = none →
      (∀ o ∈ s1.ops, o.crew = c.id → k ∈ o.ranks → ∀ q ∈ o.work.spans, placesMeet q.1 q.2 h.p 128 = false) → s1.seqBusy c.id k (seqBit (i.ext.seqOr 0)) = false → s1.fenceHolds c.id k (seqBit (i.ext.seqOr 0)) = false → s1.placeHeld h.p = false →
      s1.workChans.find? (fun y => y.ctx == c.ctx && y.chan == (opnd l 2).toNat / 2 ^ 20) = some w → (∃ r ∈ w.reserved, r.1 = opnd l 2) →
      ∃ t c' g o, exec (.rwpost e a b) s = .next t ∧ t.getCrew i.crew = some c' ∧ (c'.regs, c'.rows, c'.tiles) = (c.regs, c.rows, c.tiles) ∧ c'.fib k = some g ∧ g.pc = i.pc + 4 ∧
        (g.counts.getLast?.map fun n => (n.cls, n.op)) = some (.stores, o.id) ∧
        o ∈ t.ops ∧ o.crew = c.id ∧ o.ranks = [k] ∧ o.peer = some (recF (s1.wcDesc w) 96 10) ∧
        o.work = .workRecord w.chan (opnd l 2) (natBytes 8 (opnd l 2).toNat ++ (s1.homeRead h.p 128).drop 8) ∧ (∀ q ∈ s.ops, q ∈ t.ops) ∧
        t.workChans = s1.workChans.map fun y => if y.chan = w.chan then { y with reserved := y.reserved.filter fun r => r.1 != opnd l 2 } else y) ∧
    (∀ (l : List (Word × Tag)) (va : Nat × Option Place) (s1 : State) (h : Hit Unit), Ready s (.netjob e a) i c [k] → Reads s c k [a, a + 1] l →
      s.operandAddr c .global (opnd l 0) (opnd l 1) 0 128 = .ok va → Finds s c false [k] (fun _ => va) (fun _ => ()) s1 [h] → s.localFrame h.p = true → s1.firstBad h.p 128 = none →
      (∀ o ∈ s1.ops, o.crew = c.id → k ∈ o.ranks → ∀ q ∈ o.work.spans, placesMeet q.1 q.2 h.p 128 = false) → s1.seqBusy c.id k (seqBit (i.ext.seqOr 0)) = false → s1.fenceHolds c.id k (seqBit (i.ext.seqOr 0)) = false → s1.placeHeld h.p = false →
      ∃ t c' g o, exec (.netjob e a) s = .next t ∧ t.getCrew i.crew = some c' ∧ (c'.regs, c'.rows, c'.tiles) = (c.regs, c.rows, c.tiles) ∧ c'.fib k = some g ∧ g.pc = i.pc + 4 ∧
        (g.counts.getLast?.map fun n => (n.cls, n.op)) = some (.copies, o.id) ∧
        o ∈ t.ops ∧ o.crew = c.id ∧ o.ranks = [k] ∧ o.work = .job o.id ∧ (∀ q ∈ s.ops, q ∈ t.ops) ∧
        t.jobs = s1.jobs ++ [⟨o.id, o.id, c.ctx, c.id, k, h.va, bytesNat (((s1.noteAccess c.core c.ctx h.va h.p).release c.id k 4 (seqBit (i.ext.seqOr 0))).homeRead h.p 128), false, [], [], []⟩]) ∧
    (∀ (T : Tag) (v : Word), Ready s (.nstat e d a) i c [k] → d.toNat < 120 → c.Room [k] [(d.toNat, .g)] → Reads s c k [a] [(v, T)] → isInt32 T = true → v.toNat < 8 →
      ∃ t c', exec (.nstat e d a) s = .next t ∧ RegsWritten { c with nstatus := c.nstatus &&& ~~~(v.setWidth 3) } c' [k] [] ∧
        MovedOn (s.later i (formOf c i.ext (.nstat e d a)) c [k] [d.toNat] [.value d .ui32 .g [(k, c.nstatus.setWidth 32)] [] []]) t i (formOf c i.ext (.nstat e d a)) c c' [k]
          fun j f => if j = k then f.popAll [a] else f)

/-! ### Steps the machine takes by itself: queues and launches -/

/-- The queue scheduler: a notify write within the ring takes a mapped queue's tail and its runnable bit, one beyond it counts an error; the first runnable queue takes a free slot with its shadow tail; an idle queue, or the first to evict when a runnable one has a higher priority, loses its slot; a suspend clears ENABLED; a new priority is written; the record of count HEAD is read as a waiting launch and HEAD moves on (R231, R232, R233, R234, R238, R240). A record that cannot be read stays unread (log entry 25, the model's choice). It states the completion of: notifyWrite, queueMap, queueIdleUnmap, queueEviction, queueSuspend, launchRecordRead, priorityChange. -/
def Obligations.QueuesAreNotifiedMappedAndRead : Prop :=
  ∀ (s : State) (qid : Nat) (q : UserQueue), s.userQueue qid = some q →
    let d := s.uqDesc q
    let h := uqHead d
    let set (st : State) (q1 : UserQueue) (d1 : Nat) : State :=
      State.putDesc { st with userQueues := st.userQueues.map fun y => if y.qid = qid then q1 else y } q.desc d1
    let runs (tail : Word) : Nat := if tail = h then 0 else 1
    (∀ (tail : Word) (r : List Input), s.inputs = .notify qid tail 4 :: r → s.hostLost = false → s.powered = true → s.bootStopped = false → recF d 64 1 = 1 →
      (2 ^ (recF d 72 4 + 6) < (tail - h).toNat →
        exec .notifyWrite s = .next (State.putDesc { s with inputs := r } q.desc (recSet d 224 32 (recF d 224 32 + 1)))) ∧
      ((tail - h).toNat ≤ 2 ^ (recF d 72 4 + 6) → recF d 65 1 = 1 → (q.tail - h).toNat ≤ (tail - h).toNat →
        ∃ t, exec .notifyWrite s = .next t ∧ t.inputs = r ∧ t.userQueue qid = some { q with tail := tail, notified := s.ticks, heard := s.cycles } ∧ t.mem = (s.putDesc q.desc (recSet d 66 1 (runs tail))).mem)) ∧
    (s.nextRunnable = some q → s.mappedQueues.length < Config.queueSlots →
      exec (.queueMap qid) s = .next (set s { q with tail := BitVec.ofNat 32 (recF d 288 32) } (recSet d 65 1 1))) ∧
    (recF d 65 1 = 1 → q.tail = h → q.notified + 100000 ≤ s.ticks →
      exec (.queueIdleUnmap qid) s = .next (set s q (recSet (recSet (recSet d 288 32 q.tail.toNat) 66 1 0) 65 1 0))) ∧
    (∀ r, s.nextEvicted = some q → s.nextRunnable = some r → Config.queueSlots ≤ s.mappedQueues.length → recF d 76 4 < recF (s.uqDesc r) 76 4 →
      exec (.queueEviction qid) s = .next (set s { q with runnableAt := if q.tail = h then q.runnableAt else s.cycles } (recSet (recSet (recSet d 288 32 q.tail.toNat) 66 1 (runs q.tail)) 65 1 0))) ∧
    exec (.queueSuspend qid) s = .next (set s q (recSet d 64 1 0)) ∧
    (∀ prio, exec (.priorityChange false qid prio) s = .next (set s q (recSet d 76 4 prio.toNat))) ∧
    (∀ (tq : TaskQueue) (prio : BitVec 4), s.taskQueues.find? (fun y => y.num == qid) = some tq →
      exec (.priorityChange true qid prio) s = .next (s.putDesc tq.desc (recSet (cellNat s.mem tq.desc 64) 84 4 prio.toNat))) ∧
    (∀ (p : Place) (pte : Nat), recF d 65 1 = 1 → recF d 64 1 = 1 → q.tail ≠ h → (∀ l ∈ s.launches, l.task = false → l.queue = qid → l.st ≠ .waiting) →
      s.kernelPlace q.ctx (recF d 0 64 + 64 * (h.toNat % 2 ^ (recF d 72 4 + 6))) = some (p, pte) → s.placeHeld p = false →
      exec (.launchRecordRead qid) s = .next (set { s with nextId := s.nextId + 1, launches := s.launches ++ [⟨s.nextId, q.ctx, bytesNat (s.homeRead p 64), false, qid, h, .waiting, 0, 0, false, 0, 0, []⟩] }
        q (recSet (recSet d 256 32 (h + 1).toNat) 66 1 (if q.tail = h + 1 then 0 else 1)))) ∧
    (∀ desc r : Nat, Memory.wf s → r < 2 ^ 512 →
      let t := s.putDesc desc r
      cellNat t.mem desc 64 = r ∧ (∀ a, (a < desc ∨ desc + 64 ≤ a) → cellGet t.mem a = cellGet s.mem a) ∧ ((∀ y ∈ s.crumbs, y.armed = false) → t = { s with mem := t.mem, migrations := t.migrations }))

/-- Launches: one whose dependences hold is distributed, or rejected when no core and die could hold it; one whose counter was armed anew is cancelled; a committed task's record becomes a launch and its slot is free; a crew or team passed over for 100 µs bars others; a relaunch crew is formed of the oldest records of one key, at most a crew of them (R225, R236, R238, R239, R241, R274). That a key's records queue per ray unit, and that a record that cannot be read stays unread, are the model's choices (log entries 15 and 25). It states the completion of: launchDependencesSatisfied, launchCancelled, passedOverTimeout, taskDispatch, relaunchCrewFormation. -/
def Obligations.LaunchesAreDistributedRejectedAndCancelled : Prop :=
  ∀ (s : State) (n : Nat),
    (∀ l, s.getLaunch n = some l → l.st = .waiting → s.depState l = .holds →
      (s.launchOk l = true → s.coresHold l (s.ctxCores l.ctx) = true →
        exec (.launchDependencesSatisfied n) s = .next { s with nextId := s.nextId + 1, launches := s.launches.map fun y => if y.id = n then { y with st := .distributing, entered := s.nextId } else y }) ∧
      (s.launchOk l = false ∨ s.coresHold l (s.ctxCores l.ctx) = false →
        ∃ t, exec (.launchDependencesSatisfied n) s = .next t ∧ t.getLaunch n = some { l with st := .rejected } ∧ t.crews = s.crews ∧ t.ops = s.ops)) ∧
    (∀ l, s.getLaunch n = some l → l.st = .waiting → s.depState l = .fails →
      ∃ t, exec (.launchCancelled n) s = .next t ∧ t.getLaunch n = some { l with st := .cancelled } ∧ t.crews = s.crews ∧ t.ops = s.ops) ∧
    exec (.passedOverTimeout n) s = .next { s with passed := s.passed.map fun y => if y.item.launch = n ∧ y.since + 100000 ≤ s.ticks then { y with barred := true } else y } ∧
    (∀ (q : TaskQueue) (i : Nat) (rest : List Nat) (p : Place) (pte : Nat), s.taskQueues.find? (fun y => y.num == n) = some q → q.order = i :: rest →
      s.kernelPlace q.ctx (s.tqField q 0 64 + 64 * i) = some (p, pte) → s.placeHeld p = false →
      ∃ t, exec (.taskDispatch n) s = .next t ∧ t.launches = s.launches ++ [⟨s.nextId, q.ctx, bytesNat (s.homeRead p 64), true, n, 0, .waiting, 0, 0, false, 0, 0, []⟩] ∧
        t.taskQueues = s.taskQueues.map (fun y => if y.num = n then { q with slots := updAt q.slots i fun z => (.free, z.2), order := rest } else y) ∧ t.crews = s.crews ∧ t.ops = s.ops) ∧
    (∀ (l : Launch) (q : Requeue), s.getLaunch n = some l → s.requeues.find? (fun y => y.launch == n && s.keyDue l y) = some q →
      let recs := (s.requeues.filter q.sameKey).take l.crewSize
      exec (.relaunchCrewFormation n) s = .next { s with
        requeues := s.requeues.filter fun y => !(recs.map fun x => x.ray).contains y.ray
        formed := s.formed ++ [⟨n, q.quad, none, recs.map fun x => x.slot, recs.map fun x => (x.pc, x.regs ++ x.hit)⟩] })

/-- The distributor and the partitions: the next team of an anchored launch, alone to be placed, is created on the cores found, each crew with its index and all its fibres Ready at the entry (R13, R241, R244, R245); a team that may be saved is saved (R246, R261); a partition takes its new cores and its removed cores leave (R249), each once no crew is resident there; a crew with no live fibre and nothing outstanding completes and frees what it holds (R15). The lowest free even lane is taken, a partition begins with default quotas, and a new crew's scratchpad lists nothing and so reads 0: the model's choices (log entries 26, 27 and 2). It states the completion of: distributorRound, crewCompletion, preemption, partitionResize, coreLeavesPartition. -/
def Obligations.CrewsAreCreatedSavedAndCompleted : Prop :=
  ∀ s : State,
    (∀ (part n : Nat) (p : Partition) (l : Launch) (a : List (Nat × Nat)) (die ptr : Nat), s.candidates part = [.fresh n] → s.getPart part = some p → s.getLaunch n = some l → l.st = .distributing → l.anchored = true →
      s.findPlace p l.need (1 < l.teamSize) l.teamSize l.die (s.barredDies p l (.fresh n)) = some (a, die, ptr) → (∀ c ∈ s.crews, c.id < s.nextId) →
      ∃ (t : State) (new : List Crew), exec (.distributorRound part) s = .next t ∧ t.crews = s.crews ++ new ∧ a.length = l.teamSize ∧ new.map (fun c => (c.core, c.lane)) = a ∧
        new.map (fun c => (c.index, c.teamPos)) = (List.range a.length).map (fun k => (BitVec.ofNat 32 (l.placed + k), k)) ∧
        (∀ c ∈ new, c.launch = n ∧ c.ctx = l.ctx ∧ c.life = .resident ∧ c.size = l.crewSize ∧ c.fibres.length = l.crewSize ∧ c.grows = l.grows ∧ c.scratchSize = l.scratch ∧ c.scratch = [] ∧
          c.tiles.length = l.tiles ∧ (∀ f ∈ c.fibres, f.live = true ∧ f.pc = BitVec.ofNat 57 l.entry ∧ f.st = .ready ∧ f.preds = 0) ∧ ∀ r k, c.elem r k = 0) ∧
        t.getLaunch n = some { l with placed := l.placed + l.teamSize, st := if l.crews ≤ l.placed + l.teamSize then .resident else .distributing } ∧ t.passed = s.passed.filter (fun y => y.item != .fresh n) ∧
        t.mem = s.mem ∧ t.ops = s.ops) ∧
    (∀ (team : Nat) (areas : List SaveArea) (r : List Input), s.inputs = .preempt team areas :: r →
      let cs := s.crews.filter fun c => c.team == team && c.life == .resident
      cs ≠ [] → (∀ c ∈ cs, s.saveReady c = true ∧ (areaOf areas c).isSome = true) → (s.crews.map fun c => c.id).Nodup →
      ∃ t, exec .preemption s = .next t ∧ t.inputs = r ∧
        (∀ c ∈ cs, ∃ c' g, t.getCrew c.id = some c' ∧ c'.life = .saved ∧ areaOf areas c = some g ∧ c'.area = g.area ∧ c'.image = g.image) ∧ ∀ y ∈ t.teams, y.id = team → y.saved = true) ∧
    (∀ (part : Nat) (cores : List Nat) (r : List Input), s.inputs = .resize part cores :: r →
      let cs := (List.range Config.cores).filter fun k => cores.contains k
      (∀ p ∈ s.partitions, p.id ≠ part → ∀ k ∈ p.cores, k ∉ cs) →
      (s.getPart part = none → part < 16 → exec .partitionResize s = .next { s with inputs := r, partitions := s.partitions ++ [newPartition part cs] }) ∧
      (∀ p, s.getPart part = some p → s.resizeBreaks p cs = false →
        ∃ t, exec .partitionResize s = .next t ∧ t = { s with inputs := r, partitions := t.partitions } ∧
          t.getPart part = some { p with cores := p.cores ++ cs.filter (fun k => !p.cores.contains k), leaving := p.cores.filter fun k => !cs.contains k })) ∧
    (∀ (core : Nat) (p : Partition), s.partitions.find? (fun y => y.leaving.contains core) = some p → (s.partitions.map fun y => y.id).Nodup → (∀ c ∈ s.crews, c.core = core → c.life ≠ .resident) →
      ∃ t q, exec (.coreLeavesPartition core) s = .next t ∧ t = { s with partitions := t.partitions } ∧ t.getPart p.id = some q ∧ q.cores = p.cores.filter (fun k => k != core) ∧
        q.leaving = p.leaving.filter (fun k => k != core) ∧ ∀ id, id ≠ p.id → t.getPart id = s.getPart id) ∧
    (∀ (crew : Nat) (c : Crew), s.getCrew crew = some c → c.life = .resident → c.liveSet = [] → (∀ o ∈ s.ops, o.crew = crew → o.work.isFence = true) → (∀ x ∈ s.transfers, x.head.crew ≠ crew) →
      ∃ t, exec (.crewCompletion crew) s = .next t ∧ (∀ o ∈ t.ops, o.crew ≠ crew) ∧ (∀ x ∈ t.redBuf, x.crew ≠ crew) ∧ ∀ c', t.getCrew crew = some c' → c'.life = .completed ∧ c'.scratch = [] ∧ c'.tiles = [])

/-! ### Steps the machine takes by itself: arbitration, run boundaries, landings -/

/-- Arbitration of lanes and units (R17, R19, R22, R247, R248): an issue that holds the lane is tried again; else the best eligible set of the pre-scan issues the words fetched for it as one run at its pc, its fibres Issuing with no round lost, unless a gate of the round has just converged the crew (R18), which then issues as a whole; the best waiting request of a unit is served. What is tried when is the schedule's, and that a waiting issue keeps its lane and is tried again as it stands is how the model orders runs: its own choices (log entries 4 and 9). It states the completion of: laneArbitration, unitArbitration. -/
def Obligations.ArbitrationFormsOneIssue : Prop :=
  ∀ (s : State) (core lane : Nat) (c : Crew), s.cur = none →
    (∀ i, s.crewAt core lane = some c → s.getCrew c.id = some c → s.waiting.find? (fun y => y.onLane c lane && s.triable c y) = some i → i.ranks.Nodup →
      ∃ t c2, exec (.laneArbitration core lane) s = .next t ∧ t.cur = some i ∧ t.waiting = s.waiting.filter (fun y => !(y.run == i.run && y.commit == i.commit)) ∧ t.getCrew c.id = some c2 ∧
        c2 = { c with fibres := c2.fibres } ∧ (∀ k g, c.fib k = some g → c2.fib k = some (if k ∈ i.ranks then { g with st := .issuing } else g)) ∧ t = { s with cur := t.cur, waiting := t.waiting, crews := t.crews }) ∧
    (∀ (s1 : State) (c1 : Crew) (sets : List (List Nat × List Fetched)) (win : List Nat × List Fetched) (f : Fibre), s.crewAt core lane = some c → (∀ y ∈ s.waiting, (y.onLane c lane && s.triable c y) = false) →
      let free (k : Nat) : Bool := c.fibTest c.startable k
      let ranks := if c.converged then (if c.liveSet.all free then c.liveSet else []) else c.liveSet.filter fun k => c.lane + k / 16 == lane && free k
      (s.askCommits c lane).tryAll c.id c.converged (c.candidates ranks) = (s1, sets) → s1.getCrew c.id = some c1 → bestOf (fun a b => keyLt (c1.key a.1) (c1.key b.1)) sets = some win → win.1.Nodup →
      c1.fib (win.1.headD 0) = some f →
      (c.converged = false → c1.converged = true → exec (.laneArbitration core lane) s = .next s1) ∧ ((c1.converged = true → c.converged = true) →
      ∃ t c2, exec (.laneArbitration core lane) s = .next t ∧ t.cur = some ⟨c.id, win.1, c.converged, f.pc, f.pc, Ext.zero, s1.nextId, 0, win.2, 0, false⟩ ∧ t.getCrew c.id = some c2 ∧
        (c2.regs, c2.rows, c2.tiles, c2.scratch) = (c1.regs, c1.rows, c1.tiles, c1.scratch) ∧ (∀ k ∈ win.1, ∀ g, c1.fib k = some g → c2.fib k = some { g with st := .issuing, lost := 0 }) ∧
        (∀ k, (∀ l ∈ sets, k ∉ l.1) → k ∉ win.1 → c2.fib k = c1.fib k) ∧ t = { State.holdSlots { s1.noteFetches c1.core c1.ctx f.pc win.2.length with crews := t.crews } c.id c1.ctx c.converged win.1 f.pc win.2 with nextId := s1.nextId + 1, cur := t.cur })) ∧
    (∀ (unit : CoreUnit) (i : Issue), bestOf s.unitLt (s.waiting.filter (s.requests core unit)) = some i →
      ∃ t, exec (.unitArbitration core unit) s = .next t ∧ t.cur = some i ∧ t.waiting = s.waiting.filter (fun y => y.run != i.run) ∧
        (core, unit, i.crew) ∈ t.unitOwner ∧ t = { s with cur := t.cur, waiting := t.waiting, unitOwner := t.unitOwner })

/-- At the run boundary of a fibre: held fibres restart at their region PC in stepping mode (R254); a deferred trap enters the handler with the fibre's own pc as TRAPPC (R255, R256); the lowest pending channel's interrupt enters its handler with the pc saved (R206); an attempt whose logged reads differ aborts with CONFLICT, one still the same goes on (R183); the token goes to the first request of the queue whose fibre is resident (R189), and a fibre that waits at its TXBEGIN then is in serial mode at depth 1 behind it, with d = 0 and pd = 1 (R178, R191); a reply to a system call lands in eight registers and the fibre is Ready (R391). A late fault of an earlier region is taken as a deferred trap, and the bytes alone say whether a logged read differs: the model's readings (log entries 21 and 70). It states the completion of: userInterruptEntry, steppingModeRestart, deferredPoisonTrap, interimValidation, serialTokenGrant, syscallReply. -/
def Obligations.RunBoundariesRestartTrapAndInterrupt : Prop :=
  ∀ (s : State) (crew : Nat) (c : Crew), s.getCrew crew = some c → c.life = .resident →
    (∃ t c', exec (.steppingModeRestart crew) s = .next t ∧ t.getCrew crew = some c' ∧ (c'.regs, c'.rows, c'.tiles, c'.scratch) = (c.regs, c.rows, c.tiles, c.scratch) ∧
      ∀ k f, c.fib k = some f → ∃ g, c'.fib k = some g ∧
        (f.live = true → f.restart = true → f.st = .held → g.pc = f.regPc ∧ g.st = .ready ∧ g.stepping = true ∧ g.restart = false ∧ g.preds = f.preds) ∧
        (¬(f.live = true ∧ f.restart = true ∧ f.st = .held) → g = f)) ∧
    (∀ (k : Nat) (f : Fibre) (tr : Trap) (cx : Context), c.fib k = some f → f.deferred = some tr → f.live = true → f.st = .ready ∨ f.st = .blocked → f.restart = false → f.trapMode = false → f.tx = none →
      s.getCtx c.ctx = some cx → cx.trapvec ≠ 0 →
      ∃ t c' g, exec (.deferredPoisonTrap crew k) s = .next t ∧ t.getCrew crew = some c' ∧ c'.fib k = some g ∧ c'.converged = false ∧ g.trapCause.toNat = tr.cause.code ∧ g.trapPc = f.pc ∧ g.trapAddr = tr.addr ∧
        g.trapMode = true ∧ g.pc = cx.trapvec ∧ g.regPc = cx.trapvec ∧ g.st = .ready ∧ g.deferred = none ∧ ∀ j, j ≠ k → c'.fib j = c.fib j) ∧
    (∀ (k n : Nat) (f : Fibre) (err : Bool), c.fib k = some f → n < 4 → f.uiPend[n]? = some (some err) → (∀ m, m < n → f.uiPend[m]? = some none) → f.live = true → f.st = .ready ∨ f.st = .blocked →
      c.uiMasked = false → c.uiVec ≠ 0 → f.uiAct = false → f.trapMode = false → f.tx = none → f.restart = false → f.deferred = none →
      ∃ t c' g, exec (.userInterruptEntry crew k) s = .next t ∧ t.getCrew crew = some c' ∧ c'.fib k = some g ∧ c'.converged = false ∧ g.uiRpc = f.pc ∧ g.uiAct = true ∧
        g.uiCause.toNat = n + (if err then 4 else 0) ∧ g.pc = c.uiVec ∧ g.regPc = c.uiVec ∧ g.st = .ready ∧ g.uiPend[n]? = some none ∧ ∀ j, j ≠ k → c'.fib j = c.fib j) ∧
    (∀ (k : Nat) (f : Fibre) (a : Attempt), c.fib k = some f → f.tx = some a → a.checked + 16384 ≤ s.ticks → a.failed = false → f.st ≠ .issuing → f.st ≠ .committing →
      (s.logStale c.ctx a = true →
        ∃ t c' g, exec (.interimValidation crew k) s = .next t ∧ t.getCrew crew = some c' ∧ c'.fib k = some g ∧ g.tx = none ∧ g.txCause.toNat = TxCause.conflict.code ∧ g.abortCount = min (f.abortCount + 1) 4 ∧ g.pc = a.target ∧ t.mem = s.mem) ∧
      (s.logStale c.ctx a = false →
        ∃ t c', exec (.interimValidation crew k) s = .next t ∧ t.getCrew crew = some c' ∧ c'.fib k = some { f with tx := some { a with checked := s.ticks } } ∧ t = { s with crews := t.crews })) ∧
    (∀ (k n : Nat) (rest : List (Nat × Nat × Nat)) (f : Fibre), s.token = ⟨none, (crew, k, n) :: rest⟩ → c.fib k = some f → f.live = true →
      (f.begins = none → exec .serialTokenGrant s = .next { s with token := ⟨some (crew, k), rest.filter fun x => x != (crew, k, n)⟩ }) ∧
      (∀ (d : Reg) (pd : PReg), f.begins = some (d, pd) → c.regsOk = true → d.toNat < 120 → (c.desc d.toNat).shape = .g →
        ∃ t c' g a, exec .serialTokenGrant s = .next t ∧ t.token = ⟨some (crew, k), rest.filter fun x => x != (crew, k, n)⟩ ∧ t.getCrew crew = some c' ∧ c'.fib k = some g ∧ g.st = .ready ∧ g.pc = f.pc + 4 ∧ g.regPc = f.pc + 4 ∧
          g.begins = none ∧ g.tx = some a ∧ a.depth = 1 ∧ a.target = f.pc + 4 ∧ a.serial = true ∧ (a.reads, a.writes) = ([], []) ∧ g.pred pd = true ∧ c'.elem d.toNat k = 0 ∧ (c'.desc d.toNat).tag = .ui32 ∧ ∀ j, j ≠ k → c'.fib j = c.fib j)) ∧
    (∀ (k : Nat) (f : Fibre) (y : Syscall) (reply : List Word), s.syscalls.find? (fun z => z.crew == crew && (match z.partOf k with | some p => p.reply.isNone | none => false)) = some y → c.fib k = some f → c.regsOk = true → y.d.toNat ≤ 112 →
      (∀ i, i < 8 → (c.desc (y.d.toNat + i)).shape = .g) →
      ∃ t c', exec (.syscallReply crew k reply) s = .next t ∧ t.getCrew crew = some c' ∧ c'.fib k = some { f with st := .ready, stamp := s.cycles } ∧
        (∀ i, i < 8 → c'.elem (y.d.toNat + i) k = reply.getD i 0 ∧ (c'.desc (y.d.toNat + i)).tag = .ui32) ∧ (∀ r, r < 120 → ¬(y.d.toNat ≤ r ∧ r < y.d.toNat + 8) → c'.elem r k = c.elem r k) ∧
        ∀ z ∈ t.syscalls, z.crew = crew → ∀ p ∈ z.parts, p.rank ≠ k)

/-- Outstanding operations land and perform once everything they wait for has (R42, R136, R137, R166, R167, R318, R326, R388, R389, R124, R126, R293, R172, R141, R232, R303): a result, a load's words and an atomic's old value reach the registers; a store's bytes and an atomic's new word reach memory, every other byte of it as before, a tile's words are read out and then written 128 bytes at a time, and a store at the start of a queue's notify slot is a notify; what a core's reduction buffer and a dirty host sector hold reaches its home. No fence is outstanding. A load that acquires first drops its core's copies; where no release has been made since that core last did, it may keep them, and orders as a relaxed load (R159, log entry 36). That a store into the window at an offset that is no multiple of 64 changes nothing at an address of the pod too is the model's choice (log entry 58). It states the completion of: resultLanding, storePerform, reductionBufferPass, hostAtomicCompletion, l2Writeback, tileFillCompletion, tileDrainCompletion. -/
def Obligations.OperationsLandAndPerform : Prop :=
  ∀ (s : State) (o : Op), s.getOp o.id = some o → (∀ q ∈ s.ops, q.work.isFence = false) →
    let gone (t : State) : Prop := ∀ q ∈ t.ops, q.id ≠ o.id
    (∀ (c : Crew), s.getCrew o.crew = some c → c.regsOk = true → o.dropped = [] → (∀ k ∈ o.ranks, k < c.size) → s.runOn o = false →
      (∀ (d : Reg) (tag : Tag) (vals : List (Nat × Word)) (preds : List (Nat × PReg × Bool)) (flags : List (Nat × Word)), o.work = .value d tag .g vals preds flags → d.toNat < 120 → (c.desc d.toNat).shape = .g →
        (vals.map fun v => v.1).Nodup → o.ranks.Nodup →
        ∃ t c', exec (.resultLanding o.id) s = .next t ∧ gone t ∧ t.getCrew o.crew = some c' ∧ (∀ v ∈ vals, v.1 ∈ o.ranks → c'.elem d.toNat v.1 = v.2 ∧ (c'.desc d.toNat).tag = tag) ∧
          (∀ r k, r < 120 → k < c.size → r ≠ d.toNat ∨ k ∉ o.ranks → c'.elem r k = c.elem r k) ∧
          (∀ k f, k ∈ o.ranks → c.fib k = some f → ∃ g, c'.fib k = some g ∧ g.pc = f.pc ∧ g.st = f.st ∧ g.preds = ((preds.filter fun p => p.1 == k).foldl (fun h p => Fibre.setPred h p.2.1 p.2.2) f).preds ∧
            g.fpstat = f.fpstat ||| BitVec.ofNat 32 (((flags.find? fun p => p.1 == k).map fun p => p.2.toNat).getD 0))) ∧
      (∀ (p : Place) (d : Reg) (n : Nat) (tag : Tag) (code : Nat), o.work = .load p d n tag .g code → d.toNat + n ≤ 120 → (∀ j, j < n → (c.desc (d.toNat + j)).shape = .g) → o.ranks.Nodup → s.opReady o = true → s.poisonedAt p (4 * n) = false →
        ∃ s1, (s1 = (if o.acq then s.acquire o.core o.scope else s) ∨ (o.acq = true ∧ o.core ∈ s.synced ∧ (s1 = s.bumpFree ∨ s1 = s.bumpFree.acquire o.core o.scope))) ∧
        ∀ (s2 : State) (bs : List Byte), s1.copyBad o.core p code = false → (s1.readHost o p (4 * n)).loadBytes o.core o.ctx o.va p (4 * n) code = (s2, bs) → bs.length = 4 * n →
        ∃ t c', exec (.resultLanding o.id) s = .next t ∧ gone t ∧ t.getCrew o.crew = some c' ∧ t.mem = s2.mem ∧
          (∀ j, j < n → ∀ k ∈ o.ranks, c'.elem (d.toNat + j) k = (bytesWords bs).getD j 0 ∧ (c'.desc (d.toNat + j)).tag = tag) ∧
          (∀ r k, r < 120 → k < c.size → ¬(d.toNat ≤ r ∧ r < d.toNat + n ∧ k ∈ o.ranks) → c'.elem r k = c.elem r k)) ∧
      (∀ (p : Place) (d : Reg) (tag : Tag) (u : State) (old : Word), (∃ op x, o.work = .atom p op d tag x) ∨ (∃ e w, o.work = .cas p d e w ∧ tag = c.tagOf d) → d.toNat < 120 → (c.desc d.toNat).shape = .g → o.ranks.Nodup →
        s.atomGroup o = [o] → s.groupReady [o] = true →
        (((((if o.rel then s.release o.crew o.rank o.scope o.seqs else s).passOwn o.crew o.rank p 4).dropCopies o.core p 4).noteAccess o.core o.ctx o.va p).settledWord p) = (u, old) →
        let new : Option Word := match o.work with | .atom _ op _ tag x => some (atomNew op tag old x) | .cas _ _ e w => if old = e then some w else none | _ => none
        ∃ t c', exec (.resultLanding o.id) s = .next t ∧ gone t ∧ t.getCrew o.crew = some c' ∧ (∀ k ∈ o.ranks, c'.elem d.toNat k = old ∧ (c'.desc d.toNat).tag = tag) ∧
          t.mem = (match new with | some w => u.performWrite (some o.core) p (natBytes 4 w.toNat) false | none => u).mem)) ∧
    (∀ (ps : List Place) (t : Nat) (fmt : TileFmt) (keep : Bool) (c : Crew) (x : Tile), o.work = .drain ps t fmt keep → s.getCrew o.crew = some c → c.tiles[t]? = some x →
      ∃ v c', exec (.tileDrainCompletion o.id) s = .next v ∧ v.getOp o.id = some { o with work := .drained ps (x.words.flatMap (drainBytes fmt)) } ∧ v.getCrew o.crew = some c' ∧
        c'.tiles[t]? = some (if keep then { x with st := .ready } else Tile.zero .empty) ∧ (c'.regs, c'.rows) = (c.regs, c.rows) ∧ v.mem = s.mem) ∧
    (s.opReady o = true →
      (∀ (p : Place) (bs : List Byte) (poisoned : Bool), o.work = .store p bs poisoned → Memory.wf s → p.isDev = false → p.isHost = false → (match p with | .mem _ _ sqz _ => sqz = 0 | .scratch id _ => (s.getCrew id).isSome = true) →
        ∃ t, exec (.storePerform o.id) s = .next t ∧ gone t ∧ t.readPlace p bs.length = bs ∧
          (o.rel = false → (∀ a ∈ s.accs, placesMeet a.place a.bytes p bs.length = false) → (∀ y ∈ s.redBuf, ¬(y.crew = o.crew ∧ y.rank = o.rank ∧ placesMeet y.place 4 p bs.length = true)) →
            ∀ q, placesMeet q 1 p bs.length = false → (match q with | .mem _ _ sqz _ => sqz = 0 | .scratch .. => True) → t.readPlace q 1 = s.readPlace q 1)) ∧
      (∀ (pa fr sqz : Nat) (chk : Bool) (bs : List Byte) (poisoned : Bool), o.work = .store (.mem pa fr sqz chk) bs poisoned → o.rel = false → inDev (paLocal pa) = true →
        (∀ a ∈ s.accs, placesMeet a.place a.bytes (.mem pa fr sqz chk) bs.length = false) → (∀ y ∈ s.redBuf, ¬(y.crew = o.crew ∧ y.rank = o.rank ∧ placesMeet y.place 4 (.mem pa fr sqz chk) bs.length = true)) →
        ∃ t, exec (.storePerform o.id) s = .next t ∧ gone t ∧ t.mem = (if paPeer pa = s.pkg ∧ devOffset pa % 64 = 0 then s.notifyStep (devOffset pa / 64) (BitVec.ofNat 32 (bytesNat bs)) bs.length else s).mem) ∧
      (∀ (p : Place) (kind : RedKind) (tag : Tag) (x : Word), o.work = .red p kind tag x →
        let u := ((if o.rel then s.release o.crew o.rank o.scope o.seqs else s).noteAccess o.core o.ctx o.va p).reachSlice ⟨o.core, o.ctx, o.crew, o.rank, o.seqs, p, kind, tag, x, false⟩
        ∃ t, exec (.storePerform o.id) s = .next t ∧ gone t ∧ t.accs = u.accs ∧ t.mem = u.mem) ∧
      (∀ (ps : List Place) (t : Nat) (fmt : TileFmt) (c : Crew) (x : Tile), o.work = .fill ps t fmt → s.getCrew o.crew = some c → c.tiles[t]? = some x →
        (∀ p ∈ ps, s.poisonedAt p 32 = false ∧ s.poisonedAt (p.plus 32) 32 = false) →
        ∃ v c', exec (.tileFillCompletion o.id) s = .next v ∧ gone v ∧ v.getCrew o.crew = some c' ∧
          c'.tiles[t]? = some ⟨.ready, ps.flatMap fun p => ((chunks (tileWidth fmt) 32 (s.homeRead p 32)) ++ chunks (tileWidth fmt) 32 (s.homeRead (p.plus 32) 32)).map fun e => fillWord fmt (bytesNat e)⟩ ∧
          (c'.regs, c'.rows) = (c.regs, c.rows)) ∧
      (∀ (ps : List Place) (bs : List Byte), o.work = .drained ps bs →
        ∃ v, exec (.tileDrainCompletion o.id) s = .next v ∧ gone v ∧
          v.mem = ((((chunks 128 ps.length bs).zip (everyOther ps)).zip (List.range ps.length)).foldl (fun st p => st.storeHome { o with va := o.va + 128 * p.2 } p.1.2 p.1.1 false) s).mem) ∧
      (∀ (pa f z : Nat) (k : Bool) (d : Reg) (aop : Option AtomOp) (parts : List (Nat × Word × Word)) (tag : Tag) (c : Crew), o.work = .hostAtom (.mem pa f 0 k) aop d parts tag → z = pa / 32 → s.getCrew o.crew = some c → c.regsOk = true →
        o.dropped = [] → s.runOn o = false → d.toNat < 120 → (c.desc d.toNat).shape = .g → (parts.map fun x => x.1) = o.ranks → o.ranks.Nodup → (∀ k ∈ o.ranks, k < c.size) → o.rel = false → (∀ y ∈ s.hostL2, y.sector = z → ∀ b ∈ y.dirty, b = false) →
        let old : Word := BitVec.ofNat 32 (bytesNat (cellRead s.mem pa 4))
        ∃ v c', exec (.hostAtomicCompletion o.id true) s = .next v ∧ gone v ∧ v.getCrew o.crew = some c' ∧ (∀ y ∈ v.hostL2, y.sector ≠ z) ∧ (∀ r ∈ (hostParts aop old parts).1, c'.elem d.toNat r.1 = r.2) ∧
          v.mem = (match (hostParts aop old parts).2 with | some w => cellWrite s.mem pa (natBytes 4 w.toNat) | none => s.mem))) ∧
    (∀ core, ∃ t, exec (.reductionBufferPass core) s = .next t ∧ t.redBuf = s.redBuf.filter (fun x => x.core != core) ∧ t.ops = s.ops ∧
      t.accs = ((s.redBuf.filter fun x => x.core == core).foldl State.reachSlice { s with redBuf := s.redBuf.filter fun x => x.core != core }).accs) ∧
    (∀ (x : CacheSector), Memory.wf s → s.hostLost = false → s.powered = true → s.hostL2.filter (fun y => y.sector == x.sector) = [x] → x.bytes.length = 32 →
      ∃ t, exec (.l2Writeback x.sector) s = .next t ∧ (∀ y ∈ t.hostL2, y.sector ≠ x.sector) ∧ ∀ a, cellGet t.mem a = if a / 32 = x.sector ∧ x.dirty.getD (a % 32) false = true then x.bytes.getD (a % 32) 0 else cellGet s.mem a)

/-! ### Steps the machine takes by itself: counters, pipes, copies and feeds -/

/-- Firings and pipes: a firing arrives at or poisons its barrier, commits or frees its task slot, or counts at its target (R219); an append reaches the tail of its pipe, or the first fibre registered there (R227); a pipe full for 4,000 ticks gains a segment of its partition's pool (R228); a fibre that waits in a closed cycle of pipes takes PipeCycle at its PRECV (R229), one registered at a destroyed pipe Permission (R230). That an append to a destroyed pipe is dropped is the model's choice (log entry 23). It states the completion of: crumbFiring, pipeAppend, pipeOverflowSegment, pipeCycleInspection, pipeDestroy. -/
def Obligations.FiringsAndPipesAct : Prop :=
  ∀ (s : State) (n : Nat),
    (∀ f, s.firings.find? (fun g => g.id == n) = some f → (∀ g ∈ s.firings, g.id < n → ¬(g.slice = f.slice ∧ g.index = f.index)) →
      let u : State := { s with firings := s.firings.filter fun g => g.id != n }
      let h : Word := f.operand.setWidth 32
      (∀ p pte, f.action = 0 → s.fireWaits f = none → s.kernelPlace f.ctx f.operand.toNat = some (p, pte) → exec (.crumbFiring n) s = .next ((u.noteAccess (64 * (f.slice / 16)) f.ctx f.operand.toNat p).barAt p (if f.taint then .poison 8 else .arrive))) ∧
      (∀ q i, f.action = 1 → s.handleSlot f.ctx h = some (q, i) →
        ∃ t, exec (.crumbFiring n) s = .next t ∧ t.taskQueues = s.taskQueues.map (fun y => if y.num = q.num then
          (if f.taint then { q with slots := updAt q.slots i fun z => (.free, z.2) } else { q with slots := updAt q.slots i fun z => (.committed, z.2), order := q.order ++ [i] }) else y)) ∧
      (∀ y, f.action = 2 → s.crumb h = some y → y.gen.toNat = h.toNat % 65536 → exec (.crumbFiring n) s = .next (u.countAt y f.k f.taint))) ∧
    (∀ (o : Op) (num : Nat) (gen : BitVec 16) (v : Word) (tag : Tag) (p : Pipe), s.getOp n = some o → o.work = .append num gen v tag → s.getPipe num = some p →
      (p.ctx ≠ o.ctx ∨ p.gen ≠ gen → ∃ t, exec (.pipeAppend n) s = .next t ∧ t.pipes = s.pipes ∧ ∀ x ∈ t.ops, x.id ≠ n) ∧ (p.ctx = o.ctx → p.gen = gen →
      (∀ x ∈ s.ops, x.id < n → x.work.pipe = some num → x.crew = o.crew → x.run ≠ o.run ∧ x.sharesFibre o = false) → p.waiting = [] → p.overflow = [] → p.entries.length < 64 →
      (p.regs = [] → ∃ t p', exec (.pipeAppend n) s = .next t ∧ (∀ x ∈ t.ops, x.id ≠ n) ∧ t.getPipe num = some p' ∧ p'.entries = p.entries ++ [(v, tag)] ∧ p'.overflow = [] ∧ p'.waiting = []) ∧
      (∀ (crew k : Nat) (pc : PcAddr) (t0 : Nat) (c : Crew) (f : Fibre), p.regs = [(crew, k, pc, t0)] → p.entries = [] → s.getCrew crew = some c → c.fib k = some f →
        ∃ t p' c' g, exec (.pipeAppend n) s = .next t ∧ (∀ x ∈ t.ops, x.id ≠ n) ∧ t.getPipe num = some p' ∧ p'.entries = [] ∧ p'.regs = [] ∧ t.getCrew crew = some c' ∧ c'.fib k = some g ∧
          g.recvs = f.recvs.map fun y => if y.pc = pc ∧ y.pipe = num then { y with entry := some (v, tag) } else y))) ∧
    (∀ (p : Pipe) (t0 : Nat), s.getPipe n = some p → p.fullSince = some t0 → t0 + 4000 ≤ s.ticks → s.pool p.ctx ≠ 0 →
      ∃ t p', exec (.pipeOverflowSegment n) s = .next t ∧ t.getPipe n = some p' ∧ p'.segments = p.segments + 1 ∧ (p'.entries, p'.overflow, p'.regs) = (p.entries, p.overflow, p.regs) ∧
        t.pool p.ctx = s.pool p.ctx - 1 ∧ t.crews = s.crews ∧ t.mem = s.mem) ∧
    (∀ (cid k num t0 : Nat) (pc : PcAddr) (p : Pipe) (c : Crew) (f : Fibre) (cx : Context), s.getPipe num = some p → s.getCrew cid = some c → c.fib k = some f → f.trapMode = false → f.tx = none →
      s.getCtx c.ctx = some cx → cx.trapvec ≠ 0 →
      let enters (t : State) (cause : Nat) : Prop :=
        ∃ c' g, t.getCrew cid = some c' ∧ c'.fib k = some g ∧ g.trapCause.toNat = cause ∧ g.trapPc = pc ∧ g.trapAddr = BitVec.ofNat 64 p.handle.toNat ∧ g.trapMode = true ∧ g.pc = cx.trapvec ∧ g.st = .ready ∧
          g.recvs = f.recvs.filter (fun x => x.pc != pc)
      (
        let crews := (s.crews.filter fun y => y.ctx == n && y.life != .completed).map fun y => y.id
        let set := s.cycleSet crews.length crews
        s.setRegs set = [(cid, k, num, pc, t0)] → s.moreCrews n = false →
        (∀ q ∈ s.pipes, q.num = num → (∀ a ∈ q.appends, a.1 ∉ set → a.2 < t0) ∧ ∀ o ∈ s.ops, o.work.pipe = some num → o.crew ∈ set) →
        ∃ t, exec (.pipeCycleInspection n) s = .next t ∧ enters t 0x14) ∧
      (num = n → p.regs = [(cid, k, pc, t0)] → c.life = .resident → f.live = true → f.pc = pc → f.restart = false → ∃ t, exec (.pipeDestroy n) s = .next t ∧ t.getPipe n = none ∧ enters t 0x11))

/-- Copy channels and feeds: an idle channel takes its first head; a well-formed record with OWN set is begun and the chain moves on; a sector of a record is read, written and, once what the record wrote of the host window is released at its scope, counted at its barrier; a record all of whose sectors have landed ends without error, one that met a fault with its cause; the next element of a feed joins its queue (R194, R195, R197, R198, R200, R201, R204, R210, R211). It states the completion of: copyHeadTaken, transferRecordFetch, sectorLanding, recordCompletion, recordPoison, feedElementFetch. -/
def Obligations.ChannelsWalkTheirChains : Prop :=
  ∀ s : State,
    (∀ (core : Nat) (ch : BitVec 2) (h : Head),
      let x := s.channel core ch
      (∀ r, x.chain = none → x.heads = h :: r →
        ∃ t, exec (.copyHeadTaken core ch) s = .next t ∧ t.channel core ch = { x with heads := r, chain := some h, next := some h.addr, ordered := false } ∧ t = { s with chans := t.chans }) ∧
      (∀ (c : Crew) (at_ : Nat) (s1 : State) (bs : List Byte), x.chain = some h → x.next = some at_ → s.getCrew h.crew = some c → s.engRead core c at_ 64 = (s1, .ok bs false) →
        let r := bytesNat bs
        recF r 448 1 = 1 → s1.barOk c (recF r 192 64) = true → s1.barWaits core c (recF r 192 64) = none → s1.recordOk c r = true → recF r 458 1 = 0 → s1.squeezeMiss core c r = none →
        ∃ t, exec (.transferRecordFetch core ch) s = .next t ∧ t.transfers = s1.transfers ++ [⟨s1.nextId, core, ch, h, at_, r, s1.recordSectors c r, [], none⟩] ∧ t.nextId = s1.nextId + 1 ∧
          t.channel core ch = { x with next := if recF r 0 64 = 0 then none else some (recF r 0 64) } ∧ t.crews = s1.crews ∧ t.mem = s1.mem)) ∧
    (∀ (n : Nat) (tr : Transfer) (c : Crew), s.transfers.find? (fun y => y.id == n) = some tr → s.getCrew tr.head.crew = some c →
      (∀ (m row i : Nat) (s1 s2 : State) (bs : List Byte) (poisoned : Bool) (p : Place), tr.left[m]? = some (none, row, i) → tr.fault = none →
        let r := tr.record
        let d := rowAddr (recF r 128 64) (if recF r 352 16 = 1 then 0 else recS r 416 32) row
        let lo := max d (d / 32 * 32 + 32 * i)
        let len := min (d + s.rowBytes c r) (d / 32 * 32 + 32 * i + 32) - lo
        s.barWaits tr.core c (recF r 192 64) = none → s.barFault tr.core c (recF r 192 64) = none → s.sectorBytes tr.core c r row (lo - d) len = (s1, .ok bs poisoned) → (s1.noteAt tr.core c lo).engPlace tr.core c lo len true = (s2, .ok p) →
        s2.unknownDevice p = false → s2.peerOf p = none →
        let written := s2.recordWrite tr.core tr p bs poisoned
        exec (.sectorLanding n m) s = .next (((if recF r 192 64 = 0 then written else written.recordRelease tr.id r).recordBar c (recF r 192 64) .land).setTransfer
          { tr with left := tr.left.eraseIdx m, read := tr.read.filter fun y => y.1 != (row, i), fault := if poisoned then some 5 else none })) ∧
      (∀ y, c.chans[tr.ch.toNat]? = some y →
        (tr.left = [] → tr.fault = none → s.endWaits c tr.at_ (some tr) = none → ∃ t c', exec (.recordCompletion n) s = .next t ∧ t.transfers = s.transfers.filter (fun z => z.id != n) ∧ t.getCrew tr.head.crew = some c' ∧
          c'.chans[tr.ch.toNat]? = some { y with err := false }) ∧
        (∀ cause, tr.fault = some cause → s.barWaits tr.core c (recF tr.record 192 64) = none → s.endWaits c tr.at_ (some tr) = none → ∃ t c', exec (.recordPoison n) s = .next t ∧ t.transfers = s.transfers.filter (fun z => z.id != n) ∧ t.getCrew tr.head.crew = some c' ∧
          c'.chans[tr.ch.toNat]? = some ⟨cause, true⟩))) ∧
    (∀ (crew k : Nat) (q : BitVec 3) (c : Crew) (f : Fibre) (fd : Feed) (s1 : State) (e : FeedEntry), s.getCrew crew = some c → c.fib k = some f → f.feeds[q.toNat]? = some fd → c.life = .resident → f.live = true →
      fd.record ≠ 0 → fd.stopped = false → fd.entries.length < 4 → s.isIndexQueue c.ctx f q.toNat = false → s.feedElem c f q.toNat fd.record (fd.pos + fd.entries.length) = (s1, .entry e) →
      ∃ t c' g, exec (.feedElementFetch crew k q) s = .next t ∧ t.getCrew crew = some c' ∧ (c'.regs, c'.rows, c'.tiles, c'.scratch) = (c.regs, c.rows, c.tiles, c.scratch) ∧ c'.fib k = some g ∧ g = { f with feeds := g.feeds, woke := g.woke } ∧
        g.feeds[q.toNat]? = some { fd with entries := fd.entries ++ [e] })

/-! ### Steps the machine takes by itself: translation, migration, packages -/

/-- Translation, misses and teardown: a walk fills the TLBs; a miss is answered once its address is mapped, its fibres Ready again, or refused; a page of the host goes through ATS and PRI; an invalidation waits for the host accesses of its range and then drops the host's translations; a teardown ends everything of its context (R259, R260, R264, R265). That a refusal is kept for the context and the 64 KiB page is the model's choice (log entry 46). It states the completion of: pageWalk, missResolution, atsCompletion, priResponse, teardown, atsInvalidationRequest. -/
def Obligations.MissesAreResolvedAndContextsTornDown : Prop :=
  ∀ s : State,
    (∀ (core ctx : Nat) (va : PcAddr) (c : Context) (at_ pte bits : Nat), s.getCtx ctx = some c → core < Config.cores → c.down = false → s.tlbFind core c.asid va.toNat = none → s.walk ctx va.toNat = .leaf at_ pte bits → s.leafBad pte bits = false →
      ∃ t, exec (.pageWalk core ctx va) s = .next t ∧ t.mem = (if recSet pte 13 1 1 = pte then s else s.kernelStore at_ (natBytes 8 (recSet pte 13 1 1))).mem ∧ t.crews = s.crews ∧ t.ops = s.ops ∧
        ⟨false, core, c.asid, va.toNat / 2 ^ bits, bits, recSet pte 13 1 1⟩ ∈ t.tlb ∧ ⟨true, quadOf core, c.asid, va.toNat / 2 ^ bits, bits, recSet pte 13 1 1⟩ ∈ t.tlb) ∧
    (∀ (n : Nat) (m : Miss), s.misses.find? (fun x => x.id == n) = some m →
      let answered (t : State) : Prop := (∀ x ∈ t.misses, x.id ≠ n) ∧ ∀ c k f, s.getCrew m.crew = some c → k ∈ m.ranks → c.fib k = some f → f.st = .held → f.restart = false →
        ∃ c', t.getCrew m.crew = some c' ∧ c'.fib k = some { f with st := .ready, stamp := s.cycles } ∧ (c'.regs, c'.rows, c'.tiles, c'.scratch) = (c.regs, c.rows, c.tiles, c.scratch)
      (∀ (writes : List (Nat × DWord)) (a : Nat), m.st = .kernel → s.switchingAt m.ctx m.va = false → s.walk m.ctx m.va = .missing a →
        ((∀ c, s.getCtx m.ctx = some c → c.backs m.va = false) → ∃ t, exec (.missResolution n writes) s = .next t ∧ answered t ∧ ⟨m.ctx, m.va / 65536⟩ ∈ t.refused) ∧
        (∀ c, s.getCtx m.ctx = some c → c.backs m.va = true → (∀ b, (s.kernelWrites writes).walk m.ctx m.va ≠ .missing b) →
          ∃ t, exec (.missResolution n writes) s = .next t ∧ answered t ∧ t.mem = (s.kernelWrites writes).mem ∧ t.refused = s.refused)) ∧
      (m.st = .atsSent → s.hostLost = false →
        (∃ t, exec (.atsCompletion n true) s = .next t ∧ answered t ∧ (m.ctx, m.va / 65536) ∈ t.hostMapped) ∧
        exec (.atsCompletion n false) s = .next { s with misses := s.misses.map fun x => if x.id = n then { x with st := .priSent } else x }) ∧
      (m.st = .priSent → s.hostLost = false →
        exec (.priResponse n true) s = .next { s with misses := s.misses.map fun x => if x.id = n then { x with st := .atsSent } else x } ∧
        ∃ t, exec (.priResponse n false) s = .next t ∧ answered t ∧ ⟨m.ctx, m.va / 65536⟩ ∈ t.refused)) ∧
    (∀ (pasid : BitVec 20) (va : PcAddr) (size : Nat) (o : Op) (c : Context), o ∈ s.ops → o.host = true → c ∈ s.contexts → c.id = o.ctx → c.pasid = pasid.toNat →
      o.va < va.toNat + size → va.toNat / 65536 * 65536 < o.va + max o.n 1 → exec (.atsInvalidationRequest pasid va size) s = .next s) ∧
    (∀ (pasid : BitVec 20) (va : PcAddr) (size : Nat), (∀ o ∈ s.ops, o.host = true → ∀ c ∈ s.contexts, c.id = o.ctx → c.pasid ≠ pasid.toNat) →
      ∃ t, exec (.atsInvalidationRequest pasid va size) s = .next t ∧ t = { s with hostMapped := t.hostMapped, tlb := t.tlb } ∧ (∀ p ∈ t.hostMapped, p ∈ s.hostMapped) ∧ (∀ e ∈ t.tlb, e ∈ s.tlb) ∧
        ∀ c ∈ s.contexts, c.pasid = pasid.toNat → ∀ p ∈ s.hostMapped, p.1 = c.id → (p ∈ t.hostMapped ↔ ¬(p.2 * 65536 < va.toNat + size ∧ va.toNat < p.2 * 65536 + 65536))) ∧
    (∀ (ctx : Nat) (c : Context), s.getCtx ctx = some c → c.down = false →
      ∃ t c', exec (.teardown ctx) s = .next t ∧ t.getCtx ctx = some c' ∧ c'.down = true ∧ c'.tdCause = 0xFFFFFFFF ∧ c'.bits.getLsbD 0 = true ∧ (∀ y ∈ t.crews, y.ctx ≠ ctx) ∧ (∀ y ∈ t.ops, y.ctx ≠ ctx) ∧ (∀ y ∈ t.pipes, y.ctx ≠ ctx) ∧
        (∀ y ∈ t.rays, y.ctx ≠ ctx) ∧ (∀ y ∈ t.misses, y.ctx = ctx → y.ranks = []) ∧ (∀ y ∈ t.jobs, y.ctx ≠ ctx) ∧ (∀ y ∈ t.tlb, y.asid ≠ c.asid) ∧ ∀ y ∈ t.launches, y.ctx = ctx → y.st ≠ .waiting ∧ y.st ≠ .distributing ∧ y.st ≠ .resident)

/-- Migration of a page (R146, R267): it starts at a frame of the die that crossed the threshold; passes copy until few granules are dirty, then the entry is invalid; when no TLB holds it the new frame has the page's bytes, the entry names it, and the accesses go there; the old frame is freed when every access to it has performed. Details the manual leaves open are those of log entry 29. It states the completion of: migrationStart, migrationCopyPassEnd, migrationInvalidationComplete, oldFrameFreed. -/
def Obligations.MigrationMovesAPage : Prop :=
  ∀ s : State,
    (∀ (ctx die frame at_ pte bits : Nat) (va : PcAddr),
      let f := pteFrame pte
      let new := s.pkg * 2 ^ 42 + frame
      let size := 2 ^ bits
      s.walk ctx va.toNat = .leaf at_ pte bits → s.leafBad pte bits = false → s.mayMove pte size = true → die < 4 → s.crossed f size die = true → s.frameFits pte frame size die = true → rangesMeet f size new size = false →
      (∀ m ∈ s.migrations, rangesMeet m.old m.size f size = false ∧ rangesMeet m.new m.size f size = false ∧ rangesMeet m.new m.size new size = false ∧ rangesMeet m.old m.size new size = false) →
      ∃ t, exec (.migrationStart ctx va die frame) s = .next t ∧ t.migrations = s.migrations ++ [⟨s.nextId, ctx, va.toNat / size * size, at_, f, new, size, .copying, [], 1, []⟩] ∧ t.mem = s.mem ∧ t.crews = s.crews ∧ t.ops = s.ops) ∧
    (∀ (n : Nat) (m : Migration), s.migrations.find? (fun x => x.id == n) = some m →
      let pte := cellNat s.mem m.pteAt 8
      let put (y : Migration) : List Migration := s.migrations.map fun x => if x.id = n then y else x
      (m.st = .copying → pte % 2 = 1 → pteFrame pte = m.old → s.mayMove pte m.size = true →
        (64 < m.dirty.length → m.passes < 8 → exec (.migrationCopyPassEnd n) s = .next { s with migrations := put { m with dirty := [], passes := m.passes + 1 } }) ∧
        (m.dirty.length ≤ 64 ∨ 8 ≤ m.passes →
          exec (.migrationCopyPassEnd n) s = .next (State.kernelStore { s with migrations := put { m with st := .switching } } m.pteAt (natBytes 8 (recSet pte 0 1 0))))) ∧
      (m.st = .copying → pte % 2 = 0 ∨ pteFrame pte ≠ m.old ∨ s.mayMove pte m.size = false → exec (.migrationCopyPassEnd n) s = .next { s with migrations := s.migrations.filter fun x => x.id != n }) ∧
      (m.st = .switching → Memory.wf s → rangesMeet m.old m.size m.new m.size = false → rangesMeet m.pteAt 8 m.new m.size = false → (kernelAt m.pteAt).isHost = false → (kernelAt m.pteAt).isDev = false →
        (∀ a ∈ s.accs, placesMeet a.place a.bytes (kernelAt m.pteAt) 8 = false) →
        ∃ t m', exec (.migrationInvalidationComplete n) s = .next t ∧ t.migrations.find? (fun x => x.id == n) = some m' ∧ m'.st = .settling ∧ m'.held = (s.ops.filter fun o => o.onFrame m.old m.size).map (fun o => o.id) ∧
          (∀ a, a < m.size → cellGet t.mem (m.new + a) = cellGet s.mem (m.old + a)) ∧ cellNat t.mem m.pteAt 8 = recSet (recSet (recSet pte 0 1 1) 16 26 (paLocal m.new / 2 ^ 16)) 42 10 s.pkg ∧
          t.ops = s.ops.map fun o => if o.onFrame m.old m.size then { o with work := m.work o.work, peer := none } else o) ∧
      (m.st = .settling → (∀ o ∈ s.ops, o.id ∉ m.held ∧ o.onFrame m.old m.size = false) → exec (.oldFrameFreed n) s = .next { s with migrations := s.migrations.filter fun x => x.id != n }))

/-- Packages: a remote load without an answer lands all ones with TIMEOUT, a remote store is dropped with DROPPED or has performed; a miss at the target freezes the sequences of the request and a resume sends it again with those behind it; the lines of a dead plane take the next live one; a request of another package is performed at its home slice where the page is exported to its context, in the page's own form, waits for the kernel where it is not, and meets a fatal fault where it writes through a read-only export; a work record reaches its receiver, whose count of consumed records returns credits (R288, R289, R290, R292, R296, R297). A package whose compute dies are off answers none (R313). Whether a request that times out has performed is a free bit, the export is judged by the first byte of the request, the place is in the page's own form, and what is sent stands in `responses`: the model's choices (log entries 1, 34, 19 and 33). It states the completion of: remoteRequestTimeout, targetExportCheck, sequenceFreeze, sequenceResume, planeRemap, remoteWorkRecordLanding, consumedWordWrite. -/
def Obligations.RequestsCrossPackages : Prop :=
  ∀ s : State,
    (∀ (o : Op), s.getOp o.id = some o → o.peer.isSome = true →
      (s.opReady o = true → o.frozen = false →
        exec (.sequenceFreeze o.id) s = .next { s with
          frozen := s.frozen ++ o.ranks.flatMap fun k => ((List.range 16).filter fun q => o.seqs.getLsbD q).map fun q => ⟨o.crew, k, BitVec.ofNat 4 q, o.id, s.ticks⟩
          ops := s.ops.map fun x => if x.id = o.id then { x with frozen := true, sentAt := s.ticks } else x }) ∧
      (∀ f, s.frozen.find? (fun g => g.crew == f.crew && g.rank == f.rank && g.seq == f.seq) = some f → f.op = o.id → (∀ q ∈ s.ops, q.work.isFence = false) →
        ∃ t, exec (.sequenceResume f.crew f.rank f.seq true) s = .next t ∧ (∀ x ∈ t.frozen, x.op ≠ o.id) ∧ t.getOp o.id = some { o with frozen := false, sentAt := s.ticks } ∧
          (∀ x ∈ s.behind o.id, s.getOp x.id = some x → t.getOp x.id = some { x with sentAt := s.ticks }) ∧ t.crews = s.crews ∧ t.mem = s.mem) ∧
      (o.sentAt + s.ctxTimeout o.ctx ≤ s.ticks → s.frozenHeld o = false → o.frozen = false → (∀ q ∈ s.ops, q.work.isFence = false) →
        (∀ (p : Place) (d : Reg) (n code : Nat) (tag : Tag) (sh : Shape) (c : Crew), o.work = .load p d n tag sh code → s.getCrew o.crew = some c → c.regsOk = true → d.toNat + n ≤ 120 → (∀ j, j < n → (c.desc (d.toNat + j)).shape = .g) →
          o.rel = false → o.dropped = [] → s.runOn o = false → o.ranks.Nodup → (∀ k ∈ o.ranks, k < c.size) →
          ∀ performed, ∃ t c', exec (.remoteRequestTimeout o.id performed) s = .next t ∧ (∀ q ∈ t.ops, q.id ≠ o.id) ∧ t.getCrew o.crew = some c' ∧ c'.nstatus = c.nstatus ||| 1 ∧ t.mem = s.mem ∧
            (∀ j, j < n → ∀ k ∈ o.ranks, c'.elem (d.toNat + j) k = 0xFFFFFFFF)) ∧
        (∀ (p : Place) (bs : List Byte) (poisoned : Bool) (c : Crew), o.work = .store p bs poisoned → s.getCrew o.crew = some c →
          let u := if o.rel then s.release o.crew o.rank o.scope o.seqs else s
          ∀ performed, ∃ t c', exec (.remoteRequestTimeout o.id performed) s = .next t ∧ (∀ q ∈ t.ops, q.id ≠ o.id) ∧ t.getCrew o.crew = some c' ∧ c'.nstatus = c.nstatus ||| 4 ∧
            t.mem = (if performed = true ∧ s.opReady o = true then (u.noteAccess o.core o.ctx o.va p).performWrite (some o.core) p bs poisoned else u).mem)) ∧
      (∀ (chan : Nat) (h : Word) (bs : List Byte) (w : WorkChan), o.work = .workRecord chan h bs → s.opReady o = true → (∀ q ∈ s.ops, q.work.isFence = false) → s.workChan chan = some w →
        ∃ t, exec (.remoteWorkRecordLanding o.id) s = .next t ∧ (∀ q ∈ t.ops, q.id ≠ o.id) ∧
          t.responses = s.responses ++ [⟨recF (s.wcDesc w) 96 10, recF (s.wcDesc w) 0 64 + 128 * (h.toNat % 2 ^ 20 % 2 ^ (recF (s.wcDesc w) 128 4 + 4)), .record, bs, false⟩])) ∧
    (∀ plane, plane < 8 → s.livePlanes.getD plane false = true → (∀ o ∈ s.ops, o.peer = none) →
      exec (.planeRemap plane) s = .next { s with livePlanes := s.livePlanes.set plane false, planes := s.planes.map fun q => if q = plane then nextPlane (s.livePlanes.set plane false) plane else q }) ∧
    (∀ (chan : Nat) (count : Word) (r : List Input) (w : WorkChan), s.inputs = .consumed chan count :: r → s.workChan chan = some w →
      let d := s.wcDesc w
      let c := recF d 224 32 + (count - w.consumed).toNat
      (2 ^ (recF d 128 4 + 4) < c → exec .consumedWordWrite s = .next (State.putDesc { s with inputs := r } w.desc (recSet d 288 32 (recF d 288 32 + 1)))) ∧
      (c ≤ 2 ^ (recF d 128 4 + 4) → exec .consumedWordWrite s = .next { State.putDesc { s with inputs := r } w.desc (recSet d 224 32 c) with workChans := s.workChans.map fun x => if x.chan = chan then { x with consumed := count } else x })) ∧
    (∀ (req : RemoteReq) (r : List Input), s.inputs = .request req :: r →
      let granted (e : Export) : Prop := e.peer = req.peer ∧ e.ctx = req.ctx ∧ e.pa ≤ req.pa ∧ req.pa < e.pa + e.size
      let record : Prop := ∃ chan bs, req.kind = .record chan bs
      let place (e : Export) : Place := .mem (s.pkg * 2 ^ 42 + req.pa) (s.pkg * 2 ^ 42 + e.pa) e.sqz e.chk
      (s.powered = false → exec .targetExportCheck s = .next { s with inputs := r }) ∧ (s.powered = true → s.placeHeld (kernelAt (s.pkg * 2 ^ 42 + req.pa)) = false →
      (¬record → (∀ e ∈ s.exports, ¬granted e) →
        exec .targetExportCheck s = .next { s with inputs := r, exportMisses := s.exportMisses ++ [⟨req.peer, req.ctx, req.pa⟩], responses := s.responses ++ [⟨req.peer, req.pa, .miss, [], false⟩] }) ∧
      (∀ e, s.exports.filter (fun y => y.peer == req.peer && y.ctx == req.ctx && y.pa ≤ req.pa && req.pa < y.pa + y.size) = [e] →
        (∀ n, req.kind = .load n →
          exec .targetExportCheck s = .next { s with inputs := r, responses := s.responses ++ [⟨req.peer, req.pa, .done, s.homeRead (place e) n, s.poisonedAt (place e) n⟩] }) ∧
        (e.writable = false → ¬record → (∀ n, req.kind ≠ .load n) → exec .targetExportCheck s = .next { s with inputs := r, responses := s.responses ++ [⟨req.peer, req.pa, .fatal, [], false⟩] }) ∧
        (∀ bs, req.kind = .store bs → e.writable = true →
          exec .targetExportCheck s = .next (State.answer (State.performWrite { s with inputs := r } none (place e) bs false) req .done [] false)))))

/-- Jobs, rays and encoders: a job starts with the data of every member, its result is what its operation makes of them in the order of positions, and it ends when its bytes are written, when its record is malformed or its number was run before, or after the timeout; a traversal that is done queues its record for relaunch with the hit block, or goes to an any-hit crew whose reports are applied; an encoder works through its slots (R274, R275, R278, R279, R280, R282, R299, R300, R301, R302, R310). The model's choices: an encoder serves the waiting partition with the lowest reserved slot (log entry 32), the bytes it streams are free (log entry 71), which numbers count as run (log entry 68), a ray unit keeps its own keys (log entry 15), and what a failed job leaves is free (log entries 1 and 35). It states the completion of: rayRequestCompletion, anyHitCrewFormation, anyHitReportsApplied, millefeuilleJobStart, millefeuilleJobCompletion, millefeuilleMemberTimeout, encoderSlot, frameReady. -/
def Obligations.JobsRaysAndEncodersGoOn : Prop :=
  ∀ s : State,
    (∀ (num : Nat) (members : List JobMember) (r : List Input) (g : Group) (j : Job) (s2 : State) (own : List Byte), s.inputs = .members num members :: r →
      s.groups.find? (fun y => y.num == num && (s.turnJob y).isSome) = some g → s.turnJob g = some j →
      let rec_ := j.record
      s.jobWaits j = none → (∀ k, k < g.nranks → k ≠ g.rank → (members.filter fun m => m.rank == k).length = 1) → jbOp rec_ ≠ 1 →
      State.unitBytes (s.jobCore j) j.ctx (jbBytes rec_ / 65536 + 2) s (jbSrc rec_) (jbBytes rec_) = (s2, .ok own) →
      (∀ m ∈ members, m.rank ≠ g.rank → m.op = jbOp rec_ ∧ m.algo = jbAlgo rec_ ∧ m.sqz = jbSqz rec_ ∧ m.root = jbRoot rec_ ∧ m.count = jbCount rec_) →
      ∃ t j', exec .millefeuilleJobStart s = .next t ∧ t.inputs = r ∧ t.jobs.find? (fun y => y.id == j.id) = some j' ∧ j'.started = true ∧ j'.own = own ∧ j'.members = members.filter fun m => m.rank != g.rank) ∧
    (∀ (g : Group) (j : Job) (st : State), State.unitBytes (s.jobCore j) j.ctx (j.own.length / 65536 + 2) s (jbSrc j.record) j.own.length = (st, .ok j.own) →
      let data (k : Nat) : List Byte := if k = g.rank then j.own else ((j.members.find? fun m => m.rank == k).map fun m => m.data).getD []
      (s.jobOut g j).2 = (if jbMerge j.record = false ∨ g.rank = jbRoot j.record then
        mJob (jbOp j.record) (jbAlgo j.record) (jbSqz j.record) ((if jbOp j.record = 1 then j.order else List.range g.nranks).map data) else [])) ∧
    (∀ (n : Nat) (j : Job), s.jobs.find? (fun y => y.id == n) = some j → s.jobWaits j = none →
      let ended (t : State) : Prop := (∀ y ∈ t.jobs, y.id ≠ n) ∧
        t.groups = s.groups.map fun y => if y.num = jbGroup j.record ∧ y.ctx = j.ctx ∧ y.jobSeq % 65536 = jbSeq j.record ∧ s.jobRuns j = false then { y with jobSeq := y.jobSeq + 1 } else y
      (∀ (g : Group) (s0 s1 : State) (out : List Byte) (pages : Span), j.started = true → s.group j.ctx (jbGroup j.record) = some g → s.jobOut g j = (s0, out) → s0.jobSpan j out = (s1, .ok pages) →
        ∃ t, exec (.millefeuilleJobCompletion n) s = .next t ∧ ended t ∧ t.mem = ((s1.writeJob j true pages out).endJob j 0 none).mem) ∧
      (∀ g, j.started = false → s.group j.ctx (jbGroup j.record) = some g → s.jobOk j = true → g.repeated j = true → ∃ t, exec (.millefeuilleJobCompletion n) s = .next t ∧ ended t ∧ t.mem = (s.endJob j 5 none).mem) ∧
      (j.started = false → s.jobOk j = false → ∃ t, exec (.millefeuilleJobCompletion n) s = .next t ∧ ended t) ∧
      (∀ o, s.getOp j.op = some o → o.sentAt + s.ctxTimeout j.ctx ≤ s.ticks → s.jobOk j = true → (j.started = true ∨ (s.jobRuns j = false ∧ ∀ g, s.group j.ctx (jbGroup j.record) = some g → g.repeated j = false)) →
        ∃ t, exec (.millefeuilleMemberTimeout n) s = .next t ∧ ended t)) ∧
    (∀ (n : Nat) (y : Ray), s.rays.find? (fun z => z.id == n) = some y →
      let queued (t : State) (x : Ray) (pc : PcAddr) (hit : List (Word × Tag)) : Prop := (∀ z ∈ t.rays, z.id ≠ n) ∧ ∃ l, t.requeues = l ++ [⟨n, x.ctx, x.launch, x.quad, x.slot, pc, x.regs, hit, t.ticks⟩] ∧ l = s.requeues
      (y.anyHit = false → y.texc = false → s.hitWaits y = none → ∀ (s1 : State) (x : Ray),
        (∀ poison, s.advance y = (s1, x, .fault poison) → ∃ t, exec (.rayRequestCompletion n) s = .next t ∧ queued t x x.resume (missBlock x (if poison then 64 else 32) x.resume)) ∧
        (s.advance y = (s1, x, .full) → exec (.rayRequestCompletion n) s = .next { s1 with rays := s1.rays.map fun z => if z.id = x.id then x else z }) ∧
        (s.advance y = (s1, x, .done) → x.buffer = [] → x.hit = none → ∀ (s2 : State) (rc : Option Nat), (s1.setRay x).sbtRecord x.core x.ctx (s1.blockOfRay x) x.sbtOff = (s2, .ok rc) → recF (rc.getD 0) 192 64 = 0 →
          ∃ t, exec (.rayRequestCompletion n) s = .next t ∧ queued t x x.resume (missBlock x 0 x.resume)) ∧
        (∀ h, s.advance y = (s1, x, .done) → x.buffer = [] → x.hit = some h → ∀ (s2 : State) (rc : Nat),
          (s1.setRay x).sbtRecord x.core x.ctx (s1.blockOfRay x) (x.sbtOff + h.geom.toNat * x.sbtStride) = (s2, .ok (some rc)) → recF rc 64 64 = 0 →
          ∃ t, exec (.rayRequestCompletion n) s = .next t ∧ queued t x x.resume (hitBlock x h (1 + (if h.front then 2 else 0) + (if x.term then 8 else 0)) x.resume))) ∧
      (y.anyHit = false → y.texc = true → s.hitWaits y = none → ∀ (l : Launch) (s1 s2 s3 : State) (b0 b1 : List Byte) (rgba : List Word), s.getLaunch y.launch = some l → s.unitReads y.core y.ctx 64 [l.args] = (s1, .ok [b0]) → rbOk (bytesNat b0) = true →
        (y.req.getD 0 0).toNat < rbTexCount (bytesNat b0) → (f32Of (y.req.getD 1 0)).isFinite = true → (f32Of (y.req.getD 2 0)).isFinite = true →
        s1.unitReads y.core y.ctx 32 [rbTexTab (bytesNat b0) + 32 * (y.req.getD 0 0).toNat] = (s2, .ok [b1]) → texDescOk (bytesNat b1) = true →
        s2.sample y.core y.ctx (bytesNat b1) (f32Of (y.req.getD 1 0)) (f32Of (y.req.getD 2 0)) (y.req.getD 3 0) = (s3, .ok rgba) →
        ∃ t, exec (.rayRequestCompletion n) s = .next t ∧ queued t y y.resume (texBlock rgba 0)) ∧
      (y.anyHit = false → y.texc = false → y.buffer ≠ [] → 16 ≤ y.buffer.length ∨ y.stack = [] ∨ y.term = true →
        let l := y.buffer.foldr insertCand []
        exec (.anyHitCrewFormation n) s = .next { s with
          rays := s.rays.map fun z => if z.id = y.id then { y with buffer := l, anyHit := true } else z
          formed := s.formed ++ [⟨y.launch, y.quad, some y.id, [], l.map fun c => (c.anyPc, y.regs ++ hitBlock y c (1 + 2 * bit01 c.front) c.anyPc)⟩] }) ∧
      (∀ c, y.anyHit = true → s.crews.find? (fun c => c.kind == .anyHit n && c.life == .completed) = some c →
        exec (.anyHitReportsApplied n) s = .next { s with
          rays := s.rays.map fun z => if z.id = y.id then y.applyReports (c.fibres.map fun f => f.report) else z
          crews := s.crews.filter fun d => d.id != c.id
          teams := s.teams.filter fun x => x.id != c.team })) ∧
    (∀ (enc p session frame left : Nat), s.powered = true →
      (∀ e ∈ s.encoders, e.id = enc → e.waiting = [(p, session, frame, left)]) →
      exec (.encoderSlot enc) s = .next { s with free := s.free + 2, encoders := s.encoders.map fun e => if e.id = enc then
        { e with slot := (e.slot + 1) % 16, waiting := if left ≤ 1 then [] else [(p, session, frame, left - 1)], streamed := if left ≤ 1 then e.streamed ++ [(session, frame, natBytes (Config.freeNat s.free) (Config.freeNat (s.free + 1)))] else e.streamed } else e }) ∧
    (∀ (x : Session) (frame : Word), s.sessions.find? (fun y => y.id == x.id) = some x → frame.toNat ∈ x.rung → s.powered = true →
      exec (.frameReady x.id frame) s = .next { s with sessions := s.sessions.map fun y => if y.id = x.id then { y with rung := y.rung.erase frame.toNat } else y, encoders := s.encoders.map fun e => if e.id = x.encoder then { e with waiting := e.waiting ++ [(x.part, x.id, frame.toNat, x.slots)] } else e })

/-- The system: errors of the storage are logged, marked as poison or remapped; a service core's stop, a thermal shutdown and the loss of the host reach the contexts; a warm restart brings the endpoint back; boot verifies its images in order; a report holds the measurements (R141, R153, R154, R305, R306, R307, R308, R312, R313). The model's choices: what a warm restart keeps (log entry 31), whether a spare row is left (log entries 1 and 55), the homing of extents as an input of boot, striped by default (log entry 18), which contexts a service core's stop reaches (log entry 56), and the form in which BAR2 tells of the image that failed (log entry 82). It states the completion of: hostLoss, hostWarmRestart, eccCorrectedError, uncorrectableError, rowRemap, jalleyInstanceStop, boot, thermalThrottle, thermalShutdown, attestationRequest. -/
def Obligations.TheSystemFailsRestartsAndBoots : Prop :=
  ∀ s : State,
    (∀ arr unit row, exec (.eccCorrectedError arr unit row) s = .next { s with eccLog := s.eccLog ++ [(arr, unit, row)] }) ∧
    (∀ datum, (match datum with | .l1Sector .. | .remoteSector .. | .counter .. | .contribution .. | .accumulator .. => False | _ => True) → ∃ t, exec (.uncorrectableError datum) s = .next t ∧ datumSector datum ∈ t.poison ∧ (∀ d ∈ t.poison, d = datumSector datum ∨ d ∈ s.poison) ∧ (∀ d ∈ s.poison, d ∈ t.poison) ∧ t = { s with poison := t.poison }) ∧
    (∀ core pa, exec (.uncorrectableError (.l1Sector core pa)) s = .next { s with l1 := s.l1.map fun x => if x.unit = core ∧ x.sector = pa / 32 then { x with bad := true } else x }) ∧
    (∀ die pa, exec (.uncorrectableError (.remoteSector die pa)) s = .next { s with remoteCache := s.remoteCache.map fun x => if x.unit = die ∧ x.sector = pa / 32 then { x with bad := true } else x }) ∧
    (∀ slice index, exec (.uncorrectableError (.counter slice index)) s = .next { s with crumbs := s.crumbs.map fun x => if x.slice = slice ∧ x.index = index then { x with bad := true } else x }) ∧
    (∀ core n, ∃ t, exec (.uncorrectableError (.contribution core n)) s = .next t ∧ t = { s with redBuf := t.redBuf } ∧ t.redBuf.map (fun x : Contribution => { x with bad := false }) = s.redBuf.map (fun x : Contribution => { x with bad := false }) ∧
      ∀ x, (s.redBuf.filter fun y => y.core == core)[n]? = some x → (t.redBuf.filter fun y => y.core == core)[n]? = some { x with bad := true }) ∧
    (∀ pa, ∃ t, exec (.uncorrectableError (.accumulator pa)) s = .next t ∧ t = { s with accs := t.accs } ∧
      t.accs = s.accs.map fun a => if (match a.place with | .mem b _ _ _ => b ≤ pa && pa < b + a.bytes | .scratch .. => false) = true then { a with bad := true } else a) ∧
    (∀ (arr : SramArray) (unit row : Nat), 2 ≤ (s.eccLog.filter fun x => x == (arr, unit, row)).length → (∀ c ∈ s.crews, c.life = .resident → c.core = unit → arrOfCore arr = false) → (arr = .crumbs → ∀ c ∈ s.crumbs, c.armed = true → c.slice ≠ unit) → (arr, unit, row) ∉ s.remapped → s.hostLost = false → s.powered = true →
      ∃ t, exec (.rowRemap arr unit row) s = .next t ∧ (arr, unit, row) ∉ t.eccLog ∧
        (Config.freeBit s.free = true → (arr, unit, row) ∈ t.remapped ∧ t.coreCaps = s.coreCaps ∧ t.l2Lost = s.l2Lost) ∧
        (Config.freeBit s.free = false → t.caps unit = { s.caps unit with
            rows := if arr = .registerFile then (s.caps unit).rows - 8 else (s.caps unit).rows
            scratch := if arr = .scratchpad then (s.caps unit).scratch - 16384 else (s.caps unit).scratch
            tiles := if arr = .tileStore then (s.caps unit).tiles - 16 else (s.caps unit).tiles } ∧
          (arr ≠ .l2 → t.l2Lost = s.l2Lost) ∧ (arr = .l2 → t.l2Lost.find? (fun x => x.1 == unit) = some (unit, min 16 (((s.l2Lost.find? fun x => x.1 == unit).map fun x => x.2).getD 0 + 1)) ∧ ∀ x, x.1 ≠ unit → (x ∈ t.l2Lost ↔ x ∈ s.l2Lost)))) ∧
    (∀ slice, slice < 64 → slice ∉ s.stoppedJalley →
      ∃ t, exec (.jalleyInstanceStop slice) s = .next t ∧ t.stoppedJalley = s.stoppedJalley ++ [slice] ∧ ∀ c ∈ s.contexts, c.down = false → s.touchesSlice slice c = true → ∃ c', t.getCtx c.id = some c' ∧ c'.down = true) ∧
    (∀ lowered, exec (.thermalThrottle lowered) s = .next { s with clockLow := lowered }) ∧
    (∃ t, exec .thermalShutdown s = .next t ∧ t.powered = false ∧ t.boot = .off ∧ (t.exports, t.exportMisses, t.l1, t.hostL2) = ([], [], [], []) ∧ ∀ c ∈ s.contexts, ∃ c', t.getCtx c.id = some c' ∧ c'.down = true) ∧
    (s.hostLost = false → ∃ t, exec .hostLoss s = .next t ∧ t.hostLost = true ∧ t.crews = s.crews ∧ t.ops = s.ops ∧ (∃ l, t.parked = ((s.ops.filter fun o => o.host).map fun o => Parked.op o.id).take Config.parkSlots ++ l ∧ ∀ p ∈ l, ∃ pa, p = .write pa) ∧
      ∀ c ∈ s.contexts, c.down = false → ∃ c', t.getCtx c.id = some c' ∧ c'.bits.getLsbD 5 = true) ∧
    ((∃ p ∈ s.partitions, p.persist = true) → (∀ c ∈ s.contexts, c.down = false → ∃ p, s.getPart c.part = some p ∧ p.persist = true) →
      ∃ t, exec .hostWarmRestart s = .next t ∧ t.hostLost = false ∧ t.parked = [] ∧ t.hostMapped = [] ∧ t.boot = s.boot ∧ ∀ c ∈ s.contexts, c.down = false → ∃ c', t.getCtx c.id = some c' ∧ c'.bits.getLsbD 3 = true) ∧
    ((∀ p ∈ s.partitions, p.persist = false) ∨ (∃ c ∈ s.contexts, c.down = false ∧ ∀ p : Partition, s.getPart c.part = some p → p.persist = false) →
      ∃ t, exec .hostWarmRestart s = .next t ∧ t.crews = [] ∧ t.ops = [] ∧ t.boot = State.reset.boot ∧ (t.cycles, t.ticks) = (0, 0) ∧ ∀ c ∈ s.contexts, ∃ c', t.getCtx c.id = some c' ∧ c'.down = true) ∧
    (∀ (images : List BootImage) (r : List Input), s.inputs = .images images :: r → s.boot = .off → s.powered = true → images.map (fun i => i.image) = [0, 1, 2] →
      (∀ i ∈ images, i.rsaOk = true ∧ i.slhOk = true ∧ i.rollback ≤ i.version) →
      ((∀ l, Input.homing l ∉ r) → ∃ t, exec .boot s = .next t ∧ t.inputs = r ∧ t.boot = .running (images.map fun i => i.measurement) ∧ ∀ e ∈ t.extents, e.home = none) ∧
      (∀ (n h : Nat) (r2 : List Input), r = .homing [(n, h)] :: r2 → paPeer (n * 2 ^ 21) = s.pkg → inHbm (paLocal (n * 2 ^ 21)) = true → h / 16 = recF (paLocal (n * 2 ^ 21)) 37 2 →
        ∃ t, exec .boot s = .next t ∧ t.inputs = r2 ∧ t.boot = .running (images.map fun i => i.measurement) ∧ (t.extent (n * 2 ^ 21)).home = some h ∧ (t.extent (n * 2 ^ 21)).ty = (s.extent (n * 2 ^ 21)).ty)) ∧
    (∀ (a : List BootImage) (i : BootImage) (b : List BootImage) (r : List Input), s.inputs = .images (a ++ i :: b) :: r → s.boot = .off → s.powered = true → (a ++ i :: b).map (fun i => i.image) = [0, 1, 2] →
      (∀ x ∈ a, x.rsaOk = true ∧ x.slhOk = true ∧ x.rollback ≤ x.version) → i.rsaOk = false ∨ i.slhOk = false ∨ i.version < i.rollback → (∀ l, Input.homing l ∉ r) →
      ∃ t, exec .boot s = .next t ∧ t.boot = .stopped i.image ∧ t.mailbox = cellWrite [] 0 (natBytes 4 i.image) ∧ t = { s with inputs := r, boot := t.boot, extents := t.extents, mailbox := t.mailbox }) ∧
    (∀ (ethernet authentic : Bool) (nonce : Nat) (r : List Input) (ms : List Nat), s.inputs = .attestation ethernet authentic nonce :: r → s.boot = .running ms → s.powered = true →
      exec .attestationRequest s = .next { s with inputs := r, attest := if ethernet = true ∧ authentic = false then s.attest else s.attest ++ [⟨nonce, ms, Config.digest (nonce :: ms)⟩] })

/-- The Jalley kernel, once it runs, creates contexts, user and task queues, pipes, work channels and groups as it is asked, with the fields and initial values of each, those with a counter or descriptor in a slice that the context's partition holds (R222, R226, R231, R263, R266, R295, R299, R309). It states the completion of: contextCreation, userQueueCreation, taskQueueCreation, pipeCreation, workChannelCreation, groupCreation. -/
def Obligations.TheKernelCreatesItsObjects : Prop :=
  ∀ (s : State) (r : List Input),
    (∀ init : ContextInit, s.inputs = .context init :: r → s.kernelUp = true → (∀ c ∈ s.contexts, c.down = false → c.asid ≠ init.asid) → init.asid < 1024 → init.pasid < 2 ^ 20 → inHbm init.ptroot = true → init.ptroot % 4096 = 0 →
      init.status % 32 = 0 → s.partAllows init.part init.asid init.backed = true →
      ∃ t, exec .contextCreation s = .next t ∧ t.inputs = r ∧ s.nextId + 1 ≤ t.nextId ∧
        t.contexts = s.contexts ++ [⟨s.nextId, init.asid, init.pasid, init.ptroot, init.trapvec, init.privileged, init.status, init.part, init.backed, false, 0, 0, 0⟩] ∧
        ((kernelAt init.status).isHost = false → t.mem = (s.performWrite none (kernelAt init.status) (List.replicate 32 0) false).mem)) ∧
    (∀ (ctx : Nat) (init : QueueInit), s.inputs = .userQueue ctx init :: r → s.liveCtx ctx = true → init.num < 65536 → init.size ≤ 10 → init.prio ≤ 15 → init.ring < 2 ^ 57 → init.ring % 64 = 0 → init.desc % 64 = 0 → s.userQueue init.num = none →
      (∃ p, s.partOf ctx = some p ∧ s.partHas ctx (s.userQueues.map fun q => q.ctx) < p.userQueues) →
      ∃ t, exec .userQueueCreation s = .next t ∧ t.inputs = r ∧ t.userQueues = s.userQueues ++ [⟨init.num, ctx, init.desc, 0, 0, 0, 0, 0⟩] ∧ t.crews = s.crews ∧
        (Memory.wf s → (kernelAt init.desc).isHost = false → (kernelAt init.desc).isDev = false →
          let d := cellNat t.mem init.desc 64
          recF d 0 64 = init.ring ∧ recF d 64 1 = 1 ∧ recF d 65 1 = 0 ∧ recF d 66 1 = 0 ∧ recF d 72 4 = init.size ∧ recF d 76 4 = init.prio ∧ recF d 80 16 = init.num ∧ recF d 224 32 = 0 ∧ recF d 256 32 = 0 ∧ recF d 288 32 = 0)) ∧
    (∀ (ctx pte frame sqz : Nat) (chk : Bool) (init : QueueInit), s.inputs = .taskQueue ctx init :: r → s.liveCtx ctx = true → init.num < 1024 → init.size ≤ 10 → init.prio ≤ 15 → init.ring < 2 ^ 57 → init.ring % 64 = 0 → init.desc % 64 = 0 →
      init.va / 2 ^ 32 = init.ring / 2 ^ 32 → (init.ring + 64 * 2 ^ (init.size + 6) - 1) / 2 ^ 32 = init.ring / 2 ^ 32 → s.kernelPlace ctx init.va = some (.mem init.desc frame sqz chk, pte) → recF pte 2 1 = 0 →
      (∃ p, s.partOf ctx = some p ∧ s.partHas ctx (s.taskQueues.map fun q => q.ctx) < p.taskQueues) → s.holdsSlice ctx init.desc = true → (∀ q ∈ s.taskQueues, q.num ≠ init.num) →
      ∃ t, exec .taskQueueCreation s = .next t ∧ t.inputs = r ∧ t.taskQueues = s.taskQueues ++ [⟨init.num, ctx, init.desc, List.replicate (2 ^ (init.size + 6)) (.free, 0), []⟩] ∧ t.crews = s.crews) ∧
    (∀ (ctx pipe die slice : Nat) (gen : BitVec 16) (c : Context) (p : Partition), s.inputs = .pipe ctx pipe die slice gen :: r → s.getCtx ctx = some c → c.down = false → s.getPart c.part = some p → slice ∈ p.slices → pipe < 4096 → die < 4 → slice / 16 = die → s.getPipe pipe = none →
      exec .pipeCreation s = .next { s with inputs := r, pipes := s.pipes ++ [⟨pipe, die, slice, gen, ctx, [], [], 0, 0, [], [], none, []⟩] }) ∧
    (∀ (ctx : Nat) (init : ChannelInit) (c : Context), s.inputs = .workChannel ctx init :: r → s.getCtx ctx = some c → c.down = false → init.chan < 4096 → init.size ≤ 12 → init.peer < 1024 → init.ring % 128 = 0 → init.desc % 64 = 0 →
      init.ring < 2 ^ 64 → paPeer init.desc = s.pkg → inHbm (paLocal init.desc) = true → s.holdsSlice ctx init.desc = true → s.workChan init.chan = none →
      ∃ t, exec .workChannelCreation s = .next t ∧ t.inputs = r ∧ t.workChans = s.workChans ++ [⟨init.chan, ctx, init.desc, [], 0⟩] ∧ t.crews = s.crews ∧
        (Memory.wf s →
          let d := cellNat t.mem init.desc 64
          recF d 0 64 = init.ring ∧ recF d 64 12 = init.chan ∧ recF d 96 10 = init.peer ∧ recF d 112 1 = bit01 init.ethernet ∧ recF d 113 1 = 1 ∧ recF d 128 4 = init.size ∧ recF d 192 32 = 0 ∧ recF d 224 32 = 2 ^ (init.size + 4) ∧ recF d 256 32 = 0 ∧ recF d 288 32 = 0)) ∧
    (∀ (ctx : Nat) (init : GroupInit) (c : Context), s.inputs = .group ctx init :: r → s.getCtx ctx = some c → c.down = false → init.num < 256 → init.nranks ≠ 0 → init.nranks ≤ 1024 → init.rank < init.nranks → init.members.length = init.nranks → (init.members.getD init.rank (s.pkg, false)).1 = s.pkg → (∀ g ∈ s.groups, g.num ≠ init.num) →
      exec .groupCreation s = .next { s with inputs := r, groups := s.groups ++ [⟨init.num, ctx, init.nranks, init.rank, init.members, 0⟩] })

/-! ### Words, steps and the whole machine -/

/-- DECODE AND ENCODE AGREE for every instruction word: the encoding of a well-formed instruction is a 32-bit word, and its four bytes, lowest address first, decode to that instruction with every operand (R57, R58, R60 to R83, R4). -/
def Obligations.DecodingAnEncodedWordGivesItBack : Prop :=
  ∀ (i : Instr) (w : Nat), i.wf = true → encode i = some w → w < 2 ^ 32 ∧ decodeBytes (wordBytes w) = .ok i

/-- ONLY LISTED WORDS DECODE: a 32-bit word that decodes is the encoding of the instruction read from it, which is well-formed; no bit of a word is ignored, and every other word is rejected (R58, R81 to R83). -/
def Obligations.OnlyEncodedWordsDecode : Prop :=
  ∀ (i : Instr) (w : Nat), w < 2 ^ 32 → decodeBytes (wordBytes w) = .ok i → i.wf = true ∧ encode i = some w

/-- Words written out bit by bit from the tables of the spec decode to the instructions they stand for, and reserved or malformed words to none (R58, R63 to R78, R81 to R84). -/
def Obligations.WordsReadAsTheTablesSay : Prop :=
  decodeTableWord 32 0b1_0000_000000_0000011_0000001_0000010 = some (.addA3 true 3 1 2) ∧
  decodeTableWord 32 0b0_0001_111111_0000101_00000000000111 = some (.ldi false 5 7) ∧
  decodeTableWord 32 0b0_0010_000_0010_0001_00_0000100_0000101 = some (.cmp false .lt 1 .set 4 5) ∧
  decodeTableWord 32 0b1_0100_0001_1_1111111111111111111110 = some (.bra 1 true 0x3FFFFE) ∧
  decodeTableWord 32 0b0_0101_0010_00_0011_0001010_0001000_01_1 = some (.ld false .f32 .global 3 10 8 1 true) ∧
  decodeTableWord 32 0b0_0110_0001_01_0000_0001010_0001000_00_0 = some (.st false .ui32 .scratch 0 10 8 0 false) ∧
  decodeTableWord 32 0b1_1100_000110_000000000000000000000 = some .retire ∧
  decodeTableWord 32 0x60000000 = some (.nop false) ∧ decodeTableWord 32 0xE0200600 = some (.brx 12) ∧ decodeTableWord 32 0x79000011 = some (.xwGuard true 1) ∧
  decodeTableWord 32 0x61400001 = some (.trap false 1) ∧
  (∀ w, w < 2 ^ 32 → fld w 27 4 = 14 → decodeTableWord 32 w = none) ∧
  (∀ w, w < 2 ^ 32 → fld w 27 4 = 4 → fld w 31 1 = 0 → decodeTableWord 32 w = none) ∧
  decodeTableWord 32 0b0_0000_011010_0000011_0000001_0000010 = none ∧ decodeTableWord 32 0b0_0000_010001_0000011_0000001_0000001 = none

/-- EVERY STEP KEEPS THE CANONICAL FORM OF MEMORY: after a step, as before it, the listed bytes of pod memory, of every scratchpad and of the mailbox stand at strictly rising addresses and none equals what an unlisted byte reads as (the form is the model's own, log entry 2; the bytes are those of R133, R134 and R303). -/
def Obligations.EveryStepKeepsMemoryCanonical : Prop :=
  ∀ s t : State, step s = .next t → (Memory.wf s → Memory.wf t) ∧ (cellWf s.mailbox = true → cellWf t.mailbox = true)

/-- EVERY STEP KEEPS CREWS IN ORDER: crew numbers are distinct and below the next number; every crew has 120 descriptors, as many rows as it declared, each of one element for each rank, one fibre for each rank, and G registers on distinct rows of its pool (R34, R37, R38); every issue at hand or waiting names distinct ranks that its crew has (R17). -/
def Obligations.EveryStepKeepsCrewsInOrder : Prop :=
  ∀ s t : State, CrewsInOrder s → step s = .next t → CrewsInOrder t

/-- A STEP RUNS THE FETCHED WORD: with an issue at hand of fewer than 24 words, the step is exec of the instruction that the next of its run's words, fetched whole for its pre-scan, decodes to, once the requests that wait for the unit it uses have each lost a round (R248); then loads behind an acquire may read ahead, attempts and gates note what the step has done, and time passes; an issue that holds no words fetches the four bytes at its pc; a word that decodes to none, or a 25th, raises IllegalOp in every fibre of the issue at the first word of its group (R22, R58, R59, R80); with no issue at hand the step is the next scheduled event. The schedule, how much time passes, an issue without words, the first word of the group as TRAPPC of a 25th word, and what may read ahead (R159) are the model's own (log entries 4, 5, 6, 7 and 36). -/
def Obligations.AStepRunsTheFetchedWord : Prop :=
  ∀ s : State,
    let illegal (st : State) (i : Issue) : Out := .next ((st.trapAll i.crew i.group (i.ranks.map fun k => (k, ⟨.illegalOp, 0⟩))).endRun i [])
    (∀ (i : Issue) (c : Crew), s.cur = some i → s.getCrew i.crew = some c →
      (24 ≤ i.words → step s = tickOut (illegal s i)) ∧
      (∀ (bs : List Byte) (rest : List Fetched), i.words < 24 → i.code = .word bs :: rest →
        (∀ ins, decodeBytes bs = .ok ins → step s = tickOut (exec ins (s.beats i c ins))) ∧ (∀ r, decodeBytes bs = .error r → step s = tickOut (illegal s i))) ∧
      (∀ (s1 : State) (p : Place), i.words < 24 → i.code = [] → s.foundAt c.ctx i.pc.toNat (s.xlate c.core c.ctx i.pc.toNat false true (s.privileged c.ctx)) = (s1, .ok p) → s1.peerOf p = none → p.isDev = false → s1.poisonedAt p 4 = false →
        (∀ ins, decodeBytes (s1.homeRead p 4) = .ok ins → step s = tickOut (exec ins (s1.beats i c ins))) ∧
        (∀ r, decodeBytes (s1.homeRead p 4) = .error r → step s = tickOut (illegal s1 i)))) ∧
    (∀ (e : Instr) (r : List Instr), s.cur = none → s.schedule = e :: r → encode e = none → step s = tickOut (exec e { s with schedule := r })) ∧
    (∀ (i : Issue) (c : Crew) (ins : Instr), ∃ w, s.beats i c ins = { s with waiting := w } ∧ w.length = s.waiting.length ∧ ((formOf c i.ext ins).unit = none → w = s.waiting)) ∧
    (takeInput Input.act s.inputs = none → s.lateWrites = [] → ∃ n m, tickOut (.next s) = .next { s.readAhead.watchTx.noteGates with cycles := s.cycles + 1 + n, ticks := s.ticks + m } ∧
      ((∀ q ∈ s.ops, q.acq = false) → (∀ c ∈ s.crews, ∀ f ∈ c.fibres, f.tx = none ∧ f.st ≠ .blocked) → tickOut (.next s) = .next { s with cycles := s.cycles + 1 + n, ticks := s.ticks + m }))

/-- Right after reset the counts of cycles and ticks are zero (R45), no context, crew, launch, queue, counter, pipe or request exists, nothing is outstanding, cached or poisoned, memory lists nothing, every plane is live (R287), boot has not begun (R312), and the invariants hold; a fibre is created with its predicates, FPSTAT, TXCAUSE and trap state clear and no operation counted, and a crew with every register U, SI32 and 0 (R13). That memory and scratchpads read as 0 is the model's choice (log entry 2), as are the other registers' values (log entry 3). -/
def Obligations.ResetLeavesNothingRunning : Prop :=
  (let z := State.reset
   (z.cycles, z.ticks, z.mem, z.poison, z.hostLost, z.boot) = (0, 0, [], [], false, .off) ∧
   (z.contexts, z.partitions, z.crews, z.teams, z.launches, z.userQueues, z.taskQueues) = ([], [], [], [], [], [], []) ∧
   (z.cur, z.waiting, z.ops, z.crumbs, z.pipes, z.chans, z.transfers) = (none, [], [], [], [], [], []) ∧
   (z.l1, z.remoteCache, z.hostL2, z.tlb, z.redBuf, z.accs, z.token.holder) = ([], [], [], [], [], [], none) ∧
   (z.mailbox, z.recvChans, z.exports, z.jobs, z.syscalls, z.rays, z.rayHolds, z.misses) = ([], [], [], [], [], [], [], []) ∧
   z.planes = List.range 8 ∧ z.livePlanes = List.replicate 8 true ∧ Memory.wf z ∧ CrewsInOrder z) ∧
  (∀ (pc : PcAddr) (feeds stamp mark : Nat),
    let f := Fibre.fresh pc feeds stamp mark
    (f.live, f.pc, f.regPc, f.preds, f.fpstat, f.txCause, f.trapMode, f.uiAct) = (true, pc, pc, 0, 0, 0, false, false) ∧ f.pred 15 = true ∧ f.counts = [] ∧ f.clockHi = 0 ∧ f.timeHi = 0) ∧
  (∀ (s : State) (l : Launch) (id team : Nat) (kind : CrewKind) (index teamIndex : Word) (pos teamSize size core lane prio : Nat) (pcs : List PcAddr) (r k : Nat),
    let c := newCrew s l id team kind index teamIndex pos teamSize size core lane prio pcs
    c.desc r = ⟨.u, .si32, 0, 0⟩ ∧ c.elem r k = 0 ∧ c.nstatus = 0 ∧ c.uiVec = 0 ∧ c.uiMasked = false ∧ c.converged = true ∧ (l.grows ≤ 256 → c.regsOk = true))
end

