-- ==== Sys2Proof/Laws/State.lean ====
section
/-! SUPPORT. What each update of the state, of a crew and of a fibre leaves alone: one equation for each field, true by unfolding. -/
namespace Sys2Proof.Machine

/-! `State.modCrew` -/
section
variable (s : State) (id : Nat) (f : Crew → Crew)
@[simp] theorem State_modCrew_pkg : (s.modCrew id f).pkg = s.pkg := rfl
@[simp] theorem State_modCrew_cycles : (s.modCrew id f).cycles = s.cycles := rfl
@[simp] theorem State_modCrew_ticks : (s.modCrew id f).ticks = s.ticks := rfl
@[simp] theorem State_modCrew_boot : (s.modCrew id f).boot = s.boot := rfl
@[simp] theorem State_modCrew_clockLow : (s.modCrew id f).clockLow = s.clockLow := rfl
@[simp] theorem State_modCrew_powered : (s.modCrew id f).powered = s.powered := rfl
@[simp] theorem State_modCrew_mem : (s.modCrew id f).mem = s.mem := rfl
@[simp] theorem State_modCrew_poison : (s.modCrew id f).poison = s.poison := rfl
@[simp] theorem State_modCrew_eccLog : (s.modCrew id f).eccLog = s.eccLog := rfl
@[simp] theorem State_modCrew_extents : (s.modCrew id f).extents = s.extents := rfl
@[simp] theorem State_modCrew_capsAt : (s.modCrew id f).capsAt = s.capsAt := rfl
@[simp] theorem State_modCrew_coreCaps : (s.modCrew id f).coreCaps = s.coreCaps := rfl
@[simp] theorem State_modCrew_l2Lost : (s.modCrew id f).l2Lost = s.l2Lost := rfl
@[simp] theorem State_modCrew_remapped : (s.modCrew id f).remapped = s.remapped := rfl
@[simp] theorem State_modCrew_token : (s.modCrew id f).token = s.token := rfl
@[simp] theorem State_modCrew_planes : (s.modCrew id f).planes = s.planes := rfl
@[simp] theorem State_modCrew_livePlanes : (s.modCrew id f).livePlanes = s.livePlanes := rfl
@[simp] theorem State_modCrew_encoders : (s.modCrew id f).encoders = s.encoders := rfl
@[simp] theorem State_modCrew_sessions : (s.modCrew id f).sessions = s.sessions := rfl
@[simp] theorem State_modCrew_hostLost : (s.modCrew id f).hostLost = s.hostLost := rfl
@[simp] theorem State_modCrew_parked : (s.modCrew id f).parked = s.parked := rfl
@[simp] theorem State_modCrew_hostMapped : (s.modCrew id f).hostMapped = s.hostMapped := rfl
@[simp] theorem State_modCrew_hostStale : (s.modCrew id f).hostStale = s.hostStale := rfl
@[simp] theorem State_modCrew_lostAt : (s.modCrew id f).lostAt = s.lostAt := rfl
@[simp] theorem State_modCrew_mailbox : (s.modCrew id f).mailbox = s.mailbox := rfl
@[simp] theorem State_modCrew_hostSeen : (s.modCrew id f).hostSeen = s.hostSeen := rfl
@[simp] theorem State_modCrew_lateWrites : (s.modCrew id f).lateWrites = s.lateWrites := rfl
@[simp] theorem State_modCrew_attest : (s.modCrew id f).attest = s.attest := rfl
@[simp] theorem State_modCrew_stoppedJalley : (s.modCrew id f).stoppedJalley = s.stoppedJalley := rfl
@[simp] theorem State_modCrew_contexts : (s.modCrew id f).contexts = s.contexts := rfl
@[simp] theorem State_modCrew_partitions : (s.modCrew id f).partitions = s.partitions := rfl
@[simp] theorem State_modCrew_userQueues : (s.modCrew id f).userQueues = s.userQueues := rfl
@[simp] theorem State_modCrew_taskQueues : (s.modCrew id f).taskQueues = s.taskQueues := rfl
@[simp] theorem State_modCrew_launches : (s.modCrew id f).launches = s.launches := rfl
@[simp] theorem State_modCrew_passed : (s.modCrew id f).passed = s.passed := rfl
@[simp] theorem State_modCrew_teams : (s.modCrew id f).teams = s.teams := rfl
@[simp] theorem State_modCrew_cur : (s.modCrew id f).cur = s.cur := rfl
@[simp] theorem State_modCrew_waiting : (s.modCrew id f).waiting = s.waiting := rfl
@[simp] theorem State_modCrew_ops : (s.modCrew id f).ops = s.ops := rfl
@[simp] theorem State_modCrew_overtaken : (s.modCrew id f).overtaken = s.overtaken := rfl
@[simp] theorem State_modCrew_synced : (s.modCrew id f).synced = s.synced := rfl
@[simp] theorem State_modCrew_l1 : (s.modCrew id f).l1 = s.l1 := rfl
@[simp] theorem State_modCrew_remoteCache : (s.modCrew id f).remoteCache = s.remoteCache := rfl
@[simp] theorem State_modCrew_remoteWays : (s.modCrew id f).remoteWays = s.remoteWays := rfl
@[simp] theorem State_modCrew_hostL2 : (s.modCrew id f).hostL2 = s.hostL2 := rfl
@[simp] theorem State_modCrew_tlb : (s.modCrew id f).tlb = s.tlb := rfl
@[simp] theorem State_modCrew_misses : (s.modCrew id f).misses = s.misses := rfl
@[simp] theorem State_modCrew_refused : (s.modCrew id f).refused = s.refused := rfl
@[simp] theorem State_modCrew_chans : (s.modCrew id f).chans = s.chans := rfl
@[simp] theorem State_modCrew_transfers : (s.modCrew id f).transfers = s.transfers := rfl
@[simp] theorem State_modCrew_savedCopies : (s.modCrew id f).savedCopies = s.savedCopies := rfl
@[simp] theorem State_modCrew_crumbs : (s.modCrew id f).crumbs = s.crumbs := rfl
@[simp] theorem State_modCrew_firings : (s.modCrew id f).firings = s.firings := rfl
@[simp] theorem State_modCrew_redBuf : (s.modCrew id f).redBuf = s.redBuf := rfl
@[simp] theorem State_modCrew_accs : (s.modCrew id f).accs = s.accs := rfl
@[simp] theorem State_modCrew_pipes : (s.modCrew id f).pipes = s.pipes := rfl
@[simp] theorem State_modCrew_migrations : (s.modCrew id f).migrations = s.migrations := rfl
@[simp] theorem State_modCrew_accessCounts : (s.modCrew id f).accessCounts = s.accessCounts := rfl
@[simp] theorem State_modCrew_migThreshold : (s.modCrew id f).migThreshold = s.migThreshold := rfl
@[simp] theorem State_modCrew_rays : (s.modCrew id f).rays = s.rays := rfl
@[simp] theorem State_modCrew_rayHolds : (s.modCrew id f).rayHolds = s.rayHolds := rfl
@[simp] theorem State_modCrew_requeues : (s.modCrew id f).requeues = s.requeues := rfl
@[simp] theorem State_modCrew_formed : (s.modCrew id f).formed = s.formed := rfl
@[simp] theorem State_modCrew_frozen : (s.modCrew id f).frozen = s.frozen := rfl
@[simp] theorem State_modCrew_exports : (s.modCrew id f).exports = s.exports := rfl
@[simp] theorem State_modCrew_exportMisses : (s.modCrew id f).exportMisses = s.exportMisses := rfl
@[simp] theorem State_modCrew_recvChans : (s.modCrew id f).recvChans = s.recvChans := rfl
@[simp] theorem State_modCrew_responses : (s.modCrew id f).responses = s.responses := rfl
@[simp] theorem State_modCrew_workChans : (s.modCrew id f).workChans = s.workChans := rfl
@[simp] theorem State_modCrew_groups : (s.modCrew id f).groups = s.groups := rfl
@[simp] theorem State_modCrew_jobs : (s.modCrew id f).jobs = s.jobs := rfl
@[simp] theorem State_modCrew_syscalls : (s.modCrew id f).syscalls = s.syscalls := rfl
@[simp] theorem State_modCrew_unitOwner : (s.modCrew id f).unitOwner = s.unitOwner := rfl
@[simp] theorem State_modCrew_resizesRefused : (s.modCrew id f).resizesRefused = s.resizesRefused := rfl
@[simp] theorem State_modCrew_free : (s.modCrew id f).free = s.free := rfl
@[simp] theorem State_modCrew_nextId : (s.modCrew id f).nextId = s.nextId := rfl
@[simp] theorem State_modCrew_inputs : (s.modCrew id f).inputs = s.inputs := rfl
@[simp] theorem State_modCrew_schedule : (s.modCrew id f).schedule = s.schedule := rfl
end

/-! `State.modFib` -/
section
variable (s : State) (id k : Nat) (f : Fibre → Fibre)
@[simp] theorem State_modFib_pkg : (s.modFib id k f).pkg = s.pkg := rfl
@[simp] theorem State_modFib_cycles : (s.modFib id k f).cycles = s.cycles := rfl
@[simp] theorem State_modFib_ticks : (s.modFib id k f).ticks = s.ticks := rfl
@[simp] theorem State_modFib_boot : (s.modFib id k f).boot = s.boot := rfl
@[simp] theorem State_modFib_clockLow : (s.modFib id k f).clockLow = s.clockLow := rfl
@[simp] theorem State_modFib_powered : (s.modFib id k f).powered = s.powered := rfl
@[simp] theorem State_modFib_mem : (s.modFib id k f).mem = s.mem := rfl
@[simp] theorem State_modFib_poison : (s.modFib id k f).poison = s.poison := rfl
@[simp] theorem State_modFib_eccLog : (s.modFib id k f).eccLog = s.eccLog := rfl
@[simp] theorem State_modFib_extents : (s.modFib id k f).extents = s.extents := rfl
@[simp] theorem State_modFib_capsAt : (s.modFib id k f).capsAt = s.capsAt := rfl
@[simp] theorem State_modFib_coreCaps : (s.modFib id k f).coreCaps = s.coreCaps := rfl
@[simp] theorem State_modFib_l2Lost : (s.modFib id k f).l2Lost = s.l2Lost := rfl
@[simp] theorem State_modFib_remapped : (s.modFib id k f).remapped = s.remapped := rfl
@[simp] theorem State_modFib_token : (s.modFib id k f).token = s.token := rfl
@[simp] theorem State_modFib_planes : (s.modFib id k f).planes = s.planes := rfl
@[simp] theorem State_modFib_livePlanes : (s.modFib id k f).livePlanes = s.livePlanes := rfl
@[simp] theorem State_modFib_encoders : (s.modFib id k f).encoders = s.encoders := rfl
@[simp] theorem State_modFib_sessions : (s.modFib id k f).sessions = s.sessions := rfl
@[simp] theorem State_modFib_hostLost : (s.modFib id k f).hostLost = s.hostLost := rfl
@[simp] theorem State_modFib_parked : (s.modFib id k f).parked = s.parked := rfl
@[simp] theorem State_modFib_hostMapped : (s.modFib id k f).hostMapped = s.hostMapped := rfl
@[simp] theorem State_modFib_hostStale : (s.modFib id k f).hostStale = s.hostStale := rfl
@[simp] theorem State_modFib_lostAt : (s.modFib id k f).lostAt = s.lostAt := rfl
@[simp] theorem State_modFib_mailbox : (s.modFib id k f).mailbox = s.mailbox := rfl
@[simp] theorem State_modFib_hostSeen : (s.modFib id k f).hostSeen = s.hostSeen := rfl
@[simp] theorem State_modFib_lateWrites : (s.modFib id k f).lateWrites = s.lateWrites := rfl
@[simp] theorem State_modFib_attest : (s.modFib id k f).attest = s.attest := rfl
@[simp] theorem State_modFib_stoppedJalley : (s.modFib id k f).stoppedJalley = s.stoppedJalley := rfl
@[simp] theorem State_modFib_contexts : (s.modFib id k f).contexts = s.contexts := rfl
@[simp] theorem State_modFib_partitions : (s.modFib id k f).partitions = s.partitions := rfl
@[simp] theorem State_modFib_userQueues : (s.modFib id k f).userQueues = s.userQueues := rfl
@[simp] theorem State_modFib_taskQueues : (s.modFib id k f).taskQueues = s.taskQueues := rfl
@[simp] theorem State_modFib_launches : (s.modFib id k f).launches = s.launches := rfl
@[simp] theorem State_modFib_passed : (s.modFib id k f).passed = s.passed := rfl
@[simp] theorem State_modFib_teams : (s.modFib id k f).teams = s.teams := rfl
@[simp] theorem State_modFib_cur : (s.modFib id k f).cur = s.cur := rfl
@[simp] theorem State_modFib_waiting : (s.modFib id k f).waiting = s.waiting := rfl
@[simp] theorem State_modFib_ops : (s.modFib id k f).ops = s.ops := rfl
@[simp] theorem State_modFib_overtaken : (s.modFib id k f).overtaken = s.overtaken := rfl
@[simp] theorem State_modFib_synced : (s.modFib id k f).synced = s.synced := rfl
@[simp] theorem State_modFib_l1 : (s.modFib id k f).l1 = s.l1 := rfl
@[simp] theorem State_modFib_remoteCache : (s.modFib id k f).remoteCache = s.remoteCache := rfl
@[simp] theorem State_modFib_remoteWays : (s.modFib id k f).remoteWays = s.remoteWays := rfl
@[simp] theorem State_modFib_hostL2 : (s.modFib id k f).hostL2 = s.hostL2 := rfl
@[simp] theorem State_modFib_tlb : (s.modFib id k f).tlb = s.tlb := rfl
@[simp] theorem State_modFib_misses : (s.modFib id k f).misses = s.misses := rfl
@[simp] theorem State_modFib_refused : (s.modFib id k f).refused = s.refused := rfl
@[simp] theorem State_modFib_chans : (s.modFib id k f).chans = s.chans := rfl
@[simp] theorem State_modFib_transfers : (s.modFib id k f).transfers = s.transfers := rfl
@[simp] theorem State_modFib_savedCopies : (s.modFib id k f).savedCopies = s.savedCopies := rfl
@[simp] theorem State_modFib_crumbs : (s.modFib id k f).crumbs = s.crumbs := rfl
@[simp] theorem State_modFib_firings : (s.modFib id k f).firings = s.firings := rfl
@[simp] theorem State_modFib_redBuf : (s.modFib id k f).redBuf = s.redBuf := rfl
@[simp] theorem State_modFib_accs : (s.modFib id k f).accs = s.accs := rfl
@[simp] theorem State_modFib_pipes : (s.modFib id k f).pipes = s.pipes := rfl
@[simp] theorem State_modFib_migrations : (s.modFib id k f).migrations = s.migrations := rfl
@[simp] theorem State_modFib_accessCounts : (s.modFib id k f).accessCounts = s.accessCounts := rfl
@[simp] theorem State_modFib_migThreshold : (s.modFib id k f).migThreshold = s.migThreshold := rfl
@[simp] theorem State_modFib_rays : (s.modFib id k f).rays = s.rays := rfl
@[simp] theorem State_modFib_rayHolds : (s.modFib id k f).rayHolds = s.rayHolds := rfl
@[simp] theorem State_modFib_requeues : (s.modFib id k f).requeues = s.requeues := rfl
@[simp] theorem State_modFib_formed : (s.modFib id k f).formed = s.formed := rfl
@[simp] theorem State_modFib_frozen : (s.modFib id k f).frozen = s.frozen := rfl
@[simp] theorem State_modFib_exports : (s.modFib id k f).exports = s.exports := rfl
@[simp] theorem State_modFib_exportMisses : (s.modFib id k f).exportMisses = s.exportMisses := rfl
@[simp] theorem State_modFib_recvChans : (s.modFib id k f).recvChans = s.recvChans := rfl
@[simp] theorem State_modFib_responses : (s.modFib id k f).responses = s.responses := rfl
@[simp] theorem State_modFib_workChans : (s.modFib id k f).workChans = s.workChans := rfl
@[simp] theorem State_modFib_groups : (s.modFib id k f).groups = s.groups := rfl
@[simp] theorem State_modFib_jobs : (s.modFib id k f).jobs = s.jobs := rfl
@[simp] theorem State_modFib_syscalls : (s.modFib id k f).syscalls = s.syscalls := rfl
@[simp] theorem State_modFib_unitOwner : (s.modFib id k f).unitOwner = s.unitOwner := rfl
@[simp] theorem State_modFib_resizesRefused : (s.modFib id k f).resizesRefused = s.resizesRefused := rfl
@[simp] theorem State_modFib_free : (s.modFib id k f).free = s.free := rfl
@[simp] theorem State_modFib_nextId : (s.modFib id k f).nextId = s.nextId := rfl
@[simp] theorem State_modFib_inputs : (s.modFib id k f).inputs = s.inputs := rfl
@[simp] theorem State_modFib_schedule : (s.modFib id k f).schedule = s.schedule := rfl
end

/-! `State.modRanks` -/
section
variable (s : State) (id : Nat) (x : List Nat) (f : Nat → Fibre → Fibre)
@[simp] theorem State_modRanks_pkg : (s.modRanks id x f).pkg = s.pkg := rfl
@[simp] theorem State_modRanks_cycles : (s.modRanks id x f).cycles = s.cycles := rfl
@[simp] theorem State_modRanks_ticks : (s.modRanks id x f).ticks = s.ticks := rfl
@[simp] theorem State_modRanks_boot : (s.modRanks id x f).boot = s.boot := rfl
@[simp] theorem State_modRanks_clockLow : (s.modRanks id x f).clockLow = s.clockLow := rfl
@[simp] theorem State_modRanks_powered : (s.modRanks id x f).powered = s.powered := rfl
@[simp] theorem State_modRanks_mem : (s.modRanks id x f).mem = s.mem := rfl
@[simp] theorem State_modRanks_poison : (s.modRanks id x f).poison = s.poison := rfl
@[simp] theorem State_modRanks_eccLog : (s.modRanks id x f).eccLog = s.eccLog := rfl
@[simp] theorem State_modRanks_extents : (s.modRanks id x f).extents = s.extents := rfl
@[simp] theorem State_modRanks_capsAt : (s.modRanks id x f).capsAt = s.capsAt := rfl
@[simp] theorem State_modRanks_coreCaps : (s.modRanks id x f).coreCaps = s.coreCaps := rfl
@[simp] theorem State_modRanks_l2Lost : (s.modRanks id x f).l2Lost = s.l2Lost := rfl
@[simp] theorem State_modRanks_remapped : (s.modRanks id x f).remapped = s.remapped := rfl
@[simp] theorem State_modRanks_token : (s.modRanks id x f).token = s.token := rfl
@[simp] theorem State_modRanks_planes : (s.modRanks id x f).planes = s.planes := rfl
@[simp] theorem State_modRanks_livePlanes : (s.modRanks id x f).livePlanes = s.livePlanes := rfl
@[simp] theorem State_modRanks_encoders : (s.modRanks id x f).encoders = s.encoders := rfl
@[simp] theorem State_modRanks_sessions : (s.modRanks id x f).sessions = s.sessions := rfl
@[simp] theorem State_modRanks_hostLost : (s.modRanks id x f).hostLost = s.hostLost := rfl
@[simp] theorem State_modRanks_parked : (s.modRanks id x f).parked = s.parked := rfl
@[simp] theorem State_modRanks_hostMapped : (s.modRanks id x f).hostMapped = s.hostMapped := rfl
@[simp] theorem State_modRanks_hostStale : (s.modRanks id x f).hostStale = s.hostStale := rfl
@[simp] theorem State_modRanks_lostAt : (s.modRanks id x f).lostAt = s.lostAt := rfl
@[simp] theorem State_modRanks_mailbox : (s.modRanks id x f).mailbox = s.mailbox := rfl
@[simp] theorem State_modRanks_hostSeen : (s.modRanks id x f).hostSeen = s.hostSeen := rfl
@[simp] theorem State_modRanks_lateWrites : (s.modRanks id x f).lateWrites = s.lateWrites := rfl
@[simp] theorem State_modRanks_attest : (s.modRanks id x f).attest = s.attest := rfl
@[simp] theorem State_modRanks_stoppedJalley : (s.modRanks id x f).stoppedJalley = s.stoppedJalley := rfl
@[simp] theorem State_modRanks_contexts : (s.modRanks id x f).contexts = s.contexts := rfl
@[simp] theorem State_modRanks_partitions : (s.modRanks id x f).partitions = s.partitions := rfl
@[simp] theorem State_modRanks_userQueues : (s.modRanks id x f).userQueues = s.userQueues := rfl
@[simp] theorem State_modRanks_taskQueues : (s.modRanks id x f).taskQueues = s.taskQueues := rfl
@[simp] theorem State_modRanks_launches : (s.modRanks id x f).launches = s.launches := rfl
@[simp] theorem State_modRanks_passed : (s.modRanks id x f).passed = s.passed := rfl
@[simp] theorem State_modRanks_teams : (s.modRanks id x f).teams = s.teams := rfl
@[simp] theorem State_modRanks_cur : (s.modRanks id x f).cur = s.cur := rfl
@[simp] theorem State_modRanks_waiting : (s.modRanks id x f).waiting = s.waiting := rfl
@[simp] theorem State_modRanks_ops : (s.modRanks id x f).ops = s.ops := rfl
@[simp] theorem State_modRanks_overtaken : (s.modRanks id x f).overtaken = s.overtaken := rfl
@[simp] theorem State_modRanks_synced : (s.modRanks id x f).synced = s.synced := rfl
@[simp] theorem State_modRanks_l1 : (s.modRanks id x f).l1 = s.l1 := rfl
@[simp] theorem State_modRanks_remoteCache : (s.modRanks id x f).remoteCache = s.remoteCache := rfl
@[simp] theorem State_modRanks_remoteWays : (s.modRanks id x f).remoteWays = s.remoteWays := rfl
@[simp] theorem State_modRanks_hostL2 : (s.modRanks id x f).hostL2 = s.hostL2 := rfl
@[simp] theorem State_modRanks_tlb : (s.modRanks id x f).tlb = s.tlb := rfl
@[simp] theorem State_modRanks_misses : (s.modRanks id x f).misses = s.misses := rfl
@[simp] theorem State_modRanks_refused : (s.modRanks id x f).refused = s.refused := rfl
@[simp] theorem State_modRanks_chans : (s.modRanks id x f).chans = s.chans := rfl
@[simp] theorem State_modRanks_transfers : (s.modRanks id x f).transfers = s.transfers := rfl
@[simp] theorem State_modRanks_savedCopies : (s.modRanks id x f).savedCopies = s.savedCopies := rfl
@[simp] theorem State_modRanks_crumbs : (s.modRanks id x f).crumbs = s.crumbs := rfl
@[simp] theorem State_modRanks_firings : (s.modRanks id x f).firings = s.firings := rfl
@[simp] theorem State_modRanks_redBuf : (s.modRanks id x f).redBuf = s.redBuf := rfl
@[simp] theorem State_modRanks_accs : (s.modRanks id x f).accs = s.accs := rfl
@[simp] theorem State_modRanks_pipes : (s.modRanks id x f).pipes = s.pipes := rfl
@[simp] theorem State_modRanks_migrations : (s.modRanks id x f).migrations = s.migrations := rfl
@[simp] theorem State_modRanks_accessCounts : (s.modRanks id x f).accessCounts = s.accessCounts := rfl
@[simp] theorem State_modRanks_migThreshold : (s.modRanks id x f).migThreshold = s.migThreshold := rfl
@[simp] theorem State_modRanks_rays : (s.modRanks id x f).rays = s.rays := rfl
@[simp] theorem State_modRanks_rayHolds : (s.modRanks id x f).rayHolds = s.rayHolds := rfl
@[simp] theorem State_modRanks_requeues : (s.modRanks id x f).requeues = s.requeues := rfl
@[simp] theorem State_modRanks_formed : (s.modRanks id x f).formed = s.formed := rfl
@[simp] theorem State_modRanks_frozen : (s.modRanks id x f).frozen = s.frozen := rfl
@[simp] theorem State_modRanks_exports : (s.modRanks id x f).exports = s.exports := rfl
@[simp] theorem State_modRanks_exportMisses : (s.modRanks id x f).exportMisses = s.exportMisses := rfl
@[simp] theorem State_modRanks_recvChans : (s.modRanks id x f).recvChans = s.recvChans := rfl
@[simp] theorem State_modRanks_responses : (s.modRanks id x f).responses = s.responses := rfl
@[simp] theorem State_modRanks_workChans : (s.modRanks id x f).workChans = s.workChans := rfl
@[simp] theorem State_modRanks_groups : (s.modRanks id x f).groups = s.groups := rfl
@[simp] theorem State_modRanks_jobs : (s.modRanks id x f).jobs = s.jobs := rfl
@[simp] theorem State_modRanks_syscalls : (s.modRanks id x f).syscalls = s.syscalls := rfl
@[simp] theorem State_modRanks_unitOwner : (s.modRanks id x f).unitOwner = s.unitOwner := rfl
@[simp] theorem State_modRanks_resizesRefused : (s.modRanks id x f).resizesRefused = s.resizesRefused := rfl
@[simp] theorem State_modRanks_free : (s.modRanks id x f).free = s.free := rfl
@[simp] theorem State_modRanks_nextId : (s.modRanks id x f).nextId = s.nextId := rfl
@[simp] theorem State_modRanks_inputs : (s.modRanks id x f).inputs = s.inputs := rfl
@[simp] theorem State_modRanks_schedule : (s.modRanks id x f).schedule = s.schedule := rfl
end

/-! `State.modCtx` -/
section
variable (s : State) (id : Nat) (f : Context → Context)
@[simp] theorem State_modCtx_pkg : (s.modCtx id f).pkg = s.pkg := rfl
@[simp] theorem State_modCtx_cycles : (s.modCtx id f).cycles = s.cycles := rfl
@[simp] theorem State_modCtx_ticks : (s.modCtx id f).ticks = s.ticks := rfl
@[simp] theorem State_modCtx_boot : (s.modCtx id f).boot = s.boot := rfl
@[simp] theorem State_modCtx_clockLow : (s.modCtx id f).clockLow = s.clockLow := rfl
@[simp] theorem State_modCtx_powered : (s.modCtx id f).powered = s.powered := rfl
@[simp] theorem State_modCtx_mem : (s.modCtx id f).mem = s.mem := rfl
@[simp] theorem State_modCtx_poison : (s.modCtx id f).poison = s.poison := rfl
@[simp] theorem State_modCtx_eccLog : (s.modCtx id f).eccLog = s.eccLog := rfl
@[simp] theorem State_modCtx_extents : (s.modCtx id f).extents = s.extents := rfl
@[simp] theorem State_modCtx_capsAt : (s.modCtx id f).capsAt = s.capsAt := rfl
@[simp] theorem State_modCtx_coreCaps : (s.modCtx id f).coreCaps = s.coreCaps := rfl
@[simp] theorem State_modCtx_l2Lost : (s.modCtx id f).l2Lost = s.l2Lost := rfl
@[simp] theorem State_modCtx_remapped : (s.modCtx id f).remapped = s.remapped := rfl
@[simp] theorem State_modCtx_token : (s.modCtx id f).token = s.token := rfl
@[simp] theorem State_modCtx_planes : (s.modCtx id f).planes = s.planes := rfl
@[simp] theorem State_modCtx_livePlanes : (s.modCtx id f).livePlanes = s.livePlanes := rfl
@[simp] theorem State_modCtx_encoders : (s.modCtx id f).encoders = s.encoders := rfl
@[simp] theorem State_modCtx_sessions : (s.modCtx id f).sessions = s.sessions := rfl
@[simp] theorem State_modCtx_hostLost : (s.modCtx id f).hostLost = s.hostLost := rfl
@[simp] theorem State_modCtx_parked : (s.modCtx id f).parked = s.parked := rfl
@[simp] theorem State_modCtx_hostMapped : (s.modCtx id f).hostMapped = s.hostMapped := rfl
@[simp] theorem State_modCtx_hostStale : (s.modCtx id f).hostStale = s.hostStale := rfl
@[simp] theorem State_modCtx_lostAt : (s.modCtx id f).lostAt = s.lostAt := rfl
@[simp] theorem State_modCtx_mailbox : (s.modCtx id f).mailbox = s.mailbox := rfl
@[simp] theorem State_modCtx_hostSeen : (s.modCtx id f).hostSeen = s.hostSeen := rfl
@[simp] theorem State_modCtx_lateWrites : (s.modCtx id f).lateWrites = s.lateWrites := rfl
@[simp] theorem State_modCtx_attest : (s.modCtx id f).attest = s.attest := rfl
@[simp] theorem State_modCtx_stoppedJalley : (s.modCtx id f).stoppedJalley = s.stoppedJalley := rfl
@[simp] theorem State_modCtx_partitions : (s.modCtx id f).partitions = s.partitions := rfl
@[simp] theorem State_modCtx_userQueues : (s.modCtx id f).userQueues = s.userQueues := rfl
@[simp] theorem State_modCtx_taskQueues : (s.modCtx id f).taskQueues = s.taskQueues := rfl
@[simp] theorem State_modCtx_launches : (s.modCtx id f).launches = s.launches := rfl
@[simp] theorem State_modCtx_passed : (s.modCtx id f).passed = s.passed := rfl
@[simp] theorem State_modCtx_teams : (s.modCtx id f).teams = s.teams := rfl
@[simp] theorem State_modCtx_crews : (s.modCtx id f).crews = s.crews := rfl
@[simp] theorem State_modCtx_cur : (s.modCtx id f).cur = s.cur := rfl
@[simp] theorem State_modCtx_waiting : (s.modCtx id f).waiting = s.waiting := rfl
@[simp] theorem State_modCtx_ops : (s.modCtx id f).ops = s.ops := rfl
@[simp] theorem State_modCtx_overtaken : (s.modCtx id f).overtaken = s.overtaken := rfl
@[simp] theorem State_modCtx_synced : (s.modCtx id f).synced = s.synced := rfl
@[simp] theorem State_modCtx_l1 : (s.modCtx id f).l1 = s.l1 := rfl
@[simp] theorem State_modCtx_remoteCache : (s.modCtx id f).remoteCache = s.remoteCache := rfl
@[simp] theorem State_modCtx_remoteWays : (s.modCtx id f).remoteWays = s.remoteWays := rfl
@[simp] theorem State_modCtx_hostL2 : (s.modCtx id f).hostL2 = s.hostL2 := rfl
@[simp] theorem State_modCtx_tlb : (s.modCtx id f).tlb = s.tlb := rfl
@[simp] theorem State_modCtx_misses : (s.modCtx id f).misses = s.misses := rfl
@[simp] theorem State_modCtx_refused : (s.modCtx id f).refused = s.refused := rfl
@[simp] theorem State_modCtx_chans : (s.modCtx id f).chans = s.chans := rfl
@[simp] theorem State_modCtx_transfers : (s.modCtx id f).transfers = s.transfers := rfl
@[simp] theorem State_modCtx_savedCopies : (s.modCtx id f).savedCopies = s.savedCopies := rfl
@[simp] theorem State_modCtx_crumbs : (s.modCtx id f).crumbs = s.crumbs := rfl
@[simp] theorem State_modCtx_firings : (s.modCtx id f).firings = s.firings := rfl
@[simp] theorem State_modCtx_redBuf : (s.modCtx id f).redBuf = s.redBuf := rfl
@[simp] theorem State_modCtx_accs : (s.modCtx id f).accs = s.accs := rfl
@[simp] theorem State_modCtx_pipes : (s.modCtx id f).pipes = s.pipes := rfl
@[simp] theorem State_modCtx_migrations : (s.modCtx id f).migrations = s.migrations := rfl
@[simp] theorem State_modCtx_accessCounts : (s.modCtx id f).accessCounts = s.accessCounts := rfl
@[simp] theorem State_modCtx_migThreshold : (s.modCtx id f).migThreshold = s.migThreshold := rfl
@[simp] theorem State_modCtx_rays : (s.modCtx id f).rays = s.rays := rfl
@[simp] theorem State_modCtx_rayHolds : (s.modCtx id f).rayHolds = s.rayHolds := rfl
@[simp] theorem State_modCtx_requeues : (s.modCtx id f).requeues = s.requeues := rfl
@[simp] theorem State_modCtx_formed : (s.modCtx id f).formed = s.formed := rfl
@[simp] theorem State_modCtx_frozen : (s.modCtx id f).frozen = s.frozen := rfl
@[simp] theorem State_modCtx_exports : (s.modCtx id f).exports = s.exports := rfl
@[simp] theorem State_modCtx_exportMisses : (s.modCtx id f).exportMisses = s.exportMisses := rfl
@[simp] theorem State_modCtx_recvChans : (s.modCtx id f).recvChans = s.recvChans := rfl
@[simp] theorem State_modCtx_responses : (s.modCtx id f).responses = s.responses := rfl
@[simp] theorem State_modCtx_workChans : (s.modCtx id f).workChans = s.workChans := rfl
@[simp] theorem State_modCtx_groups : (s.modCtx id f).groups = s.groups := rfl
@[simp] theorem State_modCtx_jobs : (s.modCtx id f).jobs = s.jobs := rfl
@[simp] theorem State_modCtx_syscalls : (s.modCtx id f).syscalls = s.syscalls := rfl
@[simp] theorem State_modCtx_unitOwner : (s.modCtx id f).unitOwner = s.unitOwner := rfl
@[simp] theorem State_modCtx_resizesRefused : (s.modCtx id f).resizesRefused = s.resizesRefused := rfl
@[simp] theorem State_modCtx_free : (s.modCtx id f).free = s.free := rfl
@[simp] theorem State_modCtx_nextId : (s.modCtx id f).nextId = s.nextId := rfl
@[simp] theorem State_modCtx_inputs : (s.modCtx id f).inputs = s.inputs := rfl
@[simp] theorem State_modCtx_schedule : (s.modCtx id f).schedule = s.schedule := rfl
end

/-! `State.modLaunch` -/
section
variable (s : State) (id : Nat) (f : Launch → Launch)
@[simp] theorem State_modLaunch_pkg : (s.modLaunch id f).pkg = s.pkg := rfl
@[simp] theorem State_modLaunch_cycles : (s.modLaunch id f).cycles = s.cycles := rfl
@[simp] theorem State_modLaunch_ticks : (s.modLaunch id f).ticks = s.ticks := rfl
@[simp] theorem State_modLaunch_boot : (s.modLaunch id f).boot = s.boot := rfl
@[simp] theorem State_modLaunch_clockLow : (s.modLaunch id f).clockLow = s.clockLow := rfl
@[simp] theorem State_modLaunch_powered : (s.modLaunch id f).powered = s.powered := rfl
@[simp] theorem State_modLaunch_mem : (s.modLaunch id f).mem = s.mem := rfl
@[simp] theorem State_modLaunch_poison : (s.modLaunch id f).poison = s.poison := rfl
@[simp] theorem State_modLaunch_eccLog : (s.modLaunch id f).eccLog = s.eccLog := rfl
@[simp] theorem State_modLaunch_extents : (s.modLaunch id f).extents = s.extents := rfl
@[simp] theorem State_modLaunch_capsAt : (s.modLaunch id f).capsAt = s.capsAt := rfl
@[simp] theorem State_modLaunch_coreCaps : (s.modLaunch id f).coreCaps = s.coreCaps := rfl
@[simp] theorem State_modLaunch_l2Lost : (s.modLaunch id f).l2Lost = s.l2Lost := rfl
@[simp] theorem State_modLaunch_remapped : (s.modLaunch id f).remapped = s.remapped := rfl
@[simp] theorem State_modLaunch_token : (s.modLaunch id f).token = s.token := rfl
@[simp] theorem State_modLaunch_planes : (s.modLaunch id f).planes = s.planes := rfl
@[simp] theorem State_modLaunch_livePlanes : (s.modLaunch id f).livePlanes = s.livePlanes := rfl
@[simp] theorem State_modLaunch_encoders : (s.modLaunch id f).encoders = s.encoders := rfl
@[simp] theorem State_modLaunch_sessions : (s.modLaunch id f).sessions = s.sessions := rfl
@[simp] theorem State_modLaunch_hostLost : (s.modLaunch id f).hostLost = s.hostLost := rfl
@[simp] theorem State_modLaunch_parked : (s.modLaunch id f).parked = s.parked := rfl
@[simp] theorem State_modLaunch_hostMapped : (s.modLaunch id f).hostMapped = s.hostMapped := rfl
@[simp] theorem State_modLaunch_hostStale : (s.modLaunch id f).hostStale = s.hostStale := rfl
@[simp] theorem State_modLaunch_lostAt : (s.modLaunch id f).lostAt = s.lostAt := rfl
@[simp] theorem State_modLaunch_mailbox : (s.modLaunch id f).mailbox = s.mailbox := rfl
@[simp] theorem State_modLaunch_hostSeen : (s.modLaunch id f).hostSeen = s.hostSeen := rfl
@[simp] theorem State_modLaunch_lateWrites : (s.modLaunch id f).lateWrites = s.lateWrites := rfl
@[simp] theorem State_modLaunch_attest : (s.modLaunch id f).attest = s.attest := rfl
@[simp] theorem State_modLaunch_stoppedJalley : (s.modLaunch id f).stoppedJalley = s.stoppedJalley := rfl
@[simp] theorem State_modLaunch_contexts : (s.modLaunch id f).contexts = s.contexts := rfl
@[simp] theorem State_modLaunch_partitions : (s.modLaunch id f).partitions = s.partitions := rfl
@[simp] theorem State_modLaunch_userQueues : (s.modLaunch id f).userQueues = s.userQueues := rfl
@[simp] theorem State_modLaunch_taskQueues : (s.modLaunch id f).taskQueues = s.taskQueues := rfl
@[simp] theorem State_modLaunch_passed : (s.modLaunch id f).passed = s.passed := rfl
@[simp] theorem State_modLaunch_teams : (s.modLaunch id f).teams = s.teams := rfl
@[simp] theorem State_modLaunch_crews : (s.modLaunch id f).crews = s.crews := rfl
@[simp] theorem State_modLaunch_cur : (s.modLaunch id f).cur = s.cur := rfl
@[simp] theorem State_modLaunch_waiting : (s.modLaunch id f).waiting = s.waiting := rfl
@[simp] theorem State_modLaunch_ops : (s.modLaunch id f).ops = s.ops := rfl
@[simp] theorem State_modLaunch_overtaken : (s.modLaunch id f).overtaken = s.overtaken := rfl
@[simp] theorem State_modLaunch_synced : (s.modLaunch id f).synced = s.synced := rfl
@[simp] theorem State_modLaunch_l1 : (s.modLaunch id f).l1 = s.l1 := rfl
@[simp] theorem State_modLaunch_remoteCache : (s.modLaunch id f).remoteCache = s.remoteCache := rfl
@[simp] theorem State_modLaunch_remoteWays : (s.modLaunch id f).remoteWays = s.remoteWays := rfl
@[simp] theorem State_modLaunch_hostL2 : (s.modLaunch id f).hostL2 = s.hostL2 := rfl
@[simp] theorem State_modLaunch_tlb : (s.modLaunch id f).tlb = s.tlb := rfl
@[simp] theorem State_modLaunch_misses : (s.modLaunch id f).misses = s.misses := rfl
@[simp] theorem State_modLaunch_refused : (s.modLaunch id f).refused = s.refused := rfl
@[simp] theorem State_modLaunch_chans : (s.modLaunch id f).chans = s.chans := rfl
@[simp] theorem State_modLaunch_transfers : (s.modLaunch id f).transfers = s.transfers := rfl
@[simp] theorem State_modLaunch_savedCopies : (s.modLaunch id f).savedCopies = s.savedCopies := rfl
@[simp] theorem State_modLaunch_crumbs : (s.modLaunch id f).crumbs = s.crumbs := rfl
@[simp] theorem State_modLaunch_firings : (s.modLaunch id f).firings = s.firings := rfl
@[simp] theorem State_modLaunch_redBuf : (s.modLaunch id f).redBuf = s.redBuf := rfl
@[simp] theorem State_modLaunch_accs : (s.modLaunch id f).accs = s.accs := rfl
@[simp] theorem State_modLaunch_pipes : (s.modLaunch id f).pipes = s.pipes := rfl
@[simp] theorem State_modLaunch_migrations : (s.modLaunch id f).migrations = s.migrations := rfl
@[simp] theorem State_modLaunch_accessCounts : (s.modLaunch id f).accessCounts = s.accessCounts := rfl
@[simp] theorem State_modLaunch_migThreshold : (s.modLaunch id f).migThreshold = s.migThreshold := rfl
@[simp] theorem State_modLaunch_rays : (s.modLaunch id f).rays = s.rays := rfl
@[simp] theorem State_modLaunch_rayHolds : (s.modLaunch id f).rayHolds = s.rayHolds := rfl
@[simp] theorem State_modLaunch_requeues : (s.modLaunch id f).requeues = s.requeues := rfl
@[simp] theorem State_modLaunch_formed : (s.modLaunch id f).formed = s.formed := rfl
@[simp] theorem State_modLaunch_frozen : (s.modLaunch id f).frozen = s.frozen := rfl
@[simp] theorem State_modLaunch_exports : (s.modLaunch id f).exports = s.exports := rfl
@[simp] theorem State_modLaunch_exportMisses : (s.modLaunch id f).exportMisses = s.exportMisses := rfl
@[simp] theorem State_modLaunch_recvChans : (s.modLaunch id f).recvChans = s.recvChans := rfl
@[simp] theorem State_modLaunch_responses : (s.modLaunch id f).responses = s.responses := rfl
@[simp] theorem State_modLaunch_workChans : (s.modLaunch id f).workChans = s.workChans := rfl
@[simp] theorem State_modLaunch_groups : (s.modLaunch id f).groups = s.groups := rfl
@[simp] theorem State_modLaunch_jobs : (s.modLaunch id f).jobs = s.jobs := rfl
@[simp] theorem State_modLaunch_syscalls : (s.modLaunch id f).syscalls = s.syscalls := rfl
@[simp] theorem State_modLaunch_unitOwner : (s.modLaunch id f).unitOwner = s.unitOwner := rfl
@[simp] theorem State_modLaunch_resizesRefused : (s.modLaunch id f).resizesRefused = s.resizesRefused := rfl
@[simp] theorem State_modLaunch_free : (s.modLaunch id f).free = s.free := rfl
@[simp] theorem State_modLaunch_nextId : (s.modLaunch id f).nextId = s.nextId := rfl
@[simp] theorem State_modLaunch_inputs : (s.modLaunch id f).inputs = s.inputs := rfl
@[simp] theorem State_modLaunch_schedule : (s.modLaunch id f).schedule = s.schedule := rfl
end

/-! `State.bumpId` -/
section
variable (s : State)
@[simp] theorem State_bumpId_pkg : (s.bumpId).pkg = s.pkg := rfl
@[simp] theorem State_bumpId_cycles : (s.bumpId).cycles = s.cycles := rfl
@[simp] theorem State_bumpId_ticks : (s.bumpId).ticks = s.ticks := rfl
@[simp] theorem State_bumpId_boot : (s.bumpId).boot = s.boot := rfl
@[simp] theorem State_bumpId_clockLow : (s.bumpId).clockLow = s.clockLow := rfl
@[simp] theorem State_bumpId_powered : (s.bumpId).powered = s.powered := rfl
@[simp] theorem State_bumpId_mem : (s.bumpId).mem = s.mem := rfl
@[simp] theorem State_bumpId_poison : (s.bumpId).poison = s.poison := rfl
@[simp] theorem State_bumpId_eccLog : (s.bumpId).eccLog = s.eccLog := rfl
@[simp] theorem State_bumpId_extents : (s.bumpId).extents = s.extents := rfl
@[simp] theorem State_bumpId_capsAt : (s.bumpId).capsAt = s.capsAt := rfl
@[simp] theorem State_bumpId_coreCaps : (s.bumpId).coreCaps = s.coreCaps := rfl
@[simp] theorem State_bumpId_l2Lost : (s.bumpId).l2Lost = s.l2Lost := rfl
@[simp] theorem State_bumpId_remapped : (s.bumpId).remapped = s.remapped := rfl
@[simp] theorem State_bumpId_token : (s.bumpId).token = s.token := rfl
@[simp] theorem State_bumpId_planes : (s.bumpId).planes = s.planes := rfl
@[simp] theorem State_bumpId_livePlanes : (s.bumpId).livePlanes = s.livePlanes := rfl
@[simp] theorem State_bumpId_encoders : (s.bumpId).encoders = s.encoders := rfl
@[simp] theorem State_bumpId_sessions : (s.bumpId).sessions = s.sessions := rfl
@[simp] theorem State_bumpId_hostLost : (s.bumpId).hostLost = s.hostLost := rfl
@[simp] theorem State_bumpId_parked : (s.bumpId).parked = s.parked := rfl
@[simp] theorem State_bumpId_hostMapped : (s.bumpId).hostMapped = s.hostMapped := rfl
@[simp] theorem State_bumpId_hostStale : (s.bumpId).hostStale = s.hostStale := rfl
@[simp] theorem State_bumpId_lostAt : (s.bumpId).lostAt = s.lostAt := rfl
@[simp] theorem State_bumpId_mailbox : (s.bumpId).mailbox = s.mailbox := rfl
@[simp] theorem State_bumpId_hostSeen : (s.bumpId).hostSeen = s.hostSeen := rfl
@[simp] theorem State_bumpId_lateWrites : (s.bumpId).lateWrites = s.lateWrites := rfl
@[simp] theorem State_bumpId_attest : (s.bumpId).attest = s.attest := rfl
@[simp] theorem State_bumpId_stoppedJalley : (s.bumpId).stoppedJalley = s.stoppedJalley := rfl
@[simp] theorem State_bumpId_contexts : (s.bumpId).contexts = s.contexts := rfl
@[simp] theorem State_bumpId_partitions : (s.bumpId).partitions = s.partitions := rfl
@[simp] theorem State_bumpId_userQueues : (s.bumpId).userQueues = s.userQueues := rfl
@[simp] theorem State_bumpId_taskQueues : (s.bumpId).taskQueues = s.taskQueues := rfl
@[simp] theorem State_bumpId_launches : (s.bumpId).launches = s.launches := rfl
@[simp] theorem State_bumpId_passed : (s.bumpId).passed = s.passed := rfl
@[simp] theorem State_bumpId_teams : (s.bumpId).teams = s.teams := rfl
@[simp] theorem State_bumpId_crews : (s.bumpId).crews = s.crews := rfl
@[simp] theorem State_bumpId_cur : (s.bumpId).cur = s.cur := rfl
@[simp] theorem State_bumpId_waiting : (s.bumpId).waiting = s.waiting := rfl
@[simp] theorem State_bumpId_ops : (s.bumpId).ops = s.ops := rfl
@[simp] theorem State_bumpId_overtaken : (s.bumpId).overtaken = s.overtaken := rfl
@[simp] theorem State_bumpId_synced : (s.bumpId).synced = s.synced := rfl
@[simp] theorem State_bumpId_l1 : (s.bumpId).l1 = s.l1 := rfl
@[simp] theorem State_bumpId_remoteCache : (s.bumpId).remoteCache = s.remoteCache := rfl
@[simp] theorem State_bumpId_remoteWays : (s.bumpId).remoteWays = s.remoteWays := rfl
@[simp] theorem State_bumpId_hostL2 : (s.bumpId).hostL2 = s.hostL2 := rfl
@[simp] theorem State_bumpId_tlb : (s.bumpId).tlb = s.tlb := rfl
@[simp] theorem State_bumpId_misses : (s.bumpId).misses = s.misses := rfl
@[simp] theorem State_bumpId_refused : (s.bumpId).refused = s.refused := rfl
@[simp] theorem State_bumpId_chans : (s.bumpId).chans = s.chans := rfl
@[simp] theorem State_bumpId_transfers : (s.bumpId).transfers = s.transfers := rfl
@[simp] theorem State_bumpId_savedCopies : (s.bumpId).savedCopies = s.savedCopies := rfl
@[simp] theorem State_bumpId_crumbs : (s.bumpId).crumbs = s.crumbs := rfl
@[simp] theorem State_bumpId_firings : (s.bumpId).firings = s.firings := rfl
@[simp] theorem State_bumpId_redBuf : (s.bumpId).redBuf = s.redBuf := rfl
@[simp] theorem State_bumpId_accs : (s.bumpId).accs = s.accs := rfl
@[simp] theorem State_bumpId_pipes : (s.bumpId).pipes = s.pipes := rfl
@[simp] theorem State_bumpId_migrations : (s.bumpId).migrations = s.migrations := rfl
@[simp] theorem State_bumpId_accessCounts : (s.bumpId).accessCounts = s.accessCounts := rfl
@[simp] theorem State_bumpId_migThreshold : (s.bumpId).migThreshold = s.migThreshold := rfl
@[simp] theorem State_bumpId_rays : (s.bumpId).rays = s.rays := rfl
@[simp] theorem State_bumpId_rayHolds : (s.bumpId).rayHolds = s.rayHolds := rfl
@[simp] theorem State_bumpId_requeues : (s.bumpId).requeues = s.requeues := rfl
@[simp] theorem State_bumpId_formed : (s.bumpId).formed = s.formed := rfl
@[simp] theorem State_bumpId_frozen : (s.bumpId).frozen = s.frozen := rfl
@[simp] theorem State_bumpId_exports : (s.bumpId).exports = s.exports := rfl
@[simp] theorem State_bumpId_exportMisses : (s.bumpId).exportMisses = s.exportMisses := rfl
@[simp] theorem State_bumpId_recvChans : (s.bumpId).recvChans = s.recvChans := rfl
@[simp] theorem State_bumpId_responses : (s.bumpId).responses = s.responses := rfl
@[simp] theorem State_bumpId_workChans : (s.bumpId).workChans = s.workChans := rfl
@[simp] theorem State_bumpId_groups : (s.bumpId).groups = s.groups := rfl
@[simp] theorem State_bumpId_jobs : (s.bumpId).jobs = s.jobs := rfl
@[simp] theorem State_bumpId_syscalls : (s.bumpId).syscalls = s.syscalls := rfl
@[simp] theorem State_bumpId_unitOwner : (s.bumpId).unitOwner = s.unitOwner := rfl
@[simp] theorem State_bumpId_resizesRefused : (s.bumpId).resizesRefused = s.resizesRefused := rfl
@[simp] theorem State_bumpId_free : (s.bumpId).free = s.free := rfl
@[simp] theorem State_bumpId_inputs : (s.bumpId).inputs = s.inputs := rfl
@[simp] theorem State_bumpId_schedule : (s.bumpId).schedule = s.schedule := rfl
end

/-! `State.bumpFree` -/
section
variable (s : State)
@[simp] theorem State_bumpFree_pkg : (s.bumpFree).pkg = s.pkg := rfl
@[simp] theorem State_bumpFree_cycles : (s.bumpFree).cycles = s.cycles := rfl
@[simp] theorem State_bumpFree_ticks : (s.bumpFree).ticks = s.ticks := rfl
@[simp] theorem State_bumpFree_boot : (s.bumpFree).boot = s.boot := rfl
@[simp] theorem State_bumpFree_clockLow : (s.bumpFree).clockLow = s.clockLow := rfl
@[simp] theorem State_bumpFree_powered : (s.bumpFree).powered = s.powered := rfl
@[simp] theorem State_bumpFree_mem : (s.bumpFree).mem = s.mem := rfl
@[simp] theorem State_bumpFree_poison : (s.bumpFree).poison = s.poison := rfl
@[simp] theorem State_bumpFree_eccLog : (s.bumpFree).eccLog = s.eccLog := rfl
@[simp] theorem State_bumpFree_extents : (s.bumpFree).extents = s.extents := rfl
@[simp] theorem State_bumpFree_capsAt : (s.bumpFree).capsAt = s.capsAt := rfl
@[simp] theorem State_bumpFree_coreCaps : (s.bumpFree).coreCaps = s.coreCaps := rfl
@[simp] theorem State_bumpFree_l2Lost : (s.bumpFree).l2Lost = s.l2Lost := rfl
@[simp] theorem State_bumpFree_remapped : (s.bumpFree).remapped = s.remapped := rfl
@[simp] theorem State_bumpFree_token : (s.bumpFree).token = s.token := rfl
@[simp] theorem State_bumpFree_planes : (s.bumpFree).planes = s.planes := rfl
@[simp] theorem State_bumpFree_livePlanes : (s.bumpFree).livePlanes = s.livePlanes := rfl
@[simp] theorem State_bumpFree_encoders : (s.bumpFree).encoders = s.encoders := rfl
@[simp] theorem State_bumpFree_sessions : (s.bumpFree).sessions = s.sessions := rfl
@[simp] theorem State_bumpFree_hostLost : (s.bumpFree).hostLost = s.hostLost := rfl
@[simp] theorem State_bumpFree_parked : (s.bumpFree).parked = s.parked := rfl
@[simp] theorem State_bumpFree_hostMapped : (s.bumpFree).hostMapped = s.hostMapped := rfl
@[simp] theorem State_bumpFree_hostStale : (s.bumpFree).hostStale = s.hostStale := rfl
@[simp] theorem State_bumpFree_lostAt : (s.bumpFree).lostAt = s.lostAt := rfl
@[simp] theorem State_bumpFree_mailbox : (s.bumpFree).mailbox = s.mailbox := rfl
@[simp] theorem State_bumpFree_hostSeen : (s.bumpFree).hostSeen = s.hostSeen := rfl
@[simp] theorem State_bumpFree_lateWrites : (s.bumpFree).lateWrites = s.lateWrites := rfl
@[simp] theorem State_bumpFree_attest : (s.bumpFree).attest = s.attest := rfl
@[simp] theorem State_bumpFree_stoppedJalley : (s.bumpFree).stoppedJalley = s.stoppedJalley := rfl
@[simp] theorem State_bumpFree_contexts : (s.bumpFree).contexts = s.contexts := rfl
@[simp] theorem State_bumpFree_partitions : (s.bumpFree).partitions = s.partitions := rfl
@[simp] theorem State_bumpFree_userQueues : (s.bumpFree).userQueues = s.userQueues := rfl
@[simp] theorem State_bumpFree_taskQueues : (s.bumpFree).taskQueues = s.taskQueues := rfl
@[simp] theorem State_bumpFree_launches : (s.bumpFree).launches = s.launches := rfl
@[simp] theorem State_bumpFree_passed : (s.bumpFree).passed = s.passed := rfl
@[simp] theorem State_bumpFree_teams : (s.bumpFree).teams = s.teams := rfl
@[simp] theorem State_bumpFree_crews : (s.bumpFree).crews = s.crews := rfl
@[simp] theorem State_bumpFree_cur : (s.bumpFree).cur = s.cur := rfl
@[simp] theorem State_bumpFree_waiting : (s.bumpFree).waiting = s.waiting := rfl
@[simp] theorem State_bumpFree_ops : (s.bumpFree).ops = s.ops := rfl
@[simp] theorem State_bumpFree_overtaken : (s.bumpFree).overtaken = s.overtaken := rfl
@[simp] theorem State_bumpFree_synced : (s.bumpFree).synced = s.synced := rfl
@[simp] theorem State_bumpFree_l1 : (s.bumpFree).l1 = s.l1 := rfl
@[simp] theorem State_bumpFree_remoteCache : (s.bumpFree).remoteCache = s.remoteCache := rfl
@[simp] theorem State_bumpFree_remoteWays : (s.bumpFree).remoteWays = s.remoteWays := rfl
@[simp] theorem State_bumpFree_hostL2 : (s.bumpFree).hostL2 = s.hostL2 := rfl
@[simp] theorem State_bumpFree_tlb : (s.bumpFree).tlb = s.tlb := rfl
@[simp] theorem State_bumpFree_misses : (s.bumpFree).misses = s.misses := rfl
@[simp] theorem State_bumpFree_refused : (s.bumpFree).refused = s.refused := rfl
@[simp] theorem State_bumpFree_chans : (s.bumpFree).chans = s.chans := rfl
@[simp] theorem State_bumpFree_transfers : (s.bumpFree).transfers = s.transfers := rfl
@[simp] theorem State_bumpFree_savedCopies : (s.bumpFree).savedCopies = s.savedCopies := rfl
@[simp] theorem State_bumpFree_crumbs : (s.bumpFree).crumbs = s.crumbs := rfl
@[simp] theorem State_bumpFree_firings : (s.bumpFree).firings = s.firings := rfl
@[simp] theorem State_bumpFree_redBuf : (s.bumpFree).redBuf = s.redBuf := rfl
@[simp] theorem State_bumpFree_accs : (s.bumpFree).accs = s.accs := rfl
@[simp] theorem State_bumpFree_pipes : (s.bumpFree).pipes = s.pipes := rfl
@[simp] theorem State_bumpFree_migrations : (s.bumpFree).migrations = s.migrations := rfl
@[simp] theorem State_bumpFree_accessCounts : (s.bumpFree).accessCounts = s.accessCounts := rfl
@[simp] theorem State_bumpFree_migThreshold : (s.bumpFree).migThreshold = s.migThreshold := rfl
@[simp] theorem State_bumpFree_rays : (s.bumpFree).rays = s.rays := rfl
@[simp] theorem State_bumpFree_rayHolds : (s.bumpFree).rayHolds = s.rayHolds := rfl
@[simp] theorem State_bumpFree_requeues : (s.bumpFree).requeues = s.requeues := rfl
@[simp] theorem State_bumpFree_formed : (s.bumpFree).formed = s.formed := rfl
@[simp] theorem State_bumpFree_frozen : (s.bumpFree).frozen = s.frozen := rfl
@[simp] theorem State_bumpFree_exports : (s.bumpFree).exports = s.exports := rfl
@[simp] theorem State_bumpFree_exportMisses : (s.bumpFree).exportMisses = s.exportMisses := rfl
@[simp] theorem State_bumpFree_recvChans : (s.bumpFree).recvChans = s.recvChans := rfl
@[simp] theorem State_bumpFree_responses : (s.bumpFree).responses = s.responses := rfl
@[simp] theorem State_bumpFree_workChans : (s.bumpFree).workChans = s.workChans := rfl
@[simp] theorem State_bumpFree_groups : (s.bumpFree).groups = s.groups := rfl
@[simp] theorem State_bumpFree_jobs : (s.bumpFree).jobs = s.jobs := rfl
@[simp] theorem State_bumpFree_syscalls : (s.bumpFree).syscalls = s.syscalls := rfl
@[simp] theorem State_bumpFree_unitOwner : (s.bumpFree).unitOwner = s.unitOwner := rfl
@[simp] theorem State_bumpFree_resizesRefused : (s.bumpFree).resizesRefused = s.resizesRefused := rfl
@[simp] theorem State_bumpFree_nextId : (s.bumpFree).nextId = s.nextId := rfl
@[simp] theorem State_bumpFree_inputs : (s.bumpFree).inputs = s.inputs := rfl
@[simp] theorem State_bumpFree_schedule : (s.bumpFree).schedule = s.schedule := rfl
end

/-! `State.took` -/
section
variable (s : State) (r : List Input)
@[simp] theorem State_took_pkg : (s.took r).pkg = s.pkg := rfl
@[simp] theorem State_took_cycles : (s.took r).cycles = s.cycles := rfl
@[simp] theorem State_took_ticks : (s.took r).ticks = s.ticks := rfl
@[simp] theorem State_took_boot : (s.took r).boot = s.boot := rfl
@[simp] theorem State_took_clockLow : (s.took r).clockLow = s.clockLow := rfl
@[simp] theorem State_took_powered : (s.took r).powered = s.powered := rfl
@[simp] theorem State_took_mem : (s.took r).mem = s.mem := rfl
@[simp] theorem State_took_poison : (s.took r).poison = s.poison := rfl
@[simp] theorem State_took_eccLog : (s.took r).eccLog = s.eccLog := rfl
@[simp] theorem State_took_extents : (s.took r).extents = s.extents := rfl
@[simp] theorem State_took_capsAt : (s.took r).capsAt = s.capsAt := rfl
@[simp] theorem State_took_coreCaps : (s.took r).coreCaps = s.coreCaps := rfl
@[simp] theorem State_took_l2Lost : (s.took r).l2Lost = s.l2Lost := rfl
@[simp] theorem State_took_remapped : (s.took r).remapped = s.remapped := rfl
@[simp] theorem State_took_token : (s.took r).token = s.token := rfl
@[simp] theorem State_took_planes : (s.took r).planes = s.planes := rfl
@[simp] theorem State_took_livePlanes : (s.took r).livePlanes = s.livePlanes := rfl
@[simp] theorem State_took_encoders : (s.took r).encoders = s.encoders := rfl
@[simp] theorem State_took_sessions : (s.took r).sessions = s.sessions := rfl
@[simp] theorem State_took_hostLost : (s.took r).hostLost = s.hostLost := rfl
@[simp] theorem State_took_parked : (s.took r).parked = s.parked := rfl
@[simp] theorem State_took_hostMapped : (s.took r).hostMapped = s.hostMapped := rfl
@[simp] theorem State_took_hostStale : (s.took r).hostStale = s.hostStale := rfl
@[simp] theorem State_took_lostAt : (s.took r).lostAt = s.lostAt := rfl
@[simp] theorem State_took_mailbox : (s.took r).mailbox = s.mailbox := rfl
@[simp] theorem State_took_hostSeen : (s.took r).hostSeen = s.hostSeen := rfl
@[simp] theorem State_took_lateWrites : (s.took r).lateWrites = s.lateWrites := rfl
@[simp] theorem State_took_attest : (s.took r).attest = s.attest := rfl
@[simp] theorem State_took_stoppedJalley : (s.took r).stoppedJalley = s.stoppedJalley := rfl
@[simp] theorem State_took_contexts : (s.took r).contexts = s.contexts := rfl
@[simp] theorem State_took_partitions : (s.took r).partitions = s.partitions := rfl
@[simp] theorem State_took_userQueues : (s.took r).userQueues = s.userQueues := rfl
@[simp] theorem State_took_taskQueues : (s.took r).taskQueues = s.taskQueues := rfl
@[simp] theorem State_took_launches : (s.took r).launches = s.launches := rfl
@[simp] theorem State_took_passed : (s.took r).passed = s.passed := rfl
@[simp] theorem State_took_teams : (s.took r).teams = s.teams := rfl
@[simp] theorem State_took_crews : (s.took r).crews = s.crews := rfl
@[simp] theorem State_took_cur : (s.took r).cur = s.cur := rfl
@[simp] theorem State_took_waiting : (s.took r).waiting = s.waiting := rfl
@[simp] theorem State_took_ops : (s.took r).ops = s.ops := rfl
@[simp] theorem State_took_overtaken : (s.took r).overtaken = s.overtaken := rfl
@[simp] theorem State_took_synced : (s.took r).synced = s.synced := rfl
@[simp] theorem State_took_l1 : (s.took r).l1 = s.l1 := rfl
@[simp] theorem State_took_remoteCache : (s.took r).remoteCache = s.remoteCache := rfl
@[simp] theorem State_took_remoteWays : (s.took r).remoteWays = s.remoteWays := rfl
@[simp] theorem State_took_hostL2 : (s.took r).hostL2 = s.hostL2 := rfl
@[simp] theorem State_took_tlb : (s.took r).tlb = s.tlb := rfl
@[simp] theorem State_took_misses : (s.took r).misses = s.misses := rfl
@[simp] theorem State_took_refused : (s.took r).refused = s.refused := rfl
@[simp] theorem State_took_chans : (s.took r).chans = s.chans := rfl
@[simp] theorem State_took_transfers : (s.took r).transfers = s.transfers := rfl
@[simp] theorem State_took_savedCopies : (s.took r).savedCopies = s.savedCopies := rfl
@[simp] theorem State_took_crumbs : (s.took r).crumbs = s.crumbs := rfl
@[simp] theorem State_took_firings : (s.took r).firings = s.firings := rfl
@[simp] theorem State_took_redBuf : (s.took r).redBuf = s.redBuf := rfl
@[simp] theorem State_took_accs : (s.took r).accs = s.accs := rfl
@[simp] theorem State_took_pipes : (s.took r).pipes = s.pipes := rfl
@[simp] theorem State_took_migrations : (s.took r).migrations = s.migrations := rfl
@[simp] theorem State_took_accessCounts : (s.took r).accessCounts = s.accessCounts := rfl
@[simp] theorem State_took_migThreshold : (s.took r).migThreshold = s.migThreshold := rfl
@[simp] theorem State_took_rays : (s.took r).rays = s.rays := rfl
@[simp] theorem State_took_rayHolds : (s.took r).rayHolds = s.rayHolds := rfl
@[simp] theorem State_took_requeues : (s.took r).requeues = s.requeues := rfl
@[simp] theorem State_took_formed : (s.took r).formed = s.formed := rfl
@[simp] theorem State_took_frozen : (s.took r).frozen = s.frozen := rfl
@[simp] theorem State_took_exports : (s.took r).exports = s.exports := rfl
@[simp] theorem State_took_exportMisses : (s.took r).exportMisses = s.exportMisses := rfl
@[simp] theorem State_took_recvChans : (s.took r).recvChans = s.recvChans := rfl
@[simp] theorem State_took_responses : (s.took r).responses = s.responses := rfl
@[simp] theorem State_took_workChans : (s.took r).workChans = s.workChans := rfl
@[simp] theorem State_took_groups : (s.took r).groups = s.groups := rfl
@[simp] theorem State_took_jobs : (s.took r).jobs = s.jobs := rfl
@[simp] theorem State_took_syscalls : (s.took r).syscalls = s.syscalls := rfl
@[simp] theorem State_took_unitOwner : (s.took r).unitOwner = s.unitOwner := rfl
@[simp] theorem State_took_resizesRefused : (s.took r).resizesRefused = s.resizesRefused := rfl
@[simp] theorem State_took_free : (s.took r).free = s.free := rfl
@[simp] theorem State_took_nextId : (s.took r).nextId = s.nextId := rfl
@[simp] theorem State_took_schedule : (s.took r).schedule = s.schedule := rfl
end

/-! `State.passTime` -/
section
variable (s : State)
@[simp] theorem State_passTime_pkg : (s.passTime).pkg = s.pkg := rfl
@[simp] theorem State_passTime_boot : (s.passTime).boot = s.boot := rfl
@[simp] theorem State_passTime_clockLow : (s.passTime).clockLow = s.clockLow := rfl
@[simp] theorem State_passTime_powered : (s.passTime).powered = s.powered := rfl
@[simp] theorem State_passTime_mem : (s.passTime).mem = s.mem := rfl
@[simp] theorem State_passTime_poison : (s.passTime).poison = s.poison := rfl
@[simp] theorem State_passTime_eccLog : (s.passTime).eccLog = s.eccLog := rfl
@[simp] theorem State_passTime_extents : (s.passTime).extents = s.extents := rfl
@[simp] theorem State_passTime_capsAt : (s.passTime).capsAt = s.capsAt := rfl
@[simp] theorem State_passTime_coreCaps : (s.passTime).coreCaps = s.coreCaps := rfl
@[simp] theorem State_passTime_l2Lost : (s.passTime).l2Lost = s.l2Lost := rfl
@[simp] theorem State_passTime_remapped : (s.passTime).remapped = s.remapped := rfl
@[simp] theorem State_passTime_token : (s.passTime).token = s.token := rfl
@[simp] theorem State_passTime_planes : (s.passTime).planes = s.planes := rfl
@[simp] theorem State_passTime_livePlanes : (s.passTime).livePlanes = s.livePlanes := rfl
@[simp] theorem State_passTime_encoders : (s.passTime).encoders = s.encoders := rfl
@[simp] theorem State_passTime_sessions : (s.passTime).sessions = s.sessions := rfl
@[simp] theorem State_passTime_hostLost : (s.passTime).hostLost = s.hostLost := rfl
@[simp] theorem State_passTime_parked : (s.passTime).parked = s.parked := rfl
@[simp] theorem State_passTime_hostMapped : (s.passTime).hostMapped = s.hostMapped := rfl
@[simp] theorem State_passTime_hostStale : (s.passTime).hostStale = s.hostStale := rfl
@[simp] theorem State_passTime_lostAt : (s.passTime).lostAt = s.lostAt := rfl
@[simp] theorem State_passTime_mailbox : (s.passTime).mailbox = s.mailbox := rfl
@[simp] theorem State_passTime_hostSeen : (s.passTime).hostSeen = s.hostSeen := rfl
@[simp] theorem State_passTime_lateWrites : (s.passTime).lateWrites = s.lateWrites := rfl
@[simp] theorem State_passTime_attest : (s.passTime).attest = s.attest := rfl
@[simp] theorem State_passTime_stoppedJalley : (s.passTime).stoppedJalley = s.stoppedJalley := rfl
@[simp] theorem State_passTime_contexts : (s.passTime).contexts = s.contexts := rfl
@[simp] theorem State_passTime_partitions : (s.passTime).partitions = s.partitions := rfl
@[simp] theorem State_passTime_userQueues : (s.passTime).userQueues = s.userQueues := rfl
@[simp] theorem State_passTime_taskQueues : (s.passTime).taskQueues = s.taskQueues := rfl
@[simp] theorem State_passTime_launches : (s.passTime).launches = s.launches := rfl
@[simp] theorem State_passTime_passed : (s.passTime).passed = s.passed := rfl
@[simp] theorem State_passTime_teams : (s.passTime).teams = s.teams := rfl
@[simp] theorem State_passTime_crews : (s.passTime).crews = s.crews := rfl
@[simp] theorem State_passTime_cur : (s.passTime).cur = s.cur := rfl
@[simp] theorem State_passTime_waiting : (s.passTime).waiting = s.waiting := rfl
@[simp] theorem State_passTime_ops : (s.passTime).ops = s.ops := rfl
@[simp] theorem State_passTime_overtaken : (s.passTime).overtaken = s.overtaken := rfl
@[simp] theorem State_passTime_synced : (s.passTime).synced = s.synced := rfl
@[simp] theorem State_passTime_l1 : (s.passTime).l1 = s.l1 := rfl
@[simp] theorem State_passTime_remoteCache : (s.passTime).remoteCache = s.remoteCache := rfl
@[simp] theorem State_passTime_remoteWays : (s.passTime).remoteWays = s.remoteWays := rfl
@[simp] theorem State_passTime_hostL2 : (s.passTime).hostL2 = s.hostL2 := rfl
@[simp] theorem State_passTime_tlb : (s.passTime).tlb = s.tlb := rfl
@[simp] theorem State_passTime_misses : (s.passTime).misses = s.misses := rfl
@[simp] theorem State_passTime_refused : (s.passTime).refused = s.refused := rfl
@[simp] theorem State_passTime_chans : (s.passTime).chans = s.chans := rfl
@[simp] theorem State_passTime_transfers : (s.passTime).transfers = s.transfers := rfl
@[simp] theorem State_passTime_savedCopies : (s.passTime).savedCopies = s.savedCopies := rfl
@[simp] theorem State_passTime_crumbs : (s.passTime).crumbs = s.crumbs := rfl
@[simp] theorem State_passTime_firings : (s.passTime).firings = s.firings := rfl
@[simp] theorem State_passTime_redBuf : (s.passTime).redBuf = s.redBuf := rfl
@[simp] theorem State_passTime_accs : (s.passTime).accs = s.accs := rfl
@[simp] theorem State_passTime_pipes : (s.passTime).pipes = s.pipes := rfl
@[simp] theorem State_passTime_migrations : (s.passTime).migrations = s.migrations := rfl
@[simp] theorem State_passTime_accessCounts : (s.passTime).accessCounts = s.accessCounts := rfl
@[simp] theorem State_passTime_migThreshold : (s.passTime).migThreshold = s.migThreshold := rfl
@[simp] theorem State_passTime_rays : (s.passTime).rays = s.rays := rfl
@[simp] theorem State_passTime_rayHolds : (s.passTime).rayHolds = s.rayHolds := rfl
@[simp] theorem State_passTime_requeues : (s.passTime).requeues = s.requeues := rfl
@[simp] theorem State_passTime_formed : (s.passTime).formed = s.formed := rfl
@[simp] theorem State_passTime_frozen : (s.passTime).frozen = s.frozen := rfl
@[simp] theorem State_passTime_exports : (s.passTime).exports = s.exports := rfl
@[simp] theorem State_passTime_exportMisses : (s.passTime).exportMisses = s.exportMisses := rfl
@[simp] theorem State_passTime_recvChans : (s.passTime).recvChans = s.recvChans := rfl
@[simp] theorem State_passTime_responses : (s.passTime).responses = s.responses := rfl
@[simp] theorem State_passTime_workChans : (s.passTime).workChans = s.workChans := rfl
@[simp] theorem State_passTime_groups : (s.passTime).groups = s.groups := rfl
@[simp] theorem State_passTime_jobs : (s.passTime).jobs = s.jobs := rfl
@[simp] theorem State_passTime_syscalls : (s.passTime).syscalls = s.syscalls := rfl
@[simp] theorem State_passTime_unitOwner : (s.passTime).unitOwner = s.unitOwner := rfl
@[simp] theorem State_passTime_resizesRefused : (s.passTime).resizesRefused = s.resizesRefused := rfl
@[simp] theorem State_passTime_free : (s.passTime).free = s.free := rfl
@[simp] theorem State_passTime_nextId : (s.passTime).nextId = s.nextId := rfl
@[simp] theorem State_passTime_inputs : (s.passTime).inputs = s.inputs := rfl
@[simp] theorem State_passTime_schedule : (s.passTime).schedule = s.schedule := rfl
end

/-! `State.endRun` -/
section
variable (s : State) (i : Issue) (l : List Nat)
@[simp] theorem State_endRun_pkg : (s.endRun i l).pkg = s.pkg := rfl
@[simp] theorem State_endRun_cycles : (s.endRun i l).cycles = s.cycles := rfl
@[simp] theorem State_endRun_ticks : (s.endRun i l).ticks = s.ticks := rfl
@[simp] theorem State_endRun_boot : (s.endRun i l).boot = s.boot := rfl
@[simp] theorem State_endRun_clockLow : (s.endRun i l).clockLow = s.clockLow := rfl
@[simp] theorem State_endRun_powered : (s.endRun i l).powered = s.powered := rfl
@[simp] theorem State_endRun_mem : (s.endRun i l).mem = s.mem := rfl
@[simp] theorem State_endRun_poison : (s.endRun i l).poison = s.poison := rfl
@[simp] theorem State_endRun_eccLog : (s.endRun i l).eccLog = s.eccLog := rfl
@[simp] theorem State_endRun_extents : (s.endRun i l).extents = s.extents := rfl
@[simp] theorem State_endRun_capsAt : (s.endRun i l).capsAt = s.capsAt := rfl
@[simp] theorem State_endRun_coreCaps : (s.endRun i l).coreCaps = s.coreCaps := rfl
@[simp] theorem State_endRun_l2Lost : (s.endRun i l).l2Lost = s.l2Lost := rfl
@[simp] theorem State_endRun_remapped : (s.endRun i l).remapped = s.remapped := rfl
@[simp] theorem State_endRun_token : (s.endRun i l).token = s.token := rfl
@[simp] theorem State_endRun_planes : (s.endRun i l).planes = s.planes := rfl
@[simp] theorem State_endRun_livePlanes : (s.endRun i l).livePlanes = s.livePlanes := rfl
@[simp] theorem State_endRun_encoders : (s.endRun i l).encoders = s.encoders := rfl
@[simp] theorem State_endRun_sessions : (s.endRun i l).sessions = s.sessions := rfl
@[simp] theorem State_endRun_hostLost : (s.endRun i l).hostLost = s.hostLost := rfl
@[simp] theorem State_endRun_parked : (s.endRun i l).parked = s.parked := rfl
@[simp] theorem State_endRun_hostMapped : (s.endRun i l).hostMapped = s.hostMapped := rfl
@[simp] theorem State_endRun_hostStale : (s.endRun i l).hostStale = s.hostStale := rfl
@[simp] theorem State_endRun_lostAt : (s.endRun i l).lostAt = s.lostAt := rfl
@[simp] theorem State_endRun_mailbox : (s.endRun i l).mailbox = s.mailbox := rfl
@[simp] theorem State_endRun_hostSeen : (s.endRun i l).hostSeen = s.hostSeen := rfl
@[simp] theorem State_endRun_lateWrites : (s.endRun i l).lateWrites = s.lateWrites := rfl
@[simp] theorem State_endRun_attest : (s.endRun i l).attest = s.attest := rfl
@[simp] theorem State_endRun_stoppedJalley : (s.endRun i l).stoppedJalley = s.stoppedJalley := rfl
@[simp] theorem State_endRun_contexts : (s.endRun i l).contexts = s.contexts := rfl
@[simp] theorem State_endRun_partitions : (s.endRun i l).partitions = s.partitions := rfl
@[simp] theorem State_endRun_userQueues : (s.endRun i l).userQueues = s.userQueues := rfl
@[simp] theorem State_endRun_taskQueues : (s.endRun i l).taskQueues = s.taskQueues := rfl
@[simp] theorem State_endRun_launches : (s.endRun i l).launches = s.launches := rfl
@[simp] theorem State_endRun_passed : (s.endRun i l).passed = s.passed := rfl
@[simp] theorem State_endRun_teams : (s.endRun i l).teams = s.teams := rfl
@[simp] theorem State_endRun_waiting : (s.endRun i l).waiting = s.waiting := rfl
@[simp] theorem State_endRun_ops : (s.endRun i l).ops = s.ops := rfl
@[simp] theorem State_endRun_overtaken : (s.endRun i l).overtaken = s.overtaken := rfl
@[simp] theorem State_endRun_synced : (s.endRun i l).synced = s.synced := rfl
@[simp] theorem State_endRun_l1 : (s.endRun i l).l1 = s.l1 := rfl
@[simp] theorem State_endRun_remoteCache : (s.endRun i l).remoteCache = s.remoteCache := rfl
@[simp] theorem State_endRun_remoteWays : (s.endRun i l).remoteWays = s.remoteWays := rfl
@[simp] theorem State_endRun_hostL2 : (s.endRun i l).hostL2 = s.hostL2 := rfl
@[simp] theorem State_endRun_tlb : (s.endRun i l).tlb = s.tlb := rfl
@[simp] theorem State_endRun_misses : (s.endRun i l).misses = s.misses := rfl
@[simp] theorem State_endRun_refused : (s.endRun i l).refused = s.refused := rfl
@[simp] theorem State_endRun_chans : (s.endRun i l).chans = s.chans := rfl
@[simp] theorem State_endRun_transfers : (s.endRun i l).transfers = s.transfers := rfl
@[simp] theorem State_endRun_savedCopies : (s.endRun i l).savedCopies = s.savedCopies := rfl
@[simp] theorem State_endRun_crumbs : (s.endRun i l).crumbs = s.crumbs := rfl
@[simp] theorem State_endRun_firings : (s.endRun i l).firings = s.firings := rfl
@[simp] theorem State_endRun_redBuf : (s.endRun i l).redBuf = s.redBuf := rfl
@[simp] theorem State_endRun_accs : (s.endRun i l).accs = s.accs := rfl
@[simp] theorem State_endRun_pipes : (s.endRun i l).pipes = s.pipes := rfl
@[simp] theorem State_endRun_migrations : (s.endRun i l).migrations = s.migrations := rfl
@[simp] theorem State_endRun_accessCounts : (s.endRun i l).accessCounts = s.accessCounts := rfl
@[simp] theorem State_endRun_migThreshold : (s.endRun i l).migThreshold = s.migThreshold := rfl
@[simp] theorem State_endRun_rays : (s.endRun i l).rays = s.rays := rfl
@[simp] theorem State_endRun_rayHolds : (s.endRun i l).rayHolds = s.rayHolds := rfl
@[simp] theorem State_endRun_requeues : (s.endRun i l).requeues = s.requeues := rfl
@[simp] theorem State_endRun_formed : (s.endRun i l).formed = s.formed := rfl
@[simp] theorem State_endRun_frozen : (s.endRun i l).frozen = s.frozen := rfl
@[simp] theorem State_endRun_exports : (s.endRun i l).exports = s.exports := rfl
@[simp] theorem State_endRun_exportMisses : (s.endRun i l).exportMisses = s.exportMisses := rfl
@[simp] theorem State_endRun_recvChans : (s.endRun i l).recvChans = s.recvChans := rfl
@[simp] theorem State_endRun_responses : (s.endRun i l).responses = s.responses := rfl
@[simp] theorem State_endRun_workChans : (s.endRun i l).workChans = s.workChans := rfl
@[simp] theorem State_endRun_groups : (s.endRun i l).groups = s.groups := rfl
@[simp] theorem State_endRun_jobs : (s.endRun i l).jobs = s.jobs := rfl
@[simp] theorem State_endRun_syscalls : (s.endRun i l).syscalls = s.syscalls := rfl
@[simp] theorem State_endRun_unitOwner : (s.endRun i l).unitOwner = s.unitOwner := rfl
@[simp] theorem State_endRun_resizesRefused : (s.endRun i l).resizesRefused = s.resizesRefused := rfl
@[simp] theorem State_endRun_free : (s.endRun i l).free = s.free := rfl
@[simp] theorem State_endRun_nextId : (s.endRun i l).nextId = s.nextId := rfl
@[simp] theorem State_endRun_inputs : (s.endRun i l).inputs = s.inputs := rfl
@[simp] theorem State_endRun_schedule : (s.endRun i l).schedule = s.schedule := rfl
end

/-! `State.overwrite` -/
section
variable (s : State) (i : Issue) (x l : List Nat)
@[simp] theorem State_overwrite_pkg : (s.overwrite i x l).pkg = s.pkg := rfl
@[simp] theorem State_overwrite_cycles : (s.overwrite i x l).cycles = s.cycles := rfl
@[simp] theorem State_overwrite_ticks : (s.overwrite i x l).ticks = s.ticks := rfl
@[simp] theorem State_overwrite_boot : (s.overwrite i x l).boot = s.boot := rfl
@[simp] theorem State_overwrite_clockLow : (s.overwrite i x l).clockLow = s.clockLow := rfl
@[simp] theorem State_overwrite_powered : (s.overwrite i x l).powered = s.powered := rfl
@[simp] theorem State_overwrite_mem : (s.overwrite i x l).mem = s.mem := rfl
@[simp] theorem State_overwrite_poison : (s.overwrite i x l).poison = s.poison := rfl
@[simp] theorem State_overwrite_eccLog : (s.overwrite i x l).eccLog = s.eccLog := rfl
@[simp] theorem State_overwrite_extents : (s.overwrite i x l).extents = s.extents := rfl
@[simp] theorem State_overwrite_capsAt : (s.overwrite i x l).capsAt = s.capsAt := rfl
@[simp] theorem State_overwrite_coreCaps : (s.overwrite i x l).coreCaps = s.coreCaps := rfl
@[simp] theorem State_overwrite_l2Lost : (s.overwrite i x l).l2Lost = s.l2Lost := rfl
@[simp] theorem State_overwrite_remapped : (s.overwrite i x l).remapped = s.remapped := rfl
@[simp] theorem State_overwrite_token : (s.overwrite i x l).token = s.token := rfl
@[simp] theorem State_overwrite_planes : (s.overwrite i x l).planes = s.planes := rfl
@[simp] theorem State_overwrite_livePlanes : (s.overwrite i x l).livePlanes = s.livePlanes := rfl
@[simp] theorem State_overwrite_encoders : (s.overwrite i x l).encoders = s.encoders := rfl
@[simp] theorem State_overwrite_sessions : (s.overwrite i x l).sessions = s.sessions := rfl
@[simp] theorem State_overwrite_hostLost : (s.overwrite i x l).hostLost = s.hostLost := rfl
@[simp] theorem State_overwrite_parked : (s.overwrite i x l).parked = s.parked := rfl
@[simp] theorem State_overwrite_hostMapped : (s.overwrite i x l).hostMapped = s.hostMapped := rfl
@[simp] theorem State_overwrite_hostStale : (s.overwrite i x l).hostStale = s.hostStale := rfl
@[simp] theorem State_overwrite_lostAt : (s.overwrite i x l).lostAt = s.lostAt := rfl
@[simp] theorem State_overwrite_mailbox : (s.overwrite i x l).mailbox = s.mailbox := rfl
@[simp] theorem State_overwrite_hostSeen : (s.overwrite i x l).hostSeen = s.hostSeen := rfl
@[simp] theorem State_overwrite_lateWrites : (s.overwrite i x l).lateWrites = s.lateWrites := rfl
@[simp] theorem State_overwrite_attest : (s.overwrite i x l).attest = s.attest := rfl
@[simp] theorem State_overwrite_stoppedJalley : (s.overwrite i x l).stoppedJalley = s.stoppedJalley := rfl
@[simp] theorem State_overwrite_contexts : (s.overwrite i x l).contexts = s.contexts := rfl
@[simp] theorem State_overwrite_partitions : (s.overwrite i x l).partitions = s.partitions := rfl
@[simp] theorem State_overwrite_userQueues : (s.overwrite i x l).userQueues = s.userQueues := rfl
@[simp] theorem State_overwrite_taskQueues : (s.overwrite i x l).taskQueues = s.taskQueues := rfl
@[simp] theorem State_overwrite_launches : (s.overwrite i x l).launches = s.launches := rfl
@[simp] theorem State_overwrite_passed : (s.overwrite i x l).passed = s.passed := rfl
@[simp] theorem State_overwrite_teams : (s.overwrite i x l).teams = s.teams := rfl
@[simp] theorem State_overwrite_crews : (s.overwrite i x l).crews = s.crews := rfl
@[simp] theorem State_overwrite_cur : (s.overwrite i x l).cur = s.cur := rfl
@[simp] theorem State_overwrite_waiting : (s.overwrite i x l).waiting = s.waiting := rfl
@[simp] theorem State_overwrite_overtaken : (s.overwrite i x l).overtaken = s.overtaken := rfl
@[simp] theorem State_overwrite_synced : (s.overwrite i x l).synced = s.synced := rfl
@[simp] theorem State_overwrite_l1 : (s.overwrite i x l).l1 = s.l1 := rfl
@[simp] theorem State_overwrite_remoteCache : (s.overwrite i x l).remoteCache = s.remoteCache := rfl
@[simp] theorem State_overwrite_remoteWays : (s.overwrite i x l).remoteWays = s.remoteWays := rfl
@[simp] theorem State_overwrite_hostL2 : (s.overwrite i x l).hostL2 = s.hostL2 := rfl
@[simp] theorem State_overwrite_tlb : (s.overwrite i x l).tlb = s.tlb := rfl
@[simp] theorem State_overwrite_misses : (s.overwrite i x l).misses = s.misses := rfl
@[simp] theorem State_overwrite_refused : (s.overwrite i x l).refused = s.refused := rfl
@[simp] theorem State_overwrite_chans : (s.overwrite i x l).chans = s.chans := rfl
@[simp] theorem State_overwrite_transfers : (s.overwrite i x l).transfers = s.transfers := rfl
@[simp] theorem State_overwrite_savedCopies : (s.overwrite i x l).savedCopies = s.savedCopies := rfl
@[simp] theorem State_overwrite_crumbs : (s.overwrite i x l).crumbs = s.crumbs := rfl
@[simp] theorem State_overwrite_firings : (s.overwrite i x l).firings = s.firings := rfl
@[simp] theorem State_overwrite_redBuf : (s.overwrite i x l).redBuf = s.redBuf := rfl
@[simp] theorem State_overwrite_accs : (s.overwrite i x l).accs = s.accs := rfl
@[simp] theorem State_overwrite_pipes : (s.overwrite i x l).pipes = s.pipes := rfl
@[simp] theorem State_overwrite_migrations : (s.overwrite i x l).migrations = s.migrations := rfl
@[simp] theorem State_overwrite_accessCounts : (s.overwrite i x l).accessCounts = s.accessCounts := rfl
@[simp] theorem State_overwrite_migThreshold : (s.overwrite i x l).migThreshold = s.migThreshold := rfl
@[simp] theorem State_overwrite_rays : (s.overwrite i x l).rays = s.rays := rfl
@[simp] theorem State_overwrite_rayHolds : (s.overwrite i x l).rayHolds = s.rayHolds := rfl
@[simp] theorem State_overwrite_requeues : (s.overwrite i x l).requeues = s.requeues := rfl
@[simp] theorem State_overwrite_formed : (s.overwrite i x l).formed = s.formed := rfl
@[simp] theorem State_overwrite_frozen : (s.overwrite i x l).frozen = s.frozen := rfl
@[simp] theorem State_overwrite_exports : (s.overwrite i x l).exports = s.exports := rfl
@[simp] theorem State_overwrite_exportMisses : (s.overwrite i x l).exportMisses = s.exportMisses := rfl
@[simp] theorem State_overwrite_recvChans : (s.overwrite i x l).recvChans = s.recvChans := rfl
@[simp] theorem State_overwrite_responses : (s.overwrite i x l).responses = s.responses := rfl
@[simp] theorem State_overwrite_workChans : (s.overwrite i x l).workChans = s.workChans := rfl
@[simp] theorem State_overwrite_groups : (s.overwrite i x l).groups = s.groups := rfl
@[simp] theorem State_overwrite_jobs : (s.overwrite i x l).jobs = s.jobs := rfl
@[simp] theorem State_overwrite_syscalls : (s.overwrite i x l).syscalls = s.syscalls := rfl
@[simp] theorem State_overwrite_unitOwner : (s.overwrite i x l).unitOwner = s.unitOwner := rfl
@[simp] theorem State_overwrite_resizesRefused : (s.overwrite i x l).resizesRefused = s.resizesRefused := rfl
@[simp] theorem State_overwrite_free : (s.overwrite i x l).free = s.free := rfl
@[simp] theorem State_overwrite_nextId : (s.overwrite i x l).nextId = s.nextId := rfl
@[simp] theorem State_overwrite_inputs : (s.overwrite i x l).inputs = s.inputs := rfl
@[simp] theorem State_overwrite_schedule : (s.overwrite i x l).schedule = s.schedule := rfl
end

/-! `Crew.modFib` -/
section
variable (c : Crew) (k : Nat) (f : Fibre → Fibre)
@[simp] theorem Crew_modFib_id : (c.modFib k f).id = c.id := rfl
@[simp] theorem Crew_modFib_ctx : (c.modFib k f).ctx = c.ctx := rfl
@[simp] theorem Crew_modFib_launch : (c.modFib k f).launch = c.launch := rfl
@[simp] theorem Crew_modFib_team : (c.modFib k f).team = c.team := rfl
@[simp] theorem Crew_modFib_kind : (c.modFib k f).kind = c.kind := rfl
@[simp] theorem Crew_modFib_life : (c.modFib k f).life = c.life := rfl
@[simp] theorem Crew_modFib_core : (c.modFib k f).core = c.core := rfl
@[simp] theorem Crew_modFib_lane : (c.modFib k f).lane = c.lane := rfl
@[simp] theorem Crew_modFib_index : (c.modFib k f).index = c.index := rfl
@[simp] theorem Crew_modFib_teamIndex : (c.modFib k f).teamIndex = c.teamIndex := rfl
@[simp] theorem Crew_modFib_teamPos : (c.modFib k f).teamPos = c.teamPos := rfl
@[simp] theorem Crew_modFib_teamSize : (c.modFib k f).teamSize = c.teamSize := rfl
@[simp] theorem Crew_modFib_gridSize : (c.modFib k f).gridSize = c.gridSize := rfl
@[simp] theorem Crew_modFib_args : (c.modFib k f).args = c.args := rfl
@[simp] theorem Crew_modFib_size : (c.modFib k f).size = c.size := rfl
@[simp] theorem Crew_modFib_grows : (c.modFib k f).grows = c.grows := rfl
@[simp] theorem Crew_modFib_feeds : (c.modFib k f).feeds = c.feeds := rfl
@[simp] theorem Crew_modFib_prio : (c.modFib k f).prio = c.prio := rfl
@[simp] theorem Crew_modFib_converged : (c.modFib k f).converged = c.converged := rfl
@[simp] theorem Crew_modFib_regs : (c.modFib k f).regs = c.regs := rfl
@[simp] theorem Crew_modFib_rows : (c.modFib k f).rows = c.rows := rfl
@[simp] theorem Crew_modFib_scratchSize : (c.modFib k f).scratchSize = c.scratchSize := rfl
@[simp] theorem Crew_modFib_scratch : (c.modFib k f).scratch = c.scratch := rfl
@[simp] theorem Crew_modFib_tiles : (c.modFib k f).tiles = c.tiles := rfl
@[simp] theorem Crew_modFib_nstatus : (c.modFib k f).nstatus = c.nstatus := rfl
@[simp] theorem Crew_modFib_uiVec : (c.modFib k f).uiVec = c.uiVec := rfl
@[simp] theorem Crew_modFib_uiMasked : (c.modFib k f).uiMasked = c.uiMasked := rfl
@[simp] theorem Crew_modFib_barPhase : (c.modFib k f).barPhase = c.barPhase := rfl
@[simp] theorem Crew_modFib_chans : (c.modFib k f).chans = c.chans := rfl
@[simp] theorem Crew_modFib_area : (c.modFib k f).area = c.area := rfl
@[simp] theorem Crew_modFib_image : (c.modFib k f).image = c.image := rfl
end

/-! `Fibre.flag` -/
section
variable (f : Fibre) (n : Nat)
@[simp] theorem Fibre_flag_live : (f.flag n).live = f.live := rfl
@[simp] theorem Fibre_flag_st : (f.flag n).st = f.st := rfl
@[simp] theorem Fibre_flag_pc : (f.flag n).pc = f.pc := rfl
@[simp] theorem Fibre_flag_regPc : (f.flag n).regPc = f.regPc := rfl
@[simp] theorem Fibre_flag_mark : (f.flag n).mark = f.mark := rfl
@[simp] theorem Fibre_flag_preds : (f.flag n).preds = f.preds := rfl
@[simp] theorem Fibre_flag_trapCause : (f.flag n).trapCause = f.trapCause := rfl
@[simp] theorem Fibre_flag_trapPc : (f.flag n).trapPc = f.trapPc := rfl
@[simp] theorem Fibre_flag_trapAddr : (f.flag n).trapAddr = f.trapAddr := rfl
@[simp] theorem Fibre_flag_trapMode : (f.flag n).trapMode = f.trapMode := rfl
@[simp] theorem Fibre_flag_txCause : (f.flag n).txCause = f.txCause := rfl
@[simp] theorem Fibre_flag_abortCount : (f.flag n).abortCount = f.abortCount := rfl
@[simp] theorem Fibre_flag_tx : (f.flag n).tx = f.tx := rfl
@[simp] theorem Fibre_flag_uiRpc : (f.flag n).uiRpc = f.uiRpc := rfl
@[simp] theorem Fibre_flag_uiCause : (f.flag n).uiCause = f.uiCause := rfl
@[simp] theorem Fibre_flag_uiAct : (f.flag n).uiAct = f.uiAct := rfl
@[simp] theorem Fibre_flag_uiPend : (f.flag n).uiPend = f.uiPend := rfl
@[simp] theorem Fibre_flag_clockHi : (f.flag n).clockHi = f.clockHi := rfl
@[simp] theorem Fibre_flag_timeHi : (f.flag n).timeHi = f.timeHi := rfl
@[simp] theorem Fibre_flag_counts : (f.flag n).counts = f.counts := rfl
@[simp] theorem Fibre_flag_arrivedCrew : (f.flag n).arrivedCrew = f.arrivedCrew := rfl
@[simp] theorem Fibre_flag_arrivedTeam : (f.flag n).arrivedTeam = f.arrivedTeam := rfl
@[simp] theorem Fibre_flag_gate : (f.flag n).gate = f.gate := rfl
@[simp] theorem Fibre_flag_recvs : (f.flag n).recvs = f.recvs := rfl
@[simp] theorem Fibre_flag_meeting : (f.flag n).meeting = f.meeting := rfl
@[simp] theorem Fibre_flag_feeds : (f.flag n).feeds = f.feeds := rfl
@[simp] theorem Fibre_flag_stepping : (f.flag n).stepping = f.stepping := rfl
@[simp] theorem Fibre_flag_anew : (f.flag n).anew = f.anew := rfl
@[simp] theorem Fibre_flag_restart : (f.flag n).restart = f.restart := rfl
@[simp] theorem Fibre_flag_deferred : (f.flag n).deferred = f.deferred := rfl
@[simp] theorem Fibre_flag_stamp : (f.flag n).stamp = f.stamp := rfl
@[simp] theorem Fibre_flag_lost : (f.flag n).lost = f.lost := rfl
@[simp] theorem Fibre_flag_awaits : (f.flag n).awaits = f.awaits := rfl
@[simp] theorem Fibre_flag_woke : (f.flag n).woke = f.woke := rfl
@[simp] theorem Fibre_flag_begins : (f.flag n).begins = f.begins := rfl
@[simp] theorem Fibre_flag_report : (f.flag n).report = f.report := rfl
end

/-! `Fibre.region` -/
section
variable (f : Fibre) (pc : PcAddr) (m : Nat)
@[simp] theorem Fibre_region_live : (f.region pc m).live = f.live := rfl
@[simp] theorem Fibre_region_st : (f.region pc m).st = f.st := rfl
@[simp] theorem Fibre_region_pc : (f.region pc m).pc = f.pc := rfl
@[simp] theorem Fibre_region_preds : (f.region pc m).preds = f.preds := rfl
@[simp] theorem Fibre_region_fpstat : (f.region pc m).fpstat = f.fpstat := rfl
@[simp] theorem Fibre_region_trapCause : (f.region pc m).trapCause = f.trapCause := rfl
@[simp] theorem Fibre_region_trapPc : (f.region pc m).trapPc = f.trapPc := rfl
@[simp] theorem Fibre_region_trapAddr : (f.region pc m).trapAddr = f.trapAddr := rfl
@[simp] theorem Fibre_region_trapMode : (f.region pc m).trapMode = f.trapMode := rfl
@[simp] theorem Fibre_region_txCause : (f.region pc m).txCause = f.txCause := rfl
@[simp] theorem Fibre_region_abortCount : (f.region pc m).abortCount = f.abortCount := rfl
@[simp] theorem Fibre_region_tx : (f.region pc m).tx = f.tx := rfl
@[simp] theorem Fibre_region_uiRpc : (f.region pc m).uiRpc = f.uiRpc := rfl
@[simp] theorem Fibre_region_uiCause : (f.region pc m).uiCause = f.uiCause := rfl
@[simp] theorem Fibre_region_uiAct : (f.region pc m).uiAct = f.uiAct := rfl
@[simp] theorem Fibre_region_uiPend : (f.region pc m).uiPend = f.uiPend := rfl
@[simp] theorem Fibre_region_clockHi : (f.region pc m).clockHi = f.clockHi := rfl
@[simp] theorem Fibre_region_timeHi : (f.region pc m).timeHi = f.timeHi := rfl
@[simp] theorem Fibre_region_counts : (f.region pc m).counts = f.counts := rfl
@[simp] theorem Fibre_region_arrivedCrew : (f.region pc m).arrivedCrew = f.arrivedCrew := rfl
@[simp] theorem Fibre_region_arrivedTeam : (f.region pc m).arrivedTeam = f.arrivedTeam := rfl
@[simp] theorem Fibre_region_gate : (f.region pc m).gate = f.gate := rfl
@[simp] theorem Fibre_region_recvs : (f.region pc m).recvs = f.recvs := rfl
@[simp] theorem Fibre_region_meeting : (f.region pc m).meeting = f.meeting := rfl
@[simp] theorem Fibre_region_restart : (f.region pc m).restart = f.restart := rfl
@[simp] theorem Fibre_region_deferred : (f.region pc m).deferred = f.deferred := rfl
@[simp] theorem Fibre_region_stamp : (f.region pc m).stamp = f.stamp := rfl
@[simp] theorem Fibre_region_lost : (f.region pc m).lost = f.lost := rfl
@[simp] theorem Fibre_region_awaits : (f.region pc m).awaits = f.awaits := rfl
@[simp] theorem Fibre_region_woke : (f.region pc m).woke = f.woke := rfl
@[simp] theorem Fibre_region_begins : (f.region pc m).begins = f.begins := rfl
@[simp] theorem Fibre_region_report : (f.region pc m).report = f.report := rfl
end

/-! `Fibre.recordTrap` -/
section
variable (f : Fibre) (t : Trap) (pc : PcAddr)
@[simp] theorem Fibre_recordTrap_live : (f.recordTrap t pc).live = f.live := rfl
@[simp] theorem Fibre_recordTrap_st : (f.recordTrap t pc).st = f.st := rfl
@[simp] theorem Fibre_recordTrap_pc : (f.recordTrap t pc).pc = f.pc := rfl
@[simp] theorem Fibre_recordTrap_regPc : (f.recordTrap t pc).regPc = f.regPc := rfl
@[simp] theorem Fibre_recordTrap_mark : (f.recordTrap t pc).mark = f.mark := rfl
@[simp] theorem Fibre_recordTrap_preds : (f.recordTrap t pc).preds = f.preds := rfl
@[simp] theorem Fibre_recordTrap_fpstat : (f.recordTrap t pc).fpstat = f.fpstat := rfl
@[simp] theorem Fibre_recordTrap_trapMode : (f.recordTrap t pc).trapMode = f.trapMode := rfl
@[simp] theorem Fibre_recordTrap_txCause : (f.recordTrap t pc).txCause = f.txCause := rfl
@[simp] theorem Fibre_recordTrap_abortCount : (f.recordTrap t pc).abortCount = f.abortCount := rfl
@[simp] theorem Fibre_recordTrap_tx : (f.recordTrap t pc).tx = f.tx := rfl
@[simp] theorem Fibre_recordTrap_uiRpc : (f.recordTrap t pc).uiRpc = f.uiRpc := rfl
@[simp] theorem Fibre_recordTrap_uiCause : (f.recordTrap t pc).uiCause = f.uiCause := rfl
@[simp] theorem Fibre_recordTrap_uiAct : (f.recordTrap t pc).uiAct = f.uiAct := rfl
@[simp] theorem Fibre_recordTrap_uiPend : (f.recordTrap t pc).uiPend = f.uiPend := rfl
@[simp] theorem Fibre_recordTrap_clockHi : (f.recordTrap t pc).clockHi = f.clockHi := rfl
@[simp] theorem Fibre_recordTrap_timeHi : (f.recordTrap t pc).timeHi = f.timeHi := rfl
@[simp] theorem Fibre_recordTrap_counts : (f.recordTrap t pc).counts = f.counts := rfl
@[simp] theorem Fibre_recordTrap_arrivedCrew : (f.recordTrap t pc).arrivedCrew = f.arrivedCrew := rfl
@[simp] theorem Fibre_recordTrap_arrivedTeam : (f.recordTrap t pc).arrivedTeam = f.arrivedTeam := rfl
@[simp] theorem Fibre_recordTrap_gate : (f.recordTrap t pc).gate = f.gate := rfl
@[simp] theorem Fibre_recordTrap_recvs : (f.recordTrap t pc).recvs = f.recvs := rfl
@[simp] theorem Fibre_recordTrap_meeting : (f.recordTrap t pc).meeting = f.meeting := rfl
@[simp] theorem Fibre_recordTrap_feeds : (f.recordTrap t pc).feeds = f.feeds := rfl
@[simp] theorem Fibre_recordTrap_stepping : (f.recordTrap t pc).stepping = f.stepping := rfl
@[simp] theorem Fibre_recordTrap_anew : (f.recordTrap t pc).anew = f.anew := rfl
@[simp] theorem Fibre_recordTrap_restart : (f.recordTrap t pc).restart = f.restart := rfl
@[simp] theorem Fibre_recordTrap_deferred : (f.recordTrap t pc).deferred = f.deferred := rfl
@[simp] theorem Fibre_recordTrap_stamp : (f.recordTrap t pc).stamp = f.stamp := rfl
@[simp] theorem Fibre_recordTrap_lost : (f.recordTrap t pc).lost = f.lost := rfl
@[simp] theorem Fibre_recordTrap_awaits : (f.recordTrap t pc).awaits = f.awaits := rfl
@[simp] theorem Fibre_recordTrap_woke : (f.recordTrap t pc).woke = f.woke := rfl
@[simp] theorem Fibre_recordTrap_begins : (f.recordTrap t pc).begins = f.begins := rfl
@[simp] theorem Fibre_recordTrap_report : (f.recordTrap t pc).report = f.report := rfl
end

/-! `Fibre.eret` -/
section
variable (f : Fibre) (m : Nat)
@[simp] theorem Fibre_eret_live : (f.eret m).live = f.live := rfl
@[simp] theorem Fibre_eret_st : (f.eret m).st = f.st := rfl
@[simp] theorem Fibre_eret_preds : (f.eret m).preds = f.preds := rfl
@[simp] theorem Fibre_eret_fpstat : (f.eret m).fpstat = f.fpstat := rfl
@[simp] theorem Fibre_eret_trapCause : (f.eret m).trapCause = f.trapCause := rfl
@[simp] theorem Fibre_eret_trapPc : (f.eret m).trapPc = f.trapPc := rfl
@[simp] theorem Fibre_eret_trapAddr : (f.eret m).trapAddr = f.trapAddr := rfl
@[simp] theorem Fibre_eret_txCause : (f.eret m).txCause = f.txCause := rfl
@[simp] theorem Fibre_eret_abortCount : (f.eret m).abortCount = f.abortCount := rfl
@[simp] theorem Fibre_eret_tx : (f.eret m).tx = f.tx := rfl
@[simp] theorem Fibre_eret_uiRpc : (f.eret m).uiRpc = f.uiRpc := rfl
@[simp] theorem Fibre_eret_uiCause : (f.eret m).uiCause = f.uiCause := rfl
@[simp] theorem Fibre_eret_uiAct : (f.eret m).uiAct = f.uiAct := rfl
@[simp] theorem Fibre_eret_uiPend : (f.eret m).uiPend = f.uiPend := rfl
@[simp] theorem Fibre_eret_clockHi : (f.eret m).clockHi = f.clockHi := rfl
@[simp] theorem Fibre_eret_timeHi : (f.eret m).timeHi = f.timeHi := rfl
@[simp] theorem Fibre_eret_counts : (f.eret m).counts = f.counts := rfl
@[simp] theorem Fibre_eret_arrivedCrew : (f.eret m).arrivedCrew = f.arrivedCrew := rfl
@[simp] theorem Fibre_eret_arrivedTeam : (f.eret m).arrivedTeam = f.arrivedTeam := rfl
@[simp] theorem Fibre_eret_gate : (f.eret m).gate = f.gate := rfl
@[simp] theorem Fibre_eret_recvs : (f.eret m).recvs = f.recvs := rfl
@[simp] theorem Fibre_eret_meeting : (f.eret m).meeting = f.meeting := rfl
@[simp] theorem Fibre_eret_restart : (f.eret m).restart = f.restart := rfl
@[simp] theorem Fibre_eret_deferred : (f.eret m).deferred = f.deferred := rfl
@[simp] theorem Fibre_eret_stamp : (f.eret m).stamp = f.stamp := rfl
@[simp] theorem Fibre_eret_lost : (f.eret m).lost = f.lost := rfl
@[simp] theorem Fibre_eret_awaits : (f.eret m).awaits = f.awaits := rfl
@[simp] theorem Fibre_eret_woke : (f.eret m).woke = f.woke := rfl
@[simp] theorem Fibre_eret_begins : (f.eret m).begins = f.begins := rfl
@[simp] theorem Fibre_eret_report : (f.eret m).report = f.report := rfl
end

end Sys2Proof.Machine
end

