-- ==== Sys2Proof/Laws/Turns.lean ====
section
/-! SUPPORT. What the shared course of an instruction does at its turn: waits and checks passed, results written, the pc moved on. -/
namespace Sys2Proof.Machine

section Ready
variable {s : State} {ins : Instr} {i : Issue} {c : Crew} {x : List Nat}

theorem Ready.cur_eq (h : Ready s ins i c x) : s.cur = some i := h.1
theorem Ready.crew_eq (h : Ready s ins i c x) : s.getCrew i.crew = some c := h.2.1
theorem Ready.x_eq (h : Ready s ins i c x) : x = c.executing i := h.2.2.2.1
theorem Ready.ranks_nodup (h : Ready s ins i c x) : i.ranks.Nodup := h.2.2.2.2.2.2.1
theorem Ready.ranks_lt (h : Ready s ins i c x) : ∀ r ∈ i.ranks, r < c.fibres.length := h.2.2.2.2.2.2.2

theorem Ready.x_nodup (h : Ready s ins i c x) : x.Nodup := by
  rw [h.x_eq]; exact h.ranks_nodup.filter _

theorem Ready.x_ranks (h : Ready s ins i c x) : ∀ r ∈ x, r ∈ i.ranks := by
  intro r hr; rw [h.x_eq, Crew.executing, List.mem_filter] at hr; exact hr.1

theorem Ready.x_lt (h : Ready s ins i c x) : ∀ r ∈ x, r < c.fibres.length := fun r hr => h.ranks_lt r (h.x_ranks r hr)

/-- At a ready turn the course comes to the instruction's own part. -/
theorem perform_ready (h : Ready s ins i c x) (k : State → Crew → Turn → Out) : s.perform ins k = k s c ⟨i, formOf c i.ext ins, x, []⟩ := by
  obtain ⟨h1, h2, h3, rfl, h5, h6, -, -⟩ := h
  unfold State.perform
  have hbar : (if (formOf c i.ext ins).barred = true then (c.executing i).filter c.inTx else []) = [] := by
    split
    · rename_i hb
      exact List.filter_eq_nil_iff.2 fun r hr => by simp [h5 hb r hr]
    · rfl
  have hx : (c.executing i).filter (fun r => !([] : List Nat).contains r) = c.executing i := List.filter_eq_self.2 (by simp)
  simp only [h1, h2, h3, hbar, hx, h6, List.foldl_nil]
  rfl
end Ready

theorem getCrew_id {s : State} {id : Nat} {c : Crew} (h : s.getCrew id = some c) : c.id = id := by
  have := List.find?_some h; simpa using this

end Sys2Proof.Machine
end

