-- ==== Sys2Proof/Laws/Crews.lean ====
section
/-! SUPPORT. Crews and their register files: updates of a crew or fibre, shape steps and values written (01_execution R37 to R42). -/
namespace Sys2Proof.Machine

/-! ### Crews of a state -/

theorem find_updWhere {α : Type} (p q : α → Bool) (f : α → α) (hp : ∀ a, p a = true → q (f a) = q a) (l : List α) :
    (updWhere p f l).find? q = (l.find? q).map fun a => if p a then f a else a := by
  induction l with
  | nil => rfl
  | cons a l ih =>
    have : q (if p a then f a else a) = q a := by split <;> rename_i h <;> simp [hp, h]
    simp only [updWhere, List.map_cons, List.find?_cons, this] at ih ⊢
    cases q a
    · exact ih
    · rfl

theorem getCrew_modCrew {s : State} (id id' : Nat) (f : Crew → Crew) (hf : ∀ c, c.id = id → (f c).id = id) :
    (s.modCrew id f).getCrew id' = (s.getCrew id').map fun c => if c.id == id then f c else c := by
  simp only [State.getCrew, State.modCrew]
  refine find_updWhere _ _ f (fun a h => ?_) s.crews
  have h1 : a.id = id := by simpa using h
  rw [hf a h1, h1]

theorem getCrew_modCrew_same {s : State} {id : Nat} {c : Crew} {f : Crew → Crew} (hf : ∀ c, c.id = id → (f c).id = id) (h : s.getCrew id = some c) :
    (s.modCrew id f).getCrew id = some (f c) := by
  rw [getCrew_modCrew _ _ _ hf, h]; simp [getCrew_id h]

theorem getCrew_modCrew_other {s : State} {id id' : Nat} {f : Crew → Crew} (hf : ∀ c, c.id = id → (f c).id = id) (h : id' ≠ id) :
    (s.modCrew id f).getCrew id' = s.getCrew id' := by
  rw [getCrew_modCrew _ _ _ hf]
  cases e : s.getCrew id' with
  | none => rfl
  | some c => simp [getCrew_id e, h]

theorem modFib_id (c : Crew) (k : Nat) (f : Fibre → Fibre) : (c.modFib k f).id = c.id := rfl

/-! ### Fibres of a crew -/

theorem updAt_getElem? {α : Type} (l : List α) (i j : Nat) (f : α → α) : (updAt l i f)[j]? = if i = j then l[j]?.map f else l[j]? := by
  unfold updAt
  cases h : l[i]? with
  | none =>
    by_cases e : i = j
    · subst e; simp [h]
    · simp [e]
  | some a =>
    by_cases e : i = j
    · subst e
      have hl : i < l.length := (List.getElem?_eq_some_iff.1 h).1
      rw [if_pos rfl, h, List.getElem?_set_self hl]; rfl
    · rw [if_neg e, List.getElem?_set_ne e]

theorem updAt_length {α : Type} (l : List α) (i : Nat) (f : α → α) : (updAt l i f).length = l.length := by
  unfold updAt; split <;> simp

theorem fib_modFib (c : Crew) (k j : Nat) (f : Fibre → Fibre) : (c.modFib k f).fib j = if k = j then (c.fib j).map f else c.fib j :=
  updAt_getElem? _ _ _ _

/-- Several fibres changed, each once. -/
def Crew.modFibs (c : Crew) (x : List Nat) (f : Nat → Fibre → Fibre) : Crew := x.foldl (fun c k => c.modFib k (f k)) c

theorem modFibs_eq (x : List Nat) (f : Nat → Fibre → Fibre) (c : Crew) : c.modFibs x f = { c with fibres := (c.modFibs x f).fibres } := by
  unfold Crew.modFibs
  induction x generalizing c with
  | nil => rfl
  | cons a l ih => rw [List.foldl_cons]; rw [ih (c.modFib a (f a))]; rfl

theorem modFibs_fib {x : List Nat} (hx : x.Nodup) (f : Nat → Fibre → Fibre) (c : Crew) (j : Nat) :
    (c.modFibs x f).fib j = if j ∈ x then (c.fib j).map (f j) else c.fib j := by
  unfold Crew.modFibs
  induction x generalizing c with
  | nil => simp
  | cons a l ih =>
    have hn := List.nodup_cons.1 hx
    rw [List.foldl_cons, ih hn.2, fib_modFib]
    by_cases h : a = j
    · subst h; simp [hn.1]
    · have : j ≠ a := fun e => h e.symm
      simp [h, this]

theorem modFibs_length (x : List Nat) (f : Nat → Fibre → Fibre) (c : Crew) : (c.modFibs x f).fibres.length = c.fibres.length := by
  unfold Crew.modFibs
  induction x generalizing c with
  | nil => rfl
  | cons a l ih => rw [List.foldl_cons, ih]; exact updAt_length _ _ _

theorem modRanks_eq (s : State) (id : Nat) (x : List Nat) (f : Nat → Fibre → Fibre) : s.modRanks id x f = s.modCrew id fun c => c.modFibs x f := rfl

theorem modFibs_id (x : List Nat) (f : Nat → Fibre → Fibre) (c : Crew) : (c.modFibs x f).id = c.id := by rw [modFibs_eq]

theorem getCrew_modRanks_same {s : State} {id : Nat} {c : Crew} {x : List Nat} {f : Nat → Fibre → Fibre} (h : s.getCrew id = some c) :
    (s.modRanks id x f).getCrew id = some (c.modFibs x f) := getCrew_modCrew_same (fun c e => (modFibs_id x f c).trans e) h

theorem getCrew_modRanks_other {s : State} {id id' : Nat} {x : List Nat} {f : Nat → Fibre → Fibre} (h : id' ≠ id) :
    (s.modRanks id x f).getCrew id' = s.getCrew id' := getCrew_modCrew_other (fun c e => (modFibs_id x f c).trans e) h

/-! ### Register files -/

/-- A register file in order, as facts. -/
theorem regsOk_iff (c : Crew) : c.regsOk = true ↔ c.regs.length = 120 ∧ c.fibres.length = c.size ∧ c.rows.length = c.grows ∧ c.grows ≤ 256 ∧
    (∀ r ∈ c.rows, r.length = c.size) ∧ (∀ r ∈ c.usedRows, r < c.grows) ∧ c.usedRows.Nodup := by
  simp [Crew.regsOk, and_assoc]

theorem desc_eq {c : Crew} {d : Nat} (h : d < c.regs.length) : c.desc d = c.regs[d] := by simp [Crew.desc, h]

/-- Two G registers of a register file in order have rows of their own. -/
theorem rows_distinct {l : List Desc} (hn : ((l.filter fun d => d.shape == .g).map fun d => d.base.toNat).Nodup) {i j : Nat} {a b : Desc}
    (hi : l[i]? = some a) (hj : l[j]? = some b) (gi : a.shape = .g) (gj : b.shape = .g) (e : a.base.toNat = b.base.toNat) : i = j := by
  induction l generalizing i j with
  | nil => simp at hi
  | cons x l ih =>
    have tl : ((l.filter fun d => d.shape == .g).map fun d => d.base.toNat).Nodup := by
      rw [List.filter_cons] at hn; split at hn
      · rw [List.map_cons, List.nodup_cons] at hn; exact hn.2
      · exact hn
    have hd (k : Nat) (y : Desc) (hk : l[k]? = some y) (gx : x.shape = .g) (gy : y.shape = .g) : x.base.toNat ≠ y.base.toNat := by
      rw [List.filter_cons_of_pos (by simp [gx]), List.map_cons, List.nodup_cons] at hn
      exact fun e => hn.1 (List.mem_map.2 ⟨y, List.mem_filter.2 ⟨List.mem_of_getElem? hk, by simp [gy]⟩, e.symm⟩)
    cases i with
    | zero =>
      cases j with
      | zero => rfl
      | succ j =>
        simp only [List.getElem?_cons_zero, List.getElem?_cons_succ, Option.some.injEq] at hi hj; subst hi
        exact absurd e (hd j b hj gi gj)
    | succ i =>
      cases j with
      | zero =>
        simp only [List.getElem?_cons_zero, List.getElem?_cons_succ, Option.some.injEq] at hi hj; subst hj
        exact absurd e.symm (hd i a hi gj gi)
      | succ j =>
        simp only [List.getElem?_cons_succ] at hi hj
        exact congrArg _ (ih tl hi hj)

/-- The rows a list of descriptors names. -/
def rowsNamed (l : List Desc) : List Nat := (l.filter fun d => d.shape == .g).map fun d => d.base.toNat

theorem rowsNamed_cons (a : Desc) (l : List Desc) : rowsNamed (a :: l) = if a.shape = .g then a.base.toNat :: rowsNamed l else rowsNamed l := by
  simp only [rowsNamed, List.filter_cons, beq_iff_eq]; split <;> rfl

theorem rowsNamed_set_new {l : List Desc} {d : Nat} {x y : Desc} (h : l[d]? = some x) (hx : x.shape ≠ .g) (hy : y.shape = .g) :
    (rowsNamed (l.set d y)).Perm (y.base.toNat :: rowsNamed l) := by
  induction l generalizing d with
  | nil => simp at h
  | cons a l ih =>
    cases d with
    | zero =>
      simp only [List.getElem?_cons_zero, Option.some.injEq] at h; subst h
      rw [List.set_cons_zero, rowsNamed_cons, rowsNamed_cons, if_pos hy, if_neg hx]
    | succ d =>
      rw [List.set_cons_succ, rowsNamed_cons, rowsNamed_cons]
      have := ih (by simpa using h)
      split
      · exact (this.cons _).trans (List.Perm.swap _ _ _)
      · exact this

theorem rowsNamed_set_off (l : List Desc) (d : Nat) {y : Desc} (hy : y.shape ≠ .g) : (rowsNamed (l.set d y)).Sublist (rowsNamed l) := by
  induction l generalizing d with
  | nil => simp [rowsNamed]
  | cons a l ih =>
    cases d with
    | zero => rw [List.set_cons_zero, rowsNamed_cons, rowsNamed_cons, if_neg hy]; split <;> simp
    | succ d =>
      rw [List.set_cons_succ, rowsNamed_cons, rowsNamed_cons]
      split
      · exact (ih d).cons_cons _
      · exact ih d

theorem rowsNamed_set_same {l : List Desc} {d : Nat} {x y : Desc} (h : l[d]? = some x) (hs : y.shape = x.shape) (hb : y.base = x.base) :
    rowsNamed (l.set d y) = rowsNamed l := by
  induction l generalizing d with
  | nil => rfl
  | cons a l ih =>
    cases d with
    | zero =>
      simp only [List.getElem?_cons_zero, Option.some.injEq] at h; subst h
      rw [List.set_cons_zero, rowsNamed_cons, rowsNamed_cons, hs, hb]
    | succ d => rw [List.set_cons_succ, rowsNamed_cons, rowsNamed_cons, ih (by simpa using h)]

theorem usedRows_eq (c : Crew) : c.usedRows = rowsNamed c.regs := rfl

theorem desc_getElem? {c : Crew} {d : Nat} (h : d < c.regs.length) : c.regs[d]? = some (c.desc d) := by
  simp [Crew.desc, h]

theorem desc_set (c : Crew) (d r : Nat) (y : Desc) (hd : d < c.regs.length) (l : List (List Word)) :
    Crew.desc { c with regs := c.regs.set d y, rows := l } r = if r = d then y else c.desc r := by
  simp only [Crew.desc, List.getD_eq_getElem?_getD]
  by_cases e : r = d
  · subst e; simp [List.getElem?_set_self hd]
  · have : d ≠ r := fun x => e x.symm
    simp [e, List.getElem?_set_ne this]

/-- What a shape step can do (R40): the register takes a free row that holds its elements at every rank, and reads as before. -/
theorem shapeStep_spec {c c1 : Crew} {d : Nat} {sh : Shape} (ok : c.regsOk = true) (hd : d < 120) (h : c.shapeStep d sh = some c1) :
    c1.regsOk = true ∧ c1 = { c with regs := c1.regs, rows := c1.rows } ∧ (∀ r k, r < 120 → k < c.size → c1.elem r k = c.elem r k) ∧
    (∀ r, (c1.desc r).tag = (c.desc r).tag) ∧ (∀ r, r ≠ d → c1.desc r = c.desc r) ∧ (sh = .g → (c1.desc d).shape = .g) ∧ (sh ≠ .g → c1 = c) := by
  unfold Crew.shapeStep at h
  split at h
  · rename_i hc
    cases h
    refine ⟨ok, rfl, fun _ _ _ _ => rfl, fun _ => rfl, fun _ _ => rfl, fun e => ?_, fun _ => rfl⟩
    subst e; simpa using hc
  · rename_i hc
    have hsh : sh = .g ∧ (c.desc d).shape ≠ .g := by simpa using hc
    split at h
    · cases h
    rename_i r hr
    simp only [Option.some.injEq] at h
    obtain ⟨h1, h2, h3, h4, h5, h6, h7⟩ := (regsOk_iff c).1 ok
    have hrm := List.mem_of_find?_eq_some hr
    have hrg : r < c.grows := by simpa using hrm
    have hfree : r ∉ c.usedRows := by have := List.find?_some hr; simpa using this
    have hdl : d < c.regs.length := by omega
    have hbase : (BitVec.ofNat 32 r).toNat = r := by simp only [BitVec.toNat_ofNat]; exact Nat.mod_eq_of_lt (by omega)
    have hdesc (q : Nat) : c1.desc q = if q = d then { c.desc d with shape := .g, base := BitVec.ofNat 32 r, stride := 0 } else c.desc q := by
      rw [← h]; exact desc_set c d q _ hdl _
    have hperm : (rowsNamed c1.regs).Perm (r :: rowsNamed c.regs) := by
      rw [← h]
      have := rowsNamed_set_new (y := { c.desc d with shape := .g, base := BitVec.ofNat 32 r, stride := 0 }) (desc_getElem? hdl) hsh.2 rfl
      simpa [hbase] using this
    have hrows : c1.rows = c.rows.set r ((List.range c.size).map fun k => c.elem d k) := by rw [← h]
    refine ⟨(regsOk_iff c1).2 ⟨?_, ?_, ?_, ?_, ?_, ?_, ?_⟩, ?_, ?_, ?_, ?_, ?_, ?_⟩
    · rw [← h]; simpa using h1
    · rw [← h]; exact h2
    · rw [← h]; simpa using h3
    · rw [← h]; exact h4
    · have hsz : c1.size = c.size := by rw [← h]
      intro w hw; rw [hrows] at hw; rw [hsz]
      rcases List.mem_or_eq_of_mem_set hw with hw | rfl
      · exact h5 w hw
      · simp
    · have hg : c1.grows = c.grows := by rw [← h]
      intro w hw; rw [hg]
      rcases List.mem_cons.1 (hperm.mem_iff.1 hw) with rfl | hw
      · exact hrg
      · exact h6 w hw
    · exact hperm.nodup_iff.2 (List.nodup_cons.2 ⟨hfree, h7⟩)
    · rw [← h]
    · intro q k hq hk
      by_cases e : q = d
      · subst e
        have : c1.elem q k = (c1.rows.getD r []).getD k 0 := by simp [Crew.elem, hdesc, hbase]
        rw [this, hrows]
        have hrl : r < c.rows.length := by omega
        simp [List.getD_eq_getElem?_getD, hrl, hk]
      · have hne : c1.desc q = c.desc q := by rw [hdesc, if_neg e]
        simp only [Crew.elem, hne]
        split
        · rfl
        · rfl
        · rename_i hs
          have hm : (c.desc q).base.toNat ∈ c.usedRows := List.mem_map.2 ⟨c.desc q, List.mem_filter.2 ⟨List.mem_of_getElem? (desc_getElem? (by omega)), by simp [hs]⟩, rfl⟩
          have : r ≠ (c.desc q).base.toNat := fun e => hfree (e ▸ hm)
          rw [hrows]; simp [List.getD_eq_getElem?_getD, List.getElem?_set_ne this]
    · intro q; rw [hdesc]; split
      · rename_i e; subst e; rfl
      · rfl
    · intro q hq; rw [hdesc, if_neg hq]
    · intro _; rw [hdesc, if_pos rfl]
    · intro e; exact absurd hsh.1 e

theorem foldl_set_length {α : Type} (vals : List (Nat × α)) (l : List α) : (vals.foldl (fun l p => l.set p.1 p.2) l).length = l.length := by
  induction vals generalizing l with
  | nil => rfl
  | cons v vs ih => rw [List.foldl_cons, ih]; simp

theorem foldl_set_getElem? {α : Type} {vals : List (Nat × α)} (hn : (vals.map fun p => p.1).Nodup) (l : List α) (k : Nat) (hk : k < l.length) :
    (vals.foldl (fun l p => l.set p.1 p.2) l)[k]? = some ((valOf vals k).getD l[k]) := by
  induction vals generalizing l with
  | nil => simp [valOf, hk]
  | cons v vs ih =>
    rw [List.map_cons, List.nodup_cons] at hn
    rw [List.foldl_cons, ih hn.2 _ (by simpa using hk)]
    simp only [valOf, List.find?_cons]
    by_cases e : v.1 = k
    · have hnone : vs.find? (fun p => p.1 == k) = none := by
        refine List.find?_eq_none.2 fun p hp => ?_
        simp only [beq_iff_eq]; rintro rfl
        exact hn.1 (e ▸ List.mem_map.2 ⟨p, hp, rfl⟩)
      subst e; simp [hnone]
    · have : (v.1 == k) = false := by simpa using e
      simp [this, List.getElem_set_ne e]

/-- What writing the elements of a G register does (R40). -/
theorem putValue_g_spec {c : Crew} {d : Nat} {tag : Tag} {b st : Word} {vals : List (Nat × Word)} (ok : c.regsOk = true) (hd : d < 120)
    (hg : (c.desc d).shape = .g) (hn : (vals.map fun p => p.1).Nodup) :
    (c.putValue d .g tag b st vals).regsOk = true ∧
    c.putValue d .g tag b st vals = { c with regs := (c.putValue d .g tag b st vals).regs, rows := (c.putValue d .g tag b st vals).rows } ∧
    (∀ k, k < c.size → (c.putValue d .g tag b st vals).elem d k = (valOf vals k).getD (c.elem d k)) ∧
    (∀ r k, r < 120 → r ≠ d → (c.putValue d .g tag b st vals).elem r k = c.elem r k) ∧
    (∀ r, (c.putValue d .g tag b st vals).desc r = if r = d then { c.desc d with tag := tag } else c.desc r) := by
  obtain ⟨h1, h2, h3, h4, h5, h6, h7⟩ := (regsOk_iff c).1 ok
  have hdl : d < c.regs.length := by omega
  have hm : (c.desc d).base.toNat ∈ c.usedRows := List.mem_map.2 ⟨c.desc d, List.mem_filter.2 ⟨List.mem_of_getElem? (desc_getElem? hdl), by simp [hg]⟩, rfl⟩
  have hrl : (c.desc d).base.toNat < c.rows.length := by rw [h3]; exact h6 _ hm
  generalize hc : c.putValue d .g tag b st vals = c2
  have hc2 : c2 = { c with rows := updAt c.rows (c.desc d).base.toNat (fun row => vals.foldl (fun l p => l.set p.1 p.2) row), regs := c.regs.set d { c.desc d with tag := tag } } := hc.symm
  have hdesc (q : Nat) : c2.desc q = if q = d then { c.desc d with tag := tag } else c.desc q := by rw [hc2]; exact desc_set c d q _ hdl _
  have hrows : c2.rows = updAt c.rows (c.desc d).base.toNat (fun row => vals.foldl (fun l p => l.set p.1 p.2) row) := by rw [hc2]
  have hused : c2.usedRows = c.usedRows := by
    rw [usedRows_eq, usedRows_eq, hc2]; exact rowsNamed_set_same (desc_getElem? hdl) rfl rfl
  refine ⟨(regsOk_iff c2).2 ⟨?_, ?_, ?_, ?_, ?_, ?_, ?_⟩, ?_, ?_, ?_, hdesc⟩
  · rw [hc2]; simpa using h1
  · rw [hc2]; exact h2
  · rw [hc2]; simpa [updAt_length] using h3
  · rw [hc2]; exact h4
  · have hsz : c2.size = c.size := by rw [hc2]
    intro w hw
    rw [hsz]
    obtain ⟨j, hj⟩ := List.mem_iff_getElem?.1 hw
    rw [hrows, updAt_getElem?] at hj
    split at hj
    · obtain ⟨w0, hw0, rfl⟩ := Option.map_eq_some_iff.1 hj
      rw [foldl_set_length]; exact h5 _ (List.mem_of_getElem? hw0)
    · exact h5 _ (List.mem_of_getElem? hj)
  · have hgr : c2.grows = c.grows := by rw [hc2]
    rw [hused, hgr]; exact h6
  · rw [hused]; exact h7
  · rw [hc2]
  · intro k hk
    have hlen : c.rows[(c.desc d).base.toNat].length = c.size := h5 _ (List.getElem_mem _)
    have e1 : c2.elem d k = (c2.rows.getD (c.desc d).base.toNat []).getD k 0 := by simp [Crew.elem, hdesc, hg]
    have e2 : c.elem d k = (c.rows.getD (c.desc d).base.toNat []).getD k 0 := by simp [Crew.elem, hg]
    rw [e1, e2, hrows]
    have hk2 : k < c.rows[(c.desc d).base.toNat].length := by rw [hlen]; exact hk
    simp [List.getD_eq_getElem?_getD, updAt_getElem?, hrl, foldl_set_getElem? hn _ k hk2, hk2]
  · intro r k hr hne
    have hne2 : c2.desc r = c.desc r := by rw [hdesc, if_neg hne]
    simp only [Crew.elem, hne2]
    split
    · rfl
    · rfl
    · rename_i hs
      have : (c.desc d).base.toNat ≠ (c.desc r).base.toNat := fun e =>
        hne (rows_distinct h7 (desc_getElem? (show r < c.regs.length by omega)) (desc_getElem? hdl) hs hg e.symm)
      rw [hrows]; simp [List.getD_eq_getElem?_getD, updAt_getElem?, this]

/-- What writing a compact register does (R40): its row, if it had one, is free. -/
theorem putValue_compact_spec {c : Crew} {d : Nat} {sh : Shape} {tag : Tag} {b st : Word} {vals : List (Nat × Word)} (ok : c.regsOk = true) (hd : d < 120) (hs : sh ≠ .g) :
    (c.putValue d sh tag b st vals).regsOk = true ∧
    c.putValue d sh tag b st vals = { c with regs := (c.putValue d sh tag b st vals).regs } ∧
    (∀ k, (c.putValue d sh tag b st vals).elem d k = if sh = .a then b + st * BitVec.ofNat 32 k else b) ∧
    (∀ r k, r ≠ d → (c.putValue d sh tag b st vals).elem r k = c.elem r k) ∧
    (∀ r, (c.putValue d sh tag b st vals).desc r = if r = d then ⟨sh, tag, b, if sh == .a then st else 0⟩ else c.desc r) := by
  obtain ⟨h1, h2, h3, h4, h5, h6, h7⟩ := (regsOk_iff c).1 ok
  have hdl : d < c.regs.length := by omega
  generalize hc : c.putValue d sh tag b st vals = c2
  have hc2 : c2 = { c with regs := c.regs.set d ⟨sh, tag, b, if sh == .a then st else 0⟩ } := by
    rw [← hc]; cases sh <;> first | rfl | exact absurd rfl hs
  have hdesc (q : Nat) : c2.desc q = if q = d then ⟨sh, tag, b, if sh == .a then st else 0⟩ else c.desc q := by rw [hc2]; exact desc_set c d q _ hdl _
  have hrows : c2.rows = c.rows := by rw [hc2]
  have hsub : (rowsNamed c2.regs).Sublist (rowsNamed c.regs) := by rw [hc2]; exact rowsNamed_set_off _ _ hs
  refine ⟨(regsOk_iff c2).2 ⟨?_, ?_, ?_, ?_, ?_, ?_, ?_⟩, ?_, ?_, ?_, hdesc⟩
  · rw [hc2]; simpa using h1
  · rw [hc2]; exact h2
  · rw [hc2]; exact h3
  · rw [hc2]; exact h4
  · have hsz : c2.size = c.size := by rw [hc2]
    rw [hsz, hrows]; exact h5
  · have hgr : c2.grows = c.grows := by rw [hc2]
    intro w hw; rw [hgr]; exact h6 w (hsub.subset hw)
  · exact hsub.nodup h7
  · rw [hc2]
  · intro k
    simp only [Crew.elem, hdesc, if_pos]
    cases sh <;> simp at hs ⊢
  · intro r k hne
    have : c2.desc r = c.desc r := by rw [hdesc, if_neg hne]
    simp only [Crew.elem, this, hrows]

/-- What several shape steps do. -/
theorem shapeSteps_spec {l : List (Nat × Shape)} {c c1 : Crew} (ok : c.regsOk = true) (hd : ∀ p ∈ l, p.1 < 120) (h : c.shapeSteps l = some c1) :
    c1.regsOk = true ∧ c1 = { c with regs := c1.regs, rows := c1.rows } ∧ (∀ r k, r < 120 → k < c.size → c1.elem r k = c.elem r k) ∧
    (∀ r, (c1.desc r).tag = (c.desc r).tag) ∧ (∀ r, r ∉ l.map (fun p => p.1) → c1.desc r = c.desc r) ∧
    (∀ r, (c.desc r).shape = .g → (c1.desc r).shape = .g) ∧ (∀ p ∈ l, p.2 = .g → (c1.desc p.1).shape = .g) := by
  induction l generalizing c with
  | nil => cases h; exact ⟨ok, rfl, fun _ _ _ _ => rfl, fun _ => rfl, fun _ _ => rfl, fun _ h => h, fun p hp => by simp at hp⟩
  | cons p l ih =>
    unfold Crew.shapeSteps at h
    split at h
    · rename_i c0 h0
      obtain ⟨a1, a2, a3, a4, a5, a6, a7⟩ := shapeStep_spec ok (hd p (by simp)) h0
      obtain ⟨b1, b2, b3, b4, b5, b6, b7⟩ := ih a1 (fun q hq => hd q (by simp [hq])) h
      have hsz : c0.size = c.size := by rw [a2]
      have keep (r : Nat) (hr : (c.desc r).shape = .g) : (c0.desc r).shape = .g := by
        by_cases e : r = p.1
        · by_cases g : p.2 = .g
          · rw [e]; exact a6 g
          · rw [a7 g]; exact hr
        · rw [a5 r e]; exact hr
      refine ⟨b1, ?_, fun r k hr hk => (b3 r k hr (by rw [hsz]; exact hk)).trans (a3 r k hr hk), fun r => (b4 r).trans (a4 r), fun r hr => ?_, fun r hr => b6 r (keep r hr), ?_⟩
      · rw [b2, a2]
      · simp only [List.map_cons, List.mem_cons, not_or] at hr
        exact (b5 r hr.2).trans (a5 r hr.1)
      · intro q hq g
        rcases List.mem_cons.1 hq with rfl | hq
        · exact b6 _ (a6 g)
        · exact b7 q hq g
    · cases h

theorem writeShape_congr {c c1 : Crew} (h : c1.fibres = c.fibres) (d : Nat) (sh : Shape) (x : List Nat) : c1.writeShape d sh x = c.writeShape d sh x := by
  unfold Crew.writeShape Crew.liveSet Crew.txHeld
  rw [h]

/-- The value a destination gives rank k, in the shape the write has. -/
def Dest.value (D : Dest) (sh : Shape) (k : Nat) : Word :=
  match sh with
  | .g => (valOf D.vals k).getD 0
  | .a => D.base + D.stride * BitVec.ofNat 32 k
  | .u => D.base

theorem valOf_isSome {α : Type} {l : List (Nat × α)} {k : Nat} (h : k ∈ l.map fun p => p.1) : ∃ v, valOf l k = some v := by
  obtain ⟨p, hp, rfl⟩ := List.mem_map.1 h
  have : (l.find? fun q => q.1 == p.1).isSome := by rw [List.find?_isSome]; exact ⟨p, hp, by simp⟩
  obtain ⟨q, hq⟩ := Option.isSome_iff_exists.1 this
  exact ⟨q.2, by simp [valOf, hq]⟩

theorem valOf_none {α : Type} {l : List (Nat × α)} {k : Nat} (h : k ∉ l.map fun p => p.1) : valOf l k = none := by
  have : l.find? (fun q => q.1 == k) = none := List.find?_eq_none.2 fun p hp => by
    simp only [beq_iff_eq]; rintro rfl; exact h (List.mem_map.2 ⟨p, hp, rfl⟩)
  simp [valOf, this]

/-- What one value written after its shape step does, in either shape. -/
theorem putDest_spec {c : Crew} {D : Dest} {sh : Shape} (ok : c.regsOk = true) (hd : D.d < 120) (hg : sh = .g → (c.desc D.d).shape = .g)
    (hn : (D.vals.map fun p => p.1).Nodup) :
    let c2 := c.putValue D.d sh D.tag D.base D.stride D.vals
    c2.regsOk = true ∧ c2 = { c with regs := c2.regs, rows := c2.rows } ∧
    (∀ k, k < c.size → k ∈ D.vals.map (fun p => p.1) ∨ sh ≠ .g → c2.elem D.d k = D.value sh k) ∧
    (∀ k, k < c.size → sh = .g → k ∉ D.vals.map (fun p => p.1) → c2.elem D.d k = c.elem D.d k) ∧
    (∀ r k, r < 120 → r ≠ D.d → c2.elem r k = c.elem r k) ∧
    (∀ r, r ≠ D.d → c2.desc r = c.desc r) ∧ (c2.desc D.d).tag = D.tag ∧ (c2.desc D.d).shape = sh := by
  by_cases g : sh = .g
  · subst g
    obtain ⟨a1, a2, a3, a4, a5⟩ := putValue_g_spec (tag := D.tag) (b := D.base) (st := D.stride) ok hd (hg rfl) hn
    refine ⟨a1, a2, fun k hk hm => ?_, fun k hk _ hm => ?_, a4, fun r hr => by rw [a5, if_neg hr], by rw [a5, if_pos rfl], by rw [a5, if_pos rfl]; exact hg rfl⟩
    · obtain ⟨v, hv⟩ := valOf_isSome (hm.resolve_right (by simp))
      rw [a3 k hk, hv]; simp [Dest.value, hv]
    · rw [a3 k hk, valOf_none hm]; rfl
  · obtain ⟨a1, a2, a3, a4, a5⟩ := putValue_compact_spec (tag := D.tag) (b := D.base) (st := D.stride) (vals := D.vals) ok hd g
    refine ⟨a1, a2.trans ?_, fun k hk _ => ?_, fun k _ e => absurd e g, fun r k _ hr => a4 r k hr, fun r hr => by rw [a5, if_neg hr], by rw [a5, if_pos rfl], by rw [a5, if_pos rfl]⟩
    · rw [a2]
    · rw [a3]; cases sh <;> simp [Dest.value] at g ⊢

/-- What the values of several destinations do, after their shape steps (R40). -/
theorem putAll_spec {ds : List Dest} {c1 : Crew} {x : List Nat} {sh : Dest → Shape} (ok : c1.regsOk = true) (hd : ∀ D ∈ ds, D.d < 120) (hn : (ds.map fun D => D.d).Nodup)
    (hv : ∀ D ∈ ds, D.vals.map (fun p => p.1) = x) (hx : x.Nodup) (hg : ∀ D ∈ ds, sh D = .g → (c1.desc D.d).shape = .g) :
    let c2 := ds.foldl (fun c d => c.putValue d.d (sh d) d.tag d.base d.stride d.vals) c1
    c2.regsOk = true ∧ c2 = { c1 with regs := c2.regs, rows := c2.rows } ∧
    (∀ D ∈ ds, ∀ k, k < c1.size → k ∈ x ∨ sh D ≠ .g → c2.elem D.d k = D.value (sh D) k) ∧
    (∀ D ∈ ds, ∀ k, k < c1.size → sh D = .g → k ∉ x → c2.elem D.d k = c1.elem D.d k) ∧
    (∀ r k, r < 120 → r ∉ ds.map (fun D => D.d) → c2.elem r k = c1.elem r k) ∧
    (∀ r, r ∉ ds.map (fun D => D.d) → c2.desc r = c1.desc r) ∧ (∀ D ∈ ds, (c2.desc D.d).tag = D.tag ∧ (c2.desc D.d).shape = sh D) := by
  induction ds generalizing c1 with
  | nil => exact ⟨ok, rfl, by simp, by simp, fun _ _ _ _ => rfl, fun _ _ => rfl, by simp⟩
  | cons D ds ih =>
    rw [List.map_cons, List.nodup_cons] at hn
    obtain ⟨a1, a2, a3, a4, a5, a6, a7, a8⟩ := putDest_spec (sh := sh D) ok (hd D (by simp)) (hg D (by simp)) (by rw [hv D (by simp)]; exact hx)
    simp only [List.foldl_cons]
    generalize hc : c1.putValue D.d (sh D) D.tag D.base D.stride D.vals = c2 at *
    have hsz : c2.size = c1.size := by rw [a2]
    have hg2 : ∀ E ∈ ds, sh E = .g → (c2.desc E.d).shape = .g := by
      intro E hE g
      have hne : E.d ≠ D.d := fun e => hn.1 (List.mem_map.2 ⟨E, hE, e⟩)
      rw [a6 _ hne]; exact hg E (by simp [hE]) g
    obtain ⟨b1, b2, b3, b4, b5, b6, b7⟩ := ih a1 (fun E hE => hd E (by simp [hE])) hn.2 (fun E hE => hv E (by simp [hE])) hg2
    have hD120 := hd D (by simp)
    refine ⟨b1, b2.trans (by rw [a2]), ?_, ?_, ?_, ?_, ?_⟩
    · intro E hE k hk hm
      rcases List.mem_cons.1 hE with rfl | hE
      · rw [b5 _ _ hD120 hn.1]; exact a3 k hk (by rw [hv E (by simp)]; exact hm)
      · exact b3 E hE k (by rw [hsz]; exact hk) hm
    · intro E hE k hk g hm
      rcases List.mem_cons.1 hE with rfl | hE
      · rw [b5 _ _ hD120 hn.1]; exact a4 k hk g (by rw [hv E (by simp)]; exact hm)
      · have hne : E.d ≠ D.d := fun e => hn.1 (List.mem_map.2 ⟨E, hE, e⟩)
        rw [b4 E hE k (by rw [hsz]; exact hk) g hm]; exact a5 _ _ (hd E (by simp [hE])) hne
    · intro r k hr hm
      simp only [List.map_cons, List.mem_cons, not_or] at hm
      rw [b5 r k hr hm.2]; exact a5 r k hr hm.1
    · intro r hm
      simp only [List.map_cons, List.mem_cons, not_or] at hm
      rw [b6 r hm.2]; exact a6 r hm.1
    · intro E hE
      rcases List.mem_cons.1 hE with rfl | hE
      · rw [b6 _ hn.1]; exact ⟨a7, a8⟩
      · exact b7 E hE

/-- What writing fixed-latency results does to the crew (R40): the destinations hold their values at the ranks that wrote, everything else reads as before. -/
theorem writeAll_spec {ds : List Dest} {c c1 : Crew} {x : List Nat} (ok : c.regsOk = true) (hd : ∀ D ∈ ds, D.d < 120) (hn : (ds.map fun D => D.d).Nodup)
    (hv : ∀ D ∈ ds, D.vals.map (fun p => p.1) = x) (hx : x.Nodup) (hp : c.prepare ds x = some c1) :
    (c1.putAll ds x).regsOk = true ∧ c1.putAll ds x = { c with regs := (c1.putAll ds x).regs, rows := (c1.putAll ds x).rows } ∧
    (∀ D ∈ ds, ∀ k ∈ x, k < c.size → (c1.putAll ds x).elem D.d k = D.value (c.writeShape D.d D.shape x) k) ∧
    (∀ D ∈ ds, ∀ k ∈ c.liveSet, k < c.size → k ∉ x → (c1.putAll ds x).elem D.d k = c.elem D.d k) ∧
    (∀ r k, r < 120 → k < c.size → r ∉ ds.map (fun D => D.d) → (c1.putAll ds x).elem r k = c.elem r k) ∧
    (∀ r, r ∉ ds.map (fun D => D.d) → (c1.putAll ds x).desc r = c.desc r) ∧
    (∀ D ∈ ds, ((c1.putAll ds x).desc D.d).tag = D.tag ∧ ((c1.putAll ds x).desc D.d).shape = c.writeShape D.d D.shape x) := by
  have hd' : ∀ p ∈ ds.map (fun d => (d.d, c.writeShape d.d d.shape x)), p.1 < 120 := by
    intro p hp; obtain ⟨D, hD, rfl⟩ := List.mem_map.1 hp; exact hd D hD
  obtain ⟨a1, a2, a3, a4, a5, a6, a7⟩ := shapeSteps_spec ok hd' hp
  have hmap : (ds.map (fun d => (d.d, c.writeShape d.d d.shape x))).map (fun p => p.1) = ds.map fun D => D.d := by simp
  have hfib : c1.fibres = c.fibres := by rw [a2]
  have hsz : c1.size = c.size := by rw [a2]
  have hws (D : Dest) : c1.writeShape D.d D.shape x = c.writeShape D.d D.shape x := writeShape_congr hfib _ _ _
  have hg : ∀ D ∈ ds, c1.writeShape D.d D.shape x = .g → (c1.desc D.d).shape = .g := by
    intro D hD g; rw [hws] at g
    exact a7 (D.d, c.writeShape D.d D.shape x) (List.mem_map.2 ⟨D, hD, rfl⟩) g
  obtain ⟨b1, b2, b3, b4, b5, b6, b7⟩ := putAll_spec (sh := fun D => c1.writeShape D.d D.shape x) a1 hd hn hv hx hg
  change (c1.putAll ds x).regsOk = true ∧ _ 
  refine ⟨b1, ?_, ?_, ?_, ?_, ?_, ?_⟩
  · exact b2.trans (by rw [a2]; rfl)
  · intro D hD k hk hs
    have := b3 D hD k (by rw [hsz]; exact hs) (.inl hk)
    rw [hws] at this; exact this
  · intro D hD k hl hs hk
    have g : c.writeShape D.d D.shape x = .g := by
      unfold Crew.writeShape; rw [if_pos]
      have : x ≠ c.liveSet := fun e => hk (e ▸ hl)
      simp [this]
    refine (b4 D hD k (by rw [hsz]; exact hs) (by rw [hws]; exact g) hk).trans (a3 _ _ (hd D hD) hs)
  · intro r k hr hs hm
    exact (b5 r k hr hm).trans (a3 r k hr hs)
  · intro r hm
    exact (b6 r hm).trans (a5 r (by rw [hmap]; exact hm))
  · intro D hD
    have := b7 D hD
    rw [hws] at this; exact this

end Sys2Proof.Machine
end

