-- ==== Sys2Proof/Laws/Course.lean ====
section
/-! SUPPORT. The courses of instructions that write registers and fibres: what finish, alu and plan answer at a ready turn. -/
namespace Sys2Proof.Machine

/-- The pc of a fibre moved on, at a new region where its instruction closed one. -/
def goOn (fm : Form) (next : PcAddr) (done : List Nat) (m k : Nat) (f : Fibre) : Fibre :=
  let g := { f with pc := next }
  if fm.region && done.contains k then g.region next m else g

/-- A fibre at the end of a run. -/
def settle (m : Nat) (f : Fibre) : Fibre := if f.st == .issuing then { f with st := .ready, stamp := m } else f

theorem settle_onward (m : Nat) (f : Fibre) : (settle m f).pc = f.pc ∧ Onward f (settle m f) := by
  unfold settle; split <;> exact ⟨rfl, rfl⟩

theorem goOn_onward (fm : Form) (next : PcAddr) (done : List Nat) (m k : Nat) (f : Fibre) :
    (goOn fm next done m k f).pc = next ∧ Onward (if fm.region = true ∧ k ∈ done then f.region next m else f) (goOn fm next done m k f) := by
  unfold goOn
  by_cases h : fm.region = true ∧ k ∈ done
  · have : (fm.region && done.contains k) = true := by simpa using h
    simp only [this, if_true, if_pos h]; exact ⟨rfl, rfl⟩
  · have : ¬ (fm.region && done.contains k) = true := by simpa using h
    simp only [this, if_neg h]; exact ⟨rfl, rfl⟩

theorem Onward.trans {f g h : Fibre} (a : Onward f g) (b : Onward g h) : Onward f h := by
  unfold Onward at *; rw [b, a]

theorem fixConv_eq (c : Crew) : c.fixConv = { c with converged := c.fixConv.converged } := by
  unfold Crew.fixConv; split <;> rfl

theorem sameCrew_trans {c d e : Crew} (a : d = { c with fibres := d.fibres, converged := d.converged }) (b : e = { d with fibres := e.fibres, converged := e.converged }) :
    e = { c with fibres := e.fibres, converged := e.converged } := by rw [b, a]

theorem sameCrew_fixConv (c : Crew) : c.fixConv = { c with fibres := c.fixConv.fibres, converged := c.fixConv.converged } := by
  unfold Crew.fixConv; split <;> rfl

theorem sameCrew_modFibs (x : List Nat) (f : Nat → Fibre → Fibre) (c : Crew) :
    c.modFibs x f = { c with fibres := (c.modFibs x f).fibres, converged := (c.modFibs x f).converged } := by
  have h := modFibs_eq x f c
  generalize c.modFibs x f = d at *
  rw [h]

/-- The instruction is done: its fibres move on. -/
theorem finish_spec {u : State} {t : Turn} {d : Crew} (hc : u.cur = some t.i) (hd : u.getCrew t.i.crew = some d) (hg : t.gone = []) (hn : t.i.ranks.Nodup) (done : List Nat) :
    ∃ v, u.finish t done = .next v ∧ MovedOn u v t.i t.f d d done fun _ f => f := by
  have hstay : (t.i.ranks.filter fun k => !t.gone.contains k) = t.i.ranks := List.filter_eq_self.2 (by simp [hg])
  let move (c : Crew) : Crew := c.modFibs t.i.ranks (goOn t.f (t.i.pc + 4) done u.nextId)
  have hmid (c : Crew) (e : c.id = t.i.crew) : (move c).id = t.i.crew := (modFibs_id _ _ c).trans e
  have h1 : (u.modCrew t.i.crew move).getCrew t.i.crew = some (move d) := getCrew_modCrew_same hmid hd
  by_cases hb : t.f.b = true
  · let last (c : Crew) : Crew := (c.modFibs t.i.ranks fun _ => settle u.cycles).fixConv
    have hlid (c : Crew) (e : c.id = t.i.crew) : (last c).id = t.i.crew := by
      show (Crew.fixConv _).id = _
      rw [fixConv_eq]; exact (modFibs_id _ _ c).trans e
    refine ⟨State.modCrew { u.modCrew t.i.crew move with cur := none } t.i.crew last, ?_, last (move d), u.nextId, ?_, ?_, ?_, ?_, ?_, ?_⟩
    · unfold State.finish
      simp only [hc, hb, Bool.true_or, if_true, hstay]
      rfl
    · exact getCrew_modCrew_same (s := { u.modCrew t.i.crew move with cur := none }) hlid h1
    · exact sameCrew_trans (sameCrew_modFibs _ _ d) (sameCrew_trans (sameCrew_modFibs _ _ _) (sameCrew_fixConv _))
    · intro k f hf
      have e1 : (last (move d)).fib k = ((move d).modFibs t.i.ranks fun _ => settle u.cycles).fib k := by
        show (Crew.fixConv _).fib k = _
        rw [fixConv_eq]; rfl
      rw [e1, modFibs_fib hn, modFibs_fib hn]
      by_cases hk : k ∈ t.i.ranks
      · simp only [if_pos hk, hf, Option.map_some]
        obtain ⟨p1, o1⟩ := goOn_onward t.f (t.i.pc + 4) done u.nextId k f
        obtain ⟨p2, o2⟩ := settle_onward u.cycles (goOn t.f (t.i.pc + 4) done u.nextId k f)
        refine ⟨_, rfl, p2.trans p1, ?_⟩
        have : (if t.f.region = true ∧ k ∈ t.i.ranks ∧ k ∈ done then f.region (t.i.pc + 4) u.nextId else f) = if t.f.region = true ∧ k ∈ done then f.region (t.i.pc + 4) u.nextId else f := by
          simp [hk]
        rw [this]; exact o1.trans o2
      · simp only [if_neg hk, hf]
        refine ⟨f, rfl, rfl, ?_⟩
        rw [if_neg (fun h => hk h.2.1)]; rfl
    · intro id hid
      exact (getCrew_modCrew_other (s := { u.modCrew t.i.crew move with cur := none }) hlid hid).trans (getCrew_modCrew_other (s := u) hmid hid)
    · rfl
    · simp [hb]
  · have hbf : t.f.b = false := by simpa using hb
    refine ⟨{ u.modCrew t.i.crew move with cur := some t.i.onward }, ?_,
      move d, u.nextId, h1, ?_, ?_, ?_, rfl, ?_⟩
    · unfold State.finish
      simp only [hc, hbf, hg, List.isEmpty_nil, Bool.not_true, Bool.or_self]
      have : (t.i.ranks.filter fun k => !([] : List Nat).contains k) = t.i.ranks := List.filter_eq_self.2 (by simp)
      rw [this]; rfl
    · exact sameCrew_modFibs _ _ d
    · intro k f hf
      rw [show (move d).fib k = _ from modFibs_fib hn _ d k]
      by_cases hk : k ∈ t.i.ranks
      · simp only [if_pos hk, hf, Option.map_some]
        obtain ⟨p1, o1⟩ := goOn_onward t.f (t.i.pc + 4) done u.nextId k f
        refine ⟨_, rfl, p1, ?_⟩
        have : (if t.f.region = true ∧ k ∈ t.i.ranks ∧ k ∈ done then f.region (t.i.pc + 4) u.nextId else f) = if t.f.region = true ∧ k ∈ done then f.region (t.i.pc + 4) u.nextId else f := by
          simp [hk]
        rw [this]; exact o1
      · simp only [if_neg hk, hf]
        refine ⟨f, rfl, rfl, ?_⟩
        rw [if_neg (fun h => hk h.2.1)]; rfl
    · intro id hid; exact getCrew_modCrew_other (s := u) hmid hid
    · simp [hbf]

/-- The fibres of the crew that moves on, seen from what they were before the effect. -/
theorem MovedOn.from {u v : State} {i : Issue} {fm : Form} {c d : Crew} {done : List Nat} {fib : Nat → Fibre → Fibre}
    (h : MovedOn u v i fm d d done fun _ f => f) (hf : ∀ k f, c.fib k = some f → d.fib k = some (fib k f)) (hpc : ∀ k f, (fib k f).pc = f.pc) :
    MovedOn u v i fm c d done fib := by
  obtain ⟨c', m, h1, h2, h3, h4, h5, h6⟩ := h
  refine ⟨c', m, h1, h2, fun k f hk => ?_, h4, h5, h6⟩
  obtain ⟨g, a, b, e⟩ := h3 k _ (hf k f hk)
  exact ⟨g, a, by rw [b, hpc], e⟩

/-- The state the effect left, seen from one that differs in crews alone. -/
theorem MovedOn.base {u w v : State} {i : Issue} {fm : Form} {c d : Crew} {done : List Nat} {fib : Nat → Fibre → Fibre}
    (h : MovedOn u v i fm c d done fib) (hu : u = { w with crews := u.crews }) (ho : ∀ id, id ≠ i.crew → u.getCrew id = w.getCrew id) : MovedOn w v i fm c d done fib := by
  obtain ⟨c', m, h1, h2, h3, h4, h5, h6⟩ := h
  refine ⟨c', m, h1, h2, h3, fun id hid => (h4 id hid).trans (ho id hid), ?_, h6⟩
  rw [h5, hu]

theorem gather_ok {α : Type} {f : Nat → Chk α} {x : List Nat} {v : Nat → α} (h : ∀ k ∈ x, f k = .ok (v k)) : gather f x = some (x.map fun k => (k, v k), []) := by
  induction x with
  | nil => rfl
  | cons a l ih =>
    simp only [gather, h a (by simp), ih fun k hk => h k (by simp [hk]), List.map_cons]

theorem map_fst_pair {α : Type} (x : List Nat) (v : Nat → α) : (x.map fun k => (k, v k)).map (fun p => p.1) = x := by
  rw [List.map_map]; exact List.map_id' x

theorem valOf_pair {α : Type} {x : List Nat} {v : Nat → α} {k : Nat} (h : k ∈ x) : valOf (x.map fun k => (k, v k)) k = some (v k) := by
  induction x with
  | nil => simp at h
  | cons a l ih =>
    simp only [valOf, List.map_cons, List.find?_cons] at *
    by_cases e : a = k
    · subst e; simp
    · have : (a == k) = false := by simpa using e
      rw [this]; exact ih ((List.mem_cons.1 h).resolve_left fun x => e x.symm)

theorem filter_none {α : Type} {p : α → Bool} {l : List α} (h : ∀ a ∈ l, p a = false) : l.filter p = [] := List.filter_eq_nil_iff.2 fun a ha => by simp [h a ha]

theorem trapTurn_nil (s : State) (t : Turn) : s.trapTurn t [] = (s, t) := by simp [State.trapTurn, State.trapAll, firstTraps]

theorem getCrew_congr {s u : State} (h : u.crews = s.crews) (id : Nat) : u.getCrew id = s.getCrew id := by simp [State.getCrew, h]

theorem unmark_eq (s : State) (crew : Nat) (x l : List Nat) : s.unmark crew x l = { s with poison := (s.unmark crew x l).poison } := by
  unfold State.unmark; split <;> rfl

theorem marked_crews (s : State) (i : Issue) (x l : List Nat) (cs : List Crew) : ({ s with crews := cs } : State).marked i x l = { s.marked i x l with crews := cs } := by
  unfold State.marked State.unmark State.overwrite
  by_cases h : s.poison.isEmpty = true <;> simp [h]

theorem overwrite_nil (s : State) (i : Issue) (l : List Nat) : s.overwrite i [] l = s := by
  unfold State.overwrite
  have : (s.ops.map fun o => if o.crew == i.crew && o.run == i.run then { o with dropped := o.dropped ++ (o.ranks.filter fun k => ([] : List Nat).contains k).flatMap fun k => l.map fun r => (k, r) } else o) = s.ops := by
    refine (List.map_congr_left fun o _ => ?_).trans (List.map_id _)
    have e : (o.ranks.filter fun k => ([] : List Nat).contains k) = [] := List.filter_eq_nil_iff.2 (by simp)
    rw [e]; simp
  rw [this]

theorem overwrite_none (s : State) (i : Issue) (x : List Nat) : s.overwrite i x [] = s := by
  unfold State.overwrite
  have : (s.ops.map fun o => if o.crew == i.crew && o.run == i.run then { o with dropped := o.dropped ++ (o.ranks.filter fun k => x.contains k).flatMap fun k => ([] : List Nat).map fun r => (k, r) } else o) = s.ops := by
    refine (List.map_congr_left fun o _ => ?_).trans (List.map_id _)
    have e : ((o.ranks.filter fun k => x.contains k).flatMap fun k => ([] : List Nat).map fun r => (k, r)) = [] := List.flatMap_eq_nil_iff.2 fun _ _ => rfl
    rw [e]; simp
  rw [this]

theorem unmark_nil (s : State) (crew : Nat) (l : List Nat) : s.unmark crew [] l = s := by
  unfold State.unmark
  split
  · rfl
  · have : s.poison.filter (Datum.stands crew [] l) = s.poison := by
      refine List.filter_eq_self.2 fun m _ => ?_
      cases m <;> simp [Datum.stands]
    rw [this]

theorem marked_nil (s : State) (i : Issue) (l : List Nat) : s.marked i [] l = s := by
  unfold State.marked; rw [overwrite_nil, unmark_nil]

/-- Fixed-latency results written at a turn: the crew with its registers, every other part of the state but the marks of pending and poisoned registers as it was. -/
theorem writeDests_spec {s : State} {t : Turn} {c : Crew} {ds : List Dest} (hc : s.getCrew t.i.crew = some c) (ok : c.regsOk = true) (hx : t.x.Nodup) (hd : ∀ D ∈ ds, D.d < 120)
    (hn : (ds.map fun D => D.d).Nodup) (hv : ∀ D ∈ ds, D.vals.map (fun p => p.1) = t.x) (hlt : ∀ k ∈ t.x, k < c.size) (hp : t.x ≠ [] → (c.prepare ds t.x).isSome = true) :
    ∃ s2 d, s.writeDests t t.x ds = some s2 ∧ s2.getCrew t.i.crew = some d ∧ (∀ id, id ≠ t.i.crew → s2.getCrew id = s.getCrew id) ∧
      s2 = { s.marked t.i t.x (ds.map fun D => D.d) with crews := s2.crews } ∧
      RegsWritten c d t.x (ds.map fun D => (D.d, D.tag, D.value (c.writeShape D.d D.shape t.x))) := by
  unfold State.writeDests
  by_cases hxe : t.x = []
  · rw [hxe]
    refine ⟨s, c, rfl, hc, fun _ _ => rfl, by rw [marked_nil], ok, rfl, fun _ _ h => absurd rfl h, fun _ _ k hk => by simp at hk, fun _ _ _ _ _ => rfl, fun _ _ => rfl⟩
  · have hne : t.x.isEmpty = false := by simpa using hxe
    obtain ⟨c1, hc1⟩ := Option.isSome_iff_exists.1 (hp hxe)
    simp only [hne, hc, hc1, Option.map_some]
    obtain ⟨w1, w2, w3, w4, w5, w6, w7⟩ := writeAll_spec ok hd hn hv hx hc1
    have hid : (c1.putAll ds t.x).id = t.i.crew := by
      have : (c1.putAll ds t.x).id = c.id := by rw [w2]
      exact this.trans (getCrew_id hc)
    have hucrews : (s.marked t.i t.x (ds.map fun d => d.d)).crews = s.crews := by unfold State.marked; rw [unmark_eq]; rfl
    generalize hu : s.marked t.i t.x (ds.map fun d => d.d) = u at *
    have huc : u.getCrew t.i.crew = some c := (getCrew_congr hucrews _).trans hc
    refine ⟨_, c1.putAll ds t.x, rfl, getCrew_modCrew_same (fun _ _ => hid) huc, fun id h => (getCrew_modCrew_other (fun _ _ => hid) h).trans (getCrew_congr hucrews _), ?_, w1, w2, ?_, ?_, ?_, ?_⟩
    · rfl
    · intro D hD _
      obtain ⟨E, hE, rfl⟩ := List.mem_map.1 hD
      exact (w7 E hE).1
    · intro D hD k hk
      obtain ⟨E, hE, rfl⟩ := List.mem_map.1 hD
      exact w3 E hE k hk (hlt k hk)
    · intro r k hr hk hm
      have hmm : (ds.map fun D => (D.d, D.tag, D.value (c.writeShape D.d D.shape t.x))).map (fun D => D.1) = ds.map fun D => D.d := by simp
      rw [hmm] at hm
      by_cases hrd : r ∈ ds.map fun D => D.d
      · obtain ⟨hl, hkx⟩ := hm.resolve_left (fun h => h hrd)
        obtain ⟨E, hE, rfl⟩ := List.mem_map.1 hrd
        exact w4 E hE k hl hk hkx
      · exact w5 r k hr hk hrd
    · intro r hr
      have hmm : (ds.map fun D => (D.d, D.tag, D.value (c.writeShape D.d D.shape t.x))).map (fun D => D.1) = ds.map fun D => D.d := by simp
      rw [hmm] at hr
      rw [w6 r hr]

theorem RegsWritten.fibres {c d : Crew} {x : List Nat} {ds : List (Nat × Tag × (Nat → Word))} (h : RegsWritten c d x ds) : d.fibres = c.fibres := by rw [h.2.1]
theorem RegsWritten.size {c d : Crew} {x : List Nat} {ds : List (Nat × Tag × (Nat → Word))} (h : RegsWritten c d x ds) : d.size = c.size := by rw [h.2.1]

/-- Fibres changed leave the register file. -/
theorem regsOk_modFibs {c : Crew} (x : List Nat) (f : Nat → Fibre → Fibre) (h : c.regsOk = true) : (c.modFibs x f).regsOk = true := by
  have e := modFibs_eq x f c
  have l := modFibs_length x f c
  generalize c.modFibs x f = d at *
  rw [regsOk_iff] at *
  rw [e]; rw [l] ; exact h

/-! ### Effects on fibres that leave who is live and in an attempt -/

/-- Each fibre keeps whether it is live, its attempt, and the TXBEGIN it stands at. -/
def Quiet (f : Nat → Fibre → Fibre) : Prop := ∀ k g, (f k g).live = g.live ∧ (f k g).tx = g.tx ∧ (f k g).begins = g.begins

theorem popAll_eq (rs : List Reg) (f : Fibre) : f.popAll rs = { f with feeds := (f.popAll rs).feeds } := by
  unfold Fibre.popAll
  induction rs generalizing f with
  | nil => rfl
  | cons r rs ih =>
    rw [List.foldl_cons]
    split
    · exact ih f
    · rw [ih]

theorem quiet_popAll (rs : List Reg) : Quiet fun _ f => f.popAll rs := fun _ f => by
  have h := popAll_eq rs f
  show (f.popAll rs).live = _ ∧ (f.popAll rs).tx = _ ∧ (f.popAll rs).begins = _
  rw [h]; exact ⟨rfl, rfl, rfl⟩

theorem ranksOf_modFibs {c : Crew} {x : List Nat} {f : Nat → Fibre → Fibre} (hf : Quiet f) : (c.modFibs x f).liveSet = c.liveSet ∧ ∀ d, (c.modFibs x f).txHeld d = c.txHeld d := by
  have key (l : List Fibre) (k j : Nat) (h : Fibre → Fibre) (hh : ∀ g, (h g).live = g.live ∧ (h g).tx = g.tx ∧ (h g).begins = g.begins) :
      ranksOf (fun f => f.live) j (updAt l k h) = ranksOf (fun f => f.live) j l ∧ ∀ d, ((updAt l k h).any fun f => (match f.tx with | some t => t.d.toNat == d | none => false) || (match f.begins with | some b => b.1.toNat == d | none => false)) =
        l.any fun f => (match f.tx with | some t => t.d.toNat == d | none => false) || (match f.begins with | some b => b.1.toNat == d | none => false) := by
    unfold updAt
    cases e : l[k]? with
    | none => exact ⟨rfl, fun _ => rfl⟩
    | some a =>
      induction l generalizing k j with
      | nil => simp at e
      | cons b l ih =>
        cases k with
        | zero =>
          simp only [List.getElem?_cons_zero, Option.some.injEq] at e; subst e
          constructor
          · simp only [List.set_cons_zero, ranksOf, (hh b).1]
          · intro d; simp only [List.set_cons_zero, List.any_cons, (hh b).2.1, (hh b).2.2]
        | succ k =>
          obtain ⟨p, q⟩ := ih k (j + 1) (by simpa using e)
          simp only [List.set_cons_succ, ranksOf, p, List.any_cons]
          exact ⟨trivial, fun d => by rw [q d]⟩
  unfold Crew.modFibs
  induction x generalizing c with
  | nil => exact ⟨rfl, fun _ => rfl⟩
  | cons a l ih =>
    rw [List.foldl_cons]
    obtain ⟨p, q⟩ := ih (c := c.modFib a (f a))
    obtain ⟨r, w⟩ := key c.fibres a 0 (f a) (hf a)
    exact ⟨p.trans r, fun d => (q d).trans (w d)⟩

theorem writeShape_modFibs {c : Crew} {x : List Nat} {f : Nat → Fibre → Fibre} (hf : Quiet f) (d : Nat) (sh : Shape) (y : List Nat) :
    (c.modFibs x f).writeShape d sh y = c.writeShape d sh y := by
  obtain ⟨p, q⟩ := ranksOf_modFibs (c := c) (x := x) hf
  unfold Crew.writeShape; rw [p, q]

theorem shapeStep_fibres (c : Crew) (F : List Fibre) (d : Nat) (sh : Shape) : Crew.shapeStep { c with fibres := F } d sh = (c.shapeStep d sh).map fun e => { e with fibres := F } := by
  unfold Crew.shapeStep
  show (if sh != .g || (c.desc d).shape == .g then _ else _) = _
  split
  · rfl
  · show (match c.freeRow with | none => none | some r => _) = Option.map _ (match c.freeRow with | none => none | some r => _)
    cases c.freeRow <;> rfl

theorem shapeSteps_fibres (l : List (Nat × Shape)) (c : Crew) (F : List Fibre) : Crew.shapeSteps { c with fibres := F } l = (c.shapeSteps l).map fun e => { e with fibres := F } := by
  induction l generalizing c with
  | nil => rfl
  | cons p l ih =>
    unfold Crew.shapeSteps
    rw [shapeStep_fibres]
    cases c.shapeStep p.1 p.2 with
    | none => rfl
    | some e => exact ih e

theorem prepare_modFibs {c : Crew} {x : List Nat} {f : Nat → Fibre → Fibre} (hf : Quiet f) (ds : List Dest) (y : List Nat) :
    ((c.modFibs x f).prepare ds y).isSome = (c.prepare ds y).isSome := by
  unfold Crew.prepare
  simp only [writeShape_modFibs hf]
  rw [modFibs_eq, shapeSteps_fibres]; simp

/-- Registers written after quiet changes of the fibres, seen from before them. -/
theorem RegsWritten.before {c d : Crew} {x y : List Nat} {f : Nat → Fibre → Fibre} {ds : List (Nat × Tag × (Nat → Word))} (hf : Quiet f)
    (h : RegsWritten (c.modFibs y f) d x ds) : RegsWritten c { c with regs := d.regs, rows := d.rows } x ds ∧ d.fibres = (c.modFibs y f).fibres ∧
      d = { c with regs := d.regs, rows := d.rows, fibres := d.fibres } := by
  obtain ⟨h1, h2, h3, h4, h5, h6⟩ := h
  obtain ⟨p, -⟩ := ranksOf_modFibs (c := c) (x := y) hf
  have e := modFibs_eq y f c
  have l := modFibs_length y f c
  generalize c.modFibs y f = b at *
  have eb : b.regs = c.regs ∧ b.rows = c.rows ∧ b.size = c.size ∧ b.grows = c.grows := by rw [e]; exact ⟨rfl, rfl, rfl, rfl⟩
  have edesc (r : Nat) : b.desc r = c.desc r := by simp only [Crew.desc, eb.1]
  have eelem (r k : Nat) : b.elem r k = c.elem r k := by simp only [Crew.elem, edesc, eb.2.1]
  refine ⟨⟨?_, rfl, h3, h4, ?_, ?_⟩, by rw [h2], by rw [h2, e]⟩
  · rw [regsOk_iff] at h1 ⊢
    have ed : d.size = c.size ∧ d.grows = c.grows ∧ d.fibres.length = c.fibres.length := by rw [h2]; exact ⟨eb.2.2.1, eb.2.2.2, l⟩
    rw [ed.1, ed.2.1, ed.2.2] at h1
    exact h1
  · intro r k hr hk hm
    rw [p, eb.2.2.1] at h5
    exact (h5 r k hr hk hm).trans (eelem r k)
  · intro r hr; exact (h6 r hr).trans (by rw [edesc])

/-! ### The courses at a ready turn -/

theorem Ready.lt_size {s : State} {ins : Instr} {i : Issue} {c : Crew} {x : List Nat} (h : Ready s ins i c x) (ok : c.regsOk = true) : ∀ k ∈ x, k < c.size := by
  intro k hk; rw [← ((regsOk_iff c).1 ok).2.1]; exact h.x_lt k hk

theorem map_fst_filter_nil {α : Type} (l : List (Nat × α)) (p : Nat × α → Bool) (h : ∀ a ∈ l, p a = false) : (l.filter p).map (fun a => a.1) = [] := by
  rw [filter_none h]; rfl

theorem readThen_ok {α : Type} {s : State} {c : Crew} {k : Nat} {srcs : List Reg} {l : List (Word × Tag)} {f : List (Word × Tag) → Chk α} (h : Reads s c k srcs l) :
    s.readThen c k srcs f = f l := by unfold State.readThen; rw [h.1]

/-- Every fibre passes: the values it reads, no trap. -/
theorem checkAll_ok {α : Type} {s : State} {c : Crew} {x : List Nat} {srcs : List Reg} {f : Nat → List (Word × Tag) → Chk α} {v : Nat → α}
    (h : ∀ k ∈ x, ∃ l, Reads s c k srcs l ∧ f k l = .ok (v k)) : s.checkAll c x srcs f = some (x.map fun k => (k, v k), []) := by
  refine gather_ok fun k hk => ?_
  obtain ⟨l, h1, h2⟩ := h k hk
  rw [readThen_ok h1, h2]

theorem splitPoison_ok {α : Type} {s : State} {c : Crew} {srcs : List Reg} {x : List Nat} {v : Nat → α} (h : ∀ k ∈ x, s.regPoisoned c.id k srcs = false) :
    s.splitPoison c srcs (x.map fun k => (k, v k)) = (x.map fun k => (k, v k), []) := by
  unfold State.splitPoison
  have h1 : ∀ p ∈ x.map (fun k => (k, v k)), s.regPoisoned c.id p.1 srcs = false := by
    intro p hp; obtain ⟨k, hk, rfl⟩ := List.mem_map.1 hp; exact h k hk
  rw [filter_none h1, List.filter_eq_self.2 fun p hp => by simp [h1 p hp]]; rfl

theorem finishTraps_nil (s : State) (t : Turn) (done : List Nat) : s.finishTraps t [] done = s.finish t done := by
  unfold State.finishTraps; rw [trapTurn_nil]

/-- An effect on fibres and the end of the turn, after writes to registers that began with quiet changes of the fibres. -/
theorem finish_after_regs {m s2 : State} {i : Issue} {fm : Form} {c d : Crew} {x : List Nat} {ds : List (Nat × Tag × (Nat → Word))} {q e : Nat → Fibre → Fibre}
    (hn : i.ranks.Nodup) (hx : x.Nodup) (hcur : s2.cur = some i) (hc2 : s2.getCrew i.crew = some d) (ho : ∀ id, id ≠ i.crew → s2.getCrew id = m.getCrew id)
    (hs2 : s2 = { m with crews := s2.crews }) (hq : Quiet q) (hw : RegsWritten (c.modFibs x q) d x ds)
    (hpc : ∀ k f, (e k (q k f)).pc = f.pc) (t0 : Turn) (ht : t0 = ⟨i, fm, x, []⟩) :
    ∃ t, (s2.modRanks i.crew x e).finish t0 x = .next t ∧ RegsWritten c { c with regs := d.regs, rows := d.rows } x ds ∧
      MovedOn m t i fm c { c with regs := d.regs, rows := d.rows } x fun k f => if k ∈ x then e k (q k f) else f := by
  subst ht
  obtain ⟨r1, r2, r3⟩ := hw.before hq
  obtain ⟨t, f1, f2⟩ := finish_spec (t := ⟨i, fm, x, []⟩) (show (s2.modRanks i.crew x e).cur = some i from hcur) (getCrew_modRanks_same hc2) rfl hn x
  refine ⟨t, f1, r1, ?_⟩
  have f3 := f2.from (c := c) (fib := fun k f => if k ∈ x then e k (q k f) else f) ?_ ?_
  · obtain ⟨c', n, g1, g2, g3, g4, g5, g6⟩ := f3
    refine ⟨c', n, g1, ?_, g3, fun id hid => ?_, ?_, g6⟩
    · rw [g2, sameCrew_modFibs x e d, r3]
    · exact ((g4 id hid).trans (getCrew_modRanks_other hid)).trans (ho id hid)
    · rw [g5]
      simp only [State.modRanks, State.modCrew]
      rw [hs2]
  · intro k f hf
    rw [modFibs_fib hx]
    have hdf : d.fib k = if k ∈ x then (c.fib k).map (q k) else c.fib k := by
      show d.fibres[k]? = _
      rw [r2]; exact modFibs_fib hx _ c k
    by_cases hk : k ∈ x
    · rw [if_pos hk, hdf, if_pos hk, hf]; simp [hk]
    · rw [if_neg hk, hdf, if_neg hk, hf]; simp [hk]
  · intro k f
    by_cases hk : k ∈ x
    · simp only [if_pos hk]; exact hpc k f
    · simp only [if_neg hk]

theorem finish_after {m s2 : State} {i : Issue} {fm : Form} {c d : Crew} {x : List Nat} {ds : List (Nat × Tag × (Nat → Word))} {q e : Nat → Fibre → Fibre}
    (hn : i.ranks.Nodup) (hx : x.Nodup) (hcur : s2.cur = some i) (hc2 : s2.getCrew i.crew = some d) (ho : ∀ id, id ≠ i.crew → s2.getCrew id = m.getCrew id)
    (hs2 : s2 = { m with crews := s2.crews }) (hq : Quiet q) (hw : RegsWritten (c.modFibs x q) d x ds)
    (hpc : ∀ k f, (e k (q k f)).pc = f.pc) (t0 : Turn) (ht : t0 = ⟨i, fm, x, []⟩) :
    ∃ t d', (s2.modRanks i.crew x e).finish t0 x = .next t ∧ RegsWritten c d' x ds ∧
      MovedOn m t i fm c d' x fun k f => if k ∈ x then e k (q k f) else f := by
  obtain ⟨t, h⟩ := finish_after_regs hn hx hcur hc2 ho hs2 hq hw hpc t0 ht
  exact ⟨t, _, h⟩

theorem marked_after (s : State) (i : Issue) (x p l : List Nat) (crew : Nat) (y : List Nat) (q : Nat → Fibre → Fibre) :
    ∃ m : State, m = (s.overwrite i x p).marked i x l ∧ ((s.modRanks crew y q).overwrite i x p).marked i x l = { m with crews := (s.modRanks crew y q).crews } ∧
      m.crews = s.crews ∧ m.cur = s.cur :=
  ⟨_, rfl, marked_crews (s.overwrite i x p) i x l _, by unfold State.marked; rw [unmark_eq]; rfl, by unfold State.marked; rw [unmark_eq]; rfl⟩

theorem Plan.overflows_same {α : Type} (a : Plan α) (c : Crew) (l : List (Nat × α)) : a.overflows c l l = false := by
  unfold Plan.overflows; cases l <;> simp

theorem Alu.overflows_same (a : Alu) (t : Turn) (c : Crew) (l : List (Nat × List (Word × Tag))) : a.overflows t c l l = false := by
  unfold Alu.overflows; cases l <;> simp

/-- An instruction of fixed latency at a ready turn whose fibres all pass its checks (the course of `plan`): the destinations it names, and its effect on each executing fibre. -/
theorem plan_done {α : Type} {s : State} {ins : Instr} {i : Issue} {c : Crew} {x : List Nat} {mk : State → Crew → Turn → Plan α} {a : Plan α} {v : Nat → α}
    (h : Ready s ins i c x) (ok : c.regsOk = true) (ha : mk s c ⟨i, formOf c i.ext ins, x, []⟩ = a)
    (hr : ∀ k ∈ x, ∃ l, Reads s c k a.srcs l ∧ a.check k l = .ok (v k))
    (hd : ∀ D ∈ a.dests (x.map fun k => (k, v k)), D.d < 120 ∧ D.vals.map (fun p => p.1) = x) (hn : ((a.dests (x.map fun k => (k, v k))).map fun D => D.d).Nodup)
    (hroom : x ≠ [] → (c.prepare (a.dests (x.map fun k => (k, v k))) x).isSome = true) (hq : ∀ k w f, (a.fibre k w f).pc = f.pc) :
    ∃ t d, s.plan ins mk = .next t ∧
      RegsWritten c d x ((a.dests (x.map fun k => (k, v k))).map fun D => (D.d, D.tag, D.value (c.writeShape D.d D.shape x))) ∧
      MovedOn ((s.overwrite i x (a.preds.map fun p => 128 + p.toNat)).marked i x ((a.dests (x.map fun k => (k, v k))).map fun D => D.d)) t i (formOf c i.ext ins) c d x
        fun k f => if k ∈ x then a.fibre k (v k) (f.popAll a.srcs) else f := by
  have hc := h.crew_eq
  have hid := getCrew_id hc
  unfold State.plan
  rw [perform_ready h]
  simp only [ha, checkAll_ok hr, splitPoison_ok (x := x) (v := v) fun k hk => (hr k hk).elim fun _ p => p.1.2, map_fst_pair, Plan.overflows_same, Bool.false_eq_true, if_false, List.append_nil, finishTraps_nil]
  have h1c : (s.modRanks c.id x fun _ f => f.popAll a.srcs).getCrew i.crew = some (c.modFibs x fun _ f => f.popAll a.srcs) := by rw [hid]; exact getCrew_modRanks_same hc
  have h1o (id : Nat) (hne : id ≠ i.crew) : (s.modRanks c.id x fun _ f => f.popAll a.srcs).getCrew id = s.getCrew id := getCrew_modRanks_other (by rw [hid]; exact hne)
  have hsz : (c.modFibs x fun _ f => f.popAll a.srcs).size = c.size := by rw [modFibs_eq]
  obtain ⟨s2, d, e1, e2, e3, e4, e5⟩ := writeDests_spec (s := (s.modRanks c.id x fun _ f => f.popAll a.srcs).overwrite i x (a.preds.map fun p => 128 + p.toNat))
    (t := ⟨i, formOf c i.ext ins, x, []⟩) (ds := a.dests (x.map fun k => (k, v k))) h1c (regsOk_modFibs _ _ ok) h.x_nodup (fun D hD => (hd D hD).1) hn (fun D hD => (hd D hD).2)
    (fun k hk => by rw [hsz]; exact h.lt_size ok k hk) (fun hx => by rw [prepare_modFibs (quiet_popAll _)]; exact hroom hx)
  simp only [hid] at e1 e3 e4 h1o ⊢
  simp only [e1]
  simp only [writeShape_modFibs (quiet_popAll _)] at e5
  obtain ⟨m, hm0, hm, hmc, hmcur⟩ := marked_after s i x (a.preds.map fun p => 128 + p.toNat) ((a.dests (x.map fun k => (k, v k))).map fun D => D.d) i.crew x fun _ f => f.popAll a.srcs
  rw [← hm0]
  replace e4 : s2 = { m with crews := s2.crews } := e4.trans (by rw [hm])
  have hcur : s2.cur = some i := by rw [e4]; exact hmcur.trans h.cur_eq
  obtain ⟨t, d', f1, f2, f3⟩ := finish_after (m := m) (e := a.effect (x.map fun k => (k, v k))) (q := fun _ f => f.popAll a.srcs) h.ranks_nodup h.x_nodup hcur e2
    (fun id hne => ((e3 id hne).trans (h1o id hne)).trans (getCrew_congr hmc id).symm) (by rw [e4]) (quiet_popAll _) e5 (fun k f => by
      unfold Plan.effect
      split
      · rw [hq, popAll_eq]
      · rw [popAll_eq]) ⟨i, formOf c i.ext ins, x, []⟩ rfl
  refine ⟨t, d', f1, f2, ?_⟩
  have : (fun k f => if k ∈ x then a.effect (x.map fun k => (k, v k)) k (f.popAll a.srcs) else f) = fun k f => if k ∈ x then a.fibre k (v k) (f.popAll a.srcs) else f := by
    funext k f
    by_cases hk : k ∈ x
    · simp only [if_pos hk, Plan.effect, valOf_pair hk]
    · simp only [if_neg hk]
  rw [this] at f3; exact f3

end Sys2Proof.Machine
end

