-- ==== Sys2Proof/Laws/Alu.lean ====
section
/-! SUPPORT. What an ALU instruction answers at a ready turn: the same value at each rank whatever the shape of its result (01_execution R37, R39, R40), and its flags. -/
namespace Sys2Proof.Machine

theorem readSrcs_held {s : State} {c : Crew} {k : Nat} {rs prev : List Reg} (h : ∀ r ∈ rs, r.toNat < 120) :
    s.readSrcs c k prev rs = .ok (rs.map fun r => (c.elem r.toNat k, c.tagOf r)) := by
  induction rs generalizing prev with
  | nil => rfl
  | cons r rs ih =>
    simp only [State.readSrcs, State.readSrc, h r (by simp), if_true, ih fun q hq => h q (by simp [hq]), List.map_cons]

theorem readSrcs_length {s : State} {c : Crew} {k : Nat} {rs prev : List Reg} {l : List (Word × Tag)} (h : s.readSrcs c k prev rs = .ok l) : l.length = rs.length := by
  induction rs generalizing prev l with
  | nil => cases h; rfl
  | cons r rs ih =>
    unfold State.readSrcs at h
    split at h
    · cases h
    · split at h
      · cases h
      · rename_i l' h'
        cases h; simp [ih h']

theorem elem_u {c : Crew} {d : Nat} (h : (c.desc d).shape = .u) (k : Nat) : c.elem d k = (c.desc d).base := by simp [Crew.elem, h]
theorem elem_a {c : Crew} {d : Nat} (h : (c.desc d).shape = .a) (k : Nat) : c.elem d k = (c.desc d).base + (c.desc d).stride * BitVec.ofNat 32 k := by simp [Crew.elem, h]

theorem shapeOf_lt {c : Crew} {r : Reg} (h : c.shapeOf r ≠ .g) : r.toNat < 120 ∧ c.shapeOf r = (c.desc r.toNat).shape := by
  unfold Crew.shapeOf at *; split at h
  · rename_i e; exact ⟨e, by simp [e]⟩
  · exact absurd rfl h

theorem envAt_sat {c : Crew} {x : Ext} {k j : Nat} {f g : Fibre} (hk : c.fib k = some f) (hj : c.fib j = some g) : (c.envAt x k).sat = (c.envAt x j).sat := by
  simp only [Crew.envAt, hk, hj, Ext.env]; split <;> rfl

theorem envAt_mode {c : Crew} {x : Ext} {k j : Nat} {f g : Fibre} (hk : c.fib k = some f) (hj : c.fib j = some g) (hd : x.dynamicMode = false) :
    (c.envAt x k).mode = (c.envAt x j).mode := by
  simp only [Crew.envAt, hk, hj, Ext.env, Ext.dynamicMode] at *
  split at hd
  · subst hd; simp
  · cases hd

/-- A shape that is not G comes of operands none of which is G; one that is U, of U operands alone (R39). -/
theorem rule_shape {r : ShapeRule} {ops : List (Shape × Tag)} {t : Tag} (h : r.shape ops t ≠ .g) :
    (∀ p ∈ ops, p.1 ≠ .g) ∧ (r.shape ops t = .u → ∀ p ∈ ops, p.1 = .u) := by
  unfold ShapeRule.shape at *
  by_cases h0 : (r == .gen) = true
  · simp [h0] at h
  · simp only [h0, Bool.false_eq_true, if_false] at h ⊢
    by_cases h1 : ((ops.map fun p => p.1).all fun x => x == .u) = true
    · have : ∀ p ∈ ops, p.1 = .u := by simpa using h1
      exact ⟨fun p hp => by rw [this p hp]; simp, fun _ => this⟩
    · simp only [h1, Bool.false_eq_true, if_false] at h ⊢
      by_cases h2 : ((ops.map fun p => p.1).any fun x => x == .g) = true
      · simp [h2] at h
      · simp only [h2, Bool.false_eq_true, if_false] at h ⊢
        refine ⟨fun p hp hg => h2 (by simp only [List.any_map, List.any_eq_true]; exact ⟨p, hp, by simp [hg]⟩), fun hu => absurd hu ?_⟩
        cases r <;> simp <;> split <;> simp

/-- The run of an instruction depends on the rounding mode only where it rounds. -/
def Alu.ModeFree (a : Alu) : Prop := ∀ l e e', a.tagOk (l.map fun p => p.2) = true → (a.rounds (l.map fun p => p.2) = true → e.mode = e'.mode) → e.sat = e'.sat → a.run e l = a.run e' l

/-- An A result is linear in the rank. -/
def Alu.Linear (a : Alu) (c : Crew) (x : Ext) (T : List Tag) : Prop :=
  T = a.srcs.map c.tagOf → ∀ p ∈ (a.dests T).zip (List.range (a.dests T).length), x.mask = none → a.rule.shape ((a.srcs.zip T).map fun q => (c.shapeOf q.1, q.2)) p.1.2 = .a →
    ∀ e k, a.word c x p.2 p.1.1 k e (a.held c k) = a.word c x p.2 p.1.1 0 e (a.held c 0) + (a.word c x p.2 p.1.1 1 e (a.held c 1) - a.word c x p.2 p.1.1 0 e (a.held c 0)) * BitVec.ofNat 32 k

/-- A destination's value at a rank is the instruction's word there, in whatever shape it is written. -/
theorem dest_value {s : State} {c : Crew} {a : Alu} {x : Ext} {y : List Nat} {T : List Tag} {v : Nat → List (Word × Tag)} {p : (Nat × Tag) × Nat}
    (hr : ∀ k ∈ y, s.readSrcs c k [] a.srcs = .ok (v k)) (hT : ∀ k ∈ y, (v k).map (fun q => q.2) = T) (hf : ∀ k ∈ y, ∃ f, c.fib k = some f)
    (htg : a.tagOk T = true) (hE : a.ModeFree) (hL : a.Linear c x T) (hp : p ∈ (a.dests T).zip (List.range (a.dests T).length)) {k : Nat} (hk : k ∈ y) :
    (a.dest c x y T (y.map fun k => (k, v k)) p).value (c.writeShape p.1.1 (a.shape c x y T p.1.1 p.1.2) y) k = a.word c x p.2 p.1.1 k (c.envAt x k) (v k) := by
  by_cases hg : c.writeShape p.1.1 (a.shape c x y T p.1.1 p.1.2) y = .g
  · rw [hg]
    simp only [Dest.value, Alu.dest, List.map_map, Function.comp_def]
    rw [valOf_pair (v := fun k => a.word c x p.2 p.1.1 k (c.envAt x k) (v k)) hk]; rfl
  -- a compact result
  have hws : c.writeShape p.1.1 (a.shape c x y T p.1.1 p.1.2) y = a.shape c x y T p.1.1 p.1.2 := by
    unfold Crew.writeShape at hg ⊢; split
    · rename_i h; rw [if_pos h] at hg; exact absurd rfl hg
    · rfl
  rw [hws] at hg ⊢
  have hlen : T.length = a.srcs.length := by
    rw [← hT k hk, List.length_map]; exact readSrcs_length (hr k hk)
  unfold Alu.shape at hg
  split at hg
  · exact absurd rfl hg
  rename_i hsp
  have hshape : a.shape c x y T p.1.1 p.1.2 = a.ruleShape c x T p.1.1 p.1.2 := by unfold Alu.shape; rw [if_neg hsp]
  simp only [Bool.or_eq_true, Bool.and_eq_true, not_or, not_and, beq_iff_eq, Bool.not_eq_true] at hsp
  obtain ⟨hsplit, hmask⟩ := hsp
  obtain ⟨hng, hu⟩ := rule_shape (show a.rule.shape _ _ ≠ .g from hg)
  have hmem (j : Nat) (hj : j < a.srcs.length) : (c.shapeOf a.srcs[j], T[j]'(by omega)) ∈ (a.srcs.zip T).map fun q => (c.shapeOf q.1, q.2) := by
    refine List.mem_map.2 ⟨(a.srcs[j], T[j]'(by omega)), ?_, rfl⟩
    rw [List.mem_iff_getElem]; exact ⟨j, by simp; omega, by simp⟩
  have hsrc : ∀ r ∈ a.srcs, c.shapeOf r ≠ .g := by
    intro r hrm
    obtain ⟨j, hj, rfl⟩ := List.mem_iff_getElem.1 hrm
    exact hng _ (List.mem_append_left _ (hmem j hj))
  have hheld (k : Nat) (hk : k ∈ y) : v k = a.held c k := by
    have h1 := hr k hk
    rw [readSrcs_held fun r hrm => (shapeOf_lt (hsrc r hrm)).1] at h1
    exact (Except.ok.inj h1).symm
  -- the environment of the first rank serves for all
  have hhead : y.headD 0 ∈ y := by cases y with | nil => simp at hk | cons a l => simp
  have henv : ∀ l : List (Word × Tag), l.map (fun q => q.2) = T → a.run (c.envAt x k) l = a.run (c.envAt x (y.headD 0)) l := by
    intro l hl
    obtain ⟨f, hfk⟩ := hf k hk
    obtain ⟨g, hgk⟩ := hf _ hhead
    refine hE l _ _ (by rw [hl]; exact htg) (fun hro => ?_) (envAt_sat hfk hgk)
    rw [hl] at hro
    by_cases hdy : x.dynamicMode = true
    · simp only [Alu.splits, hro, hdy, Bool.true_and, List.any_eq_false] at hsplit
      have := hsplit k hk
      simpa using this
    · exact envAt_mode hfk hgk (by simpa using hdy)
  rw [hshape]
  have hTk : (a.held c k).map (fun q => q.2) = T := by rw [← hheld k hk]; exact hT k hk
  rw [hheld k hk]
  have hwk : a.word c x p.2 p.1.1 k (c.envAt x k) (a.held c k) = a.word c x p.2 p.1.1 k (c.envAt x (y.headD 0)) (a.held c k) := by
    unfold Alu.word; rw [henv _ hTk]
  rw [hwk]
  cases hs : a.ruleShape c x T p.1.1 p.1.2 with
  | g => exact absurd hs hg
  | u =>
    have hall := hu hs
    have hsu : ∀ r ∈ a.srcs, c.shapeOf r = .u := by
      intro r hrm
      obtain ⟨j, hj, rfl⟩ := List.mem_iff_getElem.1 hrm
      exact hall _ (List.mem_append_left _ (hmem j hj))
    have hh0 : a.held c 0 = a.held c k := by
      unfold Alu.held
      refine List.map_congr_left fun r hrm => ?_
      have e := (shapeOf_lt (hsrc r hrm)).2
      rw [hsu r hrm] at e
      rw [elem_u e.symm, elem_u e.symm]
    show a.word c x p.2 p.1.1 0 _ (a.held c 0) = _
    rw [hh0]
    unfold Alu.word
    by_cases hm : x.mask.isSome = true
    · have : (c.desc p.1.1).shape = .u := hall ((c.desc p.1.1).shape, p.1.2) (List.mem_append_right _ (by simp [hm]))
      rw [elem_u this, elem_u this]
    · have : x.mask = none := by simpa using hm
      rw [this]; simp [mergeElems]
  | a =>
    have hm : x.mask = none := by
      cases hm : x.mask with
      | none => rfl
      | some w => exact absurd hs (hmask (by rw [hm]; rfl))
    have hs' : a.rule.shape ((a.srcs.zip T).map fun q => (c.shapeOf q.1, q.2)) p.1.2 = .a := by
      have := hs
      unfold Alu.ruleShape at this
      simpa [hm] using this
    have hTh : T = a.srcs.map c.tagOf := by rw [← hTk]; simp [Alu.held]
    exact (hL hTh p hp hm hs' (c.envAt x (y.headD 0)) k).symm

theorem RegsWritten.congr {c d : Crew} {x : List Nat} {ds es : List (Nat × Tag × (Nat → Word))} (h : RegsWritten c d x ds)
    (he : es.map (fun D => D.1) = ds.map fun D => D.1) (hv : ∀ E ∈ es, ∃ D ∈ ds, D.1 = E.1 ∧ D.2.1 = E.2.1 ∧ ∀ k ∈ x, D.2.2 k = E.2.2 k) : RegsWritten c d x es := by
  obtain ⟨h1, h2, h3, h4, h5, h6⟩ := h
  refine ⟨h1, h2, fun E hE hx => ?_, fun E hE k hk => ?_, by rw [he]; exact h5, by rw [he]; exact h6⟩
  · obtain ⟨D, hD, e1, e2, -⟩ := hv E hE
    rw [← e1, ← e2]; exact h3 D hD hx
  · obtain ⟨D, hD, e1, -, e3⟩ := hv E hE
    rw [← e1, ← e3 k hk]; exact h4 D hD k hk

theorem RegsWritten.nothing {c : Crew} (ok : c.regsOk = true) (ds : List (Nat × Tag × (Nat → Word))) : RegsWritten c c [] ds :=
  ⟨ok, rfl, fun _ _ h => absurd rfl h, fun _ _ k hk => by simp at hk, fun _ _ _ _ _ => rfl, fun _ _ => rfl⟩

/-- The registers an ALU instruction writes, with the word of each rank. -/
def Alu.writes (a : Alu) (c : Crew) (x : Ext) (T : List Tag) (v : Nat → List (Word × Tag)) : List (Nat × Tag × (Nat → Word)) :=
  ((a.dests T).zip (List.range (a.dests T).length)).map fun p => (p.1.1, p.1.2, fun k => a.word c x p.2 p.1.1 k (c.envAt x k) (v k))

/-- Held registers read beside the operands add no poisoned queue element. -/
theorem regPoisoned_append {s : State} {crew k : Nat} {a b : List Reg} (hb : ∀ r ∈ b, r.toNat < 120) (h1 : s.regPoisoned crew k a = false)
    (h2 : s.regPoisoned crew k b = false) : s.regPoisoned crew k (a ++ b) = false := by
  have hq (f : Fibre) : f.queuePoison (a ++ b) = f.queuePoison a := by
    have hf : b.filter (fun r => decide (120 ≤ r.toNat)) = [] := List.filter_eq_nil_iff.2 fun r hr => by simp [hb r hr]
    have hn (r : Reg) (hr : 120 ≤ r.toNat) : b.filter (fun x => x == r) = [] :=
      List.filter_eq_nil_iff.2 fun x hx e => by
        rw [beq_iff_eq] at e
        subst e; exact absurd (hb x hx) (by omega)
    unfold Fibre.queuePoison
    rw [List.filter_append, hf, List.append_nil]
    have key : ∀ l : List Reg, (∀ r ∈ l, 120 ≤ r.toNat) →
        l.findSome? (fun r => (f.feeds[r.toNat - 120]?).bind fun q => (q.entries.take ((a ++ b).filter fun x => x == r).length).findSome? FeedEntry.poison) =
        l.findSome? (fun r => (f.feeds[r.toNat - 120]?).bind fun q => (q.entries.take (a.filter fun x => x == r).length).findSome? FeedEntry.poison) := by
      intro l hl
      induction l with
      | nil => rfl
      | cons r l ih =>
        rw [List.findSome?_cons, List.findSome?_cons, List.filter_append, hn r (hl r (by simp)), List.append_nil, ih fun q hq => hl q (by simp [hq])]
    exact key _ fun r hr => by simpa using (List.mem_filter.1 hr).2
  unfold State.regPoisoned State.queuePoison at *
  simp only [hq]
  rw [Bool.or_eq_false_iff] at *
  exact ⟨by rw [List.any_append, h1.1, h2.1]; rfl, h1.2⟩

theorem regPoisoned_nil (s : State) (crew k : Nat) : s.regPoisoned crew k [] = false := by
  unfold State.regPoisoned State.queuePoison
  cases ((s.getCrew crew).bind fun c => c.fib k) <;> rfl

/-- An ALU instruction of fixed latency at a ready turn whose fibres all pass its checks. -/
theorem alu_done {s : State} {ins : Instr} {i : Issue} {c : Crew} {x : List Nat} {mk : Crew → Turn → Alu} {a : Alu} {T : List Tag} {v : Nat → List (Word × Tag)}
    (h : Ready s ins i c x) (ok : c.regsOk = true) (ha : mk c ⟨i, formOf c i.ext ins, x, []⟩ = a) (hlate : a.late = false)
    (hr : ∀ k ∈ x, Reads s c k a.srcs (v k) ∧ (v k).map (fun q => q.2) = T ∧ a.check i.ext (v k) = .ok (v k))
    (hp : i.ext.mask.isSome = true → ∀ k ∈ x, s.regPoisoned c.id k (formOf c i.ext ins).dests = false) (hdr : ∀ r ∈ (formOf c i.ext ins).dests, r.toNat < 120)
    (hd : ∀ p ∈ a.dests T, p.1 < 120) (hn : ((a.dests T).map fun p => p.1).Nodup) 
    (hroom : c.Room x ((a.dests T).map fun D => (D.1, a.shape c i.ext x T D.1 D.2)))
    (hE : a.ModeFree) (hL : a.Linear c i.ext T) :
    ∃ t d, s.alu ins mk = .next t ∧ RegsWritten c d x (a.writes c i.ext T v) ∧
      MovedOn (s.marked i x ((a.dests T).map fun p => p.1)) t i (formOf c i.ext ins) c d x fun k f => if k ∈ x then (f.popAll a.srcs).flag (a.flags i.ext (c.envAt i.ext k) (v k)).toNat else f := by
  have hc := h.crew_eq
  have hid := getCrew_id hc
  unfold State.alu
  rw [perform_ready h]
  have hpo : ∀ k ∈ x, s.regPoisoned c.id k (a.srcs ++ if i.ext.mask.isSome then (formOf c i.ext ins).dests else []) = false := by
    intro k hk
    split
    · rename_i hm; exact regPoisoned_append hdr (hr k hk).1.2 (hp hm k hk)
    · rw [List.append_nil]; exact (hr k hk).1.2
  simp only [ha, checkAll_ok (v := v) fun k hk => ⟨v k, (hr k hk).1, (hr k hk).2.2⟩, splitPoison_ok (v := v) hpo, map_fst_pair, Alu.overflows_same, Bool.false_eq_true, if_false, List.append_nil, finishTraps_nil]
  have hroom' : x ≠ [] → (c.prepare (((a.dests T).zip (List.range (a.dests T).length)).map (a.dest c i.ext x T (x.map fun k => (k, v k)))) x).isSome = true := by
    intro hx
    have := hroom hx
    unfold Crew.prepare
    rw [List.map_map] at this ⊢
    rw [show (fun d : Dest => (d.d, c.writeShape d.d d.shape x)) ∘ a.dest c i.ext x T (x.map fun k => (k, v k)) =
      (fun D : Nat × Tag => (D.1, c.writeShape D.1 (a.shape c i.ext x T D.1 D.2) x)) ∘ Prod.fst from rfl, ← List.map_map, List.map_fst_zip (by simp)]
    exact this
  by_cases hx : x = []
  · subst hx
    have hw : s.aluWrite ⟨i, formOf c i.ext ins, [], []⟩ c a [] (aluDests c i.ext a [] []).1 (aluDests c i.ext a [] []).2 =
        some ((s.modRanks c.id [] fun _ f => f.popAll a.srcs).modRanks c.id [] (flagOf [])) := by
      simp only [State.aluWrite, hlate, State.writeDests]; rfl
    simp only [List.map_nil, hw]
    simp only [hid]
    obtain ⟨t, d', f1, f2, f3⟩ := finish_after (m := s) (s2 := s.modRanks i.crew [] fun _ f => f.popAll a.srcs) (c := c) (x := []) (ds := a.writes c i.ext T v)
      (e := flagOf []) (q := fun _ f => f.popAll a.srcs) h.ranks_nodup List.nodup_nil h.cur_eq (getCrew_modRanks_same hc)
      (fun id hne => getCrew_modRanks_other hne) rfl (quiet_popAll _) (RegsWritten.nothing (regsOk_modFibs _ _ ok) _) (fun k f => by rw [popAll_eq]; rfl) ⟨i, formOf c i.ext ins, [], []⟩ rfl
    exact ⟨t, d', f1, f2, by rw [marked_nil]; simpa using f3⟩
  · have htg : a.tagOk T = true := by
      obtain ⟨k, hk⟩ := List.exists_mem_of_ne_nil x hx
      have h1 := (hr k hk).2.2
      unfold Alu.check at h1
      rw [(hr k hk).2.1] at h1
      cases hb : a.tagOk T with
      | true => rfl
      | false => simp [hb, trapWith] at h1
    have htags : aluDests c i.ext a x (x.map fun k => (k, v k)) =
        (((a.dests T).zip (List.range (a.dests T).length)).map (a.dest c i.ext x T (x.map fun k => (k, v k))), x.map fun k => (k, a.flags i.ext (c.envAt i.ext k) (v k))) := by
      cases x with
      | nil => exact absurd rfl hx
      | cons k l => simp only [aluDests, List.map_cons, (hr k (by simp)).2.1, List.map_map]; rfl
    have hsz : (c.modFibs x fun _ f => f.popAll a.srcs).size = c.size := by rw [modFibs_eq]
    have hzip : ∀ D ∈ ((a.dests T).zip (List.range (a.dests T).length)).map (a.dest c i.ext x T (x.map fun k => (k, v k))), D.d < 120 ∧ D.vals.map (fun p => p.1) = x := by
      intro D hD
      obtain ⟨p, hp, rfl⟩ := List.mem_map.1 hD
      refine ⟨hd p.1 (List.of_mem_zip hp).1, ?_⟩
      simp only [Alu.dest, List.map_map]; exact List.map_id' x
    have hnd : ((((a.dests T).zip (List.range (a.dests T).length)).map (a.dest c i.ext x T (x.map fun k => (k, v k)))).map fun D => D.d) = (a.dests T).map fun p => p.1 := by
      rw [List.map_map]
      show ((a.dests T).zip (List.range (a.dests T).length)).map (fun p => p.1.1) = _
      rw [show (fun p : (Nat × Tag) × Nat => p.1.1) = (fun q : Nat × Tag => q.1) ∘ Prod.fst from rfl, ← List.map_map, List.map_fst_zip (by simp)]
    have h1c : (s.modRanks i.crew x fun _ f => f.popAll a.srcs).getCrew i.crew = some (c.modFibs x fun _ f => f.popAll a.srcs) := getCrew_modRanks_same hc
    obtain ⟨s2, d, e1, e2, e3, e4, e5⟩ := writeDests_spec (s := s.modRanks i.crew x fun _ f => f.popAll a.srcs)
      (t := ⟨i, formOf c i.ext ins, x, []⟩) (ds := ((a.dests T).zip (List.range (a.dests T).length)).map (a.dest c i.ext x T (x.map fun k => (k, v k)))) h1c (regsOk_modFibs _ _ ok) h.x_nodup
      (fun D hD => (hzip D hD).1) (by rw [hnd]; exact hn) (fun D hD => (hzip D hD).2)
      (fun k hk => by rw [hsz]; exact h.lt_size ok k hk) (fun hx => by rw [prepare_modFibs (quiet_popAll _)]; exact hroom' hx)
    have hw : s.aluWrite ⟨i, formOf c i.ext ins, x, []⟩ c a x (aluDests c i.ext a x (x.map fun k => (k, v k))).1 (aluDests c i.ext a x (x.map fun k => (k, v k))).2 =
        some (s2.modRanks i.crew x (flagOf (x.map fun k => (k, a.flags i.ext (c.envAt i.ext k) (v k))))) := by
      simp only [State.aluWrite, hlate, htags, hid, Bool.false_eq_true, if_false, e1, Option.map_some]
    simp only [hw]
    simp only [writeShape_modFibs (quiet_popAll _)] at e5
    have e6 : RegsWritten (c.modFibs x fun _ f => f.popAll a.srcs) d x (a.writes c i.ext T v) := by
      refine e5.congr ?_ ?_
      · simp only [Alu.writes, List.map_map]; rfl
      · intro E hEm
        obtain ⟨p, hp, rfl⟩ := List.mem_map.1 hEm
        refine ⟨_, List.mem_map.2 ⟨a.dest c i.ext x T (x.map fun k => (k, v k)) p, List.mem_map.2 ⟨p, hp, rfl⟩, rfl⟩, rfl, rfl, fun k hk => ?_⟩
        exact dest_value (s := s) (fun k hk => (hr k hk).1.1) (fun k hk => (hr k hk).2.1)
          (fun k hk => ⟨_, List.getElem?_eq_getElem (h.x_lt k hk)⟩) htg hE hL hp hk
    obtain ⟨m, hm0, hm, hmc, hmcur⟩ := marked_after s i x [] ((a.dests T).map fun p => p.1) i.crew x fun _ f => f.popAll a.srcs
    rw [overwrite_none] at hm0 hm
    rw [← hm0]
    replace e4 : s2 = { m with crews := s2.crews } := e4.trans (by simp only [hnd, hm])
    obtain ⟨t, d', f1, f2, f3⟩ := finish_after (m := m) (e := flagOf (x.map fun k => (k, a.flags i.ext (c.envAt i.ext k) (v k)))) (q := fun _ f => f.popAll a.srcs) h.ranks_nodup h.x_nodup
      (by rw [e4]; exact hmcur.trans h.cur_eq) e2 (fun id hne => ((e3 id hne).trans (getCrew_modRanks_other hne)).trans (getCrew_congr hmc id).symm) e4 (quiet_popAll _) e6 (fun k f => by
        show (Fibre.flag _ _).pc = _
        rw [popAll_eq]; rfl) ⟨i, formOf c i.ext ins, x, []⟩ rfl
    refine ⟨t, d', f1, f2, ?_⟩
    have : (fun k f => if k ∈ x then flagOf (x.map fun k => (k, a.flags i.ext (c.envAt i.ext k) (v k))) k (f.popAll a.srcs) else f) =
        fun k f => if k ∈ x then (f.popAll a.srcs).flag (a.flags i.ext (c.envAt i.ext k) (v k)).toNat else f := by
      funext k f
      by_cases hk : k ∈ x
      · simp only [if_pos hk, flagOf, valOf_pair hk, Option.getD_some]
      · simp only [if_neg hk]
    rw [this] at f3; exact f3

theorem flag_ofNat (f : Fibre) (n : Nat) : f.flag (BitVec.ofNat 32 n).toNat = f.flag n := by
  unfold Fibre.flag; rw [BitVec.ofNat_toNat, BitVec.setWidth_eq]

/-- An ALU instruction with one destination, whose elements are `es`. -/
theorem alu_one {s : State} {ins : Instr} {i : Issue} {c : Crew} {x : List Nat} {mk : Crew → Turn → Alu} {a : Alu} {d : Reg} {u : Tag} {T : List Tag} {v : Nat → List (Word × Tag)}
    {es : Nat → List (Nat × Nat)} (h : Ready s ins i c x) (ok : c.regsOk = true) (ha : mk c ⟨i, formOf c i.ext ins, x, []⟩ = a) (hlate : a.late = false)
    (hr : ∀ k ∈ x, Reads s c k a.srcs (v k)) (hv : ∀ k ∈ x, (v k).map (fun q => q.2) = T) (htag : a.tagOk T = true) (hbad : a.bad T = none) (hm : MaskFits i.ext u)
    (hp : i.ext.mask.isSome = true → ∀ k ∈ x, s.regPoisoned c.id k (formOf c i.ext ins).dests = false) (hdr : ∀ r ∈ (formOf c i.ext ins).dests, r.toNat < 120)
    (hd : a.dests T = [(d.toNat, u)]) (hd' : d.toNat < 120) (hroom : c.Room x [(d.toNat, a.shape c i.ext x T d.toNat u)])
    (hrun : ∀ k ∈ x, a.run (c.envAt i.ext k) (v k) = [es k]) (hE : a.ModeFree) (hL : a.Linear c i.ext T) :
    ∃ t c', s.alu ins mk = .next t ∧ RegsWritten c c' x [(d.toNat, u, fun k => mergeElems i.ext.mask (c.elem d.toNat k) (es k))] ∧
      MovedOn (s.marked i x [d.toNat]) t i (formOf c i.ext ins) c c' x fun k f => if k ∈ x then (f.popAll a.srcs).flag (flagsOf i.ext.mask (es k)) else f := by
  obtain ⟨t, c', h1, h2, h3⟩ := alu_done (T := T) (v := v) h ok ha hlate (fun k hk => ⟨hr k hk, hv k hk, by
      unfold Alu.check
      simp only [hv k hk, htag, hd, List.all_cons, List.all_nil, Bool.and_true, Bool.true_and, hbad]
      cases e : i.ext.mask with
      | none => simp
      | some m => simp [hm m e]⟩) hp hdr
    (fun p hp => by rw [hd] at hp; simp at hp; subst hp; exact hd') (by rw [hd]; simp) (by rw [hd]; exact hroom) hE hL
  refine ⟨t, c', h1, h2.congr ?_ ?_, ?_⟩
  · simp [Alu.writes, hd]
  · intro E hEm
    simp only [List.mem_singleton] at hEm; subst hEm
    refine ⟨(d.toNat, u, fun k => a.word c i.ext 0 d.toNat k (c.envAt i.ext k) (v k)), by simp [Alu.writes, hd], rfl, rfl, fun k hk => ?_⟩
    show mergeElems _ _ ((a.run _ _).getD 0 []) = _
    rw [hrun k hk]; rfl
  · rw [hd] at h3
    have : (fun (k : Nat) (f : Fibre) => if k ∈ x then (f.popAll a.srcs).flag (a.flags i.ext (c.envAt i.ext k) (v k)).toNat else f) =
        fun (k : Nat) (f : Fibre) => if k ∈ x then (f.popAll a.srcs).flag (flagsOf i.ext.mask (es k)) else f := by
      funext k f
      by_cases hk : k ∈ x
      · simp only [if_pos hk, Alu.flags, hrun k hk, List.foldl_cons, List.foldl_nil, Nat.zero_or]
        exact flag_ofNat _ _
      · simp only [if_neg hk]
    rw [this] at h3; exact h3

end Sys2Proof.Machine
end

