-- ==== Sys2Proof/Laws/Arith.lean ====
section
/-! SUPPORT. The A3 and AI records are mode-free where they do not round, and linear in the rank where their result may be A (01_execution R39, 03_arithmetic R102). -/
namespace Sys2Proof.Machine

theorem headTag_map (l : List (Word × Tag)) : headTag (l.map fun p => p.2) = opTag l 0 := by cases l <;> rfl

/-- The element of a word of one 32-bit integer. -/
theorem eachElem_int32 {t : Tag} (h : isInt32 t = true) (f : Elem → List Nat → Nat × Nat) (ws : List Word) :
    eachElem t f ws = [f (.int (t == .si32) 32) (ws.map fun w => w.toNat)] := by
  have e : ∀ w : Word, elemAt t w.toNat 0 = w.toNat := by
    intro w
    have : (tagElem t).width = 32 := by cases t <;> first | rfl | cases h
    unfold elemAt; rw [this]; have := w.isLt; simpa using this
  have : (ws.map fun w => elemAt t w.toNat 0) = ws.map fun w => w.toNat := List.map_congr_left fun w _ => e w
  have hc : tagCount t = 1 := by cases t <;> first | rfl | cases h
  have he : tagElem t = .int (t == .si32) 32 := by cases t <;> first | rfl | cases h
  unfold eachElem
  rw [hc, he]
  show [f _ (ws.map fun w => elemAt t w.toNat 0)] = _
  rw [this]

theorem mergeElems_one (old : Word) (p : Nat × Nat) : mergeElems none old [p] = BitVec.ofNat 32 p.1 := by
  apply BitVec.eq_of_toNat_eq
  show (_ % _ : Nat) = _
  simp [packElems]

theorem wrap32 (i : Int) : BitVec.ofNat 32 (wrapInt 32 i) = BitVec.ofInt 32 i := by
  apply BitVec.eq_of_toNat_eq
  simp only [wrapInt, BitVec.toNat_ofNat, BitVec.toNat_ofInt]
  omega

/-- A register that is not G is linear in the rank. -/
theorem elem_linear {c : Crew} {r : Nat} (h : (c.desc r).shape ≠ .g) (k : Nat) :
    c.elem r k = c.elem r 0 + (c.elem r 1 - c.elem r 0) * BitVec.ofNat 32 k := by
  cases hs : (c.desc r).shape with
  | u => simp [elem_u hs]
  | a => rw [elem_a hs, elem_a hs, elem_a hs]; rw [show (c.desc r).base + (c.desc r).stride * BitVec.ofNat 32 1 - ((c.desc r).base + (c.desc r).stride * BitVec.ofNat 32 0) = (c.desc r).stride by
      simp [BitVec.add_comm (c.desc r).base]]; simp
  | g => exact absurd hs h

theorem elem_const {c : Crew} {r : Nat} (h : (c.desc r).shape = .u) (k j : Nat) : c.elem r k = c.elem r j := by rw [elem_u h, elem_u h]

theorem add_step (a0 a1 b0 b1 K : Word) : (a0 + (a1 - a0) * K) + (b0 + (b1 - b0) * K) = (a0 + b0) + ((a1 + b1) - (a0 + b0)) * K := by ring
theorem sub_step (a0 a1 b0 b1 K : Word) : (a0 + (a1 - a0) * K) - (b0 + (b1 - b0) * K) = (a0 - b0) + ((a1 - b1) - (a0 - b0)) * K := by ring
theorem mul_step (a0 a1 b K : Word) : (a0 + (a1 - a0) * K) * b = a0 * b + (a1 * b - a0 * b) * K := by ring

theorem shl_step (a0 a1 K : Word) (n : Nat) : (a0 + (a1 - a0) * K) <<< n = a0 <<< n + (a1 <<< n - a0 <<< n) * K := by
  have h (w : Word) : w <<< n = w * BitVec.ofNat 32 (2 ^ n) := by
    apply BitVec.eq_of_toNat_eq
    simp [BitVec.toNat_shiftLeft, Nat.shiftLeft_eq]
  rw [h, h, h, mul_step]

/-- What an element-wise integer operation of one destination must be for its record to be linear. -/
theorem linear_of {a : Alu} {c : Crew} {x : Ext} {T : List Tag} {d : Nat} {t : Tag} (hd : a.dests T = [(d, t)]) (g : Nat → Word)
    (hw : T = a.srcs.map c.tagOf → x.mask = none → a.rule.shape ((a.srcs.zip T).map fun q => (c.shapeOf q.1, q.2)) t = .a →
      (∀ e k, ∃ p : Nat × Nat, a.run e (a.held c k) = [[p]] ∧ BitVec.ofNat 32 p.1 = g k) ∧ ∀ k, g k = g 0 + (g 1 - g 0) * BitVec.ofNat 32 k) : a.Linear c x T := by
  intro hT p hp hm hr e k
  rw [hd] at hp
  have hp' : p = ((d, t), 0) := by simpa using hp
  subst hp'
  obtain ⟨h1, h2⟩ := hw hT hm hr
  have word (j : Nat) : a.word c x 0 d j e (a.held c j) = g j := by
    obtain ⟨p, hj, hn⟩ := h1 e j
    unfold Alu.word; rw [hj, hm]
    show mergeElems none _ [_] = _
    rw [mergeElems_one]; exact hn
  simp only [word]; exact h2 k

/-! ### Two registers of one tag -/

theorem sameArith_pair {t u : Tag} (h : sameArith [t, u] = true) : arithTag t = true ∧ u = t := by
  simpa [sameArith] using h

/-- Arithmetic tags are the floating-point ones, whose elements are floats, and integer ones. -/
theorem arith_int {t : Tag} (h : arithTag t = true) (hf : floatTag t = false) : ∃ sg w, tagElem t = .int sg w := by
  cases t <;> first | exact ⟨_, _, rfl⟩ | (exact absurd h (by decide)) | (exact absurd hf (by decide))

/-- Element-wise arithmetic does not depend on the rounding mode of an integer tag. -/
theorem eachElem_mode {t : Tag} (h : arithTag t = true) {f : FEnv → Elem → List Nat → Nat × Nat} (hf : ∀ e e' sg w xs, f e (.int sg w) xs = f e' (.int sg w) xs)
    {e e' : FEnv} (hm : floatTag t = true → e.mode = e'.mode) (hs : e.sat = e'.sat) (ws : List Word) : eachElem t (f e) ws = eachElem t (f e') ws := by
  by_cases hft : floatTag t = true
  · have : e = e' := by cases e; cases e'; simp_all
    rw [this]
  · obtain ⟨sg, w, he⟩ := arith_int h (by simpa using hft)
    unfold eachElem
    rw [he]
    exact List.map_congr_left fun i _ => hf _ _ _ _ _

theorem aluPair_modeFree {d a b : Reg} {rule : ShapeRule} {rounds : Bool} {f : FEnv → Elem → List Nat → Nat × Nat}
    (hf : ∀ e e' sg w xs, f e (.int sg w) xs = f e' (.int sg w) xs) (hr : rounds = false → ∀ e e', f e = f e') : (aluPair d a b rule rounds f).ModeFree := by
  intro l e e' hok hm hs
  cases rounds with
  | false => show [_] = [_]; rw [hr rfl e e']
  | true =>
    have ht : arithTag (opTag l 0) = true := by
      rw [← headTag_map]
      simp only [aluPair] at hok
      cases hl : l.map fun p => p.2 with
      | nil => rw [hl] at hok; cases hok
      | cons t r => rw [hl] at hok; simp only [sameArith, Bool.and_eq_true] at hok; exact hok.1
    show [_] = [_]
    rw [eachElem_mode ht hf (e := e) (e' := e') (fun h => hm (by simp only [aluPair, headTag_map, h, Bool.and_self])) hs]

/-- A result of two operands that may be A is of two integers. -/
theorem pair_ints {a b : Reg} {ta tb t : Tag} {c : Crew} {rule : ShapeRule} (h : rule.shape (([a, b].zip [ta, tb]).map fun q => (c.shapeOf q.1, q.2)) t = .a) :
    isInt32 ta = true ∧ isInt32 tb = true ∧ isInt32 t = true ∧ c.shapeOf a ≠ .g ∧ c.shapeOf b ≠ .g := by
  have h1 := (rule_shape (r := rule) (t := t) (ops := ([a, b].zip [ta, tb]).map fun q => (c.shapeOf q.1, q.2)) (by rw [h]; simp)).1
  have ha := h1 (c.shapeOf a, ta) (by simp)
  have hb := h1 (c.shapeOf b, tb) (by simp)
  refine ⟨?_, ?_, ?_, ha, hb⟩ <;>
  · unfold ShapeRule.shape at h
    simp only [List.zip_cons_cons, List.zip_nil_right, List.map_cons, List.map_nil, List.all_cons, List.all_nil, Bool.and_true, List.any_cons, List.any_nil, Bool.or_false] at h
    revert h
    cases isInt32 ta <;> cases isInt32 tb <;> cases isInt32 t <;> cases rule <;> simp <;> split <;> simp

theorem held_pair {al : Alu} {c : Crew} {a b : Reg} (h : al.srcs = [a, b]) (k : Nat) : al.held c k = [(c.elem a.toNat k, c.tagOf a), (c.elem b.toNat k, c.tagOf b)] := by
  simp [Alu.held, h]

theorem addElem_word (env : FEnv) (sub sg : Bool) (x y : Word) :
    BitVec.ofNat 32 (addElem env sub (.int sg 32) [x.toNat, y.toNat]).1 = if sub then x - y else x + y := by
  simp only [addElem, List.getD_cons_zero, List.getD_cons_succ, wrap32]
  cases sub
  · apply BitVec.eq_of_toNat_eq; simp [BitVec.toNat_ofInt]; omega
  · apply BitVec.eq_of_toNat_eq; simp [BitVec.toNat_ofInt]; omega

theorem mulElem_word (env : FEnv) (sg : Bool) (x y : Word) : BitVec.ofNat 32 (mulElem env (.int sg 32) [x.toNat, y.toNat]).1 = x * y := by
  simp only [mulElem, List.getD_cons_zero, List.getD_cons_succ, wrap32]
  apply BitVec.eq_of_toNat_eq; simp [BitVec.toNat_ofInt]; omega

theorem desc_of_shape {c : Crew} {r : Reg} (h : c.shapeOf r ≠ .g) : (c.desc r.toNat).shape ≠ .g := by
  rw [← (shapeOf_lt h).2]; exact h

/-- Sums of two registers are linear in the rank. -/
theorem aluPair_linear_add (d a b : Reg) (sub : Bool) (c : Crew) (x : Ext) (ta tb : Tag) :
    (aluPair d a b .add true fun env => addElem env sub).Linear c x [ta, tb] := by
  refine linear_of (d := d.toNat) (t := ta) rfl (fun k => if sub then c.elem a.toNat k - c.elem b.toNat k else c.elem a.toNat k + c.elem b.toNat k) fun hT _ hr => ?_
  obtain ⟨hta, -, -, ha, hb⟩ := pair_ints hr
  have ea : c.tagOf a = ta := by
    have : [ta, tb] = [c.tagOf a, c.tagOf b] := hT
    simp at this; exact this.1.symm
  refine ⟨fun e k => ⟨addElem e sub (.int (ta == .si32) 32) [(c.elem a.toNat k).toNat, (c.elem b.toNat k).toNat], ?_, addElem_word e sub (ta == .si32) (c.elem a.toNat k) (c.elem b.toNat k)⟩, fun k => ?_⟩
  · rw [held_pair rfl]
    show [eachElem (c.tagOf a) _ [c.elem a.toNat k, c.elem b.toNat k]] = _
    rw [ea, eachElem_int32 hta]; rfl
  · rw [elem_linear (desc_of_shape ha) k, elem_linear (desc_of_shape hb) k]
    cases sub
    · exact add_step ..
    · exact sub_step ..

/-- Products of an A and a U register are linear in the rank. -/
theorem aluPair_linear_mul (d a b : Reg) (c : Crew) (x : Ext) (ta tb : Tag) : (aluPair d a b .mul true mulElem).Linear c x [ta, tb] := by
  refine linear_of (d := d.toNat) (t := ta) rfl (fun k => c.elem a.toNat k * c.elem b.toNat k) fun hT _ hr => ?_
  obtain ⟨hta, -, -, ha, hb⟩ := pair_ints hr
  have ea : c.tagOf a = ta := by
    have : [ta, tb] = [c.tagOf a, c.tagOf b] := hT
    simp at this; exact this.1.symm
  refine ⟨fun e k => ⟨mulElem e (.int (ta == .si32) 32) [(c.elem a.toNat k).toNat, (c.elem b.toNat k).toNat], ?_, mulElem_word e (ta == .si32) (c.elem a.toNat k) (c.elem b.toNat k)⟩, fun k => ?_⟩
  · rw [held_pair rfl]
    show [eachElem (c.tagOf a) _ [c.elem a.toNat k, c.elem b.toNat k]] = _
    rw [ea, eachElem_int32 hta]; rfl
  · have one : c.shapeOf a = .u ∨ c.shapeOf b = .u := by
      revert ha hb hr
      simp only [aluPair, ShapeRule.shape, List.zip_cons_cons, List.zip_nil_right, List.map_cons, List.map_nil]
      cases c.shapeOf a <;> cases c.shapeOf b <;> simp
    have hu (r : Reg) (h : c.shapeOf r ≠ .g) (e : c.shapeOf r = .u) : c.elem r.toNat k = c.elem r.toNat 0 ∧ c.elem r.toNat 1 = c.elem r.toNat 0 := by
      have := (shapeOf_lt h).2.symm.trans e
      exact ⟨elem_const this _ _, elem_const this _ _⟩
    rcases one with h | h
    · obtain ⟨p, q⟩ := hu a ha h
      rw [p, q, elem_linear (desc_of_shape hb) k, BitVec.mul_comm, mul_step, BitVec.mul_comm (c.elem a.toNat 0), BitVec.mul_comm (c.elem a.toNat 0)]
    · obtain ⟨p, q⟩ := hu b hb h
      rw [p, q, elem_linear (desc_of_shape ha) k, mul_step]

/-- A result of one operand that may be A is of an integer. -/
theorem single_int {a : Reg} {ta t : Tag} {c : Crew} {rule : ShapeRule} (h : rule.shape (([a].zip [ta]).map fun q => (c.shapeOf q.1, q.2)) t = .a) : isInt32 ta = true ∧ c.shapeOf a ≠ .g := by
  have h1 := (rule_shape (r := rule) (t := t) (ops := ([a].zip [ta]).map fun q => (c.shapeOf q.1, q.2)) (by rw [h]; simp)).1
  refine ⟨?_, h1 (c.shapeOf a, ta) (by simp)⟩
  unfold ShapeRule.shape at h
  simp only [List.zip_cons_cons, List.zip_nil_right, List.map_cons, List.map_nil, List.all_cons, List.all_nil, Bool.and_true, List.any_cons, List.any_nil, Bool.or_false] at h
  revert h
  cases isInt32 ta <;> cases rule <;> simp <;> split <;> simp

theorem aluImm_linear_add (d a : Reg) (w : Word) (sub : Bool) (c : Crew) (x : Ext) (ta : Tag) : (aluImm d a w .add fun env => addElem env sub).Linear c x [ta] := by
  refine linear_of (d := d.toNat) (t := ta) rfl (fun k => if sub then c.elem a.toNat k - w else c.elem a.toNat k + w) fun hT _ hr => ?_
  obtain ⟨hta, ha⟩ := single_int hr
  have ea : c.tagOf a = ta := by
    have : [ta] = [c.tagOf a] := hT
    simp at this; exact this.symm
  refine ⟨fun e k => ⟨addElem e sub (.int (ta == .si32) 32) [(c.elem a.toNat k).toNat, w.toNat], ?_, addElem_word e sub (ta == .si32) (c.elem a.toNat k) w⟩, fun k => ?_⟩
  · show [eachElem (c.tagOf a) _ [c.elem a.toNat k, w]] = _
    rw [ea, eachElem_int32 hta]; rfl
  · rw [elem_linear (desc_of_shape ha) k]
    cases sub
    · show _ + w = _ + w + ((_ + w) - (_ + w)) * _; ring
    · show _ - w = _ - w + ((_ - w) - (_ - w)) * _; ring

theorem aluImm_linear_mul (d a : Reg) (w : Word) (c : Crew) (x : Ext) (ta : Tag) : (aluImm d a w .mul mulElem).Linear c x [ta] := by
  refine linear_of (d := d.toNat) (t := ta) rfl (fun k => c.elem a.toNat k * w) fun hT _ hr => ?_
  obtain ⟨hta, ha⟩ := single_int hr
  have ea : c.tagOf a = ta := by
    have : [ta] = [c.tagOf a] := hT
    simp at this; exact this.symm
  refine ⟨fun e k => ⟨mulElem e (.int (ta == .si32) 32) [(c.elem a.toNat k).toNat, w.toNat], ?_, mulElem_word e (ta == .si32) (c.elem a.toNat k) w⟩, fun k => ?_⟩
  · show [eachElem (c.tagOf a) _ [c.elem a.toNat k, w]] = _
    rw [ea, eachElem_int32 hta]; rfl
  · rw [elem_linear (desc_of_shape ha) k, mul_step]

theorem ofNat_word (w : Word) : BitVec.ofNat 32 w.toNat = w := by simp

theorem aluBits_linear_shl (d a b : Reg) (c : Crew) (x : Ext) (ta tb : Tag) : (aluBits d a b .shl shl32).Linear c x [ta, tb] := by
  refine linear_of (d := d.toNat) (t := ta) rfl (fun k => shl32 (c.elem a.toNat k) (c.elem b.toNat k)) fun hT _ hr => ?_
  obtain ⟨hta, htb, -, ha, hb⟩ := pair_ints hr
  refine ⟨fun e k => ⟨((shl32 (c.elem a.toNat k) (c.elem b.toNat k)).toNat, 0), by rw [held_pair rfl]; rfl, ofNat_word _⟩, fun k => ?_⟩
  have hu : c.shapeOf b = .u := by
    revert hr; revert ha hb
    simp only [aluBits, ShapeRule.shape, List.zip_cons_cons, List.zip_nil_right, List.map_cons, List.map_nil]
    cases c.shapeOf a <;> cases c.shapeOf b <;> simp
  have hd := (shapeOf_lt hb).2.symm.trans hu
  rw [elem_const hd k 0, elem_const hd 1 0, elem_linear (desc_of_shape ha) k]
  exact shl_step ..

theorem aluBitsImm_linear_shl (d a : Reg) (w : Word) (c : Crew) (x : Ext) (ta : Tag) : (aluBitsImm d a w .shl shl32).Linear c x [ta] := by
  refine linear_of (d := d.toNat) (t := ta) rfl (fun k => shl32 (c.elem a.toNat k) w) fun hT _ hr => ?_
  obtain ⟨hta, ha⟩ := single_int hr
  refine ⟨fun e k => ⟨((shl32 (c.elem a.toNat k) w).toNat, 0), rfl, ofNat_word _⟩, fun k => ?_⟩
  rw [elem_linear (desc_of_shape ha) k]
  exact shl_step ..

/-- A record whose results are never A is linear. -/
theorem linear_never {a : Alu} (h : a.rule = .uni ∨ a.rule = .gen) (c : Crew) (x : Ext) (T : List Tag) : a.Linear c x T := by
  intro _ p _ _ hr
  exfalso; revert hr
  unfold ShapeRule.shape
  rcases h with h | h <;> rw [h] <;> simp <;> split <;> simp

theorem mergeElems_word (old w : Word) (fl : Nat) : mergeElems none old [(w.toNat, fl)] = w := by rw [mergeElems_one]; exact ofNat_word w

theorem flagsOf_one (fl n : Nat) : flagsOf none [(n, fl)] = fl := by simp [flagsOf, List.range_succ]

theorem flag_zero (f : Fibre) : f.flag 0 = f := by simp [Fibre.flag]

theorem foldl_flags_zero (P : Nat × Nat × Nat → Bool) (l : List (Nat × Nat × Nat)) (h : ∀ p ∈ l, p.2.2 = 0) :
    l.foldl (fun a p => if P p = true then a ||| p.2.2 else a) 0 = 0 := by
  induction l with
  | nil => rfl
  | cons q l ih =>
    have : (if P q = true then 0 ||| q.2.2 else 0) = 0 := by rw [h q (by simp)]; simp
    rw [List.foldl_cons, this]; exact ih fun p hp => h p (by simp [hp])

/-- The masked flags of elements that have none. -/
theorem flagsOf_zero (m : Option (BitVec 8)) (es : List (Nat × Nat)) (h : ∀ p ∈ es, p.2 = 0) : flagsOf m es = 0 :=
  foldl_flags_zero _ _ fun _ hp => h _ (List.of_mem_zip hp).2

/-! ### Bytes and words as integers -/

theorem byte_signed (w : Word) (j : Nat) : intOf true 8 (recF w.toNat (8 * j) 8) = (w.extractLsb' (8 * j) 8).toInt := by
  simp only [intOf, signedOf, recF, BitVec.toInt_eq_toNat_cond, BitVec.extractLsb'_toNat, Nat.shiftRight_eq_div_pow]
  simp
  split <;> split <;> omega

theorem byte_unsigned (w : Word) (j : Nat) : intOf false 8 (recF w.toNat (8 * j) 8) = ((w.extractLsb' (8 * j) 8).toNat : Int) := by
  simp only [intOf, recF, BitVec.extractLsb'_toNat, Nat.shiftRight_eq_div_pow]
  simp

theorem int32_signed (w : Word) : intOf true 32 w.toNat = w.toInt := by
  simp only [intOf, signedOf, BitVec.toInt_eq_toNat_cond]
  have := w.isLt
  simp
  split <;> split <;> omega

theorem int32_unsigned (w : Word) : intOf false 32 w.toNat = (w.toNat : Int) := by
  have := w.isLt
  simp [intOf]; omega

theorem hi_word (z : Int) : BitVec.ofNat 32 (wrapInt 64 z / 2 ^ 32) = BitVec.ofInt 32 (z / 2 ^ 32) := by
  apply BitVec.eq_of_toNat_eq
  simp only [wrapInt, BitVec.toNat_ofNat, BitVec.toNat_ofInt]
  omega
theorem lo_word (z : Int) : BitVec.ofNat 32 (wrapInt 64 z % 2 ^ 32) = BitVec.ofInt 32 z := by
  apply BitVec.eq_of_toNat_eq
  simp only [wrapInt, BitVec.toNat_ofNat, BitVec.toNat_ofInt]
  omega

theorem bytesInt_true (w : Word) : bytesInt true w = [(w.extractLsb' 0 8).toInt, (w.extractLsb' 8 8).toInt, (w.extractLsb' 16 8).toInt, (w.extractLsb' 24 8).toInt] := by
  rw [← byte_signed w 0, ← byte_signed w 1, ← byte_signed w 2, ← byte_signed w 3]; rfl
theorem bytesInt_false (w : Word) : bytesInt false w = [((w.extractLsb' 0 8).toNat : Int), ((w.extractLsb' 8 8).toNat : Int), ((w.extractLsb' 16 8).toNat : Int), ((w.extractLsb' 24 8).toNat : Int)] := by
  rw [← byte_unsigned w 0, ← byte_unsigned w 1, ← byte_unsigned w 2, ← byte_unsigned w 3]; rfl

theorem dottAdd_eq (acc x w : Int) : dottAdd acc x w = acc + (if 0 < w then x else if w < 0 then -x else 0) := by
  unfold dottAdd; split_ifs <;> omega

/-- A word whose extension words pass its checks has no MASK where it accepts none. -/
theorem mask_none {f : Form} {x : Ext} (h : f.check x = none) (hm : f.acc.mask = false) : x.mask = none := by
  unfold Form.check at h
  cases e : x.mask with
  | none => rfl
  | some m => simp [e, hm] at h

theorem ready_nomask {s : State} {ins : Instr} {i : Issue} {c : Crew} {x : List Nat} (h : Ready s ins i c x) (hm : (formOf c i.ext ins).acc.mask = false) : i.ext.mask = none := mask_none h.2.2.1 hm

theorem fits_none {x : Ext} (h : x.mask = none) (t : Tag) : MaskFits x t := by intro m hm; rw [h] at hm; cases hm

/-- A moved register is linear in the rank where it is not G. -/
theorem mov_linear (d a : Reg) (c : Crew) (x : Ext) (ta : Tag) :
    Alu.Linear { srcs := [a], tagOk := anyTags, dests := destHead d, rule := .keep, run := fun _ l => wordElem (opnd l 0) } c x [ta] := by
  refine linear_of (d := d.toNat) (t := ta) rfl (fun k => c.elem a.toNat k) fun hT _ hr => ?_
  obtain ⟨hta, ha⟩ := single_int hr
  exact ⟨fun e k => ⟨((c.elem a.toNat k).toNat, 0), rfl, ofNat_word _⟩, fun k => elem_linear (desc_of_shape ha) k⟩

end Sys2Proof.Machine
end

