-- ==== Sys2Proof/Laws/Later.lean ====
section
/-! SUPPORT. Results of variable latency: what landLater, the SFU forms and the engine instructions leave outstanding at a ready turn (01_execution R27, R42). -/
namespace Sys2Proof.Machine

theorem updWhere_id {α : Type} (p : α → Bool) (l : List α) : updWhere p (fun x => x) l = l := by
  unfold updWhere
  refine (List.map_congr_left fun a _ => ?_).trans (List.map_id l)
  split <;> rfl

theorem updAt_id {α : Type} (l : List α) (k : Nat) : updAt l k (fun x => x) = l := by
  unfold updAt
  cases h : l[k]? with
  | none => rfl
  | some x =>
    obtain ⟨hk, e⟩ := List.getElem?_eq_some_iff.1 h
    subst e; exact List.set_getElem_self hk

theorem modFibs_id_eq (c : Crew) (x : List Nat) : (x.foldl (fun c k => c.modFib k fun f => f) c) = c := by
  induction x generalizing c with
  | nil => rfl
  | cons k l ih =>
    rw [List.foldl_cons]
    have : (c.modFib k fun f => f) = c := by unfold Crew.modFib; rw [updAt_id]
    rw [this]; exact ih c

theorem modRanks_id (s : State) (crew : Nat) (x : List Nat) : s.modRanks crew x (fun _ f => f) = s := by
  unfold State.modRanks State.modCrew
  have : (fun c : Crew => x.foldl (fun c k => c.modFib k fun f => f) c) = fun c => c := by funext c; exact modFibs_id_eq c x
  show { s with crews := updWhere (fun c => c.id == crew) (fun c : Crew => x.foldl (fun c k => c.modFib k fun f => f) c) s.crews } = s
  rw [this, updWhere_id]

theorem addOps_crews (i : Issue) (f : Form) (c : Crew) (x : List Nat) (ws : List Work) (s : State) (cs : List Crew) :
    ws.foldl (fun st w => State.addOp st (Turn.op ⟨i, f, x, []⟩ c (x.headD 0) x w) none) { s with crews := cs } =
      { ws.foldl (fun st w => State.addOp st (Turn.op ⟨i, f, x, []⟩ c (x.headD 0) x w) none) s with crews := cs } := by
  induction ws generalizing s with
  | nil => rfl
  | cons w l ih => exact ih (State.addOp s (Turn.op ⟨i, f, x, []⟩ c (x.headD 0) x w) none)

theorem addOps_kept (i : Issue) (f : Form) (c : Crew) (x : List Nat) (ws : List Work) (s : State) :
    (ws.foldl (fun st w => State.addOp st (Turn.op ⟨i, f, x, []⟩ c (x.headD 0) x w) none) s).crews = s.crews ∧
    (ws.foldl (fun st w => State.addOp st (Turn.op ⟨i, f, x, []⟩ c (x.headD 0) x w) none) s).cur = s.cur := by
  induction ws generalizing s with
  | nil => exact ⟨rfl, rfl⟩
  | cons w l ih => exact ih (State.addOp s (Turn.op ⟨i, f, x, []⟩ c (x.headD 0) x w) none)

theorem later_kept (s : State) (i : Issue) (f : Form) (c : Crew) (x regs : List Nat) (ws : List Work) : (s.later i f c x regs ws).crews = s.crews ∧ (s.later i f c x regs ws).cur = s.cur := by
  unfold State.later
  split
  · exact ⟨rfl, rfl⟩
  · exact addOps_kept i f c x ws _

theorem later_crews (s : State) (i : Issue) (f : Form) (c : Crew) (x regs : List Nat) (ws : List Work) (cs : List Crew) :
    State.later { s with crews := cs } i f c x regs ws = { s.later i f c x regs ws with crews := cs } := by
  unfold State.later
  split
  · rfl
  · exact addOps_crews i f c x ws (s.overwrite i x regs) cs

/-- The works of results that land later. -/
def laterWorks (c : Crew) (x : List Nat) (ds : List Dest) (preds : List (Nat × PReg × Bool)) (flags : List (Nat × Word)) : List Work :=
  (ds.zip (List.range ds.length)).map fun p =>
    .value (BitVec.ofNat 7 p.1.d) p.1.tag (c.writeShape p.1.d p.1.shape x) (match c.writeShape p.1.d p.1.shape x with | .g => p.1.vals | _ => x.map fun k => (k, p.1.base))
      (if p.2 == 0 then preds else []) (if p.2 == 0 then flags else [])

theorem landLater_spec {s : State} {t : Turn} {c : Crew} {ds : List Dest} {preds : List (Nat × PReg × Bool)} {flags : List (Nat × Word)} (hc : s.getCrew t.i.crew = some c)
    (ok : c.regsOk = true) (hd : ∀ D ∈ ds, D.d < 120) (hg : t.gone = []) (hp : t.x ≠ [] → (c.prepare ds t.x).isSome = true) :
    ∃ s2 d, s.landLater t t.x ds preds flags = some s2 ∧ s2.getCrew t.i.crew = some d ∧ (∀ id, id ≠ t.i.crew → s2.getCrew id = s.getCrew id) ∧ RegsWritten c d t.x [] ∧
      (∀ D ∈ ds, t.x ≠ [] → c.writeShape D.d D.shape t.x = .g → (d.desc D.d).shape = .g) ∧
      s2 = { s.later t.i t.f c t.x (ds.map (fun D => D.d) ++ preds.map fun p => 128 + p.2.1.toNat) (laterWorks c t.x ds preds flags) with crews := s2.crews } := by
  unfold State.landLater
  by_cases hx : t.x = []
  · simp only [hx, List.isEmpty_nil, if_true]
    exact ⟨s, c, rfl, hc, fun _ _ => rfl, RegsWritten.nothing ok _, fun _ _ h => absurd rfl h, by unfold State.later; simp⟩
  · have hne : t.x.isEmpty = false := by simpa using hx
    obtain ⟨c1, hc1⟩ := Option.isSome_iff_exists.1 (hp hx)
    simp only [hne, hc, hc1, Bool.false_eq_true, if_false]
    obtain ⟨w1, w2, w3, w4, w5, w6, w7⟩ := shapeSteps_spec ok (c1 := c1) (l := ds.map fun (d : Dest) => (d.d, c.writeShape d.d d.shape t.x)) (by
      intro p hp
      obtain ⟨D, hD, rfl⟩ := List.mem_map.1 hp
      exact hd D hD) hc1
    have hid : c1.id = t.i.crew := (show c1.id = c.id by rw [w2]).trans (getCrew_id hc)
    obtain ⟨tx, tf, tg, ti⟩ := t
    simp only at hg hx hne hc hp hid ⊢
    subst hg
    have hfold : ((ds.zip (List.range ds.length)).foldl (fun (st : State) p =>
        st.addOp (Turn.op ⟨tx, tf, tg, []⟩ c (tg.headD 0) tg (.value (BitVec.ofNat 7 p.1.d) p.1.tag (c.writeShape p.1.d p.1.shape tg)
          (match c.writeShape p.1.d p.1.shape tg with | .g => p.1.vals | _ => tg.map fun k => (k, p.1.base)) (if p.2 == 0 then preds else []) (if p.2 == 0 then flags else []))) none)
        ((s.overwrite tx tg (ds.map (fun d => d.d) ++ preds.map fun p => 128 + p.2.1.toNat)).modCrew tx.crew fun _ => c1)) =
        { s.later tx tf c tg (ds.map (fun D => D.d) ++ preds.map fun p => 128 + p.2.1.toNat) (laterWorks c tg ds preds flags) with
          crews := (s.modCrew tx.crew fun _ => c1).crews } := by
      unfold State.later laterWorks
      rw [if_neg hx, List.foldl_map]
      have := addOps_crews tx tf c tg (laterWorks c tg ds preds flags) (s.overwrite tx tg (ds.map (fun D => D.d) ++ preds.map fun p => 128 + p.2.1.toNat)) (s.modCrew tx.crew fun _ => c1).crews
      unfold laterWorks at this
      rw [List.foldl_map, List.foldl_map] at this
      exact this
    refine ⟨_, c1, congrArg some hfold, ?_, ?_, ⟨w1, w2, fun _ h => by simp at h, fun _ h => by simp at h, fun r k hr hk _ => w3 r k hr hk, fun r _ => w4 r⟩, ?_, rfl⟩
    · exact (getCrew_congr (s := s.modCrew tx.crew fun _ => c1) rfl _).trans (getCrew_modCrew_same (fun _ _ => hid) hc)
    · intro id hne'
      exact (getCrew_congr (s := s.modCrew tx.crew fun _ => c1) rfl _).trans (getCrew_modCrew_other (fun _ _ => hid) hne')
    · intro D hD _ hsg
      exact w7 (D.d, c.writeShape D.d D.shape tg) (List.mem_map.2 ⟨D, hD, rfl⟩) hsg

theorem later_modFibs (s : State) (i : Issue) (f : Form) (c : Crew) (x regs : List Nat) (ws : List Work) (y : List Nat) (q : Nat → Fibre → Fibre) :
    s.later i f (c.modFibs y q) x regs ws = s.later i f c x regs ws := by
  have : ∀ w, Turn.op ⟨i, f, x, []⟩ (c.modFibs y q) (x.headD 0) x w = Turn.op ⟨i, f, x, []⟩ c (x.headD 0) x w := by
    intro w; unfold Turn.op; rw [modFibs_eq]
  unfold State.later
  simp only [this]

theorem laterWorks_modFibs {c : Crew} {y : List Nat} {q : Nat → Fibre → Fibre} (hq : Quiet q) (x : List Nat) (ds : List Dest) (preds : List (Nat × PReg × Bool)) (flags : List (Nat × Word)) :
    laterWorks (c.modFibs y q) x ds preds flags = laterWorks c x ds preds flags := by
  unfold laterWorks
  simp only [writeShape_modFibs hq]

/-- Results that land later, and the end of the turn, after quiet changes of the fibres. -/
theorem later_after {s m : State} {i : Issue} {fm : Form} {c : Crew} {x : List Nat} {ds : List Dest} {preds : List (Nat × PReg × Bool)} {flags : List (Nat × Word)} {q : Nat → Fibre → Fibre}
    (hn : i.ranks.Nodup) (hx : x.Nodup) (hcur : s.cur = some i) (hc : s.getCrew i.crew = some (c.modFibs x q)) (ho : ∀ id, id ≠ i.crew → s.getCrew id = m.getCrew id) (hm : s = { m with crews := s.crews })
    (ok : c.regsOk = true) (hq : Quiet q) (hd : ∀ D ∈ ds, D.d < 120) (hp : x ≠ [] → (c.prepare ds x).isSome = true) (hpc : ∀ k f, (q k f).pc = f.pc) :
    ∃ s2 t d', s.landLater ⟨i, fm, x, []⟩ x ds preds flags = some s2 ∧ s2.finish ⟨i, fm, x, []⟩ x = .next t ∧ RegsWritten c d' x [] ∧
      (∀ D ∈ ds, x ≠ [] → c.writeShape D.d D.shape x = .g → (d'.desc D.d).shape = .g) ∧
      MovedOn (m.later i fm c x (ds.map (fun D => D.d) ++ preds.map fun p => 128 + p.2.1.toNat) (laterWorks c x ds preds flags)) t i fm c d' x fun k f => if k ∈ x then q k f else f := by
  obtain ⟨s2, d, e1, e2, e3, e4, e5, e6⟩ := landLater_spec (s := s) (t := ⟨i, fm, x, []⟩) (ds := ds) (preds := preds) (flags := flags) hc (regsOk_modFibs _ _ ok) hd rfl
    (fun h => by rw [prepare_modFibs hq]; exact hp h)
  simp only [later_modFibs, laterWorks_modFibs hq, writeShape_modFibs hq] at e5 e6
  have hk := later_kept s i fm c x (ds.map (fun D => D.d) ++ preds.map fun p => 128 + p.2.1.toNat) (laterWorks c x ds preds flags)
  have hmk := later_kept m i fm c x (ds.map (fun D => D.d) ++ preds.map fun p => 128 + p.2.1.toNat) (laterWorks c x ds preds flags)
  have e7 : s2 = { m.later i fm c x (ds.map (fun D => D.d) ++ preds.map fun p => 128 + p.2.1.toNat) (laterWorks c x ds preds flags) with crews := s2.crews } := by
    rw [hm, later_crews] at e6; exact e6
  have hcur2 : s2.cur = some i := by rw [e6]; exact hk.2.trans hcur
  obtain ⟨t, f1, f2, f3⟩ := finish_after_regs (e := fun _ f => f) (q := q) hn hx hcur2 e2 (fun id hne => ((e3 id hne).trans (ho id hne)).trans (getCrew_congr hmk.1 id).symm) e7 hq e4 (fun k f => hpc k f)
    ⟨i, fm, x, []⟩ rfl
  rw [modRanks_id] at f1
  exact ⟨s2, t, _, e1, f1, f2, e5, f3⟩

/-- An ALU instruction of variable latency with one result at a ready turn: its row is taken, the result is outstanding (01_execution R42). -/
theorem alu_late {s : State} {ins : Instr} {i : Issue} {c : Crew} {x : List Nat} {mk : Crew → Turn → Alu} {a : Alu} {d : Reg} {u : Tag} {T : List Tag} {v : Nat → List (Word × Tag)}
    {p : Nat → Nat × Nat} (h : Ready s ins i c x) (ok : c.regsOk = true) (ha : mk c ⟨i, formOf c i.ext ins, x, []⟩ = a) (hlate : a.late = true) (hrule : a.rule = .uni)
    (hr : ∀ k ∈ x, Reads s c k a.srcs (v k)) (hv : ∀ k ∈ x, (v k).map (fun q => q.2) = T) (htag : a.tagOk T = true) (hbad : a.bad T = none) (hm : i.ext.mask = none)
    (hd : a.dests T = [(d.toNat, u)]) (hd' : d.toNat < 120) (hroom : c.Room x [(d.toNat, a.shape c i.ext x T d.toNat u)])
    (hrun : ∀ k ∈ x, a.run (c.envAt i.ext k) (v k) = [[p k]]) (hE : a.ModeFree) :
    ∃ t c', s.alu ins mk = .next t ∧ RegsWritten c c' x [] ∧ (x ≠ [] → c.writeShape d.toNat (a.shape c i.ext x T d.toNat u) x = .g → (c'.desc d.toNat).shape = .g) ∧
      MovedOn (s.later i (formOf c i.ext ins) c x [d.toNat] [.value d u (c.writeShape d.toNat (a.shape c i.ext x T d.toNat u) x) (x.map fun k => (k, BitVec.ofNat 32 (p k).1)) [] (x.map fun k => (k, BitVec.ofNat 32 (p k).2))])
        t i (formOf c i.ext ins) c c' x fun k f => if k ∈ x then f.popAll a.srcs else f := by
  have hc := h.crew_eq
  have hid := getCrew_id hc
  unfold State.alu
  rw [perform_ready h]
  have hpo : ∀ k ∈ x, s.regPoisoned c.id k (a.srcs ++ if i.ext.mask.isSome then (formOf c i.ext ins).dests else []) = false := by
    intro k hk
    rw [hm]; simpa using (hr k hk).2
  have hck : ∀ k ∈ x, a.check i.ext (v k) = .ok (v k) := by
    intro k hk
    unfold Alu.check
    simp only [hv k hk, htag, hm, Bool.and_self, if_true, hbad]
  simp only [ha, checkAll_ok (v := v) fun k hk => ⟨v k, hr k hk, hck k hk⟩, splitPoison_ok (v := v) hpo, map_fst_pair, Alu.overflows_same, Bool.false_eq_true, if_false, List.append_nil, finishTraps_nil]
  by_cases hx : x = []
  · subst hx
    have hw (ds : List Dest) (fl : List (Nat × Word)) : s.aluWrite ⟨i, formOf c i.ext ins, [], []⟩ c a [] ds fl = some (s.modRanks c.id [] fun _ f => f.popAll a.srcs) := by
      simp only [State.aluWrite, hlate, if_true]; rfl
    simp only [List.map_nil, hw, hid]
    obtain ⟨t, f1, f2, f3⟩ := finish_after_regs (m := s) (s2 := s.modRanks i.crew [] fun _ f => f.popAll a.srcs) (c := c) (x := []) (ds := [])
      (e := fun _ f => f) (q := fun _ f => f.popAll a.srcs) h.ranks_nodup List.nodup_nil h.cur_eq (getCrew_modRanks_same hc)
      (fun id hne => getCrew_modRanks_other hne) rfl (quiet_popAll _) (RegsWritten.nothing (regsOk_modFibs _ _ ok) _) (fun k f => by rw [popAll_eq]) ⟨i, formOf c i.ext ins, [], []⟩ rfl
    rw [modRanks_id] at f1
    exact ⟨t, _, f1, f2, fun h => absurd rfl h, by simpa [State.later] using f3⟩
  · have htags : aluDests c i.ext a x (x.map fun k => (k, v k)) =
        ([a.dest c i.ext x T (x.map fun k => (k, v k)) ((d.toNat, u), 0)], x.map fun k => (k, a.flags i.ext (c.envAt i.ext k) (v k))) := by
      cases x with
      | nil => exact absurd rfl hx
      | cons k l =>
        have hT : (v k).map (fun q => q.2) = T := hv k (by simp)
        simp only [aluDests, List.map_cons, hT, hd, List.map_map]; rfl
    obtain ⟨s2, t, d', e1, e2, e3, e4, e5⟩ := later_after (s := s.modRanks i.crew x fun _ f => f.popAll a.srcs) (m := s) (i := i) (fm := formOf c i.ext ins) (c := c)
      (ds := [a.dest c i.ext x T (x.map fun k => (k, v k)) ((d.toNat, u), 0)]) (preds := []) (flags := x.map fun k => (k, a.flags i.ext (c.envAt i.ext k) (v k)))
      h.ranks_nodup h.x_nodup h.cur_eq (getCrew_modRanks_same hc) (fun id hne => getCrew_modRanks_other hne) rfl ok (quiet_popAll a.srcs)
      (fun D hD => by simp only [List.mem_singleton] at hD; subst hD; exact hd') (fun hx => hroom hx) (fun k f => by rw [popAll_eq])
    have hw : s.aluWrite ⟨i, formOf c i.ext ins, x, []⟩ c a x (aluDests c i.ext a x (x.map fun k => (k, v k))).1 (aluDests c i.ext a x (x.map fun k => (k, v k))).2 = some s2 := by
      simp only [State.aluWrite, hlate, if_true, htags, hid]; exact e1
    simp only [hw]
    refine ⟨t, d', e2, e3, fun hx hs => e4 (a.dest c i.ext x T (x.map fun k => (k, v k)) ((d.toNat, u), 0)) (by simp) hx hs, ?_⟩
    have hne : ∀ (l : List (Shape × Tag)) (t : Tag), a.rule.shape l t ≠ .a := by
      intro l t; rw [hrule]; unfold ShapeRule.shape; simp; split <;> simp
    have hws : c.writeShape d.toNat (a.shape c i.ext x T d.toNat u) x ≠ .a := by
      have h1 : a.shape c i.ext x T d.toNat u ≠ .a := by
        unfold Alu.shape
        split
        · simp
        · exact hne _ _
      unfold Crew.writeShape
      split
      · simp
      · exact h1
    have hval : ∀ k ∈ x, (a.dest c i.ext x T (x.map fun k => (k, v k)) ((d.toNat, u), 0)).value (c.writeShape d.toNat (a.shape c i.ext x T d.toNat u) x) k = BitVec.ofNat 32 (p k).1 := by
      intro k hk
      have := dest_value (s := s) (c := c) (a := a) (x := i.ext) (y := x) (T := T) (v := v) (p := ((d.toNat, u), 0)) (fun k hk => (hr k hk).1) hv
        (fun k hk => ⟨_, List.getElem?_eq_getElem (h.x_lt k hk)⟩) htag hE (by intro _ _ _ _ hsh; exact absurd hsh (hne _ _)) (by simp [hd]) hk
      refine this.trans ?_
      unfold Alu.word
      rw [hrun k hk, hm]
      show mergeElems none _ [p k] = _
      apply BitVec.eq_of_toNat_eq
      show (_ % _ : Nat) = _
      simp [packElems]
    have hfl : (x.map fun k => (k, a.flags i.ext (c.envAt i.ext k) (v k))) = x.map fun k => (k, BitVec.ofNat 32 (p k).2) := by
      refine List.map_congr_left fun k hk => ?_
      unfold Alu.flags
      rw [hrun k hk, hm]
      simp [flagsOf, List.range_succ]
    have hwk : laterWorks c x [a.dest c i.ext x T (x.map fun k => (k, v k)) ((d.toNat, u), 0)] [] (x.map fun k => (k, a.flags i.ext (c.envAt i.ext k) (v k))) =
        [.value d u (c.writeShape d.toNat (a.shape c i.ext x T d.toNat u) x) (x.map fun k => (k, BitVec.ofNat 32 (p k).1)) [] (x.map fun k => (k, BitVec.ofNat 32 (p k).2))] := by
      rw [hfl]
      show [Work.value (BitVec.ofNat 7 d.toNat) u _ _ _ _] = _
      have hdd : BitVec.ofNat 7 d.toNat = d := by simp
      rw [hdd]
      congr 2
      show (match c.writeShape d.toNat (a.shape c i.ext x T d.toNat u) x with | .g => _ | _ => _) = _
      cases hs : c.writeShape d.toNat (a.shape c i.ext x T d.toNat u) x with
      | g =>
        simp only [Alu.dest, List.map_map]
        refine List.map_congr_left fun k hk => ?_
        have := hval k hk
        rw [hs] at this
        simp only [Dest.value, Alu.dest, List.map_map, Function.comp_def] at this
        rw [valOf_pair (v := fun k => a.word c i.ext 0 d.toNat k (c.envAt i.ext k) (v k)) hk] at this
        simp only [Function.comp_def]; exact congrArg _ this
      | u =>
        refine List.map_congr_left fun k hk => ?_
        have := hval k hk
        rw [hs] at this
        exact congrArg _ this
      | a => exact absurd hs hws
    rw [hwk] at e5
    exact e5

theorem writeShape_g (c : Crew) (d : Nat) (x : List Nat) : c.writeShape d .g x = .g := by unfold Crew.writeShape; split <;> rfl

/-- What an engine instruction leaves outstanding. -/
def EnginePlan.works {α : Type} (p : EnginePlan α) (res : List (Nat × List Word × Bool)) : List Work :=
  (p.dests.zip (List.range p.dests.length)).map fun d =>
    .value (BitVec.ofNat 7 d.1.1) d.1.2 .g (res.map fun r => (r.1, r.2.1.getD d.2 0)) (if d.2 == 0 then p.predResults res else []) []

theorem results_works {α : Type} (p : EnginePlan α) (c : Crew) (x : List Nat) (res : List (Nat × List Word × Bool)) :
    laterWorks c x (p.results res) (p.predResults res) [] = p.works res := by
  unfold laterWorks EnginePlan.works
  have hl : (p.results res).length = p.dests.length := by simp [EnginePlan.results]
  rw [hl]
  apply List.ext_getElem
  · simp [hl]
  · intro n h1 h2
    simp only [List.length_map, List.length_zip, hl, List.length_range] at h1
    simp only [List.getElem_map, List.getElem_zip, List.getElem_range, EnginePlan.results]
    simp only [destG, writeShape_g, ite_self]

theorem results_prepare {α : Type} (p : EnginePlan α) (c : Crew) (x : List Nat) (res : List (Nat × List Word × Bool)) :
    c.prepare (p.results res) x = c.prepare (p.dests.map fun d => destG d.1 d.2 []) x := by
  unfold Crew.prepare EnginePlan.results
  congr 1
  apply List.ext_getElem
  · simp
  · intro n h1 h2
    simp [destG]

theorem results_regs {α : Type} (p : EnginePlan α) (res : List (Nat × List Word × Bool)) : (p.results res).map (fun D => D.d) = p.dests.map fun d => d.1 := by
  unfold EnginePlan.results
  apply List.ext_getElem
  · simp
  · intro n h1 h2
    simp [destG]

/-- An engine none of whose fibres is poisoned raises no ShapeOverflow of its own. -/
theorem EnginePlan.overflows_same {α : Type} (p : EnginePlan α) (c : Crew) (x : List Nat) : p.overflows c x x = false := by
  unfold EnginePlan.overflows; cases x <;> simp

/-- An engine instruction at a ready turn whose fibres all pass its checks: its steps are taken, its results are outstanding. -/
theorem engine_done {α : Type} {s : State} {ins : Instr} {i : Issue} {c : Crew} {x : List Nat} {p : EnginePlan α} {v : Nat → α} {r : State × List (Nat × List Word × Bool)}
    (h : Ready s ins i c x) (ok : c.regsOk = true) (hb : ∀ k ∈ x, p.busy s c k = false) (hr : ∀ k ∈ x, ∃ l, Reads s c k p.srcs l ∧ p.check s c k l = .ok (v k))
    (hd : ∀ d ∈ p.dests, d.1 < 120) (hroom : c.Room x (p.dests.map fun d => (d.1, .g))) (hrun : p.run c s (x.map fun k => (k, v k)) = r)
    (hcur : r.1.cur = s.cur) (hcrew : r.1.getCrew i.crew = some c) :
    ∃ t c', s.engine ins p = .next t ∧ RegsWritten c c' x [] ∧ (∀ d ∈ p.dests, x ≠ [] → (c'.desc d.1).shape = .g) ∧
      MovedOn (r.1.later i (formOf c i.ext ins) c x (p.dests.map (fun d => d.1) ++ (p.predResults r.2).map fun q => 128 + q.2.1.toNat) (p.works r.2)) t i (formOf c i.ext ins) c c' x
        fun k f => if k ∈ x then f.popAll p.srcs else f := by
  have hid := getCrew_id h.crew_eq
  unfold State.engine
  rw [perform_ready h]
  have hbz : (x.any fun k => p.busy s c k) = false := by
    rw [List.any_eq_false]; intro k hk; simp [hb k hk]
  have hprep : x ≠ [] → (c.prepare (p.dests.map fun d => destG d.1 d.2 []) x).isSome = true := by
    intro hx
    have := hroom hx
    unfold Crew.prepare
    rw [List.map_map] at this ⊢
    exact this
  have hm : ∃ z, (if x.isEmpty then some c else c.prepare (p.dests.map fun d => destG d.1 d.2 []) x) = some z := by
    by_cases hx : x = []
    · subst hx; exact ⟨c, rfl⟩
    · have : x.isEmpty = false := by simpa using hx
      rw [this]; exact Option.isSome_iff_exists.1 (hprep hx)
  obtain ⟨z, hz⟩ := hm
  simp only [hbz, Bool.false_eq_true, if_false, checkAll_ok (v := v) hr, splitPoison_ok (v := v) fun k hk => (hr k hk).elim fun _ q => q.1.2, map_fst_pair, hz, p.overflows_same, List.append_nil, finishTraps_nil, hrun]
  obtain ⟨s2, t, d', e1, e2, e3, e4, e5⟩ := later_after (s := r.1.modRanks i.crew x fun _ f => f.popAll p.srcs) (m := r.1) (i := i) (fm := formOf c i.ext ins) (c := c)
    (ds := p.results r.2) (preds := p.predResults r.2) (flags := []) h.ranks_nodup h.x_nodup (hcur.trans h.cur_eq) (getCrew_modRanks_same hcrew) (fun id hne => getCrew_modRanks_other hne) rfl ok (quiet_popAll p.srcs)
    (fun D hD => by
      have : D.d ∈ (p.results r.2).map fun D => D.d := List.mem_map.2 ⟨D, hD, rfl⟩
      rw [results_regs] at this
      obtain ⟨d, hd1, hd2⟩ := List.mem_map.1 this
      rw [← hd2]; exact hd d hd1) (fun hx => by rw [results_prepare]; exact hprep hx) (fun k f => by rw [popAll_eq])
  simp only [hid, e1]
  refine ⟨t, d', e2, e3, ?_, ?_⟩
  · intro d hdm hx
    have hin : d.1 ∈ (p.results r.2).map fun D => D.d := by rw [results_regs]; exact List.mem_map.2 ⟨d, hdm, rfl⟩
    obtain ⟨D, hD, e⟩ := List.mem_map.1 hin
    have := e4 D hD hx (by
      have : D.shape = .g := by
        unfold EnginePlan.results at hD
        obtain ⟨q, -, rfl⟩ := List.mem_map.1 hD
        rfl
      rw [this]; exact writeShape_g ..)
    rw [← e]; exact this
  · rw [results_works, results_regs] at e5; exact e5

end Sys2Proof.Machine
end

