-- ==== Sys2Proof/Laws/Memory.lean ====
section
/-! SUPPORT. Laws of memory: read after write, and every memory operation keeps the canonical form. -/
namespace Sys2Proof.Machine

theorem cellWf_cons (a : Nat) (b : Byte) (r : List Host.Cell) :
    cellWf ((a, b) :: r) = true ↔ b ≠ 0 ∧ (∀ p, r.head? = some p → a < p.1) ∧ cellWf r = true := by
  rcases r with - | ⟨⟨c, d⟩, r⟩ <;> simp [cellWf, and_assoc]

/-- The first address is below all others. -/
theorem cellWf_head_lt : ∀ (m : List Host.Cell) (a : Nat) (b : Byte), cellWf ((a, b) :: m) = true → ∀ p ∈ m, a < p.1
  | [], _, _, _, p, hp => by simp at hp
  | (c, d) :: r, a, b, h, p, hp => by
    rw [cellWf_cons] at h
    have hc : a < c := h.2.1 _ rfl
    rcases List.mem_cons.1 hp with rfl | hp
    · exact hc
    · exact Nat.lt_trans hc (cellWf_head_lt r c d h.2.2 p hp)

/-- An address below every listed one reads as an unlisted byte. -/
theorem cellGet_below : ∀ (m : List Host.Cell) (x : Nat), (∀ p ∈ m, x < p.1) → cellGet m x = 0
  | [], _, _ => rfl
  | (a, b) :: r, x, h => by simp [cellGet, h (a, b) List.mem_cons_self]

/-- A written byte reads as written, and no other byte changes. -/
theorem cellGet_cellSet : ∀ (m : List Host.Cell), cellWf m = true → ∀ (a : Nat) (v : Byte) (x : Nat), cellGet (cellSet m a v) x = if x = a then v else cellGet m x
  | [], _, a, v, x => by
    by_cases hv : v = 0 <;> simp only [cellSet, hv, if_true, if_false, cellGet] <;> grind
  | (c, d) :: r, h, a, v, x => by
    have hlt := cellWf_head_lt r c d h
    have hz : ∀ y, y ≤ c → cellGet r y = 0 := fun y hy => cellGet_below r y fun p hp => Nat.lt_of_le_of_lt hy (hlt p hp)
    have hr := ((cellWf_cons c d r).1 h).2.2
    have ih := cellGet_cellSet r hr a v x
    simp only [cellSet]
    split
    · split
      · by_cases hx : x = a
        · subst hx; simp_all [cellGet]
        · simp [hx]
      · simp only [cellGet]; grind
    · split
      · have := hz c (Nat.le_refl c)
        split
        · simp only [cellGet]; grind
        · simp only [cellGet]; grind
      · simp only [cellGet, ih]; grind

theorem cellSet_mem : ∀ (m : List Host.Cell) (a : Nat) (v : Byte) (p : Host.Cell), p ∈ cellSet m a v → p = (a, v) ∨ p ∈ m
  | [], a, v, p, h => by
    simp only [cellSet] at h
    split at h <;> simp_all
  | (c, d) :: r, a, v, p, h => by
    simp only [cellSet] at h
    have ih := cellSet_mem r a v p
    grind

theorem cellWf_of_lt (a : Nat) (b : Byte) (r : List Host.Cell) (hb : b ≠ 0) (h : ∀ p ∈ r, a < p.1) (hr : cellWf r = true) : cellWf ((a, b) :: r) = true :=
  (cellWf_cons a b r).2 ⟨hb, fun p hp => h p (List.mem_of_mem_head? hp), hr⟩

/-- Writing one byte keeps the canonical form. -/
theorem cellWf_cellSet : ∀ (m : List Host.Cell), cellWf m = true → ∀ (a : Nat) (v : Byte), cellWf (cellSet m a v) = true
  | [], _, a, v => by
    simp only [cellSet]; split <;> simp_all [cellWf]
  | (c, d) :: r, h, a, v => by
    have hlt := cellWf_head_lt r c d h
    obtain ⟨hd, -, hr⟩ := (cellWf_cons c d r).1 h
    simp only [cellSet]
    split
    · next hac =>
      split
      · exact h
      · next hv => exact cellWf_of_lt a v _ hv (fun p hp => (List.mem_cons.1 hp).elim (fun e => e ▸ hac) fun hp => Nat.lt_trans hac (hlt p hp)) h
    · split
      · next hac =>
        split
        · exact hr
        · next hv => exact cellWf_of_lt a v _ hv (fun p hp => hac ▸ hlt p hp) hr
      · exact cellWf_of_lt c d _ hd (fun p hp => (cellSet_mem r a v p hp).elim (fun e => by subst e; simp only; omega) fun hp => hlt p hp) (cellWf_cellSet r hr a v)

/-- Writing bytes keeps the canonical form. -/
theorem cellWf_cellWrite : ∀ (bs : List Byte) (m : List Host.Cell), cellWf m = true → ∀ a, cellWf (cellWrite m a bs) = true
  | [], _, h, _ => h
  | b :: bs, m, h, a => cellWf_cellWrite bs _ (cellWf_cellSet m h a b) (a + 1)

/-- A byte reads after a write as what was written there, or as before. -/
theorem cellGet_cellWrite : ∀ (bs : List Byte) (m : List Host.Cell), cellWf m = true → ∀ a x,
    cellGet (cellWrite m a bs) x = if a ≤ x ∧ x < a + bs.length then bs.getD (x - a) 0 else cellGet m x
  | [], _, _, a, x => by simp [cellWrite] <;> omega
  | b :: bs, m, h, a, x => by
    simp only [cellWrite]
    rw [cellGet_cellWrite bs _ (cellWf_cellSet m h a b) (a + 1) x, cellGet_cellSet m h]
    by_cases hx : x = a
    · subst hx; simp <;> omega
    · by_cases hr : a + 1 ≤ x ∧ x < a + 1 + bs.length
      · rw [if_pos hr, if_pos (by simp; omega), show x - a = (x - (a + 1)) + 1 by omega]; rfl
      · rw [if_neg hr, if_neg hx, if_neg (by simp; omega)]

/-- A read of what was just written gives it back. -/
theorem cellRead_cellWrite (bs : List Byte) (m : List Host.Cell) (h : cellWf m = true) (a : Nat) : cellRead (cellWrite m a bs) a bs.length = bs := by
  have key : ∀ (n k : Nat), k + n = bs.length → cellRead (cellWrite m a bs) (a + k) n = bs.drop k := by
    intro n
    induction n with
    | zero => intro k hk; simp [cellRead]; omega
    | succ n ih =>
      intro k hk
      have hlt : k < bs.length := by omega
      rw [cellRead, Nat.add_assoc, ih (k + 1) (by omega), cellGet_cellWrite bs m h, if_pos (by omega), show a + k - a = k by omega,
        List.drop_eq_getElem_cons hlt]
      simp [hlt]
  simpa using key bs.length 0 (by omega)

/-- Equal reads of canonical memories mean equal memories. -/
theorem cellWf_ext : ∀ (m n : List Host.Cell), cellWf m = true → cellWf n = true → (∀ a, cellGet m a = cellGet n a) → m = n
  | [], [], _, _, _ => rfl
  | [], (c, d) :: r, _, h, e => absurd (by simpa [cellGet] using (e c).symm) ((cellWf_cons c d r).1 h).1
  | (c, d) :: r, [], h, _, e => absurd (by simpa [cellGet] using e c) ((cellWf_cons c d r).1 h).1
  | (a, b) :: r, (c, d) :: q, hm, hn, e => by
    obtain ⟨hb, -, hr⟩ := (cellWf_cons a b r).1 hm
    obtain ⟨hd, -, hq⟩ := (cellWf_cons c d q).1 hn
    have hal := cellWf_head_lt r a b hm
    have hcl := cellWf_head_lt q c d hn
    have hac : a = c := by
      have ea := e a
      have ec := e c
      simp only [cellGet] at ea ec
      rcases Nat.lt_trichotomy a c with h | h | h
      · simp [h] at ea; exact absurd ea hb
      · exact h
      · simp [h, Nat.lt_irrefl] at ec; exact absurd ec.symm hd
    subst hac
    have hbd : b = d := by simpa [cellGet] using e a
    subst hbd
    congr 1
    refine cellWf_ext r q hr hq fun x => ?_
    rcases Nat.lt_or_ge a x with h | h
    · have := e x
      simpa [cellGet, Nat.not_lt.2 (Nat.le_of_lt h), Nat.ne_of_gt h] using this
    · rw [cellGet_below r x fun p hp => Nat.lt_of_le_of_lt h (hal p hp), cellGet_below q x fun p hp => Nat.lt_of_le_of_lt h (hcl p hp)]

/-- Dropping entries keeps the canonical form. -/
theorem cellWf_filter (q : Host.Cell → Bool) : ∀ (m : List Host.Cell), cellWf m = true → cellWf (m.filter q) = true
  | [], _ => rfl
  | (a, b) :: r, h => by
    obtain ⟨hb, -, hr⟩ := (cellWf_cons a b r).1 h
    have hlt := cellWf_head_lt r a b h
    rw [List.filter_cons]
    split
    · exact cellWf_of_lt a b _ hb (fun p hp => hlt p (List.mem_filter.1 hp).1) (cellWf_filter q r hr)
    · exact cellWf_filter q r hr

/-- Any fold of byte writes keeps the canonical form. -/
theorem cellWf_foldl {α : Type} (f : List Host.Cell → α → List Host.Cell) (hf : ∀ m x, cellWf m = true → cellWf (f m x) = true) :
    ∀ (l : List α) (m : List Host.Cell), cellWf m = true → cellWf (l.foldl f m) = true
  | [], _, h => h
  | x :: l, m, h => cellWf_foldl f hf l (f m x) (hf m x h)

/-- Writing squeezed blocks keeps the canonical form. -/
theorem cellWf_writeBlocks (ty : SqzType) (code : Nat) (chk : Bool) (frame : Nat) : ∀ (bl : List (List Byte)) (b : Nat) (m : List Host.Cell),
    cellWf m = true → cellWf (writeBlocks ty code chk frame b bl m) = true
  | [], _, _, h => h
  | _ :: r, b, _, h => cellWf_writeBlocks ty code chk frame r (b + 1) _ (cellWf_cellWrite _ _ h _)

/-- Writing at a place keeps the canonical form. -/
theorem writePlace_wf (s : State) (p : Place) (bs : List Byte) (h : Memory.wf s) : Memory.wf (s.writePlace p bs) := by
  obtain ⟨hm, hc⟩ := h
  unfold State.writePlace
  split
  · refine ⟨hm, fun c hmem => ?_⟩
    obtain ⟨x, hx, rfl⟩ := List.mem_map.1 hmem
    split
    · exact cellWf_cellWrite _ _ (hc x hx) _
    · exact hc x hx
  · split
    · exact ⟨cellWf_cellWrite _ _ hm _, hc⟩
    · exact ⟨cellWf_writeBlocks _ _ _ _ _ _ _ hm, hc⟩

/-- Writing a dirty sector back keeps the canonical form. -/
theorem writeBack_wf (s : State) (c : CacheSector) (h : Memory.wf s) : Memory.wf (s.writeBack c) :=
  ⟨cellWf_foldl _ (fun m p hm => by
    split
    · exact cellWf_cellSet _ hm _ _
    · exact hm) _ _ h.1, h.2⟩

/-- A state whose memory and scratchpads are those of a canonical one is canonical. -/
theorem Memory.wf_of_kept {u v : State} (e : v.mem = u.mem ∧ v.crews = u.crews) (w : Memory.wf u) : Memory.wf v := by
  unfold Memory.wf; rw [e.1, e.2]; exact w

theorem markWrite_kept (s : State) (p : Place) (n : Nat) (b : Bool) : (s.markWrite p n b).mem = s.mem ∧ (s.markWrite p n b).crews = s.crews := by
  unfold State.markWrite; split <;> exact ⟨rfl, rfl⟩

theorem keepBad_kept (s : State) (p : Place) (n : Nat) : (s.keepBad p n).mem = s.mem ∧ (s.keepBad p n).crews = s.crews := by
  unfold State.keepBad; split
  · simp only; split <;> exact ⟨rfl, rfl⟩
  · exact ⟨rfl, rfl⟩

theorem dirtyMig_kept (s : State) (p : Place) (n : Nat) : (s.dirtyMig p n).mem = s.mem ∧ (s.dirtyMig p n).crews = s.crews := by
  unfold State.dirtyMig; split <;> exact ⟨rfl, rfl⟩

/-- The credits that a write of a consumed word returns change neither memory nor a crew. -/
theorem returnCredits_kept (s : State) (pa n : Nat) : (s.returnCredits pa n).mem = s.mem ∧ (s.returnCredits pa n).crews = s.crews := ⟨rfl, rfl⟩

theorem Memory.wf_ite {c : Prop} [Decidable c] {u v : State} (hu : Memory.wf u) (hv : Memory.wf v) : Memory.wf (if c then u else v) := by
  split
  · exact hu
  · exact hv

/-- Settling one accumulator keeps the canonical form. -/
theorem settleOne_wf (s : State) (a : Acc) (h : Memory.wf s) : Memory.wf (s.settleOne a) := by
  have h1 : Memory.wf (((s.dirtyMig a.place a.bytes).keepBad a.place a.bytes).writePlace a.place (natBytes a.bytes a.settled.1)) :=
    writePlace_wf _ _ _ (Memory.wf_of_kept (keepBad_kept _ _ _) (Memory.wf_of_kept (dirtyMig_kept _ _ _) h))
  have h2 := Memory.wf_ite (c := a.bad = true) (Memory.wf_of_kept (markWrite_kept _ a.place a.bytes true) h1) h1
  unfold State.settleOne
  dsimp only
  split
  · exact Memory.wf_of_kept (returnCredits_kept _ _ _) h2
  · exact h2

/-- Settling open accumulators keeps the canonical form. -/
theorem settleRange_wf (s : State) (p : Place) (n : Nat) (h : Memory.wf s) : Memory.wf (s.settleRange p n).1 := by
  unfold State.settleRange
  simp only
  generalize (s.accs.filter fun a => placesMeet a.place a.bytes p n) = hit
  have key : ∀ (l : List Acc) (q : State × Nat), Memory.wf q.1 →
      Memory.wf (l.foldl (fun (acc : State × Nat) a => (acc.1.settleOne a, acc.2 ||| a.settled.2)) q).1 := by
    intro l
    induction l with
    | nil => intro q hq; exact hq
    | cons a l ih => intro q hq; exact ih _ (settleOne_wf _ _ hq)
  exact key hit ({ s with accs := s.accs.filter fun a => !placesMeet a.place a.bytes p n }, 0) h

/-- Counting a write changes neither memory nor a crew. -/
theorem pushFirings_kept (c : Crumb) : ∀ (l : List Bool) (s : State), (s.pushFirings c l).mem = s.mem ∧ (s.pushFirings c l).crews = s.crews
  | [], _ => ⟨rfl, rfl⟩
  | _ :: r, _ => pushFirings_kept c r _

theorem countWrite_kept (s : State) (pa n : Nat) (b : Bool) : (s.countWrite pa n b).mem = s.mem ∧ (s.countWrite pa n b).crews = s.crews := by
  unfold State.countWrite
  generalize List.filter _ s.crumbs = l
  induction l generalizing s with
  | nil => exact ⟨rfl, rfl⟩
  | cons c l ih =>
    have h := ih (s.countAt c (overlapBytes c.region pa n) b)
    have k : (s.countAt c (overlapBytes c.region pa n) b).mem = s.mem ∧ (s.countAt c (overlapBytes c.region pa n) b).crews = s.crews :=
      pushFirings_kept _ _ _
    exact ⟨h.1.trans k.1, h.2.trans k.2⟩

theorem hostWrite_kept (s : State) (pa : Nat) (bs : List Byte) : (s.hostWrite pa bs).mem = s.mem ∧ (s.hostWrite pa bs).crews = s.crews := by
  unfold State.hostWrite
  generalize List.range ((pa % 32 + bs.length + 31) / 32) = l
  induction l generalizing s with
  | nil => exact ⟨rfl, rfl⟩
  | cons j l ih => rw [List.foldl_cons]; exact ih _

/-- Writing the changed words of a descriptor keeps the canonical form. -/
theorem putDesc_wf (s : State) (desc r : Nat) (h : Memory.wf s) : Memory.wf (s.putDesc desc r) := by
  unfold State.putDesc
  generalize List.range 16 = l
  induction l generalizing s with
  | nil => exact h
  | cons i l ih =>
    rw [List.foldl_cons]
    refine ih _ ?_
    dsimp only
    split
    · exact h
    · exact Memory.wf_of_kept (countWrite_kept _ _ _ _) ⟨cellWf_cellWrite _ _ h.1 _, h.2⟩

theorem Memory.wf_queues {s : State} (l : List UserQueue) (h : Memory.wf s) : Memory.wf { s with userQueues := l } := ⟨h.1, h.2⟩

/-- A notify keeps the canonical form. -/
theorem notifyStep_wf (s : State) (q : Nat) (t : Word) (w : Nat) (h : Memory.wf s) : Memory.wf (s.notifyStep q t w) := by
  unfold State.notifyStep
  split
  · exact h
  · exact Memory.wf_ite h (Memory.wf_ite (putDesc_wf _ _ _ h) (Memory.wf_ite h (Memory.wf_ite (Memory.wf_queues _ (putDesc_wf _ _ _ h)) (Memory.wf_queues _ (putDesc_wf _ _ _ h)))))

/-- A write at the device registers keeps the canonical form. -/
theorem deviceWrite_wf (s : State) (pa : Nat) (bs : List Byte) (h : Memory.wf s) : Memory.wf (s.deviceWrite pa bs) := by
  unfold State.deviceWrite
  split
  · exact notifyStep_wf _ _ _ _ h
  · exact h

/-- A write performed at its home keeps the canonical form. -/
theorem performWrite_wf (s : State) (core : Option Nat) (p : Place) (bs : List Byte) (b : Bool) (h : Memory.wf s) : Memory.wf (s.performWrite core p bs b) := by
  unfold State.performWrite
  split
  · exact h
  · have h0 : Memory.wf (if core.isSome then s else s.released) := Memory.wf_ite h h
    have h1 := Memory.wf_of_kept (keepBad_kept _ p bs.length) (Memory.wf_of_kept (dirtyMig_kept _ p bs.length) (settleRange_wf _ p bs.length h0))
    simp only
    split
    · exact Memory.wf_of_kept (markWrite_kept _ _ _ _) (writePlace_wf _ _ _ h1)
    · split
      · exact Memory.wf_of_kept (u := State.markWrite _ _ _ _) ⟨rfl, rfl⟩ (Memory.wf_of_kept (markWrite_kept _ _ _ _) (Memory.wf_of_kept (hostWrite_kept _ _ _) h1))
      split
      · split
        · exact deviceWrite_wf _ _ _ h1
        · exact h1
      · refine Memory.wf_of_kept (returnCredits_kept _ _ _) (Memory.wf_of_kept (countWrite_kept _ _ _ _) ?_)
        exact Memory.wf_of_kept (u := State.markWrite _ _ _ _) ⟨rfl, rfl⟩ (Memory.wf_of_kept (markWrite_kept _ _ _ _) (writePlace_wf _ _ _ h1))

/-- Reset memory is canonical. -/
theorem reset_wf : Memory.wf State.reset := by decide

/-! ### The mailbox -/

/-- What the host does keeps the canonical form of the mailbox, which no other step writes. -/
theorem mailbox_wf (s : State) (off : Nat) (bs : List Byte) (h : cellWf s.mailbox = true) : cellWf (s.hostAct (.mailboxWrite off bs)).mailbox = true := by
  unfold State.hostAct
  dsimp only
  split
  · exact cellWf_cellWrite _ _ h _
  · exact h

end Sys2Proof.Machine
end

