-- ==== Sys2Proof/Laws/PerInstr.lean ====
section
/-! SUPPORT. The decoder reads back what the encoder wrote, one lemma for each constructor of Instr. -/

set_option Elab.async false


namespace Sys2Proof.Laws.RoundTrip


/-- A well-formed word is a 32-bit number that the decoder reads as itself; a step that is no word has no encoding. -/
def Statement (i : Instr) : Prop := i.wf = true → ∀ w, encode i = some w → w < 2 ^ 32 ∧ decodeBytes (wordBytes w) = .ok i

theorem bytes_of_word (w : Nat) (h : w < 2 ^ 32) : decodeBytes (wordBytes w) = decodeWord w := by
  have e : bytesNat (wordBytes w) = w := by simp [bytesNat, wordBytes, bits, fld]; omega
  simp only [decodeBytes, e]
  simp [wordBytes]

theorem bit01_lt (b : Bool) : bit01 b < 2 := by cases b <;> decide
theorem bit01_eq (b : Bool) : (bit01 b == 1) = b := by cases b <;> rfl
theorem bit01_one (b : Bool) : (bit01 b = 1) = (b = true) := by cases b <;> simp [bit01]
theorem word_major (w : Nat) (i : Instr) (h : decodeMajor w = .ok i) (hw : i.wf = true) : decodeWord w = .ok i := by simp [decodeWord, h, hw]
theorem close (w : Nat) (i : Instr) (hl : w < 2 ^ 32) (h : decodeMajor w = .ok i) (hw : i.wf = true) : w < 2 ^ 32 ∧ decodeBytes (wordBytes w) = .ok i :=
  ⟨hl, by rw [bytes_of_word w hl]; exact word_major w i h hw⟩

theorem tag_lt (x : Tag) : x.code < 2 ^ 4 := by cases x <;> decide
theorem tag_code (x : Tag) : Tag.ofCode x.code = some x := by cases x <;> rfl
theorem cond_lt (x : Cond) : x.code < 2 ^ 4 := by cases x <;> decide
theorem cond_code (x : Cond) : Cond.ofCode x.code = some x := by cases x <;> rfl
theorem cmpmode_lt (x : CmpMode) : x.code < 2 ^ 2 := by cases x <;> decide
theorem cmpmode_code (x : CmpMode) : CmpMode.ofCode x.code = some x := by cases x <;> rfl
theorem space_lt (x : Space) : x.code < 2 ^ 2 := by cases x <;> decide
theorem space_code (x : Space) : Space.ofCode x.code = some x := by cases x <;> rfl
theorem sem_lt (x : Sem) : x.code < 2 ^ 2 := by cases x <;> decide
theorem sem_code (x : Sem) : Sem.ofCode x.code = some x := by cases x <;> rfl
theorem rmode_lt (x : RMode) : x.code < 2 ^ 2 := by cases x <;> decide
theorem rmode_code (x : RMode) : RMode.ofCode x.code = some x := by cases x <;> rfl
theorem fencekind_lt (x : FenceKind) : x.code < 2 ^ 2 := by cases x <;> decide
theorem fencekind_code (x : FenceKind) : FenceKind.ofCode x.code = some x := by cases x <;> rfl
theorem tilefmt_lt (x : TileFmt) : x.code < 2 ^ 2 := by cases x <;> decide
theorem tilefmt_code (x : TileFmt) : TileFmt.ofCode x.code = some x := by cases x <;> rfl

theorem addA3 (e : Bool) (d : Reg) (a : Reg) (b : Reg) : Statement (.addA3 e d a b) := by
  intro hwf w hw
  simp only [encode, Option.some.injEq, put31_14_7_0] at hw
  have l_e := bit01_lt e
  have l_d := d.isLt
  have l_a := a.isLt
  have l_b := b.isLt
  have f0 : fld w 0 7 = b.toNat := by simp only [fld]; omega
  have f1 : fld w 7 7 = a.toNat := by simp only [fld]; omega
  have f2 : fld w 14 7 = d.toNat := by simp only [fld]; omega
  have f3 : fld w 21 6 = 0 := by simp only [fld]; omega
  have f4 : fld w 27 4 = 0 := by simp only [fld]; omega
  have f5 : fld w 31 1 = bit01 e := by simp only [fld]; omega
  refine close w _ (by omega) ?_ hwf
  simp [decodeMajor, decA3, flag, bits, bit01_eq, f0, f1, f2, f3, f4, f5]
theorem addAi (e : Bool) (d : Reg) (a : Reg) (imm : BitVec 7) : Statement (.addAi e d a imm) := by
  intro hwf w hw
  simp only [encode, Option.some.injEq, put31_14_7_0] at hw
  have l_e := bit01_lt e
  have l_d := d.isLt
  have l_a := a.isLt
  have l_imm := imm.isLt
  have f0 : fld w 0 7 = imm.toNat := by simp only [fld]; omega
  have f1 : fld w 7 7 = a.toNat := by simp only [fld]; omega
  have f2 : fld w 14 7 = d.toNat := by simp only [fld]; omega
  have f3 : fld w 21 6 = 0 := by simp only [fld]; omega
  have f4 : fld w 27 4 = 1 := by simp only [fld]; omega
  have f5 : fld w 31 1 = bit01 e := by simp only [fld]; omega
  refine close w _ (by omega) ?_ hwf
  simp [decodeMajor, decAI, flag, bits, bit01_eq, f0, f1, f2, f3, f4, f5]
theorem subA3 (e : Bool) (d : Reg) (a : Reg) (b : Reg) : Statement (.subA3 e d a b) := by
  intro hwf w hw
  simp only [encode, Option.some.injEq, put31_14_7_0] at hw
  have l_e := bit01_lt e
  have l_d := d.isLt
  have l_a := a.isLt
  have l_b := b.isLt
  have f0 : fld w 0 7 = b.toNat := by simp only [fld]; omega
  have f1 : fld w 7 7 = a.toNat := by simp only [fld]; omega
  have f2 : fld w 14 7 = d.toNat := by simp only [fld]; omega
  have f3 : fld w 21 6 = 1 := by simp only [fld]; omega
  have f4 : fld w 27 4 = 0 := by simp only [fld]; omega
  have f5 : fld w 31 1 = bit01 e := by simp only [fld]; omega
  refine close w _ (by omega) ?_ hwf
  simp [decodeMajor, decA3, flag, bits, bit01_eq, f0, f1, f2, f3, f4, f5]
theorem subAi (e : Bool) (d : Reg) (a : Reg) (imm : BitVec 7) : Statement (.subAi e d a imm) := by
  intro hwf w hw
  simp only [encode, Option.some.injEq, put31_14_7_0] at hw
  have l_e := bit01_lt e
  have l_d := d.isLt
  have l_a := a.isLt
  have l_imm := imm.isLt
  have f0 : fld w 0 7 = imm.toNat := by simp only [fld]; omega
  have f1 : fld w 7 7 = a.toNat := by simp only [fld]; omega
  have f2 : fld w 14 7 = d.toNat := by simp only [fld]; omega
  have f3 : fld w 21 6 = 1 := by simp only [fld]; omega
  have f4 : fld w 27 4 = 1 := by simp only [fld]; omega
  have f5 : fld w 31 1 = bit01 e := by simp only [fld]; omega
  refine close w _ (by omega) ?_ hwf
  simp [decodeMajor, decAI, flag, bits, bit01_eq, f0, f1, f2, f3, f4, f5]
theorem mulA3 (e : Bool) (d : Reg) (a : Reg) (b : Reg) : Statement (.mulA3 e d a b) := by
  intro hwf w hw
  simp only [encode, Option.some.injEq, put31_14_7_0] at hw
  have l_e := bit01_lt e
  have l_d := d.isLt
  have l_a := a.isLt
  have l_b := b.isLt
  have f0 : fld w 0 7 = b.toNat := by simp only [fld]; omega
  have f1 : fld w 7 7 = a.toNat := by simp only [fld]; omega
  have f2 : fld w 14 7 = d.toNat := by simp only [fld]; omega
  have f3 : fld w 21 6 = 2 := by simp only [fld]; omega
  have f4 : fld w 27 4 = 0 := by simp only [fld]; omega
  have f5 : fld w 31 1 = bit01 e := by simp only [fld]; omega
  refine close w _ (by omega) ?_ hwf
  simp [decodeMajor, decA3, flag, bits, bit01_eq, f0, f1, f2, f3, f4, f5]
theorem mulAi (e : Bool) (d : Reg) (a : Reg) (imm : BitVec 7) : Statement (.mulAi e d a imm) := by
  intro hwf w hw
  simp only [encode, Option.some.injEq, put31_14_7_0] at hw
  have l_e := bit01_lt e
  have l_d := d.isLt
  have l_a := a.isLt
  have l_imm := imm.isLt
  have f0 : fld w 0 7 = imm.toNat := by simp only [fld]; omega
  have f1 : fld w 7 7 = a.toNat := by simp only [fld]; omega
  have f2 : fld w 14 7 = d.toNat := by simp only [fld]; omega
  have f3 : fld w 21 6 = 2 := by simp only [fld]; omega
  have f4 : fld w 27 4 = 1 := by simp only [fld]; omega
  have f5 : fld w 31 1 = bit01 e := by simp only [fld]; omega
  refine close w _ (by omega) ?_ hwf
  simp [decodeMajor, decAI, flag, bits, bit01_eq, f0, f1, f2, f3, f4, f5]
theorem mulhi (e : Bool) (d : Reg) (a : Reg) (b : Reg) : Statement (.mulhi e d a b) := by
  intro hwf w hw
  simp only [encode, Option.some.injEq, put31_14_7_0] at hw
  have l_e := bit01_lt e
  have l_d := d.isLt
  have l_a := a.isLt
  have l_b := b.isLt
  have f0 : fld w 0 7 = b.toNat := by simp only [fld]; omega
  have f1 : fld w 7 7 = a.toNat := by simp only [fld]; omega
  have f2 : fld w 14 7 = d.toNat := by simp only [fld]; omega
  have f3 : fld w 21 6 = 3 := by simp only [fld]; omega
  have f4 : fld w 27 4 = 0 := by simp only [fld]; omega
  have f5 : fld w 31 1 = bit01 e := by simp only [fld]; omega
  refine close w _ (by omega) ?_ hwf
  simp [decodeMajor, decA3, flag, bits, bit01_eq, f0, f1, f2, f3, f4, f5]
theorem ma (e : Bool) (d : Reg) (a : Reg) (b : Reg) : Statement (.ma e d a b) := by
  intro hwf w hw
  simp only [encode, Option.some.injEq, put31_14_7_0] at hw
  have l_e := bit01_lt e
  have l_d := d.isLt
  have l_a := a.isLt
  have l_b := b.isLt
  have f0 : fld w 0 7 = b.toNat := by simp only [fld]; omega
  have f1 : fld w 7 7 = a.toNat := by simp only [fld]; omega
  have f2 : fld w 14 7 = d.toNat := by simp only [fld]; omega
  have f3 : fld w 21 6 = 4 := by simp only [fld]; omega
  have f4 : fld w 27 4 = 0 := by simp only [fld]; omega
  have f5 : fld w 31 1 = bit01 e := by simp only [fld]; omega
  refine close w _ (by omega) ?_ hwf
  simp [decodeMajor, decA3, flag, bits, bit01_eq, f0, f1, f2, f3, f4, f5]
theorem minA3 (e : Bool) (d : Reg) (a : Reg) (b : Reg) : Statement (.minA3 e d a b) := by
  intro hwf w hw
  simp only [encode, Option.some.injEq, put31_14_7_0] at hw
  have l_e := bit01_lt e
  have l_d := d.isLt
  have l_a := a.isLt
  have l_b := b.isLt
  have f0 : fld w 0 7 = b.toNat := by simp only [fld]; omega
  have f1 : fld w 7 7 = a.toNat := by simp only [fld]; omega
  have f2 : fld w 14 7 = d.toNat := by simp only [fld]; omega
  have f3 : fld w 21 6 = 5 := by simp only [fld]; omega
  have f4 : fld w 27 4 = 0 := by simp only [fld]; omega
  have f5 : fld w 31 1 = bit01 e := by simp only [fld]; omega
  refine close w _ (by omega) ?_ hwf
  simp [decodeMajor, decA3, flag, bits, bit01_eq, f0, f1, f2, f3, f4, f5]
theorem minAi (e : Bool) (d : Reg) (a : Reg) (imm : BitVec 7) : Statement (.minAi e d a imm) := by
  intro hwf w hw
  simp only [encode, Option.some.injEq, put31_14_7_0] at hw
  have l_e := bit01_lt e
  have l_d := d.isLt
  have l_a := a.isLt
  have l_imm := imm.isLt
  have f0 : fld w 0 7 = imm.toNat := by simp only [fld]; omega
  have f1 : fld w 7 7 = a.toNat := by simp only [fld]; omega
  have f2 : fld w 14 7 = d.toNat := by simp only [fld]; omega
  have f3 : fld w 21 6 = 5 := by simp only [fld]; omega
  have f4 : fld w 27 4 = 1 := by simp only [fld]; omega
  have f5 : fld w 31 1 = bit01 e := by simp only [fld]; omega
  refine close w _ (by omega) ?_ hwf
  simp [decodeMajor, decAI, flag, bits, bit01_eq, f0, f1, f2, f3, f4, f5]
theorem maxA3 (e : Bool) (d : Reg) (a : Reg) (b : Reg) : Statement (.maxA3 e d a b) := by
  intro hwf w hw
  simp only [encode, Option.some.injEq, put31_14_7_0] at hw
  have l_e := bit01_lt e
  have l_d := d.isLt
  have l_a := a.isLt
  have l_b := b.isLt
  have f0 : fld w 0 7 = b.toNat := by simp only [fld]; omega
  have f1 : fld w 7 7 = a.toNat := by simp only [fld]; omega
  have f2 : fld w 14 7 = d.toNat := by simp only [fld]; omega
  have f3 : fld w 21 6 = 6 := by simp only [fld]; omega
  have f4 : fld w 27 4 = 0 := by simp only [fld]; omega
  have f5 : fld w 31 1 = bit01 e := by simp only [fld]; omega
  refine close w _ (by omega) ?_ hwf
  simp [decodeMajor, decA3, flag, bits, bit01_eq, f0, f1, f2, f3, f4, f5]
theorem maxAi (e : Bool) (d : Reg) (a : Reg) (imm : BitVec 7) : Statement (.maxAi e d a imm) := by
  intro hwf w hw
  simp only [encode, Option.some.injEq, put31_14_7_0] at hw
  have l_e := bit01_lt e
  have l_d := d.isLt
  have l_a := a.isLt
  have l_imm := imm.isLt
  have f0 : fld w 0 7 = imm.toNat := by simp only [fld]; omega
  have f1 : fld w 7 7 = a.toNat := by simp only [fld]; omega
  have f2 : fld w 14 7 = d.toNat := by simp only [fld]; omega
  have f3 : fld w 21 6 = 6 := by simp only [fld]; omega
  have f4 : fld w 27 4 = 1 := by simp only [fld]; omega
  have f5 : fld w 31 1 = bit01 e := by simp only [fld]; omega
  refine close w _ (by omega) ?_ hwf
  simp [decodeMajor, decAI, flag, bits, bit01_eq, f0, f1, f2, f3, f4, f5]
theorem andA3 (e : Bool) (d : Reg) (a : Reg) (b : Reg) : Statement (.andA3 e d a b) := by
  intro hwf w hw
  simp only [encode, Option.some.injEq, put31_14_7_0] at hw
  have l_e := bit01_lt e
  have l_d := d.isLt
  have l_a := a.isLt
  have l_b := b.isLt
  have f0 : fld w 0 7 = b.toNat := by simp only [fld]; omega
  have f1 : fld w 7 7 = a.toNat := by simp only [fld]; omega
  have f2 : fld w 14 7 = d.toNat := by simp only [fld]; omega
  have f3 : fld w 21 6 = 7 := by simp only [fld]; omega
  have f4 : fld w 27 4 = 0 := by simp only [fld]; omega
  have f5 : fld w 31 1 = bit01 e := by simp only [fld]; omega
  refine close w _ (by omega) ?_ hwf
  simp [decodeMajor, decA3, flag, bits, bit01_eq, f0, f1, f2, f3, f4, f5]
theorem andAi (e : Bool) (d : Reg) (a : Reg) (imm : BitVec 7) : Statement (.andAi e d a imm) := by
  intro hwf w hw
  simp only [encode, Option.some.injEq, put31_14_7_0] at hw
  have l_e := bit01_lt e
  have l_d := d.isLt
  have l_a := a.isLt
  have l_imm := imm.isLt
  have f0 : fld w 0 7 = imm.toNat := by simp only [fld]; omega
  have f1 : fld w 7 7 = a.toNat := by simp only [fld]; omega
  have f2 : fld w 14 7 = d.toNat := by simp only [fld]; omega
  have f3 : fld w 21 6 = 7 := by simp only [fld]; omega
  have f4 : fld w 27 4 = 1 := by simp only [fld]; omega
  have f5 : fld w 31 1 = bit01 e := by simp only [fld]; omega
  refine close w _ (by omega) ?_ hwf
  simp [decodeMajor, decAI, flag, bits, bit01_eq, f0, f1, f2, f3, f4, f5]
theorem orA3 (e : Bool) (d : Reg) (a : Reg) (b : Reg) : Statement (.orA3 e d a b) := by
  intro hwf w hw
  simp only [encode, Option.some.injEq, put31_14_7_0] at hw
  have l_e := bit01_lt e
  have l_d := d.isLt
  have l_a := a.isLt
  have l_b := b.isLt
  have f0 : fld w 0 7 = b.toNat := by simp only [fld]; omega
  have f1 : fld w 7 7 = a.toNat := by simp only [fld]; omega
  have f2 : fld w 14 7 = d.toNat := by simp only [fld]; omega
  have f3 : fld w 21 6 = 8 := by simp only [fld]; omega
  have f4 : fld w 27 4 = 0 := by simp only [fld]; omega
  have f5 : fld w 31 1 = bit01 e := by simp only [fld]; omega
  refine close w _ (by omega) ?_ hwf
  simp [decodeMajor, decA3, flag, bits, bit01_eq, f0, f1, f2, f3, f4, f5]
theorem orAi (e : Bool) (d : Reg) (a : Reg) (imm : BitVec 7) : Statement (.orAi e d a imm) := by
  intro hwf w hw
  simp only [encode, Option.some.injEq, put31_14_7_0] at hw
  have l_e := bit01_lt e
  have l_d := d.isLt
  have l_a := a.isLt
  have l_imm := imm.isLt
  have f0 : fld w 0 7 = imm.toNat := by simp only [fld]; omega
  have f1 : fld w 7 7 = a.toNat := by simp only [fld]; omega
  have f2 : fld w 14 7 = d.toNat := by simp only [fld]; omega
  have f3 : fld w 21 6 = 8 := by simp only [fld]; omega
  have f4 : fld w 27 4 = 1 := by simp only [fld]; omega
  have f5 : fld w 31 1 = bit01 e := by simp only [fld]; omega
  refine close w _ (by omega) ?_ hwf
  simp [decodeMajor, decAI, flag, bits, bit01_eq, f0, f1, f2, f3, f4, f5]
theorem xorA3 (e : Bool) (d : Reg) (a : Reg) (b : Reg) : Statement (.xorA3 e d a b) := by
  intro hwf w hw
  simp only [encode, Option.some.injEq, put31_14_7_0] at hw
  have l_e := bit01_lt e
  have l_d := d.isLt
  have l_a := a.isLt
  have l_b := b.isLt
  have f0 : fld w 0 7 = b.toNat := by simp only [fld]; omega
  have f1 : fld w 7 7 = a.toNat := by simp only [fld]; omega
  have f2 : fld w 14 7 = d.toNat := by simp only [fld]; omega
  have f3 : fld w 21 6 = 9 := by simp only [fld]; omega
  have f4 : fld w 27 4 = 0 := by simp only [fld]; omega
  have f5 : fld w 31 1 = bit01 e := by simp only [fld]; omega
  refine close w _ (by omega) ?_ hwf
  simp [decodeMajor, decA3, flag, bits, bit01_eq, f0, f1, f2, f3, f4, f5]
theorem xorAi (e : Bool) (d : Reg) (a : Reg) (imm : BitVec 7) : Statement (.xorAi e d a imm) := by
  intro hwf w hw
  simp only [encode, Option.some.injEq, put31_14_7_0] at hw
  have l_e := bit01_lt e
  have l_d := d.isLt
  have l_a := a.isLt
  have l_imm := imm.isLt
  have f0 : fld w 0 7 = imm.toNat := by simp only [fld]; omega
  have f1 : fld w 7 7 = a.toNat := by simp only [fld]; omega
  have f2 : fld w 14 7 = d.toNat := by simp only [fld]; omega
  have f3 : fld w 21 6 = 9 := by simp only [fld]; omega
  have f4 : fld w 27 4 = 1 := by simp only [fld]; omega
  have f5 : fld w 31 1 = bit01 e := by simp only [fld]; omega
  refine close w _ (by omega) ?_ hwf
  simp [decodeMajor, decAI, flag, bits, bit01_eq, f0, f1, f2, f3, f4, f5]
theorem shlA3 (e : Bool) (d : Reg) (a : Reg) (b : Reg) : Statement (.shlA3 e d a b) := by
  intro hwf w hw
  simp only [encode, Option.some.injEq, put31_14_7_0] at hw
  have l_e := bit01_lt e
  have l_d := d.isLt
  have l_a := a.isLt
  have l_b := b.isLt
  have f0 : fld w 0 7 = b.toNat := by simp only [fld]; omega
  have f1 : fld w 7 7 = a.toNat := by simp only [fld]; omega
  have f2 : fld w 14 7 = d.toNat := by simp only [fld]; omega
  have f3 : fld w 21 6 = 10 := by simp only [fld]; omega
  have f4 : fld w 27 4 = 0 := by simp only [fld]; omega
  have f5 : fld w 31 1 = bit01 e := by simp only [fld]; omega
  refine close w _ (by omega) ?_ hwf
  simp [decodeMajor, decA3, flag, bits, bit01_eq, f0, f1, f2, f3, f4, f5]
theorem shlAi (e : Bool) (d : Reg) (a : Reg) (imm : BitVec 7) : Statement (.shlAi e d a imm) := by
  intro hwf w hw
  simp only [encode, Option.some.injEq, put31_14_7_0] at hw
  have l_e := bit01_lt e
  have l_d := d.isLt
  have l_a := a.isLt
  have l_imm := imm.isLt
  have f0 : fld w 0 7 = imm.toNat := by simp only [fld]; omega
  have f1 : fld w 7 7 = a.toNat := by simp only [fld]; omega
  have f2 : fld w 14 7 = d.toNat := by simp only [fld]; omega
  have f3 : fld w 21 6 = 10 := by simp only [fld]; omega
  have f4 : fld w 27 4 = 1 := by simp only [fld]; omega
  have f5 : fld w 31 1 = bit01 e := by simp only [fld]; omega
  refine close w _ (by omega) ?_ hwf
  simp [decodeMajor, decAI, flag, bits, bit01_eq, f0, f1, f2, f3, f4, f5]
theorem shrA3 (e : Bool) (d : Reg) (a : Reg) (b : Reg) : Statement (.shrA3 e d a b) := by
  intro hwf w hw
  simp only [encode, Option.some.injEq, put31_14_7_0] at hw
  have l_e := bit01_lt e
  have l_d := d.isLt
  have l_a := a.isLt
  have l_b := b.isLt
  have f0 : fld w 0 7 = b.toNat := by simp only [fld]; omega
  have f1 : fld w 7 7 = a.toNat := by simp only [fld]; omega
  have f2 : fld w 14 7 = d.toNat := by simp only [fld]; omega
  have f3 : fld w 21 6 = 11 := by simp only [fld]; omega
  have f4 : fld w 27 4 = 0 := by simp only [fld]; omega
  have f5 : fld w 31 1 = bit01 e := by simp only [fld]; omega
  refine close w _ (by omega) ?_ hwf
  simp [decodeMajor, decA3, flag, bits, bit01_eq, f0, f1, f2, f3, f4, f5]
theorem shrAi (e : Bool) (d : Reg) (a : Reg) (imm : BitVec 7) : Statement (.shrAi e d a imm) := by
  intro hwf w hw
  simp only [encode, Option.some.injEq, put31_14_7_0] at hw
  have l_e := bit01_lt e
  have l_d := d.isLt
  have l_a := a.isLt
  have l_imm := imm.isLt
  have f0 : fld w 0 7 = imm.toNat := by simp only [fld]; omega
  have f1 : fld w 7 7 = a.toNat := by simp only [fld]; omega
  have f2 : fld w 14 7 = d.toNat := by simp only [fld]; omega
  have f3 : fld w 21 6 = 11 := by simp only [fld]; omega
  have f4 : fld w 27 4 = 1 := by simp only [fld]; omega
  have f5 : fld w 31 1 = bit01 e := by simp only [fld]; omega
  refine close w _ (by omega) ?_ hwf
  simp [decodeMajor, decAI, flag, bits, bit01_eq, f0, f1, f2, f3, f4, f5]
theorem sarA3 (e : Bool) (d : Reg) (a : Reg) (b : Reg) : Statement (.sarA3 e d a b) := by
  intro hwf w hw
  simp only [encode, Option.some.injEq, put31_14_7_0] at hw
  have l_e := bit01_lt e
  have l_d := d.isLt
  have l_a := a.isLt
  have l_b := b.isLt
  have f0 : fld w 0 7 = b.toNat := by simp only [fld]; omega
  have f1 : fld w 7 7 = a.toNat := by simp only [fld]; omega
  have f2 : fld w 14 7 = d.toNat := by simp only [fld]; omega
  have f3 : fld w 21 6 = 12 := by simp only [fld]; omega
  have f4 : fld w 27 4 = 0 := by simp only [fld]; omega
  have f5 : fld w 31 1 = bit01 e := by simp only [fld]; omega
  refine close w _ (by omega) ?_ hwf
  simp [decodeMajor, decA3, flag, bits, bit01_eq, f0, f1, f2, f3, f4, f5]
theorem sarAi (e : Bool) (d : Reg) (a : Reg) (imm : BitVec 7) : Statement (.sarAi e d a imm) := by
  intro hwf w hw
  simp only [encode, Option.some.injEq, put31_14_7_0] at hw
  have l_e := bit01_lt e
  have l_d := d.isLt
  have l_a := a.isLt
  have l_imm := imm.isLt
  have f0 : fld w 0 7 = imm.toNat := by simp only [fld]; omega
  have f1 : fld w 7 7 = a.toNat := by simp only [fld]; omega
  have f2 : fld w 14 7 = d.toNat := by simp only [fld]; omega
  have f3 : fld w 21 6 = 12 := by simp only [fld]; omega
  have f4 : fld w 27 4 = 1 := by simp only [fld]; omega
  have f5 : fld w 31 1 = bit01 e := by simp only [fld]; omega
  refine close w _ (by omega) ?_ hwf
  simp [decodeMajor, decAI, flag, bits, bit01_eq, f0, f1, f2, f3, f4, f5]
theorem rotA3 (e : Bool) (d : Reg) (a : Reg) (b : Reg) : Statement (.rotA3 e d a b) := by
  intro hwf w hw
  simp only [encode, Option.some.injEq, put31_14_7_0] at hw
  have l_e := bit01_lt e
  have l_d := d.isLt
  have l_a := a.isLt
  have l_b := b.isLt
  have f0 : fld w 0 7 = b.toNat := by simp only [fld]; omega
  have f1 : fld w 7 7 = a.toNat := by simp only [fld]; omega
  have f2 : fld w 14 7 = d.toNat := by simp only [fld]; omega
  have f3 : fld w 21 6 = 13 := by simp only [fld]; omega
  have f4 : fld w 27 4 = 0 := by simp only [fld]; omega
  have f5 : fld w 31 1 = bit01 e := by simp only [fld]; omega
  refine close w _ (by omega) ?_ hwf
  simp [decodeMajor, decA3, flag, bits, bit01_eq, f0, f1, f2, f3, f4, f5]
theorem rotAi (e : Bool) (d : Reg) (a : Reg) (imm : BitVec 7) : Statement (.rotAi e d a imm) := by
  intro hwf w hw
  simp only [encode, Option.some.injEq, put31_14_7_0] at hw
  have l_e := bit01_lt e
  have l_d := d.isLt
  have l_a := a.isLt
  have l_imm := imm.isLt
  have f0 : fld w 0 7 = imm.toNat := by simp only [fld]; omega
  have f1 : fld w 7 7 = a.toNat := by simp only [fld]; omega
  have f2 : fld w 14 7 = d.toNat := by simp only [fld]; omega
  have f3 : fld w 21 6 = 13 := by simp only [fld]; omega
  have f4 : fld w 27 4 = 1 := by simp only [fld]; omega
  have f5 : fld w 31 1 = bit01 e := by simp only [fld]; omega
  refine close w _ (by omega) ?_ hwf
  simp [decodeMajor, decAI, flag, bits, bit01_eq, f0, f1, f2, f3, f4, f5]
theorem bfe (e : Bool) (d : Reg) (a : Reg) (b : Reg) : Statement (.bfe e d a b) := by
  intro hwf w hw
  simp only [encode, Option.some.injEq, put31_14_7_0] at hw
  have l_e := bit01_lt e
  have l_d := d.isLt
  have l_a := a.isLt
  have l_b := b.isLt
  have f0 : fld w 0 7 = b.toNat := by simp only [fld]; omega
  have f1 : fld w 7 7 = a.toNat := by simp only [fld]; omega
  have f2 : fld w 14 7 = d.toNat := by simp only [fld]; omega
  have f3 : fld w 21 6 = 14 := by simp only [fld]; omega
  have f4 : fld w 27 4 = 0 := by simp only [fld]; omega
  have f5 : fld w 31 1 = bit01 e := by simp only [fld]; omega
  refine close w _ (by omega) ?_ hwf
  simp [decodeMajor, decA3, flag, bits, bit01_eq, f0, f1, f2, f3, f4, f5]
theorem bfi (e : Bool) (d : Reg) (a : Reg) (b : Reg) : Statement (.bfi e d a b) := by
  intro hwf w hw
  simp only [encode, Option.some.injEq, put31_14_7_0] at hw
  have l_e := bit01_lt e
  have l_d := d.isLt
  have l_a := a.isLt
  have l_b := b.isLt
  have f0 : fld w 0 7 = b.toNat := by simp only [fld]; omega
  have f1 : fld w 7 7 = a.toNat := by simp only [fld]; omega
  have f2 : fld w 14 7 = d.toNat := by simp only [fld]; omega
  have f3 : fld w 21 6 = 15 := by simp only [fld]; omega
  have f4 : fld w 27 4 = 0 := by simp only [fld]; omega
  have f5 : fld w 31 1 = bit01 e := by simp only [fld]; omega
  refine close w _ (by omega) ?_ hwf
  simp [decodeMajor, decA3, flag, bits, bit01_eq, f0, f1, f2, f3, f4, f5]
theorem leaA3 (e : Bool) (d : Reg) (a : Reg) (b : Reg) : Statement (.leaA3 e d a b) := by
  intro hwf w hw
  simp only [encode, Option.some.injEq, put31_14_7_0] at hw
  have l_e := bit01_lt e
  have l_d := d.isLt
  have l_a := a.isLt
  have l_b := b.isLt
  have f0 : fld w 0 7 = b.toNat := by simp only [fld]; omega
  have f1 : fld w 7 7 = a.toNat := by simp only [fld]; omega
  have f2 : fld w 14 7 = d.toNat := by simp only [fld]; omega
  have f3 : fld w 21 6 = 16 := by simp only [fld]; omega
  have f4 : fld w 27 4 = 0 := by simp only [fld]; omega
  have f5 : fld w 31 1 = bit01 e := by simp only [fld]; omega
  refine close w _ (by omega) ?_ hwf
  simp [decodeMajor, decA3, flag, bits, bit01_eq, f0, f1, f2, f3, f4, f5]
theorem leaAi (e : Bool) (d : Reg) (a : Reg) (imm : BitVec 7) : Statement (.leaAi e d a imm) := by
  intro hwf w hw
  simp only [encode, Option.some.injEq, put31_14_7_0] at hw
  have l_e := bit01_lt e
  have l_d := d.isLt
  have l_a := a.isLt
  have l_imm := imm.isLt
  have f0 : fld w 0 7 = imm.toNat := by simp only [fld]; omega
  have f1 : fld w 7 7 = a.toNat := by simp only [fld]; omega
  have f2 : fld w 14 7 = d.toNat := by simp only [fld]; omega
  have f3 : fld w 21 6 = 16 := by simp only [fld]; omega
  have f4 : fld w 27 4 = 1 := by simp only [fld]; omega
  have f5 : fld w 31 1 = bit01 e := by simp only [fld]; omega
  refine close w _ (by omega) ?_ hwf
  simp [decodeMajor, decAI, flag, bits, bit01_eq, f0, f1, f2, f3, f4, f5]
theorem mov (e : Bool) (d : Reg) (a : Reg) : Statement (.mov e d a) := by
  intro hwf w hw
  simp only [encode, Option.some.injEq, put31_14_7] at hw
  have l_e := bit01_lt e
  have l_d := d.isLt
  have l_a := a.isLt
  have f0 : fld w 0 7 = 0 := by simp only [fld]; omega
  have f1 : fld w 7 7 = a.toNat := by simp only [fld]; omega
  have f2 : fld w 14 7 = d.toNat := by simp only [fld]; omega
  have f3 : fld w 21 6 = 17 := by simp only [fld]; omega
  have f4 : fld w 27 4 = 0 := by simp only [fld]; omega
  have f5 : fld w 31 1 = bit01 e := by simp only [fld]; omega
  refine close w _ (by omega) ?_ hwf
  simp [decodeMajor, decA3, flag, bits, guardF, bit01_eq, f0, f1, f2, f3, f4, f5]
theorem neg (e : Bool) (d : Reg) (a : Reg) : Statement (.neg e d a) := by
  intro hwf w hw
  simp only [encode, Option.some.injEq, put31_14_7] at hw
  have l_e := bit01_lt e
  have l_d := d.isLt
  have l_a := a.isLt
  have f0 : fld w 0 7 = 0 := by simp only [fld]; omega
  have f1 : fld w 7 7 = a.toNat := by simp only [fld]; omega
  have f2 : fld w 14 7 = d.toNat := by simp only [fld]; omega
  have f3 : fld w 21 6 = 18 := by simp only [fld]; omega
  have f4 : fld w 27 4 = 0 := by simp only [fld]; omega
  have f5 : fld w 31 1 = bit01 e := by simp only [fld]; omega
  refine close w _ (by omega) ?_ hwf
  simp [decodeMajor, decA3, flag, bits, guardF, bit01_eq, f0, f1, f2, f3, f4, f5]
theorem abs (e : Bool) (d : Reg) (a : Reg) : Statement (.abs e d a) := by
  intro hwf w hw
  simp only [encode, Option.some.injEq, put31_14_7] at hw
  have l_e := bit01_lt e
  have l_d := d.isLt
  have l_a := a.isLt
  have f0 : fld w 0 7 = 0 := by simp only [fld]; omega
  have f1 : fld w 7 7 = a.toNat := by simp only [fld]; omega
  have f2 : fld w 14 7 = d.toNat := by simp only [fld]; omega
  have f3 : fld w 21 6 = 19 := by simp only [fld]; omega
  have f4 : fld w 27 4 = 0 := by simp only [fld]; omega
  have f5 : fld w 31 1 = bit01 e := by simp only [fld]; omega
  refine close w _ (by omega) ?_ hwf
  simp [decodeMajor, decA3, flag, bits, guardF, bit01_eq, f0, f1, f2, f3, f4, f5]
theorem notR (e : Bool) (d : Reg) (a : Reg) : Statement (.notR e d a) := by
  intro hwf w hw
  simp only [encode, Option.some.injEq, put31_14_7] at hw
  have l_e := bit01_lt e
  have l_d := d.isLt
  have l_a := a.isLt
  have f0 : fld w 0 7 = 0 := by simp only [fld]; omega
  have f1 : fld w 7 7 = a.toNat := by simp only [fld]; omega
  have f2 : fld w 14 7 = d.toNat := by simp only [fld]; omega
  have f3 : fld w 21 6 = 20 := by simp only [fld]; omega
  have f4 : fld w 27 4 = 0 := by simp only [fld]; omega
  have f5 : fld w 31 1 = bit01 e := by simp only [fld]; omega
  refine close w _ (by omega) ?_ hwf
  simp [decodeMajor, decA3, flag, bits, guardF, bit01_eq, f0, f1, f2, f3, f4, f5]
theorem popc (e : Bool) (d : Reg) (a : Reg) : Statement (.popc e d a) := by
  intro hwf w hw
  simp only [encode, Option.some.injEq, put31_14_7] at hw
  have l_e := bit01_lt e
  have l_d := d.isLt
  have l_a := a.isLt
  have f0 : fld w 0 7 = 0 := by simp only [fld]; omega
  have f1 : fld w 7 7 = a.toNat := by simp only [fld]; omega
  have f2 : fld w 14 7 = d.toNat := by simp only [fld]; omega
  have f3 : fld w 21 6 = 21 := by simp only [fld]; omega
  have f4 : fld w 27 4 = 0 := by simp only [fld]; omega
  have f5 : fld w 31 1 = bit01 e := by simp only [fld]; omega
  refine close w _ (by omega) ?_ hwf
  simp [decodeMajor, decA3, flag, bits, guardF, bit01_eq, f0, f1, f2, f3, f4, f5]
theorem clz (e : Bool) (d : Reg) (a : Reg) : Statement (.clz e d a) := by
  intro hwf w hw
  simp only [encode, Option.some.injEq, put31_14_7] at hw
  have l_e := bit01_lt e
  have l_d := d.isLt
  have l_a := a.isLt
  have f0 : fld w 0 7 = 0 := by simp only [fld]; omega
  have f1 : fld w 7 7 = a.toNat := by simp only [fld]; omega
  have f2 : fld w 14 7 = d.toNat := by simp only [fld]; omega
  have f3 : fld w 21 6 = 22 := by simp only [fld]; omega
  have f4 : fld w 27 4 = 0 := by simp only [fld]; omega
  have f5 : fld w 31 1 = bit01 e := by simp only [fld]; omega
  refine close w _ (by omega) ?_ hwf
  simp [decodeMajor, decA3, flag, bits, guardF, bit01_eq, f0, f1, f2, f3, f4, f5]
theorem brev (e : Bool) (d : Reg) (a : Reg) : Statement (.brev e d a) := by
  intro hwf w hw
  simp only [encode, Option.some.injEq, put31_14_7] at hw
  have l_e := bit01_lt e
  have l_d := d.isLt
  have l_a := a.isLt
  have f0 : fld w 0 7 = 0 := by simp only [fld]; omega
  have f1 : fld w 7 7 = a.toNat := by simp only [fld]; omega
  have f2 : fld w 14 7 = d.toNat := by simp only [fld]; omega
  have f3 : fld w 21 6 = 23 := by simp only [fld]; omega
  have f4 : fld w 27 4 = 0 := by simp only [fld]; omega
  have f5 : fld w 31 1 = bit01 e := by simp only [fld]; omega
  refine close w _ (by omega) ?_ hwf
  simp [decodeMajor, decA3, flag, bits, guardF, bit01_eq, f0, f1, f2, f3, f4, f5]
theorem dot4 (e : Bool) (d : Reg) (a : Reg) (b : Reg) : Statement (.dot4 e d a b) := by
  intro hwf w hw
  simp only [encode, Option.some.injEq, put31_14_7_0] at hw
  have l_e := bit01_lt e
  have l_d := d.isLt
  have l_a := a.isLt
  have l_b := b.isLt
  have f0 : fld w 0 7 = b.toNat := by simp only [fld]; omega
  have f1 : fld w 7 7 = a.toNat := by simp only [fld]; omega
  have f2 : fld w 14 7 = d.toNat := by simp only [fld]; omega
  have f3 : fld w 21 6 = 24 := by simp only [fld]; omega
  have f4 : fld w 27 4 = 0 := by simp only [fld]; omega
  have f5 : fld w 31 1 = bit01 e := by simp only [fld]; omega
  refine close w _ (by omega) ?_ hwf
  simp [decodeMajor, decA3, flag, bits, bit01_eq, f0, f1, f2, f3, f4, f5]
theorem dott (e : Bool) (d : Reg) (a : Reg) (b : Reg) : Statement (.dott e d a b) := by
  intro hwf w hw
  simp only [encode, Option.some.injEq, put31_14_7_0] at hw
  have l_e := bit01_lt e
  have l_d := d.isLt
  have l_a := a.isLt
  have l_b := b.isLt
  have f0 : fld w 0 7 = b.toNat := by simp only [fld]; omega
  have f1 : fld w 7 7 = a.toNat := by simp only [fld]; omega
  have f2 : fld w 14 7 = d.toNat := by simp only [fld]; omega
  have f3 : fld w 21 6 = 25 := by simp only [fld]; omega
  have f4 : fld w 27 4 = 0 := by simp only [fld]; omega
  have f5 : fld w 31 1 = bit01 e := by simp only [fld]; omega
  refine close w _ (by omega) ?_ hwf
  simp [decodeMajor, decA3, flag, bits, bit01_eq, f0, f1, f2, f3, f4, f5]
theorem ldi (e : Bool) (d : Reg) (imm : BitVec 14) : Statement (.ldi e d imm) := by
  intro hwf w hw
  simp only [encode, Option.some.injEq, put31_14_0] at hw
  have l_e := bit01_lt e
  have l_d := d.isLt
  have l_imm := imm.isLt
  have f0 : fld w 0 14 = imm.toNat := by simp only [fld]; omega
  have f1 : fld w 14 7 = d.toNat := by simp only [fld]; omega
  have f2 : fld w 21 6 = 63 := by simp only [fld]; omega
  have f3 : fld w 27 4 = 1 := by simp only [fld]; omega
  have f4 : fld w 31 1 = bit01 e := by simp only [fld]; omega
  refine close w _ (by omega) ?_ hwf
  simp [decodeMajor, decAI, flag, bits, bit01_eq, f0, f1, f2, f3, f4]
theorem cmp (e : Bool) (cond : Cond) (pd : PReg) (mode : CmpMode) (a : Reg) (b : Reg) : Statement (.cmp e cond pd mode a b) := by
  intro hwf w hw
  simp only [encode, Option.some.injEq, put31_20_16_14_7_0] at hw
  have l_e := bit01_lt e
  have l_cond := cond_lt cond
  have l_pd := pd.isLt
  have l_mode := cmpmode_lt mode
  have l_a := a.isLt
  have l_b := b.isLt
  have f0 : fld w 0 7 = b.toNat := by simp only [fld]; omega
  have f1 : fld w 7 7 = a.toNat := by simp only [fld]; omega
  have f2 : fld w 14 2 = mode.code := by simp only [fld]; omega
  have f3 : fld w 16 4 = pd.toNat := by simp only [fld]; omega
  have f4 : fld w 20 4 = cond.code := by simp only [fld]; omega
  have f5 : fld w 24 3 = 0 := by simp only [fld]; omega
  have f6 : fld w 27 4 = 2 := by simp only [fld]; omega
  have f7 : fld w 31 1 = bit01 e := by simp only [fld]; omega
  refine close w _ (by omega) ?_ hwf
  simp [decodeMajor, decPC, flag, bits, need, bit01_eq, cmpmode_code, cond_code, f0, f1, f2, f3, f4, f5, f6, f7]
theorem cmpi (e : Bool) (cond : Cond) (pd : PReg) (mode : CmpMode) (a : Reg) (imm : BitVec 7) : Statement (.cmpi e cond pd mode a imm) := by
  intro hwf w hw
  simp only [encode, Option.some.injEq, put31_20_16_14_7_0] at hw
  have l_e := bit01_lt e
  have l_cond := cond_lt cond
  have l_pd := pd.isLt
  have l_mode := cmpmode_lt mode
  have l_a := a.isLt
  have l_imm := imm.isLt
  have f0 : fld w 0 7 = imm.toNat := by simp only [fld]; omega
  have f1 : fld w 7 7 = a.toNat := by simp only [fld]; omega
  have f2 : fld w 14 2 = mode.code := by simp only [fld]; omega
  have f3 : fld w 16 4 = pd.toNat := by simp only [fld]; omega
  have f4 : fld w 20 4 = cond.code := by simp only [fld]; omega
  have f5 : fld w 24 3 = 1 := by simp only [fld]; omega
  have f6 : fld w 27 4 = 2 := by simp only [fld]; omega
  have f7 : fld w 31 1 = bit01 e := by simp only [fld]; omega
  refine close w _ (by omega) ?_ hwf
  simp [decodeMajor, decPC, flag, bits, need, bit01_eq, cmpmode_code, cond_code, f0, f1, f2, f3, f4, f5, f6, f7]
theorem pand (e : Bool) (pd : PReg) (pa : PReg) (pb : PReg) : Statement (.pand e pd pa pb) := by
  intro hwf w hw
  simp only [encode, Option.some.injEq, put31_20_16_12] at hw
  have l_e := bit01_lt e
  have l_pd := pd.isLt
  have l_pa := pa.isLt
  have l_pb := pb.isLt
  have f0 : fld w 0 10 = 0 := by simp only [fld]; omega
  have f1 : fld w 10 2 = 0 := by simp only [fld]; omega
  have f2 : fld w 12 4 = pb.toNat := by simp only [fld]; omega
  have f3 : fld w 16 4 = pa.toNat := by simp only [fld]; omega
  have f4 : fld w 20 4 = pd.toNat := by simp only [fld]; omega
  have f5 : fld w 24 3 = 2 := by simp only [fld]; omega
  have f6 : fld w 27 4 = 2 := by simp only [fld]; omega
  have f7 : fld w 31 1 = bit01 e := by simp only [fld]; omega
  refine close w _ (by omega) ?_ hwf
  simp [decodeMajor, decPC, flag, bits, guardF, bit01_eq, f0, f1, f2, f3, f4, f5, f6, f7]
theorem por (e : Bool) (pd : PReg) (pa : PReg) (pb : PReg) : Statement (.por e pd pa pb) := by
  intro hwf w hw
  simp only [encode, Option.some.injEq, put31_20_16_12] at hw
  have l_e := bit01_lt e
  have l_pd := pd.isLt
  have l_pa := pa.isLt
  have l_pb := pb.isLt
  have f0 : fld w 0 10 = 0 := by simp only [fld]; omega
  have f1 : fld w 10 2 = 1 := by simp only [fld]; omega
  have f2 : fld w 12 4 = pb.toNat := by simp only [fld]; omega
  have f3 : fld w 16 4 = pa.toNat := by simp only [fld]; omega
  have f4 : fld w 20 4 = pd.toNat := by simp only [fld]; omega
  have f5 : fld w 24 3 = 2 := by simp only [fld]; omega
  have f6 : fld w 27 4 = 2 := by simp only [fld]; omega
  have f7 : fld w 31 1 = bit01 e := by simp only [fld]; omega
  refine close w _ (by omega) ?_ hwf
  simp [decodeMajor, decPC, flag, bits, guardF, bit01_eq, f0, f1, f2, f3, f4, f5, f6, f7]
theorem pxor (e : Bool) (pd : PReg) (pa : PReg) (pb : PReg) : Statement (.pxor e pd pa pb) := by
  intro hwf w hw
  simp only [encode, Option.some.injEq, put31_20_16_12] at hw
  have l_e := bit01_lt e
  have l_pd := pd.isLt
  have l_pa := pa.isLt
  have l_pb := pb.isLt
  have f0 : fld w 0 10 = 0 := by simp only [fld]; omega
  have f1 : fld w 10 2 = 2 := by simp only [fld]; omega
  have f2 : fld w 12 4 = pb.toNat := by simp only [fld]; omega
  have f3 : fld w 16 4 = pa.toNat := by simp only [fld]; omega
  have f4 : fld w 20 4 = pd.toNat := by simp only [fld]; omega
  have f5 : fld w 24 3 = 2 := by simp only [fld]; omega
  have f6 : fld w 27 4 = 2 := by simp only [fld]; omega
  have f7 : fld w 31 1 = bit01 e := by simp only [fld]; omega
  refine close w _ (by omega) ?_ hwf
  simp [decodeMajor, decPC, flag, bits, guardF, bit01_eq, f0, f1, f2, f3, f4, f5, f6, f7]
theorem pnot (e : Bool) (pd : PReg) (pa : PReg) : Statement (.pnot e pd pa) := by
  intro hwf w hw
  simp only [encode, Option.some.injEq, put31_20_16] at hw
  have l_e := bit01_lt e
  have l_pd := pd.isLt
  have l_pa := pa.isLt
  have f0 : fld w 0 10 = 0 := by simp only [fld]; omega
  have f1 : fld w 10 2 = 3 := by simp only [fld]; omega
  have f2 : fld w 12 4 = 0 := by simp only [fld]; omega
  have f3 : fld w 16 4 = pa.toNat := by simp only [fld]; omega
  have f4 : fld w 20 4 = pd.toNat := by simp only [fld]; omega
  have f5 : fld w 24 3 = 2 := by simp only [fld]; omega
  have f6 : fld w 27 4 = 2 := by simp only [fld]; omega
  have f7 : fld w 31 1 = bit01 e := by simp only [fld]; omega
  refine close w _ (by omega) ?_ hwf
  simp [decodeMajor, decPC, flag, bits, guardF, bit01_eq, f0, f1, f2, f3, f4, f5, f6, f7]
theorem pmovToRegister (e : Bool) (v : Reg) (mask : BitVec 16) : Statement (.pmovToRegister e v mask) := by
  intro hwf w hw
  simp only [encode, Option.some.injEq, put31_16_0] at hw
  have l_e := bit01_lt e
  have l_v := v.isLt
  have l_mask := mask.isLt
  have f0 : fld w 0 16 = mask.toNat := by simp only [fld]; omega
  have f1 : fld w 16 7 = v.toNat := by simp only [fld]; omega
  have f2 : fld w 23 1 = 0 := by simp only [fld]; omega
  have f3 : fld w 24 3 = 3 := by simp only [fld]; omega
  have f4 : fld w 27 4 = 2 := by simp only [fld]; omega
  have f5 : fld w 31 1 = bit01 e := by simp only [fld]; omega
  refine close w _ (by omega) ?_ hwf
  simp [decodeMajor, decPC, flag, bits, bit01_eq, f0, f1, f2, f3, f4, f5]
theorem pmovToPredicates (e : Bool) (v : Reg) (mask : BitVec 16) : Statement (.pmovToPredicates e v mask) := by
  intro hwf w hw
  simp only [encode, Option.some.injEq, put31_16_0] at hw
  have l_e := bit01_lt e
  have l_v := v.isLt
  have l_mask := mask.isLt
  have f0 : fld w 0 16 = mask.toNat := by simp only [fld]; omega
  have f1 : fld w 16 7 = v.toNat := by simp only [fld]; omega
  have f2 : fld w 23 1 = 1 := by simp only [fld]; omega
  have f3 : fld w 24 3 = 3 := by simp only [fld]; omega
  have f4 : fld w 27 4 = 2 := by simp only [fld]; omega
  have f5 : fld w 31 1 = bit01 e := by simp only [fld]; omega
  refine close w _ (by omega) ?_ hwf
  simp [decodeMajor, decPC, flag, bits, bit01_eq, f0, f1, f2, f3, f4, f5]
theorem sel (e : Bool) (ps : PReg) (inv : Bool) (d : Reg) (a : Reg) (b : Reg) : Statement (.sel e ps inv d a b) := by
  intro hwf w hw
  simp only [encode, Option.some.injEq, put31_23_21_14_7_0] at hw
  have l_e := bit01_lt e
  have l_ps := ps.isLt
  have l_inv := bit01_lt inv
  have l_d := d.isLt
  have l_a := a.isLt
  have l_b := b.isLt
  have f0 : fld w 0 7 = b.toNat := by simp only [fld]; omega
  have f1 : fld w 7 7 = a.toNat := by simp only [fld]; omega
  have f2 : fld w 14 7 = d.toNat := by simp only [fld]; omega
  have f3 : fld w 21 1 = bit01 inv := by simp only [fld]; omega
  have f4 : fld w 22 1 = 0 := by simp only [fld]; omega
  have f5 : fld w 23 4 = ps.toNat := by simp only [fld]; omega
  have f6 : fld w 27 4 = 3 := by simp only [fld]; omega
  have f7 : fld w 31 1 = bit01 e := by simp only [fld]; omega
  refine close w _ (by omega) ?_ hwf
  simp [decodeMajor, decSEL, flag, bits, guardF, bit01_eq, f0, f1, f2, f3, f4, f5, f6, f7]
theorem bra (p : PReg) (pol : Bool) (off : BitVec 22) : Statement (.bra p pol off) := by
  intro hwf w hw
  simp only [encode, Option.some.injEq, put23_22_0] at hw
  have l_p := p.isLt
  have l_pol := bit01_lt pol
  have l_off := off.isLt
  have f0 : fld w 0 22 = off.toNat := by simp only [fld]; omega
  have f1 : fld w 22 1 = bit01 pol := by simp only [fld]; omega
  have f2 : fld w 23 4 = p.toNat := by simp only [fld]; omega
  have f3 : fld w 27 4 = 4 := by simp only [fld]; omega
  have f4 : fld w 31 1 = 1 := by simp only [fld]; omega
  refine close w _ (by omega) ?_ hwf
  simp [decodeMajor, decBR, flag, bits, guardB, bit01_eq, f0, f1, f2, f3, f4]
theorem ld (e : Bool) (fmt : Tag) (space : Space) (seq : BitVec 4) (d : Reg) (a : Reg) (cnt : BitVec 2) (acq : Bool) : Statement (.ld e fmt space seq d a cnt acq) := by
  intro hwf w hw
  simp only [encode, Option.some.injEq, put31_23_21_17_10_3_1_0] at hw
  have l_e := bit01_lt e
  have l_fmt := tag_lt fmt
  have l_space := space_lt space
  have l_seq := seq.isLt
  have l_d := d.isLt
  have l_a := a.isLt
  have l_cnt := cnt.isLt
  have l_acq := bit01_lt acq
  have f0 : fld w 0 1 = bit01 acq := by simp only [fld]; omega
  have f1 : fld w 1 2 = cnt.toNat := by simp only [fld]; omega
  have f2 : fld w 3 7 = a.toNat := by simp only [fld]; omega
  have f3 : fld w 10 7 = d.toNat := by simp only [fld]; omega
  have f4 : fld w 17 4 = seq.toNat := by simp only [fld]; omega
  have f5 : fld w 21 2 = space.code := by simp only [fld]; omega
  have f6 : fld w 23 4 = fmt.code := by simp only [fld]; omega
  have f7 : fld w 27 4 = 5 := by simp only [fld]; omega
  have f8 : fld w 31 1 = bit01 e := by simp only [fld]; omega
  refine close w _ (by omega) ?_ hwf
  simp [decodeMajor, decLD, flag, bits, need, bit01_eq, space_code, tag_code, f0, f1, f2, f3, f4, f5, f6, f7, f8]
theorem st (e : Bool) (fmt : Tag) (space : Space) (seq : BitVec 4) (v : Reg) (a : Reg) (cnt : BitVec 2) (rel : Bool) : Statement (.st e fmt space seq v a cnt rel) := by
  intro hwf w hw
  simp only [encode, Option.some.injEq, put31_23_21_17_10_3_1_0] at hw
  have l_e := bit01_lt e
  have l_fmt := tag_lt fmt
  have l_space := space_lt space
  have l_seq := seq.isLt
  have l_v := v.isLt
  have l_a := a.isLt
  have l_cnt := cnt.isLt
  have l_rel := bit01_lt rel
  have f0 : fld w 0 1 = bit01 rel := by simp only [fld]; omega
  have f1 : fld w 1 2 = cnt.toNat := by simp only [fld]; omega
  have f2 : fld w 3 7 = a.toNat := by simp only [fld]; omega
  have f3 : fld w 10 7 = v.toNat := by simp only [fld]; omega
  have f4 : fld w 17 4 = seq.toNat := by simp only [fld]; omega
  have f5 : fld w 21 2 = space.code := by simp only [fld]; omega
  have f6 : fld w 23 4 = fmt.code := by simp only [fld]; omega
  have f7 : fld w 27 4 = 6 := by simp only [fld]; omega
  have f8 : fld w 31 1 = bit01 e := by simp only [fld]; omega
  refine close w _ (by omega) ?_ hwf
  simp [decodeMajor, decST, flag, bits, need, bit01_eq, space_code, tag_code, f0, f1, f2, f3, f4, f5, f6, f7, f8]
theorem atomAdd (e : Bool) (scope : BitVec 3) (sem : Sem) (seq : BitVec 4) (d : Reg) (a : Reg) : Statement (.atomAdd e scope sem seq d a) := by
  intro hwf w hw
  simp only [encode, Option.some.injEq, put31_20_18_14_7_0] at hw
  have l_e := bit01_lt e
  have l_scope := scope.isLt
  have l_sem := sem_lt sem
  have l_seq := seq.isLt
  have l_d := d.isLt
  have l_a := a.isLt
  have f0 : fld w 0 7 = a.toNat := by simp only [fld]; omega
  have f1 : fld w 7 7 = d.toNat := by simp only [fld]; omega
  have f2 : fld w 14 4 = seq.toNat := by simp only [fld]; omega
  have f3 : fld w 18 2 = sem.code := by simp only [fld]; omega
  have f4 : fld w 20 3 = scope.toNat := by simp only [fld]; omega
  have f5 : fld w 23 4 = 0 := by simp only [fld]; omega
  have f6 : fld w 27 4 = 7 := by simp only [fld]; omega
  have f7 : fld w 31 1 = bit01 e := by simp only [fld]; omega
  refine close w _ (by omega) ?_ hwf
  simp [decodeMajor, decAT, flag, bits, need, bit01_eq, sem_code, f0, f1, f2, f3, f4, f5, f6, f7]
theorem atomMin (e : Bool) (scope : BitVec 3) (sem : Sem) (seq : BitVec 4) (d : Reg) (a : Reg) : Statement (.atomMin e scope sem seq d a) := by
  intro hwf w hw
  simp only [encode, Option.some.injEq, put31_20_18_14_7_0] at hw
  have l_e := bit01_lt e
  have l_scope := scope.isLt
  have l_sem := sem_lt sem
  have l_seq := seq.isLt
  have l_d := d.isLt
  have l_a := a.isLt
  have f0 : fld w 0 7 = a.toNat := by simp only [fld]; omega
  have f1 : fld w 7 7 = d.toNat := by simp only [fld]; omega
  have f2 : fld w 14 4 = seq.toNat := by simp only [fld]; omega
  have f3 : fld w 18 2 = sem.code := by simp only [fld]; omega
  have f4 : fld w 20 3 = scope.toNat := by simp only [fld]; omega
  have f5 : fld w 23 4 = 1 := by simp only [fld]; omega
  have f6 : fld w 27 4 = 7 := by simp only [fld]; omega
  have f7 : fld w 31 1 = bit01 e := by simp only [fld]; omega
  refine close w _ (by omega) ?_ hwf
  simp [decodeMajor, decAT, flag, bits, need, bit01_eq, sem_code, f0, f1, f2, f3, f4, f5, f6, f7]
theorem atomMax (e : Bool) (scope : BitVec 3) (sem : Sem) (seq : BitVec 4) (d : Reg) (a : Reg) : Statement (.atomMax e scope sem seq d a) := by
  intro hwf w hw
  simp only [encode, Option.some.injEq, put31_20_18_14_7_0] at hw
  have l_e := bit01_lt e
  have l_scope := scope.isLt
  have l_sem := sem_lt sem
  have l_seq := seq.isLt
  have l_d := d.isLt
  have l_a := a.isLt
  have f0 : fld w 0 7 = a.toNat := by simp only [fld]; omega
  have f1 : fld w 7 7 = d.toNat := by simp only [fld]; omega
  have f2 : fld w 14 4 = seq.toNat := by simp only [fld]; omega
  have f3 : fld w 18 2 = sem.code := by simp only [fld]; omega
  have f4 : fld w 20 3 = scope.toNat := by simp only [fld]; omega
  have f5 : fld w 23 4 = 2 := by simp only [fld]; omega
  have f6 : fld w 27 4 = 7 := by simp only [fld]; omega
  have f7 : fld w 31 1 = bit01 e := by simp only [fld]; omega
  refine close w _ (by omega) ?_ hwf
  simp [decodeMajor, decAT, flag, bits, need, bit01_eq, sem_code, f0, f1, f2, f3, f4, f5, f6, f7]
theorem atomAnd (e : Bool) (scope : BitVec 3) (sem : Sem) (seq : BitVec 4) (d : Reg) (a : Reg) : Statement (.atomAnd e scope sem seq d a) := by
  intro hwf w hw
  simp only [encode, Option.some.injEq, put31_20_18_14_7_0] at hw
  have l_e := bit01_lt e
  have l_scope := scope.isLt
  have l_sem := sem_lt sem
  have l_seq := seq.isLt
  have l_d := d.isLt
  have l_a := a.isLt
  have f0 : fld w 0 7 = a.toNat := by simp only [fld]; omega
  have f1 : fld w 7 7 = d.toNat := by simp only [fld]; omega
  have f2 : fld w 14 4 = seq.toNat := by simp only [fld]; omega
  have f3 : fld w 18 2 = sem.code := by simp only [fld]; omega
  have f4 : fld w 20 3 = scope.toNat := by simp only [fld]; omega
  have f5 : fld w 23 4 = 3 := by simp only [fld]; omega
  have f6 : fld w 27 4 = 7 := by simp only [fld]; omega
  have f7 : fld w 31 1 = bit01 e := by simp only [fld]; omega
  refine close w _ (by omega) ?_ hwf
  simp [decodeMajor, decAT, flag, bits, need, bit01_eq, sem_code, f0, f1, f2, f3, f4, f5, f6, f7]
theorem atomOr (e : Bool) (scope : BitVec 3) (sem : Sem) (seq : BitVec 4) (d : Reg) (a : Reg) : Statement (.atomOr e scope sem seq d a) := by
  intro hwf w hw
  simp only [encode, Option.some.injEq, put31_20_18_14_7_0] at hw
  have l_e := bit01_lt e
  have l_scope := scope.isLt
  have l_sem := sem_lt sem
  have l_seq := seq.isLt
  have l_d := d.isLt
  have l_a := a.isLt
  have f0 : fld w 0 7 = a.toNat := by simp only [fld]; omega
  have f1 : fld w 7 7 = d.toNat := by simp only [fld]; omega
  have f2 : fld w 14 4 = seq.toNat := by simp only [fld]; omega
  have f3 : fld w 18 2 = sem.code := by simp only [fld]; omega
  have f4 : fld w 20 3 = scope.toNat := by simp only [fld]; omega
  have f5 : fld w 23 4 = 4 := by simp only [fld]; omega
  have f6 : fld w 27 4 = 7 := by simp only [fld]; omega
  have f7 : fld w 31 1 = bit01 e := by simp only [fld]; omega
  refine close w _ (by omega) ?_ hwf
  simp [decodeMajor, decAT, flag, bits, need, bit01_eq, sem_code, f0, f1, f2, f3, f4, f5, f6, f7]
theorem atomXor (e : Bool) (scope : BitVec 3) (sem : Sem) (seq : BitVec 4) (d : Reg) (a : Reg) : Statement (.atomXor e scope sem seq d a) := by
  intro hwf w hw
  simp only [encode, Option.some.injEq, put31_20_18_14_7_0] at hw
  have l_e := bit01_lt e
  have l_scope := scope.isLt
  have l_sem := sem_lt sem
  have l_seq := seq.isLt
  have l_d := d.isLt
  have l_a := a.isLt
  have f0 : fld w 0 7 = a.toNat := by simp only [fld]; omega
  have f1 : fld w 7 7 = d.toNat := by simp only [fld]; omega
  have f2 : fld w 14 4 = seq.toNat := by simp only [fld]; omega
  have f3 : fld w 18 2 = sem.code := by simp only [fld]; omega
  have f4 : fld w 20 3 = scope.toNat := by simp only [fld]; omega
  have f5 : fld w 23 4 = 5 := by simp only [fld]; omega
  have f6 : fld w 27 4 = 7 := by simp only [fld]; omega
  have f7 : fld w 31 1 = bit01 e := by simp only [fld]; omega
  refine close w _ (by omega) ?_ hwf
  simp [decodeMajor, decAT, flag, bits, need, bit01_eq, sem_code, f0, f1, f2, f3, f4, f5, f6, f7]
theorem atomXchg (e : Bool) (scope : BitVec 3) (sem : Sem) (seq : BitVec 4) (d : Reg) (a : Reg) : Statement (.atomXchg e scope sem seq d a) := by
  intro hwf w hw
  simp only [encode, Option.some.injEq, put31_20_18_14_7_0] at hw
  have l_e := bit01_lt e
  have l_scope := scope.isLt
  have l_sem := sem_lt sem
  have l_seq := seq.isLt
  have l_d := d.isLt
  have l_a := a.isLt
  have f0 : fld w 0 7 = a.toNat := by simp only [fld]; omega
  have f1 : fld w 7 7 = d.toNat := by simp only [fld]; omega
  have f2 : fld w 14 4 = seq.toNat := by simp only [fld]; omega
  have f3 : fld w 18 2 = sem.code := by simp only [fld]; omega
  have f4 : fld w 20 3 = scope.toNat := by simp only [fld]; omega
  have f5 : fld w 23 4 = 6 := by simp only [fld]; omega
  have f6 : fld w 27 4 = 7 := by simp only [fld]; omega
  have f7 : fld w 31 1 = bit01 e := by simp only [fld]; omega
  refine close w _ (by omega) ?_ hwf
  simp [decodeMajor, decAT, flag, bits, need, bit01_eq, sem_code, f0, f1, f2, f3, f4, f5, f6, f7]
theorem atomIncw (e : Bool) (scope : BitVec 3) (sem : Sem) (seq : BitVec 4) (d : Reg) (a : Reg) : Statement (.atomIncw e scope sem seq d a) := by
  intro hwf w hw
  simp only [encode, Option.some.injEq, put31_20_18_14_7_0] at hw
  have l_e := bit01_lt e
  have l_scope := scope.isLt
  have l_sem := sem_lt sem
  have l_seq := seq.isLt
  have l_d := d.isLt
  have l_a := a.isLt
  have f0 : fld w 0 7 = a.toNat := by simp only [fld]; omega
  have f1 : fld w 7 7 = d.toNat := by simp only [fld]; omega
  have f2 : fld w 14 4 = seq.toNat := by simp only [fld]; omega
  have f3 : fld w 18 2 = sem.code := by simp only [fld]; omega
  have f4 : fld w 20 3 = scope.toNat := by simp only [fld]; omega
  have f5 : fld w 23 4 = 7 := by simp only [fld]; omega
  have f6 : fld w 27 4 = 7 := by simp only [fld]; omega
  have f7 : fld w 31 1 = bit01 e := by simp only [fld]; omega
  refine close w _ (by omega) ?_ hwf
  simp [decodeMajor, decAT, flag, bits, need, bit01_eq, sem_code, f0, f1, f2, f3, f4, f5, f6, f7]
theorem atomDecw (e : Bool) (scope : BitVec 3) (sem : Sem) (seq : BitVec 4) (d : Reg) (a : Reg) : Statement (.atomDecw e scope sem seq d a) := by
  intro hwf w hw
  simp only [encode, Option.some.injEq, put31_20_18_14_7_0] at hw
  have l_e := bit01_lt e
  have l_scope := scope.isLt
  have l_sem := sem_lt sem
  have l_seq := seq.isLt
  have l_d := d.isLt
  have l_a := a.isLt
  have f0 : fld w 0 7 = a.toNat := by simp only [fld]; omega
  have f1 : fld w 7 7 = d.toNat := by simp only [fld]; omega
  have f2 : fld w 14 4 = seq.toNat := by simp only [fld]; omega
  have f3 : fld w 18 2 = sem.code := by simp only [fld]; omega
  have f4 : fld w 20 3 = scope.toNat := by simp only [fld]; omega
  have f5 : fld w 23 4 = 8 := by simp only [fld]; omega
  have f6 : fld w 27 4 = 7 := by simp only [fld]; omega
  have f7 : fld w 31 1 = bit01 e := by simp only [fld]; omega
  refine close w _ (by omega) ?_ hwf
  simp [decodeMajor, decAT, flag, bits, need, bit01_eq, sem_code, f0, f1, f2, f3, f4, f5, f6, f7]
theorem cas (e : Bool) (scope : BitVec 3) (sem : Sem) (seq : BitVec 4) (d : Reg) (a : Reg) : Statement (.cas e scope sem seq d a) := by
  intro hwf w hw
  simp only [encode, Option.some.injEq, put31_20_18_14_7_0] at hw
  have l_e := bit01_lt e
  have l_scope := scope.isLt
  have l_sem := sem_lt sem
  have l_seq := seq.isLt
  have l_d := d.isLt
  have l_a := a.isLt
  have f0 : fld w 0 7 = a.toNat := by simp only [fld]; omega
  have f1 : fld w 7 7 = d.toNat := by simp only [fld]; omega
  have f2 : fld w 14 4 = seq.toNat := by simp only [fld]; omega
  have f3 : fld w 18 2 = sem.code := by simp only [fld]; omega
  have f4 : fld w 20 3 = scope.toNat := by simp only [fld]; omega
  have f5 : fld w 23 4 = 9 := by simp only [fld]; omega
  have f6 : fld w 27 4 = 7 := by simp only [fld]; omega
  have f7 : fld w 31 1 = bit01 e := by simp only [fld]; omega
  refine close w _ (by omega) ?_ hwf
  simp [decodeMajor, decAT, flag, bits, need, bit01_eq, sem_code, f0, f1, f2, f3, f4, f5, f6, f7]
theorem redAdd (e : Bool) (scope : BitVec 3) (rel : Bool) (seq : BitVec 4) (d : Reg) (a : Reg) : Statement (.redAdd e scope rel seq d a) := by
  intro hwf w hw
  simp only [encode, Option.some.injEq, put31_20_19_14_7_0] at hw
  have l_e := bit01_lt e
  have l_scope := scope.isLt
  have l_rel := bit01_lt rel
  have l_seq := seq.isLt
  have l_d := d.isLt
  have l_a := a.isLt
  have f0 : fld w 0 7 = a.toNat := by simp only [fld]; omega
  have f1 : fld w 7 7 = d.toNat := by simp only [fld]; omega
  have f2 : fld w 14 4 = seq.toNat := by simp only [fld]; omega
  have f3 : fld w 18 1 = 0 := by simp only [fld]; omega
  have f4 : fld w 19 1 = bit01 rel := by simp only [fld]; omega
  have f5 : fld w 20 3 = scope.toNat := by simp only [fld]; omega
  have f6 : fld w 23 4 = 12 := by simp only [fld]; omega
  have f7 : fld w 27 4 = 7 := by simp only [fld]; omega
  have f8 : fld w 31 1 = bit01 e := by simp only [fld]; omega
  refine close w _ (by omega) ?_ hwf
  simp [decodeMajor, decAT, flag, bits, guardF, bit01_eq, f0, f1, f2, f3, f4, f5, f6, f7, f8]
theorem redMin (e : Bool) (scope : BitVec 3) (rel : Bool) (seq : BitVec 4) (d : Reg) (a : Reg) : Statement (.redMin e scope rel seq d a) := by
  intro hwf w hw
  simp only [encode, Option.some.injEq, put31_20_19_14_7_0] at hw
  have l_e := bit01_lt e
  have l_scope := scope.isLt
  have l_rel := bit01_lt rel
  have l_seq := seq.isLt
  have l_d := d.isLt
  have l_a := a.isLt
  have f0 : fld w 0 7 = a.toNat := by simp only [fld]; omega
  have f1 : fld w 7 7 = d.toNat := by simp only [fld]; omega
  have f2 : fld w 14 4 = seq.toNat := by simp only [fld]; omega
  have f3 : fld w 18 1 = 0 := by simp only [fld]; omega
  have f4 : fld w 19 1 = bit01 rel := by simp only [fld]; omega
  have f5 : fld w 20 3 = scope.toNat := by simp only [fld]; omega
  have f6 : fld w 23 4 = 13 := by simp only [fld]; omega
  have f7 : fld w 27 4 = 7 := by simp only [fld]; omega
  have f8 : fld w 31 1 = bit01 e := by simp only [fld]; omega
  refine close w _ (by omega) ?_ hwf
  simp [decodeMajor, decAT, flag, bits, guardF, bit01_eq, f0, f1, f2, f3, f4, f5, f6, f7, f8]
theorem redMax (e : Bool) (scope : BitVec 3) (rel : Bool) (seq : BitVec 4) (d : Reg) (a : Reg) : Statement (.redMax e scope rel seq d a) := by
  intro hwf w hw
  simp only [encode, Option.some.injEq, put31_20_19_14_7_0] at hw
  have l_e := bit01_lt e
  have l_scope := scope.isLt
  have l_rel := bit01_lt rel
  have l_seq := seq.isLt
  have l_d := d.isLt
  have l_a := a.isLt
  have f0 : fld w 0 7 = a.toNat := by simp only [fld]; omega
  have f1 : fld w 7 7 = d.toNat := by simp only [fld]; omega
  have f2 : fld w 14 4 = seq.toNat := by simp only [fld]; omega
  have f3 : fld w 18 1 = 0 := by simp only [fld]; omega
  have f4 : fld w 19 1 = bit01 rel := by simp only [fld]; omega
  have f5 : fld w 20 3 = scope.toNat := by simp only [fld]; omega
  have f6 : fld w 23 4 = 14 := by simp only [fld]; omega
  have f7 : fld w 27 4 = 7 := by simp only [fld]; omega
  have f8 : fld w 31 1 = bit01 e := by simp only [fld]; omega
  refine close w _ (by omega) ?_ hwf
  simp [decodeMajor, decAT, flag, bits, guardF, bit01_eq, f0, f1, f2, f3, f4, f5, f6, f7, f8]
theorem rsettle (e : Bool) (scope : BitVec 3) (seq : BitVec 4) (a : Reg) : Statement (.rsettle e scope seq a) := by
  intro hwf w hw
  simp only [encode, Option.some.injEq, put31_20_14_0] at hw
  have l_e := bit01_lt e
  have l_scope := scope.isLt
  have l_seq := seq.isLt
  have l_a := a.isLt
  have f0 : fld w 0 7 = a.toNat := by simp only [fld]; omega
  have f1 : fld w 7 7 = 0 := by simp only [fld]; omega
  have f2 : fld w 14 4 = seq.toNat := by simp only [fld]; omega
  have f3 : fld w 18 2 = 2 := by simp only [fld]; omega
  have f4 : fld w 20 3 = scope.toNat := by simp only [fld]; omega
  have f5 : fld w 23 4 = 15 := by simp only [fld]; omega
  have f6 : fld w 27 4 = 7 := by simp only [fld]; omega
  have f7 : fld w 31 1 = bit01 e := by simp only [fld]; omega
  refine close w _ (by omega) ?_ hwf
  simp [decodeMajor, decAT, flag, bits, guardF, bit01_eq, f0, f1, f2, f3, f4, f5, f6, f7]
theorem mmaBf16 (e : Bool) (t : BitVec 8) (a : Reg) (b : Reg) (negate : Bool) : Statement (.mmaBf16 e t a b negate) := by
  intro hwf w hw
  simp only [encode, Option.some.injEq, put31_15_8_1_0] at hw
  have l_e := bit01_lt e
  have l_t := t.isLt
  have l_a := a.isLt
  have l_b := b.isLt
  have l_negate := bit01_lt negate
  have f0 : fld w 0 1 = bit01 negate := by simp only [fld]; omega
  have f1 : fld w 1 7 = b.toNat := by simp only [fld]; omega
  have f2 : fld w 8 7 = a.toNat := by simp only [fld]; omega
  have f3 : fld w 15 8 = t.toNat := by simp only [fld]; omega
  have f4 : fld w 23 4 = 0 := by simp only [fld]; omega
  have f5 : fld w 27 4 = 8 := by simp only [fld]; omega
  have f6 : fld w 31 1 = bit01 e := by simp only [fld]; omega
  refine close w _ (by omega) ?_ hwf
  simp [decodeMajor, decMX, flag, bits, bit01_eq, f0, f1, f2, f3, f4, f5, f6]
theorem mmaF16 (e : Bool) (t : BitVec 8) (a : Reg) (b : Reg) (negate : Bool) : Statement (.mmaF16 e t a b negate) := by
  intro hwf w hw
  simp only [encode, Option.some.injEq, put31_15_8_1_0] at hw
  have l_e := bit01_lt e
  have l_t := t.isLt
  have l_a := a.isLt
  have l_b := b.isLt
  have l_negate := bit01_lt negate
  have f0 : fld w 0 1 = bit01 negate := by simp only [fld]; omega
  have f1 : fld w 1 7 = b.toNat := by simp only [fld]; omega
  have f2 : fld w 8 7 = a.toNat := by simp only [fld]; omega
  have f3 : fld w 15 8 = t.toNat := by simp only [fld]; omega
  have f4 : fld w 23 4 = 1 := by simp only [fld]; omega
  have f5 : fld w 27 4 = 8 := by simp only [fld]; omega
  have f6 : fld w 31 1 = bit01 e := by simp only [fld]; omega
  refine close w _ (by omega) ?_ hwf
  simp [decodeMajor, decMX, flag, bits, bit01_eq, f0, f1, f2, f3, f4, f5, f6]
theorem mmaE4m3 (e : Bool) (t : BitVec 8) (a : Reg) (b : Reg) (negate : Bool) : Statement (.mmaE4m3 e t a b negate) := by
  intro hwf w hw
  simp only [encode, Option.some.injEq, put31_15_8_1_0] at hw
  have l_e := bit01_lt e
  have l_t := t.isLt
  have l_a := a.isLt
  have l_b := b.isLt
  have l_negate := bit01_lt negate
  have f0 : fld w 0 1 = bit01 negate := by simp only [fld]; omega
  have f1 : fld w 1 7 = b.toNat := by simp only [fld]; omega
  have f2 : fld w 8 7 = a.toNat := by simp only [fld]; omega
  have f3 : fld w 15 8 = t.toNat := by simp only [fld]; omega
  have f4 : fld w 23 4 = 2 := by simp only [fld]; omega
  have f5 : fld w 27 4 = 8 := by simp only [fld]; omega
  have f6 : fld w 31 1 = bit01 e := by simp only [fld]; omega
  refine close w _ (by omega) ?_ hwf
  simp [decodeMajor, decMX, flag, bits, bit01_eq, f0, f1, f2, f3, f4, f5, f6]
theorem mmaE5m2 (e : Bool) (t : BitVec 8) (a : Reg) (b : Reg) (negate : Bool) : Statement (.mmaE5m2 e t a b negate) := by
  intro hwf w hw
  simp only [encode, Option.some.injEq, put31_15_8_1_0] at hw
  have l_e := bit01_lt e
  have l_t := t.isLt
  have l_a := a.isLt
  have l_b := b.isLt
  have l_negate := bit01_lt negate
  have f0 : fld w 0 1 = bit01 negate := by simp only [fld]; omega
  have f1 : fld w 1 7 = b.toNat := by simp only [fld]; omega
  have f2 : fld w 8 7 = a.toNat := by simp only [fld]; omega
  have f3 : fld w 15 8 = t.toNat := by simp only [fld]; omega
  have f4 : fld w 23 4 = 3 := by simp only [fld]; omega
  have f5 : fld w 27 4 = 8 := by simp only [fld]; omega
  have f6 : fld w 31 1 = bit01 e := by simp only [fld]; omega
  refine close w _ (by omega) ?_ hwf
  simp [decodeMajor, decMX, flag, bits, bit01_eq, f0, f1, f2, f3, f4, f5, f6]
theorem mmaSi8 (e : Bool) (t : BitVec 8) (a : Reg) (b : Reg) (negate : Bool) : Statement (.mmaSi8 e t a b negate) := by
  intro hwf w hw
  simp only [encode, Option.some.injEq, put31_15_8_1_0] at hw
  have l_e := bit01_lt e
  have l_t := t.isLt
  have l_a := a.isLt
  have l_b := b.isLt
  have l_negate := bit01_lt negate
  have f0 : fld w 0 1 = bit01 negate := by simp only [fld]; omega
  have f1 : fld w 1 7 = b.toNat := by simp only [fld]; omega
  have f2 : fld w 8 7 = a.toNat := by simp only [fld]; omega
  have f3 : fld w 15 8 = t.toNat := by simp only [fld]; omega
  have f4 : fld w 23 4 = 4 := by simp only [fld]; omega
  have f5 : fld w 27 4 = 8 := by simp only [fld]; omega
  have f6 : fld w 31 1 = bit01 e := by simp only [fld]; omega
  refine close w _ (by omega) ?_ hwf
  simp [decodeMajor, decMX, flag, bits, bit01_eq, f0, f1, f2, f3, f4, f5, f6]
theorem mmaUi8 (e : Bool) (t : BitVec 8) (a : Reg) (b : Reg) (negate : Bool) : Statement (.mmaUi8 e t a b negate) := by
  intro hwf w hw
  simp only [encode, Option.some.injEq, put31_15_8_1_0] at hw
  have l_e := bit01_lt e
  have l_t := t.isLt
  have l_a := a.isLt
  have l_b := b.isLt
  have l_negate := bit01_lt negate
  have f0 : fld w 0 1 = bit01 negate := by simp only [fld]; omega
  have f1 : fld w 1 7 = b.toNat := by simp only [fld]; omega
  have f2 : fld w 8 7 = a.toNat := by simp only [fld]; omega
  have f3 : fld w 15 8 = t.toNat := by simp only [fld]; omega
  have f4 : fld w 23 4 = 5 := by simp only [fld]; omega
  have f5 : fld w 27 4 = 8 := by simp only [fld]; omega
  have f6 : fld w 31 1 = bit01 e := by simp only [fld]; omega
  refine close w _ (by omega) ?_ hwf
  simp [decodeMajor, decMX, flag, bits, bit01_eq, f0, f1, f2, f3, f4, f5, f6]
theorem mmasE2m1 (e : Bool) (t : BitVec 8) (a : Reg) (b : Reg) (negate : Bool) : Statement (.mmasE2m1 e t a b negate) := by
  intro hwf w hw
  simp only [encode, Option.some.injEq, put31_15_8_1_0] at hw
  have l_e := bit01_lt e
  have l_t := t.isLt
  have l_a := a.isLt
  have l_b := b.isLt
  have l_negate := bit01_lt negate
  have f0 : fld w 0 1 = bit01 negate := by simp only [fld]; omega
  have f1 : fld w 1 7 = b.toNat := by simp only [fld]; omega
  have f2 : fld w 8 7 = a.toNat := by simp only [fld]; omega
  have f3 : fld w 15 8 = t.toNat := by simp only [fld]; omega
  have f4 : fld w 23 4 = 8 := by simp only [fld]; omega
  have f5 : fld w 27 4 = 8 := by simp only [fld]; omega
  have f6 : fld w 31 1 = bit01 e := by simp only [fld]; omega
  refine close w _ (by omega) ?_ hwf
  simp [decodeMajor, decMX, flag, bits, bit01_eq, f0, f1, f2, f3, f4, f5, f6]
theorem mmasE2m3 (e : Bool) (t : BitVec 8) (a : Reg) (b : Reg) (negate : Bool) : Statement (.mmasE2m3 e t a b negate) := by
  intro hwf w hw
  simp only [encode, Option.some.injEq, put31_15_8_1_0] at hw
  have l_e := bit01_lt e
  have l_t := t.isLt
  have l_a := a.isLt
  have l_b := b.isLt
  have l_negate := bit01_lt negate
  have f0 : fld w 0 1 = bit01 negate := by simp only [fld]; omega
  have f1 : fld w 1 7 = b.toNat := by simp only [fld]; omega
  have f2 : fld w 8 7 = a.toNat := by simp only [fld]; omega
  have f3 : fld w 15 8 = t.toNat := by simp only [fld]; omega
  have f4 : fld w 23 4 = 9 := by simp only [fld]; omega
  have f5 : fld w 27 4 = 8 := by simp only [fld]; omega
  have f6 : fld w 31 1 = bit01 e := by simp only [fld]; omega
  refine close w _ (by omega) ?_ hwf
  simp [decodeMajor, decMX, flag, bits, bit01_eq, f0, f1, f2, f3, f4, f5, f6]
theorem mmasE3m2 (e : Bool) (t : BitVec 8) (a : Reg) (b : Reg) (negate : Bool) : Statement (.mmasE3m2 e t a b negate) := by
  intro hwf w hw
  simp only [encode, Option.some.injEq, put31_15_8_1_0] at hw
  have l_e := bit01_lt e
  have l_t := t.isLt
  have l_a := a.isLt
  have l_b := b.isLt
  have l_negate := bit01_lt negate
  have f0 : fld w 0 1 = bit01 negate := by simp only [fld]; omega
  have f1 : fld w 1 7 = b.toNat := by simp only [fld]; omega
  have f2 : fld w 8 7 = a.toNat := by simp only [fld]; omega
  have f3 : fld w 15 8 = t.toNat := by simp only [fld]; omega
  have f4 : fld w 23 4 = 10 := by simp only [fld]; omega
  have f5 : fld w 27 4 = 8 := by simp only [fld]; omega
  have f6 : fld w 31 1 = bit01 e := by simp only [fld]; omega
  refine close w _ (by omega) ?_ hwf
  simp [decodeMajor, decMX, flag, bits, bit01_eq, f0, f1, f2, f3, f4, f5, f6]
theorem mmasE4m3 (e : Bool) (t : BitVec 8) (a : Reg) (b : Reg) (negate : Bool) : Statement (.mmasE4m3 e t a b negate) := by
  intro hwf w hw
  simp only [encode, Option.some.injEq, put31_15_8_1_0] at hw
  have l_e := bit01_lt e
  have l_t := t.isLt
  have l_a := a.isLt
  have l_b := b.isLt
  have l_negate := bit01_lt negate
  have f0 : fld w 0 1 = bit01 negate := by simp only [fld]; omega
  have f1 : fld w 1 7 = b.toNat := by simp only [fld]; omega
  have f2 : fld w 8 7 = a.toNat := by simp only [fld]; omega
  have f3 : fld w 15 8 = t.toNat := by simp only [fld]; omega
  have f4 : fld w 23 4 = 11 := by simp only [fld]; omega
  have f5 : fld w 27 4 = 8 := by simp only [fld]; omega
  have f6 : fld w 31 1 = bit01 e := by simp only [fld]; omega
  refine close w _ (by omega) ?_ hwf
  simp [decodeMajor, decMX, flag, bits, bit01_eq, f0, f1, f2, f3, f4, f5, f6]
theorem mmasE5m2 (e : Bool) (t : BitVec 8) (a : Reg) (b : Reg) (negate : Bool) : Statement (.mmasE5m2 e t a b negate) := by
  intro hwf w hw
  simp only [encode, Option.some.injEq, put31_15_8_1_0] at hw
  have l_e := bit01_lt e
  have l_t := t.isLt
  have l_a := a.isLt
  have l_b := b.isLt
  have l_negate := bit01_lt negate
  have f0 : fld w 0 1 = bit01 negate := by simp only [fld]; omega
  have f1 : fld w 1 7 = b.toNat := by simp only [fld]; omega
  have f2 : fld w 8 7 = a.toNat := by simp only [fld]; omega
  have f3 : fld w 15 8 = t.toNat := by simp only [fld]; omega
  have f4 : fld w 23 4 = 12 := by simp only [fld]; omega
  have f5 : fld w 27 4 = 8 := by simp only [fld]; omega
  have f6 : fld w 31 1 = bit01 e := by simp only [fld]; omega
  refine close w _ (by omega) ?_ hwf
  simp [decodeMajor, decMX, flag, bits, bit01_eq, f0, f1, f2, f3, f4, f5, f6]
theorem mmasSi8 (e : Bool) (t : BitVec 8) (a : Reg) (b : Reg) (negate : Bool) : Statement (.mmasSi8 e t a b negate) := by
  intro hwf w hw
  simp only [encode, Option.some.injEq, put31_15_8_1_0] at hw
  have l_e := bit01_lt e
  have l_t := t.isLt
  have l_a := a.isLt
  have l_b := b.isLt
  have l_negate := bit01_lt negate
  have f0 : fld w 0 1 = bit01 negate := by simp only [fld]; omega
  have f1 : fld w 1 7 = b.toNat := by simp only [fld]; omega
  have f2 : fld w 8 7 = a.toNat := by simp only [fld]; omega
  have f3 : fld w 15 8 = t.toNat := by simp only [fld]; omega
  have f4 : fld w 23 4 = 13 := by simp only [fld]; omega
  have f5 : fld w 27 4 = 8 := by simp only [fld]; omega
  have f6 : fld w 31 1 = bit01 e := by simp only [fld]; omega
  refine close w _ (by omega) ?_ hwf
  simp [decodeMajor, decMX, flag, bits, bit01_eq, f0, f1, f2, f3, f4, f5, f6]
theorem tzero (e : Bool) (t : BitVec 8) : Statement (.tzero e t) := by
  intro hwf w hw
  simp only [encode, Option.some.injEq, put31_16] at hw
  have l_e := bit01_lt e
  have l_t := t.isLt
  have f0 : fld w 0 16 = 0 := by simp only [fld]; omega
  have f1 : fld w 16 8 = t.toNat := by simp only [fld]; omega
  have f2 : fld w 24 3 = 0 := by simp only [fld]; omega
  have f3 : fld w 27 4 = 9 := by simp only [fld]; omega
  have f4 : fld w 31 1 = bit01 e := by simp only [fld]; omega
  refine close w _ (by omega) ?_ hwf
  simp [decodeMajor, decTL, flag, bits, guardF, bit01_eq, f0, f1, f2, f3, f4]
theorem tfill (e : Bool) (t : BitVec 8) (seq : BitVec 4) (reg : Reg) (fmt : TileFmt) (scr : Bool) : Statement (.tfill e t seq reg fmt scr) := by
  intro hwf w hw
  simp only [encode, Option.some.injEq, put31_16_12_5_1_0] at hw
  have l_e := bit01_lt e
  have l_t := t.isLt
  have l_seq := seq.isLt
  have l_reg := reg.isLt
  have l_fmt := tilefmt_lt fmt
  have l_scr := bit01_lt scr
  have f0 : fld w 0 1 = bit01 scr := by simp only [fld]; omega
  have f1 : fld w 1 2 = fmt.code := by simp only [fld]; omega
  have f2 : fld w 3 2 = 0 := by simp only [fld]; omega
  have f3 : fld w 5 7 = reg.toNat := by simp only [fld]; omega
  have f4 : fld w 12 4 = seq.toNat := by simp only [fld]; omega
  have f5 : fld w 16 8 = t.toNat := by simp only [fld]; omega
  have f6 : fld w 24 3 = 1 := by simp only [fld]; omega
  have f7 : fld w 27 4 = 9 := by simp only [fld]; omega
  have f8 : fld w 31 1 = bit01 e := by simp only [fld]; omega
  refine close w _ (by omega) ?_ hwf
  simp [decodeMajor, decTL, flag, bits, need, guardF, bit01_eq, tilefmt_code, f0, f1, f2, f3, f4, f5, f6, f7, f8]
theorem tdrain (e : Bool) (t : BitVec 8) (seq : BitVec 4) (reg : Reg) (keep : Bool) (fmt : TileFmt) (scr : Bool) : Statement (.tdrain e t seq reg keep fmt scr) := by
  intro hwf w hw
  simp only [encode, Option.some.injEq, put31_16_12_5_3_1_0] at hw
  have l_e := bit01_lt e
  have l_t := t.isLt
  have l_seq := seq.isLt
  have l_reg := reg.isLt
  have l_keep := bit01_lt keep
  have l_fmt := tilefmt_lt fmt
  have l_scr := bit01_lt scr
  have f0 : fld w 0 1 = bit01 scr := by simp only [fld]; omega
  have f1 : fld w 1 2 = fmt.code := by simp only [fld]; omega
  have f2 : fld w 3 1 = bit01 keep := by simp only [fld]; omega
  have f3 : fld w 4 1 = 0 := by simp only [fld]; omega
  have f4 : fld w 5 7 = reg.toNat := by simp only [fld]; omega
  have f5 : fld w 12 4 = seq.toNat := by simp only [fld]; omega
  have f6 : fld w 16 8 = t.toNat := by simp only [fld]; omega
  have f7 : fld w 24 3 = 2 := by simp only [fld]; omega
  have f8 : fld w 27 4 = 9 := by simp only [fld]; omega
  have f9 : fld w 31 1 = bit01 e := by simp only [fld]; omega
  refine close w _ (by omega) ?_ hwf
  simp [decodeMajor, decTL, flag, bits, need, guardF, bit01_eq, tilefmt_code, f0, f1, f2, f3, f4, f5, f6, f7, f8, f9]
theorem tget (e : Bool) (t : BitVec 8) (reg : Reg) : Statement (.tget e t reg) := by
  intro hwf w hw
  simp only [encode, Option.some.injEq, put31_16_5] at hw
  have l_e := bit01_lt e
  have l_t := t.isLt
  have l_reg := reg.isLt
  have f0 : fld w 0 5 = 0 := by simp only [fld]; omega
  have f1 : fld w 5 7 = reg.toNat := by simp only [fld]; omega
  have f2 : fld w 12 4 = 0 := by simp only [fld]; omega
  have f3 : fld w 16 8 = t.toNat := by simp only [fld]; omega
  have f4 : fld w 24 3 = 3 := by simp only [fld]; omega
  have f5 : fld w 27 4 = 9 := by simp only [fld]; omega
  have f6 : fld w 31 1 = bit01 e := by simp only [fld]; omega
  refine close w _ (by omega) ?_ hwf
  simp [decodeMajor, decTL, flag, bits, guardF, bit01_eq, f0, f1, f2, f3, f4, f5, f6]
theorem trow (e : Bool) (t : BitVec 8) (reg : Reg) : Statement (.trow e t reg) := by
  intro hwf w hw
  simp only [encode, Option.some.injEq, put31_16_5] at hw
  have l_e := bit01_lt e
  have l_t := t.isLt
  have l_reg := reg.isLt
  have f0 : fld w 0 5 = 0 := by simp only [fld]; omega
  have f1 : fld w 5 7 = reg.toNat := by simp only [fld]; omega
  have f2 : fld w 12 4 = 0 := by simp only [fld]; omega
  have f3 : fld w 16 8 = t.toNat := by simp only [fld]; omega
  have f4 : fld w 24 3 = 4 := by simp only [fld]; omega
  have f5 : fld w 27 4 = 9 := by simp only [fld]; omega
  have f6 : fld w 31 1 = bit01 e := by simp only [fld]; omega
  refine close w _ (by omega) ?_ hwf
  simp [decodeMajor, decTL, flag, bits, guardF, bit01_eq, f0, f1, f2, f3, f4, f5, f6]
theorem tstat (e : Bool) (t : BitVec 8) (reg : Reg) : Statement (.tstat e t reg) := by
  intro hwf w hw
  simp only [encode, Option.some.injEq, put31_16_5] at hw
  have l_e := bit01_lt e
  have l_t := t.isLt
  have l_reg := reg.isLt
  have f0 : fld w 0 5 = 0 := by simp only [fld]; omega
  have f1 : fld w 5 7 = reg.toNat := by simp only [fld]; omega
  have f2 : fld w 12 4 = 0 := by simp only [fld]; omega
  have f3 : fld w 16 8 = t.toNat := by simp only [fld]; omega
  have f4 : fld w 24 3 = 5 := by simp only [fld]; omega
  have f5 : fld w 27 4 = 9 := by simp only [fld]; omega
  have f6 : fld w 31 1 = bit01 e := by simp only [fld]; omega
  refine close w _ (by omega) ?_ hwf
  simp [decodeMajor, decTL, flag, bits, guardF, bit01_eq, f0, f1, f2, f3, f4, f5, f6]
theorem shflIdx (e : Bool) (d : Reg) (a : Reg) (m : Reg) : Statement (.shflIdx e d a m) := by
  intro hwf w hw
  simp only [encode, Option.some.injEq, put31_14_7_0] at hw
  have l_e := bit01_lt e
  have l_d := d.isLt
  have l_a := a.isLt
  have l_m := m.isLt
  have f0 : fld w 0 7 = m.toNat := by simp only [fld]; omega
  have f1 : fld w 7 7 = a.toNat := by simp only [fld]; omega
  have f2 : fld w 14 7 = d.toNat := by simp only [fld]; omega
  have f3 : fld w 21 6 = 0 := by simp only [fld]; omega
  have f4 : fld w 27 4 = 10 := by simp only [fld]; omega
  have f5 : fld w 31 1 = bit01 e := by simp only [fld]; omega
  refine close w _ (by omega) ?_ hwf
  simp [decodeMajor, decXF, flag, bits, bit01_eq, f0, f1, f2, f3, f4, f5]
theorem shflUp (e : Bool) (d : Reg) (a : Reg) (m : Reg) : Statement (.shflUp e d a m) := by
  intro hwf w hw
  simp only [encode, Option.some.injEq, put31_14_7_0] at hw
  have l_e := bit01_lt e
  have l_d := d.isLt
  have l_a := a.isLt
  have l_m := m.isLt
  have f0 : fld w 0 7 = m.toNat := by simp only [fld]; omega
  have f1 : fld w 7 7 = a.toNat := by simp only [fld]; omega
  have f2 : fld w 14 7 = d.toNat := by simp only [fld]; omega
  have f3 : fld w 21 6 = 1 := by simp only [fld]; omega
  have f4 : fld w 27 4 = 10 := by simp only [fld]; omega
  have f5 : fld w 31 1 = bit01 e := by simp only [fld]; omega
  refine close w _ (by omega) ?_ hwf
  simp [decodeMajor, decXF, flag, bits, bit01_eq, f0, f1, f2, f3, f4, f5]
theorem shflDown (e : Bool) (d : Reg) (a : Reg) (m : Reg) : Statement (.shflDown e d a m) := by
  intro hwf w hw
  simp only [encode, Option.some.injEq, put31_14_7_0] at hw
  have l_e := bit01_lt e
  have l_d := d.isLt
  have l_a := a.isLt
  have l_m := m.isLt
  have f0 : fld w 0 7 = m.toNat := by simp only [fld]; omega
  have f1 : fld w 7 7 = a.toNat := by simp only [fld]; omega
  have f2 : fld w 14 7 = d.toNat := by simp only [fld]; omega
  have f3 : fld w 21 6 = 2 := by simp only [fld]; omega
  have f4 : fld w 27 4 = 10 := by simp only [fld]; omega
  have f5 : fld w 31 1 = bit01 e := by simp only [fld]; omega
  refine close w _ (by omega) ?_ hwf
  simp [decodeMajor, decXF, flag, bits, bit01_eq, f0, f1, f2, f3, f4, f5]
theorem shflXor (e : Bool) (d : Reg) (a : Reg) (m : Reg) : Statement (.shflXor e d a m) := by
  intro hwf w hw
  simp only [encode, Option.some.injEq, put31_14_7_0] at hw
  have l_e := bit01_lt e
  have l_d := d.isLt
  have l_a := a.isLt
  have l_m := m.isLt
  have f0 : fld w 0 7 = m.toNat := by simp only [fld]; omega
  have f1 : fld w 7 7 = a.toNat := by simp only [fld]; omega
  have f2 : fld w 14 7 = d.toNat := by simp only [fld]; omega
  have f3 : fld w 21 6 = 3 := by simp only [fld]; omega
  have f4 : fld w 27 4 = 10 := by simp only [fld]; omega
  have f5 : fld w 31 1 = bit01 e := by simp only [fld]; omega
  refine close w _ (by omega) ?_ hwf
  simp [decodeMajor, decXF, flag, bits, bit01_eq, f0, f1, f2, f3, f4, f5]
theorem voteAny (e : Bool) (d : Reg) (a : Reg) (m : Reg) : Statement (.voteAny e d a m) := by
  intro hwf w hw
  simp only [encode, Option.some.injEq, put31_14_7_0] at hw
  have l_e := bit01_lt e
  have l_d := d.isLt
  have l_a := a.isLt
  have l_m := m.isLt
  have f0 : fld w 0 7 = m.toNat := by simp only [fld]; omega
  have f1 : fld w 7 7 = a.toNat := by simp only [fld]; omega
  have f2 : fld w 14 7 = d.toNat := by simp only [fld]; omega
  have f3 : fld w 21 6 = 8 := by simp only [fld]; omega
  have f4 : fld w 27 4 = 10 := by simp only [fld]; omega
  have f5 : fld w 31 1 = bit01 e := by simp only [fld]; omega
  refine close w _ (by omega) ?_ hwf
  simp [decodeMajor, decXF, flag, bits, bit01_eq, f0, f1, f2, f3, f4, f5]
theorem voteAll (e : Bool) (d : Reg) (a : Reg) (m : Reg) : Statement (.voteAll e d a m) := by
  intro hwf w hw
  simp only [encode, Option.some.injEq, put31_14_7_0] at hw
  have l_e := bit01_lt e
  have l_d := d.isLt
  have l_a := a.isLt
  have l_m := m.isLt
  have f0 : fld w 0 7 = m.toNat := by simp only [fld]; omega
  have f1 : fld w 7 7 = a.toNat := by simp only [fld]; omega
  have f2 : fld w 14 7 = d.toNat := by simp only [fld]; omega
  have f3 : fld w 21 6 = 9 := by simp only [fld]; omega
  have f4 : fld w 27 4 = 10 := by simp only [fld]; omega
  have f5 : fld w 31 1 = bit01 e := by simp only [fld]; omega
  refine close w _ (by omega) ?_ hwf
  simp [decodeMajor, decXF, flag, bits, bit01_eq, f0, f1, f2, f3, f4, f5]
theorem voteBallot (e : Bool) (d : Reg) (a : Reg) (m : Reg) : Statement (.voteBallot e d a m) := by
  intro hwf w hw
  simp only [encode, Option.some.injEq, put31_14_7_0] at hw
  have l_e := bit01_lt e
  have l_d := d.isLt
  have l_a := a.isLt
  have l_m := m.isLt
  have f0 : fld w 0 7 = m.toNat := by simp only [fld]; omega
  have f1 : fld w 7 7 = a.toNat := by simp only [fld]; omega
  have f2 : fld w 14 7 = d.toNat := by simp only [fld]; omega
  have f3 : fld w 21 6 = 10 := by simp only [fld]; omega
  have f4 : fld w 27 4 = 10 := by simp only [fld]; omega
  have f5 : fld w 31 1 = bit01 e := by simp only [fld]; omega
  refine close w _ (by omega) ?_ hwf
  simp [decodeMajor, decXF, flag, bits, bit01_eq, f0, f1, f2, f3, f4, f5]
theorem foldAdd (e : Bool) (d : Reg) (a : Reg) (m : Reg) : Statement (.foldAdd e d a m) := by
  intro hwf w hw
  simp only [encode, Option.some.injEq, put31_14_7_0] at hw
  have l_e := bit01_lt e
  have l_d := d.isLt
  have l_a := a.isLt
  have l_m := m.isLt
  have f0 : fld w 0 7 = m.toNat := by simp only [fld]; omega
  have f1 : fld w 7 7 = a.toNat := by simp only [fld]; omega
  have f2 : fld w 14 7 = d.toNat := by simp only [fld]; omega
  have f3 : fld w 21 6 = 16 := by simp only [fld]; omega
  have f4 : fld w 27 4 = 10 := by simp only [fld]; omega
  have f5 : fld w 31 1 = bit01 e := by simp only [fld]; omega
  refine close w _ (by omega) ?_ hwf
  simp [decodeMajor, decXF, flag, bits, bit01_eq, f0, f1, f2, f3, f4, f5]
theorem foldMin (e : Bool) (d : Reg) (a : Reg) (m : Reg) : Statement (.foldMin e d a m) := by
  intro hwf w hw
  simp only [encode, Option.some.injEq, put31_14_7_0] at hw
  have l_e := bit01_lt e
  have l_d := d.isLt
  have l_a := a.isLt
  have l_m := m.isLt
  have f0 : fld w 0 7 = m.toNat := by simp only [fld]; omega
  have f1 : fld w 7 7 = a.toNat := by simp only [fld]; omega
  have f2 : fld w 14 7 = d.toNat := by simp only [fld]; omega
  have f3 : fld w 21 6 = 17 := by simp only [fld]; omega
  have f4 : fld w 27 4 = 10 := by simp only [fld]; omega
  have f5 : fld w 31 1 = bit01 e := by simp only [fld]; omega
  refine close w _ (by omega) ?_ hwf
  simp [decodeMajor, decXF, flag, bits, bit01_eq, f0, f1, f2, f3, f4, f5]
theorem foldMax (e : Bool) (d : Reg) (a : Reg) (m : Reg) : Statement (.foldMax e d a m) := by
  intro hwf w hw
  simp only [encode, Option.some.injEq, put31_14_7_0] at hw
  have l_e := bit01_lt e
  have l_d := d.isLt
  have l_a := a.isLt
  have l_m := m.isLt
  have f0 : fld w 0 7 = m.toNat := by simp only [fld]; omega
  have f1 : fld w 7 7 = a.toNat := by simp only [fld]; omega
  have f2 : fld w 14 7 = d.toNat := by simp only [fld]; omega
  have f3 : fld w 21 6 = 18 := by simp only [fld]; omega
  have f4 : fld w 27 4 = 10 := by simp only [fld]; omega
  have f5 : fld w 31 1 = bit01 e := by simp only [fld]; omega
  refine close w _ (by omega) ?_ hwf
  simp [decodeMajor, decXF, flag, bits, bit01_eq, f0, f1, f2, f3, f4, f5]
theorem foldAnd (e : Bool) (d : Reg) (a : Reg) (m : Reg) : Statement (.foldAnd e d a m) := by
  intro hwf w hw
  simp only [encode, Option.some.injEq, put31_14_7_0] at hw
  have l_e := bit01_lt e
  have l_d := d.isLt
  have l_a := a.isLt
  have l_m := m.isLt
  have f0 : fld w 0 7 = m.toNat := by simp only [fld]; omega
  have f1 : fld w 7 7 = a.toNat := by simp only [fld]; omega
  have f2 : fld w 14 7 = d.toNat := by simp only [fld]; omega
  have f3 : fld w 21 6 = 19 := by simp only [fld]; omega
  have f4 : fld w 27 4 = 10 := by simp only [fld]; omega
  have f5 : fld w 31 1 = bit01 e := by simp only [fld]; omega
  refine close w _ (by omega) ?_ hwf
  simp [decodeMajor, decXF, flag, bits, bit01_eq, f0, f1, f2, f3, f4, f5]
theorem foldOr (e : Bool) (d : Reg) (a : Reg) (m : Reg) : Statement (.foldOr e d a m) := by
  intro hwf w hw
  simp only [encode, Option.some.injEq, put31_14_7_0] at hw
  have l_e := bit01_lt e
  have l_d := d.isLt
  have l_a := a.isLt
  have l_m := m.isLt
  have f0 : fld w 0 7 = m.toNat := by simp only [fld]; omega
  have f1 : fld w 7 7 = a.toNat := by simp only [fld]; omega
  have f2 : fld w 14 7 = d.toNat := by simp only [fld]; omega
  have f3 : fld w 21 6 = 20 := by simp only [fld]; omega
  have f4 : fld w 27 4 = 10 := by simp only [fld]; omega
  have f5 : fld w 31 1 = bit01 e := by simp only [fld]; omega
  refine close w _ (by omega) ?_ hwf
  simp [decodeMajor, decXF, flag, bits, bit01_eq, f0, f1, f2, f3, f4, f5]
theorem foldXor (e : Bool) (d : Reg) (a : Reg) (m : Reg) : Statement (.foldXor e d a m) := by
  intro hwf w hw
  simp only [encode, Option.some.injEq, put31_14_7_0] at hw
  have l_e := bit01_lt e
  have l_d := d.isLt
  have l_a := a.isLt
  have l_m := m.isLt
  have f0 : fld w 0 7 = m.toNat := by simp only [fld]; omega
  have f1 : fld w 7 7 = a.toNat := by simp only [fld]; omega
  have f2 : fld w 14 7 = d.toNat := by simp only [fld]; omega
  have f3 : fld w 21 6 = 21 := by simp only [fld]; omega
  have f4 : fld w 27 4 = 10 := by simp only [fld]; omega
  have f5 : fld w 31 1 = bit01 e := by simp only [fld]; omega
  refine close w _ (by omega) ?_ hwf
  simp [decodeMajor, decXF, flag, bits, bit01_eq, f0, f1, f2, f3, f4, f5]
theorem scanAdd (e : Bool) (d : Reg) (a : Reg) (m : Reg) : Statement (.scanAdd e d a m) := by
  intro hwf w hw
  simp only [encode, Option.some.injEq, put31_14_7_0] at hw
  have l_e := bit01_lt e
  have l_d := d.isLt
  have l_a := a.isLt
  have l_m := m.isLt
  have f0 : fld w 0 7 = m.toNat := by simp only [fld]; omega
  have f1 : fld w 7 7 = a.toNat := by simp only [fld]; omega
  have f2 : fld w 14 7 = d.toNat := by simp only [fld]; omega
  have f3 : fld w 21 6 = 24 := by simp only [fld]; omega
  have f4 : fld w 27 4 = 10 := by simp only [fld]; omega
  have f5 : fld w 31 1 = bit01 e := by simp only [fld]; omega
  refine close w _ (by omega) ?_ hwf
  simp [decodeMajor, decXF, flag, bits, bit01_eq, f0, f1, f2, f3, f4, f5]
theorem scanMin (e : Bool) (d : Reg) (a : Reg) (m : Reg) : Statement (.scanMin e d a m) := by
  intro hwf w hw
  simp only [encode, Option.some.injEq, put31_14_7_0] at hw
  have l_e := bit01_lt e
  have l_d := d.isLt
  have l_a := a.isLt
  have l_m := m.isLt
  have f0 : fld w 0 7 = m.toNat := by simp only [fld]; omega
  have f1 : fld w 7 7 = a.toNat := by simp only [fld]; omega
  have f2 : fld w 14 7 = d.toNat := by simp only [fld]; omega
  have f3 : fld w 21 6 = 25 := by simp only [fld]; omega
  have f4 : fld w 27 4 = 10 := by simp only [fld]; omega
  have f5 : fld w 31 1 = bit01 e := by simp only [fld]; omega
  refine close w _ (by omega) ?_ hwf
  simp [decodeMajor, decXF, flag, bits, bit01_eq, f0, f1, f2, f3, f4, f5]
theorem scanMax (e : Bool) (d : Reg) (a : Reg) (m : Reg) : Statement (.scanMax e d a m) := by
  intro hwf w hw
  simp only [encode, Option.some.injEq, put31_14_7_0] at hw
  have l_e := bit01_lt e
  have l_d := d.isLt
  have l_a := a.isLt
  have l_m := m.isLt
  have f0 : fld w 0 7 = m.toNat := by simp only [fld]; omega
  have f1 : fld w 7 7 = a.toNat := by simp only [fld]; omega
  have f2 : fld w 14 7 = d.toNat := by simp only [fld]; omega
  have f3 : fld w 21 6 = 26 := by simp only [fld]; omega
  have f4 : fld w 27 4 = 10 := by simp only [fld]; omega
  have f5 : fld w 31 1 = bit01 e := by simp only [fld]; omega
  refine close w _ (by omega) ?_ hwf
  simp [decodeMajor, decXF, flag, bits, bit01_eq, f0, f1, f2, f3, f4, f5]
theorem scanAnd (e : Bool) (d : Reg) (a : Reg) (m : Reg) : Statement (.scanAnd e d a m) := by
  intro hwf w hw
  simp only [encode, Option.some.injEq, put31_14_7_0] at hw
  have l_e := bit01_lt e
  have l_d := d.isLt
  have l_a := a.isLt
  have l_m := m.isLt
  have f0 : fld w 0 7 = m.toNat := by simp only [fld]; omega
  have f1 : fld w 7 7 = a.toNat := by simp only [fld]; omega
  have f2 : fld w 14 7 = d.toNat := by simp only [fld]; omega
  have f3 : fld w 21 6 = 27 := by simp only [fld]; omega
  have f4 : fld w 27 4 = 10 := by simp only [fld]; omega
  have f5 : fld w 31 1 = bit01 e := by simp only [fld]; omega
  refine close w _ (by omega) ?_ hwf
  simp [decodeMajor, decXF, flag, bits, bit01_eq, f0, f1, f2, f3, f4, f5]
theorem scanOr (e : Bool) (d : Reg) (a : Reg) (m : Reg) : Statement (.scanOr e d a m) := by
  intro hwf w hw
  simp only [encode, Option.some.injEq, put31_14_7_0] at hw
  have l_e := bit01_lt e
  have l_d := d.isLt
  have l_a := a.isLt
  have l_m := m.isLt
  have f0 : fld w 0 7 = m.toNat := by simp only [fld]; omega
  have f1 : fld w 7 7 = a.toNat := by simp only [fld]; omega
  have f2 : fld w 14 7 = d.toNat := by simp only [fld]; omega
  have f3 : fld w 21 6 = 28 := by simp only [fld]; omega
  have f4 : fld w 27 4 = 10 := by simp only [fld]; omega
  have f5 : fld w 31 1 = bit01 e := by simp only [fld]; omega
  refine close w _ (by omega) ?_ hwf
  simp [decodeMajor, decXF, flag, bits, bit01_eq, f0, f1, f2, f3, f4, f5]
theorem scanXor (e : Bool) (d : Reg) (a : Reg) (m : Reg) : Statement (.scanXor e d a m) := by
  intro hwf w hw
  simp only [encode, Option.some.injEq, put31_14_7_0] at hw
  have l_e := bit01_lt e
  have l_d := d.isLt
  have l_a := a.isLt
  have l_m := m.isLt
  have f0 : fld w 0 7 = m.toNat := by simp only [fld]; omega
  have f1 : fld w 7 7 = a.toNat := by simp only [fld]; omega
  have f2 : fld w 14 7 = d.toNat := by simp only [fld]; omega
  have f3 : fld w 21 6 = 29 := by simp only [fld]; omega
  have f4 : fld w 27 4 = 10 := by simp only [fld]; omega
  have f5 : fld w 31 1 = bit01 e := by simp only [fld]; omega
  refine close w _ (by omega) ?_ hwf
  simp [decodeMajor, decXF, flag, bits, bit01_eq, f0, f1, f2, f3, f4, f5]
theorem matchAny (e : Bool) (d : Reg) (a : Reg) (m : Reg) : Statement (.matchAny e d a m) := by
  intro hwf w hw
  simp only [encode, Option.some.injEq, put31_14_7_0] at hw
  have l_e := bit01_lt e
  have l_d := d.isLt
  have l_a := a.isLt
  have l_m := m.isLt
  have f0 : fld w 0 7 = m.toNat := by simp only [fld]; omega
  have f1 : fld w 7 7 = a.toNat := by simp only [fld]; omega
  have f2 : fld w 14 7 = d.toNat := by simp only [fld]; omega
  have f3 : fld w 21 6 = 32 := by simp only [fld]; omega
  have f4 : fld w 27 4 = 10 := by simp only [fld]; omega
  have f5 : fld w 31 1 = bit01 e := by simp only [fld]; omega
  refine close w _ (by omega) ?_ hwf
  simp [decodeMajor, decXF, flag, bits, bit01_eq, f0, f1, f2, f3, f4, f5]
theorem matchAll (e : Bool) (d : Reg) (a : Reg) (m : Reg) : Statement (.matchAll e d a m) := by
  intro hwf w hw
  simp only [encode, Option.some.injEq, put31_14_7_0] at hw
  have l_e := bit01_lt e
  have l_d := d.isLt
  have l_a := a.isLt
  have l_m := m.isLt
  have f0 : fld w 0 7 = m.toNat := by simp only [fld]; omega
  have f1 : fld w 7 7 = a.toNat := by simp only [fld]; omega
  have f2 : fld w 14 7 = d.toNat := by simp only [fld]; omega
  have f3 : fld w 21 6 = 33 := by simp only [fld]; omega
  have f4 : fld w 27 4 = 10 := by simp only [fld]; omega
  have f5 : fld w 31 1 = bit01 e := by simp only [fld]; omega
  refine close w _ (by omega) ?_ hwf
  simp [decodeMajor, decXF, flag, bits, bit01_eq, f0, f1, f2, f3, f4, f5]
theorem rcp (e : Bool) (d : Reg) (a : Reg) : Statement (.rcp e d a) := by
  intro hwf w hw
  simp only [encode, Option.some.injEq, put31_14_7] at hw
  have l_e := bit01_lt e
  have l_d := d.isLt
  have l_a := a.isLt
  have f0 : fld w 0 7 = 0 := by simp only [fld]; omega
  have f1 : fld w 7 7 = a.toNat := by simp only [fld]; omega
  have f2 : fld w 14 7 = d.toNat := by simp only [fld]; omega
  have f3 : fld w 21 6 = 0 := by simp only [fld]; omega
  have f4 : fld w 27 4 = 11 := by simp only [fld]; omega
  have f5 : fld w 31 1 = bit01 e := by simp only [fld]; omega
  refine close w _ (by omega) ?_ hwf
  simp [decodeMajor, decSF, flag, bits, guardF, bit01_eq, f0, f1, f2, f3, f4, f5]
theorem rsq (e : Bool) (d : Reg) (a : Reg) : Statement (.rsq e d a) := by
  intro hwf w hw
  simp only [encode, Option.some.injEq, put31_14_7] at hw
  have l_e := bit01_lt e
  have l_d := d.isLt
  have l_a := a.isLt
  have f0 : fld w 0 7 = 0 := by simp only [fld]; omega
  have f1 : fld w 7 7 = a.toNat := by simp only [fld]; omega
  have f2 : fld w 14 7 = d.toNat := by simp only [fld]; omega
  have f3 : fld w 21 6 = 1 := by simp only [fld]; omega
  have f4 : fld w 27 4 = 11 := by simp only [fld]; omega
  have f5 : fld w 31 1 = bit01 e := by simp only [fld]; omega
  refine close w _ (by omega) ?_ hwf
  simp [decodeMajor, decSF, flag, bits, guardF, bit01_eq, f0, f1, f2, f3, f4, f5]
theorem sqrt (e : Bool) (d : Reg) (a : Reg) : Statement (.sqrt e d a) := by
  intro hwf w hw
  simp only [encode, Option.some.injEq, put31_14_7] at hw
  have l_e := bit01_lt e
  have l_d := d.isLt
  have l_a := a.isLt
  have f0 : fld w 0 7 = 0 := by simp only [fld]; omega
  have f1 : fld w 7 7 = a.toNat := by simp only [fld]; omega
  have f2 : fld w 14 7 = d.toNat := by simp only [fld]; omega
  have f3 : fld w 21 6 = 2 := by simp only [fld]; omega
  have f4 : fld w 27 4 = 11 := by simp only [fld]; omega
  have f5 : fld w 31 1 = bit01 e := by simp only [fld]; omega
  refine close w _ (by omega) ?_ hwf
  simp [decodeMajor, decSF, flag, bits, guardF, bit01_eq, f0, f1, f2, f3, f4, f5]
theorem exp2 (e : Bool) (d : Reg) (a : Reg) : Statement (.exp2 e d a) := by
  intro hwf w hw
  simp only [encode, Option.some.injEq, put31_14_7] at hw
  have l_e := bit01_lt e
  have l_d := d.isLt
  have l_a := a.isLt
  have f0 : fld w 0 7 = 0 := by simp only [fld]; omega
  have f1 : fld w 7 7 = a.toNat := by simp only [fld]; omega
  have f2 : fld w 14 7 = d.toNat := by simp only [fld]; omega
  have f3 : fld w 21 6 = 3 := by simp only [fld]; omega
  have f4 : fld w 27 4 = 11 := by simp only [fld]; omega
  have f5 : fld w 31 1 = bit01 e := by simp only [fld]; omega
  refine close w _ (by omega) ?_ hwf
  simp [decodeMajor, decSF, flag, bits, guardF, bit01_eq, f0, f1, f2, f3, f4, f5]
theorem log2 (e : Bool) (d : Reg) (a : Reg) : Statement (.log2 e d a) := by
  intro hwf w hw
  simp only [encode, Option.some.injEq, put31_14_7] at hw
  have l_e := bit01_lt e
  have l_d := d.isLt
  have l_a := a.isLt
  have f0 : fld w 0 7 = 0 := by simp only [fld]; omega
  have f1 : fld w 7 7 = a.toNat := by simp only [fld]; omega
  have f2 : fld w 14 7 = d.toNat := by simp only [fld]; omega
  have f3 : fld w 21 6 = 4 := by simp only [fld]; omega
  have f4 : fld w 27 4 = 11 := by simp only [fld]; omega
  have f5 : fld w 31 1 = bit01 e := by simp only [fld]; omega
  refine close w _ (by omega) ?_ hwf
  simp [decodeMajor, decSF, flag, bits, guardF, bit01_eq, f0, f1, f2, f3, f4, f5]
theorem sin (e : Bool) (d : Reg) (a : Reg) : Statement (.sin e d a) := by
  intro hwf w hw
  simp only [encode, Option.some.injEq, put31_14_7] at hw
  have l_e := bit01_lt e
  have l_d := d.isLt
  have l_a := a.isLt
  have f0 : fld w 0 7 = 0 := by simp only [fld]; omega
  have f1 : fld w 7 7 = a.toNat := by simp only [fld]; omega
  have f2 : fld w 14 7 = d.toNat := by simp only [fld]; omega
  have f3 : fld w 21 6 = 5 := by simp only [fld]; omega
  have f4 : fld w 27 4 = 11 := by simp only [fld]; omega
  have f5 : fld w 31 1 = bit01 e := by simp only [fld]; omega
  refine close w _ (by omega) ?_ hwf
  simp [decodeMajor, decSF, flag, bits, guardF, bit01_eq, f0, f1, f2, f3, f4, f5]
theorem cos (e : Bool) (d : Reg) (a : Reg) : Statement (.cos e d a) := by
  intro hwf w hw
  simp only [encode, Option.some.injEq, put31_14_7] at hw
  have l_e := bit01_lt e
  have l_d := d.isLt
  have l_a := a.isLt
  have f0 : fld w 0 7 = 0 := by simp only [fld]; omega
  have f1 : fld w 7 7 = a.toNat := by simp only [fld]; omega
  have f2 : fld w 14 7 = d.toNat := by simp only [fld]; omega
  have f3 : fld w 21 6 = 6 := by simp only [fld]; omega
  have f4 : fld w 27 4 = 11 := by simp only [fld]; omega
  have f5 : fld w 31 1 = bit01 e := by simp only [fld]; omega
  refine close w _ (by omega) ?_ hwf
  simp [decodeMajor, decSF, flag, bits, guardF, bit01_eq, f0, f1, f2, f3, f4, f5]
theorem tanh (e : Bool) (d : Reg) (a : Reg) : Statement (.tanh e d a) := by
  intro hwf w hw
  simp only [encode, Option.some.injEq, put31_14_7] at hw
  have l_e := bit01_lt e
  have l_d := d.isLt
  have l_a := a.isLt
  have f0 : fld w 0 7 = 0 := by simp only [fld]; omega
  have f1 : fld w 7 7 = a.toNat := by simp only [fld]; omega
  have f2 : fld w 14 7 = d.toNat := by simp only [fld]; omega
  have f3 : fld w 21 6 = 7 := by simp only [fld]; omega
  have f4 : fld w 27 4 = 11 := by simp only [fld]; omega
  have f5 : fld w 31 1 = bit01 e := by simp only [fld]; omega
  refine close w _ (by omega) ?_ hwf
  simp [decodeMajor, decSF, flag, bits, guardF, bit01_eq, f0, f1, f2, f3, f4, f5]
theorem cvt (e : Bool) (d : Reg) (a : Reg) (tgt : Tag) (sat : Bool) (mode : RMode) : Statement (.cvt e d a tgt sat mode) := by
  intro hwf w hw
  simp only [encode, Option.some.injEq, put31_14_7_3_2_0] at hw
  have l_e := bit01_lt e
  have l_d := d.isLt
  have l_a := a.isLt
  have l_tgt := tag_lt tgt
  have l_sat := bit01_lt sat
  have l_mode := rmode_lt mode
  have f0 : fld w 0 2 = mode.code := by simp only [fld]; omega
  have f1 : fld w 2 1 = bit01 sat := by simp only [fld]; omega
  have f2 : fld w 3 4 = tgt.code := by simp only [fld]; omega
  have f3 : fld w 7 7 = a.toNat := by simp only [fld]; omega
  have f4 : fld w 14 7 = d.toNat := by simp only [fld]; omega
  have f5 : fld w 21 6 = 16 := by simp only [fld]; omega
  have f6 : fld w 27 4 = 11 := by simp only [fld]; omega
  have f7 : fld w 31 1 = bit01 e := by simp only [fld]; omega
  refine close w _ (by omega) ?_ hwf
  simp [decodeMajor, decSF, flag, bits, need, bit01_eq, rmode_code, tag_code, f0, f1, f2, f3, f4, f5, f6, f7]
theorem mxpack (e : Bool) (d : Reg) (a : Reg) (tgt : Tag) : Statement (.mxpack e d a tgt) := by
  intro hwf w hw
  simp only [encode, Option.some.injEq, put31_14_7_3] at hw
  have l_e := bit01_lt e
  have l_d := d.isLt
  have l_a := a.isLt
  have l_tgt := tag_lt tgt
  have f0 : fld w 0 3 = 0 := by simp only [fld]; omega
  have f1 : fld w 3 4 = tgt.code := by simp only [fld]; omega
  have f2 : fld w 7 7 = a.toNat := by simp only [fld]; omega
  have f3 : fld w 14 7 = d.toNat := by simp only [fld]; omega
  have f4 : fld w 21 6 = 17 := by simp only [fld]; omega
  have f5 : fld w 27 4 = 11 := by simp only [fld]; omega
  have f6 : fld w 31 1 = bit01 e := by simp only [fld]; omega
  refine close w _ (by omega) ?_ hwf
  simp [decodeMajor, decSF, flag, bits, need, guardF, bit01_eq, tag_code, f0, f1, f2, f3, f4, f5, f6]
theorem mxunpk (e : Bool) (d : Reg) (a : Reg) (tgt : Tag) : Statement (.mxunpk e d a tgt) := by
  intro hwf w hw
  simp only [encode, Option.some.injEq, put31_14_7_3] at hw
  have l_e := bit01_lt e
  have l_d := d.isLt
  have l_a := a.isLt
  have l_tgt := tag_lt tgt
  have f0 : fld w 0 3 = 0 := by simp only [fld]; omega
  have f1 : fld w 3 4 = tgt.code := by simp only [fld]; omega
  have f2 : fld w 7 7 = a.toNat := by simp only [fld]; omega
  have f3 : fld w 14 7 = d.toNat := by simp only [fld]; omega
  have f4 : fld w 21 6 = 18 := by simp only [fld]; omega
  have f5 : fld w 27 4 = 11 := by simp only [fld]; omega
  have f6 : fld w 31 1 = bit01 e := by simp only [fld]; omega
  refine close w _ (by omega) ?_ hwf
  simp [decodeMajor, decSF, flag, bits, need, guardF, bit01_eq, tag_code, f0, f1, f2, f3, f4, f5, f6]
theorem dtern (e : Bool) (d : Reg) (a : Reg) (half : BitVec 2) : Statement (.dtern e d a half) := by
  intro hwf w hw
  simp only [encode, Option.some.injEq, put31_14_7_0] at hw
  have l_e := bit01_lt e
  have l_d := d.isLt
  have l_a := a.isLt
  have l_half := half.isLt
  have f0 : fld w 0 2 = half.toNat := by simp only [fld]; omega
  have f1 : fld w 2 5 = 0 := by simp only [fld]; omega
  have f2 : fld w 7 7 = a.toNat := by simp only [fld]; omega
  have f3 : fld w 14 7 = d.toNat := by simp only [fld]; omega
  have f4 : fld w 21 6 = 19 := by simp only [fld]; omega
  have f5 : fld w 27 4 = 11 := by simp only [fld]; omega
  have f6 : fld w 31 1 = bit01 e := by simp only [fld]; omega
  refine close w _ (by omega) ?_ hwf
  simp [decodeMajor, decSF, flag, bits, guardF, bit01_eq, f0, f1, f2, f3, f4, f5, f6]
theorem retag (e : Bool) (d : Reg) (a : Reg) (tgt : Tag) : Statement (.retag e d a tgt) := by
  intro hwf w hw
  simp only [encode, Option.some.injEq, put31_14_7_0] at hw
  have l_e := bit01_lt e
  have l_d := d.isLt
  have l_a := a.isLt
  have l_tgt := tag_lt tgt
  have f0 : fld w 0 4 = tgt.code := by simp only [fld]; omega
  have f1 : fld w 4 3 = 0 := by simp only [fld]; omega
  have f2 : fld w 7 7 = a.toNat := by simp only [fld]; omega
  have f3 : fld w 14 7 = d.toNat := by simp only [fld]; omega
  have f4 : fld w 21 6 = 24 := by simp only [fld]; omega
  have f5 : fld w 27 4 = 11 := by simp only [fld]; omega
  have f6 : fld w 31 1 = bit01 e := by simp only [fld]; omega
  refine close w _ (by omega) ?_ hwf
  simp [decodeMajor, decSF, flag, bits, need, guardF, bit01_eq, tag_code, f0, f1, f2, f3, f4, f5, f6]
theorem tag (e : Bool) (d : Reg) (a : Reg) : Statement (.tag e d a) := by
  intro hwf w hw
  simp only [encode, Option.some.injEq, put31_14_7] at hw
  have l_e := bit01_lt e
  have l_d := d.isLt
  have l_a := a.isLt
  have f0 : fld w 0 7 = 0 := by simp only [fld]; omega
  have f1 : fld w 7 7 = a.toNat := by simp only [fld]; omega
  have f2 : fld w 14 7 = d.toNat := by simp only [fld]; omega
  have f3 : fld w 21 6 = 25 := by simp only [fld]; omega
  have f4 : fld w 27 4 = 11 := by simp only [fld]; omega
  have f5 : fld w 31 1 = bit01 e := by simp only [fld]; omega
  refine close w _ (by omega) ?_ hwf
  simp [decodeMajor, decSF, flag, bits, guardF, bit01_eq, f0, f1, f2, f3, f4, f5]
theorem shape (e : Bool) (d : Reg) (a : Reg) : Statement (.shape e d a) := by
  intro hwf w hw
  simp only [encode, Option.some.injEq, put31_14_7] at hw
  have l_e := bit01_lt e
  have l_d := d.isLt
  have l_a := a.isLt
  have f0 : fld w 0 7 = 0 := by simp only [fld]; omega
  have f1 : fld w 7 7 = a.toNat := by simp only [fld]; omega
  have f2 : fld w 14 7 = d.toNat := by simp only [fld]; omega
  have f3 : fld w 21 6 = 26 := by simp only [fld]; omega
  have f4 : fld w 27 4 = 11 := by simp only [fld]; omega
  have f5 : fld w 31 1 = bit01 e := by simp only [fld]; omega
  refine close w _ (by omega) ?_ hwf
  simp [decodeMajor, decSF, flag, bits, guardF, bit01_eq, f0, f1, f2, f3, f4, f5]
theorem fpflag (e : Bool) (d : Reg) (mask : BitVec 7) : Statement (.fpflag e d mask) := by
  intro hwf w hw
  simp only [encode, Option.some.injEq, put31_14_0] at hw
  have l_e := bit01_lt e
  have l_d := d.isLt
  have l_mask := mask.isLt
  have f0 : fld w 0 7 = mask.toNat := by simp only [fld]; omega
  have f1 : fld w 7 7 = 0 := by simp only [fld]; omega
  have f2 : fld w 14 7 = d.toNat := by simp only [fld]; omega
  have f3 : fld w 21 6 = 27 := by simp only [fld]; omega
  have f4 : fld w 27 4 = 11 := by simp only [fld]; omega
  have f5 : fld w 31 1 = bit01 e := by simp only [fld]; omega
  refine close w _ (by omega) ?_ hwf
  simp [decodeMajor, decSF, flag, bits, guardF, bit01_eq, f0, f1, f2, f3, f4, f5]
theorem nop (e : Bool) : Statement (.nop e) := by
  intro hwf w hw
  simp only [encode, Option.some.injEq, put31] at hw
  have l_e := bit01_lt e
  have f0 : fld w 0 21 = 0 := by simp only [fld]; omega
  have f1 : fld w 21 6 = 0 := by simp only [fld]; omega
  have f2 : fld w 27 4 = 12 := by simp only [fld]; omega
  have f3 : fld w 31 1 = bit01 e := by simp only [fld]; omega
  refine close w _ (by omega) ?_ hwf
  simp [decodeMajor, decCT, flag, guardF, bit01_eq, f0, f1, f2, f3]
theorem brx (a : Reg) : Statement (.brx a) := by
  intro hwf w hw
  simp only [encode, Option.some.injEq, put7] at hw
  have l_a := a.isLt
  have f0 : fld w 0 7 = 0 := by simp only [fld]; omega
  have f1 : fld w 7 7 = a.toNat := by simp only [fld]; omega
  have f2 : fld w 14 7 = 0 := by simp only [fld]; omega
  have f3 : fld w 21 6 = 1 := by simp only [fld]; omega
  have f4 : fld w 27 4 = 12 := by simp only [fld]; omega
  have f5 : fld w 31 1 = 1 := by simp only [fld]; omega
  refine close w _ (by omega) ?_ hwf
  simp [decodeMajor, decCT, flag, bits, guardF, guardB, f0, f1, f2, f3, f4, f5]
theorem call (off : BitVec 21) : Statement (.call off) := by
  intro hwf w hw
  simp only [encode, Option.some.injEq, put0] at hw
  have l_off := off.isLt
  have f0 : fld w 0 21 = off.toNat := by simp only [fld]; omega
  have f1 : fld w 21 6 = 2 := by simp only [fld]; omega
  have f2 : fld w 27 4 = 12 := by simp only [fld]; omega
  have f3 : fld w 31 1 = 1 := by simp only [fld]; omega
  refine close w _ (by omega) ?_ hwf
  simp [decodeMajor, decCT, flag, bits, guardB, f0, f1, f2, f3]
theorem region (e : Bool) : Statement (.region e) := by
  intro hwf w hw
  simp only [encode, Option.some.injEq, put31] at hw
  have l_e := bit01_lt e
  have f0 : fld w 0 21 = 0 := by simp only [fld]; omega
  have f1 : fld w 21 6 = 4 := by simp only [fld]; omega
  have f2 : fld w 27 4 = 12 := by simp only [fld]; omega
  have f3 : fld w 31 1 = bit01 e := by simp only [fld]; omega
  refine close w _ (by omega) ?_ hwf
  simp [decodeMajor, decCT, flag, guardF, bit01_eq, f0, f1, f2, f3]
theorem spawn (e : Bool) (d : Reg) (a : Reg) (b : Reg) : Statement (.spawn e d a b) := by
  intro hwf w hw
  simp only [encode, Option.some.injEq, put31_14_7_0] at hw
  have l_e := bit01_lt e
  have l_d := d.isLt
  have l_a := a.isLt
  have l_b := b.isLt
  have f0 : fld w 0 7 = b.toNat := by simp only [fld]; omega
  have f1 : fld w 7 7 = a.toNat := by simp only [fld]; omega
  have f2 : fld w 14 7 = d.toNat := by simp only [fld]; omega
  have f3 : fld w 21 6 = 5 := by simp only [fld]; omega
  have f4 : fld w 27 4 = 12 := by simp only [fld]; omega
  have f5 : fld w 31 1 = bit01 e := by simp only [fld]; omega
  refine close w _ (by omega) ?_ hwf
  simp [decodeMajor, decCT, flag, bits, bit01_eq, f0, f1, f2, f3, f4, f5]
theorem yield (e : Bool) : Statement (.yield e) := by
  intro hwf w hw
  simp only [encode, Option.some.injEq, put31] at hw
  have l_e := bit01_lt e
  have f0 : fld w 0 21 = 0 := by simp only [fld]; omega
  have f1 : fld w 21 6 = 7 := by simp only [fld]; omega
  have f2 : fld w 27 4 = 12 := by simp only [fld]; omega
  have f3 : fld w 31 1 = bit01 e := by simp only [fld]; omega
  refine close w _ (by omega) ?_ hwf
  simp [decodeMajor, decCT, flag, guardF, bit01_eq, f0, f1, f2, f3]
theorem wait (e : Bool) (loads : BitVec 4) (stores : BitVec 4) (copies : BitVec 4) (tiles : BitVec 4) : Statement (.wait e loads stores copies tiles) := by
  intro hwf w hw
  simp only [encode, Option.some.injEq, put31_12_8_4_0] at hw
  have l_e := bit01_lt e
  have l_loads := loads.isLt
  have l_stores := stores.isLt
  have l_copies := copies.isLt
  have l_tiles := tiles.isLt
  have f0 : fld w 0 4 = tiles.toNat := by simp only [fld]; omega
  have f1 : fld w 4 4 = copies.toNat := by simp only [fld]; omega
  have f2 : fld w 8 4 = stores.toNat := by simp only [fld]; omega
  have f3 : fld w 12 4 = loads.toNat := by simp only [fld]; omega
  have f4 : fld w 16 5 = 0 := by simp only [fld]; omega
  have f5 : fld w 21 6 = 8 := by simp only [fld]; omega
  have f6 : fld w 27 4 = 12 := by simp only [fld]; omega
  have f7 : fld w 31 1 = bit01 e := by simp only [fld]; omega
  refine close w _ (by omega) ?_ hwf
  simp [decodeMajor, decCT, flag, bits, guardF, bit01_eq, f0, f1, f2, f3, f4, f5, f6, f7]
theorem fence (e : Bool) (scope : BitVec 3) (kind : FenceKind) (mask : BitVec 16) : Statement (.fence e scope kind mask) := by
  intro hwf w hw
  simp only [encode, Option.some.injEq, put31_18_16_0] at hw
  have l_e := bit01_lt e
  have l_scope := scope.isLt
  have l_kind := fencekind_lt kind
  have l_mask := mask.isLt
  have f0 : fld w 0 16 = mask.toNat := by simp only [fld]; omega
  have f1 : fld w 16 2 = kind.code := by simp only [fld]; omega
  have f2 : fld w 18 3 = scope.toNat := by simp only [fld]; omega
  have f3 : fld w 21 6 = 9 := by simp only [fld]; omega
  have f4 : fld w 27 4 = 12 := by simp only [fld]; omega
  have f5 : fld w 31 1 = bit01 e := by simp only [fld]; omega
  refine close w _ (by omega) ?_ hwf
  simp [decodeMajor, decCT, flag, bits, need, bit01_eq, fencekind_code, f0, f1, f2, f3, f4, f5]
theorem trap (e : Bool) (code : BitVec 16) : Statement (.trap e code) := by
  intro hwf w hw
  simp only [encode, Option.some.injEq, put31_0] at hw
  have l_e := bit01_lt e
  have l_code := code.isLt
  have f0 : fld w 0 16 = code.toNat := by simp only [fld]; omega
  have f1 : fld w 16 5 = 0 := by simp only [fld]; omega
  have f2 : fld w 21 6 = 10 := by simp only [fld]; omega
  have f3 : fld w 27 4 = 12 := by simp only [fld]; omega
  have f4 : fld w 31 1 = bit01 e := by simp only [fld]; omega
  refine close w _ (by omega) ?_ hwf
  simp [decodeMajor, decCT, flag, bits, guardF, bit01_eq, f0, f1, f2, f3, f4]
theorem syscall (d : Reg) (a : Reg) (n : BitVec 7) : Statement (.syscall d a n) := by
  intro hwf w hw
  simp only [encode, Option.some.injEq, put14_7_0] at hw
  have l_d := d.isLt
  have l_a := a.isLt
  have l_n := n.isLt
  have f0 : fld w 0 7 = n.toNat := by simp only [fld]; omega
  have f1 : fld w 7 7 = a.toNat := by simp only [fld]; omega
  have f2 : fld w 14 7 = d.toNat := by simp only [fld]; omega
  have f3 : fld w 21 6 = 12 := by simp only [fld]; omega
  have f4 : fld w 27 4 = 12 := by simp only [fld]; omega
  have f5 : fld w 31 1 = 1 := by simp only [fld]; omega
  refine close w _ (by omega) ?_ hwf
  simp [decodeMajor, decCT, flag, bits, guardB, f0, f1, f2, f3, f4, f5]
theorem uimask (e : Bool) (m : Bool) : Statement (.uimask e m) := by
  intro hwf w hw
  simp only [encode, Option.some.injEq, put31_0] at hw
  have l_e := bit01_lt e
  have l_m := bit01_lt m
  have f0 : fld w 0 1 = bit01 m := by simp only [fld]; omega
  have f1 : fld w 1 20 = 0 := by simp only [fld]; omega
  have f2 : fld w 21 6 = 14 := by simp only [fld]; omega
  have f3 : fld w 27 4 = 12 := by simp only [fld]; omega
  have f4 : fld w 31 1 = bit01 e := by simp only [fld]; omega
  refine close w _ (by omega) ?_ hwf
  simp [decodeMajor, decCT, flag, guardF, bit01_eq, f0, f1, f2, f3, f4]
theorem sread (e : Bool) (d : Reg) (n : BitVec 9) : Statement (.sread e d n) := by
  intro hwf w hw
  simp only [encode, Option.some.injEq, put31_14_5] at hw
  have l_e := bit01_lt e
  have l_d := d.isLt
  have l_n := n.isLt
  have f0 : fld w 0 5 = 0 := by simp only [fld]; omega
  have f1 : fld w 5 9 = n.toNat := by simp only [fld]; omega
  have f2 : fld w 14 7 = d.toNat := by simp only [fld]; omega
  have f3 : fld w 21 6 = 16 := by simp only [fld]; omega
  have f4 : fld w 27 4 = 12 := by simp only [fld]; omega
  have f5 : fld w 31 1 = bit01 e := by simp only [fld]; omega
  refine close w _ (by omega) ?_ hwf
  simp [decodeMajor, decCT, flag, bits, guardF, bit01_eq, f0, f1, f2, f3, f4, f5]
theorem swrite (e : Bool) (a : Reg) (n : BitVec 9) : Statement (.swrite e a n) := by
  intro hwf w hw
  simp only [encode, Option.some.injEq, put31_14_5] at hw
  have l_e := bit01_lt e
  have l_a := a.isLt
  have l_n := n.isLt
  have f0 : fld w 0 5 = 0 := by simp only [fld]; omega
  have f1 : fld w 5 9 = n.toNat := by simp only [fld]; omega
  have f2 : fld w 14 7 = a.toNat := by simp only [fld]; omega
  have f3 : fld w 21 6 = 17 := by simp only [fld]; omega
  have f4 : fld w 27 4 = 12 := by simp only [fld]; omega
  have f5 : fld w 31 1 = bit01 e := by simp only [fld]; omega
  refine close w _ (by omega) ?_ hwf
  simp [decodeMajor, decCT, flag, bits, guardF, bit01_eq, f0, f1, f2, f3, f4, f5]
theorem tlbinv (e : Bool) (a : Reg) (b : Reg) : Statement (.tlbinv e a b) := by
  intro hwf w hw
  simp only [encode, Option.some.injEq, put31_7_0] at hw
  have l_e := bit01_lt e
  have l_a := a.isLt
  have l_b := b.isLt
  have f0 : fld w 0 7 = b.toNat := by simp only [fld]; omega
  have f1 : fld w 7 7 = a.toNat := by simp only [fld]; omega
  have f2 : fld w 14 7 = 0 := by simp only [fld]; omega
  have f3 : fld w 21 6 = 18 := by simp only [fld]; omega
  have f4 : fld w 27 4 = 12 := by simp only [fld]; omega
  have f5 : fld w 31 1 = bit01 e := by simp only [fld]; omega
  refine close w _ (by omega) ?_ hwf
  simp [decodeMajor, decCT, flag, bits, guardF, bit01_eq, f0, f1, f2, f3, f4, f5]
theorem cpost (e : Bool) (a : Reg) (ch : BitVec 2) : Statement (.cpost e a ch) := by
  intro hwf w hw
  simp only [encode, Option.some.injEq, put31_7_0] at hw
  have l_e := bit01_lt e
  have l_a := a.isLt
  have l_ch := ch.isLt
  have f0 : fld w 0 2 = ch.toNat := by simp only [fld]; omega
  have f1 : fld w 2 5 = 0 := by simp only [fld]; omega
  have f2 : fld w 7 7 = a.toNat := by simp only [fld]; omega
  have f3 : fld w 14 7 = 0 := by simp only [fld]; omega
  have f4 : fld w 21 6 = 0 := by simp only [fld]; omega
  have f5 : fld w 27 4 = 13 := by simp only [fld]; omega
  have f6 : fld w 31 1 = bit01 e := by simp only [fld]; omega
  refine close w _ (by omega) ?_ hwf
  simp [decodeMajor, decAS, flag, bits, guardF, bit01_eq, f0, f1, f2, f3, f4, f5, f6]
theorem cstat (e : Bool) (d : Reg) (ch : BitVec 2) : Statement (.cstat e d ch) := by
  intro hwf w hw
  simp only [encode, Option.some.injEq, put31_14_0] at hw
  have l_e := bit01_lt e
  have l_d := d.isLt
  have l_ch := ch.isLt
  have f0 : fld w 0 2 = ch.toNat := by simp only [fld]; omega
  have f1 : fld w 2 12 = 0 := by simp only [fld]; omega
  have f2 : fld w 14 7 = d.toNat := by simp only [fld]; omega
  have f3 : fld w 21 6 = 1 := by simp only [fld]; omega
  have f4 : fld w 27 4 = 13 := by simp only [fld]; omega
  have f5 : fld w 31 1 = bit01 e := by simp only [fld]; omega
  refine close w _ (by omega) ?_ hwf
  simp [decodeMajor, decAS, flag, bits, guardF, bit01_eq, f0, f1, f2, f3, f4, f5]
theorem tbinit (e : Bool) (a : Reg) (b : Reg) : Statement (.tbinit e a b) := by
  intro hwf w hw
  simp only [encode, Option.some.injEq, put31_7_0] at hw
  have l_e := bit01_lt e
  have l_a := a.isLt
  have l_b := b.isLt
  have f0 : fld w 0 7 = b.toNat := by simp only [fld]; omega
  have f1 : fld w 7 7 = a.toNat := by simp only [fld]; omega
  have f2 : fld w 14 7 = 0 := by simp only [fld]; omega
  have f3 : fld w 21 6 = 2 := by simp only [fld]; omega
  have f4 : fld w 27 4 = 13 := by simp only [fld]; omega
  have f5 : fld w 31 1 = bit01 e := by simp only [fld]; omega
  refine close w _ (by omega) ?_ hwf
  simp [decodeMajor, decAS, flag, bits, guardF, bit01_eq, f0, f1, f2, f3, f4, f5]
theorem tbexp (e : Bool) (a : Reg) (b : Reg) : Statement (.tbexp e a b) := by
  intro hwf w hw
  simp only [encode, Option.some.injEq, put31_7_0] at hw
  have l_e := bit01_lt e
  have l_a := a.isLt
  have l_b := b.isLt
  have f0 : fld w 0 7 = b.toNat := by simp only [fld]; omega
  have f1 : fld w 7 7 = a.toNat := by simp only [fld]; omega
  have f2 : fld w 14 7 = 0 := by simp only [fld]; omega
  have f3 : fld w 21 6 = 3 := by simp only [fld]; omega
  have f4 : fld w 27 4 = 13 := by simp only [fld]; omega
  have f5 : fld w 31 1 = bit01 e := by simp only [fld]; omega
  refine close w _ (by omega) ?_ hwf
  simp [decodeMajor, decAS, flag, bits, guardF, bit01_eq, f0, f1, f2, f3, f4, f5]
theorem tbarv (e : Bool) (a : Reg) : Statement (.tbarv e a) := by
  intro hwf w hw
  simp only [encode, Option.some.injEq, put31_7] at hw
  have l_e := bit01_lt e
  have l_a := a.isLt
  have f0 : fld w 0 2 = 0 := by simp only [fld]; omega
  have f1 : fld w 0 7 = 0 := by simp only [fld]; omega
  have f2 : fld w 7 7 = a.toNat := by simp only [fld]; omega
  have f3 : fld w 14 7 = 0 := by simp only [fld]; omega
  have f4 : fld w 21 6 = 4 := by simp only [fld]; omega
  have f5 : fld w 27 4 = 13 := by simp only [fld]; omega
  have f6 : fld w 31 1 = bit01 e := by simp only [fld]; omega
  refine close w _ (by omega) ?_ hwf
  simp [decodeMajor, decAS, flag, bits, guardF, bit01_eq, f1, f2, f3, f4, f5, f6]
theorem tbwait (e : Bool) (d : Reg) (a : Reg) (b : Reg) : Statement (.tbwait e d a b) := by
  intro hwf w hw
  simp only [encode, Option.some.injEq, put31_14_7_0] at hw
  have l_e := bit01_lt e
  have l_d := d.isLt
  have l_a := a.isLt
  have l_b := b.isLt
  have f0 : fld w 0 7 = b.toNat := by simp only [fld]; omega
  have f1 : fld w 7 7 = a.toNat := by simp only [fld]; omega
  have f2 : fld w 14 7 = d.toNat := by simp only [fld]; omega
  have f3 : fld w 21 6 = 5 := by simp only [fld]; omega
  have f4 : fld w 27 4 = 13 := by simp only [fld]; omega
  have f5 : fld w 31 1 = bit01 e := by simp only [fld]; omega
  refine close w _ (by omega) ?_ hwf
  simp [decodeMajor, decAS, flag, bits, bit01_eq, f0, f1, f2, f3, f4, f5]
theorem bar (e : Bool) (team : Bool) : Statement (.bar e team) := by
  intro hwf w hw
  simp only [encode, Option.some.injEq, put31_0] at hw
  have l_e := bit01_lt e
  have l_team := bit01_lt team
  have f0 : fld w 0 1 = bit01 team := by simp only [fld]; omega
  have f1 : fld w 1 20 = 0 := by simp only [fld]; omega
  have f2 : fld w 21 6 = 6 := by simp only [fld]; omega
  have f3 : fld w 27 4 = 13 := by simp only [fld]; omega
  have f4 : fld w 31 1 = bit01 e := by simp only [fld]; omega
  refine close w _ (by omega) ?_ hwf
  simp [decodeMajor, decAS, flag, guardF, bit01_eq, f0, f1, f2, f3, f4]
theorem bara (e : Bool) (team : Bool) : Statement (.bara e team) := by
  intro hwf w hw
  simp only [encode, Option.some.injEq, put31_0] at hw
  have l_e := bit01_lt e
  have l_team := bit01_lt team
  have f0 : fld w 0 1 = bit01 team := by simp only [fld]; omega
  have f1 : fld w 1 20 = 0 := by simp only [fld]; omega
  have f2 : fld w 21 6 = 7 := by simp only [fld]; omega
  have f3 : fld w 27 4 = 13 := by simp only [fld]; omega
  have f4 : fld w 31 1 = bit01 e := by simp only [fld]; omega
  refine close w _ (by omega) ?_ hwf
  simp [decodeMajor, decAS, flag, guardF, bit01_eq, f0, f1, f2, f3, f4]
theorem barw (e : Bool) (team : Bool) : Statement (.barw e team) := by
  intro hwf w hw
  simp only [encode, Option.some.injEq, put31_0] at hw
  have l_e := bit01_lt e
  have l_team := bit01_lt team
  have f0 : fld w 0 1 = bit01 team := by simp only [fld]; omega
  have f1 : fld w 1 20 = 0 := by simp only [fld]; omega
  have f2 : fld w 21 6 = 8 := by simp only [fld]; omega
  have f3 : fld w 27 4 = 13 := by simp only [fld]; omega
  have f4 : fld w 31 1 = bit01 e := by simp only [fld]; omega
  refine close w _ (by omega) ?_ hwf
  simp [decodeMajor, decAS, flag, guardF, bit01_eq, f0, f1, f2, f3, f4]
theorem tkres (e : Bool) (d : Reg) (a : Reg) (pd : PReg) : Statement (.tkres e d a pd) := by
  intro hwf w hw
  simp only [encode, Option.some.injEq, put31_14_7_0] at hw
  have l_e := bit01_lt e
  have l_d := d.isLt
  have l_a := a.isLt
  have l_pd := pd.isLt
  have f0 : fld w 0 4 = pd.toNat := by simp only [fld]; omega
  have f1 : fld w 4 3 = 0 := by simp only [fld]; omega
  have f2 : fld w 7 7 = a.toNat := by simp only [fld]; omega
  have f3 : fld w 14 7 = d.toNat := by simp only [fld]; omega
  have f4 : fld w 21 6 = 9 := by simp only [fld]; omega
  have f5 : fld w 27 4 = 13 := by simp only [fld]; omega
  have f6 : fld w 31 1 = bit01 e := by simp only [fld]; omega
  refine close w _ (by omega) ?_ hwf
  simp [decodeMajor, decAS, flag, bits, guardF, bit01_eq, f0, f1, f2, f3, f4, f5, f6]
theorem tkcom (e : Bool) (a : Reg) : Statement (.tkcom e a) := by
  intro hwf w hw
  simp only [encode, Option.some.injEq, put31_7] at hw
  have l_e := bit01_lt e
  have l_a := a.isLt
  have f0 : fld w 0 2 = 0 := by simp only [fld]; omega
  have f1 : fld w 0 7 = 0 := by simp only [fld]; omega
  have f2 : fld w 7 7 = a.toNat := by simp only [fld]; omega
  have f3 : fld w 14 7 = 0 := by simp only [fld]; omega
  have f4 : fld w 21 6 = 10 := by simp only [fld]; omega
  have f5 : fld w 27 4 = 13 := by simp only [fld]; omega
  have f6 : fld w 31 1 = bit01 e := by simp only [fld]; omega
  refine close w _ (by omega) ?_ hwf
  simp [decodeMajor, decAS, flag, bits, guardF, bit01_eq, f1, f2, f3, f4, f5, f6]
theorem tkdrop (e : Bool) (a : Reg) : Statement (.tkdrop e a) := by
  intro hwf w hw
  simp only [encode, Option.some.injEq, put31_7] at hw
  have l_e := bit01_lt e
  have l_a := a.isLt
  have f0 : fld w 0 2 = 0 := by simp only [fld]; omega
  have f1 : fld w 0 7 = 0 := by simp only [fld]; omega
  have f2 : fld w 7 7 = a.toNat := by simp only [fld]; omega
  have f3 : fld w 14 7 = 0 := by simp only [fld]; omega
  have f4 : fld w 21 6 = 11 := by simp only [fld]; omega
  have f5 : fld w 27 4 = 13 := by simp only [fld]; omega
  have f6 : fld w 31 1 = bit01 e := by simp only [fld]; omega
  refine close w _ (by omega) ?_ hwf
  simp [decodeMajor, decAS, flag, bits, guardF, bit01_eq, f1, f2, f3, f4, f5, f6]
theorem ccarm (e : Bool) (d : Reg) (a : Reg) : Statement (.ccarm e d a) := by
  intro hwf w hw
  simp only [encode, Option.some.injEq, put31_14_7] at hw
  have l_e := bit01_lt e
  have l_d := d.isLt
  have l_a := a.isLt
  have f0 : fld w 0 2 = 0 := by simp only [fld]; omega
  have f1 : fld w 0 7 = 0 := by simp only [fld]; omega
  have f2 : fld w 7 7 = a.toNat := by simp only [fld]; omega
  have f3 : fld w 14 7 = d.toNat := by simp only [fld]; omega
  have f4 : fld w 21 6 = 12 := by simp only [fld]; omega
  have f5 : fld w 27 4 = 13 := by simp only [fld]; omega
  have f6 : fld w 31 1 = bit01 e := by simp only [fld]; omega
  refine close w _ (by omega) ?_ hwf
  simp [decodeMajor, decAS, flag, bits, guardF, bit01_eq, f1, f2, f3, f4, f5, f6]
theorem ccread (e : Bool) (d : Reg) (a : Reg) : Statement (.ccread e d a) := by
  intro hwf w hw
  simp only [encode, Option.some.injEq, put31_14_7] at hw
  have l_e := bit01_lt e
  have l_d := d.isLt
  have l_a := a.isLt
  have f0 : fld w 0 2 = 0 := by simp only [fld]; omega
  have f1 : fld w 0 7 = 0 := by simp only [fld]; omega
  have f2 : fld w 7 7 = a.toNat := by simp only [fld]; omega
  have f3 : fld w 14 7 = d.toNat := by simp only [fld]; omega
  have f4 : fld w 21 6 = 13 := by simp only [fld]; omega
  have f5 : fld w 27 4 = 13 := by simp only [fld]; omega
  have f6 : fld w 31 1 = bit01 e := by simp only [fld]; omega
  refine close w _ (by omega) ?_ hwf
  simp [decodeMajor, decAS, flag, bits, guardF, bit01_eq, f1, f2, f3, f4, f5, f6]
theorem ccdis (e : Bool) (a : Reg) : Statement (.ccdis e a) := by
  intro hwf w hw
  simp only [encode, Option.some.injEq, put31_7] at hw
  have l_e := bit01_lt e
  have l_a := a.isLt
  have f0 : fld w 0 2 = 0 := by simp only [fld]; omega
  have f1 : fld w 0 7 = 0 := by simp only [fld]; omega
  have f2 : fld w 7 7 = a.toNat := by simp only [fld]; omega
  have f3 : fld w 14 7 = 0 := by simp only [fld]; omega
  have f4 : fld w 21 6 = 14 := by simp only [fld]; omega
  have f5 : fld w 27 4 = 13 := by simp only [fld]; omega
  have f6 : fld w 31 1 = bit01 e := by simp only [fld]; omega
  refine close w _ (by omega) ?_ hwf
  simp [decodeMajor, decAS, flag, bits, guardF, bit01_eq, f1, f2, f3, f4, f5, f6]
theorem psend (e : Bool) (a : Reg) (b : Reg) : Statement (.psend e a b) := by
  intro hwf w hw
  simp only [encode, Option.some.injEq, put31_7_0] at hw
  have l_e := bit01_lt e
  have l_a := a.isLt
  have l_b := b.isLt
  have f0 : fld w 0 7 = b.toNat := by simp only [fld]; omega
  have f1 : fld w 7 7 = a.toNat := by simp only [fld]; omega
  have f2 : fld w 14 7 = 0 := by simp only [fld]; omega
  have f3 : fld w 21 6 = 15 := by simp only [fld]; omega
  have f4 : fld w 27 4 = 13 := by simp only [fld]; omega
  have f5 : fld w 31 1 = bit01 e := by simp only [fld]; omega
  refine close w _ (by omega) ?_ hwf
  simp [decodeMajor, decAS, flag, bits, guardF, bit01_eq, f0, f1, f2, f3, f4, f5]
theorem precv (e : Bool) (d : Reg) (a : Reg) : Statement (.precv e d a) := by
  intro hwf w hw
  simp only [encode, Option.some.injEq, put31_14_7] at hw
  have l_e := bit01_lt e
  have l_d := d.isLt
  have l_a := a.isLt
  have f0 : fld w 0 2 = 0 := by simp only [fld]; omega
  have f1 : fld w 0 7 = 0 := by simp only [fld]; omega
  have f2 : fld w 7 7 = a.toNat := by simp only [fld]; omega
  have f3 : fld w 14 7 = d.toNat := by simp only [fld]; omega
  have f4 : fld w 21 6 = 16 := by simp only [fld]; omega
  have f5 : fld w 27 4 = 13 := by simp only [fld]; omega
  have f6 : fld w 31 1 = bit01 e := by simp only [fld]; omega
  refine close w _ (by omega) ?_ hwf
  simp [decodeMajor, decAS, flag, bits, guardF, bit01_eq, f1, f2, f3, f4, f5, f6]
theorem pprobe (e : Bool) (d : Reg) (a : Reg) : Statement (.pprobe e d a) := by
  intro hwf w hw
  simp only [encode, Option.some.injEq, put31_14_7] at hw
  have l_e := bit01_lt e
  have l_d := d.isLt
  have l_a := a.isLt
  have f0 : fld w 0 2 = 0 := by simp only [fld]; omega
  have f1 : fld w 0 7 = 0 := by simp only [fld]; omega
  have f2 : fld w 7 7 = a.toNat := by simp only [fld]; omega
  have f3 : fld w 14 7 = d.toNat := by simp only [fld]; omega
  have f4 : fld w 21 6 = 17 := by simp only [fld]; omega
  have f5 : fld w 27 4 = 13 := by simp only [fld]; omega
  have f6 : fld w 31 1 = bit01 e := by simp only [fld]; omega
  refine close w _ (by omega) ?_ hwf
  simp [decodeMajor, decAS, flag, bits, guardF, bit01_eq, f1, f2, f3, f4, f5, f6]
theorem txbegin (e : Bool) (d : Reg) (pd : PReg) : Statement (.txbegin e d pd) := by
  intro hwf w hw
  simp only [encode, Option.some.injEq, put31_14_0] at hw
  have l_e := bit01_lt e
  have l_d := d.isLt
  have l_pd := pd.isLt
  have f0 : fld w 0 4 = pd.toNat := by simp only [fld]; omega
  have f1 : fld w 4 10 = 0 := by simp only [fld]; omega
  have f2 : fld w 14 7 = d.toNat := by simp only [fld]; omega
  have f3 : fld w 21 6 = 18 := by simp only [fld]; omega
  have f4 : fld w 27 4 = 13 := by simp only [fld]; omega
  have f5 : fld w 31 1 = bit01 e := by simp only [fld]; omega
  refine close w _ (by omega) ?_ hwf
  simp [decodeMajor, decAS, flag, bits, guardF, bit01_eq, f0, f1, f2, f3, f4, f5]
theorem txend (pd : PReg) : Statement (.txend pd) := by
  intro hwf w hw
  simp only [encode, Option.some.injEq, put0] at hw
  have l_pd := pd.isLt
  have f0 : fld w 0 4 = pd.toNat := by simp only [fld]; omega
  have f1 : fld w 4 17 = 0 := by simp only [fld]; omega
  have f2 : fld w 21 6 = 19 := by simp only [fld]; omega
  have f3 : fld w 27 4 = 13 := by simp only [fld]; omega
  have f4 : fld w 31 1 = 1 := by simp only [fld]; omega
  refine close w _ (by omega) ?_ hwf
  simp [decodeMajor, decAS, flag, bits, guardF, guardB, f0, f1, f2, f3, f4]
theorem txabort (e : Bool) : Statement (.txabort e) := by
  intro hwf w hw
  simp only [encode, Option.some.injEq, put31] at hw
  have l_e := bit01_lt e
  have f0 : fld w 0 2 = 0 := by simp only [fld]; omega
  have f1 : fld w 0 21 = 0 := by simp only [fld]; omega
  have f2 : fld w 21 6 = 20 := by simp only [fld]; omega
  have f3 : fld w 27 4 = 13 := by simp only [fld]; omega
  have f4 : fld w 31 1 = bit01 e := by simp only [fld]; omega
  refine close w _ (by omega) ?_ hwf
  simp [decodeMajor, decAS, flag, guardF, bit01_eq, f1, f2, f3, f4]
theorem txstat (e : Bool) (d : Reg) (a : Reg) : Statement (.txstat e d a) := by
  intro hwf w hw
  simp only [encode, Option.some.injEq, put31_14_7] at hw
  have l_e := bit01_lt e
  have l_d := d.isLt
  have l_a := a.isLt
  have f0 : fld w 0 2 = 0 := by simp only [fld]; omega
  have f1 : fld w 0 7 = 0 := by simp only [fld]; omega
  have f2 : fld w 7 7 = a.toNat := by simp only [fld]; omega
  have f3 : fld w 14 7 = d.toNat := by simp only [fld]; omega
  have f4 : fld w 21 6 = 21 := by simp only [fld]; omega
  have f5 : fld w 27 4 = 13 := by simp only [fld]; omega
  have f6 : fld w 31 1 = bit01 e := by simp only [fld]; omega
  refine close w _ (by omega) ?_ hwf
  simp [decodeMajor, decAS, flag, bits, guardF, bit01_eq, f1, f2, f3, f4, f5, f6]
theorem feed (e : Bool) (q : BitVec 3) (a : Reg) : Statement (.feed e q a) := by
  intro hwf w hw
  simp only [encode, Option.some.injEq, put31_14_7] at hw
  have l_e := bit01_lt e
  have l_q := q.isLt
  have l_a := a.isLt
  have f0 : fld w 0 2 = 0 := by simp only [fld]; omega
  have f1 : fld w 0 7 = 0 := by simp only [fld]; omega
  have f2 : fld w 7 7 = a.toNat := by simp only [fld]; omega
  have f3 : fld w 14 3 = q.toNat := by simp only [fld]; omega
  have f4 : fld w 17 4 = 15 := by simp only [fld]; omega
  have f5 : fld w 21 6 = 22 := by simp only [fld]; omega
  have f6 : fld w 27 4 = 13 := by simp only [fld]; omega
  have f7 : fld w 31 1 = bit01 e := by simp only [fld]; omega
  refine close w _ (by omega) ?_ hwf
  simp [decodeMajor, decAS, flag, bits, guardF, bit01_eq, f1, f2, f3, f4, f5, f6, f7]
theorem fstop (e : Bool) (q : BitVec 3) : Statement (.fstop e q) := by
  intro hwf w hw
  simp only [encode, Option.some.injEq, put31_14] at hw
  have l_e := bit01_lt e
  have l_q := q.isLt
  have f0 : fld w 0 2 = 0 := by simp only [fld]; omega
  have f1 : fld w 0 14 = 0 := by simp only [fld]; omega
  have f2 : fld w 14 3 = q.toNat := by simp only [fld]; omega
  have f3 : fld w 17 4 = 15 := by simp only [fld]; omega
  have f4 : fld w 21 6 = 23 := by simp only [fld]; omega
  have f5 : fld w 27 4 = 13 := by simp only [fld]; omega
  have f6 : fld w 31 1 = bit01 e := by simp only [fld]; omega
  refine close w _ (by omega) ?_ hwf
  simp [decodeMajor, decAS, flag, bits, guardF, bit01_eq, f1, f2, f3, f4, f5, f6]
theorem trace (a : Reg) (b : Reg) : Statement (.trace a b) := by
  intro hwf w hw
  simp only [encode, Option.some.injEq, put7_0] at hw
  have l_a := a.isLt
  have l_b := b.isLt
  have f0 : fld w 0 7 = b.toNat := by simp only [fld]; omega
  have f1 : fld w 7 7 = a.toNat := by simp only [fld]; omega
  have f2 : fld w 14 7 = 0 := by simp only [fld]; omega
  have f3 : fld w 21 6 = 24 := by simp only [fld]; omega
  have f4 : fld w 27 4 = 13 := by simp only [fld]; omega
  have f5 : fld w 31 1 = 1 := by simp only [fld]; omega
  refine close w _ (by omega) ?_ hwf
  simp [decodeMajor, decAS, flag, bits, guardF, guardB, f0, f1, f2, f3, f4, f5]
theorem texc (a : Reg) (b : Reg) : Statement (.texc a b) := by
  intro hwf w hw
  simp only [encode, Option.some.injEq, put7_0] at hw
  have l_a := a.isLt
  have l_b := b.isLt
  have f0 : fld w 0 7 = b.toNat := by simp only [fld]; omega
  have f1 : fld w 7 7 = a.toNat := by simp only [fld]; omega
  have f2 : fld w 14 7 = 0 := by simp only [fld]; omega
  have f3 : fld w 21 6 = 25 := by simp only [fld]; omega
  have f4 : fld w 27 4 = 13 := by simp only [fld]; omega
  have f5 : fld w 31 1 = 1 := by simp only [fld]; omega
  refine close w _ (by omega) ?_ hwf
  simp [decodeMajor, decAS, flag, bits, guardF, guardB, f0, f1, f2, f3, f4, f5]
theorem hitrepAccept (e : Bool) : Statement (.hitrepAccept e) := by
  intro hwf w hw
  simp only [encode, Option.some.injEq, put31] at hw
  have l_e := bit01_lt e
  have f0 : fld w 0 2 = 0 := by simp only [fld]; omega
  have f1 : fld w 2 19 = 0 := by simp only [fld]; omega
  have f2 : fld w 21 6 = 26 := by simp only [fld]; omega
  have f3 : fld w 27 4 = 13 := by simp only [fld]; omega
  have f4 : fld w 31 1 = bit01 e := by simp only [fld]; omega
  refine close w _ (by omega) ?_ hwf
  simp [decodeMajor, decAS, flag, guardF, bit01_eq, f0, f1, f2, f3, f4]
theorem hitrepIgnore (e : Bool) : Statement (.hitrepIgnore e) := by
  intro hwf w hw
  simp only [encode, Option.some.injEq, put31] at hw
  have l_e := bit01_lt e
  have f0 : fld w 0 2 = 1 := by simp only [fld]; omega
  have f1 : fld w 2 19 = 0 := by simp only [fld]; omega
  have f2 : fld w 21 6 = 26 := by simp only [fld]; omega
  have f3 : fld w 27 4 = 13 := by simp only [fld]; omega
  have f4 : fld w 31 1 = bit01 e := by simp only [fld]; omega
  refine close w _ (by omega) ?_ hwf
  simp [decodeMajor, decAS, flag, guardF, bit01_eq, f0, f1, f2, f3, f4]
theorem hitrepTerminate (e : Bool) : Statement (.hitrepTerminate e) := by
  intro hwf w hw
  simp only [encode, Option.some.injEq, put31] at hw
  have l_e := bit01_lt e
  have f0 : fld w 0 2 = 2 := by simp only [fld]; omega
  have f1 : fld w 2 19 = 0 := by simp only [fld]; omega
  have f2 : fld w 21 6 = 26 := by simp only [fld]; omega
  have f3 : fld w 27 4 = 13 := by simp only [fld]; omega
  have f4 : fld w 31 1 = bit01 e := by simp only [fld]; omega
  refine close w _ (by omega) ?_ hwf
  simp [decodeMajor, decAS, flag, guardF, bit01_eq, f0, f1, f2, f3, f4]
theorem rwres (e : Bool) (d : Reg) (a : Reg) (pd : PReg) : Statement (.rwres e d a pd) := by
  intro hwf w hw
  simp only [encode, Option.some.injEq, put31_14_7_0] at hw
  have l_e := bit01_lt e
  have l_d := d.isLt
  have l_a := a.isLt
  have l_pd := pd.isLt
  have f0 : fld w 0 4 = pd.toNat := by simp only [fld]; omega
  have f1 : fld w 4 3 = 0 := by simp only [fld]; omega
  have f2 : fld w 7 7 = a.toNat := by simp only [fld]; omega
  have f3 : fld w 14 7 = d.toNat := by simp only [fld]; omega
  have f4 : fld w 21 6 = 27 := by simp only [fld]; omega
  have f5 : fld w 27 4 = 13 := by simp only [fld]; omega
  have f6 : fld w 31 1 = bit01 e := by simp only [fld]; omega
  refine close w _ (by omega) ?_ hwf
  simp [decodeMajor, decAS, flag, bits, guardF, bit01_eq, f0, f1, f2, f3, f4, f5, f6]
theorem rwpost (e : Bool) (a : Reg) (b : Reg) : Statement (.rwpost e a b) := by
  intro hwf w hw
  simp only [encode, Option.some.injEq, put31_7_0] at hw
  have l_e := bit01_lt e
  have l_a := a.isLt
  have l_b := b.isLt
  have f0 : fld w 0 7 = b.toNat := by simp only [fld]; omega
  have f1 : fld w 7 7 = a.toNat := by simp only [fld]; omega
  have f2 : fld w 14 7 = 0 := by simp only [fld]; omega
  have f3 : fld w 21 6 = 28 := by simp only [fld]; omega
  have f4 : fld w 27 4 = 13 := by simp only [fld]; omega
  have f5 : fld w 31 1 = bit01 e := by simp only [fld]; omega
  refine close w _ (by omega) ?_ hwf
  simp [decodeMajor, decAS, flag, bits, guardF, bit01_eq, f0, f1, f2, f3, f4, f5]
theorem netjob (e : Bool) (a : Reg) : Statement (.netjob e a) := by
  intro hwf w hw
  simp only [encode, Option.some.injEq, put31_7] at hw
  have l_e := bit01_lt e
  have l_a := a.isLt
  have f0 : fld w 0 2 = 0 := by simp only [fld]; omega
  have f1 : fld w 0 7 = 0 := by simp only [fld]; omega
  have f2 : fld w 7 7 = a.toNat := by simp only [fld]; omega
  have f3 : fld w 14 7 = 0 := by simp only [fld]; omega
  have f4 : fld w 21 6 = 29 := by simp only [fld]; omega
  have f5 : fld w 27 4 = 13 := by simp only [fld]; omega
  have f6 : fld w 31 1 = bit01 e := by simp only [fld]; omega
  refine close w _ (by omega) ?_ hwf
  simp [decodeMajor, decAS, flag, bits, guardF, bit01_eq, f1, f2, f3, f4, f5, f6]
theorem nstat (e : Bool) (d : Reg) (a : Reg) : Statement (.nstat e d a) := by
  intro hwf w hw
  simp only [encode, Option.some.injEq, put31_14_7] at hw
  have l_e := bit01_lt e
  have l_d := d.isLt
  have l_a := a.isLt
  have f0 : fld w 0 2 = 0 := by simp only [fld]; omega
  have f1 : fld w 0 7 = 0 := by simp only [fld]; omega
  have f2 : fld w 7 7 = a.toNat := by simp only [fld]; omega
  have f3 : fld w 14 7 = d.toNat := by simp only [fld]; omega
  have f4 : fld w 21 6 = 30 := by simp only [fld]; omega
  have f5 : fld w 27 4 = 13 := by simp only [fld]; omega
  have f6 : fld w 31 1 = bit01 e := by simp only [fld]; omega
  refine close w _ (by omega) ?_ hwf
  simp [decodeMajor, decAS, flag, bits, guardF, bit01_eq, f1, f2, f3, f4, f5, f6]
theorem pref (e : Bool) (a : Reg) : Statement (.pref e a) := by
  intro hwf w hw
  simp only [encode, Option.some.injEq, put31_7] at hw
  have l_e := bit01_lt e
  have l_a := a.isLt
  have f0 : fld w 0 2 = 0 := by simp only [fld]; omega
  have f1 : fld w 0 7 = 0 := by simp only [fld]; omega
  have f2 : fld w 7 7 = a.toNat := by simp only [fld]; omega
  have f3 : fld w 14 7 = 0 := by simp only [fld]; omega
  have f4 : fld w 21 6 = 31 := by simp only [fld]; omega
  have f5 : fld w 27 4 = 13 := by simp only [fld]; omega
  have f6 : fld w 31 1 = bit01 e := by simp only [fld]; omega
  refine close w _ (by omega) ?_ hwf
  simp [decodeMajor, decAS, flag, bits, guardF, bit01_eq, f1, f2, f3, f4, f5, f6]
theorem flush (e : Bool) (a : Reg) (b : Reg) : Statement (.flush e a b) := by
  intro hwf w hw
  simp only [encode, Option.some.injEq, put31_7_0] at hw
  have l_e := bit01_lt e
  have l_a := a.isLt
  have l_b := b.isLt
  have f0 : fld w 0 7 = b.toNat := by simp only [fld]; omega
  have f1 : fld w 7 7 = a.toNat := by simp only [fld]; omega
  have f2 : fld w 14 7 = 0 := by simp only [fld]; omega
  have f3 : fld w 21 6 = 32 := by simp only [fld]; omega
  have f4 : fld w 27 4 = 13 := by simp only [fld]; omega
  have f5 : fld w 31 1 = bit01 e := by simp only [fld]; omega
  refine close w _ (by omega) ?_ hwf
  simp [decodeMajor, decAS, flag, bits, guardF, bit01_eq, f0, f1, f2, f3, f4, f5]
theorem inval (e : Bool) (a : Reg) (b : Reg) : Statement (.inval e a b) := by
  intro hwf w hw
  simp only [encode, Option.some.injEq, put31_7_0] at hw
  have l_e := bit01_lt e
  have l_a := a.isLt
  have l_b := b.isLt
  have f0 : fld w 0 7 = b.toNat := by simp only [fld]; omega
  have f1 : fld w 7 7 = a.toNat := by simp only [fld]; omega
  have f2 : fld w 14 7 = 0 := by simp only [fld]; omega
  have f3 : fld w 21 6 = 33 := by simp only [fld]; omega
  have f4 : fld w 27 4 = 13 := by simp only [fld]; omega
  have f5 : fld w 31 1 = bit01 e := by simp only [fld]; omega
  refine close w _ (by omega) ?_ hwf
  simp [decodeMajor, decAS, flag, bits, guardF, bit01_eq, f0, f1, f2, f3, f4, f5]
theorem xwImm (payload : BitVec 24) : Statement (.xwImm payload) := by
  intro hwf w hw
  simp only [encode, Option.some.injEq, put0] at hw
  have l_payload := payload.isLt
  have f0 : fld w 0 24 = payload.toNat := by simp only [fld]; omega
  have f1 : fld w 24 3 = 0 := by simp only [fld]; omega
  have f2 : fld w 27 4 = 15 := by simp only [fld]; omega
  have f3 : fld w 31 1 = 0 := by simp only [fld]; omega
  refine close w _ (by omega) ?_ hwf
  simp [decodeMajor, decXW, flag, bits, guardF, f0, f1, f2, f3]
theorem xwGuard (pol : Bool) (p : PReg) : Statement (.xwGuard pol p) := by
  intro hwf w hw
  simp only [encode, Option.some.injEq, put4_0] at hw
  have l_pol := bit01_lt pol
  have l_p := p.isLt
  have f0 : fld w 0 4 = p.toNat := by simp only [fld]; omega
  have f1 : fld w 4 1 = bit01 pol := by simp only [fld]; omega
  have f2 : fld w 5 19 = 0 := by simp only [fld]; omega
  have f3 : fld w 24 3 = 1 := by simp only [fld]; omega
  have f4 : fld w 27 4 = 15 := by simp only [fld]; omega
  have f5 : fld w 31 1 = 0 := by simp only [fld]; omega
  refine close w _ (by omega) ?_ hwf
  simp [decodeMajor, decXW, flag, bits, guardF, bit01_eq, f0, f1, f2, f3, f4, f5]
theorem xwOrder (policy : BitVec 2) (hasSeq : Bool) (seq : BitVec 4) (hasScope : Bool) (scope : BitVec 3) : Statement (.xwOrder policy hasSeq seq hasScope scope) := by
  intro hwf w hw
  simp only [encode, Option.some.injEq, put9_8_4_3_0] at hw
  have l_policy := policy.isLt
  have l_hasSeq := bit01_lt hasSeq
  have l_seq := seq.isLt
  have l_hasScope := bit01_lt hasScope
  have l_scope := scope.isLt
  have f0 : fld w 0 3 = scope.toNat := by simp only [fld]; omega
  have f1 : fld w 3 1 = bit01 hasScope := by simp only [fld]; omega
  have f2 : fld w 4 4 = seq.toNat := by simp only [fld]; omega
  have f3 : fld w 8 1 = bit01 hasSeq := by simp only [fld]; omega
  have f4 : fld w 9 2 = policy.toNat := by simp only [fld]; omega
  have f5 : fld w 11 13 = 0 := by simp only [fld]; omega
  have f6 : fld w 24 3 = 2 := by simp only [fld]; omega
  have f7 : fld w 27 4 = 15 := by simp only [fld]; omega
  have f8 : fld w 31 1 = 0 := by simp only [fld]; omega
  refine close w _ (by omega) ?_ hwf
  simp [decodeMajor, decXW, flag, bits, guardF, bit01_eq, f0, f1, f2, f3, f4, f5, f6, f7, f8]
theorem xwMask (mask : BitVec 8) : Statement (.xwMask mask) := by
  intro hwf w hw
  simp only [encode, Option.some.injEq, put0] at hw
  have l_mask := mask.isLt
  have f0 : fld w 0 8 = mask.toNat := by simp only [fld]; omega
  have f1 : fld w 8 16 = 0 := by simp only [fld]; omega
  have f2 : fld w 24 3 = 3 := by simp only [fld]; omega
  have f3 : fld w 27 4 = 15 := by simp only [fld]; omega
  have f4 : fld w 31 1 = 0 := by simp only [fld]; omega
  refine close w _ (by omega) ?_ hwf
  simp [decodeMajor, decXW, flag, bits, guardF, f0, f1, f2, f3, f4]
theorem xwRound (dyn : Bool) (sat : Bool) (mode : RMode) : Statement (.xwRound dyn sat mode) := by
  intro hwf w hw
  simp only [encode, Option.some.injEq, put3_2_0] at hw
  have l_dyn := bit01_lt dyn
  have l_sat := bit01_lt sat
  have l_mode := rmode_lt mode
  have f0 : fld w 0 2 = mode.code := by simp only [fld]; omega
  have f1 : fld w 2 1 = bit01 sat := by simp only [fld]; omega
  have f2 : fld w 3 1 = bit01 dyn := by simp only [fld]; omega
  have f3 : fld w 4 20 = 0 := by simp only [fld]; omega
  have f4 : fld w 24 3 = 4 := by simp only [fld]; omega
  have f5 : fld w 27 4 = 15 := by simp only [fld]; omega
  have f6 : fld w 31 1 = 0 := by simp only [fld]; omega
  refine close w _ (by omega) ?_ hwf
  simp [decodeMajor, decXW, flag, need, guardF, bit01_eq, rmode_code, f0, f1, f2, f3, f4, f5, f6]
theorem xwOperand (r : Reg) : Statement (.xwOperand r) := by
  intro hwf w hw
  simp only [encode, Option.some.injEq, put0] at hw
  have l_r := r.isLt
  have f0 : fld w 0 7 = r.toNat := by simp only [fld]; omega
  have f1 : fld w 7 17 = 0 := by simp only [fld]; omega
  have f2 : fld w 24 3 = 5 := by simp only [fld]; omega
  have f3 : fld w 27 4 = 15 := by simp only [fld]; omega
  have f4 : fld w 31 1 = 0 := by simp only [fld]; omega
  refine close w _ (by omega) ?_ hwf
  simp [decodeMajor, decXW, flag, bits, guardF, f0, f1, f2, f3, f4]
theorem xwOffset (off : BitVec 24) : Statement (.xwOffset off) := by
  intro hwf w hw
  simp only [encode, Option.some.injEq, put0] at hw
  have l_off := off.isLt
  have f0 : fld w 0 24 = off.toNat := by simp only [fld]; omega
  have f1 : fld w 24 3 = 6 := by simp only [fld]; omega
  have f2 : fld w 27 4 = 15 := by simp only [fld]; omega
  have f3 : fld w 31 1 = 0 := by simp only [fld]; omega
  refine close w _ (by omega) ?_ hwf
  simp [decodeMajor, decXW, flag, bits, guardF, f0, f1, f2, f3]
theorem queueMap (qid : Nat) : Statement (.queueMap qid) := by intro _ w h; cases h
theorem queueIdleUnmap (qid : Nat) : Statement (.queueIdleUnmap qid) := by intro _ w h; cases h
theorem queueEviction (qid : Nat) : Statement (.queueEviction qid) := by intro _ w h; cases h
theorem queueSuspend (qid : Nat) : Statement (.queueSuspend qid) := by intro _ w h; cases h
theorem launchRecordRead (qid : Nat) : Statement (.launchRecordRead qid) := by intro _ w h; cases h
theorem launchDependencesSatisfied (launch : Nat) : Statement (.launchDependencesSatisfied launch) := by intro _ w h; cases h
theorem launchCancelled (launch : Nat) : Statement (.launchCancelled launch) := by intro _ w h; cases h
theorem distributorRound (part : Nat) : Statement (.distributorRound part) := by intro _ w h; cases h
theorem passedOverTimeout (launch : Nat) : Statement (.passedOverTimeout launch) := by intro _ w h; cases h
theorem priorityChange (task : Bool) (q : Nat) (prio : BitVec 4) : Statement (.priorityChange task q prio) := by intro _ w h; cases h
theorem laneArbitration (core : Nat) (lane : Nat) : Statement (.laneArbitration core lane) := by intro _ w h; cases h
theorem unitArbitration (core : Nat) (unit : CoreUnit) : Statement (.unitArbitration core unit) := by intro _ w h; cases h
theorem resultLanding (op : Nat) : Statement (.resultLanding op) := by intro _ w h; cases h
theorem crewCompletion (crew : Nat) : Statement (.crewCompletion crew) := by intro _ w h; cases h
theorem storePerform (op : Nat) : Statement (.storePerform op) := by intro _ w h; cases h
theorem crumbFiring (firing : Nat) : Statement (.crumbFiring firing) := by intro _ w h; cases h
theorem taskDispatch (qnum : Nat) : Statement (.taskDispatch qnum) := by intro _ w h; cases h
theorem pipeAppend (op : Nat) : Statement (.pipeAppend op) := by intro _ w h; cases h
theorem pipeOverflowSegment (pipe : Nat) : Statement (.pipeOverflowSegment pipe) := by intro _ w h; cases h
theorem pipeCycleInspection (ctx : Nat) : Statement (.pipeCycleInspection ctx) := by intro _ w h; cases h
theorem pipeDestroy (pipe : Nat) : Statement (.pipeDestroy pipe) := by intro _ w h; cases h
theorem copyHeadTaken (core : Nat) (ch : BitVec 2) : Statement (.copyHeadTaken core ch) := by intro _ w h; cases h
theorem transferRecordFetch (core : Nat) (ch : BitVec 2) : Statement (.transferRecordFetch core ch) := by intro _ w h; cases h
theorem sectorLanding (record : Nat) (n : Nat) : Statement (.sectorLanding record n) := by intro _ w h; cases h
theorem recordCompletion (record : Nat) : Statement (.recordCompletion record) := by intro _ w h; cases h
theorem recordPoison (record : Nat) : Statement (.recordPoison record) := by intro _ w h; cases h
theorem userInterruptEntry (crew : Nat) (rank : Nat) : Statement (.userInterruptEntry crew rank) := by intro _ w h; cases h
theorem feedElementFetch (crew : Nat) (rank : Nat) (q : BitVec 3) : Statement (.feedElementFetch crew rank q) := by intro _ w h; cases h
theorem pageWalk (core : Nat) (ctx : Nat) (va : PcAddr) : Statement (.pageWalk core ctx va) := by intro _ w h; cases h
theorem missResolution (miss : Nat) (writes : List (Nat × DWord)) : Statement (.missResolution miss writes) := by intro _ w h; cases h
theorem atsCompletion (miss : Nat) (present : Bool) : Statement (.atsCompletion miss present) := by intro _ w h; cases h
theorem priResponse (miss : Nat) (success : Bool) : Statement (.priResponse miss success) := by intro _ w h; cases h
theorem steppingModeRestart (crew : Nat) : Statement (.steppingModeRestart crew) := by intro _ w h; cases h
theorem deferredPoisonTrap (crew : Nat) (rank : Nat) : Statement (.deferredPoisonTrap crew rank) := by intro _ w h; cases h
theorem teardown (ctx : Nat) : Statement (.teardown ctx) := by intro _ w h; cases h
theorem coreLeavesPartition (core : Nat) : Statement (.coreLeavesPartition core) := by intro _ w h; cases h
theorem interimValidation (crew : Nat) (rank : Nat) : Statement (.interimValidation crew rank) := by intro _ w h; cases h
theorem reductionBufferPass (core : Nat) : Statement (.reductionBufferPass core) := by intro _ w h; cases h
theorem migrationStart (ctx : Nat) (va : PcAddr) (die : Nat) (frame : Nat) : Statement (.migrationStart ctx va die frame) := by intro _ w h; cases h
theorem migrationCopyPassEnd (mig : Nat) : Statement (.migrationCopyPassEnd mig) := by intro _ w h; cases h
theorem migrationInvalidationComplete (mig : Nat) : Statement (.migrationInvalidationComplete mig) := by intro _ w h; cases h
theorem oldFrameFreed (mig : Nat) : Statement (.oldFrameFreed mig) := by intro _ w h; cases h
theorem remoteRequestTimeout (op : Nat) (performed : Bool) : Statement (.remoteRequestTimeout op performed) := by intro _ w h; cases h
theorem sequenceFreeze (op : Nat) : Statement (.sequenceFreeze op) := by intro _ w h; cases h
theorem sequenceResume (crew : Nat) (rank : Nat) (seq : BitVec 4) (resumed : Bool) : Statement (.sequenceResume crew rank seq resumed) := by intro _ w h; cases h
theorem planeRemap (plane : Nat) : Statement (.planeRemap plane) := by intro _ w h; cases h
theorem hostAtomicCompletion (op : Nat) (ok : Bool) : Statement (.hostAtomicCompletion op ok) := by intro _ w h; cases h
theorem l2Writeback (sector : Nat) : Statement (.l2Writeback sector) := by intro _ w h; cases h
theorem atsInvalidationRequest (pasid : BitVec 20) (va : PcAddr) (size : Nat) : Statement (.atsInvalidationRequest pasid va size) := by intro _ w h; cases h
theorem rayRequestCompletion (ray : Nat) : Statement (.rayRequestCompletion ray) := by intro _ w h; cases h
theorem relaunchCrewFormation (launch : Nat) : Statement (.relaunchCrewFormation launch) := by intro _ w h; cases h
theorem anyHitCrewFormation (ray : Nat) : Statement (.anyHitCrewFormation ray) := by intro _ w h; cases h
theorem anyHitReportsApplied (ray : Nat) : Statement (.anyHitReportsApplied ray) := by intro _ w h; cases h
theorem remoteWorkRecordLanding (op : Nat) : Statement (.remoteWorkRecordLanding op) := by intro _ w h; cases h
theorem millefeuilleJobCompletion (job : Nat) : Statement (.millefeuilleJobCompletion job) := by intro _ w h; cases h
theorem millefeuilleMemberTimeout (job : Nat) : Statement (.millefeuilleMemberTimeout job) := by intro _ w h; cases h
theorem encoderSlot (enc : Nat) : Statement (.encoderSlot enc) := by intro _ w h; cases h
theorem frameReady (session : Nat) (frame : Word) : Statement (.frameReady session frame) := by intro _ w h; cases h
theorem eccCorrectedError (arr : SramArray) (unit : Nat) (row : Nat) : Statement (.eccCorrectedError arr unit row) := by intro _ w h; cases h
theorem uncorrectableError (datum : Datum) : Statement (.uncorrectableError datum) := by intro _ w h; cases h
theorem rowRemap (arr : SramArray) (unit : Nat) (row : Nat) : Statement (.rowRemap arr unit row) := by intro _ w h; cases h
theorem jalleyInstanceStop (slice : Nat) : Statement (.jalleyInstanceStop slice) := by intro _ w h; cases h
theorem syscallReply (crew : Nat) (rank : Nat) (reply : List Word) : Statement (.syscallReply crew rank reply) := by intro _ w h; cases h
theorem thermalThrottle (lowered : Bool) : Statement (.thermalThrottle lowered) := by intro _ w h; cases h
theorem tileFillCompletion (op : Nat) : Statement (.tileFillCompletion op) := by intro _ w h; cases h
theorem tileDrainCompletion (op : Nat) : Statement (.tileDrainCompletion op) := by intro _ w h; cases h
theorem ret : Statement .ret := by
  intro hwf w hw
  simp only [encode, Option.some.injEq] at hw
  have f0 : fld w 0 21 = 0 := by simp only [fld]; omega
  have f1 : fld w 21 6 = 3 := by simp only [fld]; omega
  have f2 : fld w 27 4 = 12 := by simp only [fld]; omega
  have f3 : fld w 31 1 = 1 := by simp only [fld]; omega
  refine close w _ (by omega) ?_ hwf
  simp [decodeMajor, decCT, flag, guardF, guardB, f0, f1, f2, f3]
theorem retire : Statement .retire := by
  intro hwf w hw
  simp only [encode, Option.some.injEq] at hw
  have f0 : fld w 0 21 = 0 := by simp only [fld]; omega
  have f1 : fld w 21 6 = 6 := by simp only [fld]; omega
  have f2 : fld w 27 4 = 12 := by simp only [fld]; omega
  have f3 : fld w 31 1 = 1 := by simp only [fld]; omega
  refine close w _ (by omega) ?_ hwf
  simp [decodeMajor, decCT, flag, guardF, guardB, f0, f1, f2, f3]
theorem eret : Statement .eret := by
  intro hwf w hw
  simp only [encode, Option.some.injEq] at hw
  have f0 : fld w 0 21 = 0 := by simp only [fld]; omega
  have f1 : fld w 21 6 = 11 := by simp only [fld]; omega
  have f2 : fld w 27 4 = 12 := by simp only [fld]; omega
  have f3 : fld w 31 1 = 1 := by simp only [fld]; omega
  refine close w _ (by omega) ?_ hwf
  simp [decodeMajor, decCT, flag, guardF, guardB, f0, f1, f2, f3]
theorem uiret : Statement .uiret := by
  intro hwf w hw
  simp only [encode, Option.some.injEq] at hw
  have f0 : fld w 0 21 = 0 := by simp only [fld]; omega
  have f1 : fld w 21 6 = 13 := by simp only [fld]; omega
  have f2 : fld w 27 4 = 12 := by simp only [fld]; omega
  have f3 : fld w 31 1 = 1 := by simp only [fld]; omega
  refine close w _ (by omega) ?_ hwf
  simp [decodeMajor, decCT, flag, guardF, guardB, f0, f1, f2, f3]
theorem notifyWrite : Statement .notifyWrite := by intro _ w h; cases h
theorem preemption : Statement .preemption := by intro _ w h; cases h
theorem partitionResize : Statement .partitionResize := by intro _ w h; cases h
theorem serialTokenGrant : Statement .serialTokenGrant := by intro _ w h; cases h
theorem targetExportCheck : Statement .targetExportCheck := by intro _ w h; cases h
theorem hostLoss : Statement .hostLoss := by intro _ w h; cases h
theorem hostWarmRestart : Statement .hostWarmRestart := by intro _ w h; cases h
theorem consumedWordWrite : Statement .consumedWordWrite := by intro _ w h; cases h
theorem millefeuilleJobStart : Statement .millefeuilleJobStart := by intro _ w h; cases h
theorem boot : Statement .boot := by intro _ w h; cases h
theorem thermalShutdown : Statement .thermalShutdown := by intro _ w h; cases h
theorem contextCreation : Statement .contextCreation := by intro _ w h; cases h
theorem userQueueCreation : Statement .userQueueCreation := by intro _ w h; cases h
theorem taskQueueCreation : Statement .taskQueueCreation := by intro _ w h; cases h
theorem pipeCreation : Statement .pipeCreation := by intro _ w h; cases h
theorem workChannelCreation : Statement .workChannelCreation := by intro _ w h; cases h
theorem groupCreation : Statement .groupCreation := by intro _ w h; cases h
theorem attestationRequest : Statement .attestationRequest := by intro _ w h; cases h

end Sys2Proof.Laws.RoundTrip
end

