-- ==== Sys2Proof/Tests/Slice0.lean ====
section
/-! SUPPORT. Tests of the model: ill-formed words refused, words written out from the tables of the spec, states that meet the hypotheses of each statement, and single steps whose results the spec gives. -/

set_option Elab.async false

namespace Sys2Proof.Tests
open Sys2Proof Sys2Proof.Machine

/-! ### States for tests -/

/-- A register of a test crew: U, or G on row 0. -/
def tReg (tag : Tag) (w : Nat) : Desc := ⟨.u, tag, BitVec.ofNat 32 w, 0⟩

/-- Registers of a test crew: floats in v1 and v2, integers in v3 and v4, an address pair in v5 and v6, packed integers in v7 and v8, matrix fragments in v40 to v71, a return address in v118 and v119; v10 is G. -/
def tRegs : List Desc :=
  (List.range 120).map fun r =>
    if r == 1 then tReg .f32 0x3F800000 else if r == 2 then tReg .f32 0x40000000 else if r == 3 then tReg .si32 16 else if r == 4 then tReg .si32 5
    else if r == 5 then tReg .ui32 0x2000 else if r == 7 || r == 8 then tReg .si8x4 0x01FF0001 else if r == 9 then tReg .ui32 1
    else if r == 10 then ⟨.g, .si32, 0, 0⟩ else if 40 ≤ r && r < 72 then tReg .bf16x2 0x3F803F80 else if r == 80 then tReg .e8m0x4 0x7F
    else if r == 118 then tReg .ui32 0x1010 else tReg .si32 0

/-- A crew of n fibres of a test, its fibres being issued. -/
def tCrew (n : Nat) : Crew :=
  { placeCrew State.reset with
    size := n, regs := tRegs, rows := List.replicate 64 (List.replicate n 7), feeds := 1,
    fibres := List.replicate n { Fibre.fresh 0x1000 1 0 0 with st := .issuing } }

/-- The issue of a test: ranks below n, with extension words. -/
def tIssue (n : Nat) (x : Ext) : Issue := ⟨1, List.range n, true, 0x1000, 0x1000, x, 7, 0, [], 0, false⟩

/-- A state of a test with one crew and its issue at hand; the first GiB is mapped to itself. -/
def tState (c : Crew) (x : Ext) : State := { State.reset.placeWord 0 with crews := [c], cur := some (tIssue c.size x), nextId := 20 }

/-- One fibre of a crew, changed. -/
def tFib (c : Crew) (f : Fibre → Fibre) : Crew := { c with fibres := c.fibres.map f }

def c1 : Crew := tCrew 1
def c2 : Crew := tCrew 2
def s1 : State := tState c1 Ext.zero
def s2 : State := tState c2 Ext.zero
def i1 : Issue := tIssue 1 Ext.zero
def i2 : Issue := tIssue 2 Ext.zero

/-- The states after an outcome, none or one. -/
def nexts (o : Out) : List State := match o with | .next t => [t] | _ => []

def okEq {ε α : Type} [DecidableEq α] (e : Except ε α) (a : α) : Bool := match e with | .ok b => decide (b = a) | .error _ => false
theorem okEq_eq {ε α : Type} [DecidableEq α] {e : Except ε α} {a : α} (h : okEq e a = true) : e = .ok a := by
  cases e with
  | ok b => simp only [okEq, decide_eq_true_eq] at h; rw [h]
  | error _ => simp [okEq] at h

/-- The state after an outcome has a property. -/
def after (o : Out) (p : State → Bool) : Bool := match o with | .next t => p t | _ => false

/-- Every fibre of x reads its sources. -/
def readsAll (s : State) (c : Crew) (x : List Nat) (srcs : List Reg) (l : Nat → List (Word × Tag)) : Bool :=
  x.all fun k => okEq (s.readSrcs c k [] srcs) (l k) && s.regPoisoned c.id k srcs == false
theorem reads_all {s : State} {c : Crew} {x : List Nat} {srcs : List Reg} {l : Nat → List (Word × Tag)} (h : readsAll s c x srcs l = true) : ∀ k ∈ x, Reads s c k srcs (l k) := by
  intro k hk
  have := List.all_eq_true.mp h k hk
  simp only [Bool.and_eq_true, beq_iff_eq] at this
  exact ⟨okEq_eq this.1, this.2⟩
theorem reads_one {s : State} {c : Crew} {k : Nat} {srcs : List Reg} {l : List (Word × Tag)} (h : readsAll s c [k] srcs (fun _ => l) = true) : Reads s c k srcs l :=
  reads_all h k (by simp)
theorem ok_all {ε α : Type} [DecidableEq α] {x : List Nat} {e : Nat → Except ε α} {a : Nat → α} (h : (x.all fun k => okEq (e k) (a k)) = true) : ∀ k ∈ x, e k = .ok (a k) :=
  fun k hk => okEq_eq (List.all_eq_true.mp h k hk)

/-- What the accesses of x find. -/
def tFound {α : Type} (s : State) (c : Crew) (write : Bool) (x : List Nat) (va : Nat → Nat × Option Place) (v : Nat → α) : State × Found α :=
  s.locate c write (x.map fun k => (k, ⟨(va k).1, (va k).2, v k⟩))
theorem finds_of {α : Type} {s : State} {c : Crew} {write : Bool} {x : List Nat} {va : Nat → Nat × Option Place} {v : Nat → α}
    (h : ((tFound s c write x va v).2.misses.isEmpty && (tFound s c write x va v).2.bad.isEmpty && x.all fun k => c.fibTest (fun f => decide (f.st = .issuing ∧ f.tx = none ∧ f.stepping = false)) k) = true) :
    Finds s c write x va v (tFound s c write x va v).1 (tFound s c write x va v).2.hits := by
  simp only [Bool.and_eq_true, List.isEmpty_iff, List.all_eq_true] at h
  obtain ⟨⟨h1, h2⟩, h3⟩ := h
  refine ⟨?_, fun k hk f hf => ?_⟩
  · show tFound s c write x va v = _
    generalize tFound s c write x va v = q at h1 h2 ⊢
    obtain ⟨a, ⟨hits, misses, bad⟩⟩ := q
    simp only at h1 h2
    rw [h1, h2]
  · have := h3 k hk
    simp only [Crew.fibTest, hf] at this
    simpa using this

/-! ### Words of the opcode tables (02_encoding R57 to R83), written out field by field -/

/-- Each word decodes to its instruction, and the instruction encodes to the word. -/
def reads (l : List (Nat × Instr)) : Bool := l.all fun p => decodeTableWord 32 p.1 == some p.2 && encode p.2 == some p.1

theorem test_decode_a3 : reads
    [(0b1_0000_000000_0010101_0110000_1001010, .addA3 true 21 48 74),
     (0b1_0000_000001_0010001_0101100_1000110, .subA3 true 17 44 70),
     (0b1_0000_000010_0010111_0110010_1000010, .mulA3 true 23 50 66),
     (0b1_0000_000011_0010011_0101110_1001000, .mulhi true 19 46 72),
     (0b1_0000_000100_0010001_0101100_1000110, .ma true 17 44 70),
     (0b1_0000_000101_0011001_0101010_1000100, .minA3 true 25 42 68),
     (0b1_0000_000110_0010101_0110000_1001010, .maxA3 true 21 48 74),
     (0b1_0000_000111_0010001_0101100_1000110, .andA3 true 17 44 70),
     (0b1_0000_001000_0010111_0110010_1000010, .orA3 true 23 50 66),
     (0b1_0000_001001_0010011_0101110_1001000, .xorA3 true 19 46 72),
     (0b1_0000_001010_0011001_0101010_1000100, .shlA3 true 25 42 68),
     (0b1_0000_001011_0010101_0110000_1001010, .shrA3 true 21 48 74),
     (0b1_0000_001100_0010001_0101100_1000110, .sarA3 true 17 44 70),
     (0b1_0000_001101_0010111_0110010_1000010, .rotA3 true 23 50 66),
     (0b1_0000_001110_0010011_0101110_1001000, .bfe true 19 46 72),
     (0b1_0000_001111_0010001_0101100_1000110, .bfi true 17 44 70),
     (0b1_0000_010000_0011001_0101010_1000100, .leaA3 true 25 42 68),
     (0b1_0000_010001_0010101_0110000_0000000, .mov true 21 48),
     (0b0_0000_010010_0010001_0101100_0000000, .neg false 17 44),
     (0b1_0000_010011_0010111_0110010_0000000, .abs true 23 50),
     (0b0_0000_010100_0010011_0101110_0000000, .notR false 19 46),
     (0b1_0000_010101_0011001_0101010_0000000, .popc true 25 42),
     (0b0_0000_010110_0010101_0110000_0000000, .clz false 21 48),
     (0b1_0000_010111_0010001_0101100_0000000, .brev true 17 44),
     (0b0_0000_011000_0010111_0110010_1000010, .dot4 false 23 50 66),
     (0b0_0000_011001_0010101_0110000_1001010, .dott false 21 48 74)] = true := by decide +kernel

theorem test_decode_ai : reads
    [(0b1_0001_000000_0010011_0101110_1001001, .addAi true 19 46 73),
     (0b1_0001_000001_0011001_0101010_1100100, .subAi true 25 42 100),
     (0b1_0001_000010_0010101_0110000_0110010, .mulAi true 21 48 50),
     (0b1_0001_000101_0010111_0110010_1101100, .minAi true 23 50 108),
     (0b1_0001_000110_0010011_0101110_0110110, .maxAi true 19 46 54),
     (0b1_0001_000111_0011001_0101010_0010011, .andAi true 25 42 19),
     (0b1_0001_001000_0010101_0110000_1001001, .orAi true 21 48 73),
     (0b1_0001_001001_0010001_0101100_1100100, .xorAi true 17 44 100),
     (0b1_0001_001010_0010111_0110010_0110010, .shlAi true 23 50 50),
     (0b1_0001_001011_0010011_0101110_1011001, .shrAi true 19 46 89),
     (0b1_0001_001100_0011001_0101010_1101100, .sarAi true 25 42 108),
     (0b1_0001_001101_0010101_0110000_0110110, .rotAi true 21 48 54),
     (0b1_0001_010000_0010111_0110010_1001001, .leaAi true 23 50 73),
     (0b0_0001_111111_0010011_01001101101100, .ldi false 19 4972)] = true := by decide +kernel

theorem test_decode_pc : reads
    [(0b1_0010_000_0111_1101_01_0000111_0010111, .cmp true .leu 13 .andInto 7 23),
     (0b1_0010_001_0001_1101_01_0001001_0110010, .cmpi true .ne 13 .andInto 9 50),
     (0b1_0010_010_1000_1101_0011_000000000000, .pand true 8 13 3),
     (0b1_0010_010_1000_1101_0011_010000000000, .por true 8 13 3),
     (0b1_0010_010_1000_1101_0011_100000000000, .pxor true 8 13 3),
     (0b1_0010_010_1000_1101_0000110000000000, .pnot true 8 13),
     (0b0_0010_0110_0010011_0110110110010011, .pmovToRegister false 19 28051),
     (0b1_0010_0111_0011001_0100110110110010, .pmovToPredicates true 25 19890)] = true := by decide +kernel

theorem test_decode_sel : reads
    [(0b0_0011_1000_0_0_1001010_0000011_0010011, .sel false 8 false 74 3 19)] = true := by decide +kernel

theorem test_decode_br : reads
    [(0b1_0100_0011_1_0110101101001101101100, .bra 3 true 1758060)] = true := by decide +kernel

theorem test_decode_ld : reads
    [(0b1_0101_1101_01_0100_0111000_0011000_00_0, .ld true .e8m0x4 .scratch 4 56 24 0 false)] = true := by decide +kernel

theorem test_decode_st : reads
    [(0b1_0110_0101_01_0010_0111000_0011000_10_0, .st true .e4m3x4 .scratch 2 56 24 2 false)] = true := by decide +kernel

theorem test_decode_at : reads
    [(0b1_0111_0000_100_00_1001_0000011_0010011, .atomAdd true 4 .relaxed 9 3 19),
     (0b1_0111_0001_001_10_0010_0000101_0010101, .atomMin true 1 .release 2 5 21),
     (0b1_0111_0010_011_00_0100_0000111_0010111, .atomMax true 3 .relaxed 4 7 23),
     (0b1_0111_0011_000_10_1001_0001001_0011001, .atomAnd true 0 .release 9 9 25),
     (0b1_0111_0100_100_00_0011_0001011_0010001, .atomOr true 4 .relaxed 3 11 17),
     (0b1_0111_0101_001_10_0110_0000011_0010011, .atomXor true 1 .release 6 3 19),
     (0b1_0111_0110_010_00_1100_0000101_0010101, .atomXchg true 2 .relaxed 12 5 21),
     (0b1_0111_0111_100_10_1001_0000111_0010111, .atomIncw true 4 .release 9 7 23),
     (0b1_0111_1000_001_00_0010_0001001_0011001, .atomDecw true 1 .relaxed 2 9 25),
     (0b1_0111_1001_011_10_0100_0001011_0010001, .cas true 3 .release 4 11 17),
     (0b1_0111_1100_000_1_0_1001_0000011_0010011, .redAdd true 0 true 9 3 19),
     (0b1_0111_1101_100_1_0_0011_0000101_0010101, .redMin true 4 true 3 5 21),
     (0b1_0111_1110_001_1_0_0110_0000111_0010111, .redMax true 1 true 6 7 23),
     (0b1_0111_1111_010_10_1001_0000000_1000110, .rsettle true 2 9 70)] = true := by decide +kernel

theorem test_decode_mx : reads
    [(0b1_1000_0000_10010011_0010100_0111000_1, .mmaBf16 true 147 20 56 true),
     (0b0_1000_0001_01101100_0010100_0111000_0, .mmaF16 false 108 20 56 false),
     (0b1_1000_0010_10110010_0010100_0111000_1, .mmaE4m3 true 178 20 56 true),
     (0b0_1000_0011_11001001_0010100_0111000_0, .mmaE5m2 false 201 20 56 false),
     (0b1_1000_0100_10110110_0010100_0111000_1, .mmaSi8 true 182 20 56 true),
     (0b0_1000_0101_11011001_0010100_0111000_0, .mmaUi8 false 217 20 56 false),
     (0b1_1000_1000_01100100_0010100_0111000_1, .mmasE2m1 true 100 20 56 true),
     (0b0_1000_1001_10010011_0010100_0111000_0, .mmasE2m3 false 147 20 56 false),
     (0b1_1000_1010_01101100_0010100_0111000_1, .mmasE3m2 true 108 20 56 true),
     (0b0_1000_1011_10110010_0010100_0111000_0, .mmasE4m3 false 178 20 56 false),
     (0b1_1000_1100_11001001_0010100_0111000_1, .mmasE5m2 true 201 20 56 true),
     (0b0_1000_1101_10110110_0010100_0111000_0, .mmasSi8 false 182 20 56 false)] = true := by decide +kernel

theorem test_decode_tl : reads
    [(0b1_1001_000_11011001_0000000000000000, .tzero true 217),
     (0b1_1001_001_10110110_0011_1001000_00_01_0, .tfill true 182 3 72 .bf16 false),
     (0b1_1001_010_01101100_0110_1001010_0_1_01_1, .tdrain true 108 6 74 true .bf16 true),
     (0b0_1001_011_01101100_0000_0100001_00000, .tget false 108 33),
     (0b1_1001_100_11001001_0000_0100001_00000, .trow true 201 33),
     (0b0_1001_101_11011001_0000_0101100_00000, .tstat false 217 44)] = true := by decide +kernel

theorem test_decode_xf : reads
    [(0b1_1010_000000_0010111_0110010_1000010, .shflIdx true 23 50 66),
     (0b1_1010_000001_0010101_0110000_1001010, .shflUp true 21 48 74),
     (0b1_1010_000010_0010011_0101110_1001000, .shflDown true 19 46 72),
     (0b1_1010_000011_0010001_0101100_1000110, .shflXor true 17 44 70),
     (0b1_1010_001000_0011001_0101010_1000100, .voteAny true 25 42 68),
     (0b1_1010_001001_0010111_0110010_1000010, .voteAll true 23 50 66),
     (0b1_1010_001010_0010101_0110000_1001010, .voteBallot true 21 48 74),
     (0b1_1010_010000_0010011_0101110_1001000, .foldAdd true 19 46 72),
     (0b1_1010_010001_0010001_0101100_1000110, .foldMin true 17 44 70),
     (0b1_1010_010010_0011001_0101010_1000100, .foldMax true 25 42 68),
     (0b1_1010_010011_0010111_0110010_1000010, .foldAnd true 23 50 66),
     (0b1_1010_010100_0010101_0110000_1001010, .foldOr true 21 48 74),
     (0b1_1010_010101_0010011_0101110_1001000, .foldXor true 19 46 72),
     (0b1_1010_011000_0010001_0101100_1000110, .scanAdd true 17 44 70),
     (0b1_1010_011001_0011001_0101010_1000100, .scanMin true 25 42 68),
     (0b1_1010_011010_0010111_0110010_1000010, .scanMax true 23 50 66),
     (0b1_1010_011011_0010101_0110000_1001010, .scanAnd true 21 48 74),
     (0b1_1010_011100_0010011_0101110_1001000, .scanOr true 19 46 72),
     (0b1_1010_011101_0010001_0101100_1000110, .scanXor true 17 44 70),
     (0b1_1010_100000_0011001_0101010_1000100, .matchAny true 25 42 68),
     (0b1_1010_100001_0010111_0110010_1000010, .matchAll true 23 50 66)] = true := by decide +kernel

theorem test_decode_sf : reads
    [(0b1_1011_000000_0010101_0110000_0000000, .rcp true 21 48),
     (0b0_1011_000001_0010001_0101100_0000000, .rsq false 17 44),
     (0b1_1011_000010_0010111_0110010_0000000, .sqrt true 23 50),
     (0b0_1011_000011_0010011_0101110_0000000, .exp2 false 19 46),
     (0b1_1011_000100_0011001_0101010_0000000, .log2 true 25 42),
     (0b0_1011_000101_0010101_0110000_0000000, .sin false 21 48),
     (0b1_1011_000110_0010001_0101100_0000000, .cos true 17 44),
     (0b0_1011_000111_0010111_0110010_0000000, .tanh false 23 50),
     (0b1_1011_010000_0101001_1001101_0011_1_11, .cvt true 41 77 .bf16x2 true .rdn),
     (0b1_1011_010001_0101001_1001101_1001_000, .mxpack true 41 77 .e2m1x8),
     (0b1_1011_010010_0101001_1001101_0011_000, .mxunpk true 41 77 .bf16x2),
     (0b1_1011_010011_0010001_0101100_00000_00, .dtern true 17 44 0),
     (0b1_1011_011000_0011001_0101010_000_1111, .retag true 25 42 .raw),
     (0b1_1011_011001_0010111_0110010_0000000, .tag true 23 50),
     (0b0_1011_011010_0010011_0101110_0000000, .shape false 19 46),
     (0b1_1011_011011_0011001_0000000_1000001, .fpflag true 25 0x41)] = true := by decide +kernel

theorem test_decode_ct : reads
    [(0b0_1100_000000000000000000000000000, .nop false),
     (0b1_1100_0000010000000_0000111_0000000, .brx 7),
     (0b1_1100_000010_110100110110110010011, .call 1731987),
     (0b1_1100_000011000000000000000000000, .ret),
     (0b1_1100_000100000000000000000000000, .region true),
     (0b0_1100_000101_0010011_0101110_1001000, .spawn false 19 46 72),
     (0b1_1100_000110000000000000000000000, .retire),
     (0b0_1100_000111000000000000000000000, .yield false),
     (0b1_1100_00100000000_1001_0100_0010_1001, .wait true 9 4 2 9),
     (0b0_1100_001001_000_01_0011011011001001, .fence false 0 .rel 14025),
     (0b0_1100_00101000000_0100110110110010, .trap false 19890),
     (0b1_1100_001011000000000000000000000, .eret),
     (0b1_1100_001100_0001001_1000001_0110110, .syscall 9 65 54),
     (0b1_1100_001101000000000000000000000, .uiret),
     (0b1_1100_00111000000000000000000000_0, .uimask true false),
     (0b1_1100_010000_0010101_000100000_00000, .sread true 21 0x20),
     (0b0_1100_010001_0010001_000100000_00000, .swrite false 17 0x20),
     (0b1_1100_0100100000000_0010111_0110010, .tlbinv true 23 50)] = true := by decide +kernel

theorem test_decode_as : reads
    [(0b0_1101_0000000000000_0010011_00000_10, .cpost false 19 2),
     (0b1_1101_000001_0011001_000000000000_00, .cstat true 25 0),
     (0b0_1101_0000100000000_0010101_0110000, .tbinit false 21 48),
     (0b1_1101_0000110000000_0010001_0101100, .tbexp true 17 44),
     (0b0_1101_0001000000000_0010111_0000000, .tbarv false 23),
     (0b0_1101_000101_0010001_0101100_1000110, .tbwait false 17 44 70),
     (0b0_1101_00011000000000000000000000_1, .bar false true),
     (0b0_1101_00011100000000000000000000_1, .bara false true),
     (0b0_1101_00100000000000000000000000_1, .barw false true),
     (0b0_1101_001001_0010001_0101100_000_0011, .tkres false 17 44 3),
     (0b0_1101_0010100000000_0011001_0000000, .tkcom false 25),
     (0b0_1101_0010110000000_0010011_0000000, .tkdrop false 19),
     (0b0_1101_001100_0010111_0110010_0000000, .ccarm false 23 50),
     (0b1_1101_001101_0010011_0101110_0000000, .ccread true 19 46),
     (0b0_1101_0011100000000_0011001_0000000, .ccdis false 25),
     (0b0_1101_0011110000000_0010011_0101110, .psend false 19 46),
     (0b1_1101_010000_0011001_0101010_0000000, .precv true 25 42),
     (0b0_1101_010001_0010101_0110000_0000000, .pprobe false 21 48),
     (0b1_1101_010010_0010001_0000000000_1101, .txbegin true 17 13),
     (0b1_1101_01001100000000000000000_0011, .txend 3),
     (0b1_1101_010100000000000000000000000, .txabort true),
     (0b0_1101_010101_0010001_0101100_0000000, .txstat false 17 44),
     (0b1_1101_0101101111_110_0110010_0000000, .feed true 6 50),
     (0b0_1101_0101111111_100_00000000000000, .fstop false 4),
     (0b1_1101_0110000000000_0000111_0010111, .trace 7 23),
     (0b1_1101_0110010000000_0001011_0010001, .texc 11 17),
     (0b0_1101_011010000000000000000000000, .hitrepAccept false),
     (0b1_1101_011010000000000000000000001, .hitrepIgnore true),
     (0b0_1101_011010000000000000000000010, .hitrepTerminate false),
     (0b1_1101_011011_0010001_0101100_000_0011, .rwres true 17 44 3),
     (0b1_1101_0111000000000_0011001_0101010, .rwpost true 25 42),
     (0b0_1101_0111010000000_0010101_0000000, .netjob false 21),
     (0b0_1101_011110_0011001_0101010_0000000, .nstat false 25 42),
     (0b1_1101_0111110000000_0010101_0000000, .pref true 21),
     (0b1_1101_1000000000000_0011001_0101010, .flush true 25 42),
     (0b0_1101_1000010000000_0010101_0110000, .inval false 21 48)] = true := by decide +kernel

theorem test_decode_xw : reads
    [(0b0_1111_000_110101101001101101100100, .xwImm 14064484),
     (0b0_1111_0010000000000000000000_0_1000, .xwGuard false 8),
     (0b0_1111_0100000000000000_00_1_0011_1_100, .xwOrder 0 true 3 true 4),
     (0b0_1111_0110000000000000000_10110010, .xwMask 178),
     (0b0_1111_10000000000000000000000_0_1_11, .xwRound false true .rdn),
     (0b0_1111_10100000000000000000_0000101, .xwOperand 5),
     (0b0_1111_110_101011010011011011001001, .xwOffset 11351753)] = true := by decide +kernel

/-! ### Ill-formed instructions are refused, their nearest neighbours are not (02_encoding R60 to R78) -/

/-- Every term of the first list is refused, and every term of the second is well-formed. -/
def refuses (bad good : List Instr) : Bool := (bad.all fun i => !i.wf) && good.all fun i => i.wf

theorem test_wf_pairs : refuses
    [.leaA3 false 119 4 3, .leaA3 false 4 119 3, .leaAi false 119 4 3, .leaAi false 4 119 3, .atomAdd false 0 .relaxed 0 3 119, .atomMin false 0 .relaxed 0 3 119,
     .atomMax false 0 .relaxed 0 3 119, .atomAnd false 0 .relaxed 0 3 119, .atomOr false 0 .relaxed 0 3 119, .atomXor false 0 .relaxed 0 3 119, .atomXchg false 0 .relaxed 0 3 119,
     .atomIncw false 0 .relaxed 0 3 119, .atomDecw false 0 .relaxed 0 3 119, .cas false 0 .relaxed 0 3 119, .cas false 0 .relaxed 0 119 3, .redAdd false 0 false 0 3 119,
     .redMin false 0 false 0 3 119, .redMax false 0 false 0 3 119, .rsettle false 0 0 119, .tfill false 0 0 119 .word false, .tdrain false 0 0 119 false .word false,
     .tlbinv false 119 3, .cpost false 119 0, .tbinit false 119 3, .tbexp false 119 3, .tbarv false 119, .tbwait false 3 119 3, .tkres false 119 3 0, .tkres false 3 119 0,
     .ccarm false 3 119, .ccread false 119 3, .feed false 0 119, .trace 3 119, .texc 3 119, .rwpost false 119 3, .netjob false 119, .pref false 119, .flush false 119 3, .inval false 119 3,
     .dtern false 119 3 0]
    [.leaA3 false 118 118 3, .leaAi false 118 118 3, .atomAdd false 0 .relaxed 0 3 118, .cas false 0 .relaxed 0 118 118, .redAdd false 0 false 0 3 118, .rsettle false 0 0 118,
     .tfill false 0 0 118 .word false, .tlbinv false 118 3, .cpost false 118 0, .tkres false 118 118 0, .ccarm false 3 118, .feed false 0 118, .trace 112 118, .pref false 118, .dtern false 118 3 0] = true := by decide +kernel

theorem test_wf_blocks : refuses
    [.ld false .f32 .global 0 119 4 1 false, .ld false .f32 .global 0 113 4 3 false, .ld false .raw .global 0 3 4 0 false, .ld false .f32 .global 0 3 119 0 false, .ld false .f32 .scratch 0 3 120 0 false,
     .st false .f32 .global 0 119 4 1 false, .st false .raw .global 0 3 4 0 false, .st false .f32 .global 0 3 119 0 false, .st false .f32 .team 0 3 120 0 false,
     .mmaBf16 false 0 105 8 false, .mmaF16 false 0 8 105 false, .mmaE4m3 false 0 105 8 false, .mmaE5m2 false 0 105 8 false, .mmaSi8 false 0 105 8 false, .mmaUi8 false 0 8 105 false,
     .mmasE2m1 false 0 104 8 false, .mmasE2m3 false 0 96 8 false, .mmasE3m2 false 0 8 96 false, .mmasE4m3 false 0 104 8 false, .mmasE5m2 false 0 8 104 false, .mmasSi8 false 0 104 8 false,
     .tfill false 0 0 120 .word true, .tdrain false 0 0 120 true .word true, .tget false 0 105, .trow false 0 105, .syscall 113 8 0, .syscall 8 113 0, .trace 113 8, .texc 113 8]
    [.ld false .f32 .global 0 118 4 1 false, .ld false .f32 .global 0 112 4 3 false, .ld false .f32 .scratch 0 127 119 0 false, .st false .f32 .team 0 127 119 0 false, .mmaBf16 false 0 104 104 false,
     .mmasE2m1 false 0 103 103 false, .mmasE2m3 false 0 95 95 false, .tfill false 0 0 119 .word true, .tget false 0 104, .trow false 0 104, .syscall 112 112 0] = true := by decide +kernel

theorem test_wf_tags_and_masks : refuses
    [.cvt false 3 4 .e2m3p false .rne, .cvt false 3 4 .e3m2p false .rne, .cvt false 3 4 .raw false .rne, .mxpack false 3 4 .f32, .mxpack false 115 4 .e2m3p, .mxunpk false 3 4 .si32,
     .tag false 3 120, .shape false 3 127, .fence false 0 .acq 0, .xwMask 0, .xwRound true false .rtz]
    [.cvt false 3 4 .e8m0x4 false .rne, .mxpack false 3 4 .e2m1x8, .mxpack false 114 4 .e3m2p, .mxunpk false 3 4 .bf16x2, .tag false 3 119, .shape false 3 119, .fence false 0 .acq 1, .xwMask 1,
     .xwRound true false .rne, .xwRound false true .rdn] = true := by decide +kernel

theorem test_wf_special_registers : refuses
    [.sread false 3 0x0D, .sread false 3 0x0F, .sread false 3 0x14, .sread false 3 0x28, .sread false 3 0x31, .sread false 119 0x0C, .sread false 119 0x24, .sread false 119 0x30,
     .swrite false 3 0x00, .swrite false 3 0x10, .swrite false 3 0x21, .swrite false 3 0x22, .swrite false 3 0x27, .swrite false 3 0x40, .swrite false 119 0x26]
    [.sread false 3 0x0C, .sread false 3 0x13, .sread false 3 0x27, .sread false 118 0x30, .sread false 119 0x1FF, .swrite false 3 0x20, .swrite false 118 0x26, .swrite false 119 0x23,
     .swrite false 119 0x100] = true := by decide +kernel

/-! ### States that meet the hypotheses of the statements: registers, predicates, control -/

def xImm2 : Ext := { Ext.zero with count := 2, imm := [1, 2] }
def c2trap : Crew := tFib c2 fun f => { f with trapMode := true, uiAct := true }
def c2loads : Crew := tFib c2 fun f => { f with counts := [⟨.loads, 3, false⟩] }
def c2mx : Crew := { c2 with regs := c2.regs.map fun d => { d with tag := if d.tag == .bf16x2 then .e2m1x8 else d.tag } }
def c2f32 : Crew := { c2 with regs := c2.regs.map fun d => { d with tag := .f32 } }

theorem no_mask_fits (t : Tag) : MaskFits Ext.zero t := fun _ h => nomatch h
theorem no_mask_reads (s : State) (c : Crew) (x : List Nat) (d : Reg) : MaskReads s Ext.zero c x d := fun h => nomatch h

theorem test_meets_arithmetic :
    ((∀ p ∈ [Instr.addA3, .subA3, .mulA3, .minA3, .maxA3], Ready s2 (p false 3 1 2) i2 c2 [0, 1]) ∧ c2.regsOk = true ∧ (3 : Reg).toNat < 120 ∧ arithTag .f32 = true ∧
      c2.Room [0, 1] [(3, c2.resultShape Ext.zero [0, 1] true .add [(1, .f32), (2, .f32)] 3 .f32)]) ∧
    MaskFits Ext.zero .f32 ∧ MaskReads s2 Ext.zero c2 [0, 1] 3 ∧ (∀ k ∈ [0, 1], Reads s2 c2 k [1, 2] [(0x3F800000, .f32), (0x40000000, .f32)]) ∧
    ((∀ p ∈ [Instr.addAi, .subAi, .mulAi, .minAi, .maxAi], Ready s2 (p true 9 3 64) i2 c2 [0, 1]) ∧ isInt32 .si32 = true ∧
      c2.Room [0, 1] [(9, c2.resultShape Ext.zero [0, 1] false .add [(3, .si32)] 9 .si32)]) ∧
    (∀ k ∈ [0, 1], Reads s2 c2 k [3] [(16, .si32)]) :=
  ⟨by and_intros <;> (try unfold Ready) <;> (try unfold Crew.Room) <;> decide +kernel, no_mask_fits _, no_mask_reads _ _ _ _, reads_all (by decide +kernel), by unfold Ready Crew.Room; decide +kernel, reads_all (by decide +kernel)⟩

theorem test_meets_bits_multiply_and_fields :
    ((∀ p ∈ [Instr.andA3, .orA3, .xorA3, .shlA3, .shrA3, .sarA3, .rotA3, .mulhi, .ma, .bfe, .bfi], Ready s2 (p false 3 3 4) i2 c2 [0, 1]) ∧
      (∀ p ∈ [Instr.andAi, .orAi, .xorAi, .shlAi, .shrAi, .sarAi, .rotAi], Ready s2 (p false 119 3 127) i2 c2 [0, 1]) ∧
      (∀ p ∈ [Instr.dot4, .dott], Ready s2 (p false 3 7 8) i2 c2 [0, 1]) ∧ c2.regsOk = true ∧
      (∀ d ∈ [3, 119], c2.Room [0, 1] [(d, c2.resultShape Ext.zero [0, 1] false .uni [(3, .si32), (4, .si32), (3, .si32)] d .si32)])) ∧
    (∀ k ∈ [0, 1], Reads s2 c2 k [3, 4] [(16, .si32), (5, .si32)]) ∧ (∀ k ∈ [0, 1], Reads s2 c2 k [3] [(16, .si32)]) ∧
    (∀ k ∈ [0, 1], Reads s2 c2 k [3, 4, 3] [(16, .si32), (5, .si32), (16, .si32)]) ∧ (∀ k ∈ [0, 1], Reads s2 c2 k [7, 8, 3] [(0x01FF0001, .si8x4), (0x01FF0001, .si8x4), (16, .si32)]) :=
  ⟨by and_intros <;> (try unfold Ready) <;> (try unfold Crew.Room) <;> decide +kernel, reads_all (by decide +kernel), reads_all (by decide +kernel), reads_all (by decide +kernel), reads_all (by decide +kernel)⟩

theorem test_meets_one_operand_lea_and_ldi :
    ((∀ p ∈ [Instr.mov, .notR, .popc, .clz, .brev, .neg, .abs], Ready s2 (p false 9 3) i2 c2 [0, 1]) ∧ Ready s2 (.leaA3 false 118 5 3) i2 c2 [0, 1] ∧ Ready s2 (.leaAi false 118 5 127) i2 c2 [0, 1] ∧
      Ready s2 (.ldi false 119 0x2000) i2 c2 [0, 1] ∧ c2.regsOk = true ∧ arithTag .si32 = true ∧
      c2.Room [0, 1] [(9, c2.resultShape Ext.zero [0, 1] false .keep [(3, .si32)] 9 .si32)] ∧ c2.Room [0, 1] [(9, .u)] ∧
      c2.Room [0, 1] [(118, c2.resultShape Ext.zero [0, 1] false .uni [(5, .ui32), (6, .si32), (3, .si32)] 118 .ui32), (119, c2.resultShape Ext.zero [0, 1] false .uni [(5, .ui32), (6, .si32), (3, .si32)] 119 .ui32)] ∧
      (Ready (tState c2 xImm2) (.ldi false 118 0x2000) (tIssue 2 xImm2) c2 [0, 1] ∧ xImm2.imm.length = 2) ∧ c2.Room [0, 1] [(118, .u), (119, .u)]) ∧
    (∀ k ∈ [0, 1], Reads s2 c2 k [3] [(16, .si32)]) ∧ (∀ k ∈ [0, 1], Reads s2 c2 k [5, 6, 3] [(0x2000, .ui32), (0, .si32), (16, .si32)]) ∧
    (∀ k ∈ [0, 1], Reads s2 c2 k [5, 6] [(0x2000, .ui32), (0, .si32)]) :=
  ⟨by and_intros <;> (try unfold Ready) <;> (try unfold Crew.Room) <;> decide +kernel, reads_all (by decide +kernel), reads_all (by decide +kernel), reads_all (by decide +kernel)⟩

theorem test_meets_special_functions :
    ((∀ p ∈ [Instr.rcp, .rsq, .sqrt, .exp2, .log2, .sin, .cos, .tanh], Ready s2 (p false 3 1) i2 c2 [0, 1]) ∧ c2.regsOk = true ∧
      c2.Room [0, 1] [(3, c2.resultShape Ext.zero [0, 1] true .uni [(1, .f32)] 3 .f32)]) ∧ (∀ k ∈ [0, 1], Reads s2 c2 k [1] [(0x3F800000, .f32)]) :=
  ⟨by and_intros <;> (try unfold Ready) <;> (try unfold Crew.Room) <;> decide +kernel, reads_all (by decide +kernel)⟩

theorem test_meets_compares :
    (Ready s2 (.cmp false .lt 15 .andInto 3 4) i2 c2 [0, 1] ∧ Ready s2 (.cmpi false .geu 2 .orInto 3 64) i2 c2 [0, 1] ∧ c2.regsOk = true ∧
      condHolds .lt .si32 16 5 = some false ∧ condHolds .geu .si32 16 (immWord Ext.zero 64) = some false ∧ isInt32 .si32 = true ∧ isInt32 .ui8x4 = false ∧ (fF32.value 0x7FC00000).isNan = true) ∧
    (∀ k ∈ [0, 1], Reads s2 c2 k [3, 4] [(16, .si32), (5, .si32)]) ∧ (∀ k ∈ [0, 1], Reads s2 c2 k [3] [(16, .si32)]) :=
  ⟨by and_intros <;> (try unfold Ready) <;> decide +kernel, reads_all (by decide +kernel), reads_all (by decide +kernel)⟩

theorem test_meets_predicates_and_sel :
    ((∀ ins ∈ [Instr.pand false 15 3 15, .por false 1 3 15, .pxor false 1 3 15, .pnot false 1 3], Ready s2 ins i2 c2 [0, 1]) ∧ Ready s2 (.pmovToRegister false 119 0xFFFF) i2 c2 [0, 1] ∧
      Ready s2 (.pmovToPredicates false 3 0xFFFF) i2 c2 [0, 1] ∧ Ready s2 (.sel false 15 true 3 3 4) i2 c2 [0, 1] ∧ c2.regsOk = true ∧ c2.Room [0, 1] [(119, .g)] ∧ c2.Room [0, 1] [(3, .u)]) ∧
    (∀ k ∈ [0, 1], Reads s2 c2 k [3] [(16, .si32)]) ∧ (∀ k ∈ [0, 1], Reads s2 c2 k [3, 4] [(16, .si32), (5, .si32)]) :=
  ⟨by and_intros <;> (try unfold Ready) <;> (try unfold Crew.Room) <;> decide +kernel, reads_all (by decide +kernel), reads_all (by decide +kernel)⟩

theorem test_meets_conversions :
    (Ready (tState c2f32 Ext.zero) (.cvt false 116 11 .e4m3x4 true .rne) i2 c2f32 [0, 1] ∧ convertible .f32 = true ∧ 116 + (cvtCounts .f32 .e4m3x4).2 ≤ 120 ∧
      Ready s2 (.mxpack false 3 40 .e2m3p) i2 c2 [0, 1] ∧ packTag .e2m3p = true ∧ wideTag .bf16x2 = true ∧
      (Ready (tState c2mx Ext.zero) (.mxunpk false 3 40 .bf16x2) i2 c2mx [0, 1] ∧ packTag .e2m1x8 = true ∧ wideTag .bf16x2 = true) ∧ c2.regsOk = true) ∧
    (∀ k ∈ [0, 1], Reads (tState c2f32 Ext.zero) c2f32 k (blockOf 11 (cvtCounts .f32 .e4m3x4).1) (List.replicate (cvtCounts .f32 .e4m3x4).1 (0, .f32))) ∧
    (∀ k ∈ [0, 1], Reads s2 c2 k (blockOf 40 (mxCounts .e2m3p .bf16x2).2) (List.replicate (mxCounts .e2m3p .bf16x2).2 (0x3F803F80, .bf16x2))) :=
  ⟨by and_intros <;> (try unfold Ready) <;> decide +kernel, reads_all (by decide +kernel), reads_all (by decide +kernel)⟩

theorem test_meets_ternary_tag_and_flag_forms :
    ((∀ half ∈ [0, 3], Ready s2 (.dtern false 118 7 half) i2 c2 [0, 1]) ∧ Ready s2 (.retag false 3 7 .raw) i2 c2 [0, 1] ∧ Ready s2 (.tag false 3 119) i2 c2 [0, 1] ∧ Ready s2 (.shape false 3 10) i2 c2 [0, 1] ∧
      Ready s2 (.fpflag false 3 127) i2 c2 [0, 1] ∧ c2.regsOk = true ∧ c2.Room [0, 1] [(3, .g)] ∧ c2.Room [0, 1] [(3, .u)] ∧
      c2.Room [0, 1] [(118, c2.resultShape Ext.zero [0, 1] false .uni [(7, .si8x4)] 118 .si8x4), (119, c2.resultShape Ext.zero [0, 1] false .uni [(7, .si8x4)] 119 .si8x4)]) ∧
    (∀ k ∈ [0, 1], Reads s2 c2 k [7] [(0x01FF0001, .si8x4)]) :=
  ⟨by and_intros <;> (try unfold Ready) <;> (try unfold Crew.Room) <;> decide +kernel, reads_all (by decide +kernel)⟩

theorem test_meets_transfers :
    (Ready s2 (.bra 15 false 0x200000) i2 c2 [0, 1] ∧ Ready s2 (.brx 3) i2 c2 [0, 1] ∧ Ready s2 (.call 0x1FFFFF) i2 c2 [0, 1] ∧ Ready s2 .ret i2 c2 [0, 1] ∧ c2.regsOk = true ∧
      c2.Room [0, 1] [(118, .u), (119, .u)] ∧ (0 ≤ ((0x1000 : PcAddr).toNat : Int) + 4 * (16 : Word).toInt ∧ ((0x1000 : PcAddr).toNat : Int) + 4 * (16 : Word).toInt < 2 ^ 57) ∧
      (0 : Word).toNat % 4 = 0 ∧ ((0 : Word) ++ (0x1010 : Word)).toNat < 2 ^ 57) ∧
    (∀ k ∈ [0, 1], Reads s2 c2 k [3] [(16, .si32)]) ∧ (∀ k ∈ [0, 1], Reads s2 c2 k [118, 119] [(0x1010, .ui32), (0, .si32)]) :=
  ⟨by and_intros <;> (try unfold Ready) <;> (try unfold Crew.Room) <;> decide +kernel, reads_all (by decide +kernel), reads_all (by decide +kernel)⟩

theorem test_meets_nop_yield_region_uimask_wait :
    (∀ ins ∈ [Instr.nop true, .yield false, .region false, .uimask false true], Ready s2 ins i2 c2 [0, 1]) ∧ Ready s2 (.wait false 0 15 0 0) i2 c2 [0, 1] ∧
    (∀ f ∈ c2.fibres, f.counts = []) ∧
    (Ready (tState c2loads Ext.zero) (.wait false 0 15 0 0) i2 c2loads [0, 1] ∧ ∃ f ∈ c2loads.fibres, (0 : BitVec 4).toNat < (f.counts.filter fun n => n.cls == .loads).length) := by
  and_intros <;> (try unfold Ready) <;> decide +kernel

theorem test_meets_traps_and_returns :
    Ready s2 (.trap false 0xFFFF) i2 c2 [0, 1] ∧ [0, 1] ≠ ([] : List Nat) ∧ (s2.getCtx c2.ctx).any (fun cx => cx.trapvec != 0) = true ∧ (∀ f ∈ c2.fibres, f.trapMode = false ∧ f.tx = none) ∧
    (Ready (tState c2trap Ext.zero) .eret i2 c2trap [0, 1] ∧ Ready (tState c2trap Ext.zero) .uiret i2 c2trap [0, 1] ∧ ∀ f ∈ c2trap.fibres, f.trapMode = true ∧ f.uiAct = true) := by
  and_intros <;> (try unfold Ready) <;> decide +kernel

theorem test_meets_sread :
    (∀ n ∈ [0x000, 0x013, 0x027, 0x103], Ready s2 (.sread false 119 n) i2 c2 [0, 1] ∧ sregPair n.toNat = false) ∧ Ready s2 (.sread false 118 0x030) i2 c2 [0, 1] ∧ sregPair 0x30 = true ∧ c2.regsOk = true ∧
    s2.privileged c2.ctx = true ∧ c2.Room [0, 1] [(118, .g), (119, .g)] ∧ c2.Room [0, 1] [(119, .a)] := by
  and_intros <;> (try unfold Ready) <;> (try unfold Crew.Room) <;> decide +kernel

theorem test_meets_swrite_and_tlbinv :
    ((∀ n ∈ [0x020, 0x026], Ready s2 (.swrite false 5 n) i2 c2 [0, 1]) ∧ Ready s2 (.tlbinv false 5 9) i2 c2 [0, 1] ∧ s2.privileged c2.ctx = true ∧
      ((∀ n ∈ [0x023, 0x024, 0x025], Ready (tState c2trap Ext.zero) (.swrite false 5 n) i2 c2trap [0, 1]) ∧ ∀ f ∈ c2trap.fibres, f.trapMode = true) ∧
      ((0 : Word) ++ (0x2000 : Word)).toNat < 2 ^ 57 ∧ (0x2000 : Word).toNat % 4 = 0 ∧ (1 : Word).extractLsb' 10 6 = 0 ∧ (1 : Word).extractLsb' 18 14 = 0) ∧
    (∀ k ∈ [0, 1], Reads s2 c2 k [5] [(0x2000, .ui32)]) ∧ (∀ k ∈ [0, 1], Reads s2 c2 k [5, 6] [(0x2000, .ui32), (0, .si32)]) ∧
    (∀ k ∈ [0, 1], Reads s2 c2 k [5, 6, 9] [(0x2000, .ui32), (0, .si32), (1, .ui32)]) :=
  ⟨by and_intros <;> (try unfold Ready) <;> decide +kernel, reads_all (by decide +kernel), reads_all (by decide +kernel), reads_all (by decide +kernel)⟩

/-! ### States that meet the hypotheses of the statements: fibres, barriers, accesses -/

/-- A store of four bytes outstanding in fibre 0. -/
def tOp (id : Nat) (w : Work) : Op := ⟨id, 5, 0, 1, 0, [0], 1, 0, false, false, 0x2000, 4, 0, none, false, false, 0, [], w⟩
def tPlace : Place := .mem 0x2000 0x2000 0 false
def tStore : Op := tOp 3 (.store tPlace [1, 2, 3, 4] false)

/-- Two ranks, the second of them not live; the issue is of the first. -/
def c2dead : Crew := { c2 with fibres := [{ Fibre.fresh 0x1000 1 0 0 with st := .issuing }, { Fibre.fresh 0 1 0 0 with live := false, st := .retired }] }
def sDead : State := { tState c2dead Ext.zero with cur := some i1 }

theorem test_meets_spawn_and_retire :
    (Ready sDead (.spawn false 3 3 4) i1 c2dead [0] ∧ c2dead.regsOk = true ∧ isInt32 .si32 = true ∧ sDead.seqBusy c2dead.id 0 0xFFFF = false ∧ (∀ j ∈ i1.ranks, c2dead.fibTest (fun f => f.live) j = true) ∧
      (∀ j, j < 1 → c2dead.fibTest (fun f => f.live) j = true) ∧ c2dead.fibTest (fun f => f.live) 1 = false ∧ c2dead.usedRows.length + 2 ≤ c2dead.grows ∧
      Ready s1 (.spawn false 3 3 4) i1 c1 [0] ∧ (∀ r, r < c1.size → c1.fibTest (fun f => f.live) r = true) ∧ c1.Room [0] [(3, .g)] ∧ Ready s2 .retire i2 c2 [0, 1]) ∧
    Reads sDead c2dead 0 [3, 4] [(16, .si32), (5, .si32)] ∧ Reads s1 c1 0 [3, 4] [(16, .si32), (5, .si32)] :=
  ⟨by and_intros <;> (try unfold Ready) <;> (try unfold Crew.Room) <;> decide +kernel, reads_one (by decide +kernel), reads_one (by decide +kernel)⟩

theorem test_meets_syscall :
    Ready s2 (.syscall 112 112 127) i2 c2 [0, 1] ∧ c2.regsOk = true ∧ (∀ k ∈ [0, 1], s2.seqBusy c2.id k 0xFFFF = false ∧ s2.hostStuck c2.id k 0xFFFF = false ∧ s2.regPoisoned c2.id k (blockOf 112 8) = false) ∧
    c2.Room [0, 1] ((List.range 8).map fun j => (112 + j, .g)) := by
  and_intros <;> (try unfold Ready) <;> (try unfold Crew.Room) <;> decide +kernel

/-- The crew of two fibres with the first of them being issued, and one whose only fibre has arrived at both barriers. -/
def s2first : State := { s2 with cur := some i1 }
def c1arrived : Crew := tFib c1 fun f => { f with arrivedCrew := true }
def c1arrivedTeam : Crew := tFib c1 fun f => { f with arrivedTeam := true }

theorem test_meets_barriers :
    (s1.seqBusy c1.id 0 0xFFFF = false ∧ (c1.fib 0).any (fun f => f.live && f.gate.isNone && !f.arrivedCrew && !f.arrivedTeam) = true ∧ i1.ranks = [0] ∧ c1 ∈ s1.crews ∧ c1.life ≠ .completed ∧
      (∀ t ∈ [false, true], Ready s1 (.bar false t) i1 c1 [0] ∧ Ready s1 (.barw true t) i1 c1 [0])) ∧
    (s2first.seqBusy c2.id 0 0xFFFF = false ∧ (c2.fib 1).any (fun f => f.live && !f.arrivedCrew && !f.arrivedTeam) = true ∧
      (∀ t ∈ [false, true], Ready s2first (.bar false t) i1 c2 [0] ∧ Ready s2first (.bara false t) i1 c2 [0])) ∧
    ((c1arrived.fib 0).any (fun f => f.live && f.gate.isNone && f.arrivedCrew && !f.arrivedTeam) = true ∧ Ready (tState c1arrived Ext.zero) (.barw false false) i1 c1arrived [0] ∧
      (c1arrivedTeam.fib 0).any (fun f => f.live && f.gate.isNone && f.arrivedTeam && !f.arrivedCrew) = true ∧ Ready (tState c1arrivedTeam Ext.zero) (.barw false true) i1 c1arrivedTeam [0]) := by
  and_intros <;> (try unfold Ready) <;> decide +kernel

def s2store : State := { s2 with ops := [tStore] }

theorem test_meets_fence :
    Ready s2store (.fence false 5 .sc 0xFFFF) i2 c2 [0, 1] ∧ (∀ o ∈ s2store.ops, o.id < s2store.nextId) ∧ ∃ o ∈ s2store.ops, o.crew = c2.id ∧ 0 ∈ o.ranks ∧ o.work.isFence = false := by
  and_intros <;> (try unfold Ready) <;> decide +kernel

theorem test_meets_extension_words :
    s2.cur = some i2 ∧ i2.ext.count < 3 ∧ i2.ext.imm.length < 2 ∧ i2.ext.guard = none ∧ i2.ext.order = none ∧ i2.ext.mask = none ∧ i2.ext.round = none ∧ i2.ext.operand = none ∧ i2.ext.offset = none ∧
    (tState c2 { xImm2 with count := 3 }).cur = some (tIssue 2 { xImm2 with count := 3 }) ∧ 3 ≤ (tIssue 2 { xImm2 with count := 3 }).ext.count ∧
    (tState c2 xImm2).cur = some (tIssue 2 xImm2) ∧ 2 ≤ (tIssue 2 xImm2).ext.imm.length := by
  decide +kernel

/-- The address of the test pair v5 and v6. -/
def tVa (_ : Nat) : Nat × Option Place := (0x2000, none)

theorem test_meets_loads_and_stores :
    (Ready s2 (.ld false .f32 .global 15 112 5 3 true) i2 c2 [0, 1] ∧ Ready s2 (.ld true .si32 .scratch 0 119 3 0 false) i2 c2 [0, 1] ∧ c2.regsOk = true ∧
      c2.Room [0, 1] ((List.range 8).map fun j => (112 + j, .u)) ∧ (∀ h ∈ (tFound s2 c2 false [0, 1] tVa fun _ => ()).2.hits, s2.unknownDevice h.p = false) ∧
      Ready s2 (.st false .si32 .global 0 3 5 1 true) i2 c2 [0, 1] ∧
      (∀ h ∈ (tFound s2 c2 true [0, 1] tVa fun _ => wordsBytes [16, 5]).2.hits, s2.unknownDevice h.p = false) ∧ ∀ p ∈ [Tag.si32, .si32], p = .si32) ∧
    (∀ k ∈ [0, 1], Reads s2 c2 k (addrRegs .global 5) [(0x2000, .ui32), (0, .si32)]) ∧ (∀ k ∈ [0, 1], Reads s2 c2 k (addrRegs .scratch 3) [(16, .si32)]) ∧
    (∀ k ∈ [0, 1], Reads s2 c2 k (blockOf 3 2 ++ addrRegs .global 5) [(16, .si32), (5, .si32), (0x2000, .ui32), (0, .si32)]) ∧
    (∀ k ∈ [0, 1], s2.operandAddr c2 .global 0x2000 0 0 32 = .ok (tVa k)) ∧ (∀ k ∈ [0, 1], s2.operandAddr c2 .scratch 16 0 0 4 = .ok ((fun _ => (16, some (.scratch 1 16))) k)) ∧
    Finds s2 c2 false [0, 1] tVa (fun _ => ()) (tFound s2 c2 false [0, 1] tVa fun _ => ()).1 (tFound s2 c2 false [0, 1] tVa fun _ => ()).2.hits ∧
    Finds s2 c2 true [0, 1] tVa (fun _ => wordsBytes [16, 5]) (tFound s2 c2 true [0, 1] tVa fun _ => wordsBytes [16, 5]).1 (tFound s2 c2 true [0, 1] tVa fun _ => wordsBytes [16, 5]).2.hits :=
  ⟨by and_intros <;> (try unfold Ready) <;> (try unfold Crew.Room) <;> decide +kernel, reads_all (by decide +kernel), reads_all (by decide +kernel), reads_all (by decide +kernel), ok_all (by decide +kernel),
    ok_all (by decide +kernel), finds_of (by decide +kernel), finds_of (by decide +kernel)⟩

theorem test_meets_atomics :
    ((∀ p ∈ [Instr.atomAdd, .atomMin, .atomMax, .atomAnd, .atomOr, .atomXor, .atomXchg, .atomIncw, .atomDecw, .cas], Ready s2 (p false 5 .acqRel 0 3 5) i2 c2 [0, 1]) ∧ c2.regsOk = true ∧ c2.Room [0, 1] [(3, .g)] ∧
      (∀ h ∈ (tFound s2 c2 true [0, 1] tVa fun _ => ()).2.hits, s2.unknownDevice h.p = false ∧ h.p.isHost = false ∧ (tFound s2 c2 true [0, 1] tVa fun _ => ()).1.firstBad h.p 4 = none ∧ (tFound s2 c2 true [0, 1] tVa fun _ => ()).1.settleBad c2.core h.p = none) ∧
      (tFound s2 c2 true [0, 1] tVa fun _ => ()).1.ops = []) ∧
    (∀ k ∈ [0, 1], Reads s2 c2 k [3, 5, 6] [(16, .si32), (0x2000, .ui32), (0, .si32)]) ∧ (∀ k ∈ [0, 1], Reads s2 c2 k [3, 4, 5, 6] [(16, .si32), (5, .si32), (0x2000, .ui32), (0, .si32)]) ∧
    (∀ k ∈ [0, 1], s2.operandAddr c2 .global 0x2000 0 0 4 = .ok (tVa k)) ∧
    Finds s2 c2 true [0, 1] tVa (fun _ => (16, 0x2000, Tag.si32)) (tFound s2 c2 true [0, 1] tVa fun _ => ((16, 0x2000, Tag.si32) : Word × Word × Tag)).1
      (tFound s2 c2 true [0, 1] tVa fun _ => ((16, 0x2000, Tag.si32) : Word × Word × Tag)).2.hits :=
  ⟨by and_intros <;> (try unfold Ready) <;> (try unfold Crew.Room) <;> decide +kernel, reads_all (by decide +kernel), reads_all (by decide +kernel), ok_all (by decide +kernel), finds_of (by decide +kernel)⟩

/-- Tables that map the second GiB to the host window, the third to package 3 and the fourth to the device registers. -/
def tFar (s : State) : State :=
  { s with mem := cellWrite s.mem 0x12008 (natBytes 8 (0x600F + 0x20000000000) ++ natBytes 8 (0x604F + 3 * 2 ^ 42) ++ natBytes 8 (0x601F + 0x30000000000)), hostMapped := [(0, 0x4000)] }
def sFar : State := tFar s2
def tVaPeer (_ : Nat) : Nat × Option Place := (0x80002000, none)
def tVaDev (_ : Nat) : Nat × Option Place := (0xC0402000, none)
def c2far : Crew := { c2 with regs := c2.regs.set 5 (tReg .ui32 0x80002000) }
def c2dev : Crew := { c2 with regs := c2.regs.set 5 (tReg .ui32 0xC0402000) }

theorem test_meets_reductions :
    ((∀ p ∈ [Instr.redAdd, .redMin, .redMax], Ready s2 (p false 5 false 15 3 5) i2 c2 [0, 1] ∧ Ready (tFar (tState c2far Ext.zero)) (p false 5 true 15 3 5) i2 c2far [0, 1]) ∧ c2.regsOk = true ∧
      Ready s2 (.rsettle false 5 0 5) i2 c2 [0, 1] ∧ Ready (tFar (tState c2far Ext.zero)) (.rsettle false 5 0 5) i2 c2far [0, 1] ∧
      (∀ h ∈ (tFound s2 c2 true [0, 1] tVa fun _ => ()).2.hits, s2.unknownDevice h.p = false ∧ h.p.isHost = false ∧ s2.settleBad c2.core h.p = none ∧ s2.peerOf h.p = none) ∧
      (∀ h ∈ (tFound (tFar (tState c2far Ext.zero)) c2far true [0, 1] tVaPeer fun _ => ()).2.hits, s2.unknownDevice h.p = false ∧ h.p.isHost = false ∧ s2.settleBad c2far.core h.p = none ∧ s2.peerOf h.p ≠ none) ∧
      (s2.redBuf.filter fun y => y.core == c2.core).length + 2 ≤ Config.coreAccs ∧ (∀ w ∈ [Work.settle tPlace, .red tPlace .add .si32 16], s2.mustWait (tOp 0 w) = false) ∧ (s2.crews.map fun y => y.id).Nodup) ∧
    (∀ k ∈ [0, 1], Reads s2 c2 k [3, 5, 6] [(16, .si32), (0x2000, .ui32), (0, .si32)]) ∧ (∀ k ∈ [0, 1], Reads s2 c2 k [5, 6] [(0x2000, .ui32), (0, .si32)]) ∧
    Finds s2 c2 true [0, 1] tVa (fun _ => ()) (tFound s2 c2 true [0, 1] tVa fun _ => ()).1 (tFound s2 c2 true [0, 1] tVa fun _ => ()).2.hits ∧
    Finds (tFar (tState c2far Ext.zero)) c2far true [0, 1] tVaPeer (fun _ => ()) (tFound (tFar (tState c2far Ext.zero)) c2far true [0, 1] tVaPeer fun _ => ()).1
      (tFound (tFar (tState c2far Ext.zero)) c2far true [0, 1] tVaPeer fun _ => ()).2.hits :=
  ⟨by and_intros <;> (try unfold Ready) <;> decide +kernel, reads_all (by decide +kernel), reads_all (by decide +kernel), finds_of (by decide +kernel), finds_of (by decide +kernel)⟩

theorem test_meets_pref_flush_and_inval :
    (Ready s2 (.pref false 5) i2 c2 [0, 1] ∧ Ready s2 (.flush false 5 9) i2 c2 [0, 1] ∧ Ready s1 (.inval false 5 9) i1 c1 [0] ∧ wrapInt 64 (((0 : Word) ++ (0x2000 : Word)).toNat + Ext.zero.byteOffset) < 2 ^ 57 ∧
      isInt32 .ui32 = true ∧ s2.hostLost = false ∧ ((0 : Word) ++ (0x2000 : Word)).toNat + (1 : Word).toNat ≤ 2 ^ 57 ∧ Ready s2 (.flush false 5 0) i2 c2 [0, 1]) ∧
    (∀ k ∈ [0, 1], Reads s2 c2 k [5, 6] [(0x2000, .ui32), (0, .si32)]) ∧ (∀ k ∈ [0, 1], Reads s2 c2 k [5, 6, 9] [(0x2000, .ui32), (0, .si32), (1, .ui32)]) ∧
    (∀ k ∈ [0, 1], Reads s2 c2 k [5, 6, 0] [(0x2000, .ui32), (0, .si32), (0, .si32)]) :=
  ⟨by and_intros <;> (try unfold Ready) <;> decide +kernel, reads_all (by decide +kernel), reads_all (by decide +kernel), reads_all (by decide +kernel)⟩

theorem test_meets_device_loads :
    (Ready (tFar (tState c2dev Ext.zero)) (.ld false .f32 .global 0 3 5 0 false) i2 c2dev [0, 1] ∧ (∃ h ∈ (tFound (tFar (tState c2dev Ext.zero)) c2dev false [0, 1] tVaDev fun _ => ()).2.hits, (tFound (tFar (tState c2dev Ext.zero)) c2dev false [0, 1] tVaDev fun _ => ()).1.unknownDevice h.p = true) ∧
      c2dev.Room [0, 1] [(3, .u)]) ∧
    (∀ k ∈ [0, 1], Reads (tFar (tState c2dev Ext.zero)) c2dev k [5, 6] [(0xC0402000, .ui32), (0, .si32)]) ∧ (∀ k ∈ [0, 1], s2.operandAddr c2dev .global 0xC0402000 0 0 4 = .ok (tVaDev k)) ∧
    Finds (tFar (tState c2dev Ext.zero)) c2dev false [0, 1] tVaDev (fun _ => ()) (tFound (tFar (tState c2dev Ext.zero)) c2dev false [0, 1] tVaDev fun _ => ()).1
      (tFound (tFar (tState c2dev Ext.zero)) c2dev false [0, 1] tVaDev fun _ => ()).2.hits :=
  ⟨by and_intros <;> (try unfold Ready) <;> (try unfold Crew.Room) <;> decide +kernel, reads_all (by decide +kernel), ok_all (by decide +kernel), finds_of (by decide +kernel)⟩

/-! ### States that meet the hypotheses of the statements: matrices, meetings, attempts -/

/-- A crew whose registers hold fragments of one format, with scales behind the blocks at v0 and v40. -/
def c2mat (m : MatForm) : Crew :=
  { c2 with regs := (List.range 120).map fun r => if r == m.regs || r == 40 + m.regs then (if m.scaled then tReg .e8m0x4 0x7F else tReg m.tag 0x38383838) else tReg m.tag 0x38383838 }

theorem test_meets_matrices :
    ((∀ p ∈ ([(Instr.mmaBf16, ⟨.bf16x2, 32, 16, false, 0, false⟩), (.mmaF16, ⟨.f16x2, 32, 16, false, 0, false⟩), (.mmaE4m3, ⟨.e4m3x4, 64, 16, false, 0, false⟩), (.mmaE5m2, ⟨.e5m2x4, 64, 16, false, 0, false⟩),
      (.mmaSi8, ⟨.si8x4, 64, 16, false, 0, true⟩), (.mmaUi8, ⟨.ui8x4, 64, 16, false, 0, true⟩), (.mmasE2m1, ⟨.e2m1x8, 128, 16, true, 0, false⟩), (.mmasE2m3, ⟨.e2m3p, 128, 24, true, 0, false⟩),
      (.mmasE3m2, ⟨.e3m2p, 128, 24, true, 0, false⟩), (.mmasE4m3, ⟨.e4m3x4, 64, 16, true, 0, false⟩), (.mmasE5m2, ⟨.e5m2x4, 64, 16, true, 0, false⟩), (.mmasSi8, ⟨.si8x4, 64, 16, true, 6, false⟩)] :
      List ((Bool → BitVec 8 → Reg → Reg → Bool → Instr) × MatForm)), Ready (tState (c2mat p.2) Ext.zero) (p.1 false 15 0 40 true) i2 (c2mat p.2) [0, 1] ∧
        (∀ r ∈ blockOf 0 p.2.regs ++ blockOf 40 p.2.regs, (c2mat p.2).tagOf r = p.2.tag) ∧
        (p.2.scaled = true → (c2mat p.2).tagOf ((0 : Reg) + BitVec.ofNat 7 p.2.regs) = .e8m0x4 ∧ (c2mat p.2).tagOf ((40 : Reg) + BitVec.ofNat 7 p.2.regs) = .e8m0x4)) ∧
      (∃ tl, c2.tiles[15]? = some tl ∧ tl.words.length = 256) ∧ s2.poison = [] ∧ (∀ m : MatForm, (tState (c2mat m) Ext.zero).matLanding (c2mat m) [0, 1] 40 17 = []) ∧ ∀ k ∈ [0, 1], k / 16 = 0) := by
  refine ⟨?_, ⟨⟨.ready, List.replicate 256 0⟩, by decide +kernel⟩, by decide +kernel, fun _ => rfl, by decide⟩
  simp only [List.forall_mem_cons]
  and_intros <;> (try unfold Ready) <;> (try (intro _ h; exact absurd h (List.not_mem_nil))) <;> decide +kernel

def c2tile : Crew := { c2 with regs := c2.regs.map fun d => { d with tag := if d.tag == .bf16x2 then .f32 else d.tag } }
def tSectors (scr : Bool) (n : Nat) : List (Nat × Addr Unit) := (List.range (n / 64)).map fun j => (j, ⟨0x2000 + 64 * j, if scr then some (.scratch 1 (0x2000 + 64 * j)) else none, ()⟩)

theorem test_meets_tiles :
    (c2tile.regsOk = true ∧ Ready (tState c2tile Ext.zero) (.tzero false 15) i2 c2tile [0, 1] ∧ Ready (tState c2tile Ext.zero) (.trow false 0 56) i2 c2tile [0, 1] ∧
      (∀ r ∈ blockOf 56 16, c2tile.tagOf r = .f32 ∨ c2tile.tagOf r = .si32) ∧ Ready (tState c2tile Ext.zero) (.tget false 15 104) i2 c2tile [0, 1] ∧
      c2tile.Room [0, 1] ((List.range 16).map fun j => (104 + j, .g)) ∧ Ready (tState c2tile Ext.zero) (.tstat false 0 119) i2 c2tile [0, 1] ∧ c2tile.Room [0, 1] [(119, .g)]) ∧
    (Ready s2 (.tfill false 3 15 5 .word false) i2 c2 [0, 1] ∧ Ready s2 (.tdrain false 3 15 5 true .word false) i2 c2 [0, 1] ∧
      (∀ w ∈ [false, true], (s2.locate c2 w (tSectors false 1024)).2.misses = [] ∧ (s2.locate c2 w (tSectors false 1024)).2.bad = [] ∧ ∀ h ∈ (s2.locate c2 w (tSectors false 1024)).2.hits, h.p.isDev = false)) ∧
    Reads s2 c2 0 (pairOf 5) [(0x2000, .ui32), (0, .si32)] ∧ s2.addrForm c2 .global 0x2000 0 0 1024 = .ok (0x2000, none) :=
  ⟨by and_intros <;> (try unfold Ready) <;> (try unfold Crew.Room) <;> decide +kernel, by and_intros <;> (try unfold Ready) <;> decide +kernel, reads_one (by decide +kernel), okEq_eq (by decide +kernel)⟩

/-- Two fibres in one meeting at the instruction. -/
def tMeet (T : Tag) (v : Word) : Meeting := ⟨0x1000, 3, T, [(0, v, 5), (1, 7, 5)]⟩
def c2meet (T : Tag) (v : Word) : Crew := tFib c2 fun f => { f with meeting := some (tMeet T v) }

theorem test_meets_cross_fibre :
    (∀ p ∈ [Instr.shflIdx, .shflUp, .shflDown, .shflXor, .voteAny, .voteAll, .voteBallot, .matchAny, .matchAll, .foldAdd, .foldMin, .foldMax, .foldAnd, .foldOr, .foldXor,
        .scanAdd, .scanMin, .scanMax, .scanAnd, .scanOr, .scanXor],
      Ready (tState (c2meet .si32 16) Ext.zero) (p false 3 3 4) i2 (c2meet .si32 16) [0, 1]) ∧
    (c2meet .si32 16).regsOk = true ∧ (tMeet .si32 16).pc = i2.group ∧ (∀ f ∈ (c2meet .si32 16).fibres, f.meeting = some (tMeet .si32 16)) ∧ (tMeet .si32 16).vals.length ≤ 32 ∧
    (c2meet .si32 16).Room [0, 1] [(3, .g)] := by
  and_intros <;> (try unfold Ready) <;> (try unfold Crew.Room) <;> decide +kernel

/-- Both fibres of the crew stand at one instruction; v9 names both. -/
def c2gate (w : Nat) : Crew := { c2 with regs := c2.regs.set 9 (tReg .ui32 w) }
def tXf : Xf := ⟨3, 3, 9, false, fun _ => true⟩

theorem test_meets_gates :
    ((tState (c2gate 3) Ext.zero).getCrew 1 = some (c2gate 3) ∧ (∃ f, (c2gate 3).fib 0 = some f ∧ f.meeting = none) ∧ (tState (c2gate 3) Ext.zero).poison = [] ∧
      maskRanks 0 3 = [0, 1] ∧ (∀ r ∈ [0, 1], (tState (c2gate 3) Ext.zero).standsAt (c2gate 3) r 0x1000 = true)) ∧
    (∀ r ∈ [0, 1], (tState (c2gate 3) Ext.zero).xfView (c2gate 3) r tXf = .ok (16, .si32, 3, 16)) ∧
    (∀ w ∈ [2, 5], 0 ∉ maskRanks 0 (BitVec.ofNat 32 w) ∨ ∃ r ∈ maskRanks 0 (BitVec.ofNat 32 w), (c2gate w).fibTest (fun g => g.live) r = false) ∧
    (tState (c2gate 2) Ext.zero).xfView (c2gate 2) 0 tXf = .ok (16, .si32, 2, 16) :=
  ⟨⟨by decide +kernel, ⟨(c2gate 3).fibres.headD (Fibre.fresh 0 0 0 0), by decide +kernel⟩, by decide +kernel, by decide +kernel, by decide +kernel⟩, ok_all (a := fun _ => ((16, Tag.si32, 3, 16) : Word × Tag × Word × Word)) (by decide +kernel),
    by decide +kernel, okEq_eq (by decide +kernel)⟩
/-! ### States that meet the hypotheses of the statements: transactions, barriers, copies, crumbs, tasks, pipes -/

def tAttempt (depth : Nat) (reads writes : List LogSector) : Attempt := ⟨depth, 0x1004, 10, 2, reads, writes, false, 0, 0, false, [], 0, [], []⟩
def c1tx (depth : Nat) (reads writes : List LogSector) : Crew := tFib c1 fun f => { f with tx := some (tAttempt depth reads writes) }
def c1four : Crew := tFib c1 fun f => { f with abortCount := 4 }
def s1tx (depth : Nat) : State := tState (c1tx depth [] []) Ext.zero

theorem test_meets_txbegin :
    (c1.regsOk = true ∧ c1.Room [0] [(10, .g)] ∧ s1.globalWritesOut c1.id 0 = false ∧ (tState c1four Ext.zero).globalWritesOut c1.id 0 = false ∧ s1.token.holder = none) ∧
    (Ready s1 (.txbegin false 10 2) i1 c1 [0] ∧ ∃ f, c1.fib 0 = some f ∧ f.tx = none ∧ f.abortCount ≠ 4) ∧
    (∀ n ∈ [1, 6, 7], Ready (s1tx n) (.txbegin false 10 2) i1 (c1tx n [] []) [0] ∧ (c1tx n [] []).fibTest (fun f => f.tx == some (tAttempt n [] [])) 0 = true ∧ (c1tx n [] []).Room [0] [(10, .g)]) ∧
    (Ready (tState c1four Ext.zero) (.txbegin false 10 2) i1 c1four [0] ∧ c1four.fibTest (fun f => f.tx.isNone && f.abortCount == 4) 0 = true) := by
  and_intros <;> (try unfold Ready) <;> (try unfold Crew.Room) <;> (try exact ⟨c1.fibres.headD (Fibre.fresh 0 0 0 0), by decide +kernel⟩) <;> decide +kernel

/-- Logs of a sector read as zeros, and as ones, and of a write of its first four bytes. -/
def tRead (b : Byte) : LogSector := ⟨0x2000, List.replicate 32 b, List.replicate 32 true⟩
def tWrite : LogSector := ⟨0x2000, List.replicate 32 9, List.replicate 4 true ++ List.replicate 28 false⟩
/-- Where an access to the address of the test pair goes. -/
def tAt : Place := .mem 0x2000 0 0 false
def tPlan (b : Byte) : CommitPlan := ⟨0, tAttempt 1 [tRead b] [tWrite], [(tRead b, tAt)], [(tWrite, tAt)]⟩
def sTx (b : Byte) : State := tState (c1tx 1 [tRead b] [tWrite]) Ext.zero
def planOk (b : Byte) : Bool :=
  match (sTx b).commitPlans 0 0 [(0, tAttempt 1 [tRead b] [tWrite])] with
  | (s1, [p], [], none) => p.k == 0 && p.a == (tPlan b).a && p.reads == (tPlan b).reads && p.writes == (tPlan b).writes && s1.commitHeld [p] == false && s1.commitShadowed (c1tx 1 [tRead b] [tWrite]) [p] == false
  | _ => false

theorem test_meets_txend :
    (Ready s1 (.txend 2) i1 c1 [0] ∧ c1.regsOk = true ∧ i1.ranks = [0] ∧ c1.fibTest (fun f => f.st == .issuing && f.tx.isNone) 0 = true) ∧
    (Ready (s1tx 3) (.txend 2) i1 (c1tx 3 [] []) [0] ∧ (c1tx 3 [] []).regsOk = true) ∧
    (∀ b ∈ [(0 : Byte), 1], Ready (sTx b) (.txend 2) i1 (c1tx 1 [tRead b] [tWrite]) [0] ∧ (c1tx 1 [tRead b] [tWrite]).regsOk = true ∧ (sTx b).seqBusy 1 0 0xFFFF = false ∧ (sTx b).token.holder = none ∧ planOk b = true ∧
      ((sTx b).homeRead tAt 32 == (tRead b).bytes) = decide (b = 0)) ∧
    (let s : State := { sTx 0 with ops := [tStore] }
     Ready s (.txend 2) i1 (c1tx 1 [tRead 0] [tWrite]) [0] ∧ s.seqBusy 1 0 0xFFFF = true ∧ s.token.holder = none ∧
      after (exec (.txend 2) s) (fun t => t.cur.isNone && t.waiting == [{ i1 with commit := true }] && t.crews.all fun c => c.fibTest (fun f => f.st == .committing && f.pc == 0x1000) 0) = true) := by
  and_intros <;> (try unfold Ready) <;> decide +kernel

theorem test_meets_txabort_and_txstat :
    (Ready s2 (.txabort false) i2 c2 [0, 1] ∧ (∀ f ∈ c2.fibres, f.tx = none) ∧ Ready (s1tx 1) (.txabort false) i1 (c1tx 1 [] []) [0] ∧ (c1tx 1 [] []).regsOk = true ∧ (tAttempt 1 [] []).d = 10 ∧
      ((c1tx 1 [] []).desc 10).shape = .g ∧ (s1tx 1).token.holder ≠ some (1, 0) ∧ Ready s2 (.txstat false 10 3) i2 c2 [0, 1] ∧ isInt32 .si32 = true ∧ c2.Room [0, 1] [(10, .g)]) ∧
    (∀ k ∈ [0, 1], Reads s2 c2 k [3] [(16, .si32)]) :=
  ⟨by and_intros <;> (try unfold Ready) <;> (try unfold Crew.Room) <;> decide +kernel, reads_all (by decide +kernel)⟩

/-- A barrier poisoned at 0x2000, for TBWAIT to find open; v9 is 0, the phase of one that is not. -/
def sBar : State := { s2 with mem := cellWrite s2.mem 0x2000 [16] }
def c2bar : Crew := { c2 with regs := c2.regs.set 9 (tReg .ui32 0) }
def sShut : State := tState c2bar Ext.zero

theorem test_meets_tile_barriers :
    (Ready s2 (.tbinit false 5 9) i2 c2 [0, 1] ∧ Ready s2 (.tbexp false 5 9) i2 c2 [0, 1] ∧ Ready s2 (.tbarv false 5) i2 c2 [0, 1] ∧ (s2.crews.map fun y => y.id).Nodup ∧ isInt32 .ui32 = true ∧
      (∀ k ∈ [0, 1], s2.fenceHolds c2.id k 0xFFFF = false) ∧
      (∀ h ∈ (tFound s2 c2 true [0, 1] tVa fun _ => (1 : Word)).2.hits, h.p.isDev = false ∧ (h.global = true → s2.barrierPage h.p h.pte = true))) ∧
    (∀ k ∈ [0, 1], Reads s2 c2 k [5, 6, 9] [(0x2000, .ui32), (0, .si32), (1, .ui32)]) ∧ (∀ k ∈ [0, 1], Reads s2 c2 k [5, 6] [(0x2000, .ui32), (0, .si32)]) ∧
    (∀ k ∈ [0, 1], s2.engineAddr c2 0x2000 16 = .ok (tVa k)) ∧
    Finds s2 c2 true [0, 1] tVa (fun _ => (1 : Word)) (tFound s2 c2 true [0, 1] tVa fun _ => (1 : Word)).1 (tFound s2 c2 true [0, 1] tVa fun _ => (1 : Word)).2.hits :=
  ⟨by and_intros <;> (try unfold Ready) <;> decide +kernel, reads_all (by decide +kernel), reads_all (by decide +kernel), ok_all (by decide +kernel), finds_of (by decide +kernel)⟩

theorem test_meets_tbwait :
    (Ready sBar (.tbwait false 10 5 9) i2 c2 [0, 1] ∧ Ready sShut (.tbwait false 10 5 9) i2 c2bar [0, 1] ∧ c2.regsOk = true ∧ c2bar.regsOk = true ∧ c2.Room [0, 1] [(10, .g)] ∧ c2bar.Room [0, 1] [(10, .g)] ∧
      (∀ f ∈ c2.fibres, f.gate = none) ∧
      (∀ h ∈ (tFound sBar c2 true [0, 1] tVa fun _ => (1 : Word)).2.hits, recF (bytesNat (sBar.readPlace h.p 16)) 4 1 = 1 ∧ recF (bytesNat ((tFound sBar c2 true [0, 1] tVa fun _ => (1 : Word)).1.readPlace h.p 16)) 4 1 = 1) ∧
      (∃ h ∈ (tFound sShut c2bar true [0, 1] tVa fun _ => (0 : Word)).2.hits, recF (bytesNat ((tFound sShut c2bar true [0, 1] tVa fun _ => (0 : Word)).1.readPlace h.p 16)) 0 5 = 0)) ∧
    (∀ k ∈ [0, 1], Reads sBar c2 k [5, 6, 9] [(0x2000, .ui32), (0, .si32), (1, .ui32)]) ∧ (∀ k ∈ [0, 1], Reads sShut c2bar k [5, 6, 9] [(0x2000, .ui32), (0, .si32), (0, .ui32)]) ∧
    Finds sBar c2 true [0, 1] tVa (fun _ => (1 : Word)) (tFound sBar c2 true [0, 1] tVa fun _ => (1 : Word)).1 (tFound sBar c2 true [0, 1] tVa fun _ => (1 : Word)).2.hits ∧
    Finds sShut c2bar true [0, 1] tVa (fun _ => (0 : Word)) (tFound sShut c2bar true [0, 1] tVa fun _ => (0 : Word)).1 (tFound sShut c2bar true [0, 1] tVa fun _ => (0 : Word)).2.hits :=
  ⟨by and_intros <;> (try unfold Ready) <;> (try unfold Crew.Room) <;> decide +kernel, reads_all (by decide +kernel), reads_all (by decide +kernel), finds_of (by decide +kernel), finds_of (by decide +kernel)⟩

theorem test_meets_barrier_steps :
    (Memory.wf s2 ∧ (s2.getCrew 1).isSome = true ∧ s2.accs = [] ∧ placesMeet (.mem 0x2010 0x2010 0 false) 1 tAt 16 = false ∧ placesMeet (.scratch 1 0) 1 tAt 16 = false) ∧
    (recF (barStep 0 (.init 1)) 4 1 = 0 ∧ recF (barStep 0 (.init 1)) 8 20 = 1 ∧ recF (barStep 0 (.init 1)) 64 32 = 0 ∧ recF (barStep 0 (.init 2)) 8 20 = 2 ∧ recF 0 8 20 = 0 ∧ recF 16 4 1 = 1 ∧
      recF (2 ^ 64) 64 32 = 1 ∧ recF (2 ^ 64) 8 20 = 0 ∧ recF (2 ^ 64) 4 1 = 0) := by
  decide +kernel

theorem test_meets_copies_and_feeds :
    (Ready s2 (.cpost false 5 3) i2 c2 [0, 1] ∧ c2.regsOk = true ∧ (∀ k ∈ [0, 1], s2.seqBusy c2.id k 1 = false ∧ s2.hostStuck c2.id k 1 = false ∧ s2.slotFull c2 k 3 = false) ∧ Ready s2 (.cstat false 10 3) i2 c2 [0, 1] ∧
      c2.Room [0, 1] [(10, .g)] ∧ Ready s2 (.feed false 0 5) i2 c2 [0, 1] ∧ Ready s2 (.fstop false 0) i2 c2 [0, 1] ∧ (0x2000 : Word).toNat % 64 = 0) ∧
    (∀ k ∈ [0, 1], Reads s2 c2 k [5, 6] [(0x2000, .ui32), (0, .si32)]) :=
  ⟨by and_intros <;> (try unfold Ready) <;> (try unfold Crew.Room) <;> decide +kernel, reads_all (by decide +kernel)⟩

/-- An arm record at 0x2000: the 32 bytes at 0x4000, total 32, action 0, the barrier at 0x3000; the pages homed; the partition has counter 7 of slice 0. -/
def tPart : Partition := ⟨0, [0], [], List.range 64, 2 ^ 32, [(0, 16)], 4, 4, false, false, [(0, 7, 1)], 0, [0], 4, 0, 4⟩
def tArm (s : State) : State :=
  { s with mem := cellWrite (cellWrite s.mem 0x12000 (natBytes 8 (0x640F))) 0x2000 (natBytes 32 (0x4000 + 32 * 2 ^ 64 + 32 * 2 ^ 96 + 0x3000 * 2 ^ 192)), partitions := [tPart], extents := [⟨0, some 0, .f32⟩] }
def sArm : State := tArm s1
def armed : Option (State × List (Nat × Word)) := match State.armAll c1 [] sArm [(0, 0x2000)] with | .ok (s, hs, []) => some (s, hs) | _ => none
def tCrumb : Crumb := ⟨0, 7, 3, some 0, [(0x4000, 32)], 32, 5, 0, 0, 0, false, true, false, false, false⟩
def c2crumb : Crew := { c2 with regs := c2.regs.set 9 (tReg .ui32 (7 * 2 ^ 16 + 3)) }
def sCrumb : State := { tState c2crumb Ext.zero with crumbs := [tCrumb] }

theorem test_meets_crumbs :
    (Ready sArm (.ccarm false 10 5) i1 c1 [0] ∧ c1.regsOk = true ∧ c1.Room [0] [(10, .g)] ∧ c1.fibTest (fun f => f.stepping) 0 = false ∧ armed.map (fun p => p.2) = some [(0, 0x70001)]) ∧
    Reads sArm c1 0 [5, 6] [(0x2000, .ui32), (0, .si32)] ∧
    (Ready sCrumb (.ccread false 7 9) i2 c2crumb [0, 1] ∧ Ready sCrumb (.ccdis false 9) i2 c2crumb [0, 1] ∧ c2crumb.regsOk = true ∧ c2crumb.Room [0, 1] [(7, .g), (8, .g)] ∧
      sCrumb.crumb 0x70003 = some tCrumb ∧ tCrumb.owner = some c2crumb.ctx) ∧
    (∀ k ∈ [0, 1], Reads sCrumb c2crumb k [9] [(0x70003, .ui32)]) :=
  ⟨by and_intros <;> (try unfold Ready) <;> (try unfold Crew.Room) <;> decide +kernel, reads_one (by decide +kernel), by and_intros <;> (try unfold Ready) <;> (try unfold Crew.Room) <;> decide +kernel,
    reads_all (by decide +kernel)⟩

def tFirst (o : Arming) : Word := match o with | .ok _ h => h | _ => 0
theorem recF_lt (x lo n : Nat) : recF x lo n < 2 ^ n := Nat.mod_lt _ (Nat.two_pow_pos n)
theorem home_sArm (pa : Nat) : sArm.home pa < 64 := by
  have h4 : ∀ x lo, recF x lo 4 < 16 := fun x lo => recF_lt x lo 4
  have h2 : ∀ x lo, recF x lo 2 < 4 := fun x lo => recF_lt x lo 2
  have hx : ∀ x, recF x 7 4 ^^^ recF x 11 4 ^^^ recF x 15 4 ^^^ recF x 19 2 < 2 ^ 4 := fun x =>
    Nat.xor_lt_two_pow (Nat.xor_lt_two_pow (Nat.xor_lt_two_pow (h4 x 7) (h4 x 11)) (h4 x 15)) (Nat.lt_trans (h2 x 19) (by decide))
  have hs : ∀ q, (sArm.extent q).home = some 0 ∨ (sArm.extent q).home = none := by
    intro q; unfold State.extent; simp only [sArm, tArm, List.find?]; repeat (first | split | simp)
  have := h2 (paLocal pa) 37
  have := hx (paLocal pa)
  unfold State.home
  rcases hs pa with h | h <;> simp only [h] <;> split <;> omega

theorem test_meets_counters :
    tFirst (sArm.armOne c1 0 0x2000) = 0x70001 ∧ (∀ pa, sArm.home pa < 64) ∧ tCrumb.armed = true ∧ tCrumb.count < tCrumb.total ∧ tCrumb.count + 26 < tCrumb.total ∧
    tCrumb.total ≤ tCrumb.count + 27 ∧ tCrumb.reload = false ∧ ({ tCrumb with reload := true } : Crumb).reload = true := by
  refine ⟨by decide +kernel, home_sArm, ?_⟩
  decide +kernel

/-- A task queue of two slots whose descriptor is at 0x2000, open. -/
def tQueue (a b : SlotState) : TaskQueue := ⟨1, 0, 0x2000, [(a, 0), (b, 63)], []⟩
def sQueue (a b : SlotState) (isOpen : Nat) : State := { s1 with mem := cellWrite s1.mem 0x2000 (natBytes 16 (0x3000 + isOpen * 2 ^ 88)), taskQueues := [tQueue a b] }
def tMine (q : TaskQueue) : Bool := q.ctx == 0 && placesMeet tAt 1 (kernelAt q.desc) 1
def c1handle : Crew := { c1 with regs := c1.regs.set 9 (tReg .ui32 (2 ^ 22 + 63 * 2 ^ 16 + 1)) }
def sHandle : State := { sQueue .free .reserved 1 with crews := [c1handle] }

theorem test_meets_tasks :
    ((∀ s ∈ [sQueue .reserved .free 1, sQueue .reserved .committed 1, sQueue .free .free 0],
        Ready s (.tkres false 7 5 2) i1 c1 [0] ∧ s.taskQueues.any tMine = true ∧ (tFound s c1 false [0] tVa fun _ => ()).2.hits.length = 1 ∧ (∀ h ∈ (tFound s c1 false [0] tVa fun _ => ()).2.hits, h.p = tAt ∧ h.p.isDev = false)) ∧
      c1.regsOk = true ∧ c1.Room [0] [(7, .g), (8, .g)] ∧ (0x2000 : Word).toNat % 64 = 0 ∧
      ((sQueue .reserved .free 1).overwrite i1 [0] [7, 8]).tqField (tQueue .reserved .free) 88 1 = 1 ∧ ((sQueue .free .free 0).overwrite i1 [0] [7, 8]).tqField (tQueue .free .free) 88 1 = 0) ∧
    Reads (sQueue .reserved .free 1) c1 0 [5, 6] [(0x2000, .ui32), (0, .si32)] ∧
    Finds (sQueue .reserved .free 1) c1 false [0] tVa (fun _ => ()) (tFound (sQueue .reserved .free 1) c1 false [0] tVa fun _ => ()).1 (tFound (sQueue .reserved .free 1) c1 false [0] tVa fun _ => ()).2.hits ∧
    (Ready sHandle (.tkcom false 9) i1 c1handle [0] ∧ Ready sHandle (.tkdrop false 9) i1 c1handle [0] ∧ sHandle.seqBusy 1 0 1 = false ∧ sHandle.fenceHolds 1 0 1 = false ∧
      sHandle.handleSlot 0 0x7F0001 = some (tQueue .free .reserved, 1) ∧ sHandle.taskQueue 0 1 = some (tQueue .free .reserved)) ∧
    Reads sHandle c1handle 0 [9] [(0x7F0001, .ui32)] :=
  ⟨by and_intros <;> (try unfold Ready) <;> (try unfold Crew.Room) <;> decide +kernel, reads_one (by decide +kernel), finds_of (by decide +kernel), by and_intros <;> (try unfold Ready) <;> decide +kernel,
    reads_one (by decide +kernel)⟩

def tPipe : Pipe := ⟨1, 0, 6, 3, 0, [(5, .si32)], [], 0, 0, [], [], none, []⟩
def c2pipe : Crew := tFib { c2 with regs := c2.regs.set 9 (tReg .ui32 tPipe.handle.toNat) } fun f => { f with recvs := [⟨0x1000, 1, some (5, .si32)⟩] }
def sPipe : State := { tState c2pipe Ext.zero with pipes := [tPipe] }

theorem test_meets_pipes :
    (Ready sPipe (.psend false 9 3) i2 c2pipe [0, 1] ∧ Ready sPipe (.precv false 10 9) i2 c2pipe [0, 1] ∧ Ready sPipe (.pprobe false 10 9) i2 c2pipe [0, 1] ∧ c2pipe.regsOk = true ∧ c2pipe.Room [0, 1] [(10, .g)] ∧
      (∀ k ∈ [0, 1], sPipe.seqBusy 1 k 1 = false ∧ sPipe.appending 1 k = false ∧ sPipe.regPoisoned 1 k [9] = false) ∧ sPipe.pipeOf c2pipe (tPipe.handle, .ui32) = some tPipe ∧ sPipe.getPipe 1 = some tPipe ∧
      (∀ f ∈ c2pipe.fibres, f.recvs.find? (fun y => y.pc == i2.group) = some ⟨0x1000, 1, some (5, .si32)⟩)) ∧
    (∀ k ∈ [0, 1], Reads sPipe c2pipe k [9, 3] [(tPipe.handle, .ui32), (16, .si32)]) ∧ (∀ k ∈ [0, 1], Reads sPipe c2pipe k [9] [(tPipe.handle, .ui32)]) :=
  ⟨by and_intros <;> (try unfold Ready) <;> (try unfold Crew.Room) <;> decide +kernel, reads_all (by decide +kernel), reads_all (by decide +kernel)⟩
/-! ### States that meet the hypotheses of the statements: rendering, work records, queues and launches, with what the step then gives -/

/-- A crew with a request in v16 to v23, a descriptor of 16 live registers in v24 and v25, and a pool of one slot at 0x4000. -/
def c1trace : Crew :=
  { c1 with args := 0x3000, regs := (List.range 120).map fun r => if 17 ≤ r && r < 24 then tReg .f32 0 else if r == 16 then tReg .f32 1 else if r == 24 then tReg .ui32 (16 * 2 ^ 22 + 4) else tReg .si32 0 }
def c1texc : Crew := { c1trace with regs := c1trace.regs.set 16 (tReg .ui32 1) }
def sTrace (c : Crew) : State := let s := tState c Ext.zero; { s with mem := cellWrite s.mem 0x3000 (natBytes 64 (0x4000 * 2 ^ 256 + 128 * 2 ^ 224)) }
def tUnit (s : State) : Nat := match s.unitRead 0 0 0x3000 64 with | (_, .ok bs) => bytesNat bs | _ => 0
def tSlot (s : State) : Option Span := match s.slotPages c1trace 0x4000 128 with | (_, .ok l) => some l | _ => none

theorem the_slot (free : Nat) : allocSlot [] 0x4000 128 128 free = some 0x4000 := by
  have h : Config.freeNat free % (128 / 32 + 1) < 5 := Nat.mod_lt _ (by decide)
  unfold allocSlot
  generalize Config.freeNat free % (128 / 32 + 1) = n at h
  obtain rfl | rfl | rfl | rfl | rfl : n = 0 ∨ n = 1 ∨ n = 2 ∨ n = 3 ∨ n = 4 := by omega
  all_goals rfl

theorem test_meets_trace_and_texc :
    (Ready (sTrace c1trace) (.trace 16 24) i1 c1trace [0] ∧ Ready (sTrace c1texc) (.texc 16 24) i1 c1texc [0] ∧ (sTrace c1trace).seqBusy 1 0 0xFFFF = false ∧
      okEq ((sTrace c1trace).traceCheck c1trace false 16 24 0) (16 * 2 ^ 22 + 4, 0) = true ∧ okEq ((sTrace c1texc).traceCheck c1texc true 16 24 0) (16 * 2 ^ 22 + 4, 0) = true ∧
      (sTrace c1trace).livePending ⟨i1, formOf c1trace i1.ext (.trace 16 24), [0], []⟩ c1trace 0 16 = false ∧ (sTrace c1trace).poison = [] ∧ descLive (16 * 2 ^ 22 + 4) = 16 ∧ slotSize 16 = 128 ∧
      rbPool (tUnit (sTrace c1trace)) = 0x4000 ∧ rbPoolSize (tUnit (sTrace c1trace)) = 128 ∧ globalForm 0x4000 128 = true ∧ (tSlot (sTrace c1trace)).isSome = true ∧ (sTrace c1trace).poolSlots 0 = []) ∧ ∀ free, allocSlot [] 0x4000 128 128 free = some 0x4000 :=
  ⟨by and_intros <;> (try unfold Ready) <;> decide +kernel, the_slot⟩

def c2any : Crew := { c2 with kind := .anyHit 5 }
theorem test_meets_hitrep :
    (∀ ins ∈ [Instr.hitrepAccept false, .hitrepIgnore false, .hitrepTerminate false], Ready (tState c2any Ext.zero) ins i2 c2any [0, 1] ∧ Ready s2 ins i2 c2 [0, 1]) ∧ c2any.regsOk = true ∧ c2.regsOk = true ∧
    c2any.kind = .anyHit 5 ∧ c2.kind = .ordinary ∧ after (exec (.hitrepIgnore false) (tState c2any Ext.zero)) (fun t => t.crews.all fun c => c.fibres.all fun f => f.report == some .ignore) = true := by
  and_intros <;> (try unfold Ready) <;> decide +kernel

/-- Work channel 1, its descriptor at 0x5000: open, one credit, number 1, sequence 6, ring 0x8000 of package 2. -/
def tChan (credits : Nat) : WorkChan := ⟨1, 0, 0x5000, if credits = 0 then [(0x100005, 1)] else [], 0⟩
def c1post : Crew := { c1 with regs := c1.regs.set 9 (tReg .ui32 0x100005) }
def sWork (c : Crew) (isOpen credits : Nat) : State :=
  let s := tState c Ext.zero
  { s with mem := cellWrite s.mem 0x5000 (natBytes 64 (0x8000 + 2 ^ 64 + 2 * 2 ^ 96 + isOpen * 2 ^ 113 + 6 * 2 ^ 192 + credits * 2 ^ 224)), workChans := [tChan credits] }

theorem test_meets_work_records :
    ((∀ s ∈ [sWork c1 1 1, sWork c1 1 0, sWork c1 0 1], Ready s (.rwres false 10 9 2) i1 c1 [0] ∧ s.workChans.find? (fun y => y.ctx == c1.ctx && y.chan == 1) = s.workChan 1 ∧ (s.workChan 1).isSome = true) ∧
      c1.regsOk = true ∧ c1.Room [0] [(10, .g)] ∧ recF ((sWork c1 1 1).wcDesc (tChan 1)) 113 1 = 1 ∧ recF ((sWork c1 1 1).wcDesc (tChan 1)) 224 32 = 1 ∧
      after (exec (.rwres false 10 9 2) (sWork c1 1 1)) (fun t => t.ops.map (fun o => o.work) == [.value 10 .ui32 .g [(0, 0x100006)] [(0, 2, true)] []] &&
        t.workChans == [⟨1, 0, 0x5000, [(0x100006, 1)], 0⟩] && recF (t.wcDesc (tChan 1)) 192 64 == 7) = true) ∧
    Reads (sWork c1 1 1) c1 0 [9] [(1, .ui32)] ∧
    (Ready (sWork c1post 1 0) (.rwpost false 5 9) i1 c1post [0] ∧ (tFound (sWork c1post 1 0) c1post false [0] tVa fun _ => (0x100005 : Word)).2.hits.length = 1 ∧
      (∀ h ∈ (tFound (sWork c1post 1 0) c1post false [0] tVa fun _ => (0x100005 : Word)).2.hits, (sWork c1post 1 0).localFrame h.p = true) ∧ (sWork c1post 1 0).seqBusy 1 0 1 = false ∧
      (sWork c1post 1 0).workChans.find? (fun y => y.ctx == c1post.ctx && y.chan == (0x100005 : Word).toNat / 2 ^ 20) = some (tChan 0) ∧ (∃ r ∈ (tChan 0).reserved, r.1 = 0x100005) ∧
      after (exec (.rwpost false 5 9) (sWork c1post 1 0)) (fun t => t.ops.map (fun o => (o.peer, o.work)) == [(some 2, .workRecord 1 0x100005 (natBytes 8 0x100005 ++ List.replicate 120 0))]) = true) ∧
    Reads (sWork c1post 1 0) c1post 0 [5, 6, 9] [(0x2000, .ui32), (0, .si32), (0x100005, .ui32)] ∧
    Finds (sWork c1post 1 0) c1post false [0] tVa (fun _ => (0x100005 : Word)) (tFound (sWork c1post 1 0) c1post false [0] tVa fun _ => (0x100005 : Word)).1
      (tFound (sWork c1post 1 0) c1post false [0] tVa fun _ => (0x100005 : Word)).2.hits :=
  ⟨by and_intros <;> (try unfold Ready) <;> (try unfold Crew.Room) <;> decide +kernel, reads_one (by decide +kernel), by and_intros <;> (try unfold Ready) <;> decide +kernel, reads_one (by decide +kernel),
    finds_of (by decide +kernel)⟩

def c1nstat : Crew := { c1 with nstatus := 3 }
theorem test_meets_jobs_posted_and_status :
    (Ready s1 (.netjob false 5) i1 c1 [0] ∧ (tFound s1 c1 false [0] tVa fun _ => ()).2.hits.length = 1 ∧ (∀ h ∈ (tFound s1 c1 false [0] tVa fun _ => ()).2.hits, s1.localFrame h.p = true) ∧ s1.seqBusy 1 0 1 = false ∧
      after (exec (.netjob false 5) s1) (fun t => t.jobs.map (fun j => (j.at_, j.rank, j.started)) == [(0x2000, 0, false)] && t.ops.all fun o => o.work == .job o.id) = true) ∧
    Reads s1 c1 0 [5, 6] [(0x2000, .ui32), (0, .si32)] ∧ Finds s1 c1 false [0] tVa (fun _ => ()) (tFound s1 c1 false [0] tVa fun _ => ()).1 (tFound s1 c1 false [0] tVa fun _ => ()).2.hits ∧
    (Ready (tState c1nstat Ext.zero) (.nstat false 10 9) i1 c1nstat [0] ∧ c1nstat.regsOk = true ∧ c1nstat.Room [0] [(10, .g)] ∧
      after (exec (.nstat false 10 9) (tState c1nstat Ext.zero)) (fun t => t.ops.map (fun o => o.work) == [.value 10 .ui32 .g [(0, 3)] [] []] && t.crews.all fun c => c.nstatus == 2) = true) ∧
    Reads (tState c1nstat Ext.zero) c1nstat 0 [9] [(1, .ui32)] :=
  ⟨by and_intros <;> (try unfold Ready) <;> decide +kernel, reads_one (by decide +kernel), finds_of (by decide +kernel), by and_intros <;> (try unfold Ready) <;> (try unfold Crew.Room) <;> decide +kernel,
    reads_one (by decide +kernel)⟩

/-! Queues: the descriptor of queue 3 at 0x2000 (ring 0x3000, HEAD 5), ENABLED, with its MAPPED and RUNNABLE bits and priority. -/

def tDesc (mapped runnable prio shadow : Nat) : Nat := 0x3000 + 2 ^ 64 + mapped * 2 ^ 65 + runnable * 2 ^ 66 + prio * 2 ^ 76 + 3 * 2 ^ 80 + 5 * 2 ^ 256 + shadow * 2 ^ 288
def tUq (tail : Word) : UserQueue := ⟨3, 0, 0x2000, tail, 0, 0, 0, 0⟩
/-- No issue at hand; a partition with core 0, the context of the tests. -/
def sEv : State := { s1 with cur := none, crews := [], partitions := [tPart] }
def sUq (d : Nat) (tail : Word) (ins : List Input) : State := { sEv with mem := cellWrite sEv.mem 0x2000 (natBytes 64 d), userQueues := [tUq tail], inputs := ins }
def tTask : TaskQueue := ⟨3, 0, 0x6000, [(.committed, 4), (.free, 0)], [0]⟩

theorem test_meets_notify_map_and_idle :
    (recF (tDesc 1 1 2 0) 64 1 = 1 ∧ 2 ^ (recF (tDesc 1 1 2 0) 72 4 + 6) < ((70 : Word) - uqHead (tDesc 1 1 2 0)).toNat ∧
      after (exec .notifyWrite (sUq (tDesc 1 1 2 0) 6 [.notify 3 70 4])) (fun t => t.mem == cellWrite sEv.mem 0x2000 (natBytes 64 (tDesc 1 1 2 0 + 2 ^ 224)) && t.inputs == [])) ∧
    (recF (tDesc 1 0 2 0) 65 1 = 1 ∧ ((6 : Word) - uqHead (tDesc 1 0 2 0)).toNat ≤ ((69 : Word) - uqHead (tDesc 1 0 2 0)).toNat ∧ ((69 : Word) - uqHead (tDesc 1 0 2 0)).toNat ≤ 2 ^ (recF (tDesc 1 0 2 0) 72 4 + 6) ∧
      after (exec .notifyWrite (sUq (tDesc 1 0 2 0) 6 [.notify 3 69 4])) (fun t => t.mem == cellWrite sEv.mem 0x2000 (natBytes 64 (tDesc 1 1 2 0)) && t.userQueues == [tUq 69])) ∧
    ((sUq (tDesc 0 1 2 7) 0 []).nextRunnable = some (tUq 0) ∧ (sUq (tDesc 0 1 2 7) 0 []).mappedQueues.length < Config.queueSlots ∧
      after (exec (.queueMap 3) (sUq (tDesc 0 1 2 7) 0 [])) (fun t => t.mem == cellWrite sEv.mem 0x2000 (natBytes 64 (tDesc 1 1 2 7)) && t.userQueues == [tUq 7])) ∧
    (uqHead (tDesc 1 0 2 0) = 5 ∧ after (exec (.queueIdleUnmap 3) { sUq (tDesc 1 0 2 0) 5 [] with ticks := 100000 }) (fun t => t.mem == cellWrite sEv.mem 0x2000 (natBytes 64 (tDesc 0 0 2 5)))) := by
  decide +kernel

def sSlots : State :=
  { State.reset with mem := [(0x2008, 0x07), (0x2009, 0x10), (0x2108, 0x05), (0x2109, 0x20)].map (fun p => ⟨p.1, p.2⟩),
                     userQueues := ⟨3, 0, 0x2000, 1, 0, 0, 0, 0⟩ :: ⟨4, 0, 0x2100, 1, 0, 0, 0, 0⟩ :: (List.range 1023).map fun n => ⟨n + 5, 0, 0x2000, 1, 0, 1, 0, 0⟩ }

theorem test_meets_eviction_suspend_and_priority :
    (sSlots.mappedQueues.length = Config.queueSlots ∧ sSlots.nextEvicted = some ⟨3, 0, 0x2000, 1, 0, 0, 0, 0⟩ ∧ sSlots.nextRunnable = some ⟨4, 0, 0x2100, 1, 0, 0, 0, 0⟩ ∧
      recF (sSlots.uqDesc ⟨3, 0, 0x2000, 1, 0, 0, 0, 0⟩) 76 4 < recF (sSlots.uqDesc ⟨4, 0, 0x2100, 1, 0, 0, 0, 0⟩) 76 4) ∧
    after (exec (.queueSuspend 3) (sUq (tDesc 1 0 2 0) 5 [])) (fun t => recF (cellNat t.mem 0x2000 64) 64 2 == 2) = true ∧
    after (exec (.priorityChange false 3 9) (sUq (tDesc 1 0 2 0) 5 [])) (fun t => cellNat t.mem 0x2000 64 == tDesc 1 0 9 0) = true ∧
    after (exec (.priorityChange true 3 9) { sUq (tDesc 1 0 2 0) 5 [] with taskQueues := [tTask] }) (fun t => cellNat t.mem 0x6000 64 == 9 * 2 ^ 84) = true := by
  decide +kernel

/-- The record read: launch 20 of 2 crews of 3 fibres, teams of 2, entry 0x8000, arguments 0x9000, 4 rows, 1 feed. -/
def tRecord : Nat := 0x8000 + 0x9000 * 2 ^ 64 + 2 * 2 ^ 192 + 3 * 2 ^ 224 + 2 * 2 ^ 235 + 4 * 2 ^ 242 + 2 ^ 249
def tLaunch (st : LaunchState) : Launch := ⟨20, 0, tRecord, false, 3, 5, st, 0, 0, false, 0, 0, []⟩
def sRec : State := { sUq (tDesc 1 1 2 0) 7 [] with mem := cellWrite (sUq (tDesc 1 1 2 0) 7 []).mem 0x3140 (natBytes 64 tRecord) }

theorem test_meets_record_read_and_dispatch :
    ((sRec.kernelPlace 0 (0x3000 + 64 * 5)).isSome = true ∧ sRec.launches = [] ∧
      after (exec (.launchRecordRead 3) sRec) (fun t => t.launches == [tLaunch .waiting] && recF (cellNat t.mem 0x2000 64) 256 32 == 6 && recF (cellNat t.mem 0x2000 64) 66 1 == 1) = true) ∧
    ((({ sRec with taskQueues := [tTask] } : State).kernelPlace 0 0).isSome = true ∧
      after (exec (.taskDispatch 3) { sRec with taskQueues := [tTask] }) (fun t => t.launches.map (fun l => (l.task, l.queue)) == [(true, 3)] && t.taskQueues == [⟨3, 0, 0x6000, [(.free, 4), (.free, 0)], []⟩]) = true) := by
  decide +kernel

def sLaunch (l : Launch) : State := { sRec with launches := [l] }
theorem test_meets_launches :
    (let l := tLaunch .waiting
     (sLaunch l).depState l = .holds ∧ (sLaunch l).launchOk l = true ∧ (sLaunch l).coresHold l ((sLaunch l).ctxCores 0) = true ∧
      after (exec (.launchDependencesSatisfied 20) (sLaunch l)) (fun t => t.launches == [{ tLaunch .distributing with entered := 20 }]) = true) ∧
    (let l := { tLaunch .waiting with record := tRecord + 2 ^ 253 }
     (sLaunch l).depState l = .holds ∧ (sLaunch l).launchOk l = false ∧ after (exec (.launchDependencesSatisfied 20) (sLaunch l)) (fun t => t.launches == [{ l with st := .rejected }]) = true) ∧
    (let l := { tLaunch .waiting with record := tRecord + 0x70002 * 2 ^ 352 }
     ({ sLaunch l with crumbs := [tCrumb] } : State).depState l = .fails ∧
      after (exec (.launchCancelled 20) { sLaunch l with crumbs := [tCrumb] }) (fun t => t.launches == [{ l with st := .cancelled }]) = true) ∧
    (let s := { sLaunch (tLaunch .distributing) with passed := [⟨.fresh 20, 1, false⟩, ⟨.fresh 21, 1, false⟩, ⟨.saved 2 20, 2, false⟩], ticks := 100001 }
     after (exec (.passedOverTimeout 20) s) (fun t => t.passed == [⟨.fresh 20, 1, true⟩, ⟨.fresh 21, 1, false⟩, ⟨.saved 2 20, 2, false⟩]) = true) := by
  decide +kernel

def tRequeue (n : Nat) : Requeue := ⟨n, 0, 20, 0, 0x4000, 0x1100, [(1, .si32)], [(2, .ui32)], 0⟩
theorem test_meets_relaunch :
    (let s := { sLaunch (tLaunch .resident) with requeues := [tRequeue 1, tRequeue 2, { tRequeue 3 with pc := 0x1200 }], ticks := 1000 }
     s.requeues.find? (fun y => y.launch == 20 && s.keyDue (tLaunch .resident) y) = some (tRequeue 1) ∧
      after (exec (.relaunchCrewFormation 20) s) (fun t => t.requeues == [{ tRequeue 3 with pc := 0x1200 }] && t.formed.map (fun f => f.slots) == [[0x4000, 0x4000]]) = true) := by
  decide +kernel
/-! ### States that meet the hypotheses of the statements: crews, arbitration, run boundaries, landings, with what the step then gives -/

def cReady (n : Nat) (f : Fibre → Fibre) : Crew := tFib (tCrew n) fun g => f { g with st := .ready }
/-- One crew of a test resident with no issue at hand, with a trap vector. -/
def sCrew (c : Crew) : State := { sEv with crews := [c], contexts := sEv.contexts.map fun x => { x with trapvec := 0x7000 } }

theorem test_meets_fresh_team :
    (let s := { sLaunch { tLaunch .distributing with anchored := true } with partitions := [tPart] }
     let l : Launch := { tLaunch .distributing with anchored := true }
     s.candidates 0 = [.fresh 20] ∧ s.getPart 0 = some tPart ∧ s.findPlace tPart l.need true 2 l.die (s.barredDies tPart l (.fresh 20)) = some ([(0, 0), (0, 2)], 0, 0) ∧ s.crews = [] ∧
      after (exec (.distributorRound 0) s) (fun t => t.crews.map (fun c => (c.core, c.lane, c.index, c.teamPos, c.size)) == [(0, 0, 0, 0, 3), (0, 2, 1, 1, 3)] && t.launches.map (fun l => l.st) == [.resident]) = true) := by
  decide +kernel

theorem test_meets_preemption :
    (let s := { sCrew (cReady 2 id) with inputs := [.preempt 2 [⟨1, 0x40000, 0x50000⟩]] }
     s.crews.all (fun c => c.team == 2 && c.life == .resident && s.saveReady c && (areaOf [⟨1, 0x40000, 0x50000⟩] c).isSome) = true ∧
      after (exec .preemption s) (fun t => t.crews.map (fun c => (c.life, c.area, c.image)) == [(.saved, 0x40000, 0x50000)] && t.teams.all fun x => x.saved) = true) := by
  decide +kernel

theorem test_meets_partitions_and_completion :
    (after (exec .partitionResize { sEv with inputs := [.resize 1 [2, 1]] }) (fun t => t.partitions == [tPart, newPartition 1 [1, 2]]) = true) ∧
    (sEv.getPart 0 = some tPart ∧ sEv.resizeBreaks tPart [1, 3] = false ∧
      after (exec .partitionResize { sEv with inputs := [.resize 0 [3, 1]] }) (fun t => t.partitions == [{ tPart with cores := [0, 1, 3], leaving := [0] }]) = true) ∧
    (let s : State := { sEv with partitions := [{ tPart with cores := [0, 1], leaving := [0] }] }
     after (exec (.coreLeavesPartition 0) s) (fun t => t.partitions.map (fun p => (p.cores, p.leaving)) == [([1], [])]) = true) ∧
    ((cReady 2 fun f => { f with live := false, st := .retired }).liveSet = [] ∧
      after (exec (.crewCompletion 1) (sCrew (cReady 2 fun f => { f with live := false, st := .retired }))) (fun t => t.crews.all fun c => c.life == .completed && c.tiles == []) = true) := by
  decide +kernel

def sWaits : State := { sCrew c2 with waiting := [i2] }
theorem test_meets_arbitration :
    (sWaits.crewAt 0 0 = some c2 ∧ sWaits.waiting.find? (fun y => y.onLane c2 0 && sWaits.triable c2 y) = some i2 ∧ after (exec (.laneArbitration 0 0) sWaits) (fun t => t.cur == some i2 && t.waiting == []) = true) ∧
    (let s := sCrew (cReady 2 id)
     let r := (s.askCommits (cReady 2 id) 0).tryAll 1 true ((cReady 2 id).candidates [0, 1])
     s.crewAt 0 0 = some (cReady 2 id) ∧ (cReady 2 id).converged = true ∧ r.2.map (fun x => x.1) = [[0, 1]] ∧ (r.1.getCrew 1).any (fun c1 => bestOf (fun a b => keyLt (c1.key a.1) (c1.key b.1)) r.2 == r.2.head? && c1.converged) = true ∧
      after (exec (.laneArbitration 0 0) s) (fun t => t.cur.map (fun i => (i.ranks, i.pc)) == some ([0, 1], 0x1000) && t.crews.all fun c => c.fibres.all fun f => f.st == .issuing) = true) ∧
    (let i := { i2 with code := [.word (natBytes 4 0x28000000)] }
     let s := { sWaits with waiting := [i] }
     bestOf s.unitLt (s.waiting.filter (s.requests 0 .loadStore)) = some i ∧ after (exec (.unitArbitration 0 .loadStore) s) (fun t => t.cur == some i && t.waiting == [] && t.unitOwner.contains (0, .loadStore, 1)) = true) := by
  decide +kernel

theorem test_meets_restart_and_deferred_trap :
    (let s := sCrew (cReady 2 fun f => { f with st := .held, restart := true, pc := 0x1200 })
     after (exec (.steppingModeRestart 1) s) (fun t => t.crews.all fun c => c.fibres.all fun f => f.pc == 0x1000 && f.st == .ready && f.stepping && !f.restart) = true) ∧
    (let s := sCrew (cReady 2 fun f => { f with deferred := some ⟨.poison, 5⟩, pc := 0x1200 })
     (s.getCtx 0).all (fun x => x.trapvec == 0x7000) = true ∧
      after (exec (.deferredPoisonTrap 1 1) s) (fun t => t.crews.all fun c => !c.converged && c.fibTest (fun f => f.trapPc == 0x1200 && f.trapAddr == 5 && f.trapMode && f.pc == 0x7000 && f.deferred.isNone) 1 &&
        c.fibTest (fun f => f.pc == 0x1200 && f.deferred.isSome) 0) = true) := by
  decide +kernel

theorem test_meets_interrupt_validation_and_token :
    (let c := { cReady 2 fun f => { f with uiPend := [none, none, some true, some false], pc := 0x1200 } with uiVec := 0x7100 }
     after (exec (.userInterruptEntry 1 0) (sCrew c)) (fun t => t.crews.all fun c => c.fibTest (fun f => f.uiRpc == 0x1200 && f.uiAct && f.uiCause == 6 && f.pc == 0x7100 && f.uiPend == [none, none, none, some false]) 0) = true) ∧
    (let s (b : Byte) := { sCrew (cReady 1 fun f => { f with tx := some (tAttempt 1 [tRead b] []) }) with ticks := 16384 }
     (s 0).logStale 0 (tAttempt 1 [tRead 0] []) = false ∧ (s 1).logStale 0 (tAttempt 1 [tRead 1] []) = true ∧
      after (exec (.interimValidation 1 0) (s 1)) (fun t => t.crews.all fun c => c.fibTest (fun f => f.tx.isNone && f.txCause.toNat == TxCause.conflict.code && f.abortCount == 1 && f.pc == 0x1004) 0) = true ∧
      after (exec (.interimValidation 1 0) (s 0)) (fun t => t.crews.all fun c => c.fibTest (fun f => f.tx == some { tAttempt 1 [tRead 0] [] with checked := 16384 }) 0) = true) ∧
    (let c (b : Option (Reg × PReg)) : Crew := { cReady 2 fun f => { f with st := .awaitToken, begins := b } with regs := c2.regs.set 12 ⟨.g, .f32, 1, 0⟩ }
     let s (b : Option (Reg × PReg)) : State := { sCrew (c b) with token := ⟨none, [(1, 1, 4)]⟩ }
     (c none).regsOk = true ∧ ((c none).desc 12).shape = .g ∧ after (exec .serialTokenGrant (s none)) (fun t => t == { s none with token := ⟨some (1, 1), []⟩ }) = true ∧
      after (exec .serialTokenGrant (s (some (12, 3)))) (fun t => t.token == ⟨some (1, 1), []⟩ && t.crews.all fun c => (c.desc 12).tag == .ui32 && c.elem 12 0 == 7 && c.elem 12 1 == 0 &&
        c.fibTest (fun f => f.st == .ready && f.pc == 0x1004 && f.pred 3 && f.tx.any fun a => a.serial && a.depth == 1 && a.target == 0x1004) 1) = true) := by
  decide +kernel

/-- A crew whose v104 to v111 are G, on rows of their own. -/
def c2reply : Crew := { c2 with regs := (List.range 120).map fun r => if 104 ≤ r && r < 112 then ⟨.g, .ui32, BitVec.ofNat 32 (r - 104), 0⟩ else tReg .si32 9, fibres := c2.fibres.map fun f => { f with st := .held } }
theorem test_meets_syscall_reply :
    (let s := { sCrew c2reply with syscalls := [⟨1, 0, 3, 3, 104, [⟨1, [], none⟩]⟩] }
     c2reply.regsOk = true ∧ (∀ i ∈ List.range 8, (c2reply.desc (104 + i)).shape = .g) ∧
      after (exec (.syscallReply 1 1 [5, 6]) s) (fun t => t.syscalls == [] && t.crews.all fun c => c.fibTest (fun f => f.st == .ready) 1 && [104, 105, 106].map (fun r => c.elem r 1) == [5, 6, 0] && c.elem 104 0 == 7) = true) := by
  decide +kernel

/-- An operation outstanding of both fibres of the crew. -/
def tOut (w : Work) : Op := { tOp 30 w with ranks := [0, 1] }
def sOp (o : Op) : State := { sCrew c2reply with ops := [o], nextId := 31, mem := cellWrite sEv.mem 0x2000 [1, 2, 3, 4, 5, 6, 7, 8] }

theorem test_meets_results :
    (let o := tOut (.value 104 .si32 .g [(0, 3), (1, 4)] [(1, 2, true)] [(0, 1)])
     (sOp o).getOp 30 = some o ∧
      after (exec (.resultLanding 30) (sOp o)) (fun t => t.ops == [] && t.crews.all fun c => c.elem 104 0 == 3 && c.elem 104 1 == 4 && (c.desc 104).tag == .si32 && c.fibTest (fun f => f.pred 2) 1 && c.fibTest (fun f => f.fpstat == 1) 0) = true) ∧
    (let o := tOut (.load tPlace 104 2 .f32 .g 0)
     (sOp o).opReady o = true ∧ (sOp o).runOn o = false ∧ (sOp o).poisonedAt tPlace 8 = false ∧ (sOp o).copyBad 0 tPlace 0 = false ∧ ((sOp o).loadBytes 0 0 0x2000 tPlace 8 0).2 = [1, 2, 3, 4, 5, 6, 7, 8] ∧
      after (exec (.resultLanding 30) (sOp o)) (fun t => t.crews.all fun c => c.elem 104 0 == 0x04030201 && c.elem 105 1 == 0x08070605 && (c.desc 105).tag == .f32) = true) ∧
    (let o := { tOut (.atom tPlace .add 104 .ui32 16) with ranks := [1] }
     (sOp o).atomGroup o = [o] ∧ (sOp o).groupReady [o] = true ∧ ((((sOp o).dropCopies 0 tPlace 4).noteAccess 0 0 0x2000 tPlace).settledWord tPlace).2 = 0x04030201 ∧
      after (exec (.resultLanding 30) (sOp o)) (fun t => cellNat t.mem 0x2000 4 == 0x04030211 && t.crews.all fun c => c.elem 104 1 == 0x04030201 && c.elem 104 0 == 7) = true) ∧
    (let o := { tOut (.cas tPlace 104 0x04030201 9) with ranks := [1] }
     (sOp o).atomGroup o = [o] ∧ (sOp o).groupReady [o] = true ∧ after (exec (.resultLanding 30) (sOp o)) (fun t => cellNat t.mem 0x2000 4 == 9) = true) := by
  decide +kernel

theorem test_meets_performed_stores :
    (let o := { tOut (.store tPlace [9, 9, 9] false) with ranks := [0] }
     (sOp o).opReady o = true ∧ tPlace.isDev = false ∧ tPlace.isHost = false ∧ Memory.wf (sOp o) ∧ (sOp o).redBuf = [] ∧ after (exec (.storePerform 30) (sOp o)) (fun t => cellRead t.mem 0x2000 4 == [9, 9, 9, 4]) = true) ∧
    (let o := { tOut (.red tPlace .add .ui32 16) with ranks := [0] }
     (sOp o).opReady o = true ∧ after (exec (.storePerform 30) (sOp o)) (fun t => t.accs.map (fun a => a.v) == [0x04030211] && t.ops == []) = true) ∧
    (let o := tOut (.fill [tPlace, tPlace.plus 64] 3 .word)
     (sOp o).opReady o = true ∧ (sOp o).poison = [] ∧ after (exec (.tileFillCompletion 30) (sOp o)) (fun t => t.crews.all fun c => (c.tiles[3]?).any fun x => x.st == .ready && x.words.take 2 == [0x04030201, 0x08070605]) = true) ∧
    (let o := tOut (.drain [tPlace, tPlace.plus 64] 3 .word false)
     (sOp o).opReady o = true ∧ after (exec (.tileDrainCompletion 30) (sOp o)) (fun t => cellNat t.mem 0x2000 1 == 1 && (t.crews.all fun c => (c.tiles[3]?).any fun x => x.st == .empty) &&
        t.ops == [{ o with work := .drained [tPlace, tPlace.plus 64] (List.replicate 1024 0) }]) = true) ∧
    (let o := tOut (.drained [tPlace, tPlace.plus 64] (9 :: List.replicate 127 0))
     (sOp o).opReady o = true ∧ after (exec (.tileDrainCompletion 30) (sOp o)) (fun t => cellNat t.mem 0x2000 8 == 9 && t.ops == []) = true) ∧
    (let o := { tOut (.tlbinv 0x2000 0) with ranks := [0] }
     let e (page : Nat) : TlbEntry := ⟨false, 0, 0, page, 12, 0x600F⟩
     (sOp o).opReady o = true ∧ after (exec (.storePerform 30) { sOp o with tlb := [e 2, e 3] }) (fun t => t.tlb == [e 3] && t.ops == []) = true) ∧
    (let o (b : Bool) := { tOut (.lines b 0x2000 40) with ranks := [0] }
     let x (n : Nat) : CacheSector := ⟨0, n, List.replicate 32 7, false, [], [], false, false⟩
     (sOp (o true)).opReady (o true) = true ∧ (sOp (o false)).opReady (o false) = true ∧ (sOp (o true)).linesStuck 0 0x2000 40 = false ∧
      after (exec (.storePerform 30) { sOp (o false) with remoteCache := [x 0x100, x 0x101, x 0x103, x 0x104] }) (fun t => t.remoteCache == [x 0x104] && t.ops == []) = true) := by
  decide +kernel

theorem test_meets_notify_stores :
    let o := tOp 30 (.store (.mem (devBase + 64 * 3) devBase 0 false) (natBytes 4 69) false)
    let s := { sUq (tDesc 1 0 2 0) 6 [] with ops := [o], nextId := 31 }
    s.getOp 30 = some o ∧ s.opReady o = true ∧ inDev (paLocal (devBase + 64 * 3)) = true ∧ devOffset (devBase + 64 * 3) % 64 = 0 ∧ s.accs = [] ∧
      after (exec (.storePerform 30) s) (fun t => t.mem == cellWrite sEv.mem 0x2000 (natBytes 64 (tDesc 1 1 2 0)) && t.userQueues == [tUq 69] && t.ops == []) = true := by
  decide +kernel

/-- A store of fibre 0 performs ahead of an older one of its sequence (06_consistency R159); fibre 1 of the core keeps from its bytes until the older one has performed (R158), and from no others. -/
theorem test_overtaking :
    let far := tPlace.plus 64
    let old := tOp 30 (.store tPlace [9] false)
    let new := tOp 31 (.store far [9] false)
    let other (p : Place) : Op := { tOp (if p = far then 33 else 32) (.load p 104 1 .f32 .g 0) with ranks := [1], run := 6 }
    let s : State := { sOp old with ops := [old, new, other tPlace, other far], nextId := 34 }
    let z : Overtaken := ⟨0, 1, [0], [(far, 1)], true, [30], 0⟩
    let u : State := { s with overtaken := [z], ops := [old, other far] }
    s.opReady new = true ∧ after (exec (.storePerform 31) s) (fun t => t.overtaken == [z] && t.ops == [old, other tPlace, other far] && !t.opReady (other far) && t.opReady (other tPlace)) = true ∧
    after (exec (.storePerform 30) u) (fun t => t.overtaken == [] && t.opReady (other far)) = true := by
  decide +kernel

def hPlace : Place := .mem 0x20000002000 0 0 false
def tHost (dirty : Bool) : CacheSector := ⟨0, 0x20000002000 / 32, List.replicate 32 7, false, true :: List.replicate 31 dirty, [], false, false⟩
theorem test_meets_host_and_buffers :
    (let o := { tOut (.hostAtom hPlace (some .add) 104 [(0, 2, 0), (1, 3, 0)] .ui32) with host := true }
     (sOp o).opReady o = true ∧ after (exec (.hostAtomicCompletion 30 true) (sOp o)) (fun t => cellNat t.mem 0x20000002000 4 == 5 && t.crews.all fun c => c.elem 104 0 == 0 && c.elem 104 1 == 2) = true) ∧
    (let s := { sOp tStore with redBuf := [⟨0, 0, 1, 0, 0, tPlace, .add, .ui32, 16, false⟩, ⟨1, 0, 1, 0, 0, tPlace, .add, .ui32, 16, false⟩] }
     after (exec (.reductionBufferPass 0) s) (fun t => t.accs.map (fun a => a.v) == [0x04030211] && t.redBuf.map (fun x => x.core) == [1]) = true) ∧
    (let s := { sOp tStore with hostL2 := [tHost false] }
     inHost 0x20000002000 = true ∧ Memory.wf s ∧ s.hostLost = false ∧ s.powered = true ∧ s.hostL2.filter (fun y => y.sector == (tHost false).sector) = [tHost false] ∧
      after (exec (.l2Writeback (0x20000002000 / 32)) s) (fun t => cellNat t.mem 0x20000002000 4 == 7 && t.hostL2 == []) = true) := by
  decide +kernel
/-! ### States that meet the hypotheses of the statements: counters, pipes, channels, translation, migration, packages, with what the step then gives -/

def tFire (action : Nat) (operand : DWord) (taint : Bool) : Firing := ⟨40, 0, 0, 7, action, operand, 12, taint⟩
def sFire (f : Firing) : State := { sCrew (cReady 1 id) with firings := [f], crumbs := [tCrumb], taskQueues := [tQueue .free .reserved], mem := cellWrite sEv.mem 0x3000 (natBytes 16 (barStep 0 (.init 2))) }

theorem test_meets_firings :
    ((sFire (tFire 0 0x3000 false)).kernelPlace 0 0x3000).isSome = true ∧ (sFire (tFire 0 0x3000 false)).fireWaits (tFire 0 0x3000 false) = none ∧ after (exec (.crumbFiring 40) (sFire (tFire 0 0x3000 false))) (fun t => recF (cellNat t.mem 0x3000 16) 8 20 == 1 && t.firings == []) = true ∧
    after (exec (.crumbFiring 40) (sFire (tFire 0 0x3000 true))) (fun t => recF (cellNat t.mem 0x3000 16) 4 1 == 1 && recF (cellNat t.mem 0x3000 16) 96 16 == 8) = true ∧
    (sFire (tFire 1 0x7F0001 false)).handleSlot 0 0x7F0001 = some (tQueue .free .reserved, 1) ∧
    after (exec (.crumbFiring 40) (sFire (tFire 1 0x7F0001 false))) (fun t => t.taskQueues == [{ tQueue .free .committed with order := [1] }]) = true ∧
    after (exec (.crumbFiring 40) (sFire (tFire 1 0x7F0001 true))) (fun t => t.taskQueues == [tQueue .free .free]) = true ∧
    (sFire (tFire 2 0x70003 false)).crumb 0x70003 = some tCrumb ∧ after (exec (.crumbFiring 40) (sFire (tFire 2 0x70003 false))) (fun t => t.crumbs == [{ tCrumb with count := 17 }]) = true := by
  decide +kernel

def tWaits (n : Nat) : Crew := cReady 1 fun f => { f with st := .blocked, recvs := [⟨0x1000, n, none⟩] }
def sAppend (p : Pipe) : State := { sCrew (tWaits 1) with pipes := [p], ops := [tOp 30 (.append 1 3 9 .f32)] }

theorem test_meets_appends_and_segments :
    after (exec (.pipeAppend 30) (sAppend tPipe)) (fun t => t.pipes.map (fun p => p.entries) == [[(5, .si32), (9, .f32)]] && t.ops == []) = true ∧
    after (exec (.pipeAppend 30) (sAppend { tPipe with entries := [], regs := [(1, 0, 0x1000, 5)] }))
      (fun t => t.pipes.map (fun p => (p.entries, p.regs)) == [([], [])] && t.crews.all fun c => c.fibTest (fun f => f.recvs == [⟨0x1000, 1, some (9, .f32)⟩]) 0) = true ∧
    (let s := { sAppend { tPipe with fullSince := some 3 } with ticks := 4003 }
     s.pool 0 = 4 ∧ after (exec (.pipeOverflowSegment 1) s) (fun t => t.pipes.map (fun p => p.segments) == [1] && t.pool 0 == 3) = true) := by
  decide +kernel

theorem test_meets_cycles_and_destruction :
    (let s := { sCrew (tWaits 1) with pipes := [{ tPipe with entries := [], regs := [(1, 0, 0x1000, 5)] }] }
     s.setRegs (s.cycleSet 1 [1]) = [(1, 0, 1, 0x1000, 5)] ∧ s.moreCrews 0 = false ∧
      after (exec (.pipeCycleInspection 0) s) (fun t => t.crews.all fun c => c.fibTest (fun f => f.trapCause == 0x14 && f.trapPc == 0x1000 && f.trapAddr == 0x30001 && f.pc == 0x7000) 0) = true ∧
      after (exec (.pipeDestroy 1) s) (fun t => t.pipes == [] && t.crews.all fun c => c.fibTest (fun f => f.trapCause == 0x11 && f.trapPc == 0x1000 && f.pc == 0x7000) 0) = true) := by
  decide +kernel

/-- A record at 0x2000 that copies 64 bytes from 0x3000 to 0x4000, with OWN. -/
def tXfer : Nat := 0x3000 * 2 ^ 64 + 0x4000 * 2 ^ 128 + 64 * 2 ^ 320 + 2 ^ 352 + 2 ^ 448 + 2 ^ 449
def tHead : Head := ⟨30, 0, 1, 0, 0x2000, false⟩
def sChan (x : Channel) : State := { sCrew (cReady 1 id) with chans := [x], mem := cellWrite (cellWrite sEv.mem 0x2000 (natBytes 64 tXfer)) 0x3000 [1, 2, 3, 4] }
def tTransfer (left : List (Option Nat × Nat × Nat)) (fault : Option Nat) : Transfer := ⟨41, 0, 2, tHead, 0x2000, tXfer, left, [], fault⟩
def sXfer (left : List (Option Nat × Nat × Nat)) (fault : Option Nat) : State := { sChan ⟨0, 2, [], some tHead, none, false⟩ with transfers := [tTransfer left fault] }

theorem test_meets_channels :
    after (exec (.copyHeadTaken 0 2) (sChan ⟨0, 2, [tHead], none, none, false⟩)) (fun t => t.channel 0 2 == ⟨0, 2, [], some tHead, some 0x2000, false⟩) = true ∧
    (let s := sChan ⟨0, 2, [], some tHead, some 0x2000, false⟩
     ((s.getCrew 1).any fun c => s.barOk c 0 && s.recordOk c tXfer && s.barWaits 0 c 0 == none && s.squeezeMiss 0 c tXfer == none && s.endWaits c 0x2000 (some (tTransfer [] none)) == none &&
        (match s.engRead 0 c 0x2000 64 with | (s1, .ok bs false) => bytesNat bs == tXfer && s1.barOk c 0 && s1.recordOk c tXfer && s1.squeezeMiss 0 c tXfer == none | _ => false) &&
        (match s.sectorBytes 0 c tXfer 0 0 32 with | (s1, .ok _ false) => (match (s1.noteAt 0 c 0x4000).engPlace 0 c 0x4000 32 true with | (s2, .ok p) => !s2.unknownDevice p && s2.peerOf p == none | _ => false) | _ => false)) = true ∧
      after (exec (.transferRecordFetch 0 2) s) (fun t => t.transfers.map (fun x => (x.at_, x.record, x.left)) == [(0x2000, tXfer, [(none, 0, 0), (none, 0, 1)])]) = true) ∧
    after (exec (.sectorLanding 41 0) (sXfer [(none, 0, 0), (none, 0, 1)] none)) (fun t => cellRead t.mem 0x4000 4 == [1, 2, 3, 4] && t.transfers.map (fun x => x.left) == [[(none, 0, 1)]]) = true ∧
    after (exec (.recordCompletion 41) (sXfer [] none)) (fun t => t.transfers == [] && recF (cellNat t.mem 0x2000 64) 448 1 == 0) = true ∧
    after (exec (.recordPoison 41) (sXfer [(none, 0, 1)] (some 5))) (fun t => t.transfers == [] && t.crews.all fun c => c.chans[2]? == some ⟨5, true⟩) = true := by
  decide +kernel

/-- A feed of F32 elements bound to the record at 0x2000 of a tensor at 0x3000. -/
def sFeed : State :=
  { sCrew (cReady 1 fun f => { f with feeds := [⟨0x2000, 0, 0, false, []⟩] }) with mem := cellWrite (cellWrite sEv.mem 0x2000 (natBytes 32 (0x3000 + 2 * 2 ^ 64 + 2 ^ 96 + 4 * 2 ^ 128 + 2 ^ 160))) 0x3000 [1, 2, 3, 4] }
def fedElem : Option FeedEntry := match (sFeed.getCrew 1).bind fun c => (c.fib 0).map fun f => (c, f) with
  | some (c, f) => (match sFeed.feedElem c f 0 0x2000 0 with | (_, .entry e) => some e | _ => none)
  | none => none

theorem test_meets_feeds :
    fedElem = some ⟨0x04030201, .f32, none⟩ ∧ (sFeed.getCrew 1).any (fun c => c.fibTest (fun f => sFeed.isIndexQueue 0 f 0 == false) 0) = true ∧
    after (exec (.feedElementFetch 1 0 0) sFeed) (fun t => t.crews.all fun c => c.fibTest (fun f => f.feeds.map (fun y => y.entries) == [fedElem.toList]) 0) = true := by
  decide +kernel

def tMiss (st : MissState) : Miss := ⟨50, 0, 0x80000000, false, st, 1, [0]⟩
def sMiss (st : MissState) (backed : List (Nat × Nat)) : State :=
  { sCrew (cReady 1 fun f => { f with st := .held }) with misses := [tMiss st], contexts := sEv.contexts.map fun x => { x with backed := backed } }
def tHeldNow (t : State) : Bool := t.crews.all fun c => c.fibTest (fun f => f.st == .ready) 0
/-- The kernel's write of a leaf for the page. -/
def tLeaf : List (Nat × DWord) := [(0x12010, 0x600F)]

theorem test_meets_misses :
    (sMiss .kernel []).walk 0 0x80000000 = .missing 0x12010 ∧ (sMiss .kernel []).switchingAt 0 0x80000000 = false ∧
    after (exec (.missResolution 50 []) (sMiss .kernel [])) (fun t => t.misses == [] && tHeldNow t && t.refused == [⟨0, 0x8000⟩]) = true ∧
    after (exec (.missResolution 50 tLeaf) (sMiss .kernel [(0x80000000, 65536)])) (fun t => t.misses == [] && tHeldNow t && t.refused == [] && cellNat t.mem 0x12010 8 == 0x600F) = true ∧
    after (exec (.atsCompletion 50 true) (sMiss .atsSent [])) (fun t => t.misses == [] && tHeldNow t && t.hostMapped == [(0, 0x8000)]) = true ∧
    after (exec (.atsCompletion 50 false) (sMiss .atsSent [])) (fun t => t.misses == [tMiss .priSent]) = true ∧
    after (exec (.priResponse 50 true) (sMiss .priSent [])) (fun t => t.misses == [tMiss .atsSent]) = true ∧
    after (exec (.priResponse 50 false) (sMiss .priSent [])) (fun t => t.misses == [] && t.refused == [⟨0, 0x8000⟩]) = true := by
  decide +kernel
theorem test_meets_walks_and_invalidations :
    (let s := sCrew (cReady 1 id)
     s.walk 0 0x4000 = .leaf 0x12000 0x600F 30 ∧ s.leafBad 0x600F 30 = false ∧ s.tlb = [] ∧
      after (exec (.pageWalk 0 0 0x4000) s) (fun t => t.tlb.map (fun e => (e.l2, e.unit, e.page)) == [(false, 0, 0), (true, 0, 0)] && cellNat t.mem 0x12000 8 == 0x600F) = true) ∧
    (let s : State := { sEv with hostMapped := [(0, 0x8000), (0, 0x8002)] }
     after (exec (.atsInvalidationRequest 0 0x80000004 65536) s) (fun t => t.hostMapped == [(0, 0x8002)]) = true) := by
  decide +kernel

theorem test_meets_teardown :
    (let s := { sOp (tOp 30 (.fence .sc 1)) with pipes := [tPipe], misses := [tMiss .kernel], launches := [tLaunch .resident] }
     (s.getCtx 0).any (fun c => !c.down) = true ∧
      after (exec (.teardown 0) s) (fun t => t.crews == [] && t.ops == [] && t.pipes == [] && t.misses == [] && t.launches.all (fun l => l.st == .tornDown) && (t.getCtx 0).all fun c => c.down && c.tdCause == 0xFFFFFFFF && c.bits.getLsbD 0) = true) := by
  decide +kernel

/-- The page at 2 MiB by an entry of level 2, its frame at 2 MiB. -/
def sMig : State :=
  { sCrew (cReady 1 id) with mem := cellWrite (cellWrite (cellWrite sEv.mem 0x12000 (natBytes 8 0x13001)) 0x13008 (natBytes 8 0x2060CF)) 0x200000 [1, 2, 3], accessCounts := [(0x20, 1, 9)], migThreshold := 8 }
def tMig (st : MigState) (dirty : List Nat) : Migration := ⟨60, 0, 0x200000, 0x13008, 0x200000, 0x2000600000, 0x200000, st, dirty, 1, []⟩

theorem test_meets_migration :
    ∃ pte, sMig.walk 0 0x200000 = .leaf 0x13008 pte 21 ∧ sMig.leafBad pte 21 = false ∧ sMig.mayMove pte 0x200000 = true ∧ sMig.crossed 0x200000 0x200000 1 = true ∧ pteFrame pte = 0x200000 ∧
      sMig.frameFits pte 0x2000600000 0x200000 1 = true ∧ rangesMeet 0x200000 0x200000 0x2000600000 0x200000 = false ∧
      after (exec (.migrationStart 0 0x200000 1 0x2000600000) sMig) (fun t => t.migrations == [{ tMig .copying [] with id := 20 }]) = true ∧
      after (exec (.migrationCopyPassEnd 60) { sMig with migrations := [tMig .copying (List.range 65)] }) (fun t => t.migrations == [{ tMig .copying [] with passes := 2 }]) = true ∧
      after (exec (.migrationCopyPassEnd 60) { sMig with migrations := [tMig .copying (List.range 64)] }) (fun t => t.migrations.map (fun m => m.st) == [.switching] && cellNat t.mem 0x13008 8 == 0x2060CE) = true ∧
      after (exec (.migrationCopyPassEnd 60) { sMig with mem := cellWrite sMig.mem 0x13008 [0xCE], migrations := [tMig .copying []] }) (fun t => t.migrations == []) = true ∧
      rangesMeet 0x13008 8 0x2000600000 0x200000 = false ∧
      after (exec (.migrationInvalidationComplete 60) { sMig with mem := cellWrite sMig.mem 0x13008 [0xCE], migrations := [tMig .switching []], ops := [tOp 3 (.store (.mem 0x200001 0x200000 0 false) [9] false)] })
        (fun t => cellRead t.mem 0x2000600000 3 == [1, 2, 3] && t.migrations.map (fun m => (m.st, m.held)) == [(.settling, [3])] && t.ops.map (fun o => o.work) == [.store (.mem 0x2000600001 0x2000600000 0 false) [9] false]) = true ∧
      after (exec (.oldFrameFreed 60) { sMig with migrations := [tMig .settling []] }) (fun t => t.migrations == []) = true := by
  refine ⟨0x2060CF, ?_⟩
  decide +kernel

/-! Requests between packages. -/

def tRemote (w : Work) : Op := { tOut w with peer := some 3, ranks := [0] }
def sRemote (o : Op) : State := { sOp o with ticks := 20000, partitions := [{ tPart with timeout := 20000 }] }

theorem test_meets_remote_requests :
    (let o := tRemote (.load tPlace 104 2 .f32 .g 0)
     (sRemote o).opReady o = true ∧ o.sentAt + (sRemote o).ctxTimeout 0 ≤ (sRemote o).ticks ∧ (sRemote o).frozenHeld o = false ∧
      after (exec (.sequenceFreeze 30) { sRemote { o with seqs := 2 } with ticks := 7 }) (fun t => t.frozen == [⟨1, 0, 1, 30, 7⟩] && t.ops.map (fun q => (q.frozen, q.sentAt)) == [(true, 7)]) = true ∧
      after (exec (.remoteRequestTimeout 30 true) (sRemote o)) (fun t => t.ops == [] && t.crews.all fun c => c.elem 105 0 == 0xFFFFFFFF && c.elem 105 1 == 7 && c.nstatus == 1) = true) ∧
    (let o := { tRemote (.store tPlace [9] false) with frozen := true, seqs := 2 }
     after (exec (.sequenceResume 1 0 1 true) { sRemote o with frozen := [⟨1, 0, 1, 30, 7⟩], ticks := 9 }) (fun t => t.frozen == [] && t.ops.map (fun q => (q.frozen, q.sentAt)) == [(false, 9)]) = true) ∧
    (let o := tRemote (.store tPlace [9] false); (sRemote o).opReady o = true ∧ (sRemote o).runOn o = false) ∧
    (∀ b ∈ [false, true], after (exec (.remoteRequestTimeout 30 b) (sRemote (tRemote (.store tPlace [9] false))))
      (fun t => cellRead t.mem 0x2000 2 == [if b then 9 else 1, 2] && t.crews.all fun c => c.nstatus == 4) = true) := by
  decide +kernel

theorem test_meets_records_planes_and_exports :
    (let o := { tRemote (.workRecord 1 0x100005 [1, 2]) with peer := some 2 }
     let s := { sOp o with mem := (sWork c1 1 0).mem, workChans := (sWork c1 1 0).workChans }
     s.opReady o = true ∧ after (exec (.remoteWorkRecordLanding 30) s) (fun t => t.responses == [⟨2, 0x8000 + 128 * 5, .record, [1, 2], false⟩]) = true) ∧
    after (exec (.planeRemap 7) State.reset) (fun t => t.planes == [0, 1, 2, 3, 4, 5, 6, 0] && t.livePlanes == [true, true, true, true, true, true, true, false]) = true ∧
    after (exec .consumedWordWrite { sWork c1 1 0 with inputs := [.consumed 1 3] }) (fun t => recF (t.wcDesc (tChan 0)) 224 32 == 3 && t.workChans.map (fun w => w.consumed) == [3]) = true ∧
    after (exec .consumedWordWrite { sWork c1 1 0 with inputs := [.consumed 1 17] }) (fun t => recF (t.wcDesc (tChan 0)) 288 32 == 1 && t.workChans == [tChan 0]) = true ∧
    (let s (q : RemoteReq) : State := { sOp tStore with exports := [⟨3, 1, 0x2000, 4096, true, 0, false⟩, ⟨3, 1, 0x4000, 4096, false, 0, false⟩], inputs := [.request q] }
     after (exec .targetExportCheck (s ⟨4, 1, 0x2000, .load 4⟩)) (fun t => t.responses == [⟨4, 0x2000, .miss, [], false⟩] && t.exportMisses == [⟨4, 1, 0x2000⟩]) = true ∧
      after (exec .targetExportCheck (s ⟨3, 1, 0x2000, .load 4⟩)) (fun t => t.responses == [⟨3, 0x2000, .done, [1, 2, 3, 4], false⟩]) = true ∧
      after (exec .targetExportCheck (s ⟨3, 1, 0x4000, .store [8]⟩)) (fun t => t.responses == [⟨3, 0x4000, .fatal, [], false⟩]) = true ∧
      after (exec .targetExportCheck (s ⟨3, 1, 0x2002, .store [8]⟩)) (fun t => t.responses == [⟨3, 0x2002, .done, [], false⟩] && cellRead t.mem 0x2000 4 == [1, 2, 8, 4]) = true) := by
  decide +kernel

/-! Jobs, rays and encoders. -/

/-- A sum of 32 elements of F32 at 0x2000 to 0x4000, of two members. -/
def tJob : Job := ⟨70, 30, 0, 1, 0, 0x6000, 0x2000 + 0x4000 * 2 ^ 64 + 32 * 2 ^ 256 + 2 ^ 304 + 4 * 2 ^ 325 + 2 ^ 328, false, [], [], []⟩
def tGroup (n : Nat) : Group := ⟨1, 0, 2, 1, [(5, true), (0, false)], n⟩
def sJob (j : Job) : State :=
  { sCrew (cReady 1 id) with groups := [tGroup 0], jobs := [j], ops := [tOp 30 (.job 70)], mem := cellWrite sEv.mem 0x2000 (natBytes 4 0x40000000), partitions := [{ tPart with timeout := 20000 }] }
def tMember : JobMember := ⟨0, 4, 0, 0, 0, 32, [], natBytes 128 0x3F800000⟩

def tRead1 (s : State) : List Byte := match State.unitBytes 0 0 3 s 0x2000 128 with | (_, .ok bs) => bs | _ => []

theorem test_meets_jobs :
    (let s : State := { sJob tJob with inputs := [.members 1 [tMember]] }
     s.jobOk tJob = true ∧ s.turnJob (tGroup 0) = some tJob ∧
      after (exec .millefeuilleJobStart s) (fun t => t.inputs == [] && t.jobs.map (fun j => (j.started, j.own.take 4, j.members)) == [(true, [0, 0, 0, 0x40], [tMember])]) = true ∧ s.jobWaits tJob = none ∧
      tRead1 s = natBytes 128 0x40000000) ∧
    (let j := { tJob with started := true, own := natBytes 128 0x40000000, members := [tMember] }
     tRead1 (sJob j) = j.own) ∧
    (let j := { tJob with started := true, members := [tMember] }
     (match (sJob j).jobOut (tGroup 0) j with | (s0, out) => (match s0.jobSpan j out with | (_, .ok _) => true | _ => false)) = true ∧
      after (exec (.millefeuilleJobCompletion 70) (sJob j)) (fun t => t.jobs == [] && t.groups == [tGroup 1]) = true) ∧
    (let s : State := { sJob tJob with groups := [tGroup 1] }
     s.jobOk tJob = true ∧ (tGroup 1).repeated tJob = true ∧ after (exec (.millefeuilleJobCompletion 70) s) (fun t => t.jobs == [] && t.groups == [tGroup 1]) = true) ∧
    (let j := { tJob with record := tJob.record + 2 ^ 330 }
     (sJob j).jobOk j = false ∧ after (exec (.millefeuilleJobCompletion 70) (sJob j)) (fun t => t.jobs == [] && t.groups == [tGroup 1]) = true) ∧
    after (exec (.millefeuilleMemberTimeout 70) { sJob tJob with ticks := 20000 }) (fun t => t.jobs == [] && t.groups == [tGroup 1]) = true := by
  decide +kernel

def tCand : Cand := ⟨1, 2, 0, 0, 0, 5, true, 0x1300, false⟩
def tRay : Ray := ⟨80, 0, 20, 0, false, 0x4000, 1, 0x1100, 0, 0, 0, [0, 0, 0, 0, 0, 0, 0, 0x41200000], [(7, .si32)], [], 0, true, [], none, none, false, 0, false⟩
/-- The block at 0x9000: one binding record at 0xA000, one texture at 0xA020 of one texel at 0xB000. -/
def sRay (l : List Launch) (r : Ray) : State :=
  { sCrew (cReady 1 id) with
    launches := l, rays := [r]
    mem := cellWrite (cellWrite (cellWrite sEv.mem 0x9000 (natBytes 64 (0xA000 * 2 ^ 128 + 2 ^ 192 + 0xA020 * 2 ^ 320 + 2 ^ 384))) 0xA000 (natBytes 64 (2 ^ 128 + (0xB000 + 2 ^ 64 + 2 ^ 80 + 2 ^ 96) * 2 ^ 256))) 0xB000 [255, 0, 0, 255] }
def tTexRay : Ray := { tRay with texc := true, req := [0, 0, 0, 0] }

theorem test_meets_rays :
    after (exec (.rayRequestCompletion 80) (sRay [] tRay)) (fun t => t.rays == [] && t.requeues.map (fun q => (q.pc, q.hit.map fun x => x.1)) == [(0x1100, [0x41200000, 0, 0, 0xFFFFFFFF, 0xFFFFFFFF, 32, 0, 0xFFFFFFFF])]) = true ∧
    after (exec (.rayRequestCompletion 80) (sRay [tLaunch .resident] { tRay with buffer := List.replicate 16 tCand })) (fun t => t.rays == [{ tRay with buffer := List.replicate 16 tCand }]) = true ∧
    after (exec (.rayRequestCompletion 80) (sRay [tLaunch .resident] tRay)) (fun t => t.requeues.map (fun q => q.hit.map fun x => x.1) == [[0x41200000, 0, 0, 0xFFFFFFFF, 0xFFFFFFFF, 0, 0, 0xFFFFFFFF]]) = true ∧
    after (exec (.rayRequestCompletion 80) (sRay [tLaunch .resident] { tRay with hit := some tCand })) (fun t => t.rays == [] && t.requeues.map (fun q => q.hit.map fun x => x.1) == [[0x3F000000, 0, 0, 0, 5, 3, 0, 0]]) = true ∧
    after (exec (.rayRequestCompletion 80) (sRay [tLaunch .resident] tTexRay)) (fun t => t.rays == [] && t.requeues.map (fun q => q.hit.map fun x => x.1) == [[0x3F800000, 0, 0, 0x3F800000, 0, 0, 0, 0]]) = true ∧
    after (exec (.anyHitCrewFormation 80) (sRay [tLaunch .resident] { tRay with buffer := [tCand] }))
      (fun t => t.rays.map (fun r => r.anyHit) == [true] && t.formed.map (fun f => (f.ray, f.fibres.map fun x => (x.1, x.2.length))) == [(some 80, [(0x1300, 9)])]) = true ∧
    (let c := { cReady 1 fun f => { f with live := false, st := .retired, report := some .ignore } with kind := .anyHit 80, life := .completed }
     after (exec (.anyHitReportsApplied 80) { sRay [tLaunch .resident] { tRay with buffer := [tCand], anyHit := true } with crews := [c] }) (fun t => t.rays == [tRay] && t.crews == []) = true) := by
  decide +kernel

theorem test_meets_encoders :
    (let s : State := { State.reset with encoders := [{ Encoder.fresh 2 with slot := 15, waiting := [(0, 6, 7, 2)] }] }
     after (exec (.encoderSlot 2) s) (fun t => t.encoders == [{ Encoder.fresh 2 with slot := 0, waiting := [(0, 6, 7, 1)] }]) = true) ∧
    (let s : State := { State.reset with sessions := [⟨6, 0, 2, 0x2000, 3, [7]⟩], mem := cellWrite [] 0x2000 [7] }
     after (exec (.frameReady 6 7) s) (fun t => (t.encoders.map fun e => e.waiting.length) == [0, 0, 1, 0, 0, 0, 0, 0] && t.sessions.all fun x => x.rung == []) = true) := by
  decide +kernel

/-! The system and the kernel. -/

def tImages (bad : Nat) : List BootImage := [0, 1, 2].map fun n => ⟨n, n != bad, true, 4, 4, 100 + n⟩
theorem test_meets_boot_and_report :
    (let s (bad : Nat) : State := { State.reset with inputs := [.images (tImages bad)] }
     after (exec .boot (s 9)) (fun t => t.boot == .running [100, 101, 102] && t.inputs == []) = true ∧ after (exec .boot (s 1)) (fun t => t.boot == .stopped 1) = true) ∧
    after (exec .boot { State.reset with inputs := [.images (tImages 9), .homing [(1, 7)]] }) (fun t => t.inputs == [] && (t.extent 0x200000).home == some 7 && (t.extent 0x400000).home == none) = true ∧
    after (exec .attestationRequest { State.reset with boot := .running [1], inputs := [.attestation true false 3] }) (fun t => t.attest.length == 0 && t.inputs == []) = true ∧
    after (exec .attestationRequest { State.reset with boot := .running [1], inputs := [.attestation false false 3] }) (fun t => t.attest.length == 1 && t.inputs == []) = true := by
  decide +kernel

theorem test_meets_failures :
    after (exec (.eccCorrectedError .l2 3 4) State.reset) (fun t => t.eccLog == [(.l2, 3, 4)]) = true ∧
    after (exec (.uncorrectableError (.memory 0x2004)) State.reset) (fun t => t.poison == [.memory 0x2000]) = true ∧
    after (exec (.uncorrectableError (.counter 0 7)) { State.reset with crumbs := [tCrumb, { tCrumb with index := 8 }] }) (fun t => t.crumbs.map (fun x => x.bad) == [true, false]) = true ∧
    (let s : State := { State.reset with eccLog := [(.l2, 3, 4), (.l2, 3, 4)] }
     2 ≤ (s.eccLog.filter fun x => x == (.l2, 3, 4)).length ∧ s.crews = [] ∧ (.l2, 3, 4) ∉ s.remapped ∧ s.hostLost = false ∧ s.powered = true) ∧
    ((sEv.contexts.all fun c => sEv.touchesSlice (sEv.home 0x10000) c) = true ∧ sEv.home 0x10000 < 64 ∧
      after (exec (.jalleyInstanceStop (sEv.home 0x10000)) sEv) (fun t => t.stoppedJalley.length == 1 && t.contexts.all fun c => c.down) = true) ∧
    after (exec (.thermalThrottle true) State.reset) (fun t => t.clockLow) = true ∧
    after (exec .thermalShutdown sEv) (fun t => !t.powered && t.boot == .off && t.contexts.all fun c => c.down) = true ∧
    after (exec .hostLoss { sOp { tStore with host := true } with hostLost := false }) (fun t => t.hostLost && t.parked == [.op 3] && t.contexts.all fun c => c.bits.getLsbD 5) = true ∧
    after (exec .hostWarmRestart { sEv with hostLost := true, partitions := [{ tPart with persist := true }] }) (fun t => !t.hostLost && t.contexts.all fun c => !c.down && c.bits.getLsbD 3) = true ∧
    after (exec .hostWarmRestart (sCrew (cReady 1 id))) (fun t => t.crews == [] && t.contexts.all fun c => c.down) = true := by
  decide +kernel

def sUp : State := { sEv with boot := .running [] , extents := [⟨1, some 0, .f32⟩], mem := cellWrite sEv.mem 0x12008 (natBytes 8 0x600B) }
theorem test_meets_kernel_objects :
    sUp.kernelUp = true ∧
    after (exec .contextCreation { sUp with inputs := [.context ⟨7, 9, 0x10000, 0x7000, false, 0x2000, 0, []⟩] }) (fun t => t.contexts.map (fun c => c.asid) == [0, 7] && t.inputs == []) = true ∧
    (let q : QueueInit := ⟨3, 0x2000, 0x2000, 0x3000, 4, 2⟩
     sUp.liveCtx 0 = true ∧ sUp.partOf 0 = some tPart ∧ sUp.partHas 0 [] = 0 ∧ sUp.partAllows 0 7 [] = true ∧ after (exec .userQueueCreation { sUp with inputs := [.userQueue 0 q] }) (fun t => cellNat t.mem 0x2000 64 == 0x3000 + 2 ^ 64 + 4 * 2 ^ 72 + 2 * 2 ^ 76 + 3 * 2 ^ 80 && t.userQueues.map (fun y => y.qid) == [3]) = true) ∧
    (let q : QueueInit := ⟨3, 0x200000, 0x40200000, 0x3000, 0, 2⟩
     sUp.kernelPlace 0 0x40200000 = some (.mem 0x200000 0 0 false, 0x600B) ∧ (sUp.extent 0x200000).home.isSome = true ∧ after (exec .taskQueueCreation { sUp with inputs := [.taskQueue 0 q] }) (fun t => t.taskQueues == [⟨3, 0, 0x200000, List.replicate 64 (.free, 0), []⟩]) = true) ∧
    after (exec .pipeCreation { sUp with inputs := [.pipe 0 1 0 6 3] }) (fun t => t.pipes == [{ tPipe with entries := [] }]) = true ∧
    (let w : ChannelInit := ⟨1, 0x200000, 0x8000, 0, 2, false⟩
     after (exec .workChannelCreation { sUp with inputs := [.workChannel 0 w] }) (fun t => t.workChans == [⟨1, 0, 0x200000, [], 0⟩] && recF (cellNat t.mem 0x200000 64) 224 32 == 16) = true) ∧
    after (exec .groupCreation { sUp with inputs := [.group 0 ⟨1, 2, 1, [(5, true), (0, false)]⟩] }) (fun t => t.groups == [tGroup 0]) = true := by
  decide +kernel
/-! ### States that meet the hypotheses of the statements: further clauses -/

def isOk {ε α : Type} (e : Except ε α) : Bool := match e with | .ok _ => true | .error _ => false

/-- Elements that meet the clauses on values: finite ones whose sum and product are zero, infinities, a NaN (02_encoding R94, R96). -/
theorem test_meets_values :
    (fF32.value 0x3FC00000).isFinite = true ∧ (fF32.value 0x3FC00000).rat + (fF32.value 0xBFC00000).rat = 0 ∧ (fF32.value 0x80000000).rat = 0 ∧ (fF32.value 0x80000000).isNeg = true ∧ (fF32.value 0x7FC00000).isNan = true ∧
    fF32.value 0x7F800000 = .inf false ∧ fF32.value 0xFF800000 = .inf true ∧ (fF32.value 0x3FC00000).rat < (fF32.value 0x40000000).rat ∧ (fF16.value 0x3C00).rat = 1 ∧ fBF16.value 0x7F80 = .inf false ∧
    tagElem .bf16x2 = .flt fBF16 ∧ tagElem .si8x4 = .int true 8 ∧ tagElem .e8m0x4 = .e8m0 ∧ ((tagElem .e4m3x4).value 0x7F).isNan = true ∧ (tagElem .e5m2x4).value 0x7C = .inf false ∧ ((tagElem .e2m1x8).value 7).rat = 6 := by
  decide +kernel

/-- Fragments that meet the clauses on an element of the matrix update: a product of zero and an infinity, an infinity, both infinities, a NaN, a NaN scale, finite ones (04_matrix R99, R121). -/
theorem test_meets_matrix_elements :
    (let m : MatForm := ⟨.bf16x2, 32, 16, false, 0, false⟩
     m.int = false ∧ [(0, 0x7F80), (0x3F80, 0x7F80), (0xFF803F80, 0x3F807F80), (0x7FC0, 0x3F80), (0x3F80, 0x3F80)].map (fun p => (m.element false 0x3F800000 ⟨p.1, 0⟩ ⟨p.2, 0⟩).1) =
       [0x7FC00000, 0x7F800000, 0x7FC00000, 0x7FC00000, 0x40000000]) ∧
    (let m : MatForm := ⟨.e4m3x4, 64, 16, true, 0, false⟩
     m.scaled = true ∧ m.element false 0 ⟨0, 255⟩ ⟨0, 0x7F7F⟩ = (0x7FC00000, flIV)) ∧
    (let c := c2mat ⟨.bf16x2, 32, 16, false, 0, false⟩
     let s := tState c Ext.zero
     s.matLanding c [0, 1] 40 17 = [] ∧ (s.matLandings c [0, 1] 40 17).1 = s ∧ s.getCrew i2.crew = some c) := by
  decide +kernel

/-- A conversion under a scale, and an MX block unpacked under one, in v80 (02_encoding R106, R107). -/
def xScale : Ext := { Ext.zero with count := 1, operand := some 80 }
theorem test_meets_scaled_conversions :
    Ready (tState c2 xScale) (.cvt false 3 40 .e4m3x4 false .rne) (tIssue 2 xScale) c2 [0, 1] ∧ Ready (tState c2 xScale) (.mxpack false 3 40 .e2m3p) (tIssue 2 xScale) c2 [0, 1] ∧
    Ready (tState c2mx xScale) (.mxunpk false 3 40 .bf16x2) (tIssue 2 xScale) c2mx [0, 1] ∧ wideTag .bf16x2 = true ∧ mxNarrow .e4m3x4 = true := by
  and_intros <;> (try unfold Ready) <;> decide +kernel

/-- A load and a store in an attempt: its logs empty, and with the sector read and its first bytes written. -/
def cTx (logs : Bool) : Crew := if logs then c1tx 1 [tRead 0] [tWrite] else c1tx 1 [] []
def sTxLd (logs : Bool) : State := tState (cTx logs) Ext.zero
def tAtt (logs : Bool) : Attempt := if logs then tAttempt 1 [tRead 0] [tWrite] else tAttempt 1 [] []
def txHitsOk (b w : Bool) : Bool :=
  let q := tFound (sTxLd b) (cTx b) w [0] tVa fun _ => natBytes 4 16
  q.2.misses.isEmpty && q.2.bad.isEmpty && q.2.hits.length == 1 && q.2.hits.all fun h => !q.1.remoteAccess h.p h.pte && !q.1.shadowed 0 1 [0] false [(h.p.sectorBase h.va, 32)] &&
    isOk ((tAtt b).load q.1 (q.1.logQuota 0) h.va 4 h.p) && isOk ((tAtt b).store (q.1.logQuota 0) h.va h.v) && (tAtt b).serves h.va 4 == b && !q.1.unknownDevice h.p && q.1.firstBad h.p 4 == none &&
    !q.1.copyBad 0 h.p (Ext.zero.policy + 4 * pteMode h.pte) && !q.1.placeHeld h.p
theorem test_meets_attempt_accesses :
    (∀ b ∈ [false, true], Ready (sTxLd b) (.ld false .si32 .global 0 112 5 0 false) i1 (cTx b) [0] ∧ Ready (sTxLd b) (.st false .si32 .global 0 3 5 0 false) i1 (cTx b) [0] ∧ (cTx b).regsOk = true ∧ (cTx b).Room [0] [(112, .g)]) ∧
    (∀ b ∈ [false, true], readsAll (sTxLd b) (cTx b) [0] [5, 6] (fun _ => [(0x2000, .ui32), (0, .si32)]) = true ∧ readsAll (sTxLd b) (cTx b) [0] [3, 5, 6] (fun _ => [(16, .si32), (0x2000, .ui32), (0, .si32)]) = true ∧
      okEq ((sTxLd b).operandAddr (cTx b) .global 0x2000 0 0 4) (tVa 0) = true ∧ (cTx b).fibTest (fun f => f.st == .issuing && f.tx == some (tAtt b) && !f.stepping) 0 = true ∧ ∀ w ∈ [false, true], txHitsOk b w = true) ∧
    (∀ w ∈ (tAtt true).writes, w.bytes.length = 32 ∧ w.mask.length = 32) ∧ (∀ r ∈ (tAtt true).reads, r.bytes.length = 32) ∧
    (let full := tAttempt 1 ((List.range 64).map fun n => ⟨0x10000 + 32 * n, List.replicate 32 0, []⟩) ((List.range 32).map fun n => ⟨0x10000 + 32 * n, List.replicate 32 0, List.replicate 32 true⟩)
     full.serves 0x2000 4 = false ∧ full.reads.length = 64 ∧ full.writes.length = 32 ∧ (match full.load s1 0 0x2000 4 tAt, full.store 0 0x2000 [1] with | .error .readcap, .error .writecap => true | _, _ => false) = true) := by
  and_intros <;> (try unfold Ready) <;> (try unfold Crew.Room) <;> decide +kernel

/-- A dirty host sector of the lines that a FLUSH and an INVAL name: its byte stands in memory when they have performed (14_system R304). -/
def sLines (flush : Bool) : State := { tFar (sOp tStore) with ops := [{ tOp 30 (.lines flush 0x40002000 4) with ranks := [0], host := true }], nextId := 31, hostL2 := [tHost false] }
theorem test_meets_lines_performed :
    (∀ b ∈ [false, true], (sLines b).opReady ({ tOp 30 (.lines b 0x40002000 4) with ranks := [0], host := true }) = true ∧ (sLines b).linesStuck 0 0x40002000 4 = false ∧ (sLines b).hostLost = false ∧ (sLines b).accs = [] ∧ (sLines b).redBuf = [] ∧
      ((sLines b).hostL2.map fun y => y.sector).Nodup ∧ (∀ y ∈ (sLines b).hostL2, y.bytes.length = 32 ∧ inRanges ((sLines b).lineRanges 0 0x40002000 4) y.sector = true) ∧
      after (exec (.storePerform 30) (sLines b)) (fun t => t.ops == [] && cellNat t.mem 0x20000002000 4 == 7 && t.hostL2.all fun y => b && y.dirty.all fun q => !q) = true) ∧
    Memory.wf (sLines true) ∧ Memory.wf (sLines false) := by
  decide +kernel

/-- A fence with nothing outstanding leaves nothing; behind an outstanding store a later load of its sequence is held (06_consistency R163). -/
theorem test_meets_fence_orders :
    (Ready s2 (.fence false 5 .sc 0xFFFF) i2 c2 [0, 1] ∧ s2.ops = [] ∧ s2.frozen = [] ∧ s2.hostLost = false ∧ after (exec (.fence false 5 .sc 0xFFFF) s2) (fun t => t.ops == []) = true) ∧
    (let new : Op := { tOp 40 (.load (tPlace.plus 64) 104 1 .f32 .g 0) with ranks := [0] }
     (tStore.work.reads || tStore.work.writes) = true ∧ (0xFFFF : BitVec 16) &&& tStore.seqs ≠ 0 ∧ s2store.opReady new = true ∧
       after (exec (.fence false 5 .sc 0xFFFF) s2store) (fun t => decide (t.nextId ≤ 40) && t.opReady new == false) = true) := by
  and_intros <;> (try unfold Ready) <;> decide +kernel

/-- An arm record with total 0, and a write of four bytes of an armed region (09_crumbs R216, R217). -/
def sArmBad : State := { sArm with mem := cellWrite sArm.mem 0x200C [0] }
theorem test_meets_arming_refused_and_counting :
    (match sArmBad.xlate 0 0 0x2000 false false (sArmBad.privileged 0) with
     | (s0, .ok p _) => !s0.unknownDevice p && !s0.placeHeld p && !s0.placeBusy p && s0.firstBad p 32 == none && !s0.poisonedAt p 32 && s0.ops == [] && s0.peerOf p == none && recF (bytesNat (s0.homeRead p 32)) 96 40 == 0
     | _ => false) = true ∧
    (match sArmBad.armOne c1 0 0x2000 with | .trap u t => t == ⟨.permission, 0x2000⟩ && u.crumbs == sArmBad.crumbs | _ => false) = true ∧
    (sCrumb.crumbs.map fun y => (y.slice, y.index)).Nodup ∧ (tCrumb.region.map fun r => min (0x4002 + 4) (r.1 + r.2) - max 0x4002 r.1).sum = 4 ∧ (sCrumb.countWrite 0x4002 4 false).crumbs = [{ tCrumb with count := 9 }] ∧
    (sCrumb.countWrite 0x4002 30 false).firings.map (fun f => (f.slice, f.index, f.action, f.taint)) = [(0, 7, 0, false)] := by
  decide +kernel

/-- Nothing holds a page, a fence, a freeze or a slot in the states above (11_faults R267, 13_fabric R292, 12_render R272). -/
theorem test_meets_nothing_held :
    (∀ s ∈ [s1, s2, sBar, sShut, sQueue .reserved .free 1, sPipe, sWork c1post 1 0], s.migrations = [] ∧ s.frozen = [] ∧ s.powered = true ∧ s.bootStopped = false ∧ s.placeHeld tAt = false ∧ ∀ k ∈ [0, 1], s.fenceHolds 1 k 0xFFFF = false ∧ s.freezes 1 k 0xFFFF s.nextId = false) ∧
    (sTrace c1trace).rayHolds = [] ∧ (∀ h ∈ (tFound s1 c1 false [0] tVa fun _ => ()).2.hits ++ (tFound s2 c2 true [0, 1] tVa fun _ => ()).2.hits, h.p = tAt) ∧
    (let s := sUq (tDesc 1 1 2 0) 6 [.notify 3 70 4]; s.hostLost = false ∧ s.powered = true ∧ s.bootStopped = false) ∧ sRec.migrations = [] := by
  decide +kernel

/-- A crew not converged whose fibres reach the crew barrier together: the round converges it (01_execution R18). -/
theorem test_meets_round_that_converges :
    let c := { cReady 2 id with converged := false }
    let s := { sCrew c with mem := cellWrite sEv.mem 0x1000 (natBytes 4 0b0_1101_00011000000000000000000000_0) }
    let r := (s.askCommits c 0).tryAll 1 false (c.candidates [0, 1])
    s.crewAt 0 0 = some c ∧ r.2.map (fun x => x.1) = [[1]] ∧ (r.1.getCrew 1).any (fun y => y.converged) = true ∧ after (exec (.laneArbitration 0 0) s) (fun t => t.cur.isNone && t.crews.all fun y => y.converged) = true := by
  decide +kernel

/-- An append to a pipe destroyed and made anew, and a fibre registered at a pipe destroyed (09_crumbs R227, R230). -/
theorem test_meets_stale_appends :
    tPipe.gen ≠ (2 : BitVec 16) ∧ after (exec (.pipeAppend 30) { sAppend tPipe with ops := [tOp 30 (.append 1 2 9 .f32)] }) (fun t => t.pipes == [tPipe] && t.ops == []) = true ∧
    (tWaits 1).fibTest (fun f => f.live && f.pc == 0x1000 && !f.restart && !f.trapMode && f.tx.isNone) 0 = true ∧ (tWaits 1).life = .resident := by
  decide +kernel

/-- The BAR of the record meets no fault; an access of the host in a page that an invalidation names holds it back (08_copies R201, 11_faults R265). -/
theorem test_meets_bar_and_ats_waits :
    (let s := sXfer [(none, 0, 0), (none, 0, 1)] none; (s.getCrew 1).any (fun c => s.barWaits 0 c 0 == none && s.barFault 0 c 0 == none) = true) ∧
    (let s : State := { sOp { tStore with host := true, va := 0x80000010 } with hostMapped := [(0, 0x8000)] }
     (∀ c ∈ s.contexts, c.id = 0 ∧ c.pasid = 0) ∧ after (exec (.atsInvalidationRequest 0 0x80000004 65536) s) (fun t => t == s) = true) := by
  decide +kernel

theorem test_meets_freezes_and_power :
    (let o := { tRemote (.store tPlace [9] false) with frozen := true, seqs := 2 }
     let p := { tRemote (.store (tPlace.plus 64) [9] false) with id := 31, seqs := 2 }
     let s := { sRemote o with ops := [o, p], nextId := 32, frozen := [⟨1, 0, 1, 30, 7⟩], ticks := 9 }
     s.behind 30 = [p] ∧ s.getOp 31 = some p ∧ (∀ q ∈ s.ops, q.work.isFence = false) ∧ after (exec (.sequenceResume 1 0 1 true) s) (fun t => t.ops.map (fun q => (q.frozen, q.sentAt)) == [(false, 9), (false, 9)]) = true) ∧
    (let s : State := { sOp tStore with powered := false, inputs := [.request ⟨3, 1, 0x2000, .load 4⟩] }
     after (exec .targetExportCheck s) (fun t => t.inputs == [] && t.responses == []) = true) := by
  decide +kernel

/-- A job run a second time while the first still runs; a job that waits for its turn; a hit record that is not missing (13_fabric R299, R301, 12_render R278). -/
theorem test_meets_job_turns_and_hits :
    (sJob tJob).jobRuns tJob = false ∧ (tGroup 0).repeated tJob = false ∧ (tGroup 0).jobSeq % 65536 = jbSeq tJob.record ∧
    (let again := { tJob with id := 71, op := 31 }
     let s := { sJob { tJob with started := true } with jobs := [{ tJob with started := true }, again] }
     s.jobRuns again = true ∧ s.jobRuns { tJob with started := true } = false) ∧
    (∀ y ∈ [tRay, tTexRay, { tRay with hit := some tCand }], (sRay [tLaunch .resident] y).hitWaits y = none) := by
  decide +kernel

theorem test_meets_boot_stop_and_parked_writes :
    after (exec .boot { State.reset with inputs := [.images (tImages 1)] }) (fun t => t.mailbox == cellWrite [] 0 (natBytes 4 1) && t.inputs == []) = true ∧
    after (exec .thermalShutdown { sEv with exports := [⟨3, 1, 0x2000, 4096, true, 0, false⟩], exportMisses := [⟨4, 1, 0x2000⟩] }) (fun t => t.exports == [] && t.exportMisses == []) = true ∧
    sUp.holdsSlice 0 0x200000 = true ∧ tPart.slices.contains 0 = true ∧ inHbm (paLocal 0x200000) = true := by
  decide +kernel

/-- A page of the pod under the fetch, no attempt and no fibre blocked, and a waiting request that loses the round (05_memory R146, 10_scheduling R248). -/
theorem test_meets_steps_further :
    (match s1.foundAt 0 0x1000 (s1.xlate 0 0 0x1000 false true (s1.privileged 0)) with | (u, .ok p) => u.peerOf p == none && !p.isDev && !u.poisonedAt p 4 | _ => false) = true ∧
    (∀ s ∈ [State.reset, s2], takeInput Input.act s.inputs = none ∧ s.lateWrites = [] ∧ ∀ c ∈ s.crews, ∀ f ∈ c.fibres, f.tx = none ∧ f.st ≠ .blocked) ∧
    (formOf c1 Ext.zero (.nop false)).unit = none := by
  refine ⟨by decide +kernel, ?_, by decide +kernel⟩
  intro s hs
  simp only [List.mem_cons, List.not_mem_nil, or_false] at hs
  rcases hs with rfl | rfl <;> exact ⟨by decide +kernel, by decide +kernel, by decide +kernel⟩

/-! ### Steps, and results worked out by hand -/

/-- An acquire at PKG drops the copies of its core and a release ends that (06_consistency R159, R162); a load behind an acquire is one that may read ahead. -/
theorem test_meets_acquires :
    (let q : Op := { tOut (.load tPlace 104 2 .f32 .g 0) with acq := true, scope := 3 }
     let copy : CacheSector := ⟨q.core, 7, [], false, [], [], false, false⟩
     let s : State := { sOp q with l1 := [copy] }
     let t := s.acquireRead q tPlace
     t.l1 = [] ∧ t.synced = [q.core] ∧ (t.release 5 0 3 1).synced = [] ∧ (s.acquire q.core 1).synced = [] ∧
     (t.performWrite none (tPlace.plus 512) [1] false).synced = [] ∧ (t.performWrite (some 0) (tPlace.plus 512) [1] false).synced = [q.core] ∧
     s.readAhead.l1 = [copy]) := by
  decide +kernel

theorem test_meets_invariants :
    (Memory.wf s2 ∧ CrewsInOrder s2 ∧ Memory.wf State.reset ∧ CrewsInOrder State.reset) ∧ after (step s2) (fun t => t.cur.isSome) = true ∧ after (step State.reset) (fun t => t.cur.isNone) = true := by
  decide +kernel

/-- The first step after reset with a word placed: LDI v5, 7 writes v5; a word of an unlisted form and a 25th word raise IllegalOp. -/
theorem test_meets_a_step :
    after (step (State.reset.withFetchWord 32 0b0_0001_111111_0000101_00000000000111)) (fun t => t.crews.all fun c => c.elem 5 0 == 7 && c.fibTest (fun f => f.pc == 0x1004) 0) = true ∧
    (∃ p, (s1.hostWait 0 0x1000 (s1.xlate 0 0 0x1000 false true (s1.privileged 0))).2 = .ok p 0x600F ∧ p.isDev = false ∧ s1.poison = [] ∧ (∃ i, s1.cur = some i ∧ i.words < 24 ∧ i.code = [])) ∧
    after (step { s1 with cur := s1.cur.map fun i => { i with code := [.word (wordBytes 0b0_0001_111111_0000101_00000000000111)] } }) (fun t => t.crews.all fun c => c.elem 5 0 == 7) = true ∧
    after (step { s1 with cur := s1.cur.map fun i => { i with code := [.word (wordBytes 0x7FFFFFFF)] } }) (fun t => t.cur.isNone) = true ∧
    after (step (State.reset.withFetchWord 32 0x7FFFFFFF)) (fun t => t.cur.isNone && t.crews.all fun c => c.fibTest (fun f => f.trapMode && f.pc == 0x2000 && f.trapPc == 0x1000 && f.trapCause.toNat == Cause.illegalOp.code) 0) = true ∧
    after (step { s1 with cur := s1.cur.map fun i => { i with words := 24 } }) (fun t => t.cur.isNone) = true := by
  refine ⟨by decide +kernel, ⟨.mem 0x1000 0 0 false, by decide +kernel, by decide +kernel, by decide +kernel, ⟨i1, by decide +kernel⟩⟩, by decide +kernel, by decide +kernel, by decide +kernel, by decide +kernel⟩

theorem test_scheduled_event_runs :
    after (step { State.reset with schedule := [.thermalThrottle true] }) (fun t => t.clockLow && t.schedule == []) = true ∧ encode (.thermalThrottle true) = none := by
  decide +kernel

/-- Acts from outside between steps: the host writes the mailbox and reads it back (14_system R303), the kernel writes an entry. -/
theorem test_acts_from_outside :
    after (step { State.reset with inputs := [.host (.mailboxWrite 16 [5, 6])] }) (fun t => t.inputs == [] && t.mailbox == [⟨16, 5⟩, ⟨17, 6⟩]) = true ∧
    after (step { State.reset with mailbox := [⟨16, 5⟩], inputs := [.host (.mailboxRead 15 2)] }) (fun t => t.hostSeen.map (fun x => x.bytes) == [[0, 5]]) = true ∧
    after (step { sUp with inputs := [.kernel (.write 0x12010 (natBytes 8 0x600F))] }) (fun t => cellNat t.mem 0x12010 8 == 0x600F && t.inputs == []) = true := by
  decide +kernel

/-- Registers for results: floats 1.5 and -2.25, largest and smallest numbers, integers at their ends, bytes, ternary weights. -/
def c1v : Crew :=
  { c1 with regs := c1.regs.take 20 ++ [tReg .f32 0x3FC00000, tReg .f32 0xC0100000, tReg .f32 0x7F7FFFFF, tReg .f32 0x7F800000, tReg .f32 0x7FC00000, tReg .f32 1, tReg .si32 0x7FFFFFFF, tReg .si32 0x80000000,
      tReg .ui32 0xFFFFFFFF, tReg .si32 7, tReg .si8x4 0x807F01FF, tReg .ui8x4 0x807F01FF, tReg .bf16x2 0x40003F80, tReg .f16x2 0x7BFF3C00, tReg .ui32 0x00F0F00F, tReg .ui32 0x0000050A] ++ c1.regs.drop 36 }
def s1v : State := tState c1v Ext.zero
/-- A register and its tag after an instruction. -/
def yields (ins : Instr) (d : Nat) : List (Word × Tag) := (nexts (exec ins s1v)).flatMap fun t => t.crews.map fun c => (c.elem d 0, (c.desc d).tag)
/-- Flags after an instruction. -/
def raised (ins : Instr) : List Word := (nexts (exec ins s1v)).flatMap fun t => t.crews.flatMap fun c => c.fibres.map fun f => f.fpstat
def predOf (ins : Instr) (p : PReg) : List Bool := (nexts (exec ins s1v)).flatMap fun t => t.crews.flatMap fun c => c.fibres.map fun f => f.pred p

theorem test_float_results :
    yields (.addA3 false 3 20 21) 3 = [(0xBF400000, .f32)] ∧ yields (.subA3 false 3 20 21) 3 = [(0x40700000, .f32)] ∧ yields (.mulA3 false 3 20 21) 3 = [(0xC0580000, .f32)] ∧
    yields (.addA3 false 3 22 22) 3 = [(0x7F800000, .f32)] ∧ yields (.minA3 false 3 20 21) 3 = [(0xC0100000, .f32)] ∧ yields (.maxA3 false 3 20 24) 3 = [(0x3FC00000, .f32)] ∧
    yields (.subA3 false 3 23 23) 3 = [(0x7FC00000, .f32)] ∧ yields (.mulA3 false 3 25 25) 3 = [(0, .f32)] ∧ yields (.neg false 3 20) 3 = [(0xBFC00000, .f32)] ∧ yields (.abs false 3 21) 3 = [(0x40100000, .f32)] ∧
    yields (.addA3 false 3 32 32) 3 = [(0x40804000, .bf16x2)] ∧ yields (.addA3 false 3 33 33) 3 = [(0x7C004000, .f16x2)] := by
  decide +kernel

theorem test_integer_results :
    yields (.addA3 false 3 26 29) 3 = [(0x80000006, .si32)] ∧ yields (.subAi false 3 27 1) 3 = [(0x7FFFFFFF, .si32)] ∧ yields (.mulA3 false 3 29 29) 3 = [(49, .si32)] ∧ yields (.mulhi false 3 28 28) 3 = [(0xFFFFFFFE, .ui32)] ∧
    yields (.minAi false 3 29 127) 3 = [(0xFFFFFFFF, .si32)] ∧ yields (.maxAi false 3 29 64) 3 = [(7, .si32)] ∧ yields (.andA3 false 3 34 28) 3 = [(0x00F0F00F, .ui32)] ∧ yields (.xorA3 false 3 34 28) 3 = [(0xFF0F0FF0, .ui32)] ∧
    yields (.sarAi false 3 27 4) 3 = [(0xF8000000, .si32)] ∧ yields (.shrAi false 3 27 4) 3 = [(0x08000000, .si32)] ∧ yields (.shlAi false 3 29 33) 3 = [(14, .si32)] ∧ yields (.rotAi false 3 27 1) 3 = [(1, .si32)] ∧
    yields (.addA3 false 3 30 30) 3 = [(0x00FE02FE, .si8x4)] ∧ yields (.abs false 3 30) 3 = [(0x807F0101, .si8x4)] := by
  decide +kernel

theorem test_bit_and_field_results :
    yields (.popc false 3 34) 3 = [(12, .ui32)] ∧ yields (.clz false 3 34) 3 = [(8, .ui32)] ∧ yields (.brev false 3 34) 3 = [(0xF00F0F00, .ui32)] ∧ yields (.notR false 3 34) 3 = [(0xFF0F0FF0, .ui32)] ∧
    yields (.ldi false 3 0x3FFF) 3 = [(0xFFFFFFFF, .si32)] ∧ yields (.leaAi false 3 5 4) 3 = [(0x2004, .ui32)] ∧ yields (.dot4 false 3 30 30) 3 = [(16384 + 16129 + 1 + 1 + 16, .si32)] := by
  decide +kernel

/-- The flags of a sum that is inexact above the largest number, of the opposite infinities, of a product below the smallest, and the worked LEA of 16_ref R353. -/
theorem test_flags :
    raised (.addA3 false 3 22 22) = [4] ∧ raised (.subA3 false 3 23 23) = [1] ∧ raised (.mulA3 false 3 25 25) = [24] ∧ raised (.addA3 false 3 24 20) = [0] ∧ raised (.mulA3 false 3 20 21) = [0] := by
  decide +kernel

def worked (regs : List (Nat × Desc)) (ins : Instr) (d : Nat) : List (Word × Word × Word) :=
  let c := { c1 with regs := regs.foldl (fun l p => l.set p.1 p.2) c1.regs }
  (nexts (exec ins (tState c Ext.zero))).flatMap fun t => t.crews.map fun x => (x.elem d 0, x.elem (d + 1) 0, (x.fibres.headD (Fibre.fresh 0 0 0 0)).fpstat)
/-- The worked rows of 03_arithmetic R104 at the largest number of each format, and the worked LEA of 16_ref R353. -/
theorem test_worked_examples_of_the_spec :
    worked [(1, tReg .f32 0x7F7FFFFF), (2, tReg .f32 0x73000000)] (.addA3 false 3 1 2) 3 = [(0x7F800000, 5, 4 + 16)] ∧
    worked [(11, tReg .f32 0x7F7F8000), (12, tReg .f32 0x7F7F7FFF)] (.cvt false 3 11 .bf16x2 false .rne) 3 = [(0x7F7F7F80, 5, 4 + 16)] ∧
    worked [(11, tReg .f32 0x477FF000), (12, tReg .f32 0)] (.cvt false 3 11 .f16x2 false .rne) 3 = [(0x00007C00, 5, 4 + 16)] ∧
    worked [(11, tReg .f32 0x477FF000), (12, tReg .f32 0)] (.cvt false 3 11 .f16x2 true .rne) 3 = [(0x00007BFF, 5, 16 + 32)] ∧
    worked [(4, tReg .ui32 0xFFFFFF00), (5, tReg .ui32 0x40), (6, tReg .si32 0x200)] (.leaA3 false 2 4 6) 2 = [(0x100, 0x41, 0)] := by
  decide +kernel

end Sys2Proof.Tests
end

section
/-! PROOFS. Predicate logic, PMOV and SEL (01_execution R36, R39, R40; 02_encoding R65, R66; 16_ref R363, R364; 17_ref R380). -/
namespace Sys2Proof.Machine

/-! ### Predicates of a fibre -/

theorem getLsbD_setBit16 (w : BitVec 16) {i : Nat} (hi : i < 16) (b : Bool) (n : Nat) : (setBit16 w i b).getLsbD n = if n = i then b else w.getLsbD n := by
  have hbit : (1#16 <<< i).getLsbD n = decide (n = i) := by
    rw [← BitVec.twoPow_eq, BitVec.getLsbD_twoPow]
    simp [hi, eq_comm]
  cases b
  · have hlt : w.getLsbD n = true → n < 16 := BitVec.lt_of_getLsbD
    by_cases h : n = i
    · simp [setBit16, h]
    · simpa [setBit16, hbit, h] using hlt
  · by_cases h : n = i <;> simp [setBit16, hbit, h, hi]

@[simp] theorem Fibre.pred_fifteen (f : Fibre) : f.pred 15 = true := rfl
@[simp] theorem Fibre.setPred_fifteen (f : Fibre) (b : Bool) : f.setPred 15 b = f := rfl

theorem Fibre.setPred_eq (f : Fibre) (q : PReg) (b : Bool) : f.setPred q b = { f with preds := (f.setPred q b).preds } := by
  unfold Fibre.setPred; split <;> rfl

theorem Fibre.setPred_pc (f : Fibre) (q : PReg) (b : Bool) : (f.setPred q b).pc = f.pc := by rw [setPred_eq]

theorem Fibre.setPred_preds {q : PReg} (hq : q ≠ 15) (f : Fibre) (b : Bool) (n : Nat) :
    (f.setPred q b).preds.getLsbD n = if n = q.toNat then b else f.preds.getLsbD n := by
  have : (q == 15) = false := by simpa using hq
  simp only [Fibre.setPred, this, Bool.false_eq_true, if_false]
  exact getLsbD_setBit16 _ q.isLt _ _

theorem Fibre.pred_setPred_same {q : PReg} (hq : q ≠ 15) (f : Fibre) (b : Bool) : (f.setPred q b).pred q = b := by
  have hne : (q == 15) = false := by simpa using hq
  simp only [Fibre.pred, hne, Bool.false_or, Fibre.setPred_preds hq, if_true]

theorem Fibre.pred_setPred_other {q r : PReg} (h : r ≠ q) (f : Fibre) (b : Bool) : (f.setPred q b).pred r = f.pred r := by
  by_cases hq : q = 15
  · subst hq; rw [setPred_fifteen]
  · have : r.toNat ≠ q.toNat := fun e => h (BitVec.eq_of_toNat_eq e)
    simp [Fibre.pred, Fibre.setPred_preds hq, this]

theorem Fibre.predWord_eq (f : Fibre) : f.predWord = f.preds ||| 0x8000 := rfl

theorem Fibre.popAll_nil (f : Fibre) : f.popAll [] = f := rfl
theorem Fibre.popAll_preds (f : Fibre) (rs : List Reg) : (f.popAll rs).preds = f.preds := by rw [popAll_eq]

/-- A fibre whose first n predicates are taken from a word where a mask names them (02_encoding R65). -/
def Fibre.takePreds (f : Fibre) (m : BitVec 16) (w : Word) (n : Nat) : Fibre :=
  (List.range n).foldl (fun g i => if m.getLsbD i then g.setPred (BitVec.ofNat 4 i) (w.getLsbD i) else g) f

theorem Fibre.takePreds_succ (f : Fibre) (m : BitVec 16) (w : Word) (n : Nat) :
    f.takePreds m w (n + 1) = if m.getLsbD n then (f.takePreds m w n).setPred (BitVec.ofNat 4 n) (w.getLsbD n) else f.takePreds m w n := by
  simp only [Fibre.takePreds, List.range_succ, List.foldl_append, List.foldl_cons, List.foldl_nil]

theorem Fibre.takePreds_eq (f : Fibre) (m : BitVec 16) (w : Word) (n : Nat) : f.takePreds m w n = { f with preds := (f.takePreds m w n).preds } := by
  induction n with
  | zero => rfl
  | succ n ih =>
    rw [takePreds_succ]
    split
    · rw [setPred_eq, ih]
    · exact ih

theorem Fibre.takePreds_pc (f : Fibre) (m : BitVec 16) (w : Word) (n : Nat) : (f.takePreds m w n).pc = f.pc := by rw [takePreds_eq]

theorem Fibre.takePreds_preds (f : Fibre) (m : BitVec 16) (w : Word) {n : Nat} (hn : n ≤ 15) (j : Nat) :
    (f.takePreds m w n).preds.getLsbD j = if j < n ∧ m.getLsbD j = true then w.getLsbD j else f.preds.getLsbD j := by
  induction n with
  | zero => simp [takePreds]
  | succ n ih =>
    have hto : (BitVec.ofNat 4 n).toNat = n := by simp only [BitVec.toNat_ofNat]; omega
    have hne : BitVec.ofNat 4 n ≠ 15 := by bv_omega
    have hlt : j < n + 1 ↔ j = n ∨ j < n := by omega
    have ih := ih (by omega)
    rw [takePreds_succ]
    split
    case isTrue hm =>
      rw [setPred_preds hne, hto, ih]
      by_cases hj : j = n <;> simp [hj, hm, hlt]
    case isFalse hm =>
      rw [ih]
      by_cases hj : j = n <;> simp [hj, hm, hlt]

/-! ### The course of `plan` without destinations, and the shapes of those it has -/

theorem marked_none (s : State) (i : Issue) (x : List Nat) : s.marked i x [] = s := by
  have hst : s.poison.filter (Datum.stands i.crew x []) = s.poison := List.filter_eq_self.2 fun m _ => by cases m <;> simp [Datum.stands]
  unfold State.marked State.unmark
  rw [overwrite_none, hst]
  split <;> rfl

/-- Each destination has the shape of its write once the results are written. -/
theorem writeDests_shaped {s : State} {t : Turn} {c : Crew} {ds : List Dest} (hc : s.getCrew t.i.crew = some c) (ok : c.regsOk = true) (hx : t.x.Nodup)
    (hd : ∀ D ∈ ds, D.d < 120 ∧ D.vals.map (fun p => p.1) = t.x) (hn : (ds.map fun D => D.d).Nodup) (hne : t.x ≠ []) (hp : (c.prepare ds t.x).isSome = true) :
    ∃ s2 d, s.writeDests t t.x ds = some s2 ∧ s2.cur = s.cur ∧ s2.getCrew t.i.crew = some d ∧ ∀ D ∈ ds, (d.desc D.d).shape = c.writeShape D.d D.shape t.x := by
  obtain ⟨c1, hc1⟩ := Option.isSome_iff_exists.1 hp
  obtain ⟨-, hout, -, -, -, -, hshape⟩ := writeAll_spec ok (fun D hD => (hd D hD).1) hn (fun D hD => (hd D hD).2) hx hc1
  have hid : (c1.putAll ds t.x).id = t.i.crew := (congrArg Crew.id hout).trans (show c.id = t.i.crew from getCrew_id hc)
  have hcrews : (s.marked t.i t.x (ds.map fun D => D.d)).crews = s.crews := by unfold State.marked; rw [unmark_eq]; rfl
  have hcur : (s.marked t.i t.x (ds.map fun D => D.d)).cur = s.cur := by unfold State.marked; rw [unmark_eq]; rfl
  unfold State.writeDests
  simp only [List.isEmpty_eq_false_iff.2 hne, hc, hc1, Bool.false_eq_true, if_false, Option.map_some]
  generalize s.marked t.i t.x (ds.map fun D => D.d) = u at *
  exact ⟨_, c1.putAll ds t.x, rfl, hcur, getCrew_modCrew_same (fun _ _ => hid) ((getCrew_congr hcrews _).trans hc), fun D hD => (hshape D hD).2⟩

theorem desc_modFibs (x : List Nat) (f : Nat → Fibre → Fibre) (c : Crew) (r : Nat) : (c.modFibs x f).desc r = c.desc r := by rw [modFibs_eq]; rfl

/-- Effects on fibres and the end of the turn leave the descriptors. -/
theorem finish_desc {u v : State} {t : Turn} {d : Crew} {x done : List Nat} {e : Nat → Fibre → Fibre} (hcur : u.cur = some t.i)
    (hd : u.getCrew t.i.crew = some d) (hg : t.gone = []) (hn : t.i.ranks.Nodup) (hv : (u.modRanks t.i.crew x e).finish t done = .next v) :
    ∃ c', v.getCrew t.i.crew = some c' ∧ ∀ r, c'.desc r = d.desc r := by
  obtain ⟨v', hv', c', -, hc', hout, -⟩ := finish_spec (u := u.modRanks t.i.crew x e) hcur (getCrew_modRanks_same hd) hg hn done
  obtain rfl : v' = v := by rw [hv] at hv'; exact (Host.Outcome.next.inj hv').symm
  exact ⟨c', hc', fun r => by rw [← desc_modFibs x e d, hout]; rfl⟩

section Plan
variable {α : Type} {s : State} {ins : Instr} {i : Issue} {c : Crew} {x : List Nat} {mk : State → Crew → Turn → Plan α} {a : Plan α} {v : Nat → α}

/-- An instruction of fixed latency that writes predicates and no register. -/
theorem plan_preds (h : Ready s ins i c x) (ok : c.regsOk = true) (ha : mk s c ⟨i, formOf c i.ext ins, x, []⟩ = a)
    (hr : ∀ k ∈ x, ∃ l, Reads s c k a.srcs l ∧ a.check k l = .ok (v k)) (hd : ∀ l, a.dests l = []) (hq : ∀ k w f, (a.fibre k w f).pc = f.pc) :
    ∃ t d, s.plan ins mk = .next t ∧ RegsWritten c d x [] ∧
      MovedOn (s.overwrite i x (a.preds.map fun p => 128 + p.toNat)) t i (formOf c i.ext ins) c d x fun k f => if k ∈ x then a.fibre k (v k) (f.popAll a.srcs) else f := by
  obtain ⟨t, d, hp, hw, hm⟩ := plan_done h ok ha hr (by simp [hd]) (by simp [hd]) (by simp [hd, Crew.prepare, Crew.shapeSteps]) hq
  simp only [hd, List.map_nil, marked_none] at hw hm
  exact ⟨t, d, hp, hw, hm⟩

/-- The instruction ends its turn in the state that its results leave. -/
theorem plan_finish {s2 : State} (h : Ready s ins i c x) (ha : mk s c ⟨i, formOf c i.ext ins, x, []⟩ = a)
    (hr : ∀ k ∈ x, ∃ l, Reads s c k a.srcs l ∧ a.check k l = .ok (v k))
    (hw : ((s.modRanks i.crew x fun _ f => f.popAll a.srcs).overwrite i x (a.preds.map fun p => 128 + p.toNat)).writeDests
      ⟨i, formOf c i.ext ins, x, []⟩ x (a.dests (x.map fun k => (k, v k))) = some s2) :
    s.plan ins mk = (s2.modRanks i.crew x (a.effect (x.map fun k => (k, v k)))).finish ⟨i, formOf c i.ext ins, x, []⟩ x := by
  unfold State.plan
  rw [perform_ready h]
  simp only [ha, checkAll_ok hr, splitPoison_ok (x := x) (v := v) fun k hk => (hr k hk).elim fun _ p => p.1.2, map_fst_pair, Plan.overflows_same,
    Bool.false_eq_true, if_false, List.append_nil, finishTraps_nil, getCrew_id h.crew_eq, hw]

/-- `plan_done` with the shapes of the registers written (01_execution R39, R40). -/
theorem plan_done_shaped (h : Ready s ins i c x) (ok : c.regsOk = true) (ha : mk s c ⟨i, formOf c i.ext ins, x, []⟩ = a)
    (hr : ∀ k ∈ x, ∃ l, Reads s c k a.srcs l ∧ a.check k l = .ok (v k))
    (hd : ∀ D ∈ a.dests (x.map fun k => (k, v k)), D.d < 120 ∧ D.vals.map (fun p => p.1) = x) (hn : ((a.dests (x.map fun k => (k, v k))).map fun D => D.d).Nodup)
    (hroom : c.Room x ((a.dests (x.map fun k => (k, v k))).map fun D => (D.d, D.shape))) (hq : ∀ k w f, (a.fibre k w f).pc = f.pc) :
    ∃ t d, s.plan ins mk = .next t ∧ Shaped c d x ((a.dests (x.map fun k => (k, v k))).map fun D => (D.d, D.shape)) ∧
      RegsWritten c d x ((a.dests (x.map fun k => (k, v k))).map fun D => (D.d, D.tag, D.value (c.writeShape D.d D.shape x))) ∧
      MovedOn ((s.overwrite i x (a.preds.map fun p => 128 + p.toNat)).marked i x ((a.dests (x.map fun k => (k, v k))).map fun D => D.d)) t i (formOf c i.ext ins) c d x
        fun k f => if k ∈ x then a.fibre k (v k) (f.popAll a.srcs) else f := by
  have hprep (hx : x ≠ []) : (c.prepare (a.dests (x.map fun k => (k, v k))) x).isSome = true := by
    have := hroom hx
    rwa [List.map_map] at this
  obtain ⟨t, d, hp, hw, hm⟩ := plan_done h ok ha hr hd hn hprep hq
  refine ⟨t, d, hp, fun hx p hpm => ?_, hw, hm⟩
  obtain ⟨D, hD, rfl⟩ := List.mem_map.1 hpm
  -- the state the results leave, with the shapes of the destinations
  have hc1 : ((s.modRanks i.crew x fun _ f => f.popAll a.srcs).overwrite i x (a.preds.map fun p => 128 + p.toNat)).getCrew i.crew =
      some (c.modFibs x fun _ f => f.popAll a.srcs) := getCrew_modRanks_same h.crew_eq
  obtain ⟨s2, e, hw2, hcur, he, hshape⟩ := writeDests_shaped (t := ⟨i, formOf c i.ext ins, x, []⟩) hc1 (regsOk_modFibs _ _ ok) h.x_nodup hd hn hx
    (by rw [prepare_modFibs (quiet_popAll _)]; exact hprep hx)
  rw [plan_finish h ha hr hw2] at hp
  obtain ⟨c1, hg1, hdesc⟩ := finish_desc (t := ⟨i, formOf c i.ext ins, x, []⟩) (hcur.trans h.cur_eq) he rfl h.ranks_nodup hp
  -- the same crew, as `plan_done` gives it
  obtain ⟨c2, -, hg2, hout, -⟩ := hm
  obtain rfl : c2 = c1 := Option.some.inj (hg2.symm.trans hg1)
  have hd2 : d.desc D.d = c2.desc D.d := by rw [hout]; rfl
  rw [hd2, hdesc, hshape D hD, writeShape_modFibs (quiet_popAll _)]

/-- An instruction of fixed latency that writes one register: D as the plan has it, of tag u, with the word w k at each rank. -/
theorem plan_one {D : Dest} {u : Tag} {w : Nat → Word} (h : Ready s ins i c x) (ok : c.regsOk = true) (ha : mk s c ⟨i, formOf c i.ext ins, x, []⟩ = a)
    (hr : ∀ k ∈ x, ∃ l, Reads s c k a.srcs l ∧ a.check k l = .ok (v k)) (hD : a.dests (x.map fun k => (k, v k)) = [D]) (hpreds : a.preds = []) (hd : D.d < 120)
    (hvals : D.vals.map (fun p => p.1) = x) (hroom : c.Room x [(D.d, D.shape)]) (hq : ∀ k y f, (a.fibre k y f).pc = f.pc) (htag : x ≠ [] → D.tag = u)
    (hw : ∀ k ∈ x, D.value (c.writeShape D.d D.shape x) k = w k) :
    ∃ t e, s.plan ins mk = .next t ∧ Shaped c e x [(D.d, D.shape)] ∧ RegsWritten c e x [(D.d, u, w)] ∧
      MovedOn (s.marked i x [D.d]) t i (formOf c i.ext ins) c e x fun k f => if k ∈ x then a.fibre k (v k) (f.popAll a.srcs) else f := by
  obtain ⟨t, e, hp, hs, hreg, hm⟩ := plan_done_shaped h ok ha hr (by simp [hD, hd, hvals]) (by simp [hD]) (by rwa [hD]) hq
  simp only [hD, hpreds, List.map_cons, List.map_nil, overwrite_none] at hs hreg hm
  refine ⟨t, e, hp, hs, ?_, hm⟩
  obtain ⟨hok, hout, htags, helem, hkept, htagsKept⟩ := hreg
  refine ⟨hok, hout, ?_, ?_, hkept, htagsKept⟩
  · simp only [List.mem_singleton, forall_eq] at htags ⊢
    exact fun hx => (htags hx).trans (htag hx)
  · simp only [List.mem_singleton, forall_eq] at helem ⊢
    exact fun k hk => (helem k hk).trans (hw k hk)

end Plan

/-! ### PAND, POR, PXOR, PNOT and PMOV -/

theorem reads_none (s : State) (c : Crew) (k : Nat) : Reads s c k [] [] := ⟨rfl, regPoisoned_nil s c.id k⟩

/-- A predicate operation at a ready turn (16_ref R363). -/
theorem planPred_done {s : State} {ins : Instr} {i : Issue} {c : Crew} {x : List Nat} (h : Ready s ins i c x) (ok : c.regsOk = true) (pd : PReg) (g : Fibre → Bool) :
    ∃ t c', (s.plan ins fun _ _ _ => planPred pd g) = .next t ∧ RegsWritten c c' x [] ∧
      MovedOn (s.overwrite i x [128 + pd.toNat]) t i (formOf c i.ext ins) c c' x fun k f => if k ∈ x then f.setPred pd (g f) else f :=
  plan_preds (a := planPred pd g) (v := fun _ => ()) h ok rfl (fun k _ => ⟨[], reads_none s c k, rfl⟩) (fun _ => rfl)
    fun _ _ f => f.setPred_pc pd (g f)

/-- Each executing rank has a fibre. -/
theorem Ready.fib_some {s : State} {ins : Instr} {i : Issue} {c : Crew} {x : List Nat} (h : Ready s ins i c x) {k : Nat} (hk : k ∈ x) : ∃ f, c.fib k = some f :=
  ⟨_, List.getElem?_eq_getElem (h.x_lt k hk)⟩

/-- At a ready turn the destinations that the form lists are general registers (01_execution R35). -/
theorem Ready.dests_lt {s : State} {ins : Instr} {i : Issue} {c : Crew} {x : List Nat} (h : Ready s ins i c x) : ∀ r ∈ (formOf c i.ext ins).dests, r.toNat < 120 := by
  obtain ⟨-, -, hcheck, -⟩ := h
  intro r hr
  by_contra hge
  have hany : ((formOf c i.ext ins).dests.any fun d => decide (120 ≤ d.toNat)) = true := List.any_eq_true.2 ⟨r, hr, by simp; omega⟩
  unfold Form.check at hcheck
  simp only [hany, if_true] at hcheck
  rcases ite_eq_iff.1 hcheck with ⟨-, hsome⟩ | ⟨-, hsome⟩ <;> cases hsome

/-- The predicates a mask names as PMOV reads them, p15 as 1 (16_ref R364). -/
def Crew.maskedPreds (c : Crew) (m : BitVec 16) (k : Nat) : BitVec 16 :=
  match c.fib k with
  | some f => f.predWord &&& m
  | none => 0

theorem exec_pmovToRegister (e : Bool) (v : Reg) (m : BitVec 16) (s : State) : exec (.pmovToRegister e v m) s = execPmovToRegister e v m s := rfl
theorem exec_pmovToPredicates (e : Bool) (v : Reg) (m : BitVec 16) (s : State) : exec (.pmovToPredicates e v m) s = execPmovToPredicates e v m s := rfl
theorem exec_sel (e : Bool) (ps : PReg) (inv : Bool) (d a b : Reg) (s : State) : exec (.sel e ps inv d a b) s = execSel e ps inv d a b s := rfl

/-- PMOV to a register: a G result with the predicate word under the mask (02_encoding R65, 16_ref R364). -/
theorem pmovToRegister_done {s : State} {e : Bool} {v : Reg} {m : BitVec 16} {i : Issue} {c : Crew} {x : List Nat} (h : Ready s (.pmovToRegister e v m) i c x)
    (ok : c.regsOk = true) (hroom : c.Room x [(v.toNat, .g)]) :
    ∃ t c', exec (.pmovToRegister e v m) s = .next t ∧ Shaped c c' x [(v.toNat, .g)] ∧
      RegsWritten c c' x [(v.toNat, .ui32, fun k => (c.maskedPreds m k).setWidth 32)] ∧
      MovedOn (s.marked i x [v.toNat]) t i (formOf c i.ext (.pmovToRegister e v m)) c c' x fun _ f => f := by
  have hg : c.writeShape v.toNat .g x = .g := ite_self _
  have hkeep : (fun (_ : Nat) (f : Fibre) => f) = fun k f => if k ∈ x then f else f := by simp only [ite_self]
  rw [exec_pmovToRegister, execPmovToRegister, hkeep]
  refine plan_one (v := c.maskedPreds m) (D := destG v.toNat .ui32 (x.map fun k => (k, (c.maskedPreds m k).setWidth 32))) h ok rfl
    (fun k _ => ⟨[], reads_none s c k, rfl⟩) ?_ rfl (h.dests_lt v (List.mem_singleton.2 rfl)) (map_fst_pair _ _) hroom (fun _ _ _ => rfl) (fun _ => rfl) fun k hk => ?_
  · simp only [List.map_map]; rfl
  · show Dest.value _ (c.writeShape v.toNat .g x) k = (c.maskedPreds m k).setWidth 32
    rw [hg, Dest.value, destG, valOf_pair hk]; rfl

/-- PMOV from a register: each executing fibre takes the predicates that the mask names (02_encoding R65, 16_ref R364). -/
theorem pmovToPredicates_done {s : State} {e : Bool} {v : Reg} {m : BitVec 16} {i : Issue} {c : Crew} {x : List Nat} {T : Tag} {va : Nat → Word}
    (h : Ready s (.pmovToPredicates e v m) i c x) (ok : c.regsOk = true) (hT : isInt32 T = true) (hr : ∀ k ∈ x, Reads s c k [v] [(va k, T)]) :
    ∃ t c', exec (.pmovToPredicates e v m) s = .next t ∧ RegsWritten c c' x [] ∧
      MovedOn (s.overwrite i x ((maskPreds m).map fun q => 128 + q.toNat)) t i (formOf c i.ext (.pmovToPredicates e v m)) c c' x
        fun k f => if k ∈ x then (f.popAll [v]).takePreds m (va k) 15 else f := by
  rw [exec_pmovToPredicates, execPmovToPredicates]
  exact plan_preds (v := va) h ok rfl (fun k hk => ⟨_, hr k hk, if_pos hT⟩) (fun _ => rfl) fun _ w f => f.takePreds_pc m w 15

/-- Moving on leaves the predicates that the effect gave. -/
theorem MovedOn.fib_preds {u t : State} {i : Issue} {fm : Form} {c d : Crew} {done : List Nat} {fib : Nat → Fibre → Fibre} (h : MovedOn u t i fm c d done fib)
    {k : Nat} {f : Fibre} (hf : c.fib k = some f) : ∃ c' g, t.getCrew i.crew = some c' ∧ c'.fib k = some g ∧ g.preds = (fib k f).preds := by
  obtain ⟨c', m, hc', -, hfib, -⟩ := h
  obtain ⟨g, hg, -, hon⟩ := hfib k f hf
  refine ⟨c', g, hc', hg, (congrArg Fibre.preds hon).trans ?_⟩
  show Fibre.preds (ite _ _ _) = _
  split <;> rfl

/-! ### SEL -/

/-- The live fibres of a crew (01_execution R14). -/
def Crew.liveFibres (c : Crew) : List Fibre := c.fibres.filter fun f => f.live

/-- The shape SEL gives its result (17_ref R380). -/
def Crew.selShape (c : Crew) (ps : PReg) (a b : Reg) : Shape :=
  if c.shapeOf a = .u ∧ c.shapeOf b = .u ∧ (c.elem a.toNat 0 = c.elem b.toNat 0 ∨
    (∀ f ∈ c.liveFibres, f.pred ps = true) ∨ ∀ f ∈ c.liveFibres, f.pred ps = false) then .u else .g

/-- The shape as the instruction tests for it. -/
theorem selShape_eq (c : Crew) (ps : PReg) (a b : Reg) :
    (if (c.shapeOf a == .u && c.shapeOf b == .u && (c.elem a.toNat 0 == c.elem b.toNat 0 ||
      (c.liveFibres.all (fun f => f.pred ps) || c.liveFibres.all fun f => !f.pred ps))) = true then Shape.u else .g) = c.selShape ps a b := by
  simp [Crew.selShape, and_assoc]

/-- The word SEL gives a rank (02_encoding R66). -/
def Crew.selWord (c : Crew) (ps : PReg) (inv : Bool) (va vb : Nat → Word) (k : Nat) : Word := if c.fibTest (fun f => f.pred ps != inv) k then va k else vb k

/-- The destination of SEL for the words and tags its fibres chose. -/
def Crew.selDest (c : Crew) (ps : PReg) (d a b : Reg) (l : List (Nat × Word × Tag)) : Dest :=
  ⟨d.toNat, (l.headD (0, 0, .si32)).2.2, c.selShape ps a b, (l.headD (0, 0, .si32)).2.1, 0, l.map fun p => (p.1, p.2.1)⟩

theorem fibTest_some {c : Crew} {k : Nat} {f : Fibre} (h : c.fib k = some f) (p : Fibre → Bool) : c.fibTest p k = p f := by
  unfold Crew.fibTest; rw [h]

/-- A rank listed for a test has a fibre that passes it. -/
theorem fib_of_mem_ranksOf {p : Fibre → Bool} {l : List Fibre} {j k : Nat} (h : k ∈ ranksOf p j l) : ∃ f, j ≤ k ∧ l[k - j]? = some f ∧ p f = true := by
  induction l generalizing j with
  | nil => cases h
  | cons g l ih =>
    have hrest (h : k ∈ ranksOf p (j + 1) l) : ∃ f, j ≤ k ∧ (g :: l)[k - j]? = some f ∧ p f = true := by
      obtain ⟨f, hle, hf, hp⟩ := ih h
      obtain ⟨n, rfl⟩ := Nat.exists_eq_add_of_le hle
      refine ⟨f, by omega, ?_, hp⟩
      rw [show j + 1 + n - j = n + 1 by omega, List.getElem?_cons_succ, ← hf]
      congr 1; omega
    unfold ranksOf at h
    split at h
    · rename_i hg
      rcases List.mem_cons.1 h with rfl | h
      · exact ⟨g, le_rfl, by simp, hg⟩
      · exact hrest h
    · exact hrest h

/-- A live rank has a live fibre. -/
theorem fib_of_mem_liveSet {c : Crew} {k : Nat} (h : k ∈ c.liveSet) : ∃ f, c.fib k = some f ∧ f ∈ c.liveFibres := by
  obtain ⟨f, -, hf, hl⟩ := fib_of_mem_ranksOf h
  exact ⟨f, hf, List.mem_filter.2 ⟨List.mem_of_getElem? hf, hl⟩⟩

/-- A result is written compact only by all live fibres, and then in its own shape (01_execution R40). -/
theorem writeShape_compact {c : Crew} {d : Nat} {sh : Shape} {x : List Nat} (h : c.writeShape d sh x ≠ .g) : x = c.liveSet ∧ c.writeShape d sh x = sh := by
  unfold Crew.writeShape at *
  split at h
  · exact absurd rfl h
  · rename_i hc
    simp only [Bool.or_eq_true, bne_iff_ne, ne_eq, not_or, not_not] at hc
    exact ⟨hc.1, if_neg (by simp [hc])⟩

/-- Two U registers read the same at every rank (01_execution R37). -/
theorem reads_uniform {s : State} {c : Crew} {k : Nat} {a b : Reg} {va vb : Word} {T : Tag} (h : Reads s c k [a, b] [(va, T), (vb, T)])
    (ha : c.shapeOf a = .u) (hb : c.shapeOf b = .u) : va = c.elem a.toNat 0 ∧ vb = c.elem b.toNat 0 := by
  obtain ⟨ha1, ha2⟩ := shapeOf_lt (r := a) (by rw [ha]; simp)
  obtain ⟨hb1, hb2⟩ := shapeOf_lt (r := b) (by rw [hb]; simp)
  have hread := h.1
  rw [readSrcs_held (by simp [ha1, hb1])] at hread
  have hl := Except.ok.inj hread
  simp only [List.map_cons, List.map_nil, List.cons.injEq, Prod.mk.injEq, and_true] at hl
  obtain ⟨⟨h1, -⟩, h2, -⟩ := hl
  rw [ha] at ha2; rw [hb] at hb2
  exact ⟨by rw [← h1, elem_u ha2.symm, elem_u ha2.symm], by rw [← h2, elem_u hb2.symm, elem_u hb2.symm]⟩

/-- A U result of SEL is one word at every live rank: the operands agree, or all live fibres choose the same one (17_ref R380). -/
theorem selWord_uniform {s : State} {c : Crew} {ps : PReg} {inv : Bool} {a b : Reg} {va vb : Nat → Word} {T : Tag} (hr : ∀ k ∈ c.liveSet, Reads s c k [a, b] [(va k, T), (vb k, T)])
    (hu : c.selShape ps a b = .u) {j k : Nat} (hj : j ∈ c.liveSet) (hk : k ∈ c.liveSet) : c.selWord ps inv va vb j = c.selWord ps inv va vb k := by
  unfold Crew.selShape at hu
  split at hu
  case isFalse => cases hu
  case isTrue hc =>
    obtain ⟨ha, hb, hsame⟩ := hc
    obtain ⟨f, hf, hfl⟩ := fib_of_mem_liveSet hj
    obtain ⟨g, hg, hgl⟩ := fib_of_mem_liveSet hk
    obtain ⟨ja, jb⟩ := reads_uniform (hr j hj) ha hb
    obtain ⟨ka, kb⟩ := reads_uniform (hr k hk) ha hb
    unfold Crew.selWord
    rw [fibTest_some hf, fibTest_some hg, ja, jb, ka, kb]
    rcases hsame with heq | hall | hall
    · rw [heq, ite_self, ite_self]
    · rw [hall f hfl, hall g hgl]
    · rw [hall f hfl, hall g hgl]

/-- The destination holds the chosen word at each executing rank, in whatever shape it is written. -/
theorem selDest_value {s : State} {c : Crew} {ps : PReg} {inv : Bool} {d a b : Reg} {x : List Nat} {va vb : Nat → Word} {T : Tag} (hr : ∀ k ∈ x, Reads s c k [a, b] [(va k, T), (vb k, T)])
    {k : Nat} (hk : k ∈ x) :
    (c.selDest ps d a b (x.map fun k => (k, c.selWord ps inv va vb k, T))).value (c.writeShape d.toNat (c.selShape ps a b) x) k = c.selWord ps inv va vb k := by
  cases hsh : c.writeShape d.toNat (c.selShape ps a b) x with
  | g =>
    simp only [Dest.value, Crew.selDest, List.map_map, Function.comp_def]
    rw [valOf_pair (v := c.selWord ps inv va vb) hk]; rfl
  | u =>
    obtain ⟨hx, hs⟩ := writeShape_compact (by rw [hsh]; simp)
    cases x with
    | nil => cases hk
    | cons j l =>
      exact selWord_uniform (by rwa [← hx]) (hs.symm.trans hsh) (by rw [← hx]; exact List.mem_cons_self) (by rwa [← hx])
  | a =>
    obtain ⟨-, hs⟩ := writeShape_compact (by rw [hsh]; simp)
    rw [hsh] at hs
    unfold Crew.selShape at hs
    split at hs <;> cases hs

/-- SEL at a ready turn (02_encoding R66, 17_ref R380). -/
theorem sel_done {s : State} {e inv : Bool} {ps : PReg} {d a b : Reg} {i : Issue} {c : Crew} {x : List Nat} {T : Tag} {va vb : Nat → Word}
    (h : Ready s (.sel e ps inv d a b) i c x) (ok : c.regsOk = true) (hd : d.toNat < 120) (hr : ∀ k ∈ x, Reads s c k [a, b] [(va k, T), (vb k, T)])
    (hroom : c.Room x [(d.toNat, c.selShape ps a b)]) :
    ∃ t c', exec (.sel e ps inv d a b) s = .next t ∧ Shaped c c' x [(d.toNat, c.selShape ps a b)] ∧
      RegsWritten c c' x [(d.toNat, T, c.selWord ps inv va vb)] ∧
      MovedOn (s.marked i x [d.toNat]) t i (formOf c i.ext (.sel e ps inv d a b)) c c' x fun k f => if k ∈ x then f.popAll [a, b] else f := by
  rw [exec_sel, execSel]
  refine plan_one (v := fun k => (c.selWord ps inv va vb k, T)) (D := c.selDest ps d a b (x.map fun k => (k, c.selWord ps inv va vb k, T))) h ok rfl
    (fun k hk => ⟨_, hr k hk, ?_⟩) ?_ rfl hd ?_ hroom (fun _ _ _ => rfl) ?_ fun k hk => selDest_value hr hk
  · obtain ⟨f, hf⟩ := h.fib_some hk
    simp [opTag, opnd, hf, Crew.selWord, fibTest_some hf]
  · cases x <;> simp only [Crew.selDest, ← selShape_eq] <;> rfl
  · simp only [Crew.selDest, List.map_map]; exact List.map_id' x
  · intro hx
    cases x with
    | nil => exact absurd rfl hx
    | cons k l => rfl

/-- Settles O6: each clause is the course of its instruction at a ready turn; a U result of SEL is one word at all live ranks. -/
theorem predicateOperationsAndSel : Obligations.PredicateOperationsAndSel := by
  unfold Obligations.PredicateOperationsAndSel
  refine ⟨fun e pd pa pb s i c x ok => ⟨?_, ?_, ?_, ?_, ?_⟩, ?_⟩
  · -- PAND, POR, PXOR and PNOT
    intro p hp h
    simp only [List.mem_cons, List.not_mem_nil, or_false] at hp
    rcases hp with rfl | rfl | rfl | rfl <;> exact planPred_done h ok pd _
  · -- PMOV to a register
    intro v m h hroom
    obtain ⟨t, c', hp, hs, hw, hm⟩ := pmovToRegister_done h ok hroom
    refine ⟨t, c', hp, hs, ?_, hm⟩
    refine hw.congr rfl fun E hE => ?_
    obtain rfl := List.mem_singleton.1 hE
    refine ⟨_, List.mem_singleton.2 rfl, rfl, rfl, fun k hk => ?_⟩
    obtain ⟨f, hf⟩ := h.fib_some hk
    simp only [Crew.maskedPreds, hf, Fibre.predWord_eq]
  · -- PMOV to the predicates: the frame
    intro v m T va h hT hr
    obtain ⟨t, c', hp, hw, hm⟩ := pmovToPredicates_done h ok hT hr
    refine ⟨t, c', _, hp, hw, hm, fun k f => ?_⟩
    by_cases hk : k ∈ x
    · simp only [if_pos hk]; exact Fibre.takePreds_eq _ _ _ _
    · simp only [if_neg hk]
  · -- PMOV to the predicates: the predicates the mask names
    intro v m T va h hT hr k hk f hf
    obtain ⟨t, c', hp, -, hm⟩ := pmovToPredicates_done h ok hT hr
    obtain ⟨c2, g, hc2, hg, hpreds⟩ := hm.fib_preds hf
    refine ⟨t, c2, g, hp, hc2, hg, fun n hn => ?_⟩
    rw [hpreds, if_pos hk, Fibre.takePreds_preds _ _ _ le_rfl, Fibre.popAll_preds]
    simp only [hn, true_and]
  · -- p15 and the other predicates
    exact fun f b => ⟨f.pred_fifteen, f.setPred_fifteen b, fun q hq => ⟨Fibre.pred_setPred_same hq f b, fun r hr => Fibre.pred_setPred_other hr f b⟩⟩
  · -- SEL
    intro e ps inv d a b s i c x T va vb h ok hd hr live sh hroom
    exact sel_done h ok hd hr hroom

end Sys2Proof.Machine
end

section
/-! PROOFS. The end of a turn, from effects on fibres (01_execution R22, R29). -/
namespace Sys2Proof.Machine

/-- Seen from a crew c whose fibres were brought to where they stand in d without moving them. -/
theorem MovedOn.since {u v : State} {i : Issue} {fm : Form} {c d e : Crew} {done : List Nat} {fib q : Nat → Fibre → Fibre}
    (h : MovedOn u v i fm d e done fib) (hf : ∀ k f, c.fib k = some f → d.fib k = some (q k f)) (hpc : ∀ k f, (q k f).pc = f.pc) :
    MovedOn u v i fm c e done fun k f => fib k (q k f) := by
  obtain ⟨c', m, hc', hout, hfib, hrest⟩ := h
  refine ⟨c', m, hc', hout, fun k f hk => ?_, hrest⟩
  obtain ⟨g, hg, hgpc, hon⟩ := hfib k _ (hf k f hk)
  exact ⟨g, hg, by rw [hgpc, hpc], hon⟩

/-- The same crew but for fibres and the converged flag is the same end. -/
theorem MovedOn.crew {u v : State} {i : Issue} {fm : Form} {c d e : Crew} {done : List Nat} {fib : Nat → Fibre → Fibre}
    (h : MovedOn u v i fm c d done fib) (hd : d = { e with fibres := d.fibres, converged := d.converged }) : MovedOn u v i fm c e done fib := by
  obtain ⟨c', m, hc', hout, hrest⟩ := h
  exact ⟨c', m, hc', sameCrew_trans hd hout, hrest⟩

/-- Effects that agree on the fibres of the crew, but for where they stand, are the same end where no region begins. -/
theorem MovedOn.onward {u v : State} {i : Issue} {fm : Form} {c d : Crew} {done : List Nat} {fib fib' : Nat → Fibre → Fibre}
    (h : MovedOn u v i fm c d done fib) (hr : fm.region = false) (hf : ∀ k f, Onward (fib' k f) (fib k f)) : MovedOn u v i fm c d done fib' := by
  obtain ⟨c', m, hc', hout, hfib, hrest⟩ := h
  refine ⟨c', m, hc', hout, fun k f hk => ?_, hrest⟩
  obtain ⟨g, hg, hgpc, hon⟩ := hfib k f hk
  simp only [hr, Bool.false_eq_true, false_and, if_false] at hon ⊢
  exact ⟨g, hg, hgpc, (hf k f).trans hon⟩

/-- Effects that agree on every fibre are the same end. -/
theorem MovedOn.congr {u v : State} {i : Issue} {fm : Form} {c d : Crew} {done : List Nat} {fib fib' : Nat → Fibre → Fibre}
    (h : MovedOn u v i fm c d done fib) (hf : ∀ k f, fib k f = fib' k f) : MovedOn u v i fm c d done fib' := (funext₂ hf : fib = fib') ▸ h

theorem fib_modFibs_some {y : List Nat} (hy : y.Nodup) (q : Nat → Fibre → Fibre) {c : Crew} {k : Nat} {f : Fibre} (hf : c.fib k = some f) :
    (c.modFibs y q).fib k = some (if k ∈ y then q k f else f) := by
  rw [modFibs_fib hy, hf]; split <;> rfl

/-- An effect on the fibres of y that leaves where they stand, and the end of the turn. -/
theorem modRanks_finish {u : State} {i : Issue} {fm : Form} {d : Crew} {x y : List Nat} {q : Nat → Fibre → Fibre} (hcur : u.cur = some i)
    (hd : u.getCrew i.crew = some d) (hn : i.ranks.Nodup) (hy : y.Nodup) (hpc : ∀ k f, (q k f).pc = f.pc) :
    ∃ t, (u.modRanks i.crew y q).finish ⟨i, fm, x, []⟩ x = .next t ∧ MovedOn u t i fm d d x fun k f => if k ∈ y then q k f else f := by
  obtain ⟨t, ht, hm⟩ := finish_spec (u := u.modRanks i.crew y q) (t := ⟨i, fm, x, []⟩) hcur (getCrew_modRanks_same hd) rfl hn x
  refine ⟨t, ht, ?_⟩
  have hsince := hm.since (q := fun k f => if k ∈ y then q k f else f) (fun k f hf => fib_modFibs_some hy q hf)
    fun k f => by show (ite _ _ _ : Fibre).pc = _; split; exacts [hpc k f, rfl]
  exact (hsince.crew (sameCrew_modFibs y q d)).base rfl fun id hid => getCrew_modRanks_other hid

/-! ### Gates -/

/-- The gate is behind a fibre (01_execution R24). -/
def Fibre.leavesGate (f : Fibre) : Fibre := { f with gate := none, meeting := none }

/-- The gate is behind the fibres of an issue. -/
def Issue.gatePassed (i : Issue) (k : Nat) (f : Fibre) : Fibre := if k ∈ i.ranks then f.leavesGate else f

theorem gatePassed_pc (i : Issue) (k : Nat) (f : Fibre) : (i.gatePassed k f).pc = f.pc := by unfold Issue.gatePassed; split <;> rfl

theorem passGate_eq (s : State) (t : Turn) : s.passGate t = s.modRanks t.i.crew t.i.ranks fun _ f => f.leavesGate := rfl

theorem quiet_leavesGate : Quiet fun _ f => f.leavesGate := fun _ _ => ⟨rfl, rfl, rfl⟩

end Sys2Proof.Machine
end

section
/-! PROOFS. NOP, YIELD, REGION, UIMASK and WAIT (16_ref R361, R371, 18_ref R401, R404, R408; 13_fabric R292). -/
namespace Sys2Proof.Machine

theorem exec_nop (e : Bool) (s : State) : exec (.nop e) s = execNop e s := rfl
theorem exec_yield (e : Bool) (s : State) : exec (.yield e) s = execYield e s := rfl
theorem exec_region (e : Bool) (s : State) : exec (.region e) s = execRegion e s := rfl
theorem exec_uimask (e m : Bool) (s : State) : exec (.uimask e m) s = execUimask e m s := rfl
theorem exec_wait (e : Bool) (loads stores copies tiles : BitVec 4) (s : State) : exec (.wait e loads stores copies tiles) s = execWait e loads stores copies tiles s := rfl

section
variable {e : Bool} {s : State} {i : Issue} {c : Crew} {x : List Nat}

/-- NOP moves on (16_ref R361). -/
theorem nop_done (h : Ready s (.nop e) i c x) : ∃ t, exec (.nop e) s = .next t ∧ MovedOn s t i (formOf c i.ext (.nop e)) c c x fun _ f => f := by
  rw [exec_nop, execNop, perform_ready h]
  exact finish_spec h.cur_eq h.crew_eq rfl h.ranks_nodup x

/-- NOP accepts a GUARD word (02_encoding R76, 16_ref R361). -/
theorem nop_check (e : Bool) (c : Crew) (g : Option (Bool × PReg)) :
    (formOf c { Ext.zero with guard := g } (.nop e)).check { Ext.zero with guard := g } = none := by cases g <;> rfl

/-- YIELD resets the count of lost arbitrations (18_ref R408). -/
theorem yield_done (h : Ready s (.yield e) i c x) :
    ∃ t, exec (.yield e) s = .next t ∧ MovedOn s t i (formOf c i.ext (.yield e)) c c x fun k f => if k ∈ x then { f with lost := 0 } else f := by
  rw [exec_yield, execYield, perform_ready h, getCrew_id h.crew_eq]
  obtain ⟨t, ht, hm⟩ := modRanks_finish (x := x) (fm := formOf c i.ext (.yield e)) (q := fun _ f => { f with lost := 0, stamp := s.cycles })
    h.cur_eq h.crew_eq h.ranks_nodup h.x_nodup fun _ _ => rfl
  refine ⟨t, ht, hm.onward rfl fun k f => ?_⟩
  by_cases hk : k ∈ x
  · simp only [if_pos hk]; rfl
  · simp only [if_neg hk]; rfl

/-- REGION begins a region at its own group (16_ref R371). -/
theorem region_done (h : Ready s (.region e) i c x) :
    ∃ t, exec (.region e) s = .next t ∧ MovedOn s t i (formOf c i.ext (.region e)) c c x fun k f => if k ∈ x then f.regionHere i.group s.nextId else f := by
  rw [exec_region, execRegion, perform_ready h, getCrew_id h.crew_eq]
  exact modRanks_finish h.cur_eq h.crew_eq h.ranks_nodup h.x_nodup fun _ _ => rfl

/-- UIMASK sets the crew's mask where a fibre executes it (18_ref R401). -/
theorem uimask_done {m : Bool} (h : Ready s (.uimask e m) i c x) :
    ∃ t, exec (.uimask e m) s = .next t ∧
      MovedOn s t i (formOf c i.ext (.uimask e m)) c (if x = [] then c else { c with uiMasked := m }) x fun _ f => f := by
  rw [exec_uimask, execUimask, perform_ready h]
  by_cases hx : x = []
  · subst hx
    exact finish_spec h.cur_eq h.crew_eq rfl h.ranks_nodup []
  · simp only [List.isEmpty_eq_false_iff.2 hx, Bool.false_eq_true, if_false, if_neg hx]
    have hid (d : Crew) (hd : d.id = i.crew) : ({ d with uiMasked := m } : Crew).id = i.crew := hd
    obtain ⟨t, ht, hm⟩ := finish_spec (u := s.modCrew i.crew fun d => { d with uiMasked := m }) (t := ⟨i, formOf c i.ext (.uimask e m), x, []⟩)
      h.cur_eq (getCrew_modCrew_same hid h.crew_eq) rfl h.ranks_nodup x
    exact ⟨t, by rw [getCrew_id h.crew_eq]; exact ht, (hm.since (c := c) (q := fun _ f => f) (fun _ _ hf => hf) fun _ _ => rfl).base rfl fun id hne => getCrew_modCrew_other hid hne⟩

/-- The number of operations WAIT names for a class, 15 where it names none (18_ref R404). -/
def waitLimit (loads stores copies tiles : BitVec 4) : OpClass → BitVec 4
  | .loads => loads
  | .stores => stores
  | .copies => copies
  | .tiles => tiles

/-- The numbers WAIT names, by class. -/
def waitLimits (loads stores copies tiles : BitVec 4) : List (OpClass × BitVec 4) := [(.loads, loads), (.stores, stores), (.copies, copies), (.tiles, tiles)]

theorem forall_waitLimits {loads stores copies tiles : BitVec 4} {p : OpClass × BitVec 4 → Prop} :
    (∀ q ∈ waitLimits loads stores copies tiles, p q) ↔ ∀ cls, p (cls, waitLimit loads stores copies tiles cls) := by
  simp only [waitLimits, List.forall_mem_cons, List.not_mem_nil, false_implies, implies_true, and_true]
  exact ⟨fun ⟨hl, hs, hc, ht⟩ cls => by cases cls <;> assumption, fun h => ⟨h .loads, h .stores, h .copies, h .tiles⟩⟩

/-- WAIT's gate for a fibre of a crew (18_ref R404, 13_fabric R292). -/
def WaitPasses (s : State) (crew : Nat) (limits : List (OpClass × BitVec 4)) (k : Nat) (f : Fibre) : Prop :=
  ∀ q ∈ limits, q.2 ≠ 15 →
    (f.counts.filter fun n => n.cls == q.1).length ≤ q.2.toNat ∧ ∀ z ∈ s.frozen, z.crew = crew → z.rank = k → ∀ n ∈ f.counts, n.cls = q.1 → n.op ≠ z.op

theorem fibre_waitHolds_iff (f : Fibre) (loads stores copies tiles : BitVec 4) :
    f.waitHolds loads stores copies tiles = true ↔
      ∀ cls, waitLimit loads stores copies tiles cls ≠ 15 → (f.counts.filter fun n => n.cls == cls).length ≤ (waitLimit loads stores copies tiles cls).toNat := by
  rw [← forall_waitLimits (p := fun q => q.2 ≠ 15 → (f.counts.filter fun n => n.cls == q.1).length ≤ q.2.toNat)]
  simp only [waitLimits, List.forall_mem_cons]
  simp [Fibre.waitHolds, or_iff_not_imp_left, and_assoc]

theorem waitHolds_iff (s : State) (crew k : Nat) (f : Fibre) (loads stores copies tiles : BitVec 4) :
    s.waitHolds crew k f loads stores copies tiles = true ↔ WaitPasses s crew (waitLimits loads stores copies tiles) k f := by
  unfold WaitPasses State.waitHolds
  rw [forall_waitLimits, Bool.and_eq_true, fibre_waitHolds_iff]
  simp only [Bool.not_eq_true', List.any_eq_false, Bool.and_eq_true, List.any_eq_true, beq_iff_eq, bne_iff_ne, not_and, not_exists, and_imp]
  constructor
  · rintro ⟨hcount, hfrozen⟩ cls hne
    refine ⟨hcount cls hne, fun z hz hzc hzk n hn hcls hop => ?_⟩
    exact hfrozen z hz hzc hzk n hn hop (hcls ▸ hne)
  · intro h
    exact ⟨fun cls hne => (h cls hne).1, fun z hz hzc hzk n hn hop hne => (h n.cls hne).2 z hz hzc hzk n hn rfl hop⟩

theorem wait_passes {loads stores copies tiles : BitVec 4} (h : Ready s (.wait e loads stores copies tiles) i c x)
    (hp : ∀ k ∈ x, ∀ f, c.fib k = some f → WaitPasses s c.id (waitLimits loads stores copies tiles) k f) :
    ∃ t, exec (.wait e loads stores copies tiles) s = .next t ∧ MovedOn s t i (formOf c i.ext (.wait e loads stores copies tiles)) c c x i.gatePassed := by
  have hall : x.all (fun k => c.fibTest (fun f => s.waitHolds c.id k f loads stores copies tiles) k) = true := List.all_eq_true.2 fun k hk => by
    obtain ⟨f, hf⟩ := h.fib_some hk
    rw [fibTest_some hf, waitHolds_iff]; exact hp k hk f hf
  rw [exec_wait, execWait, perform_ready h]
  simp only [hall, if_true, passGate_eq]
  exact modRanks_finish h.cur_eq h.crew_eq h.ranks_nodup h.ranks_nodup fun _ _ => rfl

/-- A fibre of an issue that goes back to wait at its gate (01_execution R24). -/
def Issue.gateWaits (i : Issue) (k : Nat) (f : Fibre) : Fibre := if k ∈ i.ranks ∧ f.st = .issuing then { f with st := .blocked, awaits := [awaitGate], pc := i.group } else f

/-- What going back to the gate does: the issue is no longer at hand, its fibres are blocked at the group, nothing else changes. -/
theorem unissue_spec {t : Turn} (hc : s.getCrew t.i.crew = some c) (hn : t.i.ranks.Nodup) :
    ∃ v c', s.unissue t = .next v ∧ v = { s with cur := none, crews := v.crews } ∧ v.getCrew t.i.crew = some c' ∧ c' = { c with fibres := c'.fibres } ∧
      (∀ k f, c.fib k = some f → c'.fib k = some (t.i.gateWaits k f)) ∧ ∀ id, id ≠ t.i.crew → v.getCrew id = s.getCrew id := by
  have hc0 : State.getCrew { s with cur := none } t.i.crew = some c := hc
  refine ⟨_, _, rfl, rfl, getCrew_modRanks_same hc0, modFibs_eq _ _ c, fun k f hf => ?_, fun id hid => getCrew_modRanks_other hid⟩
  rw [fib_modFibs_some hn _ hf]
  by_cases hk : k ∈ t.i.ranks <;> simp [Issue.gateWaits, hk]

theorem wait_waits {loads stores copies tiles : BitVec 4} (h : Ready s (.wait e loads stores copies tiles) i c x)
    (hp : ∃ k ∈ x, ∃ f, c.fib k = some f ∧ ¬WaitPasses s c.id (waitLimits loads stores copies tiles) k f) :
    ∃ t c', exec (.wait e loads stores copies tiles) s = .next t ∧ t = { s with cur := none, crews := t.crews } ∧ t.getCrew i.crew = some c' ∧ c' = { c with fibres := c'.fibres } ∧
      (∀ k f, c.fib k = some f → c'.fib k = some (i.gateWaits k f)) ∧ ∀ id, id ≠ i.crew → t.getCrew id = s.getCrew id := by
  obtain ⟨k, hk, f, hf, hnot⟩ := hp
  have hall : x.all (fun k => c.fibTest (fun f => s.waitHolds c.id k f loads stores copies tiles) k) = false := List.all_eq_false.2 ⟨k, hk, by
    rw [fibTest_some hf, waitHolds_iff]; exact hnot⟩
  rw [exec_wait, execWait, perform_ready h]
  simp only [hall, Bool.false_eq_true, if_false]
  exact unissue_spec h.crew_eq h.ranks_nodup

end

/-- Settles O10: each instruction's own part, then the end of its turn; WAIT by whether its gate holds. -/
theorem nopYieldRegionUimaskAndWait : Obligations.NopYieldRegionUimaskAndWait := by
  unfold Obligations.NopYieldRegionUimaskAndWait
  intro e s i c x
  refine ⟨rfl, rfl, nop_check e c, nop_done, yield_done, region_done, fun m => uimask_done, fun loads stores copies tiles h => ⟨wait_passes h, wait_waits h⟩⟩

end Sys2Proof.Machine
end

section
/-! PROOFS. Registers written past a gate (01_execution R24, R40). -/
namespace Sys2Proof.Machine

/-- An effect on the fibres of x and the end of the turn, after registers were written past a gate. -/
theorem finish_past_gate {m s2 : State} {i : Issue} {fm : Form} {c d : Crew} {x : List Nat} {ds : List (Nat × Tag × (Nat → Word))} {q : Nat → Fibre → Fibre}
    (hcur : s2.cur = some i) (hd : s2.getCrew i.crew = some d) (ho : ∀ id, id ≠ i.crew → s2.getCrew id = m.getCrew id) (hm : s2 = { m with crews := s2.crews })
    (hn : i.ranks.Nodup) (hx : x.Nodup) (hw : RegsWritten (c.modFibs i.ranks fun _ f => f.leavesGate) d x ds) (hpc : ∀ k f, (q k f).pc = f.pc) :
    ∃ t, (s2.modRanks i.crew x q).finish ⟨i, fm, x, []⟩ x = .next t ∧ RegsWritten c { c with regs := d.regs, rows := d.rows } x ds ∧
      MovedOn m t i fm c { c with regs := d.regs, rows := d.rows } x fun k f => if k ∈ x then q k (i.gatePassed k f) else i.gatePassed k f := by
  obtain ⟨hregs, hfibres, hout⟩ := hw.before quiet_leavesGate
  obtain ⟨t, ht, hmoved⟩ := modRanks_finish (x := x) (fm := fm) hcur hd hn hx hpc
  refine ⟨t, ht, hregs, ?_⟩
  have hfib (k : Nat) (f : Fibre) (hf : c.fib k = some f) : d.fib k = some (i.gatePassed k f) := by
    show d.fibres[k]? = _
    rw [hfibres]; exact fib_modFibs_some hn _ hf
  exact ((hmoved.since hfib (gatePassed_pc i)).base hm ho).crew (by rw [hout])

theorem marked_kept (s : State) (i : Issue) (x l : List Nat) : (s.marked i x l).crews = s.crews ∧ (s.marked i x l).cur = s.cur := by
  unfold State.marked; rw [unmark_eq]; exact ⟨rfl, rfl⟩

/-- A result written by the ranks that executed once the gate is behind the fibres, an effect on these ranks, and the end of the turn. -/
theorem passGate_write_finish {s : State} {i : Issue} {fm : Form} {c : Crew} {x : List Nat} {D : Dest} {o : Option State} (q : Nat → Fibre → Fibre)
    (ho : (s.passGate ⟨i, fm, x, []⟩).writeDests ⟨i, fm, x, []⟩ x [D] = o)
    (hcur : s.cur = some i) (hc : s.getCrew i.crew = some c) (hn : i.ranks.Nodup) (hx : x.Nodup) (hlt : ∀ k ∈ x, k < c.size) (ok : c.regsOk = true)
    (hd : D.d < 120) (hvals : D.vals.map (fun p => p.1) = x) (hroom : c.Room x [(D.d, D.shape)]) (hpc : ∀ k f, (q k f).pc = f.pc) :
    ∃ s2 t c', o = some s2 ∧ (s2.modRanks i.crew x q).finish ⟨i, fm, x, []⟩ x = .next t ∧
      RegsWritten c c' x [(D.d, D.tag, D.value (c.writeShape D.d D.shape x))] ∧ Shaped c c' x [(D.d, D.shape)] ∧
      MovedOn (s.marked i x [D.d]) t i fm c c' x fun k f => if k ∈ x then q k (i.gatePassed k f) else i.gatePassed k f := by
  subst ho
  -- the crew past the gate
  have hc1 : (s.passGate ⟨i, fm, x, []⟩).getCrew i.crew = some (c.modFibs i.ranks fun _ f => f.leavesGate) := getCrew_modRanks_same hc
  have ok1 := regsOk_modFibs i.ranks (fun _ f => f.leavesGate) ok
  have hsize : (c.modFibs i.ranks fun _ f => f.leavesGate).size = c.size := by rw [modFibs_eq]
  have hdest : ∀ E ∈ [D], E.d < 120 ∧ E.vals.map (fun p => p.1) = x := by simp only [List.mem_singleton, forall_eq]; exact ⟨hd, hvals⟩
  have hprep (hne : x ≠ []) : ((c.modFibs i.ranks fun _ f => f.leavesGate).prepare [D] x).isSome = true := by
    rw [prepare_modFibs quiet_leavesGate]; exact hroom hne
  -- the state the result leaves, and the end of the turn from there
  obtain ⟨s2, d, hw, hd2, hother, hrest, hregs⟩ := writeDests_spec (t := ⟨i, fm, x, []⟩) (ds := [D]) hc1 ok1 hx (fun E hE => (hdest E hE).1) (List.nodup_singleton _)
    (fun E hE => (hdest E hE).2) (fun k hk => by rw [hsize]; exact hlt k hk) hprep
  obtain ⟨hcrews, hmcur⟩ := marked_kept s i x [D.d]
  have hm : s2 = { s.marked i x [D.d] with crews := s2.crews } :=
    hrest.trans (congrArg (fun u : State => { u with crews := s2.crews }) (marked_crews s i x [D.d] _))
  have hcur2 : s2.cur = some i := by rw [hm]; exact hmcur.trans hcur
  simp only [List.map_singleton, writeShape_modFibs quiet_leavesGate] at hregs
  obtain ⟨t, ht, hr, hmoved⟩ := finish_past_gate (m := s.marked i x [D.d]) (fm := fm) (c := c) (q := q) hcur2 hd2
    (fun id hid => ((hother id hid).trans (getCrew_modRanks_other hid)).trans (getCrew_congr hcrews id).symm) hm hn hx hregs hpc
  refine ⟨s2, t, _, hw, ht, hr, fun hne => ?_, hmoved⟩
  -- the same state and crew, as `writeDests_shaped` gives them
  obtain ⟨s3, d3, hw3, -, hd3, hshape⟩ := writeDests_shaped (t := ⟨i, fm, x, []⟩) hc1 ok1 hx hdest (List.nodup_singleton _) hne (hprep hne)
  obtain rfl := Option.some.inj (hw.symm.trans hw3)
  obtain rfl := Option.some.inj (hd2.symm.trans hd3)
  simp only [List.mem_singleton, forall_eq, writeShape_modFibs quiet_leavesGate] at hshape ⊢
  exact hshape

theorem RegsWritten.one {c d : Crew} {x : List Nat} {r : Nat} {u u' : Tag} {v w : Nat → Word} (h : RegsWritten c d x [(r, u, v)]) (hu : x ≠ [] → u = u')
    (hw : ∀ k ∈ x, v k = w k) : RegsWritten c d x [(r, u', w)] := by
  obtain ⟨ok, hout, htag, helem, hkept, htags⟩ := h
  simp only [List.mem_singleton, forall_eq] at htag helem
  refine ⟨ok, hout, ?_, ?_, hkept, htags⟩
  · simp only [List.mem_singleton, forall_eq]
    exact fun hx => (htag hx).trans (hu hx)
  · simp only [List.mem_singleton, forall_eq]
    exact fun k hk => (helem k hk).trans (hw k hk)

end Sys2Proof.Machine
end

section
/-! PROOFS. The course of a cross-fibre instruction whose fibres are in their meetings (01_execution R24, 16_ref R343). -/
namespace Sys2Proof.Machine

theorem gateAll_holds {s : State} {f : State → Nat → State × Gate} {x : List Nat} (h : ∀ k ∈ x, f s k = (s, .holds)) : s.gateAll f x = (s, [], true) := by
  induction x with
  | nil => rfl
  | cons k l ih => simp only [State.gateAll, h k List.mem_cons_self, ih fun r hr => h r (List.mem_cons_of_mem k hr)]

/-- Where the gate of every executing fibre holds they go on together. -/
theorem atGate_holds {s : State} {i : Issue} {fm : Form} {x : List Nat} {f : State → Nat → State × Gate} (h : ∀ k ∈ x, f s k = (s, .holds)) (next : State → Turn → Out) :
    s.atGate ⟨i, fm, x, []⟩ f next = next s ⟨i, fm, x, []⟩ := by
  have hx : x.filter (fun r => !([] : List Nat).contains r) = x := List.filter_eq_self.2 (by simp)
  simp only [State.atGate, gateAll_holds h, trapTurn_nil, hx, if_true]

/-- The gate holds for a fibre whose meeting has captured its values (16_ref R343). -/
theorem xfGate_met {s : State} {crew k : Nat} {c : Crew} {f : Fibre} {m : Meeting} (xf : Xf) (hc : s.getCrew crew = some c) (hf : c.fib k = some f)
    (hm : f.meeting = some m) (hv : m.vals ≠ []) : s.xfGate crew xf m.pc k = (s, .holds) := by
  simp [State.xfGate, hc, hf, hm, List.isEmpty_eq_false_iff.2 hv]

/-- A crew whose fibres x are in meetings at the group of an issue, which captured their members' values of tag T, with room for a result in register d (16_ref R343, 01_execution R40). -/
structure AtMeeting (c : Crew) (i : Issue) (x : List Nat) (d : Nat) (T : Tag) (mt : Nat → Meeting) : Prop where
  regs : c.regsOk = true
  dest : d < 120
  met : ∀ k ∈ x, (mt k).pc = i.group ∧ (mt k).tag = T ∧ (mt k).vals ≠ [] ∧ ∀ f, c.fib k = some f → f.meeting = some (mt k)
  room : c.Room x [(d, .g)]

/-- What a cross-fibre instruction does in fibres that are in their meetings: `word` and `flags` say what each writes and sets (16_ref R343). -/
def EndsMeeting (s : State) (i : Issue) (c : Crew) (x : List Nat) (d : Nat) (mt : Nat → Meeting) (ins : Instr) (u : Tag) (word : Meeting → Nat → Word) (flags : Meeting → Nat → Nat) : Prop :=
  Ready s ins i c x → ∃ t c', exec ins s = .next t ∧ RegsWritten c c' x [(d, u, fun k => word (mt k) k)] ∧ (x ≠ [] → (c'.desc d).shape = .g) ∧
    MovedOn (s.marked i x [d]) t i (formOf c i.ext ins) c c' x fun k f => if k ∈ x then (i.gatePassed k f).flag (flags (mt k) k) else i.gatePassed k f

section
variable {s : State} {i : Issue} {c : Crew} {x : List Nat} {ins : Instr} {u T : Tag} {mt : Nat → Meeting} {word word' : Meeting → Nat → Word} {flags flags' : Meeting → Nat → Nat}

theorem AtMeeting.tag_eq {d : Nat} (h : AtMeeting c i x d T mt) {k : Nat} (hk : k ∈ x) : (mt k).tag = T := by
  obtain ⟨-, htag, -⟩ := h.met k hk
  exact htag

theorem AtMeeting.meeting_eq {d : Nat} (h : AtMeeting c i x d T mt) {k : Nat} (hk : k ∈ x) {f : Fibre} (hf : c.fib k = some f) : f.meeting = some (mt k) := by
  obtain ⟨-, -, -, hm⟩ := h.met k hk
  exact hm f hf

theorem AtMeeting.gate_holds {d : Nat} (h : AtMeeting c i x d T mt) (hready : Ready s ins i c x) (xf : Xf) : ∀ k ∈ x, s.xfGate c.id xf i.group k = (s, .holds) := by
  intro k hk
  obtain ⟨hpc, -, hv, hm⟩ := h.met k hk
  obtain ⟨f, hf⟩ := hready.fib_some hk
  have hc : s.getCrew c.id = some c := by rw [getCrew_id hready.crew_eq]; exact hready.crew_eq
  rw [← hpc]; exact xfGate_met xf hc hf (hm f hf) hv

/-- Each executing fibre writes its result and takes its flags from the meeting. -/
theorem AtMeeting.cross {d a m : Reg} {sh : Bool} {tags : Tag → Bool} {tag : Tag → Tag} {res : Meeting → Nat → Word × Nat} (hat : AtMeeting c i x d.toNat T mt)
    (hexec : exec ins s = s.cross ins tag res) (hxf : xfOf ins = some ⟨d, a, m, sh, tags⟩) :
    EndsMeeting s i c x d.toNat mt ins (tag T) (fun q k => (res q k).1) fun q k => (res q k).2 := by
  intro h
  have hmeet : ∀ k ∈ x, (((s.getCrew c.id).bind fun c1 => c1.fib k).bind fun g => g.meeting) = some (mt k) := fun k hk => by
    obtain ⟨f, hf⟩ := h.fib_some hk
    rw [getCrew_id h.crew_eq, h.crew_eq]
    simp only [Option.bind_some, hf]
    exact hat.meeting_eq hk hf
  rw [hexec, State.cross, perform_ready h]
  simp only [hxf]
  rw [atGate_holds (hat.gate_holds h _), List.map_congr_left (g := fun k => (k, res (mt k) k, tag T)) fun k hk => by rw [hmeet k hk]; simp only [hat.tag_eq hk]]
  generalize ho : State.writeDests _ _ _ _ = o
  obtain ⟨s2, t, c', rfl, hfin, hregs, hshape, hmoved⟩ := passGate_write_finish
    (fun k g => g.flag ((Option.map (fun v => v.1.2) (valOf (x.map fun k => (k, res (mt k) k, tag T)) k)).getD 0)) ho h.cur_eq h.crew_eq h.ranks_nodup h.x_nodup
    (h.lt_size hat.regs) hat.regs hat.dest (by simp only [destG, List.map_map]; exact List.map_id' x) hat.room fun _ _ => rfl
  refine ⟨t, c', by rw [getCrew_id h.crew_eq]; exact hfin, hregs.one (fun hx => ?_) fun k hk => ?_, fun hx => ?_, hmoved.congr fun k f => ?_⟩
  · cases x with
    | nil => exact absurd rfl hx
    | cons k l => rfl
  · simp only [destG, writeShape_g, Dest.value, List.map_map, Function.comp_def]
    rw [valOf_pair (v := fun k => (res (mt k) k).1) hk]; rfl
  · exact (hshape hx _ List.mem_cons_self).trans (writeShape_g ..)
  · split
    case isTrue hk => rw [valOf_pair hk]; rfl
    case isFalse => rfl

/-- The words and flags named count at the members alone. -/
theorem EndsMeeting.congr {d : Nat} (h : EndsMeeting s i c x d mt ins u word flags) (hv : ∀ k ∈ x, (word (mt k) k, flags (mt k) k) = (word' (mt k) k, flags' (mt k) k)) :
    EndsMeeting s i c x d mt ins u word' flags' := by
  intro hready
  obtain ⟨t, c', hnext, hregs, hshape, hmoved⟩ := h hready
  refine ⟨t, c', hnext, hregs.one (fun _ => rfl) fun k hk => (Prod.mk.inj (hv k hk)).1, hshape, hmoved.congr fun k f => ?_⟩
  by_cases hk : k ∈ x
  · simp only [if_pos hk, (Prod.mk.inj (hv k hk)).2]
  · simp only [if_neg hk]

theorem EndsMeeting.shape_first {d : Nat} (h : EndsMeeting s i c x d mt ins u word flags) (hready : Ready s ins i c x) :
    ∃ t c', exec ins s = .next t ∧ (x ≠ [] → (c'.desc d).shape = .g) ∧ RegsWritten c c' x [(d, u, fun k => word (mt k) k)] ∧
      MovedOn (s.marked i x [d]) t i (formOf c i.ext ins) c c' x fun k f => if k ∈ x then (i.gatePassed k f).flag (flags (mt k) k) else i.gatePassed k f := by
  obtain ⟨t, c', hnext, hregs, hshape, hmoved⟩ := h hready
  exact ⟨t, c', hnext, hshape, hregs, hmoved⟩

end

end Sys2Proof.Machine
end

section
/-! PROOFS. What a meeting gives its members: SHFL, VOTE and MATCH, FOLD, SCAN and their steps (03_arithmetic R114, 16_ref R344, R345, 17_ref R378, R379, 18_ref R403). -/
namespace Sys2Proof.Machine

/-! ### SHFL and MATCH -/

/-- What a meeting captured from a member: its value, and d of SHFL (16_ref R343). -/
def Meeting.own (q : Meeting) (k : Nat) : Word × Word := ((q.vals.find? fun v => v.1 == k).map fun v => v.2).getD (0, 0)

theorem Meeting.find_member (q : Meeting) (k : Nat) :
    (∃ v, q.vals.find? (fun v => v.1 == k) = some v ∧ (q.vals.any fun v => v.1 == k) = true ∧ q.own k = v.2) ∨
      q.vals.find? (fun v => v.1 == k) = none ∧ (q.vals.any fun v => v.1 == k) = false := by
  cases hf : q.vals.find? fun v => v.1 == k with
  | some v => exact .inl ⟨v, rfl, List.any_eq_true.2 ⟨v, List.mem_of_find?_eq_some hf, by simpa using List.find?_some hf⟩, by simp [Meeting.own, hf]⟩
  | none => exact .inr ⟨rfl, List.any_eq_false.2 (List.find?_eq_none.1 hf)⟩

/-- The word SHFL gives a member: that of the lane it names, its own where the lane is out of the mask (17_ref R378). -/
def Meeting.shfl (src : Int → Nat → Int) (q : Meeting) (k : Nat) : Word :=
  let j := src (k % 32 : Nat) (q.own k).2.toNat
  if 0 ≤ j ∧ j ≤ 31 ∧ (q.vals.any fun v => v.1 == k / 32 * 32 + j.toNat) = true then (q.own (k / 32 * 32 + j.toNat)).1 else (q.own k).1

theorem shflFrom_eq (src : Int → Nat → Int) (q : Meeting) (k : Nat) : shflFrom (fun z w => src z w.toNat) q k = (q.shfl src k, 0) := by
  have hown (j : Nat) : ((q.vals.find? fun v => v.1 == j).map fun v => v.2).getD (0, 0) = q.own j := rfl
  simp only [shflFrom, Meeting.shfl, hown]
  generalize src (k % 32 : Nat) (q.own k).2.toNat = j
  by_cases hj : 0 ≤ j ∧ j ≤ 31
  · rcases q.find_member (k / 32 * 32 + j.toNat) with ⟨v, hf, hany, hown⟩ | ⟨hf, hany⟩
    · simp only [hf, hj, hany, hown, and_self, if_true]
    · simp only [hf, hj, hany, Bool.false_eq_true, and_false, and_self, if_true, if_false]
  · have hnot : ¬(0 ≤ j ∧ j ≤ 31 ∧ (q.vals.any fun v => v.1 == k / 32 * 32 + j.toNat) = true) := fun h => hj ⟨h.1, h.2.1⟩
    simp only [if_neg hj, if_neg hnot]

/-- The word MATCH.any gives a member: the members with its value (16_ref R345). -/
def Meeting.matching (q : Meeting) (k : Nat) : Word := if (q.vals.any fun v => v.1 == k) = true then ballotOf (q.vals.filter fun v => v.2.1 == (q.own k).1) else 0

theorem matchAny_eq (q : Meeting) (k : Nat) :
    (match q.vals.find? fun v => v.1 == k with | some own => ballotOf (q.vals.filter fun v => v.2.1 == own.2.1) | none => 0) = q.matching k := by
  unfold Meeting.matching
  rcases q.find_member k with ⟨v, hf, hany, hown⟩ | ⟨hf, hany⟩
  · simp only [hf, hany, hown, if_true]
  · simp only [hf, hany, Bool.false_eq_true, if_false]

/-- The word MATCH.all gives every member: the mask when all values are equal (16_ref R345). -/
def Meeting.agreed (q : Meeting) : Word := if q.vals ≠ [] ∧ ∀ v ∈ q.vals, ∀ w ∈ q.vals, v.2.1 = w.2.1 then q.mask else 0

/-- All values are equal when each equals the first. -/
theorem matchAll_eq (q : Meeting) :
    (match q.vals with | v :: r => if r.all fun w => w.2.1 == v.2.1 then q.mask else 0 | [] => 0) = q.agreed := by
  unfold Meeting.agreed
  cases q.vals with
  | nil => rfl
  | cons v r =>
    refine if_congr ?_ rfl rfl
    simp only [List.all_eq_true, beq_iff_eq]
    constructor
    · intro h
      have hfirst : ∀ w ∈ v :: r, w.2.1 = v.2.1 := List.forall_mem_cons.2 ⟨rfl, h⟩
      exact ⟨List.cons_ne_nil v r, fun u hu w hw => (hfirst u hu).trans (hfirst w hw).symm⟩
    · exact fun ⟨_, h⟩ w hw => h w (List.mem_cons_of_mem v hw) v List.mem_cons_self

/-! ### The tree of FOLD -/

theorem foldRound_length {α : Type} (op : α → α → α) : ∀ l : List α, (foldRound op l).length = (l.length + 1) / 2
  | [] => by simp [foldRound]
  | [_] => by simp [foldRound]
  | x :: y :: r => by
    simp only [foldRound, List.length_cons, foldRound_length op r]
    omega

/-- A round leaves the fold of an associative step. -/
theorem foldl_foldRound {α : Type} {op : α → α → α} (ha : ∀ x y z, op (op x y) z = op x (op y z)) : ∀ (l : List α) (z : α), (foldRound op l).foldl op z = l.foldl op z
  | [], _ => rfl
  | [_], _ => rfl
  | x :: y :: r, z => by
    simp only [foldRound, List.foldl_cons, foldl_foldRound ha r, ha]

/-- The tree of an associative step is its fold (03_arithmetic R114). -/
theorem foldTree_assoc {α : Type} {op : α → α → α} (ha : ∀ x y z, op (op x y) z = op x (op y z)) (n : Nat) (v : α) (r : List α) (hn : (v :: r).length ≤ 2 ^ n) :
    foldTree op n (v :: r) = [r.foldl op v] := by
  induction n generalizing v r with
  | zero =>
    cases r with
    | nil => rfl
    | cons w r => simp at hn
  | succ n ih =>
    cases r with
    | nil => rfl
    | cons w r =>
      have hlen : (op v w :: foldRound op r).length ≤ 2 ^ n := by
        simp only [List.length_cons, foldRound_length, pow_succ] at hn ⊢
        omega
      show foldTree op n (op v w :: foldRound op r) = _
      rw [ih _ _ hlen, foldl_foldRound ha]
      rfl

/-- The fold of a bitwise operation over the members' words (16_ref R344). -/
def Meeting.bitFold (f : Word → Word → Word) (q : Meeting) : Word := match q.vals with | v :: r => r.foldl (fun w u => f w u.2.1) v.2.1 | [] => 0

theorem foldl_foldBitOp (f : Word → Word → Word) (T : Tag) (r : List (Nat × Word × Word)) (w : Word) :
    (r.map fun u => (u.2.1, 0)).foldl (foldBitOp f T) (w, 0) = (r.foldl (fun w u => f w u.2.1) w, 0) := by
  induction r generalizing w with
  | nil => rfl
  | cons u r ih => exact ih (f w u.2.1)

theorem foldRes_bits {f : Word → Word → Word} (ha : ∀ x y z, f (f x y) z = f x (f y z)) (q : Meeting) (hq : q.vals.length ≤ 32) (k : Nat) :
    foldRes (foldBitOp f) q k = (q.bitFold f, 0) := by
  unfold foldRes Meeting.bitFold
  cases hv : q.vals with
  | nil => rfl
  | cons v r =>
    have hassoc : ∀ x y z : Word × Nat, foldBitOp f q.tag (foldBitOp f q.tag x y) z = foldBitOp f q.tag x (foldBitOp f q.tag y z) :=
      fun x y z => congrArg (·, 0) (ha x.1 y.1 z.1)
    rw [List.map_cons, foldTree_assoc hassoc _ _ _ (by simp [hv] at hq ⊢; omega), foldl_foldBitOp]
    rfl

/-- The tree of FOLD over the members' words (16_ref R344). -/
def Meeting.tree (op : Word × Nat → Word × Nat → Word × Nat) (q : Meeting) : Word × Nat := (foldTree op 6 (q.vals.map fun v => (v.2.1, 0))).headD (0, 0)

/-- The result of a member under SCAN, over the members up to it (17_ref R379). -/
def Meeting.scan (op : Word × Nat → Word × Nat → Word × Nat) (q : Meeting) (k : Nat) : Word × Nat :=
  match (q.vals.filter fun v => v.1 ≤ k).map fun v => (v.2.1, 0) with | y :: r => r.foldl op y | [] => (0, 0)

theorem foldRes_eq (op : Tag → Word × Nat → Word × Nat → Word × Nat) (q : Meeting) (k : Nat) : foldRes op q k = q.tree (op q.tag) := rfl
theorem scanRes_eq (op : Tag → Word × Nat → Word × Nat → Word × Nat) (q : Meeting) (k : Nat) : scanRes op q k = q.scan (op q.tag) k := rfl

/-! ### The steps of FOLD and SCAN -/

theorem wordOp_int32 {T : Tag} (hT : isInt32 T = true) (f : Elem → List Nat → Nat × Nat) (a b : Word) (p q : Nat) :
    wordOp T f (a, p) (b, q) = (BitVec.ofNat 32 (f (.int (T == .si32) 32) [a.toNat, b.toNat]).1, p ||| q ||| (f (.int (T == .si32) 32) [a.toNat, b.toNat]).2) := by
  simp only [wordOp, eachElem_int32 hT, mergeElems_one, List.map_cons, List.map_nil]
  rw [flagsOf_one]

/-- 32-bit integers wrap (16_ref R344). -/
theorem foldAddOp_int32 {T : Tag} (hT : isInt32 T = true) (a b : Word) (p q : Nat) : foldAddOp T (a, p) (b, q) = (a + b, p ||| q) := by
  rw [foldAddOp, wordOp_int32 hT, addElem_word]
  simp [addElem]

/-- The order of two integers of a tag (03_arithmetic R93). -/
def int32Less (T : Tag) (a b : Word) : Prop := if T = .si32 then a.toInt < b.toInt else a.toNat < b.toNat

theorem int32Less_iff (T : Tag) (a b : Word) : intOf (T == .si32) 32 a.toNat < intOf (T == .si32) 32 b.toNat ↔ int32Less T a b := by
  unfold int32Less
  by_cases hT : T = .si32
  · simp [hT, int32_signed]
  · have : (T == .si32) = false := by simpa using hT
    rw [this, if_neg hT, int32_unsigned, int32_unsigned]; omega

theorem minmaxOp_int32 {T : Tag} (hT : isInt32 T = true) (isMax : Bool) (a b : Word) (p q : Nat) :
    (int32Less T a b → wordOp T (minmaxElem isMax) (a, p) (b, q) = (if isMax then b else a, p ||| q)) ∧
      (¬int32Less T a b → wordOp T (minmaxElem isMax) (a, p) (b, q) = (if isMax then a else b, p ||| q)) := by
  rw [← int32Less_iff, wordOp_int32 hT]
  simp only [minmaxElem, List.getD_cons_zero, List.getD_cons_succ]
  cases isMax <;> exact ⟨fun h => by simp [h], fun h => by simp [h]⟩

theorem minmaxElem_flags (isMax : Bool) (e : Elem) (xs : List Nat) : (minmaxElem isMax e xs).2 = 0 := by cases e <;> rfl

/-- MIN and MAX set no flags (03_arithmetic R104). -/
theorem minmaxOp_flags (T : Tag) (isMax : Bool) (a b : Word) (p q : Nat) :
    wordOp T (minmaxElem isMax) (a, p) (b, q) = (mergeElems none 0 (eachElem T (minmaxElem isMax) [a, b]), p ||| q) := by
  have hzero : flagsOf none (eachElem T (minmaxElem isMax) [a, b]) = 0 := flagsOf_zero _ _ fun r hr => by
    obtain ⟨n, -, rfl⟩ := List.mem_map.1 hr
    exact minmaxElem_flags isMax _ _
  simp only [wordOp, hzero, Nat.or_zero]

end Sys2Proof.Machine
end

section
/-! PROOFS. The cross-fibre instructions at their meetings (16_ref R343 to R345, 17_ref R378, R379, 18_ref R403). -/
namespace Sys2Proof.Machine

/-! ### Each instruction by what its meeting gives -/

theorem exec_shflIdx (e : Bool) (d a m : Reg) (s : State) : exec (.shflIdx e d a m) s = s.cross (.shflIdx e d a m) (fun t => t) (fun q k => (q.shfl (fun _ n => ((n % 32 : Nat) : Int)) k, 0)) := by
  rw [← funext₂ (shflFrom_eq _)]; rfl
theorem exec_shflUp (e : Bool) (d a m : Reg) (s : State) : exec (.shflUp e d a m) s = s.cross (.shflUp e d a m) (fun t => t) (fun q k => (q.shfl (fun j n => j - n) k, 0)) := by
  rw [← funext₂ (shflFrom_eq _)]; rfl
theorem exec_shflDown (e : Bool) (d a m : Reg) (s : State) : exec (.shflDown e d a m) s = s.cross (.shflDown e d a m) (fun t => t) (fun q k => (q.shfl (fun j n => j + n) k, 0)) := by
  rw [← funext₂ (shflFrom_eq _)]; rfl
theorem exec_shflXor (e : Bool) (d a m : Reg) (s : State) : exec (.shflXor e d a m) s = s.cross (.shflXor e d a m) (fun t => t) (fun q k => (q.shfl (fun j n => ((j.toNat ^^^ (n % 32) : Nat) : Int)) k, 0)) := by
  rw [← funext₂ (shflFrom_eq _)]; rfl
theorem exec_voteAny (e : Bool) (d a m : Reg) (s : State) : exec (.voteAny e d a m) s = s.cross (.voteAny e d a m) (fun _ => .ui32) (fun q _ => (wordBit (q.vals.any votes), 0)) := rfl
theorem exec_voteAll (e : Bool) (d a m : Reg) (s : State) : exec (.voteAll e d a m) s = s.cross (.voteAll e d a m) (fun _ => .ui32) (fun q _ => (wordBit (q.vals.all votes), 0)) := rfl
theorem exec_voteBallot (e : Bool) (d a m : Reg) (s : State) : exec (.voteBallot e d a m) s = s.cross (.voteBallot e d a m) (fun _ => .ui32) (fun q _ => (ballotOf (q.vals.filter votes), 0)) := rfl
theorem exec_matchAny (e : Bool) (d a m : Reg) (s : State) : exec (.matchAny e d a m) s = s.cross (.matchAny e d a m) (fun _ => .ui32) (fun q k => (q.matching k, 0)) := by
  rw [← funext₂ fun q k => congrArg (·, 0) (matchAny_eq q k)]; rfl
theorem exec_matchAll (e : Bool) (d a m : Reg) (s : State) : exec (.matchAll e d a m) s = s.cross (.matchAll e d a m) (fun _ => .ui32) (fun q _ => (q.agreed, 0)) := by
  rw [← funext₂ fun q _ => congrArg (·, 0) (matchAll_eq q)]; rfl
theorem exec_foldAdd (e : Bool) (d a m : Reg) (s : State) : exec (.foldAdd e d a m) s = s.cross (.foldAdd e d a m) (fun t => t) (foldRes foldAddOp) := rfl
theorem exec_foldMin (e : Bool) (d a m : Reg) (s : State) : exec (.foldMin e d a m) s = s.cross (.foldMin e d a m) (fun t => t) (foldRes foldMinOp) := rfl
theorem exec_foldMax (e : Bool) (d a m : Reg) (s : State) : exec (.foldMax e d a m) s = s.cross (.foldMax e d a m) (fun t => t) (foldRes foldMaxOp) := rfl
theorem exec_foldAnd (e : Bool) (d a m : Reg) (s : State) : exec (.foldAnd e d a m) s = s.cross (.foldAnd e d a m) (fun t => t) (foldRes (foldBitOp fun y z => y &&& z)) := rfl
theorem exec_foldOr (e : Bool) (d a m : Reg) (s : State) : exec (.foldOr e d a m) s = s.cross (.foldOr e d a m) (fun t => t) (foldRes (foldBitOp fun y z => y ||| z)) := rfl
theorem exec_foldXor (e : Bool) (d a m : Reg) (s : State) : exec (.foldXor e d a m) s = s.cross (.foldXor e d a m) (fun t => t) (foldRes (foldBitOp fun y z => y ^^^ z)) := rfl
theorem exec_scanAdd (e : Bool) (d a m : Reg) (s : State) : exec (.scanAdd e d a m) s = s.cross (.scanAdd e d a m) (fun t => t) (scanRes foldAddOp) := rfl
theorem exec_scanMin (e : Bool) (d a m : Reg) (s : State) : exec (.scanMin e d a m) s = s.cross (.scanMin e d a m) (fun t => t) (scanRes foldMinOp) := rfl
theorem exec_scanMax (e : Bool) (d a m : Reg) (s : State) : exec (.scanMax e d a m) s = s.cross (.scanMax e d a m) (fun t => t) (scanRes foldMaxOp) := rfl
theorem exec_scanAnd (e : Bool) (d a m : Reg) (s : State) : exec (.scanAnd e d a m) s = s.cross (.scanAnd e d a m) (fun t => t) (scanRes (foldBitOp fun y z => y &&& z)) := rfl
theorem exec_scanOr (e : Bool) (d a m : Reg) (s : State) : exec (.scanOr e d a m) s = s.cross (.scanOr e d a m) (fun t => t) (scanRes (foldBitOp fun y z => y ||| z)) := rfl
theorem exec_scanXor (e : Bool) (d a m : Reg) (s : State) : exec (.scanXor e d a m) s = s.cross (.scanXor e d a m) (fun t => t) (scanRes (foldBitOp fun y z => y ^^^ z)) := rfl

/-! ### FOLD and SCAN -/

section
variable {s : State} {i : Issue} {c : Crew} {x : List Nat} {ins : Instr} {T : Tag} {mt : Nat → Meeting} {d a m : Reg} {tags : Tag → Bool}

theorem AtMeeting.tree {op : Tag → Word × Nat → Word × Nat → Word × Nat} (h : AtMeeting c i x d.toNat T mt) (hexec : exec ins s = s.cross ins (fun t => t) (foldRes op))
    (hxf : xfOf ins = some ⟨d, a, m, false, tags⟩) : EndsMeeting s i c x d.toNat mt ins T (fun q _ => (q.tree (op T)).1) fun q _ => (q.tree (op T)).2 :=
  (h.cross hexec hxf).congr fun k hk => by rw [foldRes_eq, h.tag_eq hk]

theorem AtMeeting.scan {op : Tag → Word × Nat → Word × Nat → Word × Nat} (h : AtMeeting c i x d.toNat T mt) (hexec : exec ins s = s.cross ins (fun t => t) (scanRes op))
    (hxf : xfOf ins = some ⟨d, a, m, false, tags⟩) : EndsMeeting s i c x d.toNat mt ins T (fun q k => (q.scan (op T) k).1) fun q k => (q.scan (op T) k).2 :=
  (h.cross hexec hxf).congr fun k hk => by rw [scanRes_eq, h.tag_eq hk]

/-- The tree of a bitwise step over at most 32 members is its fold, with no flags. -/
theorem AtMeeting.bitFold {f : Word → Word → Word} (h : AtMeeting c i x d.toNat T mt) (hlen : ∀ k ∈ x, (mt k).vals.length ≤ 32) (ha : ∀ y z w, f (f y z) w = f y (f z w))
    (hexec : exec ins s = s.cross ins (fun t => t) (foldRes (foldBitOp f))) (hxf : xfOf ins = some ⟨d, a, m, false, tags⟩) :
    EndsMeeting s i c x d.toNat mt ins T (fun q _ => q.bitFold f) fun _ _ => 0 :=
  (h.cross hexec hxf).congr fun k hk => foldRes_bits ha (mt k) (hlen k hk) k

end

/-- Settles O26: each instruction is the common course with the result of its meeting; the tree of a bitwise step is its fold, as the step is associative. -/
theorem crossFibreInstructionsCompleteAtTheirMeeting : Obligations.CrossFibreInstructionsCompleteAtTheirMeeting := by
  unfold Obligations.CrossFibreInstructionsCompleteAtTheirMeeting
  refine ⟨?_, fun op a b c d e => ⟨rfl, rfl, rfl, rfl, rfl⟩, fun a b p q => ⟨?_, ?_⟩⟩
  · intro e d a m s i c x T mt ok hd hmt hroom
    have h : AtMeeting c i x d.toNat T mt := ⟨ok, hd, hmt, hroom⟩
    refine ⟨h.cross (exec_shflIdx ..) rfl, h.cross (exec_shflUp ..) rfl, h.cross (exec_shflDown ..) rfl, h.cross (exec_shflXor ..) rfl,
      h.cross (exec_voteAny ..) rfl, h.cross (exec_voteAll ..) rfl, h.cross (exec_voteBallot ..) rfl, h.cross (exec_matchAny ..) rfl, h.cross (exec_matchAll ..) rfl, ?_, ?_⟩
    · -- FOLD.and, FOLD.or and FOLD.xor as folds
      intro p hp hlen
      simp only [List.mem_cons, List.not_mem_nil, or_false] at hp
      rcases hp with rfl | rfl | rfl
      · exact h.bitFold hlen BitVec.and_assoc (exec_foldAnd ..) rfl
      · exact h.bitFold hlen BitVec.or_assoc (exec_foldOr ..) rfl
      · exact h.bitFold hlen BitVec.xor_assoc (exec_foldXor ..) rfl
    · -- FOLD as the tree, SCAN over the members up to each
      intro p hp
      simp only [List.mem_cons, List.not_mem_nil, or_false] at hp
      rcases hp with rfl | rfl | rfl | rfl | rfl | rfl
      · exact ⟨h.tree (exec_foldAdd ..) rfl, (h.scan (exec_scanAdd ..) rfl).shape_first⟩
      · exact ⟨h.tree (exec_foldMin ..) rfl, (h.scan (exec_scanMin ..) rfl).shape_first⟩
      · exact ⟨h.tree (exec_foldMax ..) rfl, (h.scan (exec_scanMax ..) rfl).shape_first⟩
      · exact ⟨h.tree (exec_foldAnd ..) rfl, (h.scan (exec_scanAnd ..) rfl).shape_first⟩
      · exact ⟨h.tree (exec_foldOr ..) rfl, (h.scan (exec_scanOr ..) rfl).shape_first⟩
      · exact ⟨h.tree (exec_foldXor ..) rfl, (h.scan (exec_scanXor ..) rfl).shape_first⟩
  · -- 32-bit integers
    intro T hT
    have hint : isInt32 T = true := by
      simp only [List.mem_cons, List.not_mem_nil, or_false] at hT
      rcases hT with rfl | rfl <;> rfl
    obtain ⟨hmin, hmin'⟩ := minmaxOp_int32 hint false a b p q
    obtain ⟨hmax, hmax'⟩ := minmaxOp_int32 hint true a b p q
    exact ⟨foldAddOp_int32 hint a b p q, fun h => ⟨hmin h, hmax h⟩, fun h => ⟨hmin' h, hmax' h⟩⟩
  · -- the other tags
    exact fun T _ => ⟨rfl, minmaxOp_flags T false a b p q, minmaxOp_flags T true a b p q⟩

end Sys2Proof.Machine
end
